-- ==== Sys2Proof/Word.lean ====
section
/-!
DEFINITION. The machine's words and their plainest arithmetic (R5, R8: bit 0 is the least significant bit, ranges are
written high bit first, integers in pseudocode are exact).
-/

namespace Sys2Proof

/-- A 64-bit control or scalar register value (R281). -/
abbrev Word := BitVec 64

/-- One byte of memory. -/
abbrev Byte := BitVec 8

/-- One vector register: 128 lanes of 32 bits, lane 0 in the low bits (R263). -/
abbrev VReg := BitVec 4096

/-- A predicate over the 128 lanes (R165, R170, R323). -/
abbrev Mask := BitVec 128

/-- One accumulator tile: 64 rows of 64 words of 32 bits, row-major, word 0 in the low bits (R340). -/
abbrev TileBits := BitVec 131072

/-- Bits h to l of a natural number, as R8 writes x[h:l]. -/
def bits (x h l : Nat) : Nat := (x >>> l) % 2 ^ (h + 1 - l)

/-- Bit i of a natural number. -/
def bit (x i : Nat) : Bool := x.testBit i

/-- The value of a two's complement number of w bits held in x. -/
def sintOf (w x : Nat) : Int := if x % 2 ^ w < 2 ^ (w - 1) then (x % 2 ^ w : Nat) else ((x % 2 ^ w : Nat) : Int) - (2 ^ w : Nat)

/-- An integer modulo 2^w. -/
def natOf (w : Nat) (x : Int) : Nat := (x % ((2 ^ w : Nat) : Int)).toNat

/-- 1 for true, 0 for false. -/
def b2n (b : Bool) : Nat := if b then 1 else 0

/-- The little-endian number of a list of bytes (R5). -/
def leNat : List Byte → Nat
  | [] => 0
  | b :: bs => b.toNat + 256 * leNat bs

/-- The n little-endian bytes of a number (R5). -/
def leBytes : Nat → Nat → List Byte
  | 0, _ => []
  | n + 1, x => BitVec.ofNat 8 x :: leBytes n (x / 256)

/-- Consecutive numbers a, a+1, ..., a+n-1. -/
def range (a : Nat) : Nat → List Nat
  | 0 => []
  | n + 1 => a :: range (a + 1) n

/-- The first element of a list that meets a test, with its index. -/
def findIdxVal {α : Type} (p : α → Bool) : List α → Nat → Option (Nat × α)
  | [], _ => none
  | a :: as, i => if p a then some (i, a) else findIdxVal p as (i + 1)

/-- The list without its element number i. -/
def dropIdx {α : Type} : List α → Nat → List α
  | [], _ => []
  | _ :: as, 0 => as
  | a :: as, i + 1 => a :: dropIdx as i

/-- Apply f to the elements that meet p. -/
def mapIf {α : Type} (p : α → Bool) (f : α → α) (l : List α) : List α := l.map (fun a => if p a then f a else a)

/-- Apply f to element number i. -/
def modIdx {α : Type} (f : α → α) : List α → Nat → List α
  | [], _ => []
  | a :: as, 0 => f a :: as
  | a :: as, i + 1 => a :: modIdx f as i

end Sys2Proof
end

