-- ==== Sys2Proof/Config.lean ====
section
/-!
DEFINITION. What the part fixes (R1) and the free values: constants without a body, of which nothing can be proved, for the
values that the manual leaves open (the assumption log names each).
-/

namespace Sys2Proof.Config

/-- Lanes of a vector register (R1, R3). -/
def width : Nat := 128

/-- Dies, clusters per die, pairs per cluster, pairs per die, vaults per die (R1, R2). -/
def dies : Nat := 4
def pairsPerDie : Nat := 96
def clusterPairs : Nat := 16
def vaultsPerDie : Nat := 24

/-- Free value (assumption 6): byte i of what a reader under key generation `reader` decrypts from the 16-byte cipher block at an
address whose plaintext was `block` under key generation `writer` (R47, R436). -/
opaque wrongKeyByte : (writer reader addr : Nat) → (block : List Byte) → (i : Nat) → Byte

/-- Free value (assumption 7): the SM3 hash of a key or an image, and whether an SM2 signature over a hash verifies under a key (R434). -/
opaque sm3 : (data : Nat) → BitVec 256
opaque sm2Verifies : (key : Nat) → (digest : BitVec 256) → (sig : Nat) → Bool

/-- Free value (assumption 7): measurement number i, the SM3 hash of what it measures (R435). -/
opaque measurement : (index : Nat) → (content : List Nat) → BitVec 256

/-- Free value (assumption 7): an SM2 signature by the device key over a transcript (R435). -/
opaque signature : (boot transcript : Nat) → BitVec 512

/-- Free value (assumption 7): byte i of the certificate chain and its digest (R435). -/
opaque certByte : Nat → Byte
opaque certDigest : BitVec 256

/-- Free value (assumption 7): the responder's share of a key exchange, and whether a finish MAC is right (R435). -/
opaque keyShare : (boot share : Nat) → BitVec 512
opaque finishMacOk : (boot share mac : Nat) → Bool

/-- Free value (assumption 8): the last place of a correctly rounded special function when an interval of width 2^-840 does
not decide it (R318). -/
opaque specBits : (fn fmt bits mode : Nat) → Nat

/-- Free value (assumption 12): byte number off of a part of a context image whose layout is private to the part (R411); number
says which save. -/
opaque imageByte : (number off : Nat) → Byte

/-- Free value (assumption 13): how many bytes a state dump writes, and which (R440); number says which boot and whether it is whole. -/
opaque dumpSize : (number : Nat) → Nat
opaque dumpByte : (number off : Nat) → Byte

end Sys2Proof.Config
end

