-- ==== Sys2Proof/Syntax.lean ====
section
/-!
DEFINITION. The syntax: one constructor per row of spec/opcode_table.json. Control and data instructions and task records
carry the fields of their formats (R236, R238, R239, R185), hardware steps carry the identity of the agent that moves and,
for a step that begins outside the device, what arrives with it.
-/

namespace Sys2Proof

/-- Register fields of format CR (R236). -/
structure CR where
  rd : BitVec 6
  ra : BitVec 6
  rb : BitVec 6
  deriving DecidableEq, Repr

/-- Format CI (R236). -/
structure CI where
  rd : BitVec 6
  ra : BitVec 6
  imm : BitVec 13
  deriving DecidableEq, Repr

/-- Format CB, without its condition, which the constructor names (R236, R245). -/
structure CB where
  ra : BitVec 6
  rb : BitVec 6
  off : BitVec 10
  deriving DecidableEq, Repr

/-- Format CJ (R236). -/
structure CJ where
  rd : BitVec 6
  off : BitVec 19
  deriving DecidableEq, Repr

/-- Format CM (R236). -/
structure CM where
  rd : BitVec 6
  ra : BitVec 6
  sz : BitVec 2
  off : BitVec 11
  deriving DecidableEq, Repr

/-- Format CX, without its major (R238). -/
structure CX where
  rd : BitVec 6
  ra : BitVec 6
  rb : BitVec 6
  rc : BitVec 6
  scope : BitVec 4
  ord : BitVec 2
  sub : BitVec 7
  imm : BitVec 20
  deriving DecidableEq, Repr

/-- Format D64, without its major (R239). -/
structure D64 where
  vd : BitVec 6
  va : BitVec 6
  vb : BitVec 6
  vc : BitVec 6
  msel : BitVec 3
  z : Bool
  nas : BitVec 2
  fa : Bool
  fb : Bool
  la : Bool
  lb : Bool
  ru : Bool
  fn : BitVec 5
  x16 : BitVec 16
  deriving DecidableEq, Repr

/-- A task record without its opcode (R185): six 12-bit slots, slot 0 first. -/
structure Rec where
  scope : BitVec 4
  cnd : BitVec 4
  slots : BitVec 72
  x32 : BitVec 32
  q2 : BitVec 64
  q3 : BitVec 64
  deriving DecidableEq, Repr

/-- How a PCIe request of the device ended (R420). -/
inductive PcieStatus where
  | ok | ur | ca | poisoned
  deriving DecidableEq, Repr

/-- What the completion of a host write's zero-length read found, or a peer said of a store (R420, R428). -/
inductive PeerStatus where
  | ok | unbacked | ecc
  deriving DecidableEq, Repr

/-- The PCIe AtomicOps (R418). -/
inductive AtomicKind where
  | fetchAdd | swap | cas
  deriving DecidableEq, Repr

/-- Which base address register an incoming request names (R422): function 0 is the physical function. -/
structure BarAddr where
  port : Bool      -- false P0, true P1
  func : Nat
  bar : Nat
  off : Nat
  deriving DecidableEq, Repr

/-- What a peer asks for (R427): offsets are those of R19; the number is the operand, cmp the compare value of a CAS. -/
inductive PeerOp where
  | load (size : Nat)
  | store (data : List Byte)
  | amo (op : Nat) (size : Nat) (b cmp : Nat)
  deriving DecidableEq, Repr

/-- What one die controller is offered at boot (R434): the root public key that comes with the image, the image and its SM2 signature, the
decode table and its signature (R250), each as a number. -/
structure BootDie where
  key : Nat
  image : Nat
  sig : Nat
  table : Nat
  tableSig : Nat
  deriving DecidableEq, Repr

/-- The boot configuration and the image offered to the four die controllers (R434, R419, R22, R440). -/
structure BootImage where
  die0 : BootDie
  die1 : BootDie
  die2 : BootDie
  die3 : BootDie
  svn : Nat
  commit : Bool
  locgib : Nat
  p1mode : Nat          -- 0 upstream, 1 root, 2 disabled
  dumpBase : Nat        -- bits 51:30 of the dump region's base
  deriving DecidableEq, Repr

/-- Where an uncorrectable or a corrected storage error is found (R437, R438). -/
inductive EccSite where
  | corrected (pa : Nat)                       -- HBM or attic frame, corrected
  | cleanLine (pair line : Nat)                -- a clean line of a pair's caches, refetched
  | cleanVault (die line : Nat)                -- a clean line of a vault cache, refetched
  | cleanCode (die line : Nat)                 -- a line of a die's L2 instruction cache, refetched
  | dirtyLine (pair line unit : Nat)           -- 64-bit unit of a line with dirty words in an L1
  | dirtyVault (die line unit : Nat)           -- the same in a vault cache
  | memory (pa : Nat)                          -- HBM, attic or pantry ECC unit
  | vreg (pair slot reg unit : Nat)            -- 64-bit unit of a vector register
  | tile (pair slot tile unit : Nat)
  | scale (pair slot side entry : Nat)
  | creg (pair slot reg : Nat)
  | sreg (pair slot reg : Nat)
  | mreg (pair slot reg unit : Nat)            -- 64-bit unit of a mask register
  deriving DecidableEq, Repr

/-- Where a fatal error strikes (R440). -/
inductive FatalSite where
  | dieController (die : Nat) | snoopFilter (die : Nat) | directory (die : Nat) | bridge (die : Nat)
  deriving DecidableEq, Repr

/-- The ONE inductive of instructions: every row of spec/opcode_table.json. -/
inductive Instr where
  -- control, 32 bits (09)
  | illegal
  | add (f : CR) | sub (f : CR) | and (f : CR) | or (f : CR) | xor (f : CR) | andn (f : CR)
  | sll (f : CR) | srl (f : CR) | sra (f : CR) | ror (f : CR)
  | slt (f : CR) | sltu (f : CR) | seq (f : CR) | min (f : CR) | max (f : CR) | minu (f : CR) | maxu (f : CR)
  | mul (f : CR) | mulh (f : CR) | mulhu (f : CR) | div (f : CR) | divu (f : CR) | rem (f : CR) | remu (f : CR)
  | clz (f : CR) | ctz (f : CR) | popc (f : CR)
  | addi (f : CI) | andi (f : CI) | ori (f : CI) | xori (f : CI) | slli (f : CI) | srli (f : CI) | srai (f : CI)
  | slti (f : CI) | sltiu (f : CI)
  | lih (f : CJ) | addpc (f : CJ)
  | bEq (f : CB) | bNe (f : CB) | bLt (f : CB) | bGe (f : CB) | bLtu (f : CB) | bGeu (f : CB)
  | jal (f : CJ) | jalr (f : CI)
  | ld (f : CM) | lds (f : CM) | st (f : CM)
  | csrr (f : CI) | csrw (f : CI) | trap (f : CI) | yield (f : CI) | exit
  | exitComplete (pair slot : Nat) | yieldEnd (pair slot : Nat)
  -- control, 64 bits (09)
  | ldo (f : CX) | sto (f : CX) | amo (f : CX) | fence (f : CX) | waitv (f : CX)
  | waitvWake (pair slot : Nat) | waitvReread (pair slot : Nat) | waitvTimeout (pair slot : Nat)
  | icinv (f : CX) | cinv (f : CX) | pref (f : CX) | lea (f : CX) | mzip (f : CX) | munz (f : CX) | bfx (f : CX) | bfi (f : CX)
  | chp (f : CX) | chpm (f : CX) | chutePushResume (pair slot : Nat)
  | dwpop (f : CX) | dwpopResume (pair slot : Nat) | qfence (f : CX) | qfenceComplete (pair slot : Nat) | tenq (f : CX)
  -- engine commands (12)
  | cpy (f : CX) | gath (f : CX) | scat (f : CX) | scata (f : CX) | stair (f : CX)
  | cntset (f : CX) | cntadd (f : CX) | waitc (f : CX) | waitcComplete (pair slot : Nat)
  | subs (f : CX) | unsub (f : CX) | engq (f : CX)
  | engineQueueSlotFree (pair slot : Nat) | storeBufferSpace (pair slot : Nat)
  -- data slice (10)
  | vfadd (f : D64) | vfsub (f : D64) | vfmul (f : D64) | vfma (f : D64) | vfms (f : D64) | vfnma (f : D64)
  | vfmin (f : D64) | vfmax (f : D64) | vfcmp (f : D64) | vfspec (f : D64) | vfdiv (f : D64)
  | viadd (f : D64) | visub (f : D64) | vimul (f : D64) | vimad (f : D64) | vimin (f : D64) | vimax (f : D64)
  | vand (f : D64) | vor (f : D64) | vxor (f : D64) | vshl (f : D64) | vshr (f : D64) | vsar (f : D64)
  | vicmp (f : D64) | vibit (f : D64)
  | mop (f : D64) | mcnt (f : D64) | mfirst (f : D64) | mmov (f : D64)
  | vcvt (f : D64) | vmov (f : D64) | vbcast (f : D64) | vsel (f : D64) | vlane (f : D64) | vins (f : D64)
  | vxch (f : D64) | vrot (f : D64) | vshuf (f : D64) | vred (f : D64) | vscan (f : D64) | vcomp (f : D64) | vexpd (f : D64)
  | vprune (f : D64)
  | vld (f : D64) | vst (f : D64) | vldx (f : D64) | vstx (f : D64) | vldc (f : D64) | pfill (f : D64) | pmark (f : D64)
  | salu (f : D64) | sli (f : D64) | sst (f : D64) | sld (f : D64) | dwpush (f : D64) | dwpushResume (pair slot : Nat)
  -- matrix (11)
  | mma (f : D64) | mmas (f : D64) | mzero (f : D64) | msta (f : D64) | mlda (f : D64) | mscl (f : D64) | mrdv (f : D64)
  | vgrab (f : D64) | vgrabGrant (pair : Nat) | vdrop (f : D64) | dnop (f : D64)
  -- steps of the data slice, the matrix unit and the engines
  | chutePop (pair slot : Nat) | lineStateWaitEnd (pair slot : Nat) | registerEmptyWaitEnd (pair slot : Nat)
  | matrixQueueSpace (pair slot : Nat) | matrixCommandStart (pair : Nat) | matrixCommandComplete (pair : Nat)
  | engineCommandStart (id : Nat) | engineSector (id : Nat) | engineBytesLand (id k : Nat) | pickerRowAccess (id k : Nat)
  | engineCommandComplete (id : Nat)
  | subsAccept (id : Nat) | unsubProcess (pair slot : Nat) | mirrorUpdate (sub : Nat)
  | storeBufferDrain (pair slot : Nat) | storeAck (k : Nat)
  -- translation and coherence (01, 03)
  | pageWalk (die : Nat) | snoopFilterRequest (die k : Nat) | uncachedAccess (die k : Nat)
  | rds (src home : Nat) | rdm (src home : Nat) | upg (src home : Nat) | wbm (src home : Nat) | evicte (src home : Nat)
  | invack (src home : Nat) | fwdack (src home : Nat) | stale (src home : Nat)
  | datas (home dst : Nat) | datae (home dst : Nat) | datam (home dst : Nat) | ackm (home dst : Nat) | wback (home dst : Nat)
  | inv (home dst : Nat) | fwds (home dst : Nat) | fwdm (home dst : Nat) | recall (home dst : Nat)
  -- task records (06)
  | bind (t : Rec) | unbind (t : Rec) | pool (t : Rec) | launch (t : Rec) | copy (t : Rec) | gather (t : Rec) | scatter (t : Rec)
  | level (t : Rec) | fill (t : Rec) | phase (t : Rec) | signal (t : Rec) | waitev (t : Rec)
  | waitevWake (job : Nat) | waitevReread (job : Nat) | waitevTimeout (job : Nat)
  | tfence (t : Rec) | tjmp (t : Rec) | tjmpc (t : Rec) | cancel (t : Rec) | halt (t : Rec)
  -- sequencer, placement and context (05, 06, 13, 14)
  | taskIssue (job : Nat) | taskComplete (job tidx : Nat) | taskRetire (job : Nat) | faultingTask (job : Nat)
  | unitPlacement | vgrabPreemption (pair : Nat) | triggerFire (die k : Nat) | unitComplete (job tidx lin : Nat)
  | vaultSplitStart (die vault : Nat) | vaultSplitEnd (die vault : Nat)
  | contextSave (pair slot : Nat) | contextRestore (pair slot : Nat) | unitWatchdog (pair slot : Nat)
  | tlbInvalidateAll (die : Nat) | tlbInvalidateJob (die : Nat) | tlbInvalidateRange (die : Nat) | tlbInvalidateDone (die : Nat)
  | icacheInvalidateAll (die : Nat) | icacheInvalidateJob (die : Nat) | icacheInvalidateDone (die : Nat)
  | jobActivate (die : Nat) | jobResume (die : Nat) | jobCancel (die : Nat) | jobStop (die : Nat) | jobCommandDone (die : Nat)
  | keyGenerate | keyClear | pairoffWrite (die reg : Nat) (value : Word) | registerWrite (addr : Nat) (value : Word)
  -- host and peers (15)
  | hostRead (a : BarAddr) (size tag : Nat) | hostWrite (a : BarAddr) (data : List Byte)
  | hostAtomicop (a : BarAddr) (kind : AtomicKind) (size operand compare tag : Nat)
  | hostCompletion (port : Bool) (tag : Nat) (status : PcieStatus) (data : List Byte)
  | completionTimeout (port : Bool) (tag : Nat) | pcieLinkDown (port : Bool)
  | peerRequest (peer tag off : Nat) (op : PeerOp) | peerResponse (peer tag : Nat) (status : PeerStatus) (data : List Byte)
  | routeFailure (peer : Nat) | routeInstall (epoch peer : Nat)
  -- firmware, security and reliability (16)
  | moduleReset (b : BootImage) | leaseRenew (die : Nat) | leaseLapse | minsvnRaise
  | getVersion (port : Bool) | getCapabilities (port : Bool) | negotiateAlgorithms (port : Bool) (sm2 sm3 : Bool)
  | getDigests (port : Bool) | getCertificate (port : Bool) (off len : Nat) | challenge (port : Bool) (nonce : Nat)
  | getMeasurements (port : Bool) (index : Nat) | keyExchange (port : Bool) (share : Nat) | finish (port : Bool) (mac : Nat)
  | eccErrorDetected (site : EccSite) | fatalError (site : FatalSite) | dumpComplete (whole : Bool)
  | throttle | criticalTemperature | pcieLinkUp (port : Bool) (gen width : Nat) | peeridAssign (epoch id : Nat)
  | ideStreamConfigure (port : Bool) (epoch stream keyId : Nat) | heartbeatRenew (die : Nat) | heartbeatLapse (die : Nat)
  | throttleRelease | keyCommandDone
  deriving DecidableEq, Repr

end Sys2Proof
end

