-- ==== Sys2Proof/Machine/State.lean ====
section
/-!
DEFINITION. The state of the whole module as plain data: every piece of state that spec/ names, the machine right after
module reset, and the reasons a step can stop.
-/

namespace Sys2Proof.Machine

/-! ### Bytes and lines -/

/-- A byte together with the generation of the key it was written under, 0 for plaintext (R47, R436), and the mark of an
uncorrectable error that was detected in a dirty cache line (R437). -/
structure TByte where
  v : Byte := 0
  key : Nat := 0
  bad : Bool := false
  deriving DecidableEq, Repr, Inhabited

/-- States of an L1 line that holds data (R94). -/
inductive L1St where
  | s | e | m | mg | pc
  deriving DecidableEq, Repr

/-- A line of an L1 data cache (R77, R94, R110): its line number, its state, for MG lines the jobs that use it, its 128
bytes, one dirty bit per word, when it was last used, and for PC lines the epochs of the dies when their data were asked for. -/
structure L1Line where
  line : Nat
  st : L1St
  jobs : List Nat
  data : List TByte
  dirty : BitVec 32
  used : Nat
  stamp : List Nat := []
  deriving DecidableEq, Repr

/-- A constant-cache line, tagged with its job (R74). -/
structure CcLine where
  job : Nat
  line : Nat
  data : List TByte
  used : Nat
  deriving DecidableEq, Repr

/-- A fetch line of an instruction cache, tagged with job and physical address (R90); done is the number of fills made. -/
structure ILine where
  job : Nat
  pa : Nat
  data : BitVec 256
  used : Nat
  deriving DecidableEq, Repr

/-- A vault cache line (R80, R116): for HBM and host lines part of the home memory, for peer lines a stamped copy; the stamp holds the
epoch of each die when the fill was asked for (assumption 19). -/
structure VLine where
  vault : Nat
  set : Nat
  way : Nat
  line : Nat
  data : List TByte
  dirty : BitVec 32
  stamp : List Nat
  used : Nat
  deriving DecidableEq, Repr

/-- A TLB entry (R34): page is the first 4 KiB page, pages its size in 4 KiB pages, pte the leaf, lvl its level. -/
structure TlbEntry where
  job : Nat
  page : Nat
  pages : Nat
  pte : BitVec 64
  lvl : Nat
  used : Nat
  deriving DecidableEq, Repr

/-- A walk-cache entry (R34): the pointer entry of level lvl for the address prefix. -/
structure WalkEntry where
  job : Nat
  lvl : Nat
  pfx : Nat
  pte : BitVec 64
  used : Nat
  deriving DecidableEq, Repr

/-! ### Units -/

/-- A unit: its job, its task's stream index and its linear index (R204). -/
structure UKey where
  job : Nat
  tidx : Nat
  lin : Nat
  deriving DecidableEq, Repr, Inhabited

/-- Access kinds (R31), in the order of their codes (R42). -/
inductive Kind where
  | load | store | atomic | fetch | const | engRead | engWrite | engAtomic
  deriving DecidableEq, Repr

/-- What the checks of R30 ask of an access: its kind, the operation of an atomic, its size where the MMIO class decides by it (R15),
whether it is the global side of a SUBS (R32), and whether its job is firmware-owned (R24). -/
structure AccKind where
  kind : Kind
  aop : Option Nat := none
  size : Nat := 1
  subs : Bool := false
  fwj : Bool := false
  deriving DecidableEq, Repr

/-- A trap on its way into a fault record (R400, R401). -/
structure Trap where
  code : Nat
  src : Nat
  pc : Nat := 0
  addr : Nat := 0
  info : Nat := 0
  hcode : Nat := 0
  hq : Nat := 0
  offset : Nat := 0
  posted : Bool := false
  chseq : Option Nat := none     -- a matrix source reports the push (R401)
  iter : Option Nat := none
  more : Bool := false           -- further faults of the unit were suppressed (R400, R408)
  time : Nat := 0                -- when the unit froze (R223)
  deriving DecidableEq, Repr, Inhabited

/-- What a launch gives each of its units (R161, R204, R205, R227). -/
structure Launch where
  code : Nat := 0
  lineOff : Nat := 0
  lines : Nat := 0
  centry : Nat := 0
  entries : List Nat := []
  regs64 : Bool := false
  pantry : Nat := 0              -- units of 64 KiB
  counters : Nat := 0
  tiles : Nat := 0
  scales : Nat := 0              -- units of 512
  spn : Bool := false
  cls : Nat := 0                 -- effective class (R390)
  gx : Nat := 1
  gy : Nat := 1
  gz : Nat := 1
  stack : Nat := 0
  stksz : Nat := 0
  args : List Nat := []          -- resolved at issue (R205)
  lseq : Nat := 0
  deriving DecidableEq, Repr, Inhabited

/-- A check interval with its rights (R154, R197): bytes lo to hi - 1. -/
structure Interval where
  lo : Int
  hi : Int
  r : Bool
  w : Bool
  deriving DecidableEq, Repr, Inhabited

/-- A chute entry with its sequence number (R165, R166). -/
structure ChuteEntry where
  bits : BitVec 256
  seqno : Nat
  deriving DecidableEq, Repr

/-- A dumbwaiter entry (R174). -/
inductive DwEntry where
  | scalar (x : BitVec 64)
  | pred (x : BitVec 128)
  deriving DecidableEq, Repr

/-- How a slice finds its next instruction: it stands at it, walks from pc (R232), or transfers to pc (R233). -/
inductive PcMode where
  | here | walk | transfer
  deriving DecidableEq, Repr

/-- An atomic operation as it travels to where it performs (R297): op is sub[3:0], the width in bytes, the operand and,
for the CAS forms, the compare value. -/
structure AtomicOp where
  op : Nat
  size : Nat
  b : Nat
  cmp : Nat
  deriving DecidableEq, Repr

/-- What a memory access of a control slice is for. -/
inductive Use where
  | load (rd : BitVec 6) (signed : Bool)
  | store (data : List Byte) (sid : Nat)
  | amo (rd : BitVec 6) (op : AtomicOp)
  | waitv
  | pref
  | record                       -- a record or table that an instruction reads (R310, R363)
  | const                        -- a line of the constant path, for the data slice (R74)
  | code (data : Bool)           -- a fetch line on a link, for a slice (R90)
  deriving DecidableEq, Repr

/-- A translated memory access (R30, R44): who issued it from where, its addresses, size, page mode and leaf level,
the key generation of its job, its class, host atomic mode and what it is for. -/
structure Access where
  aid : Nat
  unit : UKey
  pair : Nat
  va : Nat
  pa : Nat
  size : Nat
  cm : Nat
  ham : Nat
  lvl : Nat
  key : Nat
  cls : Nat
  group : Nat                    -- of a store (R147)
  len : Nat                      -- words of the instruction
  rel : Option Nat               -- scope of a release component
  acq : Option Nat               -- scope of an acquire component
  use : Use
  deriving DecidableEq, Repr

/-- A store in the store buffer or on its way (R146): its access, its group and whether it is a release. -/
structure StoreEntry where
  acc : Access
  rel : Option Nat               -- scope of a release store
  deriving DecidableEq, Repr

/-- A store that has performed, or failed, and whose acknowledgement is on its way (R147, R148, R408). -/
structure Ack where
  unit : UKey
  group : Nat
  err : Option (Nat × Nat × Nat)  -- code, virtual address, INFO
  deriving DecidableEq, Repr

/-! ### Engine commands (12) -/

/-- The halt record of a command (R366): trap code, faulting virtual address, resume offset, cause information, and for
a picker the code of its lowest faulting element (R379). -/
structure HaltRec where
  code : Nat
  addr : Nat
  offset : Nat
  info : Nat
  hcode : Nat
  deriving DecidableEq, Repr

/-- Where a command stands: waiting to start, working, halted by a fault, halted without a fault by a save (R370), held
behind a halted command (R367). -/
inductive CmdStatus where
  | issued | running | halted (h : HaltRec) | stopped | held
  deriving DecidableEq, Repr

/-- The shape of a CPY (R372, R373). -/
structure Shape where
  ext : List Nat := [1, 1, 1, 1]
  dstr : List Int := [0, 0, 0, 0]
  sstr : List Int := [0, 0, 0, 0]
  sfmt : Nat := 0
  dfmt : Nat := 0
  slay : Nat := 0
  dlay : Nat := 0
  dims : Nat := 1
  raw : Nat := 0
  deriving DecidableEq, Repr

/-- The STAIR record (R381). -/
structure StairRec where
  prolong : Bool := false
  dims : Nat := 1
  bnd : Nat := 0
  sfmt : Nat := 1
  dfmt : Nat := 1
  ntap : Nat := 1
  ext : List Nat := [2, 1, 1]
  deriving DecidableEq, Repr

/-- What a command does. Picker commands: row stride, count, row bytes, virtual address of the index vector; GATH's report mode
with the address of its bitmap; SCATA's format. -/
inductive CmdKind where
  | cpyLin (n : Nat)
  | cpyShp (sh : Shape)
  | gath (stride : Int) (n row ioff : Nat) (report : Bool) (bmp : Nat)
  | scat (stride : Int) (n row ioff : Nat)
  | scata (stride : Int) (n row ioff fmt : Nat)
  | stair (r : StairRec) (table : Nat)
  | subs (sub : Nat) (size : Nat)
  | fill (boxes : List (List (Int × Nat))) (strides : List Int) (esize : Nat) (pattern : Nat)
  deriving DecidableEq, Repr

/-- A run of a command's bytes on their way to memory, within one line (R365): virtual address, where it lies, the bytes with
the bits of each that are written (a 4-bit value writes half a byte; a byte that only fills the gap in an 8-byte unit writes none), what
it counts, in half bytes (R374), and the elements of a picker that it belongs to. -/
structure Landing where
  va : Nat
  pa : Nat
  data : List Byte
  mask : List Byte
  cnt : Nat
  els : List Nat := []
  lvl : Nat := 7                 -- of the leaf that translates it, 7 for the local window (R42)
  deriving DecidableEq, Repr

/-- One byte that an element writes, with the bits written and the half bytes that it counts. -/
structure ByteW where
  addr : Nat
  val : Nat
  mask : Nat
  cnt : Nat
  deriving DecidableEq, Repr

/-- An engine command (R361 to R370). -/
structure Cmd where
  id : Nat
  unit : UKey
  task : Bool                    -- an engine task's command (R210); its unit names the task
  pair : Nat
  queue : Nat
  scope : Nat
  ctr : Option Nat
  cls : Nat
  key : Nat
  dst : Nat
  src : Nat
  kind : CmdKind
  status : CmdStatus
  next : Nat := 0                -- first element whose sector has not been checked
  sect : Nat := 0                -- first element of the sector under way
  todo : List Nat := []          -- pickers: pending elements of this run, in order
  failed : List (Nat × Nat × Nat × Nat) := []  -- pickers: element, code, address, info of the faulting elements
  zeroed : List Nat := []        -- report mode: elements whose table row faulted (R377)
  bitmap : Bool := false         -- report mode: the bitmap is still to write
  idx : List Nat := []           -- pickers: the index vector, once read
  taps : List (BitVec 64) := []  -- STAIR: the weight table, once read
  ebase : Nat := 0               -- engine tasks: elements of the earlier runs (R210)
  left : Nat := 0                -- engine tasks: elements of the later runs
  got : List ((Nat × Nat) × List Byte) := [] -- source bytes that a link has delivered, by virtual address and size
  bad : List ((Nat × Nat) × Nat × Nat) := [] -- link reads that failed: virtual address and size, code, info
  landings : List Landing := []
  kept : List ByteW := []                    -- bytes of checked sectors whose 8-byte unit later sectors complete (R142)
  sent : List (Nat × Landing) := []          -- landings on a link, not yet acknowledged
  stale : Bool := false                      -- the landings need a fresh translation
  half : Nat := 0                            -- half bytes not yet counted
  begun : Bool := false                      -- a byte of the sector under way has left for memory
  before : List ByteW := []                  -- what was kept when the sector under way set out
  owed : Nat := 0                            -- half bytes of that sector that a link has acknowledged, counted with its last
  uncounted : List Nat := []                 -- pickers: attempted rows, by their highest elements, whose bytes are not all written
  touched : List Nat := []                   -- region lines that have received a byte of this run
  deriving DecidableEq, Repr

/-- A QFENCE, WAITV, WAITC and so on: what a control slice waits for (R177). -/
inductive CtlWait where
  | none
  | walk (num : Nat)                            -- a page walk, by the number of the wait
  | access (aid : Nat)                          -- an access under way
  | release                                     -- R148
  | storeBuf (e : StoreEntry)                   -- a full store buffer
  | chute (e : BitVec 256) (rd : BitVec 6)
  | dwpop (rd : BitVec 6) (pred : Bool)
  | qfence (mask scope : Nat) (ids scopes : List Nat)
  | waitc (k scope : Nat)
  | waitv (va pa size : Nat) (acq : Bool) (scope : Nat) (cmp : Nat) (rd : BitVec 6) (last : Nat) (limit : Option Nat) (woken : Bool) (reading : Option Nat)
  | yielding (until_ : Nat)
  | exiting (stage : Nat)
  | queue (c : Cmd)                             -- a full engine queue
  | subs (c : Cmd) (sub gbase : Nat) (spans : List (Nat × Nat)) (size off : Nat) (rd : BitVec 6) (pages : List (Nat × Nat × Bool))
  | unsub (sub : Nat)
  deriving DecidableEq, Repr

/-- What a data slice waits for (R177). -/
inductive DatWait where
  | none
  | walk (num : Nat)
  | pop
  | line (seen : List (UKey × Nat × Nat))        -- the lines read, one of them empty: unit of the region, line, state (R54)
  | register
  | matrixQueue
  | matrixOrder
  | dwpush (e : DwEntry) (nas : BitVec 2)
  | vgrab
  | const (aid : Nat)                           -- a line of the constant path, or a fetch line, on a link
  deriving DecidableEq, Repr

/-- A matrix command (R342, R359): the instruction, the scalars and addresses taken at the push, the captured words, and
the position of the push. -/
structure MCmd where
  unit : UKey
  cls : Nat
  number : Nat
  op : Nat
  f : D64
  sp : Nat
  sc : Nat
  addr : Nat                     -- pantry address (R13) of A, or of the block
  addr2 : Nat                    -- of B
  captured : List Nat
  tag : Nat := 15                -- of the tile that MSTA reads, at its push (R343)
  pc : Nat
  chseq : Nat
  iter : Nat
  deriving DecidableEq, Repr

/-- A subscription of a resident (R65 to R73). -/
structure Subscription where
  id : Nat
  unit : UKey
  off : Nat                      -- pantry offset in the resident's region
  gbase : Nat                    -- global base, virtual
  spans : List (Nat × Nat)       -- global range, physical: first byte and bytes of each run
  size : Nat
  die : Nat                      -- home
  last : Nat                     -- sequence number of the last applied update
  active : Bool                  -- false while saved
  pages : List (Nat × Nat × Bool) := []      -- virtual pages of the range, level of the leaf (R42), whether a firmware-owned job maps it with RCX (R154)
  deriving DecidableEq, Repr

/-- An arrival counter (R62). -/
structure Counter where
  v : BitVec 32 := 0
  f : Bool := false
  deriving DecidableEq, Repr, Inhabited

/-- Early-start marks of R388: a line that landed unread, the bytes of its filling command and when it went full. -/
structure Unread where
  line : Nat
  bytes : Nat
  since : Nat
  deriving DecidableEq, Repr

/-- Control-slice state of a resident (R163, R183, R291). -/
structure Ctl where
  c : Vector Word 64 := Vector.replicate 64 0
  pc : Nat := 0
  mode : PcMode := .transfer
  buf : Option (Nat × BitVec 256) := none       -- the line entered, with its number
  wait : CtlWait := .none
  rcd : Option (Nat × List Byte) := none        -- the record its instruction has read: address and bytes
  done : Bool := false
  fpmode : BitVec 9 := 0
  fpflags : BitVec 6 := 0
  trapcode : Nat := 0
  trappc : Nat := 0
  trapaddr : Nat := 0
  trapinfo : Nat := 0
  sb : List StoreEntry := []
  flight : List StoreEntry := []                -- left the buffer, not yet performed
  unacked : Vector Nat 4 := Vector.replicate 4 0
  posted : Option (Nat × Nat × Nat) := none     -- code, address, INFO (R408)
  more : Bool := false
  hostFloor : Nat := 0
  peerFloor : Nat := 0
  marker : Bool := false                        -- the end marker has been pushed (R167, R294)
  replay : Bool := false                        -- restored stores are still to be replayed (R149)
  ahead : List (Nat × List Byte) := []          -- values read ahead of a later load's place (R129): address, bytes
  deriving DecidableEq, Repr

/-- One vector register with its tag and empty bit (R263, R265, R241). -/
structure VState where
  val : VReg := 0
  tag : BitVec 4 := 15
  empty : Bool := false
  poison : BitVec 64 := 0                       -- one mark per 64-bit unit (R476)
  deriving DecidableEq, Repr, Inhabited

/-- One accumulator tile (R340). -/
structure TileSt where
  val : TileBits := 0
  tag : BitVec 4 := 15
  empty : Bool := false
  poison : List Nat := []
  deriving DecidableEq, Repr, Inhabited

/-- Data-slice state of a resident (R163, R168, R183). -/
structure Dat where
  v : Vector VState 64 := Vector.replicate 64 {}
  s : Vector Word 32 := Vector.replicate 32 0
  m : Vector Mask 8 := Vector.replicate 8 0      -- m0 is ma (R170)
  eb : BitVec 32 := 0
  en : BitVec 32 := 0
  it : BitVec 32 := 0
  ea : Vector (BitVec 32) 4 := Vector.replicate 4 0
  xm : Bool := false
  tail : Nat := 0
  head : Nat := 0
  pc : Nat := 0
  mode : PcMode := .walk
  buf : Option (Nat × BitVec 256) := none
  wait : DatWait := .pop
  done : Bool := false
  stopped : Bool := false        -- end taken, commands still queued (R159)
  chseq : Nat := 0               -- entry being executed
  lanes : List (Nat × Nat) := [] -- lanes that the VLD at pc has read before its other lanes, with their words (R335)
  deriving DecidableEq, Repr

/-- A resident's context (R183, R411): everything that a save keeps. -/
structure Ctx where
  ctl : Ctl := {}
  dat : Dat := {}
  chute : List ChuteEntry := []
  chTail : Nat := 0              -- completed pushes (R166)
  chHead : Nat := 0
  dw : List DwEntry := []
  counters : List Counter := []
  tiles : Vector TileSt 8 := Vector.replicate 8 {}
  scaleA : List (BitVec 20) := []
  scaleB : List (BitVec 20) := []
  scalePoison : List (Nat × Nat) := []   -- poisoned 64-bit units of the scale stores: side, unit of three entries (assumption 85)
  lines : List (Nat × Nat) := [] -- pantry lines that are not full: line number in the region, state (R52)
  landed : List Nat := []        -- lines that an engine command's landings have made full (R58)
  ext : Bool := false            -- holds an extended block (R175)
  extSince : Nat := 0
  early : Vector Nat 4 := Vector.replicate 4 0
  unread : List Unread := []
  cpoison : List Nat := []       -- poisoned control and scalar registers (R476)
  spoison : List Nat := []
  mpoison : List (Nat × Nat) := []   -- poisoned 64-bit units of mask registers: register, unit
  codeErr : Option (Bool × Nat × Nat × Nat) := none    -- a fetch over a link that failed: data slice?, address, code, INFO (R44)
  lastDone : Nat := 0            -- when it last completed an instruction (R409)
  mq : List MCmd := []           -- matrix commands of a saved unit (R360)
  deriving DecidableEq, Repr

/-- Where a unit is: waiting for placement, on a pair, frozen there by a trap, frozen to be saved, saved, or chosen to be
restored with a place reserved (R392, R413). -/
inductive Place where
  | waiting
  | placed (pair slot : Nat)
  | trapped (pair slot : Nat)    -- frozen by its trap, save to come
  | saving (pair slot : Nat)     -- frozen for a pre-emption or a stop, save to come
  | saved
  | restoring (pair slot : Nat)  -- resources taken, restore to come
  deriving DecidableEq, Repr

/-- A unit that has been admitted for placement (R392). -/
structure UnitSt where
  key : UKey
  die : Nat                      -- die of the issuing sequencer
  launch : Launch
  ux : Nat
  uy : Nat
  uz : Nat
  checks : List Interval
  stamp : Nat
  target : List Nat
  place : Place
  ever : Bool                    -- it has been placed before
  firstDie : Nat := 0            -- die of its first placement (R207)
  claim : Option (Nat × List UKey) := none -- pair that victims leave for it, and they (R394)
  lastPair : Nat := 0            -- pair and slot in which it last ran (R208, R400)
  lastSlot : Nat := 0
  resumed : Bool := false        -- its job has been resumed since its trap (R224)
  frozenAt : Nat := 0            -- when a freeze without a trap took it (R181, R416)
  when : Nat                     -- order of its last placement or restore (R177)
  base : Nat                     -- offset of its region in the physical pantry
  ctxslot : Option (Nat × Nat)   -- die and index (R410)
  trap : Option Trap             -- the trap that froze it (R400)
  ctx : Ctx
  deriving DecidableEq, Repr

/-! ### Pairs and dies -/

/-- A pair (R34, R74, R77, R90, R176, R359). -/
structure PairSt where
  id : Nat
  l1 : List L1Line := []
  cc : List CcLine := []
  l1i : List ILine := []
  tlb : List TlbEntry := []
  mq : List MCmd := []           -- in push order
  mrun : Option Nat := none      -- number of the command in execution
  vgrab : List UKey := []        -- waiting for an extended block, oldest first
  deriving DecidableEq, Repr

/-- A snoop-filter entry (R95): the pairs that hold the line (global ids), the owner, and the grant of a remote home. -/
structure SfEntry where
  line : Nat
  holders : List Nat
  owner : Option Nat
  grant : Option L1St            -- s, e or m
  busy : Bool
  used : Nat
  deriving DecidableEq, Repr

/-- A miss or upgrade of a pair's L1 at its die's snoop filter (R96); issued once its request to the home is under way. -/
structure SfReq where
  acc : Access
  write : Bool
  issued : Bool
  deriving DecidableEq, Repr

/-- Directory states other than I (R98). -/
inductive DirSt where
  | s (dies : List Nat)
  | e (die : Nat)
  | m (die : Nat)
  deriving DecidableEq, Repr

structure DirEntry where
  line : Nat
  st : DirSt
  used : Nat
  deriving DecidableEq, Repr

/-- Messages from a die to a home (R100). -/
inductive ToHome where
  | rds (line : Nat)
  | rdm (line : Nat)
  | upg (line : Nat)
  | wbm (line : Nat) (data : List TByte) (mask : BitVec 32) (keep : Bool)
  | evicte (line : Nat)
  | invack (line : Nat)
  | fwdack (line : Nat) (data : List TByte) (mask : BitVec 32)
  | stale (line : Nat)
  deriving DecidableEq, Repr

/-- Messages from a home to a die (R100). -/
inductive ToDie where
  | datas (line : Nat) (data : List TByte)
  | datae (line : Nat) (data : List TByte)
  | datam (line : Nat) (data : List TByte)
  | ackm (line : Nat)
  | wback (line : Nat)
  | inv (line : Nat)
  | fwds (line : Nat)
  | fwdm (line : Nat)
  | recall (line : Nat)
  deriving DecidableEq, Repr

/-- What a home transaction is for (R103, R104, R108): a request of another die, a read or write of the home's own pairs, or an
uncached access, by its number. -/
inductive HomeReq where
  | remote (die : Nat) (write upg : Bool) (line : Nat)
  | here (write : Bool) (line : Nat)
  | uncached (aid line : Nat)
  | visit (who : Nat × Nat × Nat) (line : Nat)  -- an access of an engine, a sequencer or a slice that has found the line busy (R118)
  deriving DecidableEq, Repr

/-- A transaction under way at a home (R103): the answers it waits for, and whether it first evicts a victim (R107). -/
structure Txn where
  req : HomeReq
  waits : List Nat               -- dies whose answer is awaited
  keepX : Bool                   -- the answering die keeps an S copy
  victim : Option (Nat × List Nat)
  deriving DecidableEq, Repr

/-- A write-back of a die that awaits WbAck (R101): the line and whether it kept its S copies. -/
structure WbWait where
  line : Nat
  home : Nat
  keep : Bool
  deriving DecidableEq, Repr

/-- Who waits for a walk: a slice of a unit on a pair, the virtual address as issued, and the number of its wait. -/
structure Waiter where
  unit : UKey
  pair : Nat
  data : Bool
  va : Nat
  num : Nat
  deriving DecidableEq, Repr

/-- A miss in the queue of a die's page walkers (R35): for which page and access, and which slices wait. One without waiters belongs to an
engine, a sequencer or a host, which walks when its turn has come. -/
structure Miss where
  job : Nat
  page : Nat
  q : AccKind
  waiters : List Waiter
  engines : List Nat             -- pairs whose engines wait for it
  deriving DecidableEq, Repr

/-- A vault's split (R82, R83), and the store size from which a running change set out (R84). -/
structure Vault where
  store : Nat := 8
  target : Nat := 8
  origin : Nat := 8
  busyTill : Option Nat := none
  forTask : Option (Nat × Nat) := none   -- job and tidx of the PHASE whose change runs
  deriving DecidableEq, Repr, Inhabited

/-- A change of a split that waits its turn (R86). -/
structure SplitReq where
  vault : Nat
  job : Nat
  tidx : Nat
  size : Nat
  deriving DecidableEq, Repr

/-- A range record (R66, R67). -/
structure RangeRec where
  spans : List (Nat × Nat)       -- first byte and bytes of each physical run
  size : Nat
  seqno : Nat
  deriving DecidableEq, Repr

/-- An update on its way to a subscriber (R67, R69). -/
structure Update where
  sub : Nat
  seqno : Nat
  off : Nat                      -- within the range
  data : List Byte
  deriving DecidableEq, Repr

/-- A trigger table entry (R207, R208). -/
structure Trigger where
  producer : UKey
  ctr : Nat
  unit : UKey
  deriving DecidableEq, Repr

/-- A register command under way (R38, R92, R403, R436), with the fields of the write that started it: whether its action has been
taken, and the number that accesses issued since then reach. -/
structure CmdRun where
  kind : Nat
  job : Nat
  arg : Nat
  page : Nat                     -- the first page of a range command; of a KEYCMD the epoch of the leader that takes it
  acted : Bool := false
  mark : Nat := 0
  actedAt : Nat := 0             -- when it acted
  deriving DecidableEq, Repr

/-- A command register of a die's block (R38, R92, R403, R436): its RW fields, the command that runs, OVR and ERR. -/
structure CmdReg where
  kind : Nat := 0
  job : Nat := 0
  arg : Nat := 0
  run : Option CmdRun := none
  ovr : Bool := false
  err : Bool := false
  deriving DecidableEq, Repr, Inhabited

/-- A die. -/
structure Die where
  sf : List SfEntry := []
  sfq : List SfReq := []
  dir : List DirEntry := []
  homeq : List HomeReq := []
  txns : List Txn := []
  wbw : List WbWait := []
  uncq : List Access := []       -- uncached accesses that wait at this home (R108)
  l2tlb : List TlbEntry := []
  walks : List WalkEntry := []
  missq : List Miss := []
  l2i : List ILine := []
  vlines : List VLine := []
  vaults : Vector Vault 24 := Vector.replicate 24 {}
  vwait : List SplitReq := []
  waypart : Word := 0xFFFFFFFFFFFFFFFF
  epoch : Nat := 0
  ranges : List RangeRec := []
  triggers : List Trigger := []
  tivaddr : Word := 0
  tiv : CmdReg := {}
  iciv : CmdReg := {}
  jobcmd : CmdReg := {}
  jcba : Nat := 0                -- frame number
  pairoff : BitVec 96 := 0
  deriving DecidableEq, Repr

/-! ### Jobs and tasks -/

/-- A mapped logical buffer (R190, R191): base, dimensions, format, extents, strides, pool and slot, vaults. -/
structure Buf where
  base : Nat
  dims : Nat
  fmt : Nat
  ext : List Nat
  str : List Int
  pool : Option (Nat × Nat)      -- pool and slot
  vaults : List (Nat × Nat)      -- die and vault
  deriving DecidableEq, Repr

/-- A pool (R193): base, slot size in 4 KiB units, number of slots, shelf list. -/
structure Pool where
  id : Nat
  base : Nat
  slotsz : Nat
  nslot : Nat
  shelf : List Nat
  deriving DecidableEq, Repr

/-- One operand of a task with the buffer fixed at decode and its boxes (R195, R198): each box has for every dimension
origin, extent and steps. -/
structure Operand where
  slot : Nat
  cls : Nat
  buf : Buf
  boxes : List (List (Int × Nat × Int × Int × Int))
  deriving DecidableEq, Repr

/-- What a decoded task does. -/
inductive TaskKind where
  | instant                      -- BIND, UNBIND, POOL, TJMP, CANCEL: complete at decode
  | launch (l : Launch) (rule pdie pclu harg : Nat) (hs : List Int) (akind : List Nat) (trg : Option (Nat × Nat))
  | engine (c : Cmd)             -- its first command, without number and pair
  | phase (entries : List (Nat × Nat × Nat))
  | signal (irq : Bool) (addr value scope : Nat)
  | waitev (cnd tmo addr value scope : Nat)
  | tfence (scope : Nat)
  | tjmpc (cnd scope : Nat) (off : Int) (addr value : Nat)
  | halt
  deriving DecidableEq, Repr

/-- A task in the window (R184, R198 to R220). -/
structure Task where
  tidx : Nat
  addr : Nat                     -- of its record; of the spawning launch's successor for a spawned one (R226)
  pcAfter : Nat                  -- decode address after its decode
  spawned : Option Nat           -- stream index of the task whose unit enqueued it
  rcd : BitVec 256
  kind : TaskKind
  operands : List Operand := []
  inPlace : Bool := false
  fresh : List (Nat × Nat) := [] -- pool and slot taken at decode
  dead : List (Nat × Nat) := []  -- freed at its retirement
  mapAfter : List (Nat × Buf) := []          -- rename map just after its decode (R222)
  phaseNo : Nat := 0
  issued : Bool := false
  completed : Bool := false
  ready : Bool := false          -- its own effect has ended
  units : Nat := 0               -- grid size
  launchCtr : Nat := 0
  next : Nat := 0                -- next linear index to admit
  high : Nat := 0                -- no unit at or above it has been placed
  low : Nat := 0                 -- every unit below it has completed
  doneSet : List Nat := []       -- completed units at or above low
  entered : List Nat := []       -- triggered units in a table, fired or admitted (R207)
  pairsSeen : List Nat := []     -- pairs on which a unit of it has started (R75)
  started : Option Nat := none   -- WAITEV: first read (R214)
  lastRead : Nat := 0
  wpa : Option Nat := none       -- the word's physical address (R214)
  woken : Bool := false
  reading : Bool := false        -- a read over a link is under way
  got : List (Nat × List Byte) := []         -- bytes that a link has delivered for it
  bad : List (Nat × Nat × Nat) := []
  lseq : Nat := 0
  deriving DecidableEq, Repr

/-- The unit that a record names (R400): pair and slot at the freeze, coordinates, context slot. -/
structure UnitId where
  key : UKey
  pair : Nat
  slot : Nat
  ux : Nat
  uy : Nat
  uz : Nat
  ctxslot : Option (Nat × Nat)
  deriving DecidableEq, Repr

/-- What a job is doing (R403, R404). -/
inductive JobStatus where
  | running
  | faulting (tidx : Nat)        -- R221 steps 1 to 3
  | stopping                     -- JOBCMD stop
  | halted (resumable : Bool)    -- stopped by a fault or by a stop
  deriving DecidableEq, Repr

/-- A fault that makes a task the faulting task (R221, R400): its stream index, the record's fields, the unit it names, MORE,
and whether a resume can follow (R414). -/
structure TaskFault where
  tidx : Nat
  trap : Trap
  unit : Option UnitId
  more : Bool := false
  resumable : Bool := true
  reported : Bool := false
  deriving DecidableEq, Repr

/-- An active job (R24, R184, R389, R402). -/
structure Job where
  id : Nat
  die : Nat
  jcb : Nat                      -- physical address of its job control block
  status : JobStatus := .running
  fwj : Bool := false            -- firmware-owned (R24)
  key : Nat := 0
  keyGen : Nat := 0
  root : Nat := 0                -- frame of its level-4 table
  wshare : Nat := 1
  spawnArea : Nat := 0
  clsmin : Nat := 0
  clus : Nat := 0
  vlt : Nat := 0                 -- VLT1:VLT0
  ctxb : List Nat := []
  ctxn : List Nat := []
  ring : Nat := 0
  rsize : Nat := 16
  fvec : Nat := 0
  cvec : Nat := 0
  nvec : Nat := 0
  func : Nat := 0
  wdog : Nat := 0
  pc : Nat := 0                  -- decode address
  hostFloor : Nat := 0           -- what the sequencer's acquires ask of a copy of a host line (R115, R214, R216)
  succ : Nat := 0                -- address after the last record of the stream itself, which spawned records stand before (R226)
  tidx : Nat := 0                -- stream index of the next task
  phaseNo : Nat := 0
  lseq : Nat := 0
  spread : Nat := 0              -- next cluster number 6d + c (R391)
  map : List (Nat × Buf) := []   -- rename map
  pools : List Pool := []
  window : List Task := []       -- oldest first
  spawn : List (Nat × BitVec 256) := []      -- with the task whose unit enqueued each
  slotsUsed : List (Nat × Nat) := []         -- context slots taken: die and index (R410)
  fault : Option TaskFault := none
  got : List (Nat × List Byte) := []         -- bytes that a link has delivered for the record at decode
  bad : List (Nat × Nat × Nat) := []
  deriving DecidableEq, Repr

/-! ### Outside -/

/-- Modes of P1 (R419). -/
inductive PortMode where
  | upstream | root | disabled
  deriving DecidableEq, Repr

/-- For whom a write on a link is acknowledged: a unit's store, an engine command's landing, or the SIGNAL of a task. -/
inductive StoreFor where
  | unit (a : Ack)
  | engine (cmd n : Nat)
  | signal (job tidx lvl : Nat)
  | posted (port : Bool) (off : Nat)     -- a host's own write from a port, on its way to another link (R424)
  deriving DecidableEq, Repr

/-- A PCIe port (R418 to R421): link, lock holder of emulated atomics and those that wait, stores sent and not yet
acknowledged. -/
structure Port where
  up : Bool := false
  gen : Nat := 0
  lanes : Nat := 0
  mode : PortMode := .upstream
  lock : Option Access := none
  lockq : List Access := []
  unacked : List (Nat × StoreFor) := []  -- order of sending, for whom
  ide : List (Nat × Nat) := []           -- streams and key ids
  spdm : Nat := 0                        -- SPDM session progress (R435)
  share : Nat := 0
  deriving DecidableEq, Repr

/-- Why a request is outstanding at a port or a peer. -/
inductive Pending where
  | access (a : Access)
  | emulRead (a : Access)                -- R421 step 2
  | emulProbe (a : Access) (old : List Byte) (upTo : Nat)      -- R421 step 5, the read of R420
  | probe (upTo : Nat)                   -- the zero-length read of R420
  | fill (a : Access) (stamp : List Nat) (slot l1 : Bool) -- a line fill (R113), with the dies' epochs at its issue; whether the vault slot and the L1 may keep it (R114, R115)
  | engine (cmd va n lvl : Nat)          -- a read of n bytes through a leaf of a level
  | decode (job va lvl : Nat)            -- a sequencer's read for the record at decode
  | task (job tidx va lvl : Nat)         -- a read of WAITEV or TJMPC
  | stale (job page : Nat)               -- a read through an entry that an invalidation has removed: its bytes go nowhere (R39, R40)
  | store (w : StoreFor)
  | forward (port : Bool) (tag : Nat)            -- a request of a host that leads to another link (R424)
  deriving DecidableEq, Repr

/-- A request outstanding outside the device. -/
structure Outstanding where
  peer : Option Nat              -- none: PCIe
  port : Bool
  tag : Nat
  what : Pending
  since : Nat := 0               -- when it went out (R418)
  deriving DecidableEq, Repr

/-- What the device has sent out (R404, R420, R424, R427, R435). -/
inductive Out where
  | memRead (port : Bool) (tag addr size : Nat)
  | memWrite (port : Bool) (addr : Nat) (data : List Byte)
  | atomicReq (port : Bool) (tag addr : Nat) (op : AtomicOp)
  | completion (port : Bool) (tag : Nat) (status : PcieStatus) (data : List Byte)
  | peerReq (peer tag off : Nat) (op : PeerOp)
  | peerReply (peer tag : Nat) (status : PeerStatus) (data : List Byte)
  | interrupt (func vector : Nat)
  | spdm (port : Bool) (kind : Nat) (data : List Nat)
  deriving DecidableEq, Repr

/-- A ring that a driver has named to a die controller for RAS entries (R438): base, size in entries, entries written. -/
structure RasRing where
  base : Nat
  size : Nat
  count : Nat := 0
  deriving DecidableEq, Repr, Inhabited

/-- Firmware state (R432 to R441). -/
structure Firmware where
  boots : Nat := 0               -- number of module resets; names the free values of R435
  ready : Bool := false
  live : BitVec 4 := 0
  booted : BitVec 4 := 0         -- dies whose controller has completed boot (R434)
  leader : Nat := 0
  epoch : Nat := 0
  leaseTill : Nat := 0
  beats : Vector Nat 4 := Vector.replicate 4 0   -- last heartbeat
  throt : Bool := false
  dumped : Bool := false
  fatal : Bool := false
  dumping : Bool := false
  dumpWhole : Bool := true
  locgib : Nat := 0
  dumpBase : Nat := 0
  minsvn : Nat := 0
  raise : Option Nat := none     -- the epoch that a raise of MINSVN carries which the leader has sent (R432, R434)
  rootKeys : Vector (BitVec 256) 4 := Vector.replicate 4 0    -- fuses: SM3 hashes of the root public keys (R434)
  revoked : BitVec 4 := 0        -- fuses: one bit per key
  measured : List (List Nat) := []       -- what measurements 1 to 4 measure in this boot (R435)
  rasRings : Vector (Option RasRing) 4 := Vector.replicate 4 none
  imageSvn : Nat := 0
  commit : Bool := false
  keycmd : CmdReg := {}
  keySlots : List (Nat × Nat) := []      -- slot, generation
  keyCount : Nat := 0
  peerValid : Bool := false
  peerId : Nat := 0
  routes : List Nat := []
  deriving DecidableEq, Repr

/-- Who moves at a step. -/
inductive Turn where
  | ctl (pair slot : Nat)
  | dat (pair slot : Nat)
  | sequencer (job : Nat)
  | hw (i : Instr)
  | idle
  | ahead (pair slot va size : Nat)      -- a control slice reads a location ahead of the load that will name it (R129)
  | fwActivate (die job frame : Nat)     -- a die controller activates a firmware-owned job (R24)
  | lanes (pair slot n : Nat)            -- the VLD of a data slice reads the lanes of a mask n before the others (R335)
  | rasRing (die base size : Nat)        -- a driver names a ring to a die controller's firmware (R438)
  | rasEntry (die : Nat)                 -- a die controller writes its oldest RAS entry (R438)
  | sendRaise                            -- the leader sends its command to raise MINSVN (R434)
  deriving DecidableEq, Repr

/-- For whom exec runs an instruction. -/
inductive Cursor where
  | none
  | ctl (pair slot : Nat)
  | dat (pair slot : Nat)
  | sequencer (job : Nat)
  deriving DecidableEq, Repr

/-- The machine. -/
structure State where
  cycle : Nat := 0                       -- array clocks since module reset (R291)
  schedule : List (Nat × Turn) := []     -- the model's own: clocks to advance, who moves
  turn : Nat := 0                        -- the model's own: the default scheduler's counter
  cur : Cursor := .none                  -- the model's own: who executes
  now : Option (Nat × Nat × Nat) := none -- the model's own: whose turn it is, as it queues at a home (R118)
  fresh : Nat := 0                       -- the model's own: numbers for accesses, commands, placements
  mem : List Host.Cell := []
  keys : List (Nat × Nat) := []          -- HBM bytes written under a key: address, generation
  poison : List Nat := []                -- poisoned ECC units by first address (R476)
  corrected : List (Nat × Nat) := []     -- corrected errors per frame (R438)
  units : List UnitSt := []
  pairs : List PairSt := []
  dies : Vector Die 4 := Vector.replicate 4 {}
  toHome : List (Nat × Nat × ToHome) := []   -- source, home, message: oldest first (R102)
  toDie : List (Nat × Nat × ToDie) := []     -- home, destination, message
  cmds : List Cmd := []                  -- engine commands in issue order
  acks : List Ack := []
  subs : List Subscription := []
  updates : List Update := []
  jobs : List Job := []
  lastRoot : List (Nat × Nat) := []      -- job id, ROOT it last had (R90)
  lastRuns : List (UKey × Nat × Nat) := []  -- pair on which a finished producing unit last ran, and die of its first placement (R207, R208)
  p0 : Port := {}
  p1 : Port := {}
  outstanding : List Outstanding := []
  out : List Out := []                   -- newest first
  aer : List (Bool × Nat) := []          -- port, address of logged errors (R424)
  ras : List (Nat × Nat) := []           -- what has been reported to the RAS rings: address, kind (R438), newest first
  rasq : List (Nat × Nat × Nat) := []    -- entries that a die controller has still to write: die, address, kind
  vfbind0 : Vector Word 64 := Vector.replicate 64 0
  vfbind2 : Vector Word 64 := Vector.replicate 64 0
  fw : Firmware := {}
  deriving DecidableEq, Repr

/-- Reasons a step stops. Both are safe: no instruction that a program reaches raises them. -/
inductive Fault where
  /-- exec was asked to run an instruction of a slice for a resident that does not exist or does not run. Safe: step never
  does so. -/
  | noResident
  /-- exec was asked to decode a task record for a job that is not active. Safe: step never does so. -/
  | noJob
  deriving DecidableEq, Repr

/-- Reasons an instruction has no meaning. -/
inductive Refusal where
  /-- The instruction is not modelled. Raised by exec's arm of that name; safe. -/
  | notModelled (mnemonic : String)
  deriving DecidableEq, Repr

/-- The module right after module reset, before firmware has booted (R7, R81, R82, R397, R433): READY is 0, so no job can
be made active. Values that the manual does not give are those of assumptions 1 and 2. -/
def State.reset : State := {}

end Sys2Proof.Machine
end

