-- ==== Sys2Proof/Machine/Ops.lean ====
section
/-!
DEFINITION. The named operations over memory, registers and units that every meaning uses: canonical lists, the physical
map, plain memory with its marks, the residents, how a slice completes an instruction, and taking a trap.
-/

namespace Sys2Proof.Machine

/-! ### Canonical lists: keys strictly rising, absent keys read as the default -/

/-- The value at key a, d where none is listed. -/
def cellGet {α : Type} (d : α) : List (Nat × α) → Nat → α
  | [], _ => d
  | (k, v) :: r, a => if a = k then v else if a < k then d else cellGet d r a

/-- Put v at key a; the default removes the entry. -/
def cellPut {α : Type} [DecidableEq α] (d : α) : List (Nat × α) → Nat → α → List (Nat × α)
  | [], a, v => if v = d then [] else [(a, v)]
  | (k, x) :: r, a, v =>
    if a = k then if v = d then r else (k, v) :: r
    else if a < k then if v = d then (k, x) :: r else (a, v) :: (k, x) :: r
    else (k, x) :: cellPut d r a v

/-- The canonical form: keys at least lo, strictly rising, no value equal to the default. -/
def cellsWf {α : Type} [DecidableEq α] (d : α) : Nat → List (Nat × α) → Bool
  | _, [] => true
  | lo, (k, v) :: r => decide (lo ≤ k) && decide (v ≠ d) && cellsWf d (k + 1) r

/-- The memory's canonical form: an unlisted byte reads as 0 (assumption 3). -/
def Memory.wf (m : List Host.Cell) : Bool := cellsWf 0 0 m

/-- The form of all that State holds sparsely over addresses. -/
def State.memWf (s : State) : Bool := Memory.wf s.mem && cellsWf 0 0 s.keys

/-! ### The physical map (R15 to R22) -/

/-- Where a physical address lies (R15); none of these is unbacked. -/
inductive Place52 where
  | hbm
  | attic (die vault off : Nat)
  | pantry (pair off : Nat)
  | host (port : Bool) (addr : Nat)
  | peer (id off : Nat)
  | mmio (die off : Nat)
  | unmapped
  deriving DecidableEq, Repr

def place52 (pa : Nat) : Place52 :=
  if pa < 0x8000000000 then .hbm
  else if 0x1000000000000 ≤ pa && pa < 0x1000100000000 then
    let o := pa - 0x1000000000000
    let d := o / 0x40000000
    let v := o % 0x40000000 / 0x1000000
    if v < 24 then .attic d v (o % 0x1000000) else .unmapped
  else if 0x2000000000000 ≤ pa && pa < 0x2000018000000 then
    .pantry ((pa - 0x2000000000000) / 0x100000) (pa % 0x100000)
  else if 0x4000000000000 ≤ pa && pa < 0x8000000000000 then .host (pa.testBit 49) (pa % 2 ^ 49)
  else if 0x8000000000000 ≤ pa && pa < 0xC000000000000 then .peer (pa / 2 ^ 42 % 256) (pa % 2 ^ 42)
  else if 0xF000000000000 ≤ pa && pa < 0x10000000000000 then .mmio ((pa - 0xF000000000000) / 0x100000000) (pa % 0x100000000)
  else .unmapped

def isHbm (pa : Nat) : Bool := pa < 0x8000000000

/-- The first byte of pair p's pantry (R15). -/
def pantryBase (p : Nat) : Nat := 0x2000000000000 + p * 0x100000

/-- Parity of the bits of g at i, i + 2, ... (k of them). -/
def xorBits (g i : Nat) : Nat → Bool
  | 0 => false
  | k + 1 => g.testBit i != xorBits g (i + 2) k

/-- The home die of an HBM line (R20). -/
def homeHbm (locgib pa : Nat) : Nat :=
  let gib := pa / 0x40000000
  if 512 - 4 * locgib ≤ gib then (gib - (512 - 4 * locgib)) / locgib
  else
    let g := pa / 4096
    2 * b2n (xorBits g 1 13) + b2n (xorBits g 0 14)

/-- The home die, where the address has one (R20, R21). -/
def homeDie (s : State) (pa : Nat) : Option Nat :=
  match place52 pa with
  | .hbm => some (homeHbm s.fw.locgib pa)
  | .attic d _ _ => some d
  | .pantry p _ => some (p / Config.pairsPerDie)
  | .host port _ => some (if port then 2 else 0)
  | .peer _ _ | .mmio _ _ | .unmapped => none

/-- The die d, by index. -/
def State.die (s : State) (d : Nat) : Die := s.dies.toArray.getD d {}

def State.setDie (s : State) (d : Nat) (x : Die) : State := { s with dies := s.dies.setIfInBounds d x }

def State.modDie (s : State) (d : Nat) (f : Die → Die) : State := s.setDie d (f (s.die d))

def Die.vault (x : Die) (v : Nat) : Vault := x.vaults.toArray.getD v {}

/-- The port of a host-window address. -/
def State.port (s : State) (p : Bool) : Port := if p then s.p1 else s.p0

def State.setPort (s : State) (p : Bool) (x : Port) : State := if p then { s with p1 := x } else { s with p0 := x }

/-- Whether a peer offset lies in a range that a device answers (R19). -/
def peerOffOk (off : Nat) : Bool :=
  off < 0x8000000000 ||
  (0x20000000000 ≤ off && off < 0x20100000000 && (off - 0x20000000000) % 0x40000000 / 0x1000000 < 24)

/-- The physical address that a peer offset names on the device it reaches (R19, R422). -/
def peerOffPa (off : Nat) : Option Nat :=
  if off < 0x8000000000 then some off
  else if peerOffOk off then some (0x1000000000000 + (off - 0x20000000000))
  else none

/-- Offset off of die d's MMIO block is laid down as a register (R15). -/
def mmioNames (d off : Nat) : Bool :=
  d < Config.dies &&
  ([0x100000, 0x100008, 0x100010, 0x200000, 0x300100, 0x400000, 0x400008, 0x600000, 0x700000, 0x700010, 0x700018, 0x700020].contains off ||
   (0x300000 ≤ off && off < 0x300000 + 8 * Config.vaultsPerDie && off % 8 == 0) ||
   (0x500000 ≤ off && off < 0x500000 + 8 * 64 && off % 8 == 0 && (d == 0 || d == 2)) || (off == 0x700008 && d == 0))

/-- Step 7 of R30 (R15 to R19): the address answers. -/
def backed (s : State) (pa : Nat) : Bool :=
  match place52 pa with
  | .hbm => true
  | .attic d v o => o < ((s.die d).vault v).store * 0x100000
  | .pantry _ _ => true
  | .host port _ => !(port && s.p1.mode == .disabled)
  | .peer id off => peerOffOk off && !(s.fw.peerValid && id == s.fw.peerId)
  | .mmio d off => mmioNames d off
  | .unmapped => false

/-- Step 8 of R30: the link that the address needs is up (R18, R19, R426, R429). -/
def linkOk (s : State) (pa : Nat) : Bool :=
  match place52 pa with
  | .host port _ => (s.port port).up
  | .peer id _ => s.fw.peerValid && s.fw.routes.contains id
  | .hbm | .attic _ _ _ | .pantry _ _ | .mmio _ _ | .unmapped => true

/-! ### Plain memory: bytes, the keys they were written under, ECC marks -/

/-- One byte as memory holds it. -/
def State.byteAt (s : State) (pa : Nat) : TByte := { v := cellGet 0 s.mem pa, key := cellGet 0 s.keys pa }

/-- Write one byte. -/
def State.setByte (s : State) (pa : Nat) (b : TByte) : State :=
  { s with mem := cellPut 0 s.mem pa b.v, keys := cellPut 0 s.keys pa b.key }

def State.bytesAt (s : State) (pa : Nat) : Nat → List TByte
  | 0 => []
  | n + 1 => s.byteAt pa :: s.bytesAt (pa + 1) n

/-- The values of a list that differ from the default, each with its key. -/
def listed {α : Type} [DecidableEq α] (d : α) : Nat → List α → List (Nat × α)
  | _, [] => []
  | a, v :: vs => if v = d then listed d (a + 1) vs else (a, v) :: listed d (a + 1) vs

/-- Put values at keys from a on. -/
def cellPutRange {α : Type} [DecidableEq α] (d : α) (m : List (Nat × α)) (a : Nat) (vs : List α) : List (Nat × α) :=
  m.takeWhile (fun c => decide (c.1 < a)) ++ listed d a vs ++ (m.dropWhile (fun c => decide (c.1 < a))).dropWhile (fun c => decide (c.1 < a + vs.length))

/-- Write bytes from an address on, as they stand. -/
def State.setBytes (s : State) (pa : Nat) (bs : List TByte) : State :=
  { s with mem := cellPutRange 0 s.mem pa (bs.map TByte.v), keys := cellPutRange 0 s.keys pa (bs.map TByte.key) }

/-- Byte i of what a reader under key generation k decrypts from a 16-byte cipher block that was written under generation w: free values,
but as a block they differ from the bytes written (R47; assumption 6). -/
def wrongBlockByte (w k base : Nat) (plain : List Byte) (i : Nat) : Byte :=
  let f := Config.wrongKeyByte w k base plain
  if i == 0 && (range 0 plain.length).all (fun j => f j == plain.getD j 0) then f 0 + 1 else f i

/-- Byte i of a 16-byte cipher block at an address, as key generation k reads it (R47, R436). -/
def seenIn (k base : Nat) (blk : List TByte) (i : Nat) : Byte :=
  let b := blk.getD i {}
  if b.key == k then b.v else wrongBlockByte b.key k base (blk.map TByte.v) i

/-- n bytes at offset off of a line or of a longer run whose first byte lies at base, as key generation k reads them; base is a multiple
of 16. Only HBM is encrypted. -/
def lineSeen (k base : Nat) (data : List TByte) (off n : Nat) : List Byte :=
  let bs := (data.drop off).take n
  if !isHbm base || bs.all (fun b => b.key == k) then bs.map TByte.v
  else (range off n).map (fun a => seenIn k (base + a / 16 * 16) ((data.drop (a / 16 * 16)).take 16) (a % 16))

/-- A cipher block that is written in part under key generation k holds, where it is not written, what k reads there (R436). -/
def reseal (k base : Nat) (blk : List TByte) : List TByte :=
  if blk.all (fun b => b.key == k) then blk
  else (range 0 blk.length).map (fun i => { blk.getD i {} with v := seenIn k base blk i, key := k })

/-- Write bytes at offset off of the data that begin at base: each cipher block of HBM that is touched goes over to the key of the write
first. -/
def blockPut (base : Nat) (data : List TByte) : Nat → List TByte → List TByte
  | _, [] => data
  | off, b :: bs =>
    let at_ := off / 16 * 16
    let blk := (data.drop at_).take 16
    let data := if !isHbm base || blk.all (fun x => x.key == b.key) then data
      else data.take at_ ++ reseal b.key (base + at_) blk ++ data.drop (at_ + 16)
    blockPut base (data.set off b) (off + 1) bs

/-- A byte as key generation k writes it (R47): only HBM is encrypted. -/
def sealed (k pa : Nat) (b : Byte) : TByte := { v := b, key := if isHbm pa then k else 0 }

def sealList (k pa : Nat) : List Byte → List TByte
  | [] => []
  | b :: bs => sealed k pa b :: sealList k (pa + 1) bs

/-- The size of the ECC unit that holds an address (R476). -/
def eccSize (pa : Nat) : Nat :=
  match place52 pa with
  | .hbm | .attic _ _ _ => 64
  | .pantry _ _ | .host _ _ | .peer _ _ | .mmio _ _ | .unmapped => 8

/-- Some byte of the range is poisoned (R476). -/
def State.poisoned (s : State) (pa n : Nat) : Bool :=
  s.poison.any (fun u => u < pa + n && pa < u + eccSize u)

/-- A poisoned unit is covered only in part by a write of the range (R476). -/
def State.partPoison (s : State) (pa n : Nat) : Bool :=
  s.poison.any (fun u => u < pa + n && pa < u + eccSize u && !(pa ≤ u && u + eccSize u ≤ pa + n))

/-- A write of the range clears the marks of the units it covers (R476). -/
def State.clearPoison (s : State) (pa n : Nat) : State :=
  { s with poison := s.poison.filter (fun u => !(pa ≤ u && u + eccSize u ≤ pa + n)) }

/-- Write bytes into plain memory; a cipher block of HBM that lies under another key goes over to the key of the write (R436). -/
def State.storeBytes (s : State) (pa : Nat) (bs : List TByte) : State :=
  let lo := pa / 16 * 16
  let n := (pa + bs.length + 15) / 16 * 16 - lo
  let old := s.bytesAt lo n
  if !isHbm pa || bs.all (fun b => old.all (fun x => x.key == b.key)) then s.setBytes pa bs
  else s.setBytes lo (blockPut lo old (pa - lo) bs)

/-- Write bytes that may meet poison: none when a poisoned unit would be written in part. -/
def State.writeRaw (s : State) (pa : Nat) (bs : List TByte) : Option State :=
  if s.partPoison pa bs.length then none else some ((s.clearPoison pa bs.length).storeBytes pa bs)

/-- Bytes that come out of a cache with a mark leave the mark on the unit that takes them (R437). -/
def State.carryPoison (s : State) (pa : Nat) (bs : List TByte) : State :=
  if bs.any TByte.bad && !s.poison.contains pa then { s with poison := pa :: s.poison } else s

/-! ### Units and pairs -/

def State.findUnit (s : State) (k : UKey) : Option UnitSt := s.units.find? (fun u => u.key == k)

/-- Replace the unit with u's key. -/
def putUnitL (u : UnitSt) : List UnitSt → List UnitSt
  | [] => []
  | x :: xs => if x.key = u.key then u :: xs else x :: putUnitL u xs

def State.putUnit (s : State) (u : UnitSt) : State := { s with units := putUnitL u s.units }

def State.dropUnit (s : State) (k : UKey) : State := { s with units := s.units.filter (fun u => u.key != k) }

def State.modUnit (s : State) (k : UKey) (f : UnitSt → UnitSt) : State :=
  { s with units := s.units.map (fun u => if u.key = k then f u else u) }

/-- The resident that runs in a slot. -/
def State.resident (s : State) (pair slot : Nat) : Option UnitSt :=
  s.units.find? (fun u => u.place == .placed pair slot)

/-- The unit that occupies a slot, running, frozen or about to be restored. -/
def UnitSt.occupies (u : UnitSt) : Option (Nat × Nat) :=
  match u.place with
  | .placed p k | .trapped p k | .saving p k | .restoring p k => some (p, k)
  | .waiting | .saved => none

def UnitSt.pair (u : UnitSt) : Nat := match u.occupies with | some (p, _) => p | none => 0
def UnitSt.slot (u : UnitSt) : Nat := match u.occupies with | some (_, k) => k | none => 0
def UnitSt.running (u : UnitSt) : Bool := match u.place with | .placed _ _ => true | _ => false

def State.occupants (s : State) (pair : Nat) : List UnitSt :=
  s.units.filter (fun u => match u.occupies with | some (p, _) => p == pair | none => false)

/-- A pair's own state; one that has never been touched is empty (assumption 2). -/
def State.pairOf (s : State) (p : Nat) : PairSt :=
  match s.pairs.find? (fun x => x.id == p) with
  | some x => x
  | none => { id := p }

def putPairL (x : PairSt) : List PairSt → List PairSt
  | [] => [x]
  | y :: ys => if y.id = x.id then x :: ys else if x.id < y.id then x :: y :: ys else y :: putPairL x ys

def State.setPair (s : State) (x : PairSt) : State := { s with pairs := putPairL x s.pairs }

def State.modPair (s : State) (p : Nat) (f : PairSt → PairSt) : State := s.setPair (f (s.pairOf p))

def dieOf (pair : Nat) : Nat := pair / Config.pairsPerDie

/-- The job with an id. -/
def State.job (s : State) (id : Nat) : Option Job := s.jobs.find? (fun j => j.id == id)

def putJobL (j : Job) : List Job → List Job
  | [] => []
  | x :: xs => if x.id = j.id then j :: xs else x :: putJobL j xs

def State.putJob (s : State) (j : Job) : State := { s with jobs := putJobL j s.jobs }

def State.modJob (s : State) (id : Nat) (f : Job → Job) : State :=
  { s with jobs := s.jobs.map (fun j => if j.id = id then f j else j) }

/-- The job is firmware-owned (R24). -/
def State.fwj (s : State) (id : Nat) : Bool := match s.job id with | some j => j.fwj | none => false

/-- The key generation of a unit's job (R47). -/
def State.keyGenOf (s : State) (u : UnitSt) : Nat := match s.job u.key.job with | some j => j.keyGen | none => 0

/-! ### Registers of a resident -/

/-- c0 reads zero (R236). -/
def Ctl.getC (c : Ctl) (i : BitVec 6) : Word := if i = 0 then 0 else c.c[i.toNat]'i.isLt

/-- A write to c0 is discarded (R236). -/
def Ctl.setC (c : Ctl) (i : BitVec 6) (x : Word) : Ctl := if i = 0 then c else { c with c := c.c.set i.toNat x i.isLt }

def UnitSt.c (u : UnitSt) (i : BitVec 6) : Word := u.ctx.ctl.getC i

def UnitSt.modCtl (u : UnitSt) (f : Ctl → Ctl) : UnitSt := { u with ctx := { u.ctx with ctl := f u.ctx.ctl } }

def UnitSt.modDat (u : UnitSt) (f : Dat → Dat) : UnitSt := { u with ctx := { u.ctx with dat := f u.ctx.dat } }

def UnitSt.modCtx (u : UnitSt) (f : Ctx → Ctx) : UnitSt := { u with ctx := f u.ctx }

/-- A write of a register clears its poison mark (R476). -/
def UnitSt.setC (u : UnitSt) (i : BitVec 6) (x : Word) : UnitSt :=
  u.modCtx (fun y => { y with ctl := y.ctl.setC i x, cpoison := y.cpoison.filter (fun r => r != i.toNat) })

/-- Whether the control slice may run. -/
def UnitSt.ctlRuns (u : UnitSt) : Bool := u.running && !u.ctx.ctl.done

/-- The unit was frozen in the ac that stands: a trap that strikes it now is still one of the ac of the freeze (R182, R416). -/
def UnitSt.frozeNow (u : UnitSt) (now : Nat) : Bool :=
  match u.place with
  | .trapped _ _ => (match u.trap with | some t => t.time == now | none => false)
  | .saving _ _ => u.frozenAt == now
  | .waiting | .placed _ _ | .saved | .restoring _ _ => false

def UnitSt.datRuns (u : UnitSt) : Bool := u.running && !u.ctx.dat.done && !u.ctx.dat.stopped

/-! ### Completing an instruction of the control slice -/

/-- The slice goes on after an instruction of n words (R232). -/
def Ctl.advance (n : Nat) (c : Ctl) : Ctl := { c with pc := c.pc + n, mode := .walk, wait := .none, rcd := none }

/-- The slice transfers to a target (R233); the PC is 32 bits wide (R231). -/
def Ctl.transfer (target : Nat) (c : Ctl) : Ctl := { c with pc := target % 2 ^ 32, mode := .transfer, wait := .none }

/-- The resident has completed an instruction now (R409). -/
def UnitSt.stamped (u : UnitSt) (now : Nat) : UnitSt := u.modCtx (fun x => { x with lastDone := now })

/-- u completes an instruction of n words of its control slice. -/
def State.retireC (s : State) (u : UnitSt) (n : Nat) : State := s.putUnit ((u.modCtl (Ctl.advance n)).stamped s.cycle)

/-- The control slice waits; the instruction has not completed. -/
def State.waitC (s : State) (u : UnitSt) (w : CtlWait) : State := s.putUnit (u.modCtl (fun c => { c with wait := w }))

/-! ### Taking a trap (R181, R400, R401, R404) -/

/-- CHSEQ and ITER of the record are taken at the freeze, or at the push for a matrix source (R401). -/
def UnitSt.fillTrap (u : UnitSt) (t : Trap) : Trap :=
  { t with chseq := some (t.chseq.getD u.ctx.dat.chseq), iter := some (t.iter.getD u.ctx.dat.it.toNat) }

/-- A trap of the data slice: sources 1 and 5 (R401). -/
def Trap.ofData (t : Trap) : Bool := t.src == 1 || t.src == 5

/-- A running matrix command of the unit is abandoned to the head of its commands (R360). -/
def State.abandonMatrix (s : State) (k : UKey) (pair : Nat) : State :=
  let p := s.pairOf pair
  match p.mrun with
  | none => s
  | some n => if p.mq.any (fun m => m.number == n && m.unit == k) then s.setPair { p with mrun := none } else s

/-- The one operation by which a unit takes a trap: both slices freeze where they stand (R181), the record's fields are
taken, the matrix command in execution is abandoned. The save, the task's fault handling and the report follow as the
steps CONTEXT_SAVE and FAULTING_TASK (R404). In the ac of the freeze itself a data-slice trap takes the place of one in the control
slice (R182; the record's MORE: assumption 97), and a trap that of a freeze without one (R416). A posted error that had surfaced as the
trap that is replaced is still to surface: that instruction has had no effect (R182, R408). -/
def State.takeTrap (s : State) (u : UnitSt) (t : Trap) : State :=
  let r := { u.fillTrap t with time := s.cycle }
  match u.place with
  | .placed p k => (s.putUnit { u with place := .trapped p k, trap := some r }).abandonMatrix u.key p
  | .trapped _ _ =>
    match u.trap with
    | some o =>
      if o.time == s.cycle && !o.ofData && t.ofData then
        s.putUnit { (if o.posted then u.modCtl (fun c => { c with posted := some (o.code, o.addr, o.info), more := o.more }) else u) with
          trap := some { r with more := true } }
      else s
    | none => s
  | .saving p k => if u.frozenAt == s.cycle then s.putUnit { u with place := .trapped p k, trap := some r } else s
  | .waiting | .saved | .restoring _ _ => s

/-- A trap of the control slice at its instruction (R401). -/
def ctlTrap (u : UnitSt) (code : Nat) (addr : Nat := 0) (info : Nat := 0) : Trap :=
  { code := code, src := 0, pc := u.ctx.ctl.pc, addr := addr, info := info }

/-- A trap of the data slice at its instruction; matrix majors report source 5 (R401). -/
def datTrap (u : UnitSt) (mat : Bool) (code : Nat) (addr : Nat := 0) (info : Nat := 0) : Trap :=
  { code := code, src := if mat then 5 else 1, pc := u.ctx.dat.pc, addr := addr, info := info }

/-- The control slice takes a trap. -/
def State.trapC (s : State) (u : UnitSt) (code : Nat) (addr : Nat := 0) (info : Nat := 0) : State :=
  s.takeTrap u (ctlTrap u code addr info)

/-- Freeze a unit for a save without a trap (R181). -/
def State.freeze (s : State) (k : UKey) : State :=
  match s.findUnit k with
  | none => s
  | some u =>
    match u.place with
    | .placed p n => (s.putUnit { u with place := .saving p n, frozenAt := s.cycle }).abandonMatrix k p
    | .waiting | .saved | .trapped _ _ | .saving _ _ | .restoring _ _ => s

/-- Trap codes (R399). -/
def tcIllegalOp : Nat := 0x01
def tcIllegalLine : Nat := 0x02
def tcPrivileged : Nat := 0x03
def tcQueueState : Nat := 0x04
def tcUninit : Nat := 0x05
def tcFormat : Nat := 0x06
def tcFeEmpty : Nat := 0x07
def tcFePoison : Nat := 0x08
def tcPantryRange : Nat := 0x09
def tcMisalign : Nat := 0x0A
def tcDivZero : Nat := 0x0B
def tcFpTrap : Nat := 0x0C
def tcMetadata : Nat := 0x0D
def tcPageAbsent : Nat := 0x10
def tcPagePerm : Nat := 0x11
def tcPageAttr : Nat := 0x12
def tcRegion : Nat := 0x13
def tcAmoUr : Nat := 0x14
def tcAmoCa : Nat := 0x15
def tcLinkDown : Nat := 0x16
def tcEccData : Nat := 0x17
def tcEngDesc : Nat := 0x18
def tcStairTable : Nat := 0x19
def tcGatherFault : Nat := 0x1A
def tcSwTrap : Nat := 0x20
def tcWatchdog : Nat := 0x21
def tcCancelled : Nat := 0x22
def tcTaskDecode : Nat := 0x30
def tcPoolSize : Nat := 0x31
def tcBindFault : Nat := 0x32

/-! ### Meanings as outcomes -/

abbrev Out3 := Host.Outcome State Fault Refusal

/-- Run a meaning for the resident whose control slice is at the cursor. -/
def onCtl (s : State) (f : UnitSt → State) : Out3 :=
  match s.cur with
  | .ctl p k =>
    match s.resident p k with
    | some u => if u.ctlRuns then .next (f u) else .fault .noResident
    | none => .fault .noResident
  | .none | .dat _ _ | .sequencer _ => .fault .noResident

/-- Run a meaning for the resident whose data slice is at the cursor. -/
def onDat (s : State) (f : UnitSt → State) : Out3 :=
  match s.cur with
  | .dat p k =>
    match s.resident p k with
    | some u => if u.datRuns then .next (f u) else .fault .noResident
    | none => .fault .noResident
  | .none | .ctl _ _ | .sequencer _ => .fault .noResident

/-- Run a task record for the job whose sequencer decode is at the cursor. -/
def onSeq (s : State) (f : Job → State) : Out3 :=
  match s.cur with
  | .sequencer j =>
    match s.job j with
    | some x => .next (f x)
    | none => .fault .noJob
  | .none | .ctl _ _ | .dat _ _ => .fault .noJob

/-- A fresh number. -/
def State.bump (s : State) : State := { s with fresh := s.fresh + 1 }

/-- Send something out of the device. -/
def State.emit (s : State) (o : Out) : State := { s with out := o :: s.out }

/-- A message-signalled interrupt (R404, R213, R217). -/
def State.interrupt (s : State) (func vector : Nat) : State := s.emit (.interrupt func vector)

/-! ### Ordered lists and intervals -/

/-- The elements that meet a test move to the front: the order of a list that is used as a least-recently-used store. -/
def toFront {α : Type} (p : α → Bool) (l : List α) : List α := l.filter p ++ l.filter (fun x => !p x)

/-- Insert into a list ordered by a key. -/
def insertBy {α : Type} (lt : α → α → Bool) (x : α) : List α → List α
  | [] => [x]
  | y :: ys => if lt y x then y :: insertBy lt x ys else x :: y :: ys

/-- Stable insertion sort. -/
def sortBy {α : Type} (lt : α → α → Bool) : List α → List α
  | [] => []
  | x :: xs => insertBy lt x (sortBy lt xs)

/-- The least element by a strict order, the first among equals. -/
def leastBy {α : Type} (lt : α → α → Bool) : List α → Option α
  | [] => none
  | x :: xs =>
    match leastBy lt xs with
    | none => some x
    | some y => if lt y x then some y else some x

/-- Ranges [a, a+n) and [b, b+m) share a byte. -/
def overlap (a n b m : Nat) : Bool := a < b + m && b < a + n && 0 < n && 0 < m

/-! ### Physical runs of a mirror's global range (R65) -/

/-- The runs that hold the bytes off to off + n - 1 of a range whose runs begin at offset base: offset, physical address, bytes. -/
def spanParts : List (Nat × Nat) → Nat → Nat → Nat → List (Nat × Nat × Nat)
  | [], _, _, _ => []
  | (pa, k) :: r, base, off, n =>
    let lo := max base off
    let hi := min (base + k) (off + n)
    (if lo < hi then [(lo, pa + (lo - base), hi - lo)] else []) ++ spanParts r (base + k) off n

/-- The physical address of a byte of a range. -/
def spanPa (l : List (Nat × Nat)) (off : Nat) : Nat := (((spanParts l 0 off 1).head?).map (fun x => x.2.1)).getD 0

/-- Where the physical bytes pa to pa + n - 1 lie in a range: offset in the range, offset in the bytes, how many. -/
def spanHits : List (Nat × Nat) → Nat → Nat → Nat → List (Nat × Nat × Nat)
  | [], _, _, _ => []
  | (p, k) :: r, base, pa, n =>
    let lo := max p pa
    let hi := min (p + k) (pa + n)
    (if lo < hi then [(base + (lo - p), lo - pa, hi - lo)] else []) ++ spanHits r (base + k) pa n

/-- Adjacent runs joined, so that a range has one list of runs. -/
def joinSpans (l : List (Nat × Nat)) : List (Nat × Nat) :=
  l.foldr (fun x r =>
    match r with
    | [] => [x]
    | y :: t => if x.1 + x.2 == y.1 then (x.1, x.2 + y.2) :: t else x :: r) []

end Sys2Proof.Machine
end

