-- ==== Sys2Proof/Machine/Alu.lean ====
section
/-!
DEFINITION. Integer arithmetic and address helpers of the control slice (R281 to R285, R304 to R306).
-/

namespace Sys2Proof.Machine

/-- A three-register instruction: c[rd] := g(c[ra], c[rb]) (R281, R282). -/
def aluOp (f : CR) (g : Word → Word → Word) (s : State) : Out3 :=
  onCtl s (fun u => s.retireC (u.setC f.rd (g (u.c f.ra) (u.c f.rb))) 1)

/-- An immediate instruction: c[rd] := g(c[ra], imm) (R284). -/
def immOp (f : CI) (g : Word → Word → Word) (s : State) : Out3 :=
  onCtl s (fun u => s.retireC (u.setC f.rd (g (u.c f.ra) (f.imm.signExtend 64))) 1)

/-- A CX instruction that only computes c[rd]. -/
def cxOp (f : CX) (g : UnitSt → Word) (s : State) : Out3 :=
  onCtl s (fun u => s.retireC (u.setC f.rd (g u)) 2)

/-- Shift amounts are b[5:0] (R282). -/
def sh6 (b : Word) : Nat := b.toNat % 64

def ofBool (b : Bool) : Word := if b then 1 else 0

/-- Leading zeros, trailing zeros and ones of the low n bits (R282). -/
def clzN (x : Nat) : Nat → Nat
  | 0 => 0
  | n + 1 => if x.testBit n then 0 else 1 + clzN x n
def ctzN (x : Nat) : Nat → Nat → Nat
  | _, 0 => 0
  | i, n + 1 => if x.testBit i then 0 else 1 + ctzN x (i + 1) n
def popN (x : Nat) : Nat → Nat
  | 0 => 0
  | n + 1 => b2n (x.testBit n) + popN x n

/-- The operations of R282 and R283 by their fn values, for the control slice and for SALU (R336). -/
def aluFn (fn : Nat) (a b : Word) : Word :=
  match fn with
  | 0x00 => a + b
  | 0x01 => a - b
  | 0x02 => a &&& b
  | 0x03 => a ||| b
  | 0x04 => a ^^^ b
  | 0x05 => a &&& ~~~b
  | 0x06 => a <<< sh6 b
  | 0x07 => a >>> sh6 b
  | 0x08 => a.sshiftRight (sh6 b)
  | 0x09 => a.rotateRight (sh6 b)
  | 0x0A => ofBool (a.slt b)
  | 0x0B => ofBool (a.ult b)
  | 0x0C => ofBool (a == b)
  | 0x0D => if a.slt b then a else b
  | 0x0E => if a.slt b then b else a
  | 0x0F => if a.ult b then a else b
  | 0x10 => if a.ult b then b else a
  | 0x11 => a * b
  | 0x12 => BitVec.ofInt 64 (a.toInt * b.toInt / (2 ^ 64 : Nat))
  | 0x13 => BitVec.ofNat 64 (a.toNat * b.toNat / 2 ^ 64)
  | 0x14 => BitVec.ofInt 64 (a.toInt.tdiv b.toInt)
  | 0x15 => BitVec.ofNat 64 (a.toNat / b.toNat)
  | 0x16 => BitVec.ofInt 64 (a.toInt.tmod b.toInt)
  | 0x17 => BitVec.ofNat 64 (a.toNat % b.toNat)
  | 0x18 => BitVec.ofNat 64 (clzN a.toNat 64)
  | 0x19 => BitVec.ofNat 64 (ctzN a.toNat 0 64)
  | _ => BitVec.ofNat 64 (popN a.toNat 64)

/-- The division group, which traps on a zero divisor (R283). -/
def aluDivides (fn : Nat) : Bool := 0x14 ≤ fn && fn ≤ 0x17

/-- The division group: b = 0 traps INT_DIV_ZERO (R283). -/
def divOp (f : CR) (g : Word → Word → Word) (s : State) : Out3 :=
  onCtl s (fun u => if u.c f.rb == 0 then s.trapC u tcDivZero else s.retireC (u.setC f.rd (g (u.c f.ra) (u.c f.rb))) 1)

def execAdd (f : CR) (s : State) : Out3 := aluOp f (aluFn 0x00) s
def execSub (f : CR) (s : State) : Out3 := aluOp f (aluFn 0x01) s
def execAnd (f : CR) (s : State) : Out3 := aluOp f (aluFn 0x02) s
def execOr (f : CR) (s : State) : Out3 := aluOp f (aluFn 0x03) s
def execXor (f : CR) (s : State) : Out3 := aluOp f (aluFn 0x04) s
def execAndn (f : CR) (s : State) : Out3 := aluOp f (aluFn 0x05) s
def execSll (f : CR) (s : State) : Out3 := aluOp f (aluFn 0x06) s
def execSrl (f : CR) (s : State) : Out3 := aluOp f (aluFn 0x07) s
def execSra (f : CR) (s : State) : Out3 := aluOp f (aluFn 0x08) s
def execRor (f : CR) (s : State) : Out3 := aluOp f (aluFn 0x09) s
def execSlt (f : CR) (s : State) : Out3 := aluOp f (aluFn 0x0A) s
def execSltu (f : CR) (s : State) : Out3 := aluOp f (aluFn 0x0B) s
def execSeq (f : CR) (s : State) : Out3 := aluOp f (aluFn 0x0C) s
def execMin (f : CR) (s : State) : Out3 := aluOp f (aluFn 0x0D) s
def execMax (f : CR) (s : State) : Out3 := aluOp f (aluFn 0x0E) s
def execMinu (f : CR) (s : State) : Out3 := aluOp f (aluFn 0x0F) s
def execMaxu (f : CR) (s : State) : Out3 := aluOp f (aluFn 0x10) s
def execMul (f : CR) (s : State) : Out3 := aluOp f (aluFn 0x11) s
def execMulh (f : CR) (s : State) : Out3 := aluOp f (aluFn 0x12) s
def execMulhu (f : CR) (s : State) : Out3 := aluOp f (aluFn 0x13) s
def execDiv (f : CR) (s : State) : Out3 := divOp f (aluFn 0x14) s
def execDivu (f : CR) (s : State) : Out3 := divOp f (aluFn 0x15) s
def execRem (f : CR) (s : State) : Out3 := divOp f (aluFn 0x16) s
def execRemu (f : CR) (s : State) : Out3 := divOp f (aluFn 0x17) s
def execClz (f : CR) (s : State) : Out3 := aluOp f (aluFn 0x18) s
def execCtz (f : CR) (s : State) : Out3 := aluOp f (aluFn 0x19) s
def execPopc (f : CR) (s : State) : Out3 := aluOp f (aluFn 0x1A) s

def execAddi (f : CI) (s : State) : Out3 := immOp f (fun a i => a + i) s
def execAndi (f : CI) (s : State) : Out3 := immOp f (fun a i => a &&& i) s
def execOri (f : CI) (s : State) : Out3 := immOp f (fun a i => a ||| i) s
def execXori (f : CI) (s : State) : Out3 := immOp f (fun a i => a ^^^ i) s
def execSlli (f : CI) (s : State) : Out3 := immOp f (fun a i => a <<< sh6 i) s
def execSrli (f : CI) (s : State) : Out3 := immOp f (fun a i => a >>> sh6 i) s
def execSrai (f : CI) (s : State) : Out3 := immOp f (fun a i => a.sshiftRight (sh6 i)) s
def execSlti (f : CI) (s : State) : Out3 := immOp f (fun a i => ofBool (a.slt i)) s
def execSltiu (f : CI) (s : State) : Out3 := immOp f (fun a i => ofBool (a.ult i)) s

/-- LIH (R285): sext(off19) << 13. -/
def execLih (f : CJ) (s : State) : Out3 :=
  onCtl s (fun u => s.retireC (u.setC f.rd (f.off.signExtend 64 <<< 13)) 1)

/-- ADDPC (R285): the virtual byte address of the word at PC + off19. -/
def execAddpc (f : CJ) (s : State) : Out3 :=
  onCtl s (fun u =>
    s.retireC (u.setC f.rd (BitVec.ofInt 64 ((u.launch.code : Int) + u.launch.lineOff + 4 * ((u.ctx.ctl.pc : Int) + f.off.toInt)))) 1)

/-- LEA (R304). -/
def execLea (f : CX) (s : State) : Out3 :=
  cxOp f (fun u => u.c f.ra + (u.c f.rb <<< (f.sub.toNat % 8)) + f.imm.signExtend 64) s

/-- Bit md × b + k of the result is bit b of the k-th coordinate, for n bits (R305, R373). -/
def interleave (md : Nat) (coords : List Nat) : Nat → Nat
  | 0 => 0
  | n + 1 =>
    interleave md coords n +
      ((coords.zip (range 0 coords.length)).map (fun c => b2n (c.1.testBit n) * 2 ^ (md * n + c.2))).sum

/-- Bit b of the result is bit md × b + k of x, for n bits (R305). -/
def deinterleave (md k x : Nat) : Nat → Nat
  | 0 => 0
  | n + 1 => deinterleave md k x n + b2n (x.testBit (md * n + k)) * 2 ^ n

/-- MZIP (R305). -/
def execMzip (f : CX) (s : State) : Out3 :=
  cxOp f (fun u =>
    let a := (u.c f.ra).toNat
    let b := (u.c f.rb).toNat
    if f.sub == 0 then BitVec.ofNat 64 (interleave 2 [a, b] 32)
    else BitVec.ofNat 64 (interleave 3 [a, b, (u.c f.rc).toNat] 21)) s

/-- MUNZ (R305): sub[3] selects three dimensions, sub[2:1] is k. -/
def execMunz (f : CX) (s : State) : Out3 :=
  cxOp f (fun u =>
    let k := f.sub.toNat / 2 % 4
    if f.sub.getLsbD 3 then BitVec.ofNat 64 (deinterleave 3 k (u.c f.ra).toNat 21)
    else BitVec.ofNat 64 (deinterleave 2 k (u.c f.ra).toNat 32)) s

/-- BFX (R306). -/
def execBfx (f : CX) (s : State) : Out3 :=
  cxOp f (fun u =>
    let pos := f.imm.toNat % 64
    let len := f.imm.toNat / 64
    let x := (u.c f.ra).toNat / 2 ^ pos % 2 ^ len
    if f.sub.getLsbD 0 then BitVec.ofInt 64 (sintOf len x) else BitVec.ofNat 64 x) s

/-- BFI (R306). -/
def execBfi (f : CX) (s : State) : Out3 :=
  cxOp f (fun u =>
    let pos := f.imm.toNat % 64
    let len := f.imm.toNat / 64
    let m : Word := BitVec.ofNat 64 ((2 ^ len - 1) * 2 ^ pos)
    (u.c f.rd &&& ~~~m) ||| ((u.c f.ra <<< pos) &&& m)) s

end Sys2Proof.Machine
end

