-- ==== Sys2Proof/Decode.lean ====
section
/-!
DEFINITION. Decoding and encoding. A control or data word that names no instruction, or breaks a rule of its fields, is
rejected with the ILLEGAL_OP cause of R234; causes 5 and 6 depend on the unit and are found by the machine. A task record
that breaks R188 is rejected as TASK_DECODE. After the decoders stands the encoder, from the same tables.
-/

namespace Sys2Proof

/-- A rejected encoding: the cause of R234 and TRAPINFO[15:8]. Task records use cause 0. -/
structure DecodeErr where
  cause : Nat
  value : Nat
  deriving DecidableEq, Repr

/-- How an instruction is encoded: its format with its major (and function or condition), or a step without an encoding. -/
inductive Enc where
  | zero
  | cr (fn : Nat) (f : CR)
  | ci (op : Nat) (f : CI)
  | cb (cnd : Nat) (f : CB)
  | cj (op : Nat) (f : CJ)
  | cm (op : Nat) (f : CM)
  | exitWord
  | cx (op : Nat) (f : CX)
  | d64 (op : Nat) (f : D64)
  | task (op : Nat) (t : Rec)
  | step
  deriving DecidableEq, Repr

/-- The opcode maps (R187, R245 to R248). -/
def Instr.enc : Instr → Enc
  | .illegal => .zero
  | .add f => .cr 0x00 f | .sub f => .cr 0x01 f | .and f => .cr 0x02 f | .or f => .cr 0x03 f | .xor f => .cr 0x04 f
  | .andn f => .cr 0x05 f | .sll f => .cr 0x06 f | .srl f => .cr 0x07 f | .sra f => .cr 0x08 f | .ror f => .cr 0x09 f
  | .slt f => .cr 0x0A f | .sltu f => .cr 0x0B f | .seq f => .cr 0x0C f | .min f => .cr 0x0D f | .max f => .cr 0x0E f
  | .minu f => .cr 0x0F f | .maxu f => .cr 0x10 f | .mul f => .cr 0x11 f | .mulh f => .cr 0x12 f | .mulhu f => .cr 0x13 f
  | .div f => .cr 0x14 f | .divu f => .cr 0x15 f | .rem f => .cr 0x16 f | .remu f => .cr 0x17 f
  | .clz f => .cr 0x18 f | .ctz f => .cr 0x19 f | .popc f => .cr 0x1A f
  | .addi f => .ci 0x02 f | .andi f => .ci 0x03 f | .ori f => .ci 0x04 f | .xori f => .ci 0x05 f | .slli f => .ci 0x06 f
  | .srli f => .ci 0x07 f | .srai f => .ci 0x08 f | .slti f => .ci 0x09 f | .sltiu f => .ci 0x0A f
  | .lih f => .cj 0x0B f | .addpc f => .cj 0x0C f
  | .bEq f => .cb 0 f | .bNe f => .cb 1 f | .bLt f => .cb 2 f | .bGe f => .cb 3 f | .bLtu f => .cb 4 f | .bGeu f => .cb 5 f
  | .jal f => .cj 0x11 f | .jalr f => .ci 0x12 f
  | .ld f => .cm 0x18 f | .lds f => .cm 0x19 f | .st f => .cm 0x1A f
  | .csrr f => .ci 0x30 f | .csrw f => .ci 0x31 f | .trap f => .ci 0x32 f | .yield f => .ci 0x33 f | .exit => .exitWord
  | .exitComplete _ _ => .step | .yieldEnd _ _ => .step
  | .ldo f => .cx 0x08 f | .sto f => .cx 0x09 f | .amo f => .cx 0x0A f | .fence f => .cx 0x0B f | .waitv f => .cx 0x0C f
  | .waitvWake _ _ => .step | .waitvReread _ _ => .step | .waitvTimeout _ _ => .step
  | .icinv f => .cx 0x0D f | .cinv f => .cx 0x0E f | .pref f => .cx 0x0F f | .lea f => .cx 0x10 f | .mzip f => .cx 0x11 f
  | .munz f => .cx 0x12 f | .bfx f => .cx 0x13 f | .bfi f => .cx 0x14 f | .chp f => .cx 0x18 f | .chpm f => .cx 0x19 f
  | .chutePushResume _ _ => .step
  | .dwpop f => .cx 0x1A f | .dwpopResume _ _ => .step | .qfence f => .cx 0x1B f | .qfenceComplete _ _ => .step
  | .tenq f => .cx 0x30 f
  | .cpy f => .cx 0x20 f | .gath f => .cx 0x21 f | .scat f => .cx 0x22 f | .scata f => .cx 0x23 f | .stair f => .cx 0x24 f
  | .cntset f => .cx 0x25 f | .cntadd f => .cx 0x26 f | .waitc f => .cx 0x27 f | .waitcComplete _ _ => .step
  | .subs f => .cx 0x28 f | .unsub f => .cx 0x29 f | .engq f => .cx 0x2A f
  | .engineQueueSlotFree _ _ => .step | .storeBufferSpace _ _ => .step
  | .vfadd f => .d64 0x10 f | .vfsub f => .d64 0x11 f | .vfmul f => .d64 0x12 f | .vfma f => .d64 0x13 f
  | .vfms f => .d64 0x14 f | .vfnma f => .d64 0x15 f | .vfmin f => .d64 0x16 f | .vfmax f => .d64 0x17 f
  | .vfcmp f => .d64 0x18 f | .vfspec f => .d64 0x19 f | .vfdiv f => .d64 0x1A f
  | .viadd f => .d64 0x20 f | .visub f => .d64 0x21 f | .vimul f => .d64 0x22 f | .vimad f => .d64 0x23 f
  | .vimin f => .d64 0x24 f | .vimax f => .d64 0x25 f | .vand f => .d64 0x26 f | .vor f => .d64 0x27 f | .vxor f => .d64 0x28 f
  | .vshl f => .d64 0x29 f | .vshr f => .d64 0x2A f | .vsar f => .d64 0x2B f | .vicmp f => .d64 0x2C f | .vibit f => .d64 0x2D f
  | .mop f => .d64 0x30 f | .mcnt f => .d64 0x31 f | .mfirst f => .d64 0x32 f | .mmov f => .d64 0x33 f
  | .vcvt f => .d64 0x38 f | .vmov f => .d64 0x39 f | .vbcast f => .d64 0x3A f | .vsel f => .d64 0x3B f
  | .vlane f => .d64 0x3C f | .vins f => .d64 0x3D f
  | .vxch f => .d64 0x40 f | .vrot f => .d64 0x41 f | .vshuf f => .d64 0x42 f | .vred f => .d64 0x43 f | .vscan f => .d64 0x44 f
  | .vcomp f => .d64 0x45 f | .vexpd f => .d64 0x46 f | .vprune f => .d64 0x47 f
  | .vld f => .d64 0x50 f | .vst f => .d64 0x51 f | .vldx f => .d64 0x52 f | .vstx f => .d64 0x53 f | .vldc f => .d64 0x54 f
  | .pfill f => .d64 0x56 f | .pmark f => .d64 0x57 f
  | .salu f => .d64 0x60 f | .sli f => .d64 0x61 f | .sst f => .d64 0x62 f | .sld f => .d64 0x63 f | .dwpush f => .d64 0x68 f
  | .dwpushResume _ _ => .step
  | .mma f => .d64 0x70 f | .mmas f => .d64 0x71 f | .mzero f => .d64 0x72 f | .msta f => .d64 0x73 f | .mlda f => .d64 0x74 f
  | .mscl f => .d64 0x75 f | .mrdv f => .d64 0x76 f
  | .vgrab f => .d64 0x78 f | .vgrabGrant _ => .step | .vdrop f => .d64 0x79 f | .dnop f => .d64 0x7A f
  | .chutePop _ _ => .step | .lineStateWaitEnd _ _ => .step | .registerEmptyWaitEnd _ _ => .step
  | .matrixQueueSpace _ _ => .step | .matrixCommandStart _ => .step | .matrixCommandComplete _ => .step
  | .engineCommandStart _ => .step | .engineSector _ => .step | .engineBytesLand _ _ => .step | .pickerRowAccess _ _ => .step
  | .engineCommandComplete _ => .step | .subsAccept _ => .step | .unsubProcess _ _ => .step | .mirrorUpdate _ => .step
  | .storeBufferDrain _ _ => .step | .storeAck _ => .step
  | .pageWalk _ => .step | .snoopFilterRequest _ _ => .step | .uncachedAccess _ _ => .step
  | .rds _ _ => .step | .rdm _ _ => .step | .upg _ _ => .step | .wbm _ _ => .step | .evicte _ _ => .step
  | .invack _ _ => .step | .fwdack _ _ => .step | .stale _ _ => .step
  | .datas _ _ => .step | .datae _ _ => .step | .datam _ _ => .step | .ackm _ _ => .step | .wback _ _ => .step
  | .inv _ _ => .step | .fwds _ _ => .step | .fwdm _ _ => .step | .recall _ _ => .step
  | .bind t => .task 0x01 t | .unbind t => .task 0x02 t | .pool t => .task 0x03 t | .launch t => .task 0x10 t
  | .copy t => .task 0x11 t | .gather t => .task 0x12 t | .scatter t => .task 0x13 t | .level t => .task 0x14 t
  | .fill t => .task 0x15 t | .phase t => .task 0x20 t | .signal t => .task 0x21 t | .waitev t => .task 0x22 t
  | .waitevWake _ => .step | .waitevReread _ => .step | .waitevTimeout _ => .step
  | .tfence t => .task 0x23 t | .tjmp t => .task 0x28 t | .tjmpc t => .task 0x29 t | .cancel t => .task 0x2A t
  | .halt t => .task 0x2F t
  | .taskIssue _ => .step | .taskComplete _ _ => .step | .taskRetire _ => .step | .faultingTask _ => .step
  | .unitPlacement => .step | .vgrabPreemption _ => .step | .triggerFire _ _ => .step | .unitComplete _ _ _ => .step
  | .vaultSplitStart _ _ => .step | .vaultSplitEnd _ _ => .step
  | .contextSave _ _ => .step | .contextRestore _ _ => .step | .unitWatchdog _ _ => .step
  | .tlbInvalidateAll _ => .step | .tlbInvalidateJob _ => .step | .tlbInvalidateRange _ => .step | .tlbInvalidateDone _ => .step
  | .icacheInvalidateAll _ => .step | .icacheInvalidateJob _ => .step | .icacheInvalidateDone _ => .step
  | .jobActivate _ => .step | .jobResume _ => .step | .jobCancel _ => .step | .jobStop _ => .step | .jobCommandDone _ => .step
  | .keyGenerate => .step | .keyClear => .step | .pairoffWrite _ _ _ => .step | .registerWrite _ _ => .step
  | .hostRead _ _ _ => .step | .hostWrite _ _ => .step | .hostAtomicop _ _ _ _ _ _ => .step
  | .hostCompletion _ _ _ _ => .step | .completionTimeout _ _ => .step | .pcieLinkDown _ => .step
  | .peerRequest _ _ _ _ => .step | .peerResponse _ _ _ _ => .step | .routeFailure _ => .step | .routeInstall _ _ => .step
  | .moduleReset _ => .step | .leaseRenew _ => .step | .leaseLapse => .step | .minsvnRaise => .step
  | .getVersion _ => .step | .getCapabilities _ => .step | .negotiateAlgorithms _ _ _ => .step
  | .getDigests _ => .step | .getCertificate _ _ _ => .step | .challenge _ _ => .step
  | .getMeasurements _ _ => .step | .keyExchange _ _ => .step | .finish _ _ => .step
  | .eccErrorDetected _ => .step | .fatalError _ => .step | .dumpComplete _ => .step
  | .throttle => .step | .criticalTemperature => .step | .pcieLinkUp _ _ _ => .step | .peeridAssign _ _ => .step
  | .ideStreamConfigure _ _ _ _ => .step | .heartbeatRenew _ => .step | .heartbeatLapse _ => .step
  | .throttleRelease => .step | .keyCommandDone => .step

/-! ### The maps read from number to instruction -/

/-- The ALU group (R246). -/
def aluRow : Nat → Option (CR → Instr)
  | 0x00 => some .add | 0x01 => some .sub | 0x02 => some .and | 0x03 => some .or | 0x04 => some .xor | 0x05 => some .andn
  | 0x06 => some .sll | 0x07 => some .srl | 0x08 => some .sra | 0x09 => some .ror | 0x0A => some .slt | 0x0B => some .sltu
  | 0x0C => some .seq | 0x0D => some .min | 0x0E => some .max | 0x0F => some .minu | 0x10 => some .maxu | 0x11 => some .mul
  | 0x12 => some .mulh | 0x13 => some .mulhu | 0x14 => some .div | 0x15 => some .divu | 0x16 => some .rem | 0x17 => some .remu
  | 0x18 => some .clz | 0x19 => some .ctz | 0x1A => some .popc | _ => none

/-- B's conditions (R245). -/
def cndRow : Nat → Option (CB → Instr)
  | 0 => some .bEq | 1 => some .bNe | 2 => some .bLt | 3 => some .bGe | 4 => some .bLtu | 5 => some .bGeu | _ => none

/-- The CX majors (R247). -/
def cxRow : Nat → Option (CX → Instr)
  | 0x08 => some .ldo | 0x09 => some .sto | 0x0A => some .amo | 0x0B => some .fence | 0x0C => some .waitv | 0x0D => some .icinv
  | 0x0E => some .cinv | 0x0F => some .pref | 0x10 => some .lea | 0x11 => some .mzip | 0x12 => some .munz | 0x13 => some .bfx
  | 0x14 => some .bfi | 0x18 => some .chp | 0x19 => some .chpm | 0x1A => some .dwpop | 0x1B => some .qfence | 0x20 => some .cpy
  | 0x21 => some .gath | 0x22 => some .scat | 0x23 => some .scata | 0x24 => some .stair | 0x25 => some .cntset
  | 0x26 => some .cntadd | 0x27 => some .waitc | 0x28 => some .subs | 0x29 => some .unsub | 0x2A => some .engq
  | 0x30 => some .tenq | _ => none

/-- The D64 majors (R248). -/
def d64Row : Nat → Option (D64 → Instr)
  | 0x10 => some .vfadd | 0x11 => some .vfsub | 0x12 => some .vfmul | 0x13 => some .vfma | 0x14 => some .vfms | 0x15 => some .vfnma
  | 0x16 => some .vfmin | 0x17 => some .vfmax | 0x18 => some .vfcmp | 0x19 => some .vfspec | 0x1A => some .vfdiv
  | 0x20 => some .viadd | 0x21 => some .visub | 0x22 => some .vimul | 0x23 => some .vimad | 0x24 => some .vimin | 0x25 => some .vimax
  | 0x26 => some .vand | 0x27 => some .vor | 0x28 => some .vxor | 0x29 => some .vshl | 0x2A => some .vshr | 0x2B => some .vsar
  | 0x2C => some .vicmp | 0x2D => some .vibit | 0x30 => some .mop | 0x31 => some .mcnt | 0x32 => some .mfirst | 0x33 => some .mmov
  | 0x38 => some .vcvt | 0x39 => some .vmov | 0x3A => some .vbcast | 0x3B => some .vsel | 0x3C => some .vlane | 0x3D => some .vins
  | 0x40 => some .vxch | 0x41 => some .vrot | 0x42 => some .vshuf | 0x43 => some .vred | 0x44 => some .vscan | 0x45 => some .vcomp
  | 0x46 => some .vexpd | 0x47 => some .vprune | 0x50 => some .vld | 0x51 => some .vst | 0x52 => some .vldx | 0x53 => some .vstx
  | 0x54 => some .vldc | 0x56 => some .pfill | 0x57 => some .pmark | 0x60 => some .salu | 0x61 => some .sli | 0x62 => some .sst
  | 0x63 => some .sld | 0x68 => some .dwpush | 0x70 => some .mma | 0x71 => some .mmas | 0x72 => some .mzero | 0x73 => some .msta
  | 0x74 => some .mlda | 0x75 => some .mscl | 0x76 => some .mrdv | 0x78 => some .vgrab | 0x79 => some .vdrop | 0x7A => some .dnop
  | _ => none

/-- The task opcodes (R187). -/
def taskRow : Nat → Option (Rec → Instr)
  | 0x01 => some .bind | 0x02 => some .unbind | 0x03 => some .pool | 0x10 => some .launch | 0x11 => some .copy | 0x12 => some .gather
  | 0x13 => some .scatter | 0x14 => some .level | 0x15 => some .fill | 0x20 => some .phase | 0x21 => some .signal
  | 0x22 => some .waitev | 0x23 => some .tfence | 0x28 => some .tjmp | 0x29 => some .tjmpc | 0x2A => some .cancel
  | 0x2F => some .halt | _ => none

/-! ### Field rules -/

/-- The first error of a list of checks, each a test with the error it stands for. -/
def firstErr : List (Bool × DecodeErr) → Option DecodeErr
  | [] => none
  | (b, e) :: r => if b then some e else firstErr r

/-- Numbers of the system registers (R291), and those that CSRW may write (R290). -/
def csrListed (n : Nat) : Bool := n ≤ 0x011 || n == 0x020 || n == 0x021 || (0x030 ≤ n && n ≤ 0x033) || (0x040 ≤ n && n ≤ 0x047)
def csrWritable (n : Nat) : Bool := n == 0x020 || n == 0x021

/-- Field rules of the ALU group: CLZ, CTZ and POPC hold rb = 0 (R246). -/
def crErr (fn : Nat) (f : CR) : Option DecodeErr :=
  firstErr [(0x18 ≤ fn && f.rb != 0, ⟨3, 0⟩)]

/-- Field rules of format CI (R284, R290, R292, R293). -/
def ciErr (op : Nat) (f : CI) : Option DecodeErr :=
  match op with
  | 0x06 | 0x07 | 0x08 => firstErr [(64 ≤ f.imm.toNat, ⟨4, f.imm.toNat / 64⟩)]
  | 0x30 => firstErr [(f.ra != 0, ⟨3, 0⟩), (!csrListed f.imm.toNat, ⟨4, f.imm.toNat⟩)]
  | 0x31 => firstErr [(f.rd != 0, ⟨3, 0⟩), (!csrWritable f.imm.toNat, ⟨4, f.imm.toNat⟩)]
  | 0x32 | 0x33 => firstErr [(f.rd != 0 || f.ra != 0, ⟨3, 0⟩)]
  | _ => none

/-- LDS of 8 bytes is illegal (R288). -/
def cmErr (op : Nat) (f : CM) : Option DecodeErr := firstErr [(op == 0x19 && f.sz == 3, ⟨4, 3⟩)]

/-- Which fields of format CX a major uses (09, 12). -/
structure CXUse where
  rd : Bool
  ra : Bool
  rb : Bool
  rc : Bool
  scope : Bool
  ord : Bool
  subBits : Nat     -- low bits of sub that are used
  immBits : Nat     -- low bits of imm20 that are used
  deriving DecidableEq, Repr

def cxUse (op : Nat) : CXUse :=
  match op with
  | 0x08 => ⟨true, true, false, false, true, true, 3, 20⟩      -- LDO (R295)
  | 0x09 => ⟨false, true, true, false, true, true, 2, 20⟩      -- STO (R296)
  | 0x0A => ⟨true, true, true, true, true, true, 7, 20⟩        -- AMO (R297)
  | 0x0B => ⟨false, false, false, false, true, true, 0, 0⟩     -- FENCE (R300)
  | 0x0C => ⟨true, true, true, true, true, true, 1, 20⟩        -- WAITV (R301)
  | 0x0D | 0x0E => ⟨false, false, false, false, true, false, 0, 0⟩  -- ICINV, CINV (R302)
  | 0x0F => ⟨false, true, false, false, false, false, 1, 20⟩   -- PREF (R303)
  | 0x10 => ⟨true, true, true, false, false, false, 3, 20⟩     -- LEA (R304)
  | 0x11 => ⟨true, true, true, true, false, false, 7, 0⟩       -- MZIP (R305)
  | 0x12 => ⟨true, true, false, false, false, false, 4, 0⟩     -- MUNZ (R305)
  | 0x13 => ⟨true, true, false, false, false, false, 1, 13⟩    -- BFX (R306)
  | 0x14 => ⟨true, true, false, false, false, false, 0, 13⟩    -- BFI (R306)
  | 0x18 | 0x19 => ⟨true, true, true, true, false, false, 0, 16⟩   -- CHP, CHPM (R307)
  | 0x1A => ⟨true, false, false, false, false, false, 1, 0⟩    -- DWPOP (R308)
  | 0x1B => ⟨false, false, false, false, true, false, 0, 3⟩    -- QFENCE (R309)
  | 0x20 => ⟨false, true, true, true, true, false, 1, 9⟩       -- CPY (R371)
  | 0x21 => ⟨true, true, true, true, true, false, 1, 9⟩        -- GATH (R375)
  | 0x22 => ⟨true, true, true, true, true, false, 0, 9⟩        -- SCAT
  | 0x23 => ⟨true, true, true, true, true, false, 2, 9⟩        -- SCATA
  | 0x24 => ⟨true, true, true, true, true, false, 0, 9⟩        -- STAIR (R380)
  | 0x25 | 0x26 => ⟨false, true, false, false, false, false, 0, 8⟩ -- CNTSET, CNTADD (R384)
  | 0x27 => ⟨false, false, false, false, true, false, 0, 8⟩    -- WAITC
  | 0x28 => ⟨true, true, true, true, true, false, 0, 9⟩        -- SUBS (R385)
  | 0x29 => ⟨false, true, false, false, false, false, 0, 0⟩    -- UNSUB (R386)
  | 0x2A => ⟨true, false, false, false, false, false, 2, 20⟩   -- ENGQ (R387)
  | _ => ⟨true, true, false, false, false, false, 0, 0⟩        -- TENQ (R310)

/-- A field that the form of the instruction does not use holds a nonzero value (R234, cause 3). -/
def cxUnused (op : Nat) (f : CX) : Bool :=
  let u := cxUse op
  (!u.rd && f.rd != 0) || (!u.ra && f.ra != 0) || (!u.rb && f.rb != 0) || (!u.rc && f.rc != 0) ||
  (!u.scope && f.scope != 0) || (!u.ord && f.ord != 0) ||
  decide (2 ^ u.subBits ≤ f.sub.toNat) || decide (2 ^ u.immBits ≤ f.imm.toNat) ||
  match op with
  | 0x0A => f.sub.extractLsb' 4 2 != 0 || (f.rc != 0 && f.sub.extractLsb' 0 4 != 10 && f.sub.extractLsb' 0 4 != 12)
  | 0x11 => f.sub == 0 && f.rc != 0
  | 0x12 => f.sub.getLsbD 0
  | 0x20 | 0x21 | 0x22 | 0x23 | 0x24 | 0x28 => !f.imm.getLsbD 8 && f.imm.extractLsb' 0 8 != 0   -- K with CE = 0 (R362)
  | _ => false

/-- A reserved value in a used field (R234, cause 4): the value, where one stands. -/
def cxReserved (op : Nat) (f : CX) : Option Nat :=
  let sub := f.sub.toNat
  let imm := f.imm.toNat
  let op4 := sub % 16
  if (cxUse op).scope && 10 < f.scope.toNat then some f.scope.toNat else
  match op with
  | 0x08 => if 2 ≤ f.ord.toNat then some f.ord.toNat else if sub == 7 then some sub else none
  | 0x09 => if f.ord == 1 || f.ord == 3 then some f.ord.toNat else none
  | 0x0A =>
    if op4 == 11 && f.sub.getLsbD 6 then some sub
    else if op4 == 12 && !f.sub.getLsbD 6 then some sub
    else if op4 == 12 && (f.rd.getLsbD 0 || f.rd == 0) then some f.rd.toNat
    else if op4 == 12 && f.rb.getLsbD 0 then some f.rb.toNat
    else if op4 == 12 && f.rc.getLsbD 0 then some f.rc.toNat
    else none
  | 0x0C => if 2 ≤ f.ord.toNat then some f.ord.toNat else none
  | 0x12 => if sub / 2 % 4 == 3 || (sub / 2 % 4 == 2 && sub / 8 == 0) then some (sub / 2 % 4) else none
  | 0x13 | 0x14 =>
    let pos := imm % 64
    let len := imm / 64
    if len == 0 || 64 < len || 64 < pos + len then some len else none
  | 0x1A => if sub == 1 && (f.rd.getLsbD 0 || f.rd == 0) then some f.rd.toNat else none
  | 0x2A =>
    let lim := match sub with | 0 => 255 | 1 => 7 | 2 => 2 | _ => 3
    if lim < imm then some imm else none
  | _ => none

/-- Field rules of format CX (R234, R125, R120, 09, 12): the lowest cause first. -/
def cxErr (op : Nat) (f : CX) : Option DecodeErr :=
  if op == 0x0A && 13 ≤ f.sub.toNat % 16 then some ⟨2, f.sub.toNat % 16⟩
  else if op == 0x11 && 2 ≤ f.sub.toNat then some ⟨2, f.sub.toNat⟩
  else if cxUnused op f then some ⟨3, 0⟩
  else (cxReserved op f).map (fun v => ⟨4, v⟩)

/-- Operand classes of a data instruction's register fields (R239, R315). -/
inductive Cls where
  | none            -- must be zero
  | v | s | m | z
  | sNarrow         -- s0 to s31 only (R59, R328, R334)
  | k               -- the K form of R330
  | any             -- an immediate
  deriving DecidableEq, Repr

/-- How an instruction uses the mask (R312). -/
inductive MaskUse where
  | e | u | p
  deriving DecidableEq, Repr

/-- What R315, R344 and R59 allow a data major with a given function and scalar bit. -/
structure DSpec where
  vd : Cls
  va : Cls
  vb : Cls
  vc : Cls
  fns : List Nat
  zero : Nat                -- bits of x16 that must be zero
  rmEnd : Nat               -- first reserved value of x16[2:0], 8 where the field is no rounding field
  tags : Option (List Nat)  -- accepted values of x16[6:3]
  mask : MaskUse
  readBase : Bool           -- va is the base of a pantry read (R241)
  deriving DecidableEq, Repr

def fpTags : Option (List Nat) := some [0, 1, 2, 3, 4]
def intTags : Option (List Nat) := some [0, 8, 9, 10, 11]
def bitTags : Option (List Nat) := some [0, 8, 9, 10, 11, 12]
def redTags : Option (List Nat) := some [0, 1, 2, 3, 4, 8, 9, 10, 11]
def loadTags : List Nat := [0, 1, 2, 3, 4, 5, 6, 7, 8, 9, 10, 11, 12, 13]

/-- The field table of the data slice (R315, R344, R59). sb is x16[7]. -/
def dSpec (op fn : Nat) (sb : Bool) : Option DSpec :=
  let vs : Cls := if sb then .s else .v
  match op with
  | 0x10 | 0x11 | 0x12 | 0x1A => some ⟨.v, .v, vs, .none, [0], 0xFF00, 5, fpTags, .e, false⟩
  | 0x13 | 0x14 | 0x15 => some ⟨.v, .v, vs, .v, [0], 0xFF00, 5, fpTags, .e, false⟩
  | 0x16 | 0x17 => some ⟨.v, .v, vs, .none, [0], 0xFF07, 8, fpTags, .e, false⟩
  | 0x18 => some ⟨.m, .v, vs, .none, [0, 1, 2, 3, 4, 5, 6, 7], 0xFF07, 8, some [0, 1, 2], .e, false⟩
  | 0x19 => some ⟨.v, .v, .none, .none, [0, 1, 2, 3, 4, 5, 6, 7], 0xFF80, 5, if fn == 2 then fpTags else some [0, 1, 3, 4], .e, false⟩
  | 0x20 | 0x21 => some ⟨.v, .v, vs, .none, [0], 0xFE07, 8, intTags, .e, false⟩
  | 0x22 => some ⟨.v, .v, vs, .none, [0, 1], if fn == 1 then 0xFF07 else 0xFE07, 8, intTags, .e, false⟩
  | 0x23 => some ⟨.v, .v, vs, .v, [0], 0xFE07, 8, intTags, .e, false⟩
  | 0x24 | 0x25 => some ⟨.v, .v, vs, .none, [0, 1], 0xFF07, 8, intTags, .e, false⟩
  | 0x26 | 0x27 | 0x28 => some ⟨.v, .v, vs, .none, [0], 0xFF7F, 8, none, .e, false⟩
  | 0x29 | 0x2A | 0x2B =>
    if fn == 1 then some ⟨.v, .v, .none, .any, [0, 1], 0xFF87, 8, bitTags, .e, false⟩
    else some ⟨.v, .v, vs, .none, [0, 1], 0xFF07, 8, bitTags, .e, false⟩
  | 0x2C => some ⟨.m, .v, vs, .none, [0, 1, 2, 3, 4, 5, 6, 7], 0xFF07, 8, some [0, 8], .e, false⟩
  | 0x2D => some ⟨.v, .v, .none, .none, [0, 1, 2], 0xFF87, 8, bitTags, .e, false⟩
  | 0x30 =>
    if fn ≤ 3 then some ⟨.m, .m, .m, .none, [0, 1, 2, 3, 4, 5, 6], 0xFFFF, 8, none, .u, false⟩
    else if fn == 4 then some ⟨.m, .m, .none, .none, [0, 1, 2, 3, 4, 5, 6], 0xFFFF, 8, none, .u, false⟩
    else some ⟨.m, .none, .none, .none, [0, 1, 2, 3, 4, 5, 6], 0xFFFF, 8, none, .u, false⟩
  | 0x31 => some ⟨.s, .m, .none, .none, [0], 0xFFFF, 8, none, .u, false⟩
  | 0x32 => some ⟨.s, .m, .none, .none, [0, 1], 0xFFFF, 8, none, .u, false⟩
  | 0x33 =>
    if fn == 0 then some ⟨.m, .m, .none, .none, [0, 1, 2, 3], 0xFFFF, 8, none, .u, false⟩
    else if fn == 1 then some ⟨.m, .s, .s, .none, [0, 1, 2, 3], 0xFFFF, 8, none, .u, false⟩
    else some ⟨.s, .m, .none, .none, [0, 1, 2, 3], 0xFFFF, 8, none, .u, false⟩
  | 0x38 => some ⟨.v, .v, .none, .none, [0], 0xF800, 5, some [1, 2, 3, 4, 5, 6, 7, 8, 9, 10, 11, 12], .e, false⟩
  | 0x39 =>
    if fn == 0 then some ⟨.v, .v, .none, .none, [0, 1], 0xFFFF, 8, none, .e, false⟩
    else some ⟨.v, .v, .none, .none, [0, 1], 0xFF87, 8, some loadTags, .e, false⟩
  | 0x3A => some ⟨.v, .s, .none, .none, [0], 0xFF87, 8, some loadTags, .e, false⟩
  | 0x3B => some ⟨.v, .v, .v, .m, [0], 0xFFFF, 8, none, .e, false⟩
  | 0x3C => some ⟨.s, .v, if fn == 1 then .s else .none, .none, [0, 1], if fn == 1 then 0xFF7F else 0x807F, 8, none, .u, false⟩
  | 0x3D => some ⟨.v, .s, if fn == 1 then .s else .none, .none, [0, 1], if fn == 1 then 0xFF7F else 0x807F, 8, none, .u, false⟩
  | 0x40 => some ⟨.v, .v, .none, .any, [0], 0xFFFF, 8, none, .e, false⟩
  | 0x41 => some ⟨.v, .v, if fn == 1 then .s else .none, .none, [0, 1], if fn == 1 then 0xFFFF else 0x80FF, 8, none, .e, false⟩
  | 0x42 => some ⟨.v, .v, .v, .none, [0], 0xFFFF, 8, none, .e, false⟩
  | 0x43 => some ⟨.s, .v, .none, .none, [0, 1, 2], 0xFF87, 8, redTags, .e, false⟩
  | 0x44 => some ⟨.v, .v, .none, .none, [0, 1, 2], 0xFF07, 8, redTags, .e, false⟩
  | 0x45 | 0x46 => some ⟨.v, .v, .none, .sNarrow, [0], 0xFFFF, 8, none, .e, false⟩
  | 0x47 => some ⟨.v, .v, .none, .v, [0], 0xF887, 8, some [0, 3, 4, 5, 6, 10], .u, false⟩
  | 0x50 => some ⟨.v, .s, .none, .k, loadTags, 0, 8, none, .e, true⟩
  | 0x51 => some ⟨.none, .s, .v, .k, [0], 0, 8, none, .e, false⟩
  | 0x52 => some ⟨.v, .s, .v, .none, [0, 1, 3, 4, 5, 6, 7, 8, 9, 10, 11, 12, 13], 0, 8, none, .e, true⟩
  | 0x53 => some ⟨.none, .s, .v, .v, [0], 0, 8, none, .e, false⟩
  | 0x54 => some ⟨.v, .s, .none, .none, loadTags, 0, 8, none, .e, false⟩
  | 0x56 => some ⟨.none, .sNarrow, .sNarrow, .sNarrow, [0], 0, 8, none, .p, false⟩
  | 0x57 => some ⟨.none, .sNarrow, .sNarrow, .k, [0, 1, 2], 0, 8, none, .p, false⟩
  | 0x60 => some ⟨.s, .s, if 0x18 ≤ fn then .none else .s, .none, range 0 27, 0xFFFF, 8, none, .u, false⟩
  | 0x61 => some ⟨.s, .s, .none, .none, range 0 8, if 4 ≤ fn && fn ≤ 6 then 0xFFC0 else 0, 8, none, .u, false⟩
  | 0x62 => some ⟨.none, .s, .s, .k, [0, 1, 2, 3], 0, 8, none, .u, false⟩
  | 0x63 => some ⟨.s, .s, .none, .k, [0, 1, 2, 3, 4, 5, 6, 7], 0, 8, none, .u, true⟩
  | 0x68 => some ⟨.none, if fn == 1 then .m else .s, .none, .none, [0, 1], 0xFFFF, 8, none, .u, false⟩
  | 0x70 => some ⟨.z, .s, .none, .s, [0], 0xE000, 2, none, .p, true⟩
  | 0x71 => some ⟨.z, .s, .v, .s, [0], 0xE000, 2, none, .p, true⟩
  | 0x72 => some ⟨.z, .none, .none, .none, [0], 0xFF87, 8, some [1, 8], .p, false⟩
  | 0x73 => some ⟨.none, .s, .z, .k, [1, 3, 4, 5, 6, 7, 8, 9, 10, 11, 12], 0, 2, none, .p, false⟩
  | 0x74 => some ⟨.z, .s, .none, .k, [1, 3, 4, 5, 6, 7, 8, 9, 10, 11, 12], 7, 8, none, .p, true⟩
  | 0x75 => some ⟨.none, .s, .s, .s, [0, 1], 0, 8, none, .p, true⟩
  | 0x76 => some ⟨.v, .z, .none, .none, [0], 0xF000, 8, none, .p, false⟩
  | 0x78 | 0x79 => some ⟨.none, .none, .none, .none, [0], 0xFFFF, 8, none, .u, false⟩
  | 0x7A => some ⟨.none, .none, .none, .none, [0, 1], 0xFFFF, 8, none, .u, false⟩
  | _ => none

/-- A register field that must be zero, or a K form that R330 refuses (cause 3). -/
def clsUnused (c : Cls) (x : BitVec 6) : Bool :=
  match c with
  | .none => x != 0
  | .k => x.getLsbD 5 || (!x.getLsbD 4 && x != 0)
  | .v | .s | .m | .z | .sNarrow | .any => false

/-- A register number outside its class (cause 4); the count of VCOMP and VEXPD names s0 to s31 only, so an entry register there is one too
(assumption 100). -/
def clsReserved (c : Cls) (x : BitVec 6) : Bool :=
  match c with
  | .s => 38 < x.toNat
  | .sNarrow => 31 < x.toNat
  | .m | .z => 7 < x.toNat
  | .none | .v | .k | .any => false

/-- The scalar bit of layouts A and I (R313). -/
def D64.sb (f : D64) : Bool := f.x16.getLsbD 7
/-- x16[6:3] and x16[2:0] (R313, R244). -/
def D64.fmt (f : D64) : Nat := (f.x16.extractLsb' 3 4).toNat
def D64.rm (f : D64) : Nat := (f.x16.extractLsb' 0 3).toNat

/-- Field values that a data instruction's entry refuses beyond the table (cause 4): VXCH's k (R326), VPRUNE's equal
destinations (R329), SLD's signed 8 bytes (R337), the format pairs and sat of MMA and MMAS (R349), MRDV's part (R357). -/
def dExtra (op : Nat) (f : D64) : Option Nat :=
  let fA := f.fmt
  let fB := (f.x16.extractLsb' 7 4).toNat
  match op with
  | 0x40 => if f.vc.toNat == 0 || 7 < f.vc.toNat then some f.vc.toNat else none
  | 0x47 => if f.vd == f.vc then some f.vd.toNat else none
  | 0x63 => if f.fn == 7 then some 7 else none
  | 0x70 | 0x71 =>
    let fp8 := (fA == 5 || fA == 6) && (fB == 5 || fB == 6)
    let f16 := (fA == 3 && fB == 3) || (fA == 4 && fB == 4)
    let i8 := (fA == 10 || fA == 11) && (fB == 10 || fB == 11)
    let i4 := op == 0x70 && fA == 12 && fB == 12
    let f4 := op == 0x70 && fA == 7 && fB == 7
    if !(fp8 || f16 || i8 || i4 || f4) then some (fA + 16 * fB)
    else if f.x16.getLsbD 11 && !(i8 || i4) then some 1
    else none
  | 0x76 => if 32 ≤ f.x16.toNat then some (f.x16.toNat % 256) else none
  | _ => none

/-- Nonzero bits in fields that the data instruction does not use (cause 3). Where the entry takes masks, z is a used field, also of VST, VSTX
and VRED, which write no vector (assumption 101). ru, the reuse hint, is a used bit of every instruction but PMARK, VGRAB and
VDROP, of which alone the spec says so, also where va names no vector register (R243; DESIGN CHOICE, assumption 119). -/
def dUnused (op : Nat) (p : DSpec) (f : D64) : Bool :=
  clsUnused p.vd f.vd || clsUnused p.va f.va || clsUnused p.vb f.vb || clsUnused p.vc f.vc ||
  (p.mask != .e && (f.msel != 0 || f.z)) ||
  (f.fa && !(p.va == .v || p.readBase)) || (f.fb && p.vb != .v) || (f.la && p.va != .v) || (f.lb && p.vb != .v) ||
  (f.x16.toNat &&& p.zero) != 0 ||
  (op == 0x45 && f.z) || ((op == 0x57 || op == 0x78 || op == 0x79) && f.ru)

/-- A reserved value in a used field of a data instruction (cause 4). -/
def dReserved (op : Nat) (p : DSpec) (f : D64) : Option Nat :=
  if clsReserved p.vd f.vd then some f.vd.toNat
  else if clsReserved p.va f.va then some f.va.toNat
  else if clsReserved p.vb f.vb then some f.vb.toNat
  else if clsReserved p.vc f.vc then some f.vc.toNat
  else if p.rmEnd ≤ f.rm then some f.rm
  else if (match p.tags with | some ts => !ts.contains f.fmt | none => false) then some f.fmt
  else dExtra op f

/-- Field rules of format D64, the lowest cause first (R234, R239 to R244, R315, R344). -/
def d64Err (op : Nat) (f : D64) : Option DecodeErr :=
  match dSpec op f.fn.toNat f.sb with
  | none => some ⟨1, op⟩
  | some p =>
    if !p.fns.contains f.fn.toNat then some ⟨2, f.fn.toNat⟩
    else if dUnused op p f then some ⟨3, 0⟩
    else (dReserved op p f).map (fun v => ⟨4, v⟩)

/-! ### Task records -/

/-- Slot i of a record (R185). -/
def Rec.slot (t : Rec) (i : Nat) : BitVec 12 := t.slots.extractLsb' (12 * i) 12
def Rec.cls (t : Rec) (i : Nat) : Nat := (t.slot i).toNat / 256
def Rec.buf (t : Rec) (i : Nat) : Nat := (t.slot i).toNat % 256

/-- Every slot holds a legal class, an unused slot holds buffer 0, and no buffer stands in two slots (R185, R186, R188). -/
def Rec.slotsOk (t : Rec) : Bool :=
  let used := (range 0 6).filter (fun i => t.cls i != 0)
  (range 0 6).all (fun i => t.cls i ≤ 5 && (t.cls i != 0 || t.buf i == 0)) &&
  used.all (fun i => used.all (fun j => i == j || t.buf i != t.buf j))

/-- Slot i has one of the given classes. -/
def Rec.has (t : Rec) (i : Nat) (cs : List Nat) : Bool := cs.contains (t.cls i)

/-- An address field: aligned to a bytes, bits 63:57 zero (R188). -/
def addrOk (a : Nat) (x : Nat) : Bool := x % a == 0 && x < 2 ^ 57

/-- Entry j of a PHASE (R211): bits 128 + 12j of the record. -/
def Rec.entries (t : Rec) : Nat := t.q2.toNat + 2 ^ 64 * t.q3.toNat
def Rec.phaseDie (t : Rec) (j : Nat) : Nat := bits (t.entries >>> (12 * j)) 11 10
def Rec.phaseVault (t : Rec) (j : Nat) : Nat := bits (t.entries >>> (12 * j)) 9 5
def Rec.phaseSize (t : Rec) (j : Nat) : Nat := bits (t.entries >>> (12 * j)) 4 0

/-- The rules of R187 and R188 that need no table: the slots, fields and limits of each opcode. SCATTER refuses AFMT 3 with ADD 0 too
(assumption 102). -/
def taskFieldsOk (op : Nat) (t : Rec) : Bool :=
  let x := t.x32.toNat
  let q2 := t.q2.toNat
  let q3 := t.q3.toNat
  let noSlots := t.slots == 0
  let only (n : Nat) : Bool := (range 0 6).all (fun i => i < n || t.cls i == 0)
  match op with
  | 0x01 => noSlots && x < 2 ^ 15 && addrOk 64 q2 && q3 == 0
  | 0x02 => noSlots && x < 2 ^ 8 && q2 == 0 && q3 == 0
  | 0x03 => noSlots && x < 2 ^ 6 && addrOk 4096 q2 && bits q3 31 0 != 0 && bits q3 47 32 != 0 && q3 < 2 ^ 48
  | 0x10 => t.slots != 0 && x == 0 && addrOk 64 q2 && addrOk 64 q3
  | 0x11 => only 2 && t.has 0 [1] && t.has 1 [2, 3] && x == 0 && addrOk 64 q2 && addrOk 64 q3
  | 0x12 =>
    let row := bits x 12 0
    let mode := bit x 13
    only 4 && t.has 0 [1] && t.has 1 [1] && t.has 2 [2, 3] && (if mode then t.has 3 [2, 3] else t.cls 3 == 0) && x < 2 ^ 14 &&
    4 ≤ row && row ≤ 4096 && row % 4 == 0 && 1 ≤ q2 && q2 ≤ 2 ^ 24 && addrOk 64 q3
  | 0x13 =>
    let row := bits x 12 0
    let add := bit x 13
    only 3 && t.has 0 [1] && t.has 1 [1] && t.has 2 (if add then [5] else [3]) && x < 2 ^ 16 && bits x 15 14 != 3 &&
    4 ≤ row && row ≤ 4096 && row % 4 == 0 && 1 ≤ q2 && q2 ≤ 2 ^ 24 && addrOk 64 q3
  | 0x14 => only 3 && t.has 0 [1] && t.has 1 [2, 3] && t.has 2 [1] && x == 0 && addrOk 1 q2 && addrOk 64 q3
  | 0x15 => only 1 && t.has 0 [2, 3] && x == 0 && addrOk 64 q3
  | 0x20 =>
    let n := x
    noSlots && n ≤ 10 && t.entries < 2 ^ (12 * n) &&
    (range 0 n).all (fun j => t.phaseVault j ≤ 23 && t.phaseSize j ≤ 16 &&
      (range 0 n).all (fun k => j == k || t.phaseDie j != t.phaseDie k || t.phaseVault j != t.phaseVault k))
  | 0x21 => noSlots && x < 2 && addrOk 8 q2
  | 0x22 => noSlots && addrOk 8 q2
  | 0x23 => noSlots && x == 0 && q2 == 0 && q3 == 0
  | 0x28 => noSlots && x == 0 && q2 % 32 == 0 && q3 == 0
  | 0x29 => noSlots && addrOk 8 q2
  | 0x2A => noSlots && x < 2 ^ 9 && q2 < 2 ^ 32 && q3 == 0
  | 0x2F => noSlots && x == 0 && q2 == 0 && q3 == 0
  | _ => false

/-- The scope and the condition stand only where R185 allows them, and hold no reserved value (R186, R188). -/
def taskCodesOk (op : Nat) (t : Rec) : Bool :=
  (if op == 0x21 || op == 0x22 || op == 0x23 || op == 0x29 then decide (t.scope.toNat ≤ 10) else t.scope == 0) &&
  (if op == 0x22 || op == 0x29 then decide (t.cnd.toNat ≤ 5) else t.cnd == 0)

/-- Field rules of a task record: cause 0, TASK_DECODE (R188). -/
def taskErr (op : Nat) (t : Rec) : Option DecodeErr :=
  if t.slotsOk && taskCodesOk op t && taskFieldsOk op t then none else some ⟨0, op⟩

/-! ### Decoders -/

/-- Field rules by format. -/
def Enc.err : Enc → Option DecodeErr
  | .zero => none
  | .cr fn f => crErr fn f
  | .ci op f => ciErr op f
  | .cb _ _ => none
  | .cj _ _ => none
  | .cm op f => cmErr op f
  | .exitWord => none
  | .cx op f => cxErr op f
  | .d64 op f => d64Err op f
  | .task op t => taskErr op t
  | .step => none

/-- Accept an instruction whose fields obey their rules. -/
def checked (i : Instr) : Except DecodeErr Instr :=
  match i.enc.err with
  | none => .ok i
  | some e => .error e

def CR.ofWord (w : BitVec 32) : CR := ⟨w.extractLsb' 19 6, w.extractLsb' 13 6, w.extractLsb' 7 6⟩
def CI.ofWord (w : BitVec 32) : CI := ⟨w.extractLsb' 19 6, w.extractLsb' 13 6, w.extractLsb' 0 13⟩
def CB.ofWord (w : BitVec 32) : CB := ⟨w.extractLsb' 19 6, w.extractLsb' 13 6, w.extractLsb' 0 10⟩
def CJ.ofWord (w : BitVec 32) : CJ := ⟨w.extractLsb' 19 6, w.extractLsb' 0 19⟩
def CM.ofWord (w : BitVec 32) : CM := ⟨w.extractLsb' 19 6, w.extractLsb' 13 6, w.extractLsb' 11 2, w.extractLsb' 0 11⟩
def CX.ofWord (w : BitVec 64) : CX :=
  ⟨w.extractLsb' 51 6, w.extractLsb' 45 6, w.extractLsb' 39 6, w.extractLsb' 33 6, w.extractLsb' 29 4, w.extractLsb' 27 2,
   w.extractLsb' 20 7, w.extractLsb' 0 20⟩
def D64.ofWord (w : BitVec 64) : D64 :=
  ⟨w.extractLsb' 50 6, w.extractLsb' 44 6, w.extractLsb' 38 6, w.extractLsb' 32 6, w.extractLsb' 29 3, w.getLsbD 28,
   w.extractLsb' 26 2, w.getLsbD 25, w.getLsbD 24, w.getLsbD 23, w.getLsbD 22, w.getLsbD 21, w.extractLsb' 16 5, w.extractLsb' 0 16⟩
def Rec.ofWord (w : BitVec 256) : Rec :=
  ⟨w.extractLsb' 8 4, w.extractLsb' 12 4, w.extractLsb' 16 72, w.extractLsb' 96 32, w.extractLsb' 128 64, w.extractLsb' 192 64⟩

/-- A C32 major that is no group (R245). -/
def c32Row (op : Nat) (w : BitVec 32) : Option Instr :=
  match op with
  | 0x02 => some (.addi (CI.ofWord w)) | 0x03 => some (.andi (CI.ofWord w)) | 0x04 => some (.ori (CI.ofWord w))
  | 0x05 => some (.xori (CI.ofWord w)) | 0x06 => some (.slli (CI.ofWord w)) | 0x07 => some (.srli (CI.ofWord w))
  | 0x08 => some (.srai (CI.ofWord w)) | 0x09 => some (.slti (CI.ofWord w)) | 0x0A => some (.sltiu (CI.ofWord w))
  | 0x0B => some (.lih (CJ.ofWord w)) | 0x0C => some (.addpc (CJ.ofWord w))
  | 0x11 => some (.jal (CJ.ofWord w)) | 0x12 => some (.jalr (CI.ofWord w))
  | 0x18 => some (.ld (CM.ofWord w)) | 0x19 => some (.lds (CM.ofWord w)) | 0x1A => some (.st (CM.ofWord w))
  | 0x30 => some (.csrr (CI.ofWord w)) | 0x31 => some (.csrw (CI.ofWord w)) | 0x32 => some (.trap (CI.ofWord w))
  | 0x33 => some (.yield (CI.ofWord w))
  | _ => none

/-- A control instruction of 32 bits (R236, R245, R246, R235). Major 0 with any bits is the ILLEGAL instruction. -/
def decodeC32 (w : BitVec 32) : Except DecodeErr Instr :=
  let op := (w.extractLsb' 25 7).toNat
  if op == 0 then .ok .illegal
  else if op == 1 then
    match aluRow (w.extractLsb' 0 7).toNat with
    | none => .error ⟨2, (w.extractLsb' 0 7).toNat⟩
    | some k => checked (k (CR.ofWord w))
  else if op == 0x10 then
    match cndRow (w.extractLsb' 10 3).toNat with
    | none => .error ⟨2, (w.extractLsb' 10 3).toNat⟩
    | some k => checked (k (CB.ofWord w))
  else if op == 0x34 then
    if w.extractLsb' 0 25 == 0 then .ok .exit else .error ⟨3, 0⟩
  else
    match c32Row op w with
    | none => .error ⟨1, op⟩
    | some i => checked i

/-- A control instruction of 64 bits (R238, R247). -/
def decodeCX (w : BitVec 64) : Except DecodeErr Instr :=
  match cxRow (w.extractLsb' 57 7).toNat with
  | none => .error ⟨1, (w.extractLsb' 57 7).toNat⟩
  | some k => checked (k (CX.ofWord w))

/-- A data instruction (R239, R248). -/
def decodeD64 (w : BitVec 64) : Except DecodeErr Instr :=
  match d64Row (w.extractLsb' 56 8).toNat with
  | none => .error ⟨1, (w.extractLsb' 56 8).toNat⟩
  | some k => checked (k (D64.ofWord w))

/-- A task record (R185, R187, R188). -/
def decodeTask (w : BitVec 256) : Except DecodeErr Instr :=
  match taskRow (w.extractLsb' 0 8).toNat with
  | none => .error ⟨0, (w.extractLsb' 0 8).toNat⟩
  | some k => if w.extractLsb' 88 8 == 0 then checked (k (Rec.ofWord w)) else .error ⟨0, 0⟩

/-! ### Encoder -/

def CR.word (fn : Nat) (f : CR) : BitVec 32 := 1#7 ++ f.rd ++ f.ra ++ f.rb ++ BitVec.ofNat 7 fn
def CI.word (op : Nat) (f : CI) : BitVec 32 := BitVec.ofNat 7 op ++ f.rd ++ f.ra ++ f.imm
def CB.word (cnd : Nat) (f : CB) : BitVec 32 := 0x10#7 ++ f.ra ++ f.rb ++ BitVec.ofNat 3 cnd ++ f.off
def CJ.word (op : Nat) (f : CJ) : BitVec 32 := BitVec.ofNat 7 op ++ f.rd ++ f.off
def CM.word (op : Nat) (f : CM) : BitVec 32 := BitVec.ofNat 7 op ++ f.rd ++ f.ra ++ f.sz ++ f.off
def CX.word (op : Nat) (f : CX) : BitVec 64 := BitVec.ofNat 7 op ++ f.rd ++ f.ra ++ f.rb ++ f.rc ++ f.scope ++ f.ord ++ f.sub ++ f.imm
def D64.word (op : Nat) (f : D64) : BitVec 64 :=
  BitVec.ofNat 8 op ++ f.vd ++ f.va ++ f.vb ++ f.vc ++ f.msel ++ BitVec.ofBool f.z ++ f.nas ++ BitVec.ofBool f.fa ++ BitVec.ofBool f.fb ++
  BitVec.ofBool f.la ++ BitVec.ofBool f.lb ++ BitVec.ofBool f.ru ++ f.fn ++ f.x16
def Rec.word (op : Nat) (t : Rec) : BitVec 256 :=
  t.q3 ++ t.q2 ++ t.x32 ++ 0#8 ++ t.slots ++ t.cnd ++ t.scope ++ BitVec.ofNat 8 op

/-- The bits of an instruction, with how many there are; a hardware step has none. -/
def encode (i : Instr) : Option (Nat × Nat) :=
  match i.enc with
  | .zero => some (32, 0)
  | .cr fn f => some (32, (f.word fn).toNat)
  | .ci op f => some (32, (f.word op).toNat)
  | .cb cnd f => some (32, (f.word cnd).toNat)
  | .cj op f => some (32, (f.word op).toNat)
  | .cm op f => some (32, (f.word op).toNat)
  | .exitWord => some (32, 0x68000000)
  | .cx op f => some (64, (f.word op).toNat)
  | .d64 op f => some (64, (f.word op).toNat)
  | .task op t => some (256, (t.word op).toNat)
  | .step => none

/-- Which decoder an instruction belongs to, by the words that encode it. -/
def Instr.decodeBack (i : Instr) : Option Instr :=
  match i.enc with
  | .zero | .cr _ _ | .ci _ _ | .cb _ _ | .cj _ _ | .cm _ _ | .exitWord =>
    (encode i).bind (fun p => (decodeC32 (BitVec.ofNat 32 p.2)).toOption)
  | .cx _ _ => (encode i).bind (fun p => (decodeCX (BitVec.ofNat 64 p.2)).toOption)
  | .d64 _ _ => (encode i).bind (fun p => (decodeD64 (BitVec.ofNat 64 p.2)).toOption)
  | .task _ _ => (encode i).bind (fun p => (decodeTask (BitVec.ofNat 256 p.2)).toOption)
  | .step => none

/-- What the decoders read from an instruction whose bits are w (fixed name). 32 bits are a control word, 256 a task record;
64 bits are a CX instruction and, where that is refused, a D64 instruction (in the machine the header nibble says which, R229). -/
def decodeTableWord (nbits w : Nat) : Option Instr :=
  if nbits ≤ 32 then (decodeC32 (BitVec.ofNat 32 w)).toOption
  else if nbits ≤ 64 then
    match decodeCX (BitVec.ofNat 64 w) with
    | .ok i => some i
    | .error _ => (decodeD64 (BitVec.ofNat 64 w)).toOption
  else (decodeTask (BitVec.ofNat 256 w)).toOption

end Sys2Proof
end

