-- ==== Sys2Proof/Machine/Flags.lean ====
section
/-!
DEFINITION. Number formats, the one rounding procedure, exact sums and the flags they raise (R259 to R280).
Formats are named by their tags (R265); S20 (R262) by 16. Flags are the bits of FPFLAGS (R271).
-/

namespace Sys2Proof.Machine

/-! ### Flags (R271) -/

def flNX : Nat := 1
def flUF : Nat := 2
def flOF : Nat := 4
def flDZ : Nat := 8
def flNV : Nat := 16
def flSAT : Nat := 32

/-- The mark for the block scale where a format tag is expected (R262). -/
def tagS20 : Nat := 16

/-! ### Formats (R259 to R263) -/

/-- Bits of an element (R259, R261, R263, R265); untyped lanes have 32. -/
def fmtBits (f : Nat) : Nat :=
  match f with
  | 2 => 64
  | 3 | 4 | 9 | 13 => 16
  | 5 | 6 | 10 | 11 => 8
  | 7 | 12 => 4
  | 16 => 20
  | _ => 32

def isInt (f : Nat) : Bool := 8 ≤ f && f ≤ 12

/-- Fraction bits m of a floating-point format. -/
def fracBits (f : Nat) : Nat :=
  match f with
  | 2 => 52
  | 3 => 10
  | 4 => 7
  | 5 => 3
  | 6 => 2
  | 7 => 1
  | 16 => 12
  | _ => 23

/-- Exponent bits. -/
def expBits (f : Nat) : Nat :=
  match f with
  | 2 => 11
  | 3 | 6 => 5
  | 5 => 4
  | 7 => 2
  | _ => 8

def bias (f : Nat) : Nat :=
  match f with
  | 2 => 1023
  | 3 | 6 => 15
  | 5 => 7
  | 7 => 1
  | _ => 127

/-- Precision p = m + 1 and emin = 1 - bias (R259). -/
def prec (f : Nat) : Nat := fracBits f + 1
def emin (f : Nat) : Int := 1 - (bias f : Int)

/-- The formats with infinities (R260). -/
def hasInf (f : Nat) : Bool := f == 1 || f == 2 || f == 3 || f == 4 || f == 6

/-- The bits of the largest finite magnitude (R259, R262). -/
def largest (f : Nat) : Nat :=
  match f with
  | 5 => 0x7E
  | 7 => 7
  | 16 => 0xFEFFF
  | _ => (2 ^ expBits f - 1) * 2 ^ fracBits f - 1

/-- The canonical NaN (R260, R262); E2M1 has none and receives +0. -/
def canonNan (f : Nat) : Nat :=
  match f with
  | 2 => 0x7FF8000000000000
  | 3 => 0x7E00
  | 4 => 0x7FC0
  | 5 => 0x7F
  | 6 => 0x7E
  | 7 => 0
  | 16 => 0xFF800
  | _ => 0x7FC00000

/-- The sign bit's value, 0 for S20, which has none. -/
def signBit (f : Nat) : Nat := if f == 16 then 0 else 2 ^ (fmtBits f - 1)

/-- Smallest and largest value of an integer format (R261). -/
def intMin (f : Nat) : Int := if f == 11 then 0 else -((2 ^ (fmtBits f - 1) : Nat) : Int)
def intMax (f : Nat) : Int := if f == 11 then 255 else ((2 ^ (fmtBits f - 1) : Nat) : Int) - 1

/-! ### Exact values (R275) -/

/-- An exact value. fin is (-1)^neg × mant × 2^exp; with sticky its magnitude lies strictly between that and the same with
mant + 1. -/
inductive Val where
  | nan (signalling : Bool)
  | inf (neg : Bool)
  | fin (neg : Bool) (mant : Nat) (exp : Int) (sticky : Bool)
  deriving DecidableEq, Repr, Inhabited

/-- An exact integer. -/
def Val.ofInt (x : Int) : Val := .fin (decide (x < 0)) x.natAbs 0 false

/-- Decode (R259 to R262, R275). Every S20 NaN is quiet, whatever the top bit of its fraction: R262 gives S20 one kind of NaN and R260 speaks of
fractions in general (DESIGN CHOICE, assumption 120). -/
def decodeVal (x f : Nat) : Val :=
  if isInt f then Val.ofInt (if f == 11 then ((x % 256 : Nat) : Int) else sintOf (fmtBits f) x)
  else
    let m := fracBits f
    let fr := x % 2 ^ m
    let e := x / 2 ^ m % 2 ^ expBits f
    let neg := f != 16 && x / 2 ^ (fmtBits f - 1) % 2 == 1
    let top := 2 ^ expBits f - 1
    if f == 5 && e == top && fr == 7 then .nan false
    else if f == 16 && e == top then .nan false
    else if hasInf f && e == top then if fr == 0 then .inf neg else .nan (fr / 2 ^ (m - 1) == 0)
    else if e == 0 then .fin neg fr (emin f - m) false
    else .fin neg (2 ^ m + fr) ((e : Int) - bias f - m) false

/-- Subnormal FP32 or FP64 operands under FTZ read as zero (R274). -/
def flushIn (ftz : Bool) (f : Nat) (v : Val) : Val :=
  match v with
  | .fin neg mant exp st => if ftz && (f == 1 || f == 2) && mant < 2 ^ fracBits f then .fin neg 0 0 false else .fin neg mant exp st
  | .nan s => .nan s
  | .inf n => .inf n

/-- Decode with FTZ applied to the operand (R274). -/
def decodeOp (ftz : Bool) (x f : Nat) : Val := flushIn ftz f (decodeVal x f)

def Val.isNan : Val → Bool
  | .nan _ => true
  | .inf _ | .fin _ _ _ _ => false

def Val.isSnan : Val → Bool
  | .nan s => s
  | .inf _ | .fin _ _ _ _ => false

def Val.isInf : Val → Bool
  | .inf _ => true
  | .nan _ | .fin _ _ _ _ => false

def Val.isZero : Val → Bool
  | .fin _ m _ st => m == 0 && !st
  | .nan _ | .inf _ => false

/-- The sign (of a NaN: false). -/
def Val.neg? : Val → Bool
  | .fin n _ _ _ => n
  | .inf n => n
  | .nan _ => false

def Val.negate : Val → Val
  | .fin n m e st => .fin (!n) m e st
  | .inf n => .inf (!n)
  | .nan s => .nan s

def Val.abs : Val → Val
  | .fin _ m e st => .fin false m e st
  | .inf _ => .inf false
  | .nan s => .nan s

/-- NV when the value is a signalling NaN (R273). -/
def Val.nv (v : Val) : Nat := if v.isSnan then flNV else 0

/-! ### Rounding (R269, R276) -/

/-- The magnitude mant × 2^(-k) (with sticky) rounded to an integer by rm (0 RNE, 1 RZ, 2 RU, 3 RD), and whether the result
is exact. -/
def roundShift (neg : Bool) (mant k : Nat) (sticky : Bool) (rm : Nat) : Nat × Bool :=
  let n := mant / 2 ^ k
  let r := mant % 2 ^ k
  let half := 2 ^ k / 2
  let exact := r == 0 && !sticky
  let above := decide (half < r) || (decide (0 < k) && r == half && sticky)
  let tie := decide (0 < k) && r == half && !sticky
  let up := match rm with
    | 0 => above || (tie && n % 2 == 1)
    | 1 => false
    | 2 => !neg && !exact
    | _ => neg && !exact
  (if up && !exact then n + 1 else n, exact)

/-- A finite magnitude rounded to an integer multiple of 2^qe. -/
def roundAt (neg : Bool) (mant : Nat) (exp qe : Int) (sticky : Bool) (rm : Nat) : Nat × Bool :=
  if qe ≤ exp then
    -- two extra bits keep a sticky value's place below the unit
    let m := mant * 2 ^ (exp - qe).toNat
    roundShift neg (4 * m + b2n sticky) 2 false rm
  else roundShift neg mant (qe - exp).toNat sticky rm

/-- floor(log2 |v|) of a nonzero finite magnitude. -/
def magLog (mant : Nat) (exp : Int) : Int := (Nat.log2 mant : Int) + exp

/-- RoundTo (R276): the bits and the flags raised. A NaN rounded to UINT8 gives 0 with NV, as for the integer formats that the branch names
(DESIGN CHOICE, assumption 121). -/
def roundTo (v : Val) (f rm : Nat) (ftz : Bool) : Nat × Nat :=
  match v with
  | .nan s =>
    if isInt f then (0, flNV)
    else if f == 7 then (0, flNV)
    else (canonNan f, if s then flNV else 0)
  | .inf neg =>
    if isInt f then (natOf (fmtBits f) (if neg then intMin f else intMax f), flNV)
    else if f == 16 && neg then (0, flNV)
    else if hasInf f then ((if neg then signBit f else 0) + (2 ^ expBits f - 1) * 2 ^ fracBits f, 0)
    else ((if neg then signBit f else 0) + largest f, flOF ||| flNX)
  | .fin neg mant exp st =>
    if isInt f then
      let (n, exact) := roundAt neg mant exp 0 st rm
      let x : Int := if neg then -(n : Int) else n
      if x < intMin f then (natOf (fmtBits f) (intMin f), flNV)
      else if intMax f < x then (natOf (fmtBits f) (intMax f), flNV)
      else (natOf (fmtBits f) x, if exact then 0 else flNX)
    else if f == 16 && neg then (0, if mant == 0 && !st then 0 else flNV)
    else if mant == 0 && !st then ((if neg then signBit f else 0), 0)
    else
      let sgn := if neg then signBit f else 0
      let p := prec f
      let e := max (magLog mant exp) (emin f)
      let qe := e - p + 1
      let (n, exact) := roundAt neg mant exp qe st rm
      let (n, qe) := if n == 2 ^ p then (2 ^ (p - 1), qe + 1) else (n, qe)
      let efield := if n < 2 ^ (p - 1) then 0 else (qe + p - 1 + bias f).toNat
      let code := efield * 2 ^ fracBits f + n % 2 ^ (p - 1)
      if largest f < code then
        if !hasInf f then (sgn + largest f, flOF ||| flNX)
        else if rm == 0 || (rm == 2 && !neg) || (rm == 3 && neg) then
          (sgn + (2 ^ expBits f - 1) * 2 ^ fracBits f, flOF ||| flNX)
        else (sgn + largest f, flOF ||| flNX)
      else
        let tiny := n < 2 ^ (p - 1)
        let fl := if exact then 0 else flNX ||| (if tiny then flUF else 0)
        if ftz && (f == 1 || f == 2) && tiny && n != 0 then (sgn, fl ||| flUF ||| flNX)
        else (sgn + code, fl)

/-- A number with the flags raised on the way to it. -/
abbrev Flagged (α : Type) := α × Nat

/-! ### Exact arithmetic (R273, R278) -/

/-- The signed value of a finite number in units of 2^e, for e at most its exponent. -/
def scaled (neg : Bool) (mant : Nat) (exp e : Int) : Int :=
  let m : Int := ((mant * 2 ^ (exp - e).toNat : Nat) : Int)
  if neg then -m else m

/-- The least exponent of the finite values. -/
def minExp : List Val → Int → Int
  | [], e => e
  | .fin _ _ x _ :: r, e => minExp r (min x e)
  | .nan _ :: r, e => minExp r e
  | .inf _ :: r, e => minExp r e

def sumAt (e : Int) : List Val → Int
  | [] => 0
  | .fin n m x _ :: r => scaled n m x e + sumAt e r
  | .nan _ :: r => sumAt e r
  | .inf _ :: r => sumAt e r

/-- ExactSum (R278). A sticky element may stand only alone. -/
def exactSum (l : List Val) (rm : Nat) : Flagged Val :=
  if l.any Val.isNan then (.nan false, if l.any Val.isSnan then flNV else 0)
  else
    let pos := l.any (fun v => v.isInf && !v.neg?)
    let neg := l.any (fun v => v.isInf && v.neg?)
    if pos && neg then (.nan false, flNV)
    else if pos then (.inf false, 0)
    else if neg then (.inf true, 0)
    else
      let e := minExp l 0
      let s := sumAt e l
      if s != 0 then (.fin (decide (s < 0)) s.natAbs e false, 0)
      else if l.isEmpty then (.fin false 0 0 false, 0)
      else if l.all (fun v => v.isZero && v.neg?) then (.fin true 0 0 false, 0)
      else (.fin (rm == 3) 0 0 false, 0)

/-- The exact product (R273). -/
def exactMul (a b : Val) : Flagged Val :=
  if a.isNan || b.isNan then (.nan false, a.nv ||| b.nv)
  else match a, b with
    | .fin na ma ea _, .fin nb mb eb _ => (.fin (na != nb) (ma * mb) (ea + eb) false, 0)
    | _, _ => if a.isZero || b.isZero then (.nan false, flNV) else (.inf (a.neg? != b.neg?), 0)

/-- The exact quotient to 2,300 places, with sticky (R273): enough that one rounding of it rounds the quotient. -/
def exactDiv (a b : Val) : Flagged Val :=
  if a.isNan || b.isNan then (.nan false, a.nv ||| b.nv)
  else match a, b with
    | .inf _, .inf _ => (.nan false, flNV)
    | .inf n, _ => (.inf (n != b.neg?), 0)
    | _, .inf n => (.fin (a.neg? != n) 0 0 false, 0)
    | .fin na ma ea _, .fin nb mb eb _ =>
      if mb == 0 then if ma == 0 then (.nan false, flNV) else (.inf (na != nb), flDZ)
      else if ma == 0 then (.fin (na != nb) 0 0 false, 0)
      else
        let num := ma * 2 ^ 2300
        (.fin (na != nb) (num / mb) (ea - eb - 2300) (num % mb != 0), 0)
    | .nan s, _ => (.nan s, 0)
    | _, .nan s => (.nan s, 0)

/-- Integer square root by digits: k steps, one bit each. -/
def isqrt : Nat → Nat → Nat → Nat
  | 0, _, r => r
  | k + 1, x, r => let t := r + 2 ^ k; isqrt k x (if t * t ≤ x then t else r)

/-- The square root of a finite value that is not below -0, to more than 600 places, with sticky. -/
def exactSqrt (neg : Bool) (mant : Nat) (exp : Int) : Val :=
  if mant == 0 then .fin neg 0 0 false
  else
    let odd := exp % 2 != 0
    let m := (if odd then 2 * mant else mant) * 2 ^ 1400
    let e := (if odd then exp - 1 else exp) - 1400
    let r := isqrt (Nat.log2 m / 2 + 1) m 0
    .fin false r (e / 2) (r * r != m)

/-- Order of two exact values that are not NaN, as R273 orders zeros when z is set: -1, 0 or 1. -/
def cmpVal (a b : Val) : Int :=
  match a, b with
  | .inf n, .inf m => if n == m then 0 else if n then -1 else 1
  | .inf n, _ => if n then -1 else 1
  | _, .inf n => if n then 1 else -1
  | .fin na ma ea _, .fin nb mb eb _ =>
    let e := min ea eb
    let x := scaled na ma ea e
    let y := scaled nb mb eb e
    if x < y then -1 else if y < x then 1 else 0
  | .nan _, _ => 0
  | _, .nan _ => 0

/-- Which operand a minimum (mx = false) or maximum returns (R273): true the first; none a NaN; with the flags. -/
def minMaxPick (mx : Bool) (a b : Val) : Option Bool × Nat :=
  if a.isSnan || b.isSnan then (none, flNV)
  else if a.isNan && b.isNan then (none, 0)
  else if a.isNan then (some false, 0)
  else if b.isNan then (some true, 0)
  else
    let c := cmpVal a b
    -- -0 lies below +0
    let less := c < 0 || (c == 0 && a.neg? && !b.neg?)
    (some (less != mx), 0)

/-- The operand's own bits (R316); under FTZ those of a chosen subnormal are its own too, not those of the zero that it is read as (R274; DESIGN
CHOICE, assumption 122). -/
def minMaxOwn (mx ftz : Bool) (x y f : Nat) : Nat × Nat :=
  let p := minMaxPick mx (decodeOp ftz x f) (decodeOp ftz y f)
  (match p.1 with | none => canonNan f | some true => x | some false => y, p.2)

/-- The operand's value as it was read, in bits of the format: a step of R279 or R280. -/
def minMaxBits (mx ftz : Bool) (x y f : Nat) : Nat × Nat :=
  let a := decodeOp ftz x f
  let b := decodeOp ftz y f
  let p := minMaxPick mx a b
  (match p.1 with | none => canonNan f | some true => (roundTo a f 0 ftz).1 | some false => (roundTo b f 0 ftz).1, p.2)

/-- ToFormat (R277). -/
def toFormat (x fa fb rm : Nat) (ftz : Bool) : Nat × Nat := roundTo (decodeOp ftz x fa) fb rm ftz

/-- A rounded sum of bits in one format (R278). -/
def addBits (x y f rm : Nat) (ftz : Bool) : Nat × Nat :=
  let s := exactSum [decodeOp ftz x f, decodeOp ftz y f] rm
  let r := roundTo s.1 f rm ftz
  (r.1, s.2 ||| r.2)

/-! ### Elements in lanes (R263, R264, R275) -/

/-- Elements of a register in format f. -/
def numElem (f : Nat) : Nat := 4096 / fmtBits f

/-- Elem: FP64 elements lie in lane pairs, which makes every format dense (R263). -/
def elem (r : VReg) (f e : Nat) : Nat := (r.toNat >>> (fmtBits f * e)) % 2 ^ fmtBits f

/-- The lane that decides whether element e is active (R264). -/
def elemLane (f e : Nat) : Nat := if f == 2 then 2 * e else e * fmtBits f / 32

def active (e f : Nat) (mask : Mask) : Bool := mask.getLsbD (elemLane f e)

/-- A register from the list of its elements, element 0 first. -/
def packElems (b : Nat) : List Nat → Nat
  | [] => 0
  | x :: xs => x % 2 ^ b + 2 ^ b * packElems b xs

/-- Integer element as a signed number (R261). -/
def intElem (x f : Nat) : Int := if f == 11 then ((x % 256 : Nat) : Int) else sintOf (fmtBits f) x

/-- An exact integer result wrapped, or clamped with SATF (R320). -/
def wrapOrSat (sat : Bool) (f : Nat) (x : Int) : Nat × Nat :=
  if sat && f != 0 then
    if x < intMin f then (natOf (fmtBits f) (intMin f), flSAT)
    else if intMax f < x then (natOf (fmtBits f) (intMax f), flSAT)
    else (natOf (fmtBits f) x, 0)
  else (natOf (fmtBits f) x, 0)

/-- Operations of reductions and scans (R279): 0 add, 1 min, 2 max. -/
def identBits (op f : Nat) : Nat :=
  match op with
  | 0 => 0
  | 1 => if isInt f || f == 0 then natOf (fmtBits f) (if f == 0 then 2 ^ 31 - 1 else intMax f)
         else (2 ^ expBits f - 1) * 2 ^ fracBits f
  | _ => if isInt f || f == 0 then natOf (fmtBits f) (if f == 0 then -(2 ^ 31) else intMin f)
         else signBit f + (2 ^ expBits f - 1) * 2 ^ fracBits f

/-- Combine (R279): rounded RNE, wrapped, or exact. Untyped lanes count as INT32 where an entry accepts them. -/
def combineBits (op f : Nat) (ftz : Bool) (x y : Nat) : Nat × Nat :=
  if isInt f || f == 0 then
    let g := if f == 0 then 8 else f
    let a := intElem x g
    let b := intElem y g
    match op with
    | 0 => (natOf (fmtBits g) (a + b), 0)
    | 1 => (natOf (fmtBits g) (min a b), 0)
    | _ => (natOf (fmtBits g) (max a b), 0)
  else match op with
    | 0 => addBits x y f 0 ftz
    | 1 => minMaxBits false ftz x y f
    | _ => minMaxBits true ftz x y f

/-- The tree of R279 over 2^k elements, with the flags of each step at its left element. -/
def treeReduce (op f : Nat) (ftz : Bool) : Nat → List Nat → Nat × List (Nat × Nat)
  | 0, l => (l.headD 0, [])
  | k + 1, l =>
    let r := (l.take (2 ^ k)).zipWith (combineBits op f ftz) (l.drop (2 ^ k))
    let rest := treeReduce op f ftz k (r.map Prod.fst)
    (rest.1, (range 0 r.length).zip (r.map Prod.snd) ++ rest.2)

/-- The scan of R280: outputs with the flags of their step. -/
def scanElems (op f : Nat) (ftz inclusive : Bool) : Nat → List Nat → List (Nat × Nat)
  | _, [] => []
  | acc, x :: xs =>
    let c := combineBits op f ftz acc x
    (if inclusive then c.1 else acc, c.2) :: scanElems op f ftz inclusive c.1 xs

end Sys2Proof.Machine
end

