-- ==== Sys2Proof/Machine/Coherence.lean ====
section
/-!
DEFINITION. Coherence (03): the vault caches and the home memory, the L1 data caches, the snoop filters, the home
directories with their messages, and accesses performed at the home. The last part gives the steps SNOOP_FILTER_REQUEST
and the messages RDS to RECALL.
-/

namespace Sys2Proof.Machine

/-- The line number of an address, and how far into its line it lies (R80). -/
def lineOf (pa : Nat) : Nat := pa / 128

def sliceOf {α : Type} (l : List α) (off n : Nat) : List α := (l.drop off).take n

/-- Replace n elements from off on. -/
def patch {α : Type} (l : List α) (off : Nat) (x : List α) : List α := l.take off ++ x ++ l.drop (off + x.length)

/-- The dirty bits of the words that n bytes at offset off of a line touch (R94). -/
def wordMask (off n : Nat) : BitVec 32 :=
  if n == 0 then 0 else BitVec.ofNat 32 ((2 ^ ((off + n - 1) / 4 - off / 4 + 1) - 1) * 2 ^ (off / 4))

/-! ### Vault caches (R78, R80, R84, R398) -/

def vaultOf (line : Nat) : Nat := line % 24
def vsetOf (line : Nat) : Nat := line / 24 % 8192

/-- The vault line that holds a line on a die. -/
def Die.vline (x : Die) (line : Nat) : Option VLine := x.vlines.find? (fun v => v.line == line)

/-- A way is active: cache, and not moving (R78, R84): while a change runs, the ways of both its ends count as store. -/
def Vault.wayActive (v : Vault) (w : Nat) : Bool :=
  w < 16 - (if v.busyTill.isSome then max v.origin (max v.store v.target) else v.store)

/-! ### Words that a write-back cannot write (R476), and marks in caches (R437) -/

/-- A marked 64-bit unit of a cache line lies under n bytes at an offset. -/
def badIn (data : List TByte) (off n : Nat) : Bool := (sliceOf data (off / 8 * 8) ((off + n + 7) / 8 * 8 - off / 8 * 8)).any TByte.bad

/-- A marked unit is covered only in part by n bytes at an offset. -/
def badPart (data : List TByte) (off n : Nat) : Bool :=
  (off % 8 != 0 && badIn data off 1) || ((off + n) % 8 != 0 && badIn data (off + n - 1) 1)

/-- The two words of each unit of a line: those of a marked unit that the mask covers only in part are lost. -/
def lostInCache (data : List TByte) (mask : BitVec 32) : BitVec 32 :=
  (range 0 16).foldl (fun m u =>
    if badIn data (8 * u) 8 && (mask.getLsbD (2 * u) != mask.getLsbD (2 * u + 1)) then m ||| BitVec.ofNat 32 (3 * 4 ^ u) else m) 0 &&& mask

/-- The same for plain memory, whose units are half-lines. -/
def lostInMemory (s : State) (line : Nat) (mask : BitVec 32) : BitVec 32 :=
  (range 0 2).foldl (fun m h =>
    if s.poisoned (line * 128 + 64 * h) 64 && mask.toNat / 2 ^ (16 * h) % 2 ^ 16 != 2 ^ 16 - 1 then m ||| BitVec.ofNat 32 (0xFFFF * 2 ^ (16 * h)) else m) 0 &&& mask

/-- The die whose controller reports what befell an address. -/
def rasDie (s : State) (pa : Nat) : Nat := (homeDie s pa).getD 0

/-- An error is reported to the RAS ring of the die controller there, which writes the entry in its turn (R438, R476). -/
def State.rasLog (s : State) (pa kind : Nat) : State := { s with ras := (pa, kind) :: s.ras, rasq := s.rasq ++ [(rasDie s pa, pa, kind)] }

/-- Write the masked words of one half-line to plain memory; words that meet a poisoned unit they do not cover are lost and
reported (R476). A word that carries a mark leaves it there. -/
def writeHalf (s : State) (pa : Nat) (data : List TByte) (mask : Nat) : State :=
  if mask % 2 ^ 16 == 2 ^ 16 - 1 then ((s.clearPoison pa 64).setBytes pa ((data.take 64).map (fun b => { b with bad := false }))).carryPoison pa (data.take 64)
  else if mask % 2 ^ 16 == 0 then s
  else if s.poisoned pa 64 then s.rasLog pa 1
  else
    (range 0 16).foldl (fun t w =>
      let bs := sliceOf data (4 * w) 4
      if mask.testBit w then (t.storeBytes (pa + 4 * w) (bs.map (fun b => { b with bad := false }))).carryPoison pa bs else t) s

/-- Write back the dirty words of a line to plain memory (R109). -/
def writeMaskedRaw (s : State) (line : Nat) (data : List TByte) (mask : BitVec 32) : State :=
  writeHalf (writeHalf s (line * 128) data mask.toNat) (line * 128 + 64) (data.drop 64) (mask.toNat / 2 ^ 16)

/-- A vault line leaves its slot: its dirty words go to memory (R80, R83, R109). -/
def dropVline (s : State) (d : Nat) (line : Nat) : State :=
  match (s.die d).vline line with
  | none => s
  | some v =>
    let s := s.modDie d (fun x => { x with vlines := x.vlines.filter (fun y => y.line != line) })
    if v.dirty == 0 then s else writeMaskedRaw s line v.data v.dirty

/-- A vault line is used (R398). -/
def touchVline (s : State) (d line : Nat) : State :=
  (s.modDie d (fun x => { x with vlines := mapIf (fun v => v.line == line) (fun v => { v with used := s.fresh }) x.vlines })).bump

/-- The epochs of the dies, as a fill notes them at its issue (R116, assumption 19). -/
def State.epochs (s : State) : List Nat := s.dies.toList.map Die.epoch

/-- Data whose stamp reaches the floor of a resident on die d (R116). -/
def stampOk (stamp : List Nat) (d floor : Nat) : Bool := floor ≤ stamp.getD d 0

/-- Fill a vault slot for a class, least recently used among the ways it may fill (R398); no way, no fill. -/
def fillVault (s : State) (d line cls : Nat) (stamp : List Nat) (data : List TByte) : State :=
  let x := s.die d
  let vt := vaultOf line
  let set := vsetOf line
  let may := (range 0 16).filter (fun w => (x.vault vt).wayActive w && x.waypart.getLsbD (16 * cls + w))
  let here := x.vlines.filter (fun v => v.vault == vt && v.set == set)
  let free := may.find? (fun w => !here.any (fun v => v.way == w))
  let put (s : State) (w : Nat) : State :=
    s.modDie d (fun x => { x with vlines := ⟨vt, set, w, line, data, 0, stamp, s.fresh⟩ :: x.vlines })
  if x.vlines.any (fun v => v.line == line) then
    s.modDie d (fun x => { x with vlines := mapIf (fun v => v.line == line) (fun v => { v with data := data, stamp := stamp, used := s.fresh }) x.vlines })
  else match free with
    | some w => (put s w).bump
    | none =>
      match leastBy (fun a b => decide (a.used < b.used)) (here.filter (fun v => may.contains v.way)) with
      | none => s
      | some v => (put (dropVline s d v.line) v.way).bump

/-- The home memory's bytes at an HBM or attic address within one line: the vault line, or the location (R93). -/
def homeBytes (s : State) (pa n : Nat) : List TByte :=
  match homeDie s pa with
  | none => s.bytesAt pa n
  | some d =>
    match (s.die d).vline (lineOf pa) with
    | some v => sliceOf v.data (pa % 128) n
    | none => s.bytesAt pa n

/-- The home memory's bytes as key generation k reads them (R47). -/
def homeSeen (s : State) (k pa n : Nat) : List Byte :=
  let lo := pa / 16 * 16
  let bs := homeBytes s pa n
  if !isHbm pa || bs.all (fun b => b.key == k) then bs.map TByte.v
  else lineSeen k lo ((range 0 ((pa + n - lo + 15) / 16)).flatMap (fun i => homeBytes s (lo + 16 * i) 16)) (pa - lo) n

/-- A range of home memory is poisoned where it is stored (R93, R437): in the vault line, where the line has one. -/
def homePoisoned (s : State) (pa n : Nat) : Bool :=
  match (homeDie s pa).bind (fun d => (s.die d).vline (lineOf pa)) with
  | none => s.poisoned pa n
  | some v => badIn v.data (pa % 128) n

/-- A parked WAITV or a WAITEV whose word is written wakes (R214, R301). -/
def noteWrite (s : State) (pa n : Nat) : State :=
  { s with
    units := s.units.map (fun u =>
      match u.ctx.ctl.wait with
      | .waitv va p size acq scope cmp rd last limit _ reading =>
        if overlap p size pa n then u.modCtl (fun c => { c with wait := .waitv va p size acq scope cmp rd last limit true reading }) else u
      | _ => u)
    jobs := s.jobs.map (fun j => { j with window := j.window.map (fun t =>
      match t.wpa with
      | some p => if overlap p 8 pa n then { t with woken := true } else t
      | none => t) }) }

/-- A write that performs at the home of subscribed attic store takes the next number of each record and goes to its
subscribers (R67). -/
def numberWrite (s : State) (pa : Nat) (bs : List Byte) : State :=
  match place52 pa with
  | .attic d _ _ =>
    (s.die d).ranges.foldl (fun t r =>
      let hits := spanHits r.spans 0 pa bs.length
      if hits.isEmpty then t
      else
        let n := (r.seqno + 1) % 2 ^ 32
        let t := t.modDie d (fun x => { x with ranges := mapIf (fun q => q.spans == r.spans) (fun q => { q with seqno := n }) x.ranges })
        let ups := (t.subs.filter (fun b => b.active && b.die == d && b.spans == r.spans)).flatMap
          (fun b => hits.map (fun h => (⟨b.id, n, h.1, sliceOf bs h.2.1 h.2.2⟩ : Update)))
        { t with updates := t.updates ++ ups }) s
  | _ => s

/-- Bytes written into the home memory within one line (R87, R109); none when a poisoned unit would be covered in part. -/
def homePut (s : State) (pa : Nat) (bs : List TByte) : Option State :=
  let note (t : State) : State := numberWrite (noteWrite t pa bs.length) pa (bs.map TByte.v)
  match (homeDie s pa).bind (fun d => ((s.die d).vline (lineOf pa)).map (fun v => (d, v))) with
  | some (d, w) =>
    let f (v : VLine) : VLine := { v with
      data := blockPut (lineOf pa * 128) v.data (pa % 128) bs, dirty := v.dirty ||| wordMask (pa % 128) bs.length, used := s.fresh }
    if badPart w.data (pa % 128) bs.length then none
    else some (note (s.modDie d (fun x => { x with vlines := mapIf (fun v => v.line == lineOf pa) f x.vlines })).bump)
  | none => (s.writeRaw pa bs).map note

/-- Words that have performed at the home of subscribed attic store are numbered like any other write (R67). -/
def numberWords (s : State) (line : Nat) (data : List TByte) (mask : BitVec 32) : State :=
  match place52 (line * 128) with
  | .attic _ _ _ =>
    (range 0 32).foldl (fun t w =>
      if mask.getLsbD w then numberWrite t (line * 128 + 4 * w) ((sliceOf data (4 * w) 4).map TByte.v) else t) s
  | _ => s

/-- Returned or written-back dirty words merged into the home memory under their mask (R104, R109). -/
def homeMerge (s : State) (line : Nat) (data : List TByte) (mask : BitVec 32) : State :=
  if mask == 0 then s
  else
    match (homeDie s (line * 128)).bind (fun d => ((s.die d).vline line).map (fun v => (d, v))) with
    | some (d, w) =>
      let lost := lostInCache w.data mask
      let ok := mask &&& ~~~lost
      let words (old : List TByte) : List TByte :=
        (range 0 32).foldl (fun l w => if ok.getLsbD w then blockPut (line * 128) l (4 * w) (sliceOf data (4 * w) 4) else l) old
      let f (v : VLine) : VLine := { v with data := words v.data, dirty := v.dirty ||| ok, used := s.fresh }
      let s := if lost == 0 then s else s.rasLog (line * 128) 1
      noteWrite (s.modDie d (fun x => { x with vlines := mapIf (fun v => v.line == line) f x.vlines })).bump (line * 128) 128
    | none =>
      numberWords (noteWrite (writeMaskedRaw s line data mask) (line * 128) 128) line data (mask &&& ~~~lostInMemory s line mask)

/-- A whole line read from the home memory, allocated in the vault cache for HBM lines (R80, R398) unless it holds a poisoned unit,
which stays marked where it is stored (R437). -/
def homeLine (s : State) (line cls : Nat) : State × List TByte :=
  let data := homeBytes s (line * 128) 128
  match place52 (line * 128), homeDie s (line * 128) with
  | .hbm, some d =>
    if ((s.die d).vline line).isSome then (touchVline s d line, data)
    else if s.poisoned (line * 128) 128 then (s, data)
    else (fillVault s d line cls [] data, data)
  | _, _ => (s, data)

/-- A present vault line of the location is used by an access that never fills (R108, R398). -/
def touchHome (s : State) (pa : Nat) : State :=
  match (homeDie s pa).bind (fun d => ((s.die d).vline (lineOf pa)).map (fun _ => d)) with
  | some d => touchVline s d (lineOf pa)
  | none => s

/-- A read at the home of an HBM line fills the vault cache for its class (R80, R398); an access to an N page never does (R108), though it
uses a line that is there. -/
def homeFill (s : State) (pa : Nat) (cls : Option Nat) : State :=
  match cls with
  | some c => (homeLine s (lineOf pa) c).1
  | none => touchHome s pa

/-! ### L1 data caches (R77, R94) -/

def PairSt.l1Find (p : PairSt) (line : Nat) (sts : List L1St) : Option L1Line :=
  p.l1.find? (fun x => x.line == line && sts.contains x.st)

def State.l1Find (s : State) (pair line : Nat) (sts : List L1St) : Option L1Line := (s.pairOf pair).l1Find line sts

def cStates : List L1St := [.s, .e, .m]

/-- Change a pair's lines with a number in some states. -/
def State.l1Mod (s : State) (pair line : Nat) (sts : List L1St) (f : L1Line → L1Line) : State :=
  s.modPair pair (fun p => { p with l1 := mapIf (fun x => x.line == line && sts.contains x.st) f p.l1 })

def State.l1Drop (s : State) (pair line : Nat) (sts : List L1St) : State :=
  s.modPair pair (fun p => { p with l1 := p.l1.filter (fun x => !(x.line == line && sts.contains x.st)) })

/-! ### Messages (R100, R102) -/

def ToHome.line : ToHome → Nat
  | .rds l | .rdm l | .upg l | .evicte l | .invack l | .stale l => l
  | .wbm l _ _ _ | .fwdack l _ _ => l

def ToDie.line : ToDie → Nat
  | .datas l _ | .datae l _ | .datam l _ => l
  | .ackm l | .wback l | .inv l | .fwds l | .fwdm l | .recall l => l

def HomeReq.line : HomeReq → Nat
  | .remote _ _ _ l => l
  | .here _ l => l
  | .uncached _ l => l
  | .visit _ l => l

def State.sendHome (s : State) (src home : Nat) (m : ToHome) : State := { s with toHome := s.toHome ++ [(src, home, m)] }
def State.sendDie (s : State) (home dst : Nat) (m : ToDie) : State := { s with toDie := s.toDie ++ [(home, dst, m)] }

/-- The oldest message of a channel, and the channels without it. -/
def takeMsg {α : Type} (a b : Nat) : List (Nat × Nat × α) → Option (α × List (Nat × Nat × α))
  | [] => none
  | (x, y, m) :: r =>
    if x = a ∧ y = b then some (m, r)
    else match takeMsg a b r with
      | none => none
      | some (n, r') => some (n, (x, y, m) :: r')

/-! ### Snoop filters (R95 to R97) -/

def Die.sfEntry (x : Die) (line : Nat) : Option SfEntry := x.sf.find? (fun e => e.line == line)

def State.sfMod (s : State) (d line : Nat) (f : SfEntry → SfEntry) : State :=
  s.modDie d (fun x => { x with sf := mapIf (fun e => e.line == line) f x.sf })

def State.sfDrop (s : State) (d line : Nat) : State :=
  s.modDie d (fun x => { x with sf := x.sf.filter (fun e => e.line != line) })

/-- The owner pair's line, if it holds E or M. -/
def ownerLine (s : State) (d line : Nat) : Option (Nat × L1Line) :=
  match ((s.die d).sfEntry line).bind (fun e => e.owner) with
  | none => none
  | some p => (s.l1Find p line [.e, .m]).map (fun l => (p, l))

/-- Every pair of the die invalidates its C copy (R97, R101). -/
def invalidateDie (s : State) (d line : Nat) : State :=
  match (s.die d).sfEntry line with
  | none => s
  | some e => e.holders.foldl (fun t p => t.l1Drop p line cStates) s

/-- The die lets go of a line (R97): copies invalid, dirty words to the home, the entry freed. -/
def recallEntry (s : State) (d line : Nat) : State :=
  match (s.die d).sfEntry line with
  | none => s
  | some e =>
    let own := ownerLine s d line
    let s := (invalidateDie s d line).sfDrop d line
    let home := (homeDie s (line * 128)).getD d
    let mask := match own with | some (_, l) => l.dirty | none => 0
    let data := match own with | some (_, l) => l.data | none => []
    if home == d then homeMerge s line data mask
    else
      let wait (keep : Bool) (t : State) : State := t.modDie d (fun x => { x with wbw := x.wbw ++ [⟨line, home, keep⟩] })
      if mask != 0 || e.grant == some .m then wait false (s.sendHome d home (.wbm line data mask false))
      else if e.grant == some .e then wait false (s.sendHome d home (.evicte line))
      else s

/-- One pair gives up its C copy by replacement (R97, R109). -/
def dropHolder (s : State) (pair line : Nat) : State :=
  let d := dieOf pair
  match (s.die d).sfEntry line with
  | none => s.l1Drop pair line cStates
  | some e =>
    if e.owner == some pair || e.holders.all (fun p => p == pair) then recallEntry s d line
    else (s.l1Drop pair line cStates).sfMod d line (fun e => { e with holders := e.holders.filter (fun p => p != pair) })

/-- The filter's entry of a line is in the middle of a request (R96). -/
def Die.sfBusy (x : Die) (line : Nat) : Bool := x.sf.any (fun e => e.line == line && e.busy)

/-- A home's line is in the middle of a transaction, or being evicted for one (R103, R107). -/
def Die.inTxn (x : Die) (line : Nat) : Bool :=
  x.txns.any (fun t => t.req.line == line || (match t.victim with | some (v, _) => v == line | none => false))

/-- The line is in the middle of a request, a transaction or a message (R96, R102, R103). -/
def lineBusy (s : State) (line : Nat) : Bool :=
  s.toHome.any (fun m => m.2.2.line == line) || s.toDie.any (fun m => m.2.2.line == line) ||
  s.dies.toList.any (fun x => x.inTxn line || x.sfBusy line || x.wbw.any (fun w => w.line == line))

/-- The lines that a pair's L1 may replace: all but the C lines that are busy at the die's filter. -/
def l1Victims (s : State) (pair : Nat) : List L1Line :=
  (s.pairOf pair).l1.filter (fun x => match x.st with
    | .s | .e | .m => !(s.die (dieOf pair)).sfBusy x.line
    | .mg | .pc => true)

/-- The L1 of 512 lines (R1, R77) has room for one more, or a line that it may replace. -/
def l1Room (s : State) (pair : Nat) : Bool := (s.pairOf pair).l1.length < 512 || !(l1Victims s pair).isEmpty

/-- Put a line into an L1 that has room; a full cache replaces its least recently used line that is not busy at the die's filter (R77,
assumption 5). -/
def l1Put (s : State) (pair : Nat) (l : L1Line) : State :=
  let put (s : State) : State := (s.modPair pair (fun p => { p with l1 := { l with used := s.fresh } :: p.l1 })).bump
  if (s.pairOf pair).l1.length < 512 then put s
  else match leastBy (fun a b => decide (a.used < b.used)) (l1Victims s pair) with
    | none => s
    | some v =>
      put (match v.st with
        | .s | .e | .m => dropHolder s pair v.line
        | .mg => (homeMerge s v.line v.data v.dirty).l1Drop pair v.line [.mg]
        | .pc => s.l1Drop pair v.line [.pc])

/-! ### Accesses at the home, performed at once (R108) -/

/-- A transaction of the line is under way, or a message that moves its data or permission is: the line has no settled holder. Requests
that stand in a queue or are on their way to it are none (R103). -/
def unsettled (s : State) (line : Nat) : Bool :=
  s.toHome.any (fun m => m.2.2.line == line && (match m.2.2 with | .rds _ | .rdm _ | .upg _ => false | _ => true)) ||
  s.toDie.any (fun m => m.2.2.line == line && (match m.2.2 with | .wback _ => false | _ => true)) ||
  s.dies.toList.any (fun x => x.inTxn line)

/-- The die lets a line go: an entry with a request under way stays for it (R101). -/
def invDie (s : State) (d line : Nat) : State :=
  let s := invalidateDie s d line
  match (s.die d).sfEntry line with
  | none => s
  | some e => if e.busy then s.sfMod d line (fun e => { e with holders := [], owner := none, grant := none }) else s.sfDrop d line

/-- An access of the agent whose turn it is has found its line busy: it takes its place in the line's queue at the home, so that no request
that arrives later goes before it (R103, R118). -/
def State.knock (s : State) (pa : Nat) : State :=
  match homeDie s pa, s.now with
  | some h, some w =>
    let r : HomeReq := .visit w (lineOf pa)
    if !unsettled s (lineOf pa) || (s.die h).homeq.contains r then s else s.modDie h (fun x => { x with homeq := x.homeq ++ [r] })
  | _, _ => s

/-- Take away or downgrade every C copy of a line, as an uncached write or read does (R108), in one step; none while the line is
unsettled. -/
def quiesce (s : State) (line : Nat) (write : Bool) : Option State :=
  if unsettled s line then none
  else
    let home := (homeDie s (line * 128)).getD 0
    let drop (x : Die) : Die := { x with dir := x.dir.filter (fun e => e.line != line) }
    let t := (range 0 Config.dies).foldl (fun t d =>
      match (t.die d).sfEntry line with
      | none => t
      | some e =>
        let own := ownerLine t d line
        let t := match own with | some (_, l) => homeMerge t line l.data l.dirty | none => t
        if write then invDie t d line
        else
          let t := match own with | some (p, _) => t.l1Mod p line [.e, .m] (fun l => { l with st := .s, dirty := 0 }) | none => t
          let t := t.sfMod d line (fun e => { e with owner := none, grant := e.grant.map (fun _ => L1St.s) })
          if e.grant == some .e || e.grant == some .m then
            t.modDie home (fun x => { x with dir := mapIf (fun e => e.line == line) (fun e => { e with st := .s [d] }) x.dir })
          else t) s
    some (if write then t.modDie home drop else t)

/-- A coherent read at the home of bytes within one line (R108), for the class that fills the vault cache (R398), if one does; none
while the line is unsettled. -/
def cohRead (s : State) (cls : Option Nat) (pa n : Nat) : Option (State × List TByte) :=
  (quiesce s (lineOf pa) false).map (fun t => (homeFill t pa cls, homeBytes t pa n))

/-- A coherent write at the home of bytes within one line (R108): the state, and whether it performed (R476). -/
def cohWrite (s : State) (pa : Nat) (bs : List TByte) : Option (State × Bool) :=
  (quiesce s (lineOf pa) true).map (fun t => match homePut t pa bs with | some u => (u, true) | none => (t, false))

/-- Reads and writes over several lines: one line after the other. -/
def cohReadN (cls : Option Nat) : Nat → State → Nat → Nat → Option (State × List TByte)
  | 0, s, _, _ => some (s, [])
  | k + 1, s, pa, n =>
    if n == 0 then some (s, [])
    else
      let m := min n (128 - pa % 128)
      match cohRead s cls pa m with
      | none => none
      | some (t, b) =>
        match cohReadN cls k t (pa + m) (n - m) with
        | none => none
        | some (u, c) => some (u, b ++ c)

def cohWriteN : Nat → State → Nat → List TByte → Option (State × Bool)
  | 0, s, _, _ => some (s, true)
  | k + 1, s, pa, bs =>
    if bs.isEmpty then some (s, true)
    else
      let m := min bs.length (128 - pa % 128)
      match cohWrite s pa (bs.take m) with
      | none => none
      | some (t, ok) =>
        match cohWriteN k t (pa + m) (bs.drop m) with
        | none => none
        | some (u, ok') => some (u, ok && ok')

/-- A line's number of pieces for n bytes. -/
def pieces (n : Nat) : Nat := n / 128 + 2

/-! ### Merge pages and peer-clean lines (R110 to R116) -/

/-- Write back the dirty words of the job's MG lines of a pair, and with inv take the lines away (R111). A line that residents of two
jobs use belongs to both, so either job's acquire takes it away (assumption 82). -/
def mergeBack (s : State) (pair job : Nat) (inv : Bool) : State :=
  let mine (l : L1Line) : Bool := l.st == .mg && l.jobs.contains job
  let s := ((s.pairOf pair).l1.filter mine).foldl (fun t l => homeMerge t l.line l.data l.dirty) s
  let f (ls : List L1Line) : List L1Line :=
    if inv then ls.filter (fun l => !mine l) else mapIf mine (fun l => { l with dirty := 0 }) ls
  s.modPair pair (fun p => { p with l1 := f p.l1 })

/-- Kinds of peer-clean line. -/
def isHostLine (line : Nat) : Bool := match place52 (line * 128) with | .host _ _ => true | _ => false
def isHostRoot (s : State) (line : Nat) : Bool :=
  match place52 (line * 128) with | .host p _ => p && s.p1.mode == .root | _ => false
def isPeerLine (line : Nat) : Bool := match place52 (line * 128) with | .peer _ _ => true | _ => false

/-- Which PC lines an acquire at a scope covers (R115): host lines through an upstream port, host lines below a root-mode P1,
peer lines. addrPeer says that the acquire is a fence or that its own address is a peer's. -/
def acqCovers (scope : Nat) (addrPeer : Bool) : Bool × Bool × Bool :=
  (scope == 6 || scope == 9 || scope == 10, scope == 10,
   scope == 8 || scope == 9 || scope == 10 || (scope == 7 && addrPeer))

/-- The acquire effects of R111 (mg) and R115 (the kinds of PC line covered); what the slice has read ahead is read again (R127). -/
def acquireSet (s : State) (k : UKey) (pair : Nat) (mg : Bool) (covers : Bool × Bool × Bool) : State :=
  let s := if mg then mergeBack s pair k.job true else s
  let s := s.modUnit k (fun u => u.modCtl (fun c => { c with ahead := [] }))
  let (h, r, p) := covers
  if !(h || r || p) then s
  else
    let d := dieOf pair
    let kind (l : Nat) : Bool := (h && isHostLine l && !isHostRoot s l) || (r && isHostRoot s l) || (p && isPeerLine l)
    let s := s.modPair pair (fun x => { x with l1 := x.l1.filter (fun l => !(l.st == .pc && kind l.line)) })
    -- a fill under way for the pair was asked for before the acquire, so its data do not enter the L1
    let s := { s with outstanding := s.outstanding.map (fun (o : Outstanding) =>
      match o.what with
      | .fill a st slot l1 => { o with what := .fill a st slot (l1 && !(a.pair == pair && kind (lineOf a.pa))) }
      | _ => o) }
    let e := (s.die d).epoch
    let s := s.modUnit k (fun u => u.modCtl (fun c => { c with hostFloor := if h || r then e + 1 else c.hostFloor
                                                               peerFloor := if p then e + 1 else c.peerFloor }))
    s.modDie d (fun x => { x with epoch := e + 1 })

/-- The acquire effects of R111 and R115 for a unit at a scope. -/
def acquireFx (s : State) (k : UKey) (pair scope : Nat) (addrPeer : Bool) : State :=
  acquireSet s k pair (scope != 0) (acqCovers scope addrPeer)

/-- The release effects of R111. -/
def releaseFx (s : State) (k : UKey) (pair scope : Nat) : State :=
  if scope == 0 then s else mergeBack s pair k.job false

/-- The store groups of R147, by the scope that a release waits for. -/
def scopeGroup (scope : Nat) : Nat :=
  if scope ≤ 1 then 0 else if scope ≤ 4 then 1 else if scope == 5 then 2 else 3

/-- The group of a store (R147): the narrowest scope of the issuer that contains the store's observation point (R123). -/
def storeGroup (s : State) (pair pa cm : Nat) (subscribed : Bool) : Nat :=
  let d := dieOf pair
  match place52 pa with
  | .pantry p _ => if p == pair then 0 else if dieOf p == d then 1 else 2
  | .host _ _ | .peer _ _ => 3
  | .mmio x _ => if x == d then 1 else 2
  | .attic x _ _ => if x == d then if cm == 2 || subscribed then 1 else 0 else 2
  | .hbm => if cm == 2 then if homeDie s pa == some d then 1 else 2 else 0
  | .unmapped => 0

/-- Two ranges share a location, a naturally aligned 4-byte word (R128). -/
def sameWord (a n b m : Nat) : Bool := overlap (a / 4) ((a + n + 3) / 4 - a / 4) (b / 4) ((b + m + 3) / 4 - b / 4)

/-- What was read ahead of a location's accesses in program order is forgotten (R138). -/
def Ctl.forget (c : Ctl) (pa n : Nat) : Ctl := { c with ahead := c.ahead.filter (fun x => !sameWord x.1 x.2.length pa n) }

/-- The value that a load of a range was read ahead with. -/
def Ctl.readAhead (c : Ctl) (pa n : Nat) : Option (List Byte) :=
  (c.ahead.find? (fun x => x.1 == pa && x.2.length == n)).map Prod.snd

/-- A slice that an access has read for: after an acquire nothing that was read ahead while it was under way stands (R124, R127, R130), after
another read nothing that was read ahead of its locations (R138). -/
def Ctl.readDone (c : Ctl) (a : Access) : Ctl := if a.acq.isSome then { c with ahead := [] } else c.forget a.pa a.size

/-- Add to a store group of a unit (R147). -/
def Ctl.addUnacked (c : Ctl) (g : Nat) (up : Bool) : Ctl :=
  { c with unacked := c.unacked.setIfInBounds g (if up then c.unacked.toArray.getD g 0 + 1 else c.unacked.toArray.getD g 0 - 1) }

/-! ### Atomics (R297) -/

/-- The new memory value of an atomic operation on the old value m. -/
def amoNew (op : AtomicOp) (m : Nat) : Nat :=
  let w := 8 * op.size
  let b := op.b % 2 ^ w
  let sm := sintOf w m
  let sb := sintOf w b
  match op.op with
  | 0 => (m + b) % 2 ^ w
  | 1 => (m + 2 ^ w - b) % 2 ^ w
  | 2 => m &&& b
  | 3 => m ||| b
  | 4 => m ^^^ b
  | 5 => if sm ≤ sb then m else b
  | 6 => if sb ≤ sm then m else b
  | 7 => min m b
  | 8 => max m b
  | 9 => b
  | 10 | 12 => if m == op.cmp % 2 ^ w then b else m
  | _ => (addBits m b 1 0 false).1

/-! ### Completing a control-slice access -/

/-- How an access ended: its bytes, or a trap code with its INFO (R407). -/
inductive AccRes where
  | ok (bs : List Byte)
  | err (code info : Nat)
  deriving DecidableEq, Repr

def AccRes.fails : AccRes → Bool | .ok _ => false | .err _ _ => true

/-- A loaded value, zero- or sign-extended (R288, R295). -/
def loadValue (signed : Bool) (bs : List Byte) : Word :=
  let w := 8 * bs.length
  let x := leNat bs
  if signed then BitVec.ofInt 64 (sintOf w x) else BitVec.ofNat 64 x

/-- The result registers of an atomic (R298). -/
def amoWriteback (rd : BitVec 6) (size old : Nat) (u : UnitSt) : UnitSt :=
  if size == 16 then (u.setC rd (BitVec.ofNat 64 old)).setC (rd + 1) (BitVec.ofNat 64 (old / 2 ^ 64))
  else u.setC rd (BitVec.ofNat 64 old)

/-- Whether a slice still waits for an access. -/
def UnitSt.awaits (u : UnitSt) (aid : Nat) : Bool :=
  match u.ctx.ctl.wait with
  | .access a => a == aid
  | .waitv _ _ _ _ _ _ _ _ _ _ r => r == some aid
  | _ => false

/-- A read of WAITV's loop has its value (R301): go on, or park until a write, 2,048 ac or the limit. -/
def waitvRead (s : State) (u : UnitSt) (v : Nat) : State :=
  match u.ctx.ctl.wait with
  | .waitv va pa size acq scope cmp rd _ limit woken _ =>
    let late := match limit with | some t => decide (t ≤ s.cycle) | none => false
    if v != cmp % 2 ^ (8 * size) || late then s.retireC (u.setC rd (BitVec.ofNat 64 v)) 2
    else s.waitC u (.waitv va pa size acq scope cmp rd s.cycle limit woken none)
  | _ => s

/-- An acquire access that completes also takes away the MG lines that the job's other residents of the pair have filled since
its issue (R111). -/
def acquireDone (s : State) (a : Access) : State :=
  match a.acq with
  | some sc => if sc == 0 then s else mergeBack s a.pair a.unit.job true
  | none => s

/-- A line enters a pair's constant cache of 512 lines, tagged with its job (R74). -/
def fillConst (s : State) (pair job line : Nat) (data : List TByte) : State :=
  (s.modPair pair (fun p => { p with cc := (⟨job, line, data, s.fresh⟩ :: p.cc).take 512 })).bump

/-- An atomic has performed, or will never do so: its group falls again (R147). -/
def amoUncount (s : State) (a : Access) : State :=
  match a.use with
  | .amo _ _ => s.modUnit a.unit (fun u => u.modCtl (fun c => c.addUnacked a.group false))
  | .load _ _ | .store _ _ | .waitv | .pref | .record | .const | .code _ => s

/-- A fetch line enters the die's and a pair's instruction caches (R90); both drop what was used least recently (assumption 5). -/
def fillCode (s : State) (pair job pa : Nat) (data : BitVec 256) : State :=
  let l : ILine := ⟨job, pa, data, s.fresh⟩
  let other (x : ILine) : Bool := !(x.job == job && x.pa == pa)
  ((s.modDie (dieOf pair) (fun y => { y with l2i := (l :: y.l2i.filter other).take 131072 })).modPair pair
    (fun p => { p with l1i := (l :: p.l1i.filter other).take 2048 })).bump

/-- An access has ended (R407, R408): a load or atomic writes its register and completes, or traps; a store leaves the
buffer's flight and is acknowledged. A slice that no longer waits for it is not touched; a fault that strikes in the ac of its freeze is
still a trap of that ac (R182, R416). -/
def completeAccess (s : State) (a : Access) (r : AccRes) : State :=
  match a.use with
  | .store _ sid =>
    let s := s.modUnit a.unit (fun u => u.modCtl (fun c => { c with flight := c.flight.filter (fun e => e.acc.aid != sid) }))
    let err := match r with | .ok _ => none | .err c i => some (c, a.va, i)
    { s with acks := s.acks ++ [⟨a.unit, a.group, err⟩] }
  | .pref => s
  | .load rd signed =>
    match s.findUnit a.unit with
    | none => s
    | some u =>
      if !((u.running || (r.fails && u.frozeNow s.cycle)) && u.awaits a.aid) then s
      else match r with
        | .ok bs => (acquireDone s a).retireC ((u.setC rd (loadValue signed bs)).modCtl (fun c => c.readDone a)) a.len
        | .err c i => s.trapC u c a.va i
  | .amo rd op =>
    let s := amoUncount s a
    match s.findUnit a.unit with
    | none => s
    | some u =>
      -- one that a link has performed for a frozen unit cannot be taken back: it completes (assumption 10)
      let sent := u.occupies.isSome && (match place52 a.pa with | .host _ _ | .peer _ _ => true | _ => false)
      if !((u.running || sent || (r.fails && u.frozeNow s.cycle)) && u.awaits a.aid) then s
      else match r with
        | .ok bs => (acquireDone s a).retireC ((amoWriteback rd op.size (leNat bs) u).modCtl (fun c => c.readDone a)) a.len
        | .err c i => s.trapC u c a.va i
  | .record =>
    match s.findUnit a.unit with
    | none => s
    | some u =>
      if !((u.running || (r.fails && u.frozeNow s.cycle)) && u.awaits a.aid) then s
      else match r with
        | .ok bs => s.putUnit (u.modCtl (fun c => { c.readDone a with wait := .none, rcd := some (a.va, bs) }))
        | .err c i => s.trapC u c a.va i
  | .waitv =>
    match s.findUnit a.unit with
    | none => s
    | some u =>
      if !((u.running || (r.fails && u.frozeNow s.cycle)) && u.awaits a.aid) then s
      else match r with
        | .ok bs => waitvRead (acquireDone s a) (u.modCtl (fun c => c.readDone a)) (leNat bs)
        | .err c i => s.trapC u c a.va i
  | .const =>
    match s.findUnit a.unit with
    | none => s
    | some u =>
      if !((u.running || (r.fails && u.frozeNow s.cycle)) && u.ctx.dat.wait == .const a.aid) then s
      else match r with
        | .ok bs => (fillConst s a.pair a.unit.job (lineOf a.pa) (bs.map (fun b => { v := b }))).modUnit a.unit
            (fun v => v.modDat (fun d => { d with wait := .none }))
        | .err c i => s.takeTrap u { code := c, src := 1, pc := u.ctx.dat.pc, addr := a.va, info := i }
  | .code data =>
    match s.findUnit a.unit with
    | none => s
    | some u =>
      if !(u.running && (if data then u.ctx.dat.wait == .const a.aid else u.awaits a.aid)) then s
      else
        let go (u : UnitSt) : UnitSt := if data then u.modDat (fun d => { d with wait := .none }) else u.modCtl (fun c => { c with wait := .none })
        match r with
        | .ok bs => (fillCode s a.pair a.unit.job a.pa (BitVec.ofNat 256 (leNat bs))).modUnit a.unit go
        | .err c i => s.putUnit (go (u.modCtx (fun x => { x with codeErr := some (data, a.va, c, i) })))

/-- INFO of a translation code (R42): cause, level, access kind. -/
def xinfo (cause lvl kind : Nat) : Nat := cause + 16 * lvl + 256 * kind

def Use.kindCode : Use → Nat
  | .load _ _ | .waitv | .pref | .record => 0
  | .store _ _ => 1
  | .amo _ _ => 2
  | .code _ => 3
  | .const => 4

def Access.line (a : Access) : Nat := lineOf a.pa

/-- The words of a write-back under a mask that the home cannot write (R476). -/
def lostAtHome (s : State) (line : Nat) (mask : BitVec 32) : BitVec 32 :=
  match (homeDie s (line * 128)).bind (fun d => (s.die d).vline line) with
  | some v => lostInCache v.data mask
  | none => lostInMemory s line mask

/-- Perform an access in an L1 line that permits it (R94, R117): loads read, stores and atomics write and set dirty words. A
read of a poisoned word, and a write that would cover a poisoned unit of the home or of the line only in part, end in ECC_DATA
(R118, R407, R408, R476). -/
def performL1 (s : State) (a : Access) (sts : List L1St) : State :=
  match s.l1Find a.pair a.line sts with
  | none => s
  | some l =>
    let off := a.pa % 128
    let bs := lineSeen a.key (a.line * 128) l.data off a.size
    let clean := (l.dirty &&& wordMask off a.size) != wordMask off a.size
    let stale := clean && homePoisoned s a.pa a.size
    let bad := stale || badIn l.data off a.size
    -- the write-back of what a store dirties would cover a marked unit of the home in part
    let lost := stale && (a.size < 4 || lostAtHome s a.line (l.dirty ||| wordMask off a.size) &&& wordMask off a.size != 0)
    let dirtied := if l.st == .mg then L1St.mg else L1St.m
    let writeL (t : State) (new : List Byte) : State :=
      noteWrite (t.l1Mod a.pair a.line sts (fun x => { x with
        st := dirtied, used := s.fresh, data := blockPut (a.line * 128) x.data off (sealList a.key a.pa new)
        dirty := x.dirty ||| wordMask off a.size })) a.pa a.size
    match a.use with
    | .load _ _ | .waitv | .record => completeAccess s.bump a (if bad then .err tcEccData (xinfo 0 0 0) else .ok bs)
    | .pref | .const | .code _ => s
    | .store data _ =>
      if lost || badPart l.data off a.size then completeAccess s a (.err tcEccData (xinfo 0 a.lvl 1))
      else completeAccess (writeL s.bump data) a (.ok [])
    | .amo _ op =>
      if bad then completeAccess s a (.err tcEccData 0)
      else completeAccess (writeL s.bump (leBytes op.size (amoNew op (leNat bs)))) a (.ok bs)

def Use.isAmo : Use → Bool | .amo _ _ => true | _ => false
def Use.isCode : Use → Bool | .code _ => true | _ => false

def Use.writes : Use → Bool
  | .store _ _ | .amo _ _ => true
  | .load _ _ | .waitv | .pref | .record | .const | .code _ => false

/-- An atomic performs only for a slice that still waits for it: an instruction that has not completed at a freeze has no
effect (R181). -/
def Access.live (s : State) (a : Access) : Bool :=
  match a.use with
  | .amo _ _ => (match s.findUnit a.unit with | some u => u.running && u.awaits a.aid | none => false)
  | .load _ _ | .store _ _ | .waitv | .pref | .record | .const | .code _ => true

/-! ### Snoop filter requests (R96, R97) -/

/-- The request for a line that is under way at a die. -/
def Die.issuedReq (x : Die) (line : Nat) : Option SfReq := x.sfq.find? (fun r => r.issued && r.acc.line == line)

def State.dropReq (s : State) (d aid : Nat) : State :=
  s.modDie d (fun x => { x with sfq := x.sfq.filter (fun r => r.acc.aid != aid) })

/-- The die at which an uncached access performs: its home, or the die whose block holds an MMIO register (R21). -/
def atDie (s : State) (pa : Nat) : Nat :=
  match place52 pa with
  | .mmio d _ => d
  | .hbm | .attic _ _ _ | .pantry _ _ | .host _ _ | .peer _ _ | .unmapped => (homeDie s pa).getD 0

/-- Wait at the home as an uncached access, with a place in the queue of its line (R103, R108). -/
def askHome (s : State) (a : Access) : State :=
  s.modDie (atDie s a.pa) (fun x => { x with uncq := x.uncq ++ [a], homeq := x.homeq ++ [.uncached a.aid a.line] })

/-- A store or atomic that waited for a line while a subscription of it began performs at the home instead (R68, R117), and a store is
counted there (R147). -/
def toUncached (s : State) (a : Access) : State :=
  let g := storeGroup s a.pair a.pa 2 true
  askHome (s.modUnit a.unit (fun u => u.modCtl (fun c => (c.addUnacked a.group false).addUnacked g true))) { a with group := g }

/-- A physical range lies on a subscribed line of attic store (R68). -/
def subscribed (s : State) (pa n : Nat) : Bool :=
  match place52 pa with
  | .attic d _ _ => (s.die d).ranges.any (fun r => r.spans.any (fun x => overlap x.1 x.2 (pa / 128 * 128) (n + pa % 128)))
  | _ => false

/-- A request that was under way is so no longer: its line is free for the next one, and an entry that no pair holds is given up with its
grant (R97). -/
def letGo (s : State) (d line : Nat) : State :=
  let s := s.sfMod d line (fun e => { e with busy := false })
  match (s.die d).sfEntry line with
  | some e => if e.holders.isEmpty then recallEntry s d line else s
  | none => s

/-- A request whose pair's L1 has no room for the line now (R1) stands in the filter's queue again. -/
def askAgain (s : State) (d : Nat) (r : SfReq) : State :=
  letGo (s.modDie d (fun x => { x with sfq := mapIf (fun q => q.acc.aid == r.acc.aid) (fun q => { q with issued := false }) x.sfq })) d r.acc.line

/-- Serve a request inside the die (R96): the permission is there; data is a line from the home where no pair of the die
holds one. The access that waited is performed at once (R102). -/
def serveHere (s : State) (d : Nat) (r : SfReq) (data : List TByte) (excl : Bool) : State :=
  let line := r.acc.line
  let pr := r.acc.pair
  let home := (homeDie s (line * 128)).getD d
  let e := ((s.die d).sfEntry line).getD ⟨line, [], none, none, false, 0⟩
  let others := e.holders.filter (fun p => p != pr)
  let own := match ownerLine s d line with | some (p, l) => if p == pr then none else some (p, l) | none => none
  let mine := s.l1Find pr line cStates
  let anyData := match own with
    | some (_, l) => l.data
    | none => match mine with
      | some l => l.data
      | none => match others.findSome? (fun p => s.l1Find p line cStates) with
        | some l => l.data
        | none => data
  let s :=
    if r.write then
      let dirty := match own with | some (_, l) => l.dirty | none => match mine with | some l => l.dirty | none => 0
      let s := others.foldl (fun t p => t.l1Drop p line cStates) s
      let s := (s.l1Drop pr line cStates)
      let s := s.sfMod d line (fun e => { e with holders := [pr], owner := some pr, busy := false, used := s.fresh
                                                 grant := if home == d then none else some .m })
      l1Put s pr ⟨line, .m, [], anyData, dirty, 0, []⟩
    else
      -- the owner goes to S; its dirty words go to the home, or by WbM with keep = 1
      let sg : State × Option L1St := match own with
        | none => (s, e.grant)
        | some (p, l) =>
          let s := s.l1Mod p line [.e, .m] (fun x => { x with st := .s, dirty := 0 })
          if l.dirty == 0 then (s, e.grant)
          else if home == d then (homeMerge s line l.data l.dirty, e.grant)
          else
            let u := s.sendHome d home (.wbm line l.data l.dirty true)
            (u.modDie d (fun x => { x with wbw := x.wbw ++ [⟨line, home, true⟩] }), some .s)
      let s := sg.1
      let g := sg.2
      let newSt : L1St := if excl && others.isEmpty then L1St.e else L1St.s
      let s := s.sfMod d line (fun e => { e with holders := pr :: others, busy := false, used := s.fresh, grant := g
                                                 owner := if newSt == .e || e.owner == some pr then some pr else none })
      if mine.isSome then s else l1Put s pr ⟨line, newSt, [], anyData, 0, 0, []⟩
  let s := s.dropReq d r.acc.aid
  if r.acc.live s then performL1 s r.acc cStates else s

/-- Serve a request inside the die where its pair's L1 has room for the line. -/
def serveIntra (s : State) (d : Nat) (r : SfReq) (data : List TByte) (excl : Bool) : State :=
  if (s.l1Find r.acc.pair r.acc.line cStates).isSome || l1Room s r.acc.pair then serveHere s d r data excl else askAgain s d r

/-- Room for a new entry in the line's set (R97): none when all 16 are busy. -/
def sfRoom (s : State) (d line : Nat) : Option State :=
  let set := (s.die d).sf.filter (fun e => e.line % 4096 == line % 4096)
  if set.length < 16 then some s
  else (leastBy (fun a b => decide (a.used < b.used)) (set.filter (fun e => !e.busy))).map
    (fun e => recallEntry s d e.line)

/-! ### Home transactions (R103, R104, R107) -/

def Die.dirSt (x : Die) (line : Nat) : Option DirSt := (x.dir.find? (fun e => e.line == line)).map DirEntry.st

def setDir (s : State) (h line : Nat) (st : Option DirSt) : State :=
  let rest (x : Die) : List DirEntry := x.dir.filter (fun e => e.line != line)
  match st with
  | none => s.modDie h (fun x => { x with dir := rest x })
  | some v => (s.modDie h (fun x => { x with dir := ⟨line, v, s.fresh⟩ :: rest x })).bump

/-- The home die's own pairs give up or downgrade their copies for a remote request; their dirty words are merged. Says
whether any pair keeps S. -/
def homePairs (s : State) (h line : Nat) (write : Bool) : State × Bool :=
  match (s.die h).sfEntry line with
  | none => (s, false)
  | some e =>
    let own := ownerLine s h line
    let s := match own with | some (_, l) => homeMerge s line l.data l.dirty | none => s
    if write then (invDie s h line, false)
    else
      let s := match own with
        | some (p, _) => s.l1Mod p line [.e, .m] (fun l => { l with st := .s, dirty := 0 })
        | none => s
      (s.sfMod h line (fun e => { e with owner := none }), !e.holders.isEmpty)

/-- The filling class of a line that a die has asked for (R398). -/
def reqClass (s : State) (d line : Nat) : Nat := (((s.die d).issuedReq line).map (fun r => r.acc.cls)).getD 3

/-- The transaction ends (R104): the reply goes out, the directory takes its next state, a waiting request of the home's own
pairs is served. -/
def finishTxn (s : State) (h : Nat) (t : Txn) : State :=
  let line := t.req.line
  let st := (s.die h).dirSt line
  let s := s.modDie h (fun x => { x with txns := x.txns.filter (fun y => y.req.line != line) })
  match t.req with
  | .uncached _ _ | .visit _ _ => s
  | .remote d false _ _ =>
    let cls := reqClass s d line
    match st with
    | none =>
      let (s, kept) := homePairs s h line false
      let (s, data) := homeLine s line cls
      if kept then (setDir s h line (some (.s [d]))).sendDie h d (.datas line data)
      else (setDir s h line (some (.e d))).sendDie h d (.datae line data)
    | some (.s v) =>
      let (s, data) := homeLine s line cls
      (setDir s h line (some (.s (if v.contains d then v else v ++ [d])))).sendDie h d (.datas line data)
    | some (.e x) | some (.m x) =>
      let (s, data) := homeLine s line cls
      (setDir s h line (some (.s (if t.keepX && x != d then [x, d] else [d])))).sendDie h d (.datas line data)
  | .remote d true upg _ =>
    let had := match st with | some (.s v) => v.contains d | _ => false
    let (s, _) := homePairs s h line true
    if upg && had then (setDir s h line (some (.m d))).sendDie h d (.ackm line)
    else
      let (s, data) := homeLine s line (reqClass s d line)
      (setDir s h line (some (.m d))).sendDie h d (.datam line data)
  | .here write _ =>
    let s := match st with
      | some (.e x) | some (.m x) => if write then setDir s h line none else setDir s h line (if t.keepX then some (.s [x]) else none)
      | some (.s v) => if write || v.isEmpty then setDir s h line none else setDir s h line (some (.s v))
      | none => s
    match (s.die h).issuedReq line with
    | none => s
    | some r =>
      -- a subscription that began while it waited takes the access to the home (R68, R117)
      if r.write && subscribed s r.acc.pa r.acc.size then toUncached (letGo (s.dropReq h r.acc.aid) h line) r.acc
      else
      let (s, data) := homeLine s line r.acc.cls
      serveIntra s h r data ((s.die h).dirSt line).isNone

/-- Begin or go on with a transaction: evict a victim first where a new entry needs room (R107), then send what the table
says and finish when nothing is awaited. -/
def runTxn (s : State) (h : Nat) (req : HomeReq) : State :=
  let line := req.line
  let st := (s.die h).dirSt line
  let put (s : State) (waits : List Nat) (keepX : Bool) : State :=
    s.modDie h (fun x => { x with txns := ⟨req, waits, keepX, none⟩ :: x.txns.filter (fun y => y.req.line != line) })
  let needs := st.isNone && (match req with | .remote _ _ _ _ => true | .here _ _ | .uncached _ _ | .visit _ _ => false)
  let set := (s.die h).dir.filter (fun e => e.line % 16384 == line % 16384)
  if needs && 16 ≤ set.length then
    match leastBy (fun a b => decide (a.used < b.used)) (set.filter (fun e => !(s.die h).inTxn e.line)) with
    | none => s.modDie h (fun x => { x with homeq := req :: x.homeq })
    | some v =>
      let ds := match v.st with | .s l => l | .e x | .m x => [x]
      let s := ds.foldl (fun t d => t.sendDie h d (.recall v.line)) s
      s.modDie h (fun x => { x with txns := ⟨req, [], false, some (v.line, ds)⟩ :: x.txns })
  else match req, st with
    | .remote _ false _ _, some (.e x) | .remote _ false _ _, some (.m x) | .here false _, some (.e x) | .here false _, some (.m x) =>
      put (s.sendDie h x (.fwds line)) [x] true
    | .remote _ true _ _, some (.e x) | .remote _ true _ _, some (.m x) | .here true _, some (.e x) | .here true _, some (.m x) =>
      put (s.sendDie h x (.fwdm line)) [x] false
    | .remote d true _ _, some (.s v) =>
      let ws := v.filter (fun x => x != d)
      if ws.isEmpty then finishTxn s h ⟨req, [], false, none⟩
      else put (ws.foldl (fun t x => t.sendDie h x (.inv line)) s) ws false
    | .here true _, some (.s v) => put (v.foldl (fun t x => t.sendDie h x (.inv line)) s) v false
    | _, _ => finishTxn s h ⟨req, [], false, none⟩

/-- Start the oldest waiting request of a line that has no transaction, and the next one where it has ended at once (R103); an uncached
access has a step of its own, and a visitor its own turn. The number bounds the requests started. -/
def pumpLine : Nat → State → Nat → Nat → State
  | 0, s, _, _ => s
  | n + 1, s, h, line =>
    let x := s.die h
    if x.inTxn line then s
    else match findIdxVal (fun (r : HomeReq) => r.line == line) x.homeq 0 with
      | none | some (_, .uncached _ _) | some (_, .visit _ _) => s
      | some (i, r) => pumpLine n (runTxn (s.modDie h (fun x => { x with homeq := dropIdx x.homeq i })) h r) h line

def pumpHome (s : State) (h line : Nat) : State := pumpLine (s.die h).homeq.length s h line

/-- Start what can start, for requests left waiting by others (R103, R107). -/
def pumpAll (s : State) (h : Nat) : State := ((s.die h).homeq.map HomeReq.line).foldl (fun t l => pumpHome t h l) s

/-- A request of a line at its home (R102, R103). -/
def enqueueHome (s : State) (h : Nat) (r : HomeReq) : State :=
  pumpHome (s.modDie h (fun x => { x with homeq := x.homeq ++ [r] })) h r.line

/-- An answer of die src about a line reaches its home (R104, R107): the transaction that waits for it goes on. -/
def answerHome (s : State) (h src line : Nat) (stale : Bool) : State :=
  let x := s.die h
  match x.txns.find? (fun t => t.req.line == line && t.waits.contains src) with
  | some t =>
    let t := { t with waits := t.waits.filter (fun d => d != src), keepX := t.keepX && !stale }
    if t.waits.isEmpty then pumpAll (finishTxn s h t) h
    else s.modDie h (fun x => { x with txns := mapIf (fun y => y.req.line == line) (fun _ => t) x.txns })
  | none =>
    match x.txns.find? (fun t => match t.victim with | some (v, ws) => v == line && ws.contains src | none => false) with
    | none => s
    | some t =>
      let ws := match t.victim with | some (_, ws) => ws.filter (fun d => d != src) | none => []
      if ws.isEmpty then
        let s := setDir s h line none
        let s := s.modDie h (fun x => { x with txns := x.txns.filter (fun y => y.req.line != t.req.line) })
        pumpAll (runTxn s h t.req) h
      else s.modDie h (fun x => { x with txns := mapIf (fun y => y.req.line == t.req.line) (fun y => { y with victim := some (line, ws) }) x.txns })

/-- An uncached access leaves the queues of its home, and the next request of its line starts. -/
def leaveHome (s : State) (d : Nat) (a : Access) : State :=
  pumpHome (s.modDie d (fun x => { x with
    uncq := x.uncq.filter (fun b => b.aid != a.aid)
    homeq := x.homeq.filter (fun r => match r with | .uncached i _ => i != a.aid | _ => true) })) d a.line

/-- SNOOP_FILTER_REQUEST (R96): the die's filter takes request k of its queue, if no older request names the line and the
line is not busy. -/
def execSnoopFilterRequest (d k : Nat) (s : State) : Out3 :=
  let x := s.die d
  match x.sfq[k]? with
  | none => .next s
  | some r =>
    let line := r.acc.line
    let e? := x.sfEntry line
    if r.issued || (x.sfq.take k).any (fun q => q.acc.line == line) || (match e? with | some e => e.busy | none => false) then .next s
    else if !r.acc.live s then .next (amoUncount (s.dropReq d r.acc.aid) r.acc)
    else if r.write && subscribed s r.acc.pa r.acc.size then .next (toUncached (s.dropReq d r.acc.aid) r.acc)
    else if !backed s r.acc.pa then
      .next (completeAccess (s.dropReq d r.acc.aid) r.acc (.err tcPageAttr (xinfo 10 r.acc.lvl r.acc.use.kindCode)))
    else
      let room : Option State := if e?.isSome then some s else (sfRoom s d line).map (fun t =>
          t.modDie d (fun y => { y with sf := ⟨line, [], none, none, false, t.fresh⟩ :: y.sf }))
      match room with
      | none => .next s
      | some s =>
        let home := (homeDie s (line * 128)).getD d
        let e := ((s.die d).sfEntry line).getD ⟨line, [], none, none, false, 0⟩
        let hold (s : State) : State :=
          (s.sfMod d line (fun e => { e with busy := true })).modDie d
            (fun y => { y with sfq := mapIf (fun q => q.acc.aid == r.acc.aid) (fun q => { q with issued := true }) y.sfq })
        if home == d then
          let remote := match (s.die d).dirSt line with
            | none => false
            | some (.s _) => r.write
            | some (.e _) | some (.m _) => true
          if remote then .next (enqueueHome (hold s) d (.here r.write line))
          else if (s.die d).txns.any (fun t => t.req.line == line) || (s.die d).homeq.any (fun q => q.line == line) then
            .next (enqueueHome (hold s) d (.here r.write line))
          else
            let (s, data) := homeLine s line r.acc.cls
            .next (serveIntra s d r data (((s.die d).dirSt line).isNone && e.holders.isEmpty))
        else
          match e.grant with
          | none => .next ((hold s).sendHome d home (if r.write then .rdm line else .rds line))
          | some g =>
            if r.write && g == .s then .next ((hold s).sendHome d home (.upg line))
            else .next (serveIntra s d r [] false)

/-! ### Messages at the home (R102 to R104) -/

/-- Take the oldest message from src to home when it is of the wanted kind. -/
def recvHome (s : State) (src home : Nat) (f : State → ToHome → Option State) : Out3 :=
  match takeMsg src home s.toHome with
  | none => .next s
  | some (m, rest) =>
    match f { s with toHome := rest } m with
    | some t => .next t
    | none => .next s

/-- RDS: a read request arrives at its home. -/
def execRds (src home : Nat) (s : State) : Out3 :=
  recvHome s src home (fun t m => match m with
    | .rds l => some (enqueueHome t home (.remote src false false l))
    | _ => none)

/-- RDM: a request to write, with data. -/
def execRdm (src home : Nat) (s : State) : Out3 :=
  recvHome s src home (fun t m => match m with
    | .rdm l => some (enqueueHome t home (.remote src true false l))
    | _ => none)

/-- UPG: a request of a die that holds S. -/
def execUpg (src home : Nat) (s : State) : Out3 :=
  recvHome s src home (fun t m => match m with
    | .upg l => some (enqueueHome t home (.remote src true true l))
    | _ => none)

/-- The sender of a write-back leaves the directory state, or stays with S (R104); in the middle of a transaction the line keeps its
entry, with no holder (R103, R106). -/
def writeBackDir (s : State) (home src line : Nat) (keep : Bool) : State :=
  match (s.die home).dirSt line with
  | some (.e x) | some (.m x) =>
    if x != src then s
    else setDir s home line (if keep then some (.s [x]) else if (s.die home).inTxn line then some (.s []) else none)
  | some (.s _) | none => s

/-- WBM (R103, R104, R109): the words are merged at once, the sender leaves the state, WbAck goes back. -/
def execWbm (src home : Nat) (s : State) : Out3 :=
  recvHome s src home (fun t m => match m with
    | .wbm l data mask keep => some ((writeBackDir (homeMerge t l data mask) home src l keep).sendDie home src (.wback l))
    | _ => none)

/-- EVICTE (R104): a clean E grant is dropped. -/
def execEvicte (src home : Nat) (s : State) : Out3 :=
  recvHome s src home (fun t m => match m with
    | .evicte l => some ((writeBackDir t home src l false).sendDie home src (.wback l))
    | _ => none)

/-- INVACK (R104). -/
def execInvack (src home : Nat) (s : State) : Out3 :=
  recvHome s src home (fun t m => match m with
    | .invack l => some (answerHome t home src l false)
    | _ => none)

/-- FWDACK (R104): returned words are merged under their mask. -/
def execFwdack (src home : Nat) (s : State) : Out3 :=
  recvHome s src home (fun t m => match m with
    | .fwdack l data mask => some (answerHome (homeMerge t l data mask) home src l false)
    | _ => none)

/-- STALE (R101, R106). -/
def execStale (src home : Nat) (s : State) : Out3 :=
  recvHome s src home (fun t m => match m with
    | .stale l => some (answerHome t home src l true)
    | _ => none)

/-! ### Messages at a die (R101, R102) -/

def recvDie (s : State) (home dst : Nat) (f : State → ToDie → Option State) : Out3 :=
  match takeMsg home dst s.toDie with
  | none => .next s
  | some (m, rest) =>
    match f { s with toDie := rest } m with
    | some t => .next t
    | none => .next s

/-- A grant arrives: the die records it and the access that waited performs at once (R102). -/
def grantDie (s : State) (d line : Nat) (g : L1St) (data : List TByte) : State :=
  let s := s.sfMod d line (fun e => { e with grant := some g })
  match (s.die d).issuedReq line with
  | none => s.sfMod d line (fun e => { e with busy := false })
  | some r => serveIntra s d r data (g == .e)

/-- DATAS. -/
def execDatas (home dst : Nat) (s : State) : Out3 :=
  recvDie s home dst (fun t m => match m with | .datas l data => some (grantDie t dst l .s data) | _ => none)

/-- DATAE. -/
def execDatae (home dst : Nat) (s : State) : Out3 :=
  recvDie s home dst (fun t m => match m with | .datae l data => some (grantDie t dst l .e data) | _ => none)

/-- DATAM. -/
def execDatam (home dst : Nat) (s : State) : Out3 :=
  recvDie s home dst (fun t m => match m with | .datam l data => some (grantDie t dst l .m data) | _ => none)

/-- ACKM. -/
def execAckm (home dst : Nat) (s : State) : Out3 :=
  recvDie s home dst (fun t m => match m with | .ackm l => some (grantDie t dst l .m []) | _ => none)

/-- WBACK: the write-back is no longer awaited (R101). -/
def execWback (home dst : Nat) (s : State) : Out3 :=
  recvDie s home dst (fun t m => match m with
    | .wback l =>
      match findIdxVal (fun (w : WbWait) => w.line == l) (t.die dst).wbw 0 with
      | some (i, _) => some (t.modDie dst (fun x => { x with wbw := dropIdx x.wbw i }))
      | none => some t
    | _ => none)

/-- INV (R101): every pair's copy is invalidated; InvAck even where nothing is held. -/
def execInv (home dst : Nat) (s : State) : Out3 :=
  recvDie s home dst (fun t m => match m with
    | .inv l => some ((invDie t dst l).sendHome dst home (.invack l))
    | _ => none)

/-- The die's answer to FwdS, FwdM and Recall where a write-back of its own awaits WbAck (R101): true is Stale. -/
def awaitsWb (s : State) (d line : Nat) : Option Bool :=
  let held := match (s.die d).sfEntry line with | some e => e.grant.isSome | none => false
  match (s.die d).wbw.find? (fun w => w.line == line) with
  | none => none
  | some w => if w.keep then some false else if held then none else some true

/-- FWDS (R101): pairs go to S, the owner's dirty words go back, the grant becomes S. -/
def execFwds (home dst : Nat) (s : State) : Out3 :=
  recvDie s home dst (fun t m => match m with
    | .fwds l =>
      match awaitsWb t dst l with
      | some true => some (t.sendHome dst home (.stale l))
      | some false => some (t.sendHome dst home (.fwdack l [] 0))
      | none =>
        match ownerLine t dst l with
        | none => some ((t.sfMod dst l (fun e => { e with grant := some .s })).sendHome dst home (.fwdack l [] 0))
        | some (p, ln) =>
          let t := t.l1Mod p l [.e, .m] (fun x => { x with st := .s, dirty := 0 })
          let t := t.sfMod dst l (fun e => { e with owner := none, grant := some .s })
          some (t.sendHome dst home (.fwdack l ln.data ln.dirty))
    | _ => none)

/-- FwdM and Recall (R101): copies invalid, dirty words back, the grant dropped. -/
def giveUp (t : State) (home dst l : Nat) : State :=
  match awaitsWb t dst l with
  | some true => t.sendHome dst home (.stale l)
  | some false => (invDie t dst l).sendHome dst home (.fwdack l [] 0)
  | none =>
    let own := ownerLine t dst l
    let t := invDie t dst l
    match own with
    | none => t.sendHome dst home (.fwdack l [] 0)
    | some (_, ln) => t.sendHome dst home (.fwdack l ln.data ln.dirty)

/-- FWDM. -/
def execFwdm (home dst : Nat) (s : State) : Out3 :=
  recvDie s home dst (fun t m => match m with | .fwdm l => some (giveUp t home dst l) | _ => none)

/-- RECALL. -/
def execRecall (home dst : Nat) (s : State) : Out3 :=
  recvDie s home dst (fun t m => match m with | .recall l => some (giveUp t home dst l) | _ => none)

end Sys2Proof.Machine
end

