-- ==== Sys2Proof/Machine/Translate.lean ====
section
/-!
DEFINITION. Translation (01): TLBs, the walk cache and the page walk, the checks at use, and the step PAGE_WALK.
-/

namespace Sys2Proof.Machine

/-! ### Page-table entries (R25, R26) -/

abbrev Pte := BitVec 64

def Pte.frame (e : Pte) : Nat := (e.extractLsb' 12 40).toNat
def Pte.cm (e : Pte) : Nat := (e.extractLsb' 54 2).toNat
def Pte.ham (e : Pte) : Nat := (e.extractLsb' 57 2).toNat
def Pte.isLeaf (e : Pte) : Bool := e.extractLsb' 1 3 != 0#3

/-- A frame number lies in the HBM class. -/
def frameHbm (f : Nat) : Bool := f < 0x8000000

/-- A present entry is malformed (R26). -/
def Pte.malformed (e : Pte) (lvl : Nat) : Bool :=
  let leaf := Pte.isLeaf e
  e.extractLsb' 60 4 != 0#4 || e.getLsbD 52 || Pte.cm e == 3 || Pte.ham e == 3 ||
  (!leaf && (e.extractLsb' 53 7 != 0#7 || !frameHbm (Pte.frame e))) ||
  (leaf && 3 ≤ lvl) || (!leaf && lvl == 0) || (e.getLsbD 2 && !e.getLsbD 1) ||
  (leaf && (lvl == 1 || lvl == 2) && e.getLsbD 53) ||
  (leaf && lvl == 2 && Pte.frame e % 2 ^ 18 != 0) || (leaf && lvl == 1 && Pte.frame e % 2 ^ 9 != 0)

/-- The physical address that a leaf of a level gives (R29). -/
def Pte.phys (e : Pte) (lvl va : Nat) : Nat := Pte.frame e * 4096 + va % 2 ^ (12 + 9 * lvl)

/-- The code of an access kind in INFO (R42). -/
def Kind.code : Kind → Nat
  | .load => 0 | .store => 1 | .atomic => 2 | .fetch => 3 | .const => 4 | .engRead => 5 | .engWrite => 6 | .engAtomic => 7

def Pte.rcx (e : Pte) : Bool := e.getLsbD 59

/-- In the MMIO class only a naturally aligned 8-byte load or store answers (R15). -/
def mmioOk (q : AccKind) (pa : Nat) : Bool :=
  match place52 pa with
  | .mmio _ _ => (q.kind == .load || q.kind == .store) && q.size == 8 && pa % 8 == 0
  | .hbm | .attic _ _ _ | .pantry _ _ | .host _ _ | .peer _ _ | .unmapped => true

/-- The checks of R30 on a leaf, in order: the first failing one gives the trap code and the cause (R32, R299). -/
def check30 (s : State) (q : AccKind) (e : Pte) (pa : Nat) : Option (Nat × Nat) :=
  let kind := q.kind
  let r := e.getLsbD 1
  let w := e.getLsbD 2
  let x := e.getLsbD 3
  let permit := match kind with
    | .load | .engRead | .const => r
    | .store | .engWrite => w
    | .atomic | .engAtomic => r && w
    | .fetch => x
  let pl := place52 pa
  let outside := match pl with | .host _ _ | .peer _ _ => true | _ => false
  let host := match pl with | .host _ _ => true | _ => false
  let attic := match pl with | .attic _ _ _ => true | _ => false
  if !permit then some (tcPagePerm, 4)
  else if kind == .const && !e.getLsbD 56 then some (tcPagePerm, 5)
  else if Pte.rcx e && !q.fwj then some (tcPageAttr, 8)
  else if (match pl with | .pantry _ _ | .mmio _ _ => true | _ => false) && !q.fwj then some (tcPageAttr, 9)
  else if (q.subs && (Pte.cm e != 0 || !attic)) || ((kind == .fetch || kind == .const) && Pte.cm e == 2) || (Pte.cm e == 1 && outside) || (kind == .engAtomic && outside) then
    some (tcPageAttr, 6)
  else if kind == .atomic && host &&
      (Pte.ham e == 2 || (Pte.ham e == 0 && !([0, 1, 9, 10, 12].contains (q.aop.getD 0)))) then some (tcPageAttr, 7)
  else if !(backed s pa && mmioOk q pa) then some (tcPageAttr, 10)
  else if !linkOk s pa then some (tcLinkDown, 11)
  else none

/-! ### TLBs and the walk cache (R34) -/

def TlbEntry.hits (t : TlbEntry) (job page : Nat) : Bool := t.job == job && t.page ≤ page && page < t.page + t.pages

def tlbFind (l : List TlbEntry) (job page : Nat) : Option TlbEntry := l.find? (fun t => t.hits job page)

/-- Insert an entry; beyond the capacity the least recently used entry of its group leaves. -/
def tlbPut (cap : Nat) (group : TlbEntry → Bool) (t : TlbEntry) (l : List TlbEntry) : List TlbEntry :=
  let l := l.filter (fun x => !(x.job == t.job && x.page == t.page && x.pages == t.pages))
  let mine := l.filter group
  if mine.length < cap then t :: l
  else match leastBy (fun a b => decide (a.used < b.used)) mine with
    | none => t :: l
    | some v => t :: l.filter (fun x => x != v)

/-- Fill a pair's L1 TLB: 48 entries for 4 KiB pages, 16 for larger ones (R34). -/
def fillL1Tlb (s : State) (pair : Nat) (t : TlbEntry) : State :=
  let t := { t with used := s.fresh }
  let small := t.pages == 1
  (s.modPair pair (fun p => { p with tlb := tlbPut (if small then 48 else 16) (fun x => (x.pages == 1) == small) t p.tlb })).bump

/-- The set of the L2 TLB that holds an entry (assumption 83). -/
def TlbEntry.set (t : TlbEntry) : Nat := t.page / t.pages % 4096

/-- Fill a die's L2 TLB: 4,096 sets of 8 ways (R34). -/
def fillL2Tlb (s : State) (d : Nat) (t : TlbEntry) : State :=
  let t := { t with used := s.fresh }
  (s.modDie d (fun x => { x with l2tlb := tlbPut 8 (fun y => y.set == t.set) t x.l2tlb })).bump

/-- An entry is used (assumption 5). -/
def touchTlb (now : Nat) (t : TlbEntry) (l : List TlbEntry) : List TlbEntry := mapIf (fun x => x == t) (fun x => { x with used := now }) l

/-- Discard the entries that hold a page (R36). -/
def dropTlb (s : State) (pair job page : Nat) : State :=
  let keep (t : TlbEntry) : Bool := !t.hits job page
  (s.modPair pair (fun p => { p with tlb := p.tlb.filter keep })).modDie (dieOf pair) (fun x => { x with l2tlb := x.l2tlb.filter keep })

/-- A translation from the L1 TLB, or from the L2 TLB into it (R35). -/
def lookupTlb (s : State) (pair job page : Nat) : Option (State × TlbEntry) :=
  match tlbFind (s.pairOf pair).tlb job page with
  | some t => some ((s.modPair pair (fun p => { p with tlb := touchTlb s.fresh t p.tlb })).bump, t)
  | none => (tlbFind (s.die (dieOf pair)).l2tlb job page).map (fun t =>
      (fillL1Tlb (s.modDie (dieOf pair) (fun x => { x with l2tlb := touchTlb s.fresh t x.l2tlb })) pair t, t))

/-! ### The walk (R27 to R29) -/

/-- How a walk ends: a leaf, a fault with code, cause and level, or a line of a table that is busy. -/
inductive WalkRes where
  | leaf (s : State) (e : Pte) (lvl : Nat)
  | fault (code cause lvl : Nat)
  | busy
  deriving Repr

/-- The walk from a level down (R29), reading the tables as plaintext (assumption 11): pointer entries come from the die's walk cache where
it holds them. Its reads fill the vault cache for the class of the access that caused it (R398). -/
def walkFrom (cls d job va : Nat) : List Nat → State → Nat → WalkRes
  | [], _, _ => .fault tcPageAttr 3 0
  | lvl :: r, s, frame =>
    let pfx := va / 2 ^ (12 + 9 * lvl)
    let cached := if lvl == 0 then none else (s.die d).walks.find? (fun w => w.job == job && w.lvl == lvl && w.pfx == pfx)
    let got : Option (State × Pte) := match cached with
      | some w => some (s.modDie d (fun x => { x with walks := toFront (fun y => y == w) x.walks }), w.pte)
      | none =>
        let a := frame * 4096 + pfx % 512 * 8
        (cohRead s (some cls) a 8).map (fun p => (p.1, BitVec.ofNat 64 (leNat (homeSeen p.1 0 a 8))))
    match got with
    | none => .busy
    | some (s, e) =>
      if !e.getLsbD 0 then .fault tcPageAbsent 2 lvl
      else if Pte.malformed e lvl then .fault tcPageAttr 3 lvl
      else if Pte.isLeaf e then .leaf s e lvl
      else
        let s := if cached.isSome then s
          else (s.modDie d (fun x => { x with walks := (⟨job, lvl, pfx, e, s.fresh⟩ :: x.walks).take 512 })).bump
        walkFrom cls d job va r s (Pte.frame e)

/-- The TLB entry for a leaf (R28): a 64 KiB entry where the whole aligned group of level-0 leaves agrees. -/
def leafEntry (s : State) (d job va : Nat) (e : Pte) (lvl : Nat) : TlbEntry :=
  let page := va / 4096
  let plain : TlbEntry := ⟨job, page / 512 ^ lvl * 512 ^ lvl, 512 ^ lvl, e, lvl, 0⟩
  if lvl == 0 && e.getLsbD 53 then
    match (s.die d).walks.find? (fun w => w.job == job && w.lvl == 1 && w.pfx == va / 2 ^ 21) with
    | none => plain
    | some w =>
      let base := Pte.frame w.pte * 4096 + page / 16 % 32 * 128
      let es := (range 0 16).map (fun i => BitVec.ofNat 64 (leNat (homeSeen s 0 (base + 8 * i) 8)))
      let e0 := es.headD 0
      let same (i : Nat) (x : Pte) : Bool := x.getLsbD 0 && Pte.isLeaf x && !Pte.malformed x 0 && x.getLsbD 53 &&
        x.extractLsb' 52 12 == e0.extractLsb' 52 12 && x.extractLsb' 0 4 == e0.extractLsb' 0 4 && Pte.frame x == Pte.frame e0 + i
      if Pte.frame e0 % 16 == 0 && (range 0 16).all (fun i => same i (es.getD i 0)) then ⟨job, page / 16 * 16, 16, e0, 0, 0⟩ else plain
  else plain

/-- The physical address through a TLB entry. -/
def TlbEntry.phys (t : TlbEntry) (va : Nat) : Nat := Pte.frame t.pte * 4096 + (va - t.page * 4096)

/-! ### Translating an access -/

/-- How a translation ends: the physical address with its leaf; a wait for a walk, by its number; no room for the miss, or a busy line, so
that the access is tried again; a trap code and INFO. -/
inductive XRes where
  | ok (s : State) (pa : Nat) (e : Pte) (lvl : Nat)
  | wait (s : State) (num : Nat)
  | retry (s : State)
  | trap (s : State) (code info : Nat)
  deriving Repr

def localWindow : Nat := 0x1FFFFFFFFF00000

/-- The misses that a pair has outstanding: of its slices and of its engines (R35). -/
def pairMisses (l : List Miss) (pair : Nat) : Nat :=
  ((l.flatMap Miss.waiters).filter (fun x => x.pair == pair)).length + (l.filter (fun m => m.engines.contains pair)).length

/-- A miss of a slice joins the die's queue, or a queued miss for the same page and access; none where the pair has 8 misses outstanding
or the queue holds 1,024 (R35). R35 does not say which access kinds are compatible: only equal ones join, in kind, size, operation, the job's
FWJ and whether it is a SUBS (DESIGN CHOICE, assumption 113). -/
def queueMiss (s : State) (job page : Nat) (q : AccKind) (w : Waiter) : Option State :=
  let l := (s.die (dieOf w.pair)).missq
  let same (m : Miss) : Bool := m.job == job && m.page == page && m.q == q
  let join (m : Miss) : Miss := { m with waiters := m.waiters ++ [w] }
  if 8 ≤ pairMisses l w.pair then none
  else if l.any same then some (s.modDie (dieOf w.pair) (fun x => { x with missq := mapIf same join x.missq }))
  else if 1024 ≤ l.length then none
  else some (s.modDie (dieOf w.pair) (fun x => { x with missq := x.missq ++ [⟨job, page, q, [w], []⟩] }))

/-- Translate and check an access of a slice (R29 to R36); a miss, or a fault found on a hit, waits for a walk. -/
def xlate (s : State) (u : UnitSt) (data : Bool) (q : AccKind) (va : Nat) : XRes :=
  let page := va / 4096
  let q := { q with fwj := s.fwj u.key.job }
  let wait (s : State) : XRes :=
    match queueMiss s u.key.job page q ⟨u.key, u.pair, data, va, s.fresh⟩ with
    | some t => .wait t.bump s.fresh
    | none => .retry s
  match lookupTlb s u.pair u.key.job page with
  | none => wait s
  | some (s, t) =>
    let pa := t.phys va
    match check30 s q t.pte pa with
    | none => .ok s pa t.pte t.lvl
    | some (code, cause) =>
      if 10 ≤ cause then .trap s code (xinfo cause t.lvl q.kind.code)
      else wait (dropTlb s u.pair u.key.job page)

/-- A miss of an engine of a pair, or of an agent of the die, takes its place in the die's queue (R35): it walks now where no miss of a slice
stands before it and a walker of the 48 is free; else it joins a queued miss for the same page and access, or stands in the queue itself, if
that has room and the pair has less than 8 misses outstanding. -/
def walkGate (s : State) (d : Nat) (pair : Option Nat) (job page : Nat) (q : AccKind) : State × Bool :=
  let l := (s.die d).missq
  let mine (m : Miss) : Bool := m.job == job && m.page == page && m.q == q
  let counted : List Nat := match pair with | some p => [p] | none => []
  let full : Bool := counted.any (fun p => 8 ≤ pairMisses l p)
  let before := l.takeWhile (fun m => !mine m)
  let free : Bool := before.all (fun m => m.waiters.isEmpty) && before.length < 48
  let put (f : List Miss → List Miss) : State := s.modDie d (fun x => { x with missq := f x.missq })
  match l.find? mine with
  | some m =>
    if m.waiters.isEmpty && free then (put (fun l => l.filter (fun x => !mine x)), true)
    else if full || counted.all (fun p => m.engines.contains p) then (s, false)
    else (put (mapIf mine (fun x => { x with engines := x.engines ++ counted })), false)
  | none =>
    if full then (s, false)
    else if free then (s, true)
    else if 1024 ≤ l.length then (s, false)
    else (put (fun l => l ++ [⟨job, page, q, [], counted⟩]), false)

/-- A walk made now, the entry that it installs in the die's L2 TLB, and the checks. -/
def walkNow (s : State) (cls d job root : Nat) (q : AccKind) (va : Nat) : XRes :=
  match walkFrom cls d job va [4, 3, 2, 1, 0] s root with
  | .busy => .retry s
  | .fault code cause lvl => .trap s code (xinfo cause lvl q.kind.code)
  | .leaf s e lvl =>
    let t := leafEntry s d job va e lvl
    let s := fillL2Tlb s d t
    match check30 s q e (t.phys va) with
    | none => .ok s (t.phys va) e lvl
    | some (code, cause) => .trap s code (xinfo cause lvl q.kind.code)

/-- Translate and check an access of an engine, or of a slice's look-ahead, on a pair (R33, R35, R36): where no TLB holds the page it walks
in its turn, and a fault found on a hit walks again. gated says whether it takes its turn in the queue. -/
def xlateNow (s : State) (gated : Bool) (cls pair job root : Nat) (q : AccKind) (va : Nat) : XRes :=
  if 2 ^ 57 ≤ va then .trap s tcPageAbsent (xinfo 1 7 q.kind.code)
  else
    let page := va / 4096
    let q := { q with fwj := s.fwj job }
    let walk (s : State) : XRes :=
      match if gated then walkGate s (dieOf pair) (some pair) job page q else (s, true) with
      | (t, true) => walkNow t cls (dieOf pair) job root q va
      | (t, false) => .retry t
    match lookupTlb s pair job page with
    | none => walk s
    | some (s, t) =>
      match check30 s q t.pte (t.phys va) with
      | none => .ok s (t.phys va) t.pte t.lvl
      | some (code, cause) => if 10 ≤ cause then .trap s code (xinfo cause t.lvl q.kind.code) else walk (dropTlb s pair job page)

/-- A walk's result reaches one waiter (R35, R44, R45): the slice goes on, or traps at its instruction; a WAITV reads again. A resident
that no longer waits for this walk is left alone; a fault in the ac of its freeze is still a trap of that ac (R182, R416). -/
def resumeWaiter (s : State) (kind : Kind) (res : Option (Nat × Nat × Nat)) (w : Waiter) : State :=
  match s.findUnit w.unit with
  | none => s
  | some u =>
    let parked := match u.ctx.ctl.wait with | .waitv _ _ _ _ _ _ _ _ _ _ r => r == some w.num | _ => false
    let waits := (u.running || (res.isSome && u.frozeNow s.cycle)) && (if w.data then u.ctx.dat.wait == .walk w.num else u.ctx.ctl.wait == .walk w.num || parked)
    if !waits then s
    else match res with
      | none => s.putUnit (if w.data then u.modDat (fun x => { x with wait := .none }) else u.modCtl (fun c => { c with wait :=
          match c.wait with
          | .waitv va pa size acq scope cmp rd last limit _ _ => .waitv va pa size acq scope cmp rd last limit true none
          | _ => .none }))
      | some (code, cause, lvl) =>
        let info := xinfo cause lvl kind.code
        if w.data then s.takeTrap u { code := code, src := 1, pc := u.ctx.dat.pc, addr := w.va, info := info }
        else s.takeTrap u { code := code, src := 0, pc := u.ctx.ctl.pc, addr := w.va, info := info }

/-- The filling class of a miss: that of the unit that waits first (R398). -/
def Miss.cls (s : State) (m : Miss) : Nat :=
  match m.waiters.head?.bind (fun w => s.findUnit w.unit) with
  | some u => u.launch.cls
  | none => 3

/-- PAGE_WALK (R35): the oldest miss of the die's queue is walked; the entry is installed for the pairs that wait, or the
waiters trap. A walk whose table lines are busy is tried again. -/
def execPageWalk (d : Nat) (s : State) : Out3 :=
  match (s.die d).missq with
  | [] => .next s
  | m :: rest =>
    let take (t : State) : State := t.modDie d (fun x => { x with missq := rest })
    let va := m.page * 4096
    match s.job m.job with
    | none => .next (take s)
    | some j =>
      match walkFrom (m.cls s) d m.job va [4, 3, 2, 1, 0] s j.root with
      | .busy => .next s
      | .fault code cause lvl => .next (m.waiters.foldl (fun t w => resumeWaiter t m.q.kind (some (code, cause, lvl)) w) (take s))
      | .leaf s e lvl =>
        let s := take s
        let t := leafEntry s d m.job va e lvl
        let s := fillL2Tlb s d t
        let s := m.waiters.foldl (fun x w => match x.findUnit w.unit with
          | some u => if u.running && dieOf u.pair == d then fillL1Tlb x u.pair t else x
          | none => x) s
        let res := match check30 s m.q e (t.phys va) with
          | some (code, cause) => if 10 ≤ cause then none else some (code, cause, lvl)
          | none => none
        .next (m.waiters.foldl (fun t w => resumeWaiter t m.q.kind res w) s)

end Sys2Proof.Machine
end

