-- ==== Sys2Proof/Machine/LoadStore.lean ====
section
/-!
DEFINITION. Memory accesses of the control slice (R288 to R303, R407, R408): the checks, the way of each access by page mode
and class, the store buffer, requests on the links, and the meanings of loads, stores, atomics, FENCE, WAITV and PREF with
the steps that complete them.
-/

namespace Sys2Proof.Machine

/-! ### Checks (R12, R154, R289) -/

def UnitSt.regionBytes (u : UnitSt) : Nat := u.launch.pantry * 65536

/-- The physical address of a byte of the unit's pantry region. -/
def UnitSt.pantryPa (u : UnitSt) (off : Nat) : Nat := pantryBase u.pair + u.base + off

/-- Every byte of a range is granted by some interval or lies in the unit's stack (R154). -/
def regionOk (u : UnitSt) (va n : Nat) (rd wr : Bool) : Bool :=
  let st := u.launch.stack + u.key.lin * u.launch.stksz
  (range va n).all (fun a =>
    (st ≤ a && a < st + u.launch.stksz) ||
    u.checks.any (fun i => i.lo ≤ (a : Int) && (a : Int) < i.hi && (!rd || i.r) && (!wr || i.w)))

/-- The same for long ranges: an interval holds it whole, or the bytes are tried one by one. -/
def regionOkLong (u : UnitSt) (va n : Nat) (rd wr : Bool) : Bool :=
  u.checks.any (fun i => i.lo ≤ (va : Int) && ((va + n : Nat) : Int) ≤ i.hi && (!rd || i.r) && (!wr || i.w)) || regionOk u va n rd wr

/-- A store or an atomic to a mirror's range is checked by the global bytes it reaches; pages that had RCX in a firmware-owned job at the SUBS
need no grant (R25, R70, R154; assumption 111). -/
def mirrorOk (u : UnitSt) (b : Subscription) (g n : Nat) (rd : Bool) : Bool :=
  regionOk u g n rd true || (range g n).all (fun a => b.pages.any (fun p => p.1 == a / 4096 && p.2.2) || regionOk u a 1 rd true)

/-- The active mirror of the unit whose pantry range holds an offset (R70). -/
def mirrorAt (s : State) (k : UKey) (off n : Nat) : Option Subscription :=
  s.subs.find? (fun b => b.unit == k && b.active && overlap b.off b.size off n)

/-! ### Links (R114, R420, R421, R427) -/

/-- The lowest free tag of a port, of 768, or of a peer (R418). -/
def freeTag (s : State) (peer : Option Nat) (port : Bool) : Option Nat :=
  (range 0 768).find? (fun t => !s.outstanding.any (fun o => o.peer == peer && (peer.isSome || o.port == port) && o.tag == t))

/-- A request that awaits an answer goes out. -/
def sendPending (s : State) (peer : Option Nat) (port : Bool) (what : Pending) (msg : Nat → Out) : Option State :=
  (freeTag s peer port).map (fun t =>
    let o : Outstanding := ⟨peer, port, t, what, s.cycle⟩
    State.emit { s with outstanding := s.outstanding ++ [o] } (msg t))

/-- A read over the link that an address names. -/
def linkRead (s : State) (pa n : Nat) (what : Pending) : Option State :=
  match place52 pa with
  | .host p a => sendPending s none p what (fun t => .memRead p t a n)
  | .peer q off => sendPending s (some q) false what (fun t => .peerReq q t off (.load n))
  | _ => none

/-- A write over the link; w is told when it has performed. PCIe writes are posted and followed by the zero-length read of
R420; peers acknowledge (R427). -/
def linkWrite (s : State) (pa : Nat) (bs : List Byte) (w : StoreFor) : Option State :=
  match place52 pa with
  | .host p a =>
    let x := s.port p
    let n := s.fresh
    let x := { x with unacked := x.unacked ++ [(n, w)] }
    sendPending (((s.setPort p x).bump).emit (.memWrite p a bs)) none p (.probe n) (fun t => .memRead p t a 0)
  | .peer q off =>
    sendPending s (some q) false (.store w) (fun t => .peerReq q t off (.store bs))
  | _ => none

/-- Before a write goes to a link it takes the line out of the issuing pair's L1 and of the vault slot (R114); a fill under way, whose data
are older, then stays out of them too. -/
def dropPc (s : State) (pair pa : Nat) : State :=
  let s := s.l1Drop pair (lineOf pa) [.pc]
  let d := (homeDie s pa).getD (dieOf pair)
  let s := { s with outstanding := s.outstanding.map (fun (o : Outstanding) =>
    match o.what with
    | .fill a st slot l1 =>
      if a.line == lineOf pa then { o with what := .fill a st (slot && (homeDie s a.pa).getD (dieOf a.pair) != d) (l1 && a.pair != pair) } else o
    | _ => o) }
  s.modDie d (fun x => { x with vlines := x.vlines.filter (fun v => v.line != lineOf pa) })

/-- Step 2 of R421: the lock's holder reads its operand. -/
def emulRead (s : State) (a : Access) : Option State :=
  match place52 a.pa with
  | .host p addr => sendPending s none p (.emulRead a) (fun t => .memRead p t addr a.size)
  | _ => none

/-- What an AtomicOp carries (R299): a subtraction goes as FetchAdd of the two's complement. -/
def nativeOp (op : AtomicOp) : AtomicOp :=
  if op.op == 1 then { op with op := 0, b := (2 ^ (8 * op.size) - op.b % 2 ^ (8 * op.size)) % 2 ^ (8 * op.size) } else op

/-- An atomic on a host or peer page (R299, R420, R421, R427). -/
def linkAmo (s : State) (a : Access) (op : AtomicOp) : Option State :=
  match place52 a.pa with
  | .host p addr =>
    if a.ham == 1 then
      if (s.port p).lock.isSome || !(s.port p).lockq.isEmpty then some (s.setPort p { s.port p with lockq := (s.port p).lockq ++ [a] })
      else emulRead (s.setPort p { s.port p with lock := some a }) a
    else sendPending s none p (.access a) (fun t => .atomicReq p t addr (nativeOp op))
  | .peer q off => sendPending s (some q) false (.access a) (fun t => .peerReq q t off (.amo op.op op.size op.b op.cmp))
  | _ => none

/-! ### The way of a load or an atomic (R93, R110, R113, R117) -/

/-- How an access goes on: it is under way or done, or it cannot start now and the instruction is tried again. -/
inductive Way where
  | gone (s : State)
  | retry (s : State)
  deriving Repr

/-- Ask the die's snoop filter (R96). -/
def askFilter (s : State) (a : Access) : State :=
  s.modDie (dieOf a.pair) (fun x => { x with sfq := x.sfq ++ [⟨a, a.use.writes, false⟩] })

/-- Bring a line into the L1 in MG (R110). A copy that the pair holds for other jobs alone may be older than an acquire of this one
(R137): its dirty words go to the home, and the line is fetched again for all of them. None while the L1 has no room. -/
def fillMerge (s : State) (a : Access) : Option State :=
  let fill (s : State) (jobs : List Nat) : State :=
    let (s, data) := homeLine s a.line a.cls
    l1Put s a.pair ⟨a.line, .mg, jobs, data, 0, 0, []⟩
  match s.l1Find a.pair a.line [.mg] with
  | some l =>
    if l.jobs.contains a.unit.job then some s
    else some (fill ((homeMerge s a.line l.data l.dirty).l1Drop a.pair a.line [.mg]) (a.unit.job :: l.jobs))
  | none => if l1Room s a.pair then some (fill s [a.unit.job]) else none

/-- The die whose vault cache may hold a line, as a pair sees it (R80): the home, or for a peer line the pair's own die. -/
def slotDie (s : State) (pair pa : Nat) : Nat := (homeDie s pa).getD (dieOf pair)

/-- A read of a host or peer C page (R113, R116): the L1, then the vault slot, where the stamps reach the floor, then the link, which fills
the vault slot and, with l1, the L1. -/
def pcLoad (s : State) (u : UnitSt) (a : Access) (l1 : Bool) : Way :=
  let d := slotDie s a.pair a.pa
  let fresh (stamp : List Nat) : Bool :=
    stampOk stamp (dieOf a.pair) (if isPeerLine a.line then u.ctx.ctl.peerFloor else u.ctx.ctl.hostFloor)
  let fetch (s : State) : Way :=
    match linkRead s (a.line * 128) 128 (.fill a s.epochs true l1) with
    | some t => .gone t
    | none => .retry s
  let slot (s : State) : Way :=
    match (s.die d).vline a.line with
    | some v =>
      if !fresh v.stamp then fetch s
      else if !l1 then .gone s
      else if !l1Room s a.pair then .retry s
      else .gone (performL1 (l1Put (touchVline s d a.line) a.pair ⟨a.line, .pc, [], v.data, 0, 0, v.stamp⟩) a [.pc])
    | none => fetch s
  match s.l1Find a.pair a.line [.pc] with
  | some l => if fresh l.stamp then .gone (performL1 s a [.pc]) else slot (s.l1Drop a.pair a.line [.pc])
  | none => slot s

/-- The bytes that a present vault line of a host page gives to a read that fills no cache (R108), of an agent of die d: the copy's stamp
reaches the agent's floor (R116). A peer line gives none. -/
def hostSlot (s : State) (d floor pa n : Nat) : Option (List TByte) :=
  match place52 pa with
  | .host _ _ => (((s.die ((homeDie s pa).getD 0)).vline (lineOf pa)).filter (fun v => stampOk v.stamp d floor)).map
      (fun v => sliceOf v.data (pa % 128) n)
  | .hbm | .attic _ _ _ | .pantry _ _ | .peer _ _ | .mmio _ _ | .unmapped => none

/-- Whether the location is cached coherently in the issuing pair's L1 (R77, R93). -/
def cachedHere (pair pa : Nat) : Bool :=
  match place52 pa with
  | .hbm => true
  | .attic d _ _ => d == dieOf pair
  | .pantry _ _ | .host _ _ | .peer _ _ | .mmio _ _ | .unmapped => false

/-- A translated load or atomic sets out (R93, R108, R110, R113, R114, R117). -/
def launchAccess (s : State) (u : UnitSt) (a : Access) : Way :=
  let outside := match place52 a.pa with | .host _ _ | .peer _ _ => true | _ => false
  match a.use with
  | .amo _ op =>
    if outside then
      match linkAmo (dropPc s a.pair a.pa) a op with
      | some t => .gone t
      | none => .retry s
    else if a.cm == 0 && cachedHere a.pair a.pa && !subscribed s a.pa a.size then
      if (s.l1Find a.pair a.line [.e, .m]).isSome then .gone (performL1 (s.sfMod (dieOf a.pair) a.line (fun e =>
        { e with grant := e.grant.map (fun _ => L1St.m) })) a [.e, .m])
      else .gone (askFilter s a)
    else if a.cm == 1 then
      let s := match s.l1Find a.pair a.line [.mg] with
        | some l => (homeMerge s a.line l.data l.dirty).l1Drop a.pair a.line [.mg]
        | none => s
      .gone (askHome s a)
    else .gone (askHome s a)
  | .load _ _ | .waitv | .pref | .record | .const | .code _ | .store _ _ =>
    if outside then
      if a.cm == 0 then pcLoad s u a true
      else match hostSlot s (dieOf a.pair) u.ctx.ctl.hostFloor a.pa a.size with
        | some bs => .gone (completeAccess (touchHome s a.pa) a (if bs.any TByte.bad then .err tcEccData 0 else .ok (bs.map TByte.v)))
        | none =>
          match linkRead s a.pa a.size (.access a) with
          | some t => .gone t
          | none => .retry s
    else if a.cm == 0 && cachedHere a.pair a.pa then
      if (s.l1Find a.pair a.line cStates).isSome then .gone (performL1 s a cStates) else .gone (askFilter s a)
    else if a.cm == 1 && cachedHere a.pair a.pa then (match fillMerge s a with | some t => .gone (performL1 t a [.mg]) | none => .retry s)
    else .gone (askHome s a)

/-! ### Own stores (R129, R146) -/

/-- The unit's stores that have not performed and share a location with a range, oldest first. -/
def ownStores (u : UnitSt) (pa n : Nat) : List StoreEntry :=
  (u.ctx.ctl.flight ++ u.ctx.ctl.sb).filter (fun e => sameWord e.acc.pa e.acc.size pa n)

def Use.storeData : Use → List Byte
  | .store d _ => d
  | .load _ _ | .amo _ _ | .waitv | .pref | .record | .const | .code _ => []

/-- The value of a load from the youngest own store to its locations, where that covers it (R129); none when it must wait. -/
def forwarded (u : UnitSt) (pa n : Nat) : Option (Option (List Byte)) :=
  match (ownStores u pa n).getLast? with
  | none => some none
  | some e => if e.acc.pa ≤ pa && pa + n ≤ e.acc.pa + e.acc.size then some (some (sliceOf e.acc.use.storeData (pa - e.acc.pa) n)) else none

/-- The store buffer and the groups up to a scope's are empty (R148). -/
def drained (u : UnitSt) (scope : Nat) : Bool :=
  u.ctx.ctl.sb.isEmpty && (range 0 (scopeGroup scope + 1)).all (fun g => u.ctx.ctl.unacked.toArray.getD g 0 == 0)

/-- The first posted store error surfaces (R408): POSTED = 1, the store's address, and MORE. -/
def postedTrap (u : UnitSt) : Option Trap :=
  u.ctx.ctl.posted.map (fun e => { code := e.1, src := 0, pc := u.ctx.ctl.pc, addr := e.2.1, info := e.2.2, posted := true, more := u.ctx.ctl.more })

/-- The posted error has surfaced. -/
def State.surface (s : State) (u : UnitSt) (t : Trap) : State := s.takeTrap (u.modCtl (fun c => { c with posted := none, more := false })) t

/-! ### The common access (R289) -/

/-- A pantry access of the control slice through the local window, ignoring line states (R56). -/
def localLoad (s : State) (u : UnitSt) (off n : Nat) : AccRes :=
  let pa := u.pantryPa off
  if s.poisoned pa n then .err tcEccData 0 else .ok ((s.bytesAt pa n).map TByte.v)

/-- The steps of R289 for a load or an atomic with its address, size, kind and ordering; what lies outside the local window
sets out by launchAccess. -/
def accessC (s : State) (u : UnitSt) (va size : Nat) (kind : Kind) (use : Use) (len : Nat) (rel acq : Option Nat) : State :=
  let q : AccKind := { kind := kind, aop := (match use with | .amo _ op => some op.op | _ => none), size := size }
  let s0 := s.bump
  let acc (pa cm ham lvl : Nat) : Access :=
    { aid := s.fresh, unit := u.key, pair := u.pair, va := va, pa := pa, size := size, cm := cm, ham := ham, lvl := lvl
      key := s.keyGenOf u, cls := u.launch.cls, group := storeGroup s u.pair pa (if cm == 1 then 2 else cm) (subscribed s pa size)
      len := len, rel := rel, acq := acq, use := use }
  let start (t : State) (a : Access) : State :=
    match t.findUnit u.key with
    | none => t
    | some v => t.putUnit (v.modCtl (fun c => let c := { c with wait := .access s.fresh }; if use.isAmo then c.addUnacked a.group true else c))
  let retry (t : State) : State :=
    match t.findUnit u.key with
    | none => t
    | some v => t.waitC v .release
  if va % size != 0 then s.trapC u tcMisalign va
  else if 2 ^ 57 ≤ va then s.trapC u tcPageAbsent va (xinfo 1 7 kind.code)
  else if localWindow ≤ va then
    let off := va - localWindow
    if u.regionBytes < off + size then s.trapC u tcPantryRange va
    else
      let pa := u.pantryPa off
      let a := acc pa 0 0 7
      match use with
      | .amo _ op =>
        if !(ownStores u pa size).isEmpty then retry s
        else match mirrorAt s u.key off size with
          | some b =>
            if !mirrorOk u b (b.gbase + (off - b.off)) size true then s.trapC u tcRegion va
            else
              let a := acc (spanPa b.spans (off - b.off)) 2 0 7
              askHome (start s0 a) a
          | none =>
            let s1 := start s0 a
            match localLoad s u off size with
            | .err c i => completeAccess s1 a (.err c i)
            | .ok bs =>
              if s.partPoison pa size then completeAccess s1 a (.err tcEccData 0)
              else
                let new := sealList 0 pa (leBytes op.size (amoNew op (leNat bs)))
                match s1.writeRaw pa new with
                | some s2 => completeAccess (noteWrite s2 pa size) a (.ok bs)
                | none => completeAccess s1 a (.err tcEccData 0)
      | .load _ _ | .waitv | .record | .store _ _ =>
        match forwarded u pa size with
        | none => retry s
        | some (some bs) => completeAccess (start s0 a) a (.ok bs)
        | some none => completeAccess (start s0 a) a (localLoad s u off size)
      | .pref | .const | .code _ => s
  else
    let allowed := regionOk u va size (kind != .store) (kind != .load)
    if !allowed && !s.fwj u.key.job then s.trapC u tcRegion va
    else match xlate s u false q va with
    | .trap t code info => t.trapC u code va info
    | .wait t n => t.waitC u (.walk n)
    | .retry t => t.waitC u .release
    | .ok t pa e lvl =>
      if !allowed && !Pte.rcx e then t.trapC u tcRegion va
      else
        let a := acc pa (Pte.cm e) (Pte.ham e) lvl
        let go (_ : Unit) : State := match launchAccess (start t.bump a) u a with | .gone x => x | .retry _ => retry t
        match use, forwarded u pa size with
        | .amo _ _, some none => go ()
        | .amo _ _, _ | _, none => retry t
        | _, some (some bs) => completeAccess (start t.bump a) a (.ok bs)
        | .load _ _, some none =>
          match if acq.isNone then u.ctx.ctl.readAhead pa size else none with
          | some bs => completeAccess (start t.bump a) a (.ok bs)
          | none => go ()
        | _, some none => go ()

/-- A store after its checks: it enters the store buffer, or waits while it is full (R146). What was read ahead of its locations is
older than it (R138). -/
def enterBuffer (s : State) (u : UnitSt) (e : StoreEntry) : State :=
  if 32 ≤ u.ctx.ctl.sb.length then s.waitC u (.storeBuf e)
  else s.retireC (u.modCtl (fun c => ({ c with sb := c.sb ++ [e] }).forget e.acc.pa e.acc.size)) e.acc.len

/-- The steps of R289 for a store (kind store), plain, relaxed or release. -/
def storeC (s : State) (u : UnitSt) (va size : Nat) (data : List Byte) (len : Nat) (rel : Option Nat) : State :=
  let acc (pa cm lvl : Nat) (sub : Bool) : Access :=
    { aid := s.fresh, unit := u.key, pair := u.pair, va := va, pa := pa, size := size, cm := cm, ham := 0, lvl := lvl
      key := s.keyGenOf u, cls := u.launch.cls, group := storeGroup s u.pair pa cm sub, len := len, rel := rel, acq := none
      use := .store data s.fresh }
  if va % size != 0 then s.trapC u tcMisalign va
  else if 2 ^ 57 ≤ va then s.trapC u tcPageAbsent va (xinfo 1 7 1)
  else if localWindow ≤ va then
    let off := va - localWindow
    if u.regionBytes < off + size then s.trapC u tcPantryRange va
    else match mirrorAt s u.key off size with
      | some b =>
        let g := b.gbase + (off - b.off)
        if !mirrorOk u b g size false then s.trapC u tcRegion va
        else enterBuffer s.bump u ⟨acc (spanPa b.spans (off - b.off)) 2 7 true, rel⟩
      | none => enterBuffer s.bump u ⟨acc (u.pantryPa off) 0 7 false, rel⟩
  else
    let allowed := regionOk u va size false true
    if !allowed && !s.fwj u.key.job then s.trapC u tcRegion va
    else match xlate s u false { kind := .store, size := size } va with
    | .trap t code info => t.trapC u code va info
    | .wait t n => t.waitC u (.walk n)
    | .retry t => t.waitC u .release
    | .ok t pa e lvl =>
      if !allowed && !Pte.rcx e then t.trapC u tcRegion va
      else enterBuffer t.bump u ⟨acc pa (Pte.cm e) lvl (subscribed t pa size), rel⟩

/-! ### Loads and stores (R288, R295, R296) -/

/-- The address of format CM (R237). -/
def cmAddr (u : UnitSt) (f : CM) : Nat := (u.c f.ra + BitVec.ofInt 64 (f.off.toInt * 2 ^ f.sz.toNat)).toNat

/-- The address of the CX memory instructions. -/
def cxAddr (u : UnitSt) (f : CX) : Nat := (u.c f.ra + f.imm.signExtend 64).toNat

/-- LD (R288). -/
def execLd (f : CM) (s : State) : Out3 :=
  onCtl s (fun u => accessC s u (cmAddr u f) (2 ^ f.sz.toNat) .load (.load f.rd false) 1 none none)

/-- LDS (R288). -/
def execLds (f : CM) (s : State) : Out3 :=
  onCtl s (fun u => accessC s u (cmAddr u f) (2 ^ f.sz.toNat) .load (.load f.rd true) 1 none none)

/-- ST (R288): rd names the data. -/
def execSt (f : CM) (s : State) : Out3 :=
  onCtl s (fun u => storeC s u (cmAddr u f) (2 ^ f.sz.toNat) (leBytes (2 ^ f.sz.toNat) (u.c f.rd).toNat) 1 none)

/-- The acquire effects at the issue of an acquire access (R111, R115, R295), for a well-addressed one. -/
def acquireAt (s : State) (u : UnitSt) (va scope : Nat) : State :=
  let page := va / 4096
  let peer := match lookupTlb s u.pair u.key.job page with
    | some (_, t) => isPeerLine (lineOf (t.phys va))
    | none => false
  acquireFx s u.key u.pair scope peer

/-- The unit as the state now holds it. -/
def reread (s : State) (u : UnitSt) : UnitSt := (s.findUnit u.key).getD u

/-- LDO (R295): an acquire first performs its acquire effects. -/
def execLdo (f : CX) (s : State) : Out3 :=
  onCtl s (fun u =>
    let size := 2 ^ (f.sub.toNat % 4)
    let acq := if f.ord == 1#2 then some f.scope.toNat else none
    let s1 := if f.ord == 1#2 then acquireAt s u (cxAddr u f) f.scope.toNat else s
    accessC s1 (reread s1 u) (cxAddr u f) size .load (.load f.rd (f.sub.getLsbD 2)) 2 none acq)

/-- STO (R296): a posted error surfaces at a release store (R408). -/
def execSto (f : CX) (s : State) : Out3 :=
  onCtl s (fun u =>
    let size := 2 ^ (f.sub.toNat % 4)
    let rel := if f.ord == 2#2 then some f.scope.toNat else none
    match rel, postedTrap u with
    | some _, some t => s.surface u t
    | _, _ => storeC s u (cxAddr u f) size (leBytes size (u.c f.rb).toNat) 2 rel)

/-! ### Atomics (R297 to R299) -/

/-- The operation an AMO carries (R297): its width in bytes, the operand, and for CAS and CAS128 the value compared. -/
def amoOp (u : UnitSt) (f : CX) : AtomicOp :=
  let op := f.sub.toNat % 16
  let pairOf (r : BitVec 6) : Nat := (u.c r).toNat + 2 ^ 64 * (u.c (r + 1)).toNat
  if op == 12 then ⟨12, 16, pairOf f.rc, pairOf f.rb⟩
  else
    let size := if f.sub.getLsbD 6 then 8 else 4
    let cut (r : BitVec 6) : Nat := (u.c r).toNat % 2 ^ (8 * size)
    if op == 10 then ⟨10, size, cut f.rc, cut f.rb⟩ else ⟨op, size, cut f.rb, 0⟩

/-- AMO (R297 to R299): with a release component it waits for the earlier stores (R148). -/
def execAmo (f : CX) (s : State) : Out3 :=
  onCtl s (fun u =>
    let op := amoOp u f
    let isRel := f.ord.getLsbD 1
    let isAcq := f.ord.getLsbD 0
    let sc := f.scope.toNat
    match isRel, postedTrap u with
    | true, some t => s.surface u t
    | _, _ =>
      if isRel && !drained u sc then s.waitC u .release
      else
        let s1 := if isRel then releaseFx s u.key u.pair sc else s
        let s2 := if isAcq then acquireAt s1 u (cxAddr u f) sc else s1
        accessC s2 (reread s2 u) (cxAddr u f) op.size .atomic (.amo f.rd op) 2
          (if isRel then some sc else none) (if isAcq then some sc else none))

/-! ### Fences and parking (R300, R301) -/

/-- FENCE (R127, R148, R300): a release component waits for the earlier stores; an sc fence also for the whole buffer. -/
def execFence (f : CX) (s : State) : Out3 :=
  onCtl s (fun u =>
    let sc := f.scope.toNat
    let isRel := f.ord != 1#2
    let isAcq := f.ord != 2#2
    match isRel, postedTrap u with
    | true, some t => s.surface u t
    | _, _ =>
      if isRel && !drained u sc then s.waitC u .release
      else
        let s1 := if isRel then releaseFx s u.key u.pair sc else s
        let s2 := if isAcq then acquireFx s1 u.key u.pair sc true else s1
        s2.retireC (reread s2 u) 2)

/-- One read of WAITV's loop (R301): it is a load at its scope; with ord acquire every read is one. The word that a write wakes it for is the
one that this read translates to (R40). -/
def waitvIssue (s : State) (u : UnitSt) : State :=
  match u.ctx.ctl.wait with
  | .waitv va pa size acq scope cmp rd last limit _ none =>
    let s1 := if acq then acquireAt s u va scope else s
    let u1 := reread s1 u
    let u2 := u1.modCtl (fun c => { c with wait := .waitv va pa size acq scope cmp rd last limit false none })
    let s2 := s1.putUnit u2
    if localWindow ≤ va then
      match forwarded u2 pa size with
      | none => s
      | some (some bs) => waitvRead s2 u2 (leNat bs)
      | some none =>
        match localLoad s2 u2 (va - localWindow) size with
        | .ok bs => waitvRead s2 u2 (leNat bs)
        | .err c i => s2.trapC u2 c va i
    else
      let waiting (pa : Nat) (woken : Bool) (reading : Option Nat) : UnitSt :=
        u1.modCtl (fun c => { c with wait := .waitv va pa size acq scope cmp rd last limit woken reading })
      match xlate s2 u2 false { kind := .load, size := size } va with
      | .trap t code info => t.trapC u2 code va info
      | .wait t n => t.putUnit (waiting pa false (some n))
      | .retry t => t.putUnit (waiting pa true none)
      | .ok t pa e lvl =>
        let a : Access := { aid := t.fresh, unit := u2.key, pair := u2.pair, va := va, pa := pa, size := size, cm := Pte.cm e
                            ham := Pte.ham e, lvl := lvl, key := t.keyGenOf u2, cls := u2.launch.cls, group := 0, len := 2
                            rel := none, acq := if acq then some scope else none, use := .waitv }
        let u3 := waiting pa false (some t.fresh)
        match forwarded u3 pa size with
        | none => s
        | some (some bs) => waitvRead (t.bump.putUnit u3) u3 (leNat bs)
        | some none => match launchAccess (t.bump.putUnit u3) u3 a with | .gone x => x | .retry _ => s
  | _ => s

/-- WAITV (R301): the checks of R289, then the first read of the loop. -/
def execWaitv (f : CX) (s : State) : Out3 :=
  onCtl s (fun u =>
    let va := cxAddr u f
    let size := if f.sub.getLsbD 0 then 4 else 8
    let t := (u.c f.rc).toNat
    let limit := if t == 0 then none else some (s.cycle + t)
    let park (s : State) (pa : Nat) : State :=
      let u := u.modCtl (fun c => { c with wait := .waitv va pa size (f.ord == 1#2) f.scope.toNat (u.c f.rb).toNat f.rd s.cycle limit true none })
      waitvIssue (s.putUnit u) u
    if va % size != 0 then s.trapC u tcMisalign va
    else if 2 ^ 57 ≤ va then s.trapC u tcPageAbsent va (xinfo 1 7 0)
    else if localWindow ≤ va then
      if u.regionBytes < va - localWindow + size then s.trapC u tcPantryRange va else park s (u.pantryPa (va - localWindow))
    else
      let allowed := regionOk u va size true false
      if !allowed && !s.fwj u.key.job then s.trapC u tcRegion va
      else match xlate s u false { kind := .load, size := size } va with
      | .trap x code info => x.trapC u code va info
      | .wait x n => x.waitC u (.walk n)
      | .retry x => x.waitC u .release
      | .ok x pa e _ => if !allowed && !Pte.rcx e then x.trapC u tcRegion va else park x pa)

/-- A parked resident, with how it is parked; a restored one whose saved stores still replay reads nothing yet (R413). -/
def parked (s : State) (pair slot : Nat) : Option (UnitSt × Nat × Option Nat × Bool) :=
  match s.resident pair slot with
  | none => none
  | some u =>
    match u.ctx.ctl.wait with
    | .waitv _ _ _ _ _ _ _ last limit woken none => if u.ctx.ctl.replay then none else some (u, last, limit, woken)
    | _ => none

/-- WAITV_WAKE (R301): a write to the location has performed; the slice reads again. -/
def execWaitvWake (pair slot : Nat) (s : State) : Out3 :=
  match parked s pair slot with
  | some (u, _, _, true) => .next (waitvIssue s u)
  | _ => .next s

/-- WAITV_REREAD (R301): 2,048 ac have passed since the last read. -/
def execWaitvReread (pair slot : Nat) (s : State) : Out3 :=
  match parked s pair slot with
  | some (u, last, _, _) => if last + 2048 ≤ s.cycle then .next (waitvIssue s u) else .next s
  | none => .next s

/-- WAITV_TIMEOUT (R301): the limit is reached; the loop reads once more and ends. -/
def execWaitvTimeout (pair slot : Nat) (s : State) : Out3 :=
  match parked s pair slot with
  | some (u, _, some t, _) => if t ≤ s.cycle then .next (waitvIssue s u) else .next s
  | _ => .next s

/-- The access of a prefetch. R303 gives PREF no size: its region check covers the byte at its address alone, and no address is misaligned
(DESIGN CHOICE, assumption 112). -/
def prefAccess (s : State) (u : UnitSt) (va pa cm lvl : Nat) : Access :=
  { aid := s.fresh, unit := u.key, pair := u.pair, va := va, pa := pa, size := 1, cm := cm, ham := 0, lvl := lvl, key := s.keyGenOf u
    cls := u.launch.cls, group := 0, len := 2, rel := none, acq := none, use := .pref }

/-- Request the line of a prefetch that has passed its checks, for the L1 or for the vault cache alone (R303). Where no load leaves a copy,
nothing is requested. -/
def prefetch (s : State) (u : UnitSt) (a : Access) (vaultOnly : Bool) : Way :=
  let outside := match place52 a.pa with | .host _ _ | .peer _ _ => true | _ => false
  if outside then if a.cm == 0 then pcLoad s u a (!vaultOnly) else .gone s
  else if a.cm == 2 || !cachedHere a.pair a.pa then .gone s
  else if vaultOnly then
    if isHbm a.pa then (match cohRead s (some a.cls) (a.line * 128) 128 with | some (t, _) => .gone t | none => .retry (s.knock a.pa)) else .gone s
  else if a.cm == 1 then (match fillMerge s a with | some t => .gone t | none => .retry s)
  else if (s.l1Find a.pair a.line cStates).isSome then .gone s
  else .gone (askFilter s a)

/-- PREF (R303): it traps never and changes no value; where its checks pass the line is requested. -/
def execPref (f : CX) (s : State) : Out3 :=
  onCtl s (fun u =>
    let va := cxAddr u f
    let done (t : State) : State := t.retireC (reread t u) 2
    let allowed := regionOk u va 1 true false
    if localWindow ≤ va || (!allowed && !s.fwj u.key.job) then done s
    else match xlateNow s true u.launch.cls u.pair u.key.job (match s.job u.key.job with | some j => j.root | none => 0) { kind := .load } va with
      | .trap t _ _ => done t
      | .wait t _ | .retry t => t.waitC u .release
      | .ok t pa e lvl =>
        if !allowed && !Pte.rcx e then done t
        else match prefetch t.bump u (prefAccess t u va pa (Pte.cm e) lvl) (f.sub.getLsbD 0) with
          | .gone x => done x
          | .retry x => x.waitC u .release)

/-- The line of the pair's L1 in which a load of the unit finds its location, by page mode and class (R93, R111, R116). -/
def heldFor (s : State) (u : UnitSt) (pair pa cm : Nat) : Option L1Line :=
  match place52 pa with
  | .host _ _ | .peer _ _ =>
    if cm != 0 then none
    else (s.l1Find pair (lineOf pa) [.pc]).filter (fun l =>
      stampOk l.stamp (dieOf pair) (if isPeerLine (lineOf pa) then u.ctx.ctl.peerFloor else u.ctx.ctl.hostFloor))
  | .hbm | .attic _ _ _ | .pantry _ _ | .mmio _ _ | .unmapped =>
    if cm == 2 || !cachedHere pair pa then none
    else if cm == 1 then (s.l1Find pair (lineOf pa) [.mg]).filter (fun l => l.jobs.contains u.key.job)
    else s.l1Find pair (lineOf pa) cStates

/-- A plain or relaxed load may perform before earlier accesses of its slice to other locations (R129): a location that the L1 holds is read
ahead of the load that will name it; a line of the cellar or of the die's attic that the L1 could hold and does not is requested. No link is
asked for a load that may never be executed (R37), and what the regions do not grant is not read (R154). -/
def readAheadNow (s : State) (pair slot va size : Nat) : State :=
  match s.resident pair slot with
  | none => s
  | some u =>
    if !u.ctlRuns || u.ctx.ctl.replay || !(([1, 2, 4, 8] : List Nat).contains size) || va % size != 0 || localWindow ≤ va then s
    else match lookupTlb s pair u.key.job (va / 4096) with
      | none => s
      | some (t, e) =>
        let pa := e.phys va
        let allowed := regionOk u va size true false || (t.fwj u.key.job && Pte.rcx e.pte)
        if !allowed || (check30 t { kind := .load, size := size, fwj := t.fwj u.key.job } e.pte pa).isSome || !(ownStores u pa size).isEmpty then s
        else match heldFor t u pair pa (Pte.cm e.pte) with
          | none =>
            if !cachedHere pair pa then s
            else if ((t.die (dieOf pair)).sfq.any (fun r => r.acc.pair == pair && r.acc.line == lineOf pa)) then s
            else match prefetch t.bump u (prefAccess t u va pa (Pte.cm e.pte) e.lvl) false with
              | .gone x => x
              | .retry _ => s
          | some l =>
            if badIn l.data (pa % 128) size then s
            else t.putUnit (u.modCtl (fun c => { c.forget pa size with
              ahead := (pa, lineSeen (t.keyGenOf u) (lineOf pa * 128) l.data (pa % 128) size) :: (c.forget pa size).ahead }))

/-! ### The store buffer (R146 to R148) -/

/-- A store that has left the buffer performs where its location lies, or sets out for it. -/
def performStore (s : State) (u : UnitSt) (e : StoreEntry) : Option State :=
  let a := e.acc
  match a.use with
  | .store data _ =>
    match place52 a.pa with
    | .pantry _ _ =>
      match s.writeRaw a.pa (sealList 0 a.pa data) with
      | some t => some (completeAccess (noteWrite t a.pa a.size) a (.ok []))
      | none => some (completeAccess s a (.err tcEccData (xinfo 0 a.lvl 1)))
    | .host _ _ | .peer _ _ =>
      if !linkOk s a.pa then some (completeAccess s a (.err tcLinkDown (xinfo 11 a.lvl 1)))
      else
        let t := s.modUnit u.key (fun v => v.modCtl (fun c => { c with flight := c.flight.filter (fun x => x.acc.aid != a.aid) }))
        linkWrite (dropPc t a.pair a.pa) a.pa data (.unit ⟨a.unit, a.group, some (0, a.va, xinfo 11 a.lvl 1)⟩)
    | .mmio _ _ => some (askHome s a)
    | .unmapped => some (completeAccess s a (.err tcPageAttr (xinfo 10 a.lvl 1)))
    | .hbm | .attic _ _ _ =>
      if !backed s a.pa then some (completeAccess s a (.err tcPageAttr (xinfo 10 a.lvl 1)))
      else if a.cm == 0 && cachedHere a.pair a.pa && !subscribed s a.pa a.size then
        if (s.l1Find a.pair a.line [.e, .m]).isSome then
          some (performL1 (s.sfMod (dieOf a.pair) a.line (fun e => { e with grant := e.grant.map (fun _ => L1St.m) })) a [.e, .m])
        else some (askFilter s a)
      else if a.cm == 1 && cachedHere a.pair a.pa && !subscribed s a.pa a.size then (fillMerge s a).map (fun t => performL1 t a [.mg])
      else some (askHome s a)
  | .load _ _ | .amo _ _ | .waitv | .pref | .record | .const | .code _ => none

/-- STORE_BUFFER_DRAIN (R146 to R148): the oldest store leaves the buffer and is counted in its group; a release store once R148 is
satisfied, a store to a location of one still under way once that has performed (R129). -/
def execStoreBufferDrain (pair slot : Nat) (s : State) : Out3 :=
  match s.resident pair slot with
  | none => .next s
  | some u =>
    match u.ctx.ctl.sb with
    | [] => .next s
    | e :: rest =>
      let held := u.ctx.ctl.flight.any (fun x => sameWord x.acc.pa x.acc.size e.acc.pa e.acc.size)
      let ready := match e.rel with
        | none => true
        | some sc => (range 0 (scopeGroup sc + 1)).all (fun g => u.ctx.ctl.unacked.toArray.getD g 0 == 0)
      if held || !ready then .next s
      else
        let s1 := match e.rel with | some sc => releaseFx s u.key u.pair sc | none => s
        let e := { e with acc := { e.acc with pair := u.pair, group := storeGroup s1 u.pair e.acc.pa e.acc.cm (subscribed s1 e.acc.pa e.acc.size) } }
        let u1 := (reread s1 u).modCtl (fun c => ({ c with sb := rest, flight := c.flight ++ [e] }).addUnacked e.acc.group true)
        match performStore (s1.putUnit u1) u1 e with
        | some t => .next t
        | none => .next s

/-- STORE_BUFFER_SPACE (R146): a waiting store enters the buffer. -/
def execStoreBufferSpace (pair slot : Nat) (s : State) : Out3 :=
  match s.resident pair slot with
  | none => .next s
  | some u =>
    match u.ctx.ctl.wait with
    | .storeBuf e => if u.ctx.ctl.sb.length < 32 then .next (enterBuffer s u e) else .next s
    | _ => .next s

/-- A posted store error is recorded (R408): the first one, later ones set MORE. -/
def Ctl.postError (c : Ctl) (e : Nat × Nat × Nat) : Ctl :=
  match c.posted with
  | none => { c with posted := some e }
  | some _ => { c with more := true }

/-- STORE_ACK (R147, R148, R149, R408): acknowledgement k arrives: the counter falls, an error is recorded; for a saved unit the ack
unit does both in the image's counters. -/
def execStoreAck (k : Nat) (s : State) : Out3 :=
  match s.acks[k]? with
  | none => .next s
  | some a =>
    .next (({ s with acks := dropIdx s.acks k }).modUnit a.unit (fun u => u.modCtl (fun c =>
      let c := c.addUnacked a.group false
      match a.err with | some e => c.postError e | none => c)))

end Sys2Proof.Machine
end

