-- ==== Sys2Proof/Machine/Fetch.lean ====
section
/-!
DEFINITION. Fetching an instruction's words: instruction caches (R90), fetch lines and their checks (R229, R230), the walk to the
next instruction (R232) and the transfer of control (R233), for both slices.
-/

namespace Sys2Proof.Machine

/-- Nibble i of a line's header describes word i + 1 (R229). -/
def lineNibble (w : BitVec 256) (i : Nat) : Nat := (w.toNat >>> (4 * i)) % 16

/-- Word i of a line. -/
def lineWord (w : BitVec 256) (i : Nat) : Nat := (w.toNat >>> (32 * i)) % 2 ^ 32

/-- The lowest cause for which line k of an object of some lines is malformed by itself (R230, causes 1 to 4 and 7). -/
def lineBad (lines k : Nat) (w : BitVec 256) : Option Nat :=
  let n := lineNibble w
  if (range 0 7).any (fun i => n i == 3 || (5 ≤ n i && n i ≤ 0xD)) then some 1
  else if (w.toNat >>> 29) % 8 != 0 then some 2
  else if n 0 == 0xE || n 6 == 2 || n 6 == 4 ||
      (range 0 6).any (fun i => (n (i + 1) == 0xE) != (n i == 2 || n i == 4)) then some 3
  else if (range 0 7).all (fun i => n i == 0) then some 4
  else if w.getLsbD 28 != (k + 1 == lines) then some 7
  else none

/-- The slice owns word i of a line as a first word (R232). -/
def owns (data : Bool) (w : BitVec 256) (i : Nat) : Bool :=
  i != 0 && (if data then lineNibble w (i - 1) == 4 else lineNibble w (i - 1) == 1 || lineNibble w (i - 1) == 2)

/-- How the fetch of a line ends. -/
inductive FRes where
  | line (s : State) (w : BitVec 256)
  | wait (s : State)
  | trap (s : State) (code va info : Nat)
  deriving Repr

/-- The virtual address of line k of the unit's object (R229). -/
def lineVa (u : UnitSt) (k : Nat) : Nat := (u.launch.code + u.launch.lineOff + 32 * k) % 2 ^ 64

/-- A slice waits in the middle of a fetch: for the walk, or the access over a link, with a number. -/
def fetchWait (s : State) (u : UnitSt) (data walk : Bool) (n : Nat) : State :=
  s.modUnit u.key (fun v =>
    if data then v.modDat (fun x => { x with wait := if walk then .walk n else .const n })
    else v.modCtl (fun c => { c with wait := if walk then .walk n else .access n }))

/-- Ask a link for a fetch line. -/
def askCode (s : State) (u : UnitSt) (data : Bool) (va pa lvl : Nat) : State :=
  let a : Access := { aid := s.fresh, unit := u.key, pair := u.pair, va := va, pa := pa, size := 32, cm := 0, ham := 0, lvl := lvl, key := 0
                      cls := u.launch.cls, group := 0, len := 0, rel := none, acq := none, use := .code data }
  match linkRead s.bump pa 32 (.access a) with
  | some t => fetchWait t u data false s.fresh
  | none => s

/-- A fetch over a link of the line at an address that has failed. -/
def codeFailed (u : UnitSt) (data : Bool) (va : Nat) : Option (Nat × Nat) :=
  (u.ctx.codeErr.filter (fun e => e.1 == data && e.2.1 == va)).map (fun e => e.2.2)

/-- Fetch a line (R44, R90): the L1 instruction cache, the die's L2, or a coherent read at .dev, over the link for a line of the host or
of a peer. A miss of the TLB waits for a walk; a busy line is tried again. A line that a cache holds becomes its most recently used one
(assumption 5). With look the slice does not enter the line, so a walk that fails is an answer and no trap (R171, R292). -/
def fetchLine (s : State) (u : UnitSt) (data look : Bool) (k : Nat) : FRes :=
  let va := lineVa u k
  let d := dieOf u.pair
  let mine (pa : Nat) (x : ILine) : Bool := x.job == u.key.job && x.pa == pa
  if 2 ^ 57 ≤ va then .trap s tcPageAbsent va (xinfo 1 7 3)
  else if localWindow ≤ va then .trap s tcPageAttr va (xinfo 6 7 3)
  else match codeFailed u data va with
  | some (code, info) => .trap (s.modUnit u.key (fun v => v.modCtx (fun x => { x with codeErr := none }))) code va info
  | none =>
    match if look then xlateNow s true u.launch.cls u.pair u.key.job (match s.job u.key.job with | some j => j.root | none => 0) { kind := .fetch } va
      else xlate s u data { kind := .fetch } va with
    | .trap t code info => .trap t code va info
    | .wait t n => .wait (fetchWait t u data true n)
    | .retry t => .wait t
    | .ok t pa _ lvl =>
      match (t.pairOf u.pair).l1i.find? (mine pa) with
      | some l => .line (t.modPair u.pair (fun p => { p with l1i := toFront (mine pa) p.l1i })) l.data
      | none =>
        match (t.die d).l2i.find? (mine pa) with
        | some l => .line (fillCode t u.pair u.key.job pa l.data) l.data
        | none =>
          let fill (x : State) (bs : List Byte) : FRes :=
            let w : BitVec 256 := BitVec.ofNat 256 (leNat bs)
            .line (fillCode x u.pair u.key.job pa w) w
          match place52 pa, hostSlot t d u.ctx.ctl.hostFloor pa 32 with
          | .host _ _, some bs => fill t (bs.map TByte.v)
          | .host _ _, none | .peer _ _, _ => .wait (askCode t u data va pa lvl)
          | _, _ =>
            match cohRead t (some u.launch.cls) pa 32 with
            | none => .wait (t.knock pa)
            | some (x, _) => if homePoisoned x pa 32 then .trap x tcEccData va 0 else fill x (homeSeen x (s.keyGenOf u) pa 32)

/-- Where a walk ends (R232). -/
inductive WalkPc where
  | found (pc : Nat)
  | stop (pc cause : Nat)            -- end of the object, or a malformed line
  | fault (pc code va info : Nat)    -- a line whose fetch faults
  | wait
  deriving Repr

/-- The next word the slice owns from word i of a line on. -/
def ownedFrom (data : Bool) (w : BitVec 256) : Nat → Nat → Option Nat
  | 0, _ => none
  | n + 1, i => if i < 8 && owns data w i then some i else ownedFrom data w n (i + 1)

/-- The walk of R232 from pc without moving the slice; buf is the line it stands in. Fuel bounds the lines entered. -/
def nextPc (u : UnitSt) (data look : Bool) : Nat → State → Option (Nat × BitVec 256) → Nat → State × WalkPc
  | 0, s, _, pc => (s, .stop pc 6)
  | n + 1, s, buf, pc =>
    if 8 * u.launch.lines ≤ pc then (s, .stop pc 6)
    else
      let k := pc / 8
      let i := pc % 8
      let at_ := if i == 0 then pc + 1 else pc
      let inside := i != 0 && (match buf with | some (b, _) => b == k | none => false)
      let go (s : State) (w : BitVec 256) : State × WalkPc :=
        match ownedFrom data w 8 i with
        | some j => (s, .found (8 * k + j))
        | none => nextPc u data look n s (some (k, w)) (8 * (k + 1))
      if inside then go s (match buf with | some (_, w) => w | none => 0)
      else match fetchLine s u data look k with
        | .wait t => (t, .wait)
        | .trap t code va info => (t, .fault at_ code va info)
        | .line t w =>
          match lineBad u.launch.lines k w with
          | some c => (t, .stop at_ c)
          | none => go t w

/-- What a slice's turn fetched: an instruction's words at its PC, or the turn is over. -/
inductive Fetched where
  | word (s : State) (bits n : Nat)
  | stop (s : State)
  deriving Repr

/-- The instruction word at a PC of a line: 32 bits, or 64 with its continuation. -/
def wordAt (w : BitVec 256) (i : Nat) : Nat × Nat :=
  if lineNibble w (i - 1) == 1 then (lineWord w i, 32) else (lineWord w i + 2 ^ 32 * lineWord w (i + 1), 64)

/-- The slice's position after a fetch moved it. -/
def setPos (data : Bool) (pc : Nat) (mode : PcMode) (buf : Option (Nat × BitVec 256)) (u : UnitSt) : UnitSt :=
  if data then u.modDat (fun x => { x with pc := pc, mode := mode, buf := buf, wait := .none })
  else u.modCtl (fun c => { c with pc := pc, mode := mode, buf := buf, wait := .none })

/-- A fetch trap in a slice (R44, R232): the slice stands at the reported PC. -/
def fetchTrap (s : State) (u : UnitSt) (data : Bool) (pc code va info : Nat) : Fetched :=
  let v := setPos data pc .transfer none (match s.findUnit u.key with | some x => x | none => u)
  .stop (s.takeTrap v { code := code, src := if data then 1 else 0, pc := pc, addr := va, info := info })

/-- One fetch of a slice: at an instruction it stands at, on a walk (at most one line a turn), or at a transfer's target. R37 lets the fetch
unit and the control core walk and fill TLB entries speculatively; the model walks only for what a slice asks for (assumption 84). -/
def fetchSlice (s : State) (u : UnitSt) (data : Bool) : Fetched :=
  let pc := if data then u.ctx.dat.pc else u.ctx.ctl.pc
  let mode := if data then u.ctx.dat.mode else u.ctx.ctl.mode
  let buf := if data then u.ctx.dat.buf else u.ctx.ctl.buf
  let lines := u.launch.lines
  let k := pc / 8
  let i := pc % 8
  let now (s : State) : UnitSt := match s.findUnit u.key with | some x => x | none => u
  let take (s : State) (w : BitVec 256) (i : Nat) : Fetched :=
    let p := wordAt w i
    .word (s.putUnit (setPos data (8 * k + i) .here (some (k, w)) (now s))) p.1 p.2
  let inBuf : Option (BitVec 256) := match buf with | some (b, w) => if b == k then some w else none | none => none
  if 8 * lines ≤ pc then fetchTrap s u data pc tcIllegalLine 0 6
  else match mode, inBuf with
    | .here, some w => take s w i
    | .walk, some w =>
      if i == 0 then enter s u data lines k i pc mode take
      else match ownedFrom data w 8 i with
        | some j => take s w j
        | none => .stop (s.putUnit (setPos data (8 * (k + 1)) .walk buf u))
    | _, _ => enter s u data lines k i pc mode take
where
  /-- Enter a line (R232, R233). -/
  enter (s : State) (u : UnitSt) (data : Bool) (lines k i pc : Nat) (mode : PcMode) (take : State → BitVec 256 → Nat → Fetched) : Fetched :=
    let walk := mode == .walk
    let at_ := if walk && i == 0 then pc + 1 else pc
    match fetchLine s u data false k with
    | .wait t => .stop (t.modUnit u.key (fun v =>
        if data then v.modDat (fun x => { x with pc := at_ }) else v.modCtl (fun c => { c with pc := at_ })))
    | .trap t code va info => fetchTrap t u data at_ code va info
    | .line t w =>
      match lineBad lines k w with
      | some c => fetchTrap t u data at_ tcIllegalLine 0 (if c == 7 && !walk && !owns data w i then 5 else c)
      | none =>
        if walk then
          match ownedFrom data w 8 i with
          | some j => take t w j
          | none => .stop (t.modUnit u.key (setPos data (8 * (k + 1)) .walk (some (k, w))))
        else if owns data w i then take t w i
        else fetchTrap t u data pc tcIllegalLine 0 5

end Sys2Proof.Machine
end

