-- ==== Sys2Proof/Machine/Branch.lean ====
section
/-!
DEFINITION. Branches and jumps of the control slice (R286, R287).
-/

namespace Sys2Proof.Machine

/-- B.cnd (R286): a taken branch is a transfer to PC + sext(off10). -/
def branchOp (f : CB) (cnd : Word → Word → Bool) (s : State) : Out3 :=
  onCtl s (fun u =>
    if cnd (u.c f.ra) (u.c f.rb) then
      s.putUnit ((u.modCtl (fun c => c.transfer (((c.pc : Int) + f.off.toInt) % 2 ^ 32).toNat)).stamped s.cycle)
    else s.retireC u 1)

def execBEq (f : CB) (s : State) : Out3 := branchOp f (fun a b => a == b) s
def execBNe (f : CB) (s : State) : Out3 := branchOp f (fun a b => a != b) s
def execBLt (f : CB) (s : State) : Out3 := branchOp f (fun a b => a.slt b) s
def execBGe (f : CB) (s : State) : Out3 := branchOp f (fun a b => !a.slt b) s
def execBLtu (f : CB) (s : State) : Out3 := branchOp f (fun a b => a.ult b) s
def execBGeu (f : CB) (s : State) : Out3 := branchOp f (fun a b => !a.ult b) s

/-- The end of both jumps (R287): the link is computed without trapping, except that a line whose fetch faults traps at the jump;
then the link is written and control transferred. -/
def jumpTo (s : State) (u : UnitSt) (rd : BitVec 6) (target : Nat) : State :=
  let r := nextPc u false false (u.launch.lines + 1) s u.ctx.ctl.buf (u.ctx.ctl.pc + 1)
  let link (t : State) (pc : Nat) : State :=
    t.putUnit ((((reread t u).setC rd (BitVec.ofNat 64 pc)).modCtl (Ctl.transfer target)).stamped t.cycle)
  match r.2 with
  | .found pc => link r.1 pc
  | .stop _ _ => link r.1 (8 * u.launch.lines)
  | .fault _ code va info => r.1.takeTrap (reread r.1 u) { code := code, src := 0, pc := u.ctx.ctl.pc, addr := va, info := info }
  | .wait => r.1

/-- JAL (R287). -/
def execJal (f : CJ) (s : State) : Out3 :=
  onCtl s (fun u => jumpTo s u f.rd (((u.ctx.ctl.pc : Int) + f.off.toInt) % 2 ^ 32).toNat)

/-- JALR (R287): a target with any of bits 63:32 set traps ILLEGAL_LINE with cause 6 at the JALR. -/
def execJalr (f : CI) (s : State) : Out3 :=
  onCtl s (fun u =>
    let t := u.c f.ra + f.imm.signExtend 64
    if 2 ^ 32 ≤ t.toNat then s.trapC u tcIllegalLine t.toNat 6 else jumpTo s u f.rd t.toNat)

end Sys2Proof.Machine
end

