-- ==== Sys2Proof/Machine/Commands.lean ====
section
/-!
DEFINITION. The engine commands as the control slice sees them: which are in flight, halted or held, and how a deferred fault
surfaces at its consumer (R62, R361, R366 to R368).
-/

namespace Sys2Proof.Machine

/-- In flight: from issue until it completes or halts (R361). -/
def Cmd.inFlight (c : Cmd) : Bool :=
  match c.status with
  | .issued | .running => true
  | .halted _ | .stopped | .held => false

def Cmd.halt? (c : Cmd) : Option HaltRec := match c.status with | .halted h => some h | _ => none

/-- Halted by a fault, or held behind one (R366, R367). -/
def Cmd.stuck (c : Cmd) : Bool := match c.status with | .halted _ | .held => true | _ => false

/-- The commands of a unit, oldest first. -/
def State.unitCmds (s : State) (k : UKey) : List Cmd := s.cmds.filter (fun c => c.unit == k && !c.task)

/-- Commands of a pair's queue in flight, with those that a save has stopped but not yet taken (R361). -/
def State.queueLoad (s : State) (pair queue : Nat) : Nat :=
  (s.cmds.filter (fun c => c.pair == pair && c.queue == queue && c.inFlight && !c.task)).length

/-- Capacities of the queues (R361). -/
def queueCap (q : Nat) : Nat := if q == 0 then 64 else if q == 1 then 16 else 4

/-- The trap by which a halted command's fault surfaces at an engine consumer (R368, R379, R401). -/
def haltTrap (u : UnitSt) (c : Cmd) (h : HaltRec) : Trap :=
  { code := h.code, src := c.queue + 2, pc := u.ctx.ctl.pc, addr := h.addr, info := h.info, hcode := h.hcode, hq := c.queue + 2, offset := h.offset }

/-- The oldest halted command of a list with its record. -/
def firstHalted : List Cmd → Option (Cmd × HaltRec)
  | [] => none
  | c :: r => match c.halt? with | some h => some (c, h) | none => firstHalted r

/-- The halted command that a faulted counter's WAITC names (R368): the oldest halted command that named it, or the halted
command in front of a held one. -/
def counterHalt (s : State) (k : UKey) (ctr : Nat) : Option (Cmd × HaltRec) :=
  let mine := s.unitCmds k
  match firstHalted (mine.filter (fun c => c.ctr == some ctr)) with
  | some x => some x
  | none =>
    match mine.find? (fun c => c.ctr == some ctr && c.stuck) with
    | some c => firstHalted (mine.filter (fun x => x.queue == c.queue))
    | none => none

/-- A counter of a unit. -/
def UnitSt.counter (u : UnitSt) (k : Nat) : Counter := u.ctx.counters.getD k {}

def UnitSt.setCounter (u : UnitSt) (k : Nat) (f : Counter → Counter) : UnitSt :=
  u.modCtx (fun x => { x with counters := modIdx f x.counters k })

/-- Drained (R62): V at most 0 and no command that names it in flight. -/
def counterDrained (s : State) (u : UnitSt) (k : Nat) : Bool :=
  (u.counter k).v.toInt ≤ 0 && !(s.unitCmds u.key).any (fun c => c.ctr == some k && c.inFlight)

/-- Scope code 0 acts as .pair for engines, WAITC and QFENCE (R120). -/
def engScope (sc : Nat) : Nat := if sc == 0 then 1 else sc

/-- Read the record at an address as the plain load of R289 (R310, R363): its bytes once read, or the state while the load is
under way. -/
def readRecord (s : State) (u : UnitSt) (va size : Nat) : List Byte ⊕ State :=
  match u.ctx.ctl.rcd with
  | some (a, bs) => if a == va then .inl bs else .inr (accessC s u va size .load .record 2 none none)
  | none => .inr (accessC s u va size .load .record 2 none none)

/-- The checks of a load without its read (R289): the state in which it goes on, or the trap or the wait that stops it. -/
def loadChecks (s : State) (u : UnitSt) (va size : Nat) : State ⊕ State :=
  if va % size != 0 then .inr (s.trapC u tcMisalign va)
  else if 2 ^ 57 ≤ va then .inr (s.trapC u tcPageAbsent va (xinfo 1 7 Kind.load.code))
  else if localWindow ≤ va then
    if u.regionBytes < va - localWindow + size then .inr (s.trapC u tcPantryRange va) else .inl s
  else
    let allowed := regionOk u va size true false
    if !allowed && !s.fwj u.key.job then .inr (s.trapC u tcRegion va)
    else match xlate s u false { kind := .load, size := size } va with
    | .trap t code info => .inr (t.trapC u code va info)
    | .wait t n => .inr (t.waitC u (.walk n))
    | .retry t => .inr (t.waitC u .release)
    | .ok t _ e _ => if !allowed && !Pte.rcx e then .inr (t.trapC u tcRegion va) else .inl t

/-- A field of a record: bits h to l of its quadword at a byte offset. -/
def recField (bs : List Byte) (off h l : Nat) : Nat := bits (leNat (sliceOf bs off 8)) h l

/-- Signed 32 bits. -/
def s32 (x : Nat) : Int := sintOf 32 x

end Sys2Proof.Machine
end

