-- ==== Sys2Proof/Machine/System.lean ====
section
/-!
DEFINITION. System registers, TRAP, YIELD, EXIT, cache maintenance, QFENCE, TENQ and the ILLEGAL instruction (R235, R290 to R294,
R302, R309, R310).
-/

namespace Sys2Proof.Machine

/-- ILLEGAL (R235): traps ILLEGAL_OP with cause 1; the major is 0. -/
def execIllegal (s : State) : Out3 := onCtl s (fun u => s.trapC u tcIllegalOp 0 1)

/-! ### System registers (R290, R291) -/

/-- The value of a system register. -/
def readCsr (s : State) (u : UnitSt) (n : Nat) : Nat :=
  match n with
  | 0x000 => Config.width
  | 0x001 => u.pair
  | 0x002 => u.slot
  | 0x003 => u.launch.cls
  | 0x004 => u.ux
  | 0x005 => u.uy
  | 0x006 => u.uz
  | 0x007 => u.key.lin
  | 0x008 => u.launch.gx
  | 0x009 => u.launch.gy
  | 0x00A => u.launch.gz
  | 0x00B => u.key.tidx
  | 0x00C => u.key.job
  | 0x00D => u.launch.code
  | 0x00E => u.launch.stack + u.key.lin * u.launch.stksz
  | 0x00F => u.launch.stksz
  | 0x010 => s.cycle
  | 0x011 => u.ctx.chTail
  | 0x020 => u.ctx.ctl.fpmode.toNat
  | 0x021 => u.ctx.ctl.fpflags.toNat
  | 0x030 => u.ctx.ctl.trapcode
  | 0x031 => u.ctx.ctl.trappc
  | 0x032 => u.ctx.ctl.trapaddr
  | 0x033 => u.ctx.ctl.trapinfo
  | _ => u.launch.args.getD (n - 0x040) 0

/-- CSRR (R290). -/
def execCsrr (f : CI) (s : State) : Out3 :=
  onCtl s (fun u => s.retireC (u.setC f.rd (BitVec.ofNat 64 (readCsr s u f.imm.toNat))) 1)

/-- CSRW (R290): FPMODE and FPFLAGS; writes to their reserved bits are ignored (R270, R271). -/
def execCsrw (f : CI) (s : State) : Out3 :=
  onCtl s (fun u =>
    let x := u.c f.ra
    s.retireC (u.modCtl (fun c =>
      if f.imm == 0x20#13 then { c with fpmode := x.extractLsb' 0 9 } else { c with fpflags := x.extractLsb' 0 6 })) 1)

/-! ### TRAP and YIELD (R292, R293) -/

/-- TRAP (R292): it completes, the saved PC is the next instruction's, or the PC at which the walk to it stops; then SW_TRAP. -/
def execTrap (f : CI) (s : State) : Out3 :=
  onCtl s (fun u =>
    let r := nextPc u false true (u.launch.lines + 1) s u.ctx.ctl.buf (u.ctx.ctl.pc + 1)
    let stop (t : State) (pc : Nat) (m : PcMode) : State :=
      let v := ((reread t u).modCtl (fun c => { c with pc := pc, mode := m, buf := none, wait := .none, rcd := none })).stamped t.cycle
      t.trapC v tcSwTrap 0 f.imm.toNat
    match r.2 with
    | .found pc => stop r.1 pc .transfer
    | .stop pc _ => stop r.1 pc .walk
    | .fault pc _ _ _ => stop r.1 pc .walk
    | .wait => r.1)

/-- YIELD n (R293): the slice takes no issue slot for n ac. -/
def execYield (f : CI) (s : State) : Out3 :=
  onCtl s (fun u => s.waitC u (.yielding (s.cycle + f.imm.toNat)))

/-- YIELD_END (R293). -/
def execYieldEnd (pair slot : Nat) (s : State) : Out3 :=
  match s.resident pair slot with
  | none => .next s
  | some u =>
    match u.ctx.ctl.wait with
    | .yielding t => if t ≤ s.cycle then .next (s.retireC u 1) else .next s
    | _ => .next s

/-! ### EXIT (R159, R167, R294) -/

/-- The end marker (R165, R167). -/
def endMarker : BitVec 256 := 0x80000000

/-- Append an entry: it takes the next sequence number (R166). -/
def Ctx.push (x : Ctx) (e : BitVec 256) : Ctx :=
  { x with chute := x.chute ++ [⟨e, x.chTail % 2 ^ 32⟩], chTail := (x.chTail + 1) % 2 ^ 32 }

def chuteFull (x : Ctx) : Bool := 64 ≤ x.chute.length

/-- Whether the data slice takes no more entries (R166, R167, R169). -/
def Dat.ended (d : Dat) : Bool := d.done || d.stopped

/-- A store of the slice to a pantry has not performed yet: a push waits for it (R132). -/
def pantryPending (u : UnitSt) : Bool :=
  (u.ctx.ctl.sb ++ u.ctx.ctl.flight).any (fun e => match place52 e.acc.pa with | .pantry _ _ => true | _ => false)

/-- EXIT (R294) step 1: the end marker, a push, goes in after the slice's pantry accesses (R132), waits for room, or is left out when the
data slice has ended. -/
def execExit (s : State) : Out3 :=
  onCtl s (fun u =>
    if u.ctx.ctl.marker || u.ctx.dat.ended then s.waitC u (.exiting 2)
    else if pantryPending u then s.waitC u .release
    else if chuteFull u.ctx then s.waitC u (.exiting 1)
    else s.waitC (u.modCtx (fun x => { (x.push endMarker) with ctl := { x.ctl with marker := true } })) (.exiting 2))

/-- EXIT_COMPLETE (R294 steps 2 and 3, R368, R408): with the stores acknowledged a posted error surfaces; with no command in flight
a deferred fault surfaces, or the control slice ends. -/
def execExitComplete (pair slot : Nat) (s : State) : Out3 :=
  match s.resident pair slot with
  | none => .next s
  | some u =>
    match u.ctx.ctl.wait with
    | .exiting 2 =>
      let quiet := u.ctx.ctl.sb.isEmpty && (range 0 4).all (fun g => u.ctx.ctl.unacked.toArray.getD g 0 == 0)
      if !quiet then .next s
      else match postedTrap u with
        | some t => .next (s.surface u t)
        | none =>
          let mine := s.unitCmds u.key
          if mine.any Cmd.inFlight then .next s
          else match firstHalted mine with
            | some (c, h) => .next (s.takeTrap u (haltTrap u c h))
            | none =>
              .next (s.putUnit ((u.modCtx (fun x => { x with dw := [], ctl := { x.ctl with wait := .none, done := true } })).stamped s.cycle))
    | _ => .next s

/-! ### Cache maintenance (R75, R90, R302) -/

/-- The pairs of a scope instance of a pair that hold caches (R119, R302). -/
def inScope (scope p q : Nat) : Bool :=
  if scope ≤ 1 then p == q
  else if scope == 2 then p / 4 == q / 4
  else if scope == 3 then p / 16 == q / 16
  else if scope == 4 then dieOf p == dieOf q
  else true

/-- Reads of a link that would fill a cache with what an invalidation takes away are made again: the slices of some units no longer wait for
those of some use (R76, R90, R92). -/
def fetchAgain (s : State) (who : UnitSt → Bool) (what : Access → Bool) : State :=
  let ids := s.outstanding.filterMap (fun (o : Outstanding) => match o.what with | .access a => if what a then some a.aid else none | _ => none)
  let ctl (c : Ctl) : Ctl := match c.wait with | .access n => if ids.contains n then { c with wait := .none } else c | _ => c
  let dat (d : Dat) : Dat := match d.wait with | .const n => if ids.contains n then { d with wait := .none } else d | _ => d
  if ids.isEmpty then s
  else { s with units := s.units.map (fun u => if who u then (u.modCtl ctl).modDat dat else u) }

/-- ICINV (R90, R302): the job's lines in the L1 caches of the pairs of the scope, and in the L2 of every die it touches. -/
def execIcinv (f : CX) (s : State) : Out3 :=
  onCtl s (fun u =>
    let j := u.key.job
    let sc := f.scope.toNat
    let pairs := s.pairs.map (fun p => if inScope sc u.pair p.id then { p with l1i := p.l1i.filter (fun l => l.job != j) } else p)
    let s1 := (range 0 Config.dies).foldl (fun t d =>
      if sc ≤ 4 && d != dieOf u.pair then t
      else t.modDie d (fun x => { x with l2i := x.l2i.filter (fun l => l.job != j) })) { s with pairs := pairs }
    let s2 := fetchAgain s1 (fun v => v.key.job == j && (inScope sc u.pair v.pair || 5 ≤ sc || dieOf v.pair == dieOf u.pair)) (fun a => a.use.isCode)
    s2.retireC (reread s2 u) 2)

/-- CINV (R75, R302). -/
def execCinv (f : CX) (s : State) : Out3 :=
  onCtl s (fun u =>
    let j := u.key.job
    let pairs := s.pairs.map (fun p =>
      if inScope f.scope.toNat u.pair p.id then { p with cc := p.cc.filter (fun l => l.job != j) } else p)
    let s1 := fetchAgain { s with pairs := pairs } (fun v => v.key.job == j && inScope f.scope.toNat u.pair v.pair) (fun a => a.use == .const)
    s1.retireC (reread s1 u) 2)

/-! ### QFENCE (R151, R309) -/

/-- The union of what acquires at some scopes cover. At .link a QFENCE acts at .dev and covers no peer line: R115 and R119 name fences and
accesses only, and the model counts QFENCE among neither (DESIGN CHOICE, assumption 117). -/
def coversAll (scopes : List Nat) : Bool × Bool × Bool :=
  scopes.foldl (fun a sc => let b := acqCovers sc false; (a.1 || b.1, a.2.1 || b.2.1, a.2.2 || b.2.2)) (false, false, false)

/-- QFENCE's end: a stuck command of the named queues surfaces its fault, or it completes as an acquire, at the scopes of R151 and at the
field's own, also where that contains those (R309 asks for it only where it does not: DESIGN CHOICE, assumption 118). -/
def qfenceEnd (s : State) (u : UnitSt) (mask scope : Nat) (scopes : List Nat) : State :=
  match firstHalted ((s.unitCmds u.key).filter (fun c => mask.testBit c.queue)) with
  | some (c, h) => s.takeTrap u (haltTrap u c h)
  | none =>
    let s1 := acquireSet s u.key u.pair true (coversAll (engScope scope :: scopes))
    s1.retireC (reread s1 u) 2

/-- QFENCE: it waits on the unit's commands in flight in the named queues. -/
def execQfence (f : CX) (s : State) : Out3 :=
  onCtl s (fun u =>
    let mask := f.imm.toNat
    let cs := (s.unitCmds u.key).filter (fun c => mask.testBit c.queue && c.inFlight)
    if cs.isEmpty then qfenceEnd s u mask f.scope.toNat []
    else s.waitC u (.qfence mask f.scope.toNat (cs.map Cmd.id) (cs.map Cmd.scope)))

/-- QFENCE_COMPLETE. -/
def execQfenceComplete (pair slot : Nat) (s : State) : Out3 :=
  match s.resident pair slot with
  | none => .next s
  | some u =>
    match u.ctx.ctl.wait with
    | .qfence mask scope ids scopes =>
      if s.cmds.any (fun c => ids.contains c.id && c.inFlight) then .next s else .next (qfenceEnd s u mask scope scopes)
    | _ => .next s

/-! ### TENQ (R225, R310) -/

/-- TENQ: the record is read once, as a plain load, and joins the tail of the job's spawn queue. -/
def execTenq (f : CX) (s : State) : Out3 :=
  onCtl s (fun u =>
    let va := (u.c f.ra).toNat
    let done (t : State) (x : Nat) : State := t.retireC (u.setC f.rd (BitVec.ofNat 64 x)) 2
    -- status 2, status 1, or what goes on with the job
    let goes (t : State) (go : Job → State) : State :=
      match t.job u.key.job with
      | none => done t 2
      | some j => if !u.launch.spn then done t 2 else if 256 ≤ j.spawn.length then done t 1 else go j
    match u.ctx.ctl.rcd.filter (fun x => x.1 == va) with
    | some (_, bs) => goes s (fun j => done (s.putJob { j with spawn := j.spawn ++ [(u.key.tidx, BitVec.ofNat 256 (leNat bs))] }) 0)
    | none =>
      match loadChecks s u va 32 with
      | .inr t => t
      | .inl t => goes t (fun _ => accessC s u va 32 .load .record 2 none none))

end Sys2Proof.Machine
end

