-- ==== Sys2Proof/Machine/Chute.lean ====
section
/-!
DEFINITION. Feeding and hearing the data slice from the control slice (R165, R166, R174, R307, R308).
-/

namespace Sys2Proof.Machine

/-- The check of R166 on an entry. -/
def pushOk (u : UnitSt) (index tail : Nat) (xm : Bool) : Bool :=
  index < u.launch.entries.length && (if xm then tail == 0 else tail ≤ Config.width) && !u.ctx.dat.ended

/-- Push an entry and answer its sequence number (R166, R307). -/
def pushEntry (s : State) (u : UnitSt) (e : BitVec 256) (rd : BitVec 6) : State :=
  s.retireC ((u.modCtx (fun x => x.push e)).setC rd (BitVec.ofNat 64 u.ctx.chTail)) 2

/-- CHP and CHPM (R307): the check, then the push, which waits while 64 entries stand in the chute. -/
def chuteOp (f : CX) (xm : Bool) (s : State) : Out3 :=
  onCtl s (fun u =>
    let index := f.imm.toNat % 256
    let tail := f.imm.toNat / 256 % 256
    let e : BitVec 256 := BitVec.ofNat 256
      (index + 2 ^ 16 * tail + 2 ^ 24 * b2n xm + 2 ^ 32 * (u.c f.ra).toNat + 2 ^ 96 * (u.c f.rb).toNat + 2 ^ 160 * (u.c f.rc).toNat)
    if !pushOk u index tail xm then s.trapC u tcQueueState
    else if pantryPending u then s.waitC u .release
    else if chuteFull u.ctx then s.waitC u (.chute e f.rd)
    else pushEntry s u e f.rd)

def execChp (f : CX) (s : State) : Out3 := chuteOp f false s
def execChpm (f : CX) (s : State) : Out3 := chuteOp f true s

/-- CHUTE_PUSH_RESUME (R166, R167): there is room; the push, or EXIT's end marker, goes in. A push to a data slice that has ended
meanwhile traps QUEUE_STATE, and the marker is left out. -/
def execChutePushResume (pair slot : Nat) (s : State) : Out3 :=
  match s.resident pair slot with
  | none => .next s
  | some u =>
    match u.ctx.ctl.wait with
    | .chute e rd =>
      if u.ctx.dat.ended then .next (s.trapC u tcQueueState)
      else if chuteFull u.ctx then .next s
      else .next (pushEntry s u e rd)
    | .exiting 1 =>
      if u.ctx.dat.ended then .next (s.waitC u (.exiting 2))
      else if chuteFull u.ctx then .next s
      else .next (s.waitC (u.modCtx (fun x => { (x.push endMarker) with ctl := { x.ctl with marker := true } })) (.exiting 2))
    | _ => .next s

/-- What DWPOP does with the oldest entry (R308); none while it waits. -/
def popDw (s : State) (u : UnitSt) (rd : BitVec 6) (pred : Bool) : Option State :=
  match u.ctx.dw with
  | [] => if u.ctx.dat.done then some (s.trapC u tcQueueState) else none
  | .scalar x :: r =>
    if pred then some (s.trapC u tcQueueState)
    else some (s.retireC ((u.modCtx (fun c => { c with dw := r })).setC rd x) 2)
  | .pred x :: r =>
    if !pred then some (s.trapC u tcQueueState)
    else some (s.retireC (((u.modCtx (fun c => { c with dw := r })).setC rd (x.extractLsb' 0 64)).setC (rd + 1) (x.extractLsb' 64 64)) 2)

/-- DWPOP (R308). -/
def execDwpop (f : CX) (s : State) : Out3 :=
  onCtl s (fun u =>
    match popDw s u f.rd (f.sub.getLsbD 0) with
    | some t => t
    | none => s.waitC u (.dwpop f.rd (f.sub.getLsbD 0)))

/-- DWPOP_RESUME (R174, R308). -/
def execDwpopResume (pair slot : Nat) (s : State) : Out3 :=
  match s.resident pair slot with
  | none => .next s
  | some u =>
    match u.ctx.ctl.wait with
    | .dwpop rd pred => .next ((popDw s u rd pred).getD s)
    | _ => .next s

end Sys2Proof.Machine
end

