-- ==== Sys2Proof/Machine/Geometry.lean ====
section
/-!
DEFINITION. Where the elements of an engine command lie (R190, R365, R372, R373, R375, R381): the order of work, the address of
each element on both sides, and which lines of the pantry a command writes.
-/

namespace Sys2Proof.Machine

/-- Bytes of an element; for the 4-bit tags the byte that holds two values (R190). -/
def elemBytes (f : Nat) : Nat :=
  match f with
  | 2 => 8
  | 0 | 1 | 8 => 4
  | 3 | 4 | 9 => 2
  | _ => 1

def is4bit (f : Nat) : Bool := f == 7 || f == 12

/-! ### Regions (R195 to R197) -/

/-- A box: for each dimension origin, extent and the steps per unit x, y and z. -/
abbrev Box := List (Int × Nat × Int × Int × Int)

/-- The whole buffer as one box. -/
def wholeBox (b : Buf) : Box := b.ext.map (fun e => (0, e, 0, 0, 0))

/-- Lowest and highest value of Σ coordinate × stride over a box for a unit; none where an extent is 0. -/
def boxSpan (x y z : Nat) : Box → List Int → Option (Int × Int)
  | (o, e, ux, uy, uz) :: r, st :: sts =>
    if e == 0 then none
    else
      let a := o + ux * x + uy * y + uz * z
      let p := a * st
      let q := (a + e - 1) * st
      (boxSpan x y z r sts).map (fun h => (min p q + h.1, max p q + h.2))
  | _, _ => some (0, 0)

/-- The byte hull of a box for a unit (R196): its first byte and the byte after its last. -/
def boxHull (b : Buf) (box : Box) (x y z : Nat) : Option (Int × Int) :=
  (boxSpan x y z box b.str).map (fun h => ((b.base : Int) + h.1, (b.base : Int) + h.2 + elemBytes b.fmt))

/-- The rights of a class (R196). -/
def clsReads (c : Nat) : Bool := c == 1 || 4 ≤ c
def clsWrites (c : Nat) : Bool := 2 ≤ c

/-- Merge an interval with those that follow it, sorted by start (R197, step 2). -/
def mergeInto (cur : Interval) : List Interval → List Interval
  | [] => [cur]
  | j :: r => if j.lo ≤ cur.hi then mergeInto ⟨cur.lo, max cur.hi j.hi, cur.r || j.r, cur.w || j.w⟩ r else cur :: mergeInto j r

/-- Merge sorted intervals that overlap or touch (R197, step 2). -/
def mergeTouching : List Interval → List Interval
  | [] => []
  | i :: r => mergeInto i r

/-- The gaps of neighbouring intervals. -/
def gaps : List Interval → List Int
  | i :: j :: r => (j.lo - i.hi) :: gaps (j :: r)
  | _ => []

/-- Merge the neighbours number k. -/
def mergeNth : Nat → List Interval → List Interval
  | 0, i :: j :: r => ⟨i.lo, max i.hi j.hi, i.r || j.r, i.w || j.w⟩ :: r
  | k + 1, i :: r => i :: mergeNth k r
  | _, l => l

/-- While more than 8 remain, the neighbours with the smallest gap merge, the lower pair first on a tie (R197, step 3). -/
def mergeTo8 : Nat → List Interval → List Interval
  | 0, l => l
  | n + 1, l =>
    if l.length ≤ 8 then l
    else
      let gs := (range 0 (l.length - 1)).zip (gaps l)
      match leastBy (fun a b => decide (a.2 < b.2)) gs with
      | none => l
      | some (k, _) => mergeTo8 n (mergeNth k l)

/-- The check intervals of a unit (R197) from a task's operands. -/
def checkIntervals (ops : List Operand) (x y z : Nat) : List Interval :=
  let hulls := ops.flatMap (fun o => o.boxes.filterMap (fun b =>
    (boxHull o.buf b x y z).map (fun h => (⟨h.1, h.2, clsReads o.cls, clsWrites o.cls⟩ : Interval))))
  let l := mergeTouching (sortBy (fun a b => decide (a.lo < b.lo)) hulls)
  mergeTo8 l.length l

/-- A place in the address space: a byte range, or one nibble of a byte (some true: the high one). -/
structure Spot where
  addr : Nat
  size : Nat
  nib : Option Bool := none
  deriving DecidableEq, Repr, Inhabited

/-- Address arithmetic is modulo 2^64. -/
def wrap64 (x : Int) : Nat := natOf 64 x

/-- Σ ik × STRk. -/
def strideSum : List Nat → List Int → Int
  | i :: is, s :: ss => (i : Int) * s + strideSum is ss
  | _, _ => 0

/-- The place of an element on one side of a shaped copy (R373). -/
def sideSpot (base lay fmt esz : Nat) (str : List Int) (c : List Nat) : Spot :=
  if lay == 0 && is4bit fmt then
    let i0 := c.headD 0
    ⟨wrap64 ((base : Int) + (i0 / 2 : Nat) + strideSum (c.drop 1) (str.drop 1)), 1, some (i0 % 2 == 1)⟩
  else if lay == 0 then ⟨wrap64 ((base : Int) + strideSum c str), esz, none⟩
  else
    let md := lay + 1
    ⟨wrap64 ((base : Int) + (interleave md (c.take md) 21 * esz : Nat) + strideSum (c.drop md) (str.drop md)), esz, none⟩

/-- Coordinates with the first dimension fastest. -/
def linCoords : List Nat → Nat → List Nat
  | [], _ => []
  | x :: xs, e => e % x :: linCoords xs (e / x)

/-- Coordinates below ext that begin with a prefix and have r free bits. -/
def freeCount (ext pfx r : Nat) : Nat := if ext ≤ pfx then 0 else min (ext - pfx) (2 ^ r)

/-- Coordinates number e in increasing Morton index among those inside the extents: the bits are decided from the top. -/
def mortonNth (ext : List Nat) : Nat → Nat → List Nat → List Nat
  | 0, _, p => p
  | j + 1, e, p =>
    let md := ext.length
    let d := j % md
    let b := j / md
    let inHalf := ((range 0 md).map (fun k => freeCount (ext.getD k 0) (p.getD k 0) (if k < d then b + 1 else b))).foldl (· * ·) 1
    if e < inHalf then mortonNth ext j e p
    else mortonNth ext j (e - inHalf) (modIdx (fun x => x + 2 ^ b) p d)

/-- Coordinates of element e in the order of work over a layout (R373). -/
def workCoords (lay : Nat) (ext : List Nat) (e : Nat) : List Nat :=
  if lay == 0 then linCoords ext e
  else
    let md := lay + 1
    let inner := ext.take md
    let n := inner.foldl (· * ·) 1
    mortonNth inner (21 * md) (e % n) (inner.map (fun _ => 0)) ++ linCoords (ext.drop md) (e / n)

/-- Element size on a side of a shape record (R372). -/
def Shape.esize (sh : Shape) (fmt : Nat) : Nat := if fmt == 0 then 2 ^ sh.raw else elemBytes fmt

/-- Extents of the destination and of the source grid of a STAIR (R381). -/
def StairRec.fine (r : StairRec) : List Nat := r.ext.take r.dims
def StairRec.coarse (r : StairRec) : List Nat := r.fine.map (fun x => x / 2)
def StairRec.dstExt (r : StairRec) : List Nat := if r.prolong then r.fine else r.coarse
def StairRec.srcExt (r : StairRec) : List Nat := if r.prolong then r.coarse else r.fine

/-- Coordinates of destination element e of a STAIR. -/
def StairRec.coords (r : StairRec) (e : Nat) : List Nat := mortonNth r.dstExt (21 * r.dims) e (r.dstExt.map (fun _ => 0))

/-- Elements of a box list of FILL, box after box (R195, R210). -/
def boxCount (b : List (Int × Nat)) : Nat := (b.map Prod.snd).foldl (· * ·) 1

def boxElem : List (List (Int × Nat)) → Nat → Option (List (Int × Nat) × Nat)
  | [], _ => none
  | b :: bs, e => if e < boxCount b then some (b, e) else boxElem bs (e - boxCount b)

/-- The bitmap of a report-mode gather: ceil(N / 32) words (R377). -/
def bitmapBytes (n : Nat) : Nat := 4 * ((n + 31) / 32)

/-- Number of elements in the order of work (R365). -/
def Cmd.count (c : Cmd) : Nat :=
  match c.kind with
  | .cpyLin n => n
  | .cpyShp sh => sh.ext.foldl (· * ·) 1
  | .gath _ n _ _ _ _ | .scat _ n _ _ | .scata _ n _ _ _ => n
  | .stair r _ => r.dstExt.foldl (· * ·) 1
  | .subs _ size => size / 128
  | .fill boxes _ _ _ => (boxes.map boxCount).sum

/-- The row address of an element of a picker (R376). -/
def Cmd.rowAddr (c : Cmd) (e : Nat) : Nat :=
  match c.kind with
  | .gath st _ _ _ _ _ => wrap64 ((c.src : Int) + (c.idx.getD e 0 : Nat) * st)
  | .scat st _ _ _ | .scata st _ _ _ _ => wrap64 ((c.dst : Int) + (c.idx.getD e 0 : Nat) * st)
  | _ => 0

/-- The destination of element e; element N of a report-mode gather is its bitmap. -/
def Cmd.dstSpot (c : Cmd) (e : Nat) : Spot :=
  match c.kind with
  | .cpyLin _ => ⟨wrap64 (c.dst + e), 1, none⟩
  | .cpyShp sh => sideSpot c.dst sh.dlay sh.dfmt (sh.esize sh.dfmt) sh.dstr (workCoords sh.dlay sh.ext e)
  | .gath _ n row _ _ bmp => if e == n then ⟨bmp, bitmapBytes n, none⟩ else ⟨wrap64 (c.dst + e * row), row, none⟩
  | .scat _ _ row _ | .scata _ _ row _ _ => ⟨c.rowAddr e, row, none⟩
  | .stair r _ =>
    let esz := elemBytes r.dfmt
    ⟨wrap64 (c.dst + interleave r.dims (r.coords e) 21 * esz), esz, none⟩
  | .subs _ _ => ⟨wrap64 (c.dst + e * 128), 128, none⟩
  | .fill boxes str esz _ =>
    match boxElem boxes e with
    | none => ⟨c.dst, 0, none⟩
    | some (b, k) =>
      let is := linCoords (b.map Prod.snd) k
      let at_ := ((b.zip is).map (fun x => x.1.1 + (x.2 : Int)))
      ⟨wrap64 ((c.dst : Int) + ((at_.zip str).map (fun x => x.1 * x.2)).sum), esz, none⟩

/-- The region line that a window address names. -/
def windowLine (va : Nat) : Nat := (va - localWindow) / 128

/-- Region lines of a spot in the local window that lie in a region of some bytes (R364). -/
def spotLines (bytes : Nat) (sp : Spot) : List Nat :=
  let lo := max sp.addr localWindow
  let hi := min (sp.addr + sp.size) (localWindow + bytes)
  if hi ≤ lo then [] else range (windowLine lo) (windowLine (hi - 1) + 1 - windowLine lo)

/-- The elements that a command still has to write: from its next one on, or a picker's pending ones with its bitmap (R366,
R379). -/
def Cmd.restElems (c : Cmd) : List Nat :=
  match c.kind with
  | .gath _ n _ _ _ _ => c.todo ++ (c.failed.map Prod.fst).filter (fun e => e < n) ++ (if c.bitmap then [n] else [])
  | .scat _ _ _ _ | .scata _ _ _ _ _ => c.todo ++ c.failed.map Prod.fst
  | .cpyLin _ | .cpyShp _ | .stair _ _ | .subs _ _ | .fill _ _ _ _ => range c.next (c.count - c.next)

/-- The destination bytes of the elements whose sectors have not been checked. A linear run is one spot. -/
def Cmd.nextSpots (c : Cmd) : List Spot :=
  match c.kind with
  | .cpyLin n => if c.next < n then [⟨wrap64 (c.dst + c.next), n - c.next, none⟩] else []
  | .scat _ _ _ _ | .scata _ _ _ _ _ => if c.idx.isEmpty then [] else c.restElems.map c.dstSpot
  | .cpyShp _ | .gath _ _ _ _ _ _ | .stair _ _ | .subs _ _ | .fill _ _ _ _ => c.restElems.map c.dstSpot

/-- Where the destination bytes lie that a command still has to write. A landing of a resumed image that counts nothing has been written
before (R369). -/
def Cmd.restSpots (c : Cmd) : List Spot :=
  ((c.landings.filter (fun l => l.cnt != 0)).map (fun l => (⟨l.va, l.data.length, none⟩ : Spot))) ++
  (c.sent.map (fun l => (⟨l.2.va, l.2.data.length, none⟩ : Spot))) ++ (c.kept.map (fun w => (⟨w.addr, 1, none⟩ : Spot))) ++ c.nextSpots

/-- The region lines that hold a destination byte still to write, of the commands that act on line states (R53). -/
def Cmd.restLines (c : Cmd) (bytes : Nat) : List Nat :=
  match c.kind with
  | .scat _ _ _ _ | .scata _ _ _ _ _ => []
  | .cpyLin _ | .cpyShp _ | .gath _ _ _ _ _ _ | .stair _ _ | .subs _ _ | .fill _ _ _ _ =>
    (c.restSpots.flatMap (spotLines bytes)).eraseDups

/-- The command as it stood before its first element: its whole destination is still to write. -/
def Cmd.whole (c : Cmd) : Cmd :=
  { c with next := 0, todo := range 0 c.count, failed := [], landings := [], kept := [], sent := []
           bitmap := (match c.kind with | .gath _ _ _ _ r _ => r | _ => false) }

/-- The command's destination holds a region line (R368). -/
def Cmd.holdsLine (c : Cmd) (bytes line : Nat) : Bool := (c.whole.restLines bytes).contains line

/-- The halt record that a read of a poisoned line reports (R368): of the oldest halted command of the region's unit whose
destination holds the line; a held command's lines report the halted command in front of it. -/
def poisonHalt (s : State) (u : UnitSt) (line : Nat) : Option (Cmd × HaltRec) :=
  let mine := s.unitCmds u.key
  match firstHalted (mine.filter (fun c => c.holdsLine u.regionBytes line)) with
  | some x => some x
  | none =>
    match mine.find? (fun c => c.stuck && c.holdsLine u.regionBytes line) with
    | some c => firstHalted (mine.filter (fun x => x.queue == c.queue))
    | none => none

end Sys2Proof.Machine
end

