-- ==== Sys2Proof/Machine/Operands.lean ====
section
/-!
DEFINITION. The operand forms of the data slice (R239 to R244, R267, R311 to R313, R330) and how a data instruction ends: traps,
waits, its writes, its flags, last-read marks and the selector (R168 to R170, R242, R271, R272).
-/

namespace Sys2Proof.Machine

/-! ### How a data instruction stops -/

/-- A data instruction that does not complete now: it traps, it waits, or its turn ends in another state and it is tried again. -/
inductive Stop where
  | trap (t : Trap)
  | wait (w : DatWait)
  | hold (s : State)
  deriving Repr

/-- A trap of the data instruction at the PC; matrix majors report source 5 (R401). -/
def dstop (u : UnitSt) (mat : Bool) (code : Nat) (addr : Nat := 0) (info : Nat := 0) : Stop := .trap (datTrap u mat code addr info)

/-- What a completed data instruction does: memory and other units, its own registers, and the flags of its elements. -/
structure Eff where
  st : State
  upd : UnitSt → UnitSt
  flags : List (Nat × Nat) := []

/-- Check a condition. -/
def need (b : Bool) (e : Stop) : Except Stop Unit := if b then .ok () else .error e

/-! ### Registers (R172, R239) -/

def UnitSt.v (u : UnitSt) (i : BitVec 6) : VState := u.ctx.dat.v[i.toNat]'i.isLt

/-- Class S: s0 to s31, then eb, en, it, ea0 to ea3 zero-extended. -/
def UnitSt.sreg (u : UnitSt) (i : BitVec 6) : Nat :=
  let d := u.ctx.dat
  if i.toNat < 32 then (d.s.toArray.getD i.toNat 0).toNat
  else match i.toNat with
    | 32 => d.eb.toNat
    | 33 => d.en.toNat
    | 34 => d.it.toNat
    | 35 => (d.ea.toArray.getD 0 0).toNat
    | 36 => (d.ea.toArray.getD 1 0).toNat
    | 37 => (d.ea.toArray.getD 2 0).toNat
    | _ => (d.ea.toArray.getD 3 0).toNat

def UnitSt.mreg (u : UnitSt) (i : Nat) : Mask := u.ctx.dat.m.toArray.getD i 0

/-- ma is m0 (R170). -/
def UnitSt.ma (u : UnitSt) : Mask := u.mreg 0

def UnitSt.setS (u : UnitSt) (i : BitVec 6) (x : Nat) : UnitSt :=
  u.modCtx (fun c => { c with spoison := c.spoison.filter (fun r => r != i.toNat)
                              dat := { c.dat with s := c.dat.s.setIfInBounds i.toNat (BitVec.ofNat 64 x) } })

/-- A write of a whole mask register clears its marks (R476). -/
def UnitSt.setM (u : UnitSt) (i : BitVec 6) (x : Mask) : UnitSt :=
  u.modCtx (fun c => { c with mpoison := c.mpoison.filter (fun r => r.1 != i.toNat), dat := { c.dat with m := c.dat.m.setIfInBounds i.toNat x } })

/-- The same for a write of some lanes: a marked half that no lane of is written stays marked (R476). -/
def UnitSt.setMLanes (i : BitVec 6) (x : Mask) (written : Nat → Bool) (u : UnitSt) : UnitSt :=
  let kept := u.ctx.mpoison.filter (fun r => r.1 == i.toNat && !(range (64 * r.2) 64).any written)
  (u.setM i x).modCtx (fun c => { c with mpoison := c.mpoison ++ kept })

def UnitSt.setV (u : UnitSt) (i : Nat) (f : VState → VState) : UnitSt :=
  u.modDat (fun d => { d with v := d.v.setIfInBounds i (f (d.v.toArray.getD i {})) })

/-- The effective mask (R240). -/
def effMask (u : UnitSt) (f : D64) : Mask := if f.msel == 0 then u.ma else u.ma &&& u.mreg f.msel.toNat

/-- The rounding mode (R244, R269): 0 RNE, 1 RZ, 2 RU, 3 RD. -/
def fpRm (u : UnitSt) (f : D64) : Nat := if f.rm == 0 then u.ctx.ctl.fpmode.toNat % 4 else f.rm - 1

def fpFtz (u : UnitSt) : Bool := u.ctx.ctl.fpmode.getLsbD 2

/-! ### Step 1: the register checks (R172, R175, R234) -/

/-- ILLEGAL_OP with a cause and its value (R234). -/
def illegalOp (u : UnitSt) (mat : Bool) (cause value : Nat) : Stop := dstop u mat tcIllegalOp 0 (cause + 256 * (value % 256))

/-- The unit may name a vector register (R175). -/
def vregOk (u : UnitSt) (i : Nat) : Bool := i < 32 || (u.launch.regs64 && u.ctx.ext)

/-- Cause 5 for the first vector register, in the order of R267, that the unit may not name. -/
def vregCheck (u : UnitSt) (mat : Bool) (regs : List (BitVec 6)) : Except Stop Unit :=
  match regs.find? (fun i => !vregOk u i.toNat) with
  | none => .ok ()
  | some i => .error (illegalOp u mat 5 i.toNat)

/-- Cause 6: an entry register as destination (R172). -/
def sdstCheck (u : UnitSt) (i : BitVec 6) : Except Stop Unit := need (i.toNat < 32) (illegalOp u false 6 i.toNat)

/-- Cause 6: m0 as destination (R239). -/
def mdstCheck (u : UnitSt) (i : BitVec 6) : Except Stop Unit := need (i != 0) (illegalOp u false 6 0)

/-! ### Step 2: tags (R267) -/

/-- The tag check of one operand: position 0 va, 1 vb, 2 vc, 3 destination; reg is 64 + n for tile zn. -/
def tagCheck (u : UnitSt) (mat : Bool) (pos reg tag : Nat) (ok : Nat → Bool) : Except Stop Nat :=
  let info := pos + 16 * tag + 256 * reg
  if tag == 15 then .error (dstop u mat tcUninit 0 info)
  else if ok tag then .ok tag
  else .error (dstop u mat tcFormat 0 info)

/-- The tag check of a vector register. -/
def vtag (u : UnitSt) (pos : Nat) (i : BitVec 6) (ok : Nat → Bool) : Except Stop Nat :=
  tagCheck u false pos i.toNat (u.v i).tag.toNat ok

/-- Any tag: 0 to 13 (R268). -/
def anyTag (t : Nat) : Bool := t ≤ 13

/-- The element format (R313): the suffix, or the tag of va; va is checked here. -/
def elemFormat (u : UnitSt) (f : D64) (acc : List Nat) : Except Stop Nat :=
  if f.fmt == 0 then vtag u 0 f.va acc.contains else vtag u 0 f.va (fun t => t == f.fmt)

/-! ### Step 4: empty registers and poisoned ones (R241, R476) -/

/-- A read of an empty register traps with its bit set, and waits otherwise. -/
def emptyCheck (u : UnitSt) (mat : Bool) (regs : List (BitVec 6 × Bool)) : Except Stop Unit :=
  let es := regs.filter (fun r => (u.v r.1).empty)
  if es.isEmpty then .ok ()
  else if es.any Prod.snd then .error (dstop u mat tcFeEmpty)
  else .error (.wait .register)

/-- A read of a poisoned register traps ECC_DATA (R437, R476). -/
def poisonCheck (u : UnitSt) (mat : Bool) (vs ss : List (BitVec 6)) : Except Stop Unit :=
  need (vs.all (fun i => (u.v i).poison == 0) && ss.all (fun i => !u.ctx.spoison.contains i.toNat)) (dstop u mat tcEccData)

/-! ### Writing a register (R240, R264, R476) -/

/-- New bits of a register and which bits they are. -/
structure RegW where
  val : Nat
  cov : Nat
  deriving DecidableEq, Repr

/-- A write of elements of a format; none keeps an element. -/
def elemsW (f : Nat) (l : List (Option Nat)) : RegW :=
  ⟨packElems (fmtBits f) (l.map (fun o => o.getD 0)), packElems (fmtBits f) (l.map (fun o => if o.isSome then 2 ^ fmtBits f - 1 else 0))⟩

/-- A write of whole lanes. -/
def lanesW (l : List (Option Nat)) : RegW := elemsW 0 l

/-- Some poisoned 64-bit unit is covered in part only. -/
def RegW.splits (w : RegW) (p : BitVec 64) : Bool :=
  (range 0 64).any (fun i => p.getLsbD i && w.cov / 2 ^ (64 * i) % 2 ^ 64 != 0 && w.cov / 2 ^ (64 * i) % 2 ^ 64 != 2 ^ 64 - 1)

/-- The register after a write: full, with the tag, and with the marks of wholly covered units cleared. -/
def RegW.apply (w : RegW) (tag : Nat) (x : VState) : VState :=
  { val := (x.val &&& ~~~(BitVec.ofNat 4096 w.cov)) ||| BitVec.ofNat 4096 (w.val &&& w.cov)
    tag := BitVec.ofNat 4 tag, empty := false
    poison := BitVec.ofNat 64 (packElems 1 ((range 0 64).map (fun i => b2n (x.poison.getLsbD i && w.cov / 2 ^ (64 * i) % 2 ^ 64 != 2 ^ 64 - 1)))) }

/-- The update that writes vd, refused where it would cover part of a poisoned unit (R476). A write that keeps old bits of a register
which an MRDV is still to write waits for them (R343, assumption 86). -/
def writeV (u : UnitSt) (i : BitVec 6) (w : RegW) (tag : Nat) : Except Stop (UnitSt → UnitSt) :=
  if (u.v i).empty && w.cov != 2 ^ 4096 - 1 then .error (.wait .register)
  else if w.splits (u.v i).poison then .error (dstop u false tcEccData)
  else .ok (fun x => x.setV i.toNat (w.apply tag))

/-- Element e of an instruction of mark E (R240, R312): its result when active, zero or kept otherwise. -/
def maskElem (f : Nat) (em : Mask) (z : Bool) (e x : Nat) : Option Nat :=
  if active e f em then some x else if z then some 0 else none

/-- The results of an element-wise instruction over a register (R240, R312, R316): g is asked for active elements only. -/
def mapElems (f : Nat) (em : Mask) (z : Bool) (g : Nat → Nat × Nat) : List (Option Nat × Nat) :=
  (range 0 (numElem f)).map (fun e =>
    if active e f em then
      let r := g e
      (some r.1, r.2)
    else (if z then some 0 else none, 0))

/-- The flags of each element with its index. -/
def elemFlags (l : List (Option Nat × Nat)) : List (Nat × Nat) :=
  ((range 0 l.length).zip (l.map Prod.snd)).filter (fun p => p.2 != 0)

/-! ### Sequencing (R168 to R171) -/

/-- A mask of the low n lanes. -/
def lowLanes (n : Nat) : Mask := BitVec.ofNat 128 (2 ^ n - 1)

/-- ActiveMask (R170) from the entry registers. -/
def activeMask (d : Dat) (it : Nat) : Mask :=
  if d.xm then d.ea.toArray.getD 3 0 ++ d.ea.toArray.getD 2 0 ++ d.ea.toArray.getD 1 0 ++ d.ea.toArray.getD 0 0
  else if d.en.toNat == 0 then 0
  else if it + 1 < d.en.toNat || d.tail == 0 then lowLanes Config.width
  else lowLanes d.tail

/-- The data slice ends (R159, R169): at once, or once its matrix commands have completed; entries left are discarded. -/
def Ctx.endData (queued : Bool) (x : Ctx) : Ctx :=
  { x with chute := [], dat := { x.dat with done := !queued, stopped := queued, wait := .none } }

/-- The unit has matrix commands queued or running on its pair. -/
def State.queuedMatrix (s : State) (u : UnitSt) : Bool := (s.pairOf u.pair).mq.any (fun c => c.unit == u.key)

/-- The next-address selector (R169). -/
def selectNext (s : State) (u : UnitSt) (nas : BitVec 2) : UnitSt :=
  let u := u.modDat (fun d => { d with lanes := [] })
  let d := u.ctx.dat
  match nas.toNat with
  | 0 => u.modDat (fun d => { d with pc := d.pc + 2, mode := .walk, wait := .none })
  | 1 =>
    let it := min (d.it.toNat + 1) (2 ^ 32 - 1)
    let go (d : Dat) : Dat := { d with it := BitVec.ofNat 32 it, wait := .none }
    let u := u.setM 0 (activeMask d it)
    if it < d.en.toNat then u.modDat (fun d => { go d with pc := d.head, mode := .transfer })
    else u.modDat (fun d => { go d with pc := d.pc + 2, mode := .walk })
  | 2 => u.modDat (fun d => { d with wait := .pop })
  | _ => u.modCtx (Ctx.endData (s.queuedMatrix u))

/-! ### Completion (R242, R271, R272, R311) -/

/-- The lowest element that raises an enabled flag (R272). -/
def enabledFlag (u : UnitSt) (flags : List (Nat × Nat)) : Option Nat :=
  let en := u.ctx.ctl.fpmode.toNat / 8 % 32
  leastBy (fun a b => decide (a < b)) ((flags.filter (fun p => p.2 &&& en != 0)).map Prod.fst)

def allFlags (flags : List (Nat × Nat)) : Nat := flags.foldl (fun a p => a ||| p.2) 0

/-- Last-read marks (R242): the marked source's tag becomes UNINIT. -/
def markRead (f : D64) (u : UnitSt) : UnitSt :=
  let m (b : Bool) (i : BitVec 6) (u : UnitSt) : UnitSt := if b then u.setV i.toNat (fun x => { x with tag := 15 }) else u
  m f.lb f.vb (m f.la f.va u)

/-- Steps 6 to 8 of R311. -/
def finishD (u : UnitSt) (f : D64) (e : Eff) : State :=
  match enabledFlag u e.flags with
  | some i => e.st.takeTrap u (datTrap u false tcFpTrap 0 (allFlags e.flags % 32 + 256 * (i % 256)))
  | none =>
    let v := (e.st.findUnit u.key).getD u
    let w := (e.upd (markRead f v)).modCtl (fun c => { c with fpflags := c.fpflags ||| BitVec.ofNat 6 (allFlags e.flags) })
    e.st.putUnit ((selectNext e.st w f.nas).stamped e.st.cycle)

/-- The data slice waits; the instruction has not performed (R55). -/
def State.waitD (s : State) (u : UnitSt) (w : DatWait) : State := s.putUnit (u.modDat (fun d => { d with wait := w }))

/-- Run a data instruction: g gives its effect, or why it stops. -/
def dataOp (f : D64) (g : State → UnitSt → Except Stop Eff) (s : State) : Out3 :=
  onDat s (fun u =>
    match g s u with
    | .error (.trap t) => s.takeTrap u t
    | .error (.wait w) => s.waitD (u.modDat (fun d => { d with lanes := [] })) w
    | .error (.hold t) => t
    | .ok e => finishD u f e)

/-! ### Pantry addresses (R13, R14, R330) -/

/-- s[B] + off, with the K form of imm6 (R330). -/
def pantryAddr (u : UnitSt) (mat : Bool) (base off : Nat) (k : BitVec 6) : Except Stop Nat :=
  let a := (base + off) % 2 ^ 64
  if 2 ^ 25 ≤ a then .error (dstop u mat tcPantryRange a)
  else if k.getLsbD 4 then .ok (2 ^ 24 + (k.toNat % 16) * 2 ^ 20 + a % 2 ^ 20)
  else .ok a

/-- The unit whose region a pantry address names (R14). -/
def regionOwner (s : State) (u : UnitSt) (a : Nat) : Option UnitSt :=
  let cpi := a / 2 ^ 20 % 16
  if !a.testBit 24 || cpi == u.pair % 16 then some u
  else
    let tgt := u.pair / 16 * 16 + cpi
    leastBy (fun x y => decide (x.slot < y.slot)) ((s.occupants tgt).filter (fun v =>
      v.key.job == u.key.job && v.key.tidx == u.key.tidx && (match v.place with | .restoring _ _ => false | _ => true)))

/-- Resolve a pantry address for n bytes from its offset (R14): the owner and the offset in its region. -/
def resolve (s : State) (u : UnitSt) (mat : Bool) (a n : Nat) : Except Stop (UnitSt × Nat) :=
  match regionOwner s u a with
  | none => .error (dstop u mat tcPantryRange a)
  | some v => if v.regionBytes < a % 2 ^ 20 + n then .error (dstop u mat tcPantryRange a) else .ok (v, a % 2 ^ 20)

/-- The pantry address that reports an offset of a region (R54). -/
def reportAddr (u v : UnitSt) (off : Nat) : Nat := if v.key = u.key then off else 2 ^ 24 + (v.pair % 16) * 2 ^ 20 + off

/-! ### Line states (R52 to R54) -/

def UnitSt.lineState (v : UnitSt) (l : Nat) : Nat := cellGet 0 v.ctx.lines l

/-- A line takes a state by something other than landings: reading it acquires nothing (R58). -/
def UnitSt.setLine (l st : Nat) (v : UnitSt) : UnitSt :=
  v.modCtx (fun c => { c with lines := cellPut 0 c.lines l st, landed := c.landed.filter (fun x => x != l) })

/-- A line goes full by the landings of a command (R53, R58). -/
def UnitSt.landLine (l : Nat) (v : UnitSt) : UnitSt := (v.setLine l 0).modCtx (fun c => { c with landed := l :: c.landed })

/-- Lines go empty (R53); bytes that stood unread in them are counted (R388). -/
def UnitSt.emptyLines (ls : List Nat) (v : UnitSt) : UnitSt :=
  let lost := v.ctx.unread.filter (fun x => ls.contains x.line)
  let v := if lost.isEmpty then v
    else v.modCtx (fun c => { c with
      unread := c.unread.filter (fun x => !ls.contains x.line)
      early := c.early.set 1 ((c.early[1] + (lost.map Unread.bytes).sum) % 2 ^ 64) })
  ls.foldl (fun v l => v.setLine l 1) v

/-- The lines of byte ranges of a region, each once, in order. -/
def spanLines (spans : List (Nat × Nat)) : List Nat :=
  (spans.flatMap (fun p => if p.2 == 0 then [] else range (p.1 / 128) ((p.1 + p.2 - 1) / 128 - p.1 / 128 + 1))).eraseDups

/-- The record fields of FE_POISON (R401). -/
def poisonTrap (s : State) (u v : UnitSt) (mat : Bool) (l : Nat) : Trap :=
  let t := datTrap u mat tcFePoison 0 (reportAddr u v (128 * l) % 2 ^ 25)
  match poisonHalt s v l with
  | none => t
  | some (c, h) => { t with addr := h.addr, hcode := h.hcode, hq := c.queue + 2, offset := h.offset }

/-- The line-state check of R54 on all lines that an instruction reads, each with the owner of its region. -/
def lineCheck (s : State) (u : UnitSt) (mat : Bool) (bit : Bool) (lines : List (UnitSt × Nat)) : Except Stop Unit :=
  match lines.find? (fun l => l.1.lineState l.2 == 2) with
  | some l => .error (.trap (poisonTrap s u l.1 mat l.2))
  | none =>
    match lines.find? (fun l => l.1.lineState l.2 == 1) with
    | none => .ok ()
    | some l =>
      if bit then .error (dstop u mat tcFeEmpty (reportAddr u l.1 (128 * l.2)))
      else .error (.wait (.line (lines.map (fun l => (l.1.key, l.2, l.1.lineState l.2)))))

/-- The first data-slice read of lines that landed unread counts for their owner (R388). -/
def noteReads (lines : List Nat) (now : Nat) (v : UnitSt) : UnitSt :=
  let got := v.ctx.unread.filter (fun x => lines.contains x.line)
  if got.isEmpty then v
  else v.modCtx (fun c =>
    let e (i : Nat) : Nat := c.early.toArray.getD i 0
    { c with unread := c.unread.filter (fun x => !lines.contains x.line)
             early := #v[(e 0 + (got.map Unread.bytes).sum) % 2 ^ 64, e 1, (e 2 + (got.map (fun x => now - x.since)).sum) % 2 ^ 64, (e 3 + got.length) % 2 ^ 64] })

/-- The data slice of u reads full lines: what landed unread is counted (R388), and a line that landings have filled makes the read an
acquire at .pair (R58, R111). -/
def readLines (s : State) (u : UnitSt) (lines : List (UnitSt × Nat)) : State :=
  let s := if lines.any (fun l => l.1.ctx.landed.contains l.2) then mergeBack s u.pair u.key.job true else s
  ((lines.map (fun l => l.1.key)).eraseDups).foldl (fun t k =>
    t.modUnit k (noteReads ((lines.filter (fun l => l.1.key == k)).map Prod.snd) t.cycle)) s

/-! ### Order with matrix commands (R343) -/

/-- K of a matrix command. -/
def MCmd.k (c : MCmd) : Nat := c.sc % 1024

/-- Bytes of the operands of MMA and MMAS (R347). -/
def mmABytes (op k fa : Nat) : Nat := 64 * (if op == 0x71 then k / 2 else k) * fmtBits fa / 8
def mmBBytes (k fb : Nat) : Nat := 64 * k * fmtBits fb / 8

/-- The operand formats of MMA and MMAS (R344). -/
def fmtA (f : D64) : Nat := f.fmt
def fmtB (f : D64) : Nat := (f.x16.extractLsb' 7 4).toNat

/-- The pantry ranges that a queued command reads and writes, as pantry addresses with sizes. -/
def MCmd.reads (c : MCmd) : List (Nat × Nat) :=
  match c.op with
  | 0x70 | 0x71 => [(c.addr, mmABytes c.op c.k (fmtA c.f)), (c.addr2, mmBBytes c.k (fmtB c.f))]
  | 0x74 => [(c.addr, 512 * fmtBits c.f.fn.toNat)]
  | _ => []

def MCmd.writes (c : MCmd) : List (Nat × Nat) :=
  match c.op with
  | 0x73 => [(c.addr, 512 * fmtBits c.f.fn.toNat)]
  | _ => []

/-- A later access of the data slice to n bytes at a physical address waits for a queued command of its own (R343). -/
def matrixHolds (s : State) (u : UnitSt) (store : Bool) (pa n : Nat) : Bool :=
  ((s.pairOf u.pair).mq.filter (fun c => c.unit == u.key)).any (fun c =>
    (if store then c.reads ++ c.writes else c.writes).any (fun r =>
      match regionOwner s u r.1 with
      | none => false
      | some v => overlap (v.pantryPa (r.1 % 2 ^ 20)) r.2 pa n))

/-! ### Reading and writing the pantry (R54, R70, R154, R311, R476) -/

/-- The first line of a byte range of a region in which a poisoned word of the range lies. -/
def poisonedLine (s : State) (v : UnitSt) (p : Nat × Nat) : Option Nat :=
  (range (p.1 / 128) ((p.1 + p.2 + 127) / 128 - p.1 / 128)).find? (fun l =>
    let lo := max p.1 (128 * l)
    s.poisoned (v.pantryPa lo) (min (p.1 + p.2) (128 * l + 128) - lo))

/-- Read byte ranges of a region: line states, order with matrix commands, ECC, then the bytes. -/
def pantryRead (s : State) (u v : UnitSt) (mat bit : Bool) (spans : List (Nat × Nat)) : Except Stop (State × List (List Byte)) := do
  let lines := spanLines spans
  lineCheck s u mat bit (lines.map (fun l => (v, l)))
  need (!spans.any (fun p => matrixHolds s u false (v.pantryPa p.1) p.2)) (.wait .matrixOrder)
  match spans.find? (fun p => s.poisoned (v.pantryPa p.1) p.2) with
  | some p =>
    .error (dstop u mat tcEccData (reportAddr u v (if mat then ((poisonedLine s v p).map (fun l => 128 * l)).getD p.1 else p.1)))
  | none => .ok (readLines s u (lines.map (fun l => (v, l))), spans.map (fun p => (s.bytesAt (v.pantryPa p.1) p.2).map TByte.v))

/-- The parts of a write that reach an active mirror of the region's owner, with their home addresses, and the rest. -/
def mirrorPart (s : State) (v : UnitSt) (off : Nat) (bs : List Byte) : List (Subscription × Nat × List Byte) :=
  (s.subs.filter (fun b => b.unit == v.key && b.active && overlap b.off b.size off bs.length)).map (fun b =>
    let lo := max b.off off
    let hi := min (b.off + b.size) (off + bs.length)
    (b, lo - b.off, sliceOf bs (lo - off) (hi - lo)))

/-- Every byte of the write lies outside the active mirrors. -/
def clearOfMirrors (s : State) (v : UnitSt) (off n : Nat) : Bool :=
  !s.subs.any (fun b => b.unit == v.key && b.active && overlap b.off b.size off n)

/-- Write plain pantry bytes one by one where no mirror holds them. -/
def writePantry (s : State) (v : UnitSt) (off : Nat) : List Byte → State
  | [] => s
  | b :: bs =>
    let t := if clearOfMirrors s v off 1 then s.setByte (v.pantryPa off) { v := b } else s
    writePantry t v (off + 1) bs

/-- The physical runs that bytes of a mirror go to: address and bytes. -/
def mirrorRuns (x : Subscription × Nat × List Byte) : List (Nat × List Byte) :=
  (spanParts x.1.spans 0 x.2.1 x.2.2.length).map (fun q => (q.2.1, sliceOf x.2.2 (q.1 - x.2.1) q.2.2))

/-- Write the parts of mirrors at the home, in order (R67, R70). -/
def writeHome : List (Nat × List Byte) → State → Option State
  | [], s => some s
  | (pa, bs) :: r, s =>
    match cohWriteN (pieces bs.length) s pa (sealList 0 pa bs) with
    | none => none
    | some (t, _) => writeHome r t

/-- Writes of one instruction in the order of their offsets, adjacent ones joined: which units of ECC it covers whole (R476). -/
def joinWrites (ws : List (Nat × List Byte)) : List (Nat × List Byte) :=
  (sortBy (fun (a b : Nat × List Byte) => decide (a.1 < b.1)) ws).foldr (fun w r =>
    match r with
    | [] => [w]
    | x :: y => if w.1 + w.2.length == x.1 then (w.1, w.2 ++ x.2) :: y else w :: r) []

/-- The first part of a mirror that the unit may not write (R25, R154). -/
def mirrorRefused (u : UnitSt) (parts : List (Subscription × Nat × List Byte)) : Option (Subscription × Nat × List Byte) :=
  parts.find? (fun p => !mirrorOk u p.1 (p.1.gbase + p.2.1) p.2.2.length false)

/-- Store byte strings into a region: region check of mirror bytes, whether their homes are backed (R16, R17), order with matrix commands,
ECC, then the writes; line states are neither checked nor changed (R53, R330). -/
def pantryStore (s : State) (u v : UnitSt) (mat : Bool) (ws : List (Nat × List Byte)) : Except Stop State := do
  let parts := ws.flatMap (fun w => mirrorPart s v w.1 w.2)
  match mirrorRefused u parts with
  | some p => .error (dstop u mat tcRegion (reportAddr u v (p.1.off + p.2.1)))
  | none => pure ()
  match parts.find? (fun p => (mirrorRuns p).any (fun q => !backed s q.1)) with
  | some p => .error (dstop u mat tcPageAttr (reportAddr u v (p.1.off + p.2.1)) (xinfo 10 7 1))
  | none => pure ()
  if !mat then
    need (!ws.any (fun w => matrixHolds s u true (v.pantryPa w.1) w.2.length)) (.wait .matrixOrder)
  let js := joinWrites ws
  match js.find? (fun w => s.partPoison (v.pantryPa w.1) w.2.length) with
  | some j =>
    let first := ws.find? (fun w => j.1 ≤ w.1 && w.1 < j.1 + j.2.length && s.poisoned (v.pantryPa w.1) w.2.length)
    .error (dstop u mat tcEccData (reportAddr u v ((first.map Prod.fst).getD j.1)))
  | none => pure ()
  let parts := js.flatMap (fun w => mirrorPart s v w.1 w.2)
  match parts.find? (fun p => (mirrorRuns p).any (fun q => s.partPoison q.1 q.2.length)) with
  | some p => .error (dstop u mat tcEccData (reportAddr u v (p.1.off + p.2.1)))
  | none => pure ()
  match writeHome (parts.flatMap mirrorRuns) s with
  | none => .error (.hold s)
  | some t =>
    .ok (js.foldl (fun t w =>
      let t := if clearOfMirrors t v w.1 w.2.length then t.clearPoison (v.pantryPa w.1) w.2.length else t
      noteWrite (writePantry t v w.1 w.2) (v.pantryPa w.1) w.2.length) t)

end Sys2Proof.Machine
end

