-- ==== Sys2Proof/Machine/Engine.lean ====
section
/-!
DEFINITION. The engine commands of the control slice at issue (R361 to R364, R371, R375, R380, R384 to R388): CPY, GATH, SCAT,
SCATA, STAIR, SUBS, UNSUB, the counter instructions and ENGQ, with the steps that end their waits.
-/

namespace Sys2Proof.Machine

/-! ### The fields and checks that the queued commands share (R362, R363) -/

/-- The counter that a queued command names (R362). -/
def cmdCounter (f : CX) : Option Nat := if f.imm.getLsbD 8 then some (f.imm.toNat % 256) else none

/-- An address lies in the local window (R11). -/
def inWindow (va : Nat) : Bool := localWindow ≤ va && va < 2 ^ 57

/-- ENG_DESC with the lowest cause that holds (R363). -/
def engDesc (s : State) (u : UnitSt) (causes : List Nat) : Option State :=
  (leastBy (fun a b => decide (a < b)) causes).map (fun c => s.trapC u tcEngDesc 0 c)

/-- A cause that holds under a condition. -/
def causeIf (b : Bool) (c : Nat) : List Nat := if b then [c] else []

/-- Cause 1: the counter is not declared (R61). -/
def counterCause (u : UnitSt) (k : Option Nat) : List Nat :=
  match k with
  | some k => causeIf (u.launch.counters ≤ k) 1
  | none => []

/-- Cause 5: a destination byte in an active mirror of the resident (R70). -/
def mirrorCause (s : State) (u : UnitSt) (c : Cmd) : List Nat :=
  causeIf (c.whole.restSpots.any (fun sp => s.subs.any (fun b =>
    b.unit == u.key && b.active && overlap (localWindow + b.off) b.size sp.addr sp.size))) 5

/-- A command as the resident issues it. -/
def newCmd (s : State) (u : UnitSt) (f : CX) (queue dst src : Nat) (kind : CmdKind) : Cmd :=
  { id := 0, unit := u.key, task := false, pair := u.pair, queue := queue, scope := f.scope.toNat, ctr := cmdCounter f
    cls := u.launch.cls, key := s.keyGenOf u, dst := dst, src := src, kind := kind, status := .issued
    todo := match kind with
      | .gath _ n _ _ _ _ | .scat _ n _ _ | .scata _ n _ _ _ => range 0 n
      | .cpyLin _ | .cpyShp _ | .stair _ _ | .subs _ _ | .fill _ _ _ _ => []
    bitmap := match kind with
      | .gath _ _ _ _ r _ => r
      | .cpyLin _ | .cpyShp _ | .scat _ _ _ _ | .scata _ _ _ _ _ | .stair _ _ | .subs _ _ | .fill _ _ _ _ => false }

/-- The earlier stores of the slice have performed at C, and those to any byte that the command reads have performed (R133). -/
def readyToIssue (u : UnitSt) (scope : Nat) : Bool := u.ctx.ctl.flight.isEmpty && drained u (engScope scope)

/-- Issue (R133, R364): a release at C; the destination lines go empty; the command takes its slot and the instruction
completes. -/
def issueCmd (s : State) (u : UnitSt) (c : Cmd) : State :=
  let s1 := releaseFx s u.key u.pair (engScope c.scope)
  let u1 := UnitSt.emptyLines (c.restLines u.regionBytes) (reread s1 u)
  State.retireC { s1 with cmds := s1.cmds ++ [{ c with id := s1.fresh }], fresh := s1.fresh + 1 } u1 2

/-- The number by which a resident waits for a slot of a queue, if it does: a command that found the queue full, or a SUBS that waits for
its home. -/
def UnitSt.queueTicket (u : UnitSt) (queue : Nat) : Option Nat :=
  match u.ctx.ctl.wait with
  | .queue c => if c.queue == queue then some c.id else none
  | .subs _ id _ _ _ _ _ _ => if queue == 0 then some id else none
  | _ => none

/-- A queue has a slot for the command of a number: also once every resident of the pair that has waited longer has taken one, so that no
command waits behind another resident's later one (R361). -/
def queueHasSlot (s : State) (pair queue ticket : Nat) : Bool :=
  let before := s.units.filter (fun u => u.running && u.pair == pair && (match u.queueTicket queue with | some n => n < ticket | none => false))
  s.queueLoad pair queue + before.length < queueCap queue

/-- A command that has passed its checks issues, waits for the slice's stores, or waits for a slot of its queue (R361). -/
def enterQueue (s : State) (u : UnitSt) (c : Cmd) : State :=
  if !readyToIssue u c.scope then s.waitC u .release
  else if queueHasSlot s u.pair c.queue s.fresh then issueCmd s u c
  else s.bump.waitC u (.queue { c with id := s.fresh })

/-- ENGINE_QUEUE_SLOT_FREE (R361): the command that waits enters its queue. -/
def execEngineQueueSlotFree (pair slot : Nat) (s : State) : Out3 :=
  match s.resident pair slot with
  | none => .next s
  | some u =>
    match u.ctx.ctl.wait with
    | .queue c => .next (if queueHasSlot s pair c.queue c.id then issueCmd s u c else s)
    | _ => .next s

/-- The descriptor checks of step 4, then issue. -/
def checkAndIssue (s : State) (u : UnitSt) (c : Cmd) (causes : List Nat) : State :=
  match engDesc s u (counterCause u c.ctr ++ causes ++ (if causes.isEmpty then mirrorCause s u c else [])) with
  | some t => t
  | none => enterQueue s u c

/-- Step 3 of R363: the first misaligned address of a list of address and alignment. -/
def misaligned (l : List (Nat × Nat)) : Option Nat := (l.find? (fun p => p.1 % p.2 != 0)).map Prod.fst

/-! ### CPY (R371, R372) -/

def quad (bs : List Byte) (off : Nat) : Nat := leNat (sliceOf bs off 8)

/-- The shape record (R372). -/
def shapeOf (bs : List Byte) : Shape :=
  let w := quad bs 0x30
  { ext := (range 0 4).map (fun i => leNat (sliceOf bs (4 * i) 4))
    dstr := (range 0 4).map (fun i => s32 (leNat (sliceOf bs (0x10 + 4 * i) 4)))
    sstr := (range 0 4).map (fun i => s32 (leNat (sliceOf bs (0x20 + 4 * i) 4)))
    sfmt := bits w 3 0, dfmt := bits w 7 4, slay := bits w 9 8, dlay := bits w 11 10, dims := bits w 13 12 + 1, raw := bits w 15 14 }

/-- One side of a shape record breaks the table: its layout, its Morton dimensions, its 4-bit rule. -/
def sideBad (sh : Shape) (lay fmt : Nat) (str : List Int) : Bool :=
  let md := if lay == 0 then 0 else lay + 1
  lay == 3 || sh.dims < md ||
  (range 0 md).any (fun k => 2 ^ 21 < sh.ext.getD k 1 || str.getD k 0 != 0) ||
  (is4bit fmt && (lay != 0 || sh.ext.getD 0 1 % 2 == 1 || str.getD 0 0 != 0))

/-- A reserved field of the shape record is nonzero. -/
def shapeReserved (bs : List Byte) : Bool := quad bs 0x30 / 2 ^ 16 != 0 || quad bs 0x38 != 0

/-- A value of the shape record lies outside the table (R372, cause 3). -/
def shapeBad (sh : Shape) : Bool :=
  12 < sh.sfmt || 12 < sh.dfmt || (sh.sfmt == 0) != (sh.dfmt == 0) || (sh.raw != 0 && sh.sfmt != 0) ||
  sh.ext.any (fun x => x == 0) || (sh.ext.drop sh.dims).any (fun x => x != 1) || 2 ^ 40 < sh.ext.foldl (· * ·) 1 ||
  sideBad sh sh.slay sh.sfmt sh.sstr || sideBad sh sh.dlay sh.dfmt sh.dstr

/-- Addresses and strides that must be multiples of the element size (R363, step 3). -/
def shapeAligns (sh : Shape) (dst src : Nat) : List (Nat × Nat) :=
  let d := sh.esize sh.dfmt
  let e := sh.esize sh.sfmt
  (dst, d) :: (src, e) :: sh.dstr.map (fun x => (natOf 64 x, d)) ++ sh.sstr.map (fun x => (natOf 64 x, e))

/-- CPY (R371): a linear copy of 0 bytes completes at issue. -/
def execCpy (f : CX) (s : State) : Out3 :=
  onCtl s (fun u =>
    let dst := (u.c f.ra).toNat
    let src := (u.c f.rb).toNat
    if !f.sub.getLsbD 0 then
      let n := (u.c f.rc).toNat
      let c := newCmd s u f 0 dst src (.cpyLin n)
      if n == 0 then
        match engDesc s u (counterCause u c.ctr) with
        | some t => t
        | none => s.retireC u 2
      else checkAndIssue s u c (causeIf (2 ^ 40 < n) 3)
    else
      match readRecord s u (u.c f.rc).toNat 64 with
      | .inr t => t
      | .inl bs =>
        let sh := shapeOf bs
        match misaligned (shapeAligns sh dst src) with
        | some a => s.trapC u tcMisalign a
        | none =>
          checkAndIssue s u (newCmd s u f 0 dst src (.cpyShp sh))
            (causeIf (shapeReserved bs) 2 ++ causeIf (shapeBad sh) 3))

/-! ### The pickers (R375) -/

/-- The fields of c[rc]. -/
def pickN (w : Nat) : Nat := bits w 32 20
def pickRow (w : Nat) : Nat := 4 * (bits w 42 33 + 1)
def pickOff (w : Nat) : Nat := bits w 19 0

/-- The checks and the issue of a picker command: local is its local-window side, table its global one. -/
def issuePicker (s : State) (u : UnitSt) (f : CX) (locl table : Nat) (more : List Nat) (c : Cmd) : State :=
  let w := (u.c f.rc).toNat
  match misaligned [(locl, 4), (localWindow + pickOff w, 4)] with
  | some a => s.trapC u tcMisalign a
  | none =>
    checkAndIssue s u c (causeIf (w / 2 ^ 43 != 0) 2 ++ causeIf (pickN w == 0 || 4096 < pickN w) 3 ++ more ++
      causeIf (!inWindow locl || inWindow table) 4)

/-- GATH (R375 to R377). -/
def execGath (f : CX) (s : State) : Out3 :=
  onCtl s (fun u =>
    let w := (u.c f.rc).toNat
    let dst := (u.c f.ra).toNat
    let tab := (u.c f.rb).toNat
    issuePicker s u f dst tab [] (newCmd s u f 1 dst tab
      (.gath (u.c f.rd).toInt (pickN w) (pickRow w) (localWindow + pickOff w) (f.sub.getLsbD 0) (dst + pickN w * pickRow w))))

/-- SCAT (R375, R378). -/
def execScat (f : CX) (s : State) : Out3 :=
  onCtl s (fun u =>
    let w := (u.c f.rc).toNat
    let tab := (u.c f.ra).toNat
    let src := (u.c f.rb).toNat
    issuePicker s u f src tab [] (newCmd s u f 1 tab src (.scat (u.c f.rd).toInt (pickN w) (pickRow w) (localWindow + pickOff w))))

/-- SCATA (R375, R378): AFMT 3 is out of range. -/
def execScata (f : CX) (s : State) : Out3 :=
  onCtl s (fun u =>
    let w := (u.c f.rc).toNat
    let tab := (u.c f.ra).toNat
    let src := (u.c f.rb).toNat
    let fm := f.sub.toNat % 4
    issuePicker s u f src tab (causeIf (fm == 3) 3)
      (newCmd s u f 1 tab src (.scata (u.c f.rd).toInt (pickN w) (pickRow w) (localWindow + pickOff w) fm)))

/-! ### STAIR (R380, R381) -/

/-- The STAIR record (R381). -/
def stairOf (bs : List Byte) : StairRec :=
  let w := quad bs 0
  let e := quad bs 8
  { prolong := w.testBit 0, dims := bits w 2 1 + 1, bnd := bits w 4 3, sfmt := bits w 11 8, dfmt := bits w 15 12
    ntap := bits w 20 16, ext := [e % 2 ^ 32, e / 2 ^ 32, quad bs 0x10 % 2 ^ 32] }

/-- A reserved field of the record is nonzero. -/
def stairReserved (bs : List Byte) : Bool :=
  bits (quad bs 0) 7 5 != 0 || quad bs 0 / 2 ^ 21 != 0 || quad bs 0x10 / 2 ^ 32 != 0 ||
  (range 3 5).any (fun i => quad bs (8 * i) != 0)

/-- A value of the record lies outside the table (R381, cause 3). -/
def stairBad (r : StairRec) : Bool :=
  3 < r.dims || r.bnd == 3 || !(1 ≤ r.sfmt && r.sfmt ≤ 4) || !(1 ≤ r.dfmt && r.dfmt ≤ 4) || r.ntap == 0 || 27 < r.ntap ||
  (r.ext.take r.dims).any (fun x => x % 2 == 1 || x < 2 || 2 ^ 21 < x) || (r.ext.drop r.dims).any (fun x => x != 1)

/-- Entries of a weight table (R382). -/
def StairRec.entries (r : StairRec) : Nat := (if r.prolong then 2 ^ r.dims else 1) * r.ntap

/-- Page after page of a table is checked as a plain load would check it (R289). -/
def checkPages (u : UnitSt) : List Nat → State → State ⊕ State
  | [], s => .inl s
  | va :: r, s =>
    match xlate s u false { kind := .load } va with
    | .trap t code info => .inr (t.trapC u code va info)
    | .wait t n => .inr (t.waitC u (.walk n))
    | .retry t => .inr (t.waitC u .release)
    | .ok t _ e _ =>
      if regionOk u va 1 true false || (s.fwj u.key.job && Pte.rcx e) then checkPages u r t else .inr (t.trapC u tcRegion va)

/-- Step 2 of R363 for a table of some bytes at an address, a multiple of 8: its check as a plain load of its size. Its bytes are read when
the command starts (R382, assumption 87). -/
def checkTable (s : State) (u : UnitSt) (va size : Nat) : State ⊕ State :=
  if va % 8 != 0 then .inr (s.trapC u tcMisalign va)
  else if size == 0 then .inl s
  else if inWindow va then
    if u.regionBytes < va - localWindow + size then .inr (s.trapC u tcPantryRange va) else .inl s
  else if 2 ^ 57 ≤ va + size then .inr (s.trapC u tcPageAbsent va (xinfo 1 7 Kind.load.code))
  else
    -- the bytes below the local window, then those in it (R11, R12)
    let low := min size (localWindow - va)
    match if s.fwj u.key.job then none else (range 0 low).find? (fun i => !regionOk u (va + i) 1 true false) with
    | some i => .inr (s.trapC u tcRegion (va + i))
    | none =>
      match checkPages u ((range 0 ((va + low - 1) / 4096 - va / 4096 + 1)).map (fun i => if i == 0 then va else (va / 4096 + i) * 4096)) s with
      | .inr t => .inr t
      | .inl t => if u.regionBytes < size - low then .inr (t.trapC u tcPantryRange localWindow) else .inl t

/-- STAIR (R380). -/
def execStair (f : CX) (s : State) : Out3 :=
  onCtl s (fun u =>
    let dst := (u.c f.ra).toNat
    let src := (u.c f.rb).toNat
    let tab := (u.c f.rd).toNat
    match readRecord s u (u.c f.rc).toNat 64 with
    | .inr t => t
    | .inl bs =>
      let r := stairOf bs
      match checkTable s u tab (8 * r.entries) with
      | .inr t => t
      | .inl s =>
      match misaligned [(dst, elemBytes r.dfmt), (src, elemBytes r.sfmt)] with
      | some a => s.trapC u tcMisalign a
      | none =>
        checkAndIssue s u (newCmd s u f 2 dst src (.stair r tab)) (causeIf (stairReserved bs) 2 ++ causeIf (stairBad r) 3))

/-! ### Counters (R384) -/

/-- The counter index of CNTSET, CNTADD and WAITC. -/
def cntIdx (f : CX) : Nat := f.imm.toNat % 256

/-- Some command that names the counter is in flight, halted or held. -/
def counterBusy (s : State) (u : UnitSt) (k : Nat) : Bool :=
  (s.unitCmds u.key).any (fun c => c.ctr == some k && (c.inFlight || c.stuck))

/-- CNTSET. -/
def execCntset (f : CX) (s : State) : Out3 :=
  onCtl s (fun u =>
    let k := cntIdx f
    match engDesc s u (counterCause u (some k) ++ causeIf (counterBusy s u k) 6) with
    | some t => t
    | none => s.retireC (u.setCounter k (fun c => { c with v := (u.c f.ra).extractLsb' 0 32 })) 2)

/-- CNTADD. -/
def execCntadd (f : CX) (s : State) : Out3 :=
  onCtl s (fun u =>
    let k := cntIdx f
    match engDesc s u (counterCause u (some k)) with
    | some t => t
    | none => s.retireC (u.setCounter k (fun c => { c with v := c.v + (u.c f.ra).extractLsb' 0 32 })) 2)

/-- The end of a WAITC (R368, R384): a faulted counter traps, a drained one completes as an acquire at the scope; none otherwise. At .link it
acts at .dev and covers no peer line: R115 and R119 name fences and accesses only, and the model counts WAITC among neither (DESIGN CHOICE,
assumption 117). -/
def waitcEnd (s : State) (u : UnitSt) (k scope : Nat) : Option State :=
  if (u.counter k).f then (counterHalt s u.key k).map (fun x => s.takeTrap u (haltTrap u x.1 x.2))
  else if counterDrained s u k then
    let s1 := acquireFx s u.key u.pair (engScope scope) false
    some (s1.retireC (reread s1 u) 2)
  else none

/-- WAITC. -/
def execWaitc (f : CX) (s : State) : Out3 :=
  onCtl s (fun u =>
    let k := cntIdx f
    match engDesc s u (counterCause u (some k)) with
    | some t => t
    | none => (waitcEnd s u k f.scope.toNat).getD (s.waitC u (.waitc k f.scope.toNat)))

/-- WAITC_COMPLETE. -/
def execWaitcComplete (pair slot : Nat) (s : State) : Out3 :=
  match s.resident pair slot with
  | none => .next s
  | some u =>
    match u.ctx.ctl.wait with
    | .waitc k scope => .next ((waitcEnd s u k scope).getD s)
    | _ => .next s

/-! ### ENGQ (R387, R388) -/

/-- The value that ENGQ reads; form 0 counter, 1 occupancy, 2 free slots, 3 early-start counter. -/
def engqValue (s : State) (u : UnitSt) (form n : Nat) : Nat :=
  match form with
  | 0 =>
    let c := u.counter n
    c.v.toNat + 2 ^ 32 * b2n c.f + 2 ^ 33 * b2n (counterBusy s u n)
  | 1 => ((s.unitCmds u.key).filter (fun c => n.testBit c.queue && (c.inFlight || c.stuck))).length
  | 2 => queueCap n - s.queueLoad u.pair n
  | _ => u.ctx.early.toArray.getD n 0 + (if n == 1 then (u.ctx.unread.map Unread.bytes).sum else 0)

/-- ENGQ. -/
def execEngq (f : CX) (s : State) : Out3 :=
  onCtl s (fun u =>
    let form := f.sub.toNat % 4
    let n := f.imm.toNat
    match engDesc s u (if form == 0 then counterCause u (some n) else []) with
    | some t => t
    | none => s.retireC (u.setC f.rd (BitVec.ofNat 64 (engqValue s u form n))) 2)

end Sys2Proof.Machine
end

