-- ==== Sys2Proof/Machine/EngineRun.lean ====
section
/-!
DEFINITION. How engine commands perform (R365 to R370, R373, R374, R376 to R379, R382, R383): sectors and rows, landings and
count-downs, halts, and the steps of the engines.
-/

namespace Sys2Proof.Machine

/-! ### Reading and translating as an engine (R31, R33, R108, R154) -/

/-- How an engine access ends: a value, a wait (a busy line or a link), or a fault with code, address and INFO. -/
inductive ERes (α : Type) where
  | ok (s : State) (a : α)
  | wait (s : State)
  | fault (s : State) (code addr info : Nat)
  deriving Repr

def ERes.bind {α β : Type} (x : ERes α) (f : State → α → ERes β) : ERes β :=
  match x with
  | .ok s a => f s a
  | .wait s => .wait s
  | .fault s c a i => .fault s c a i

/-- A range cut at multiples of a size. -/
def cutAt (size : Nat) : Nat → Nat → Nat → List (Nat × Nat)
  | 0, _, _ => []
  | k + 1, va, n =>
    if n == 0 then []
    else
      let m := min n (size - va % size)
      (va, m) :: cutAt size k (va + m) (n - m)

/-- The pieces of a range that lie in one line each. -/
def linePieces (va n : Nat) : List (Nat × Nat) := cutAt 128 (n / 128 + 2) va n

/-- The rights that an engine access kind needs (R31). -/
def Kind.needsRead : Kind → Bool
  | .engWrite => false
  | .load | .store | .atomic | .fetch | .const | .engRead | .engAtomic => true

def Kind.needsWrite : Kind → Bool
  | .engWrite | .engAtomic => true
  | .load | .store | .atomic | .fetch | .const | .engRead => false

/-- The check intervals of an engine task's command: those of its boxes at x = y = z = 0 (R154, R195, R197). -/
def taskChecks (s : State) (c : Cmd) : List Interval :=
  match (s.job c.unit.job).bind (fun j => j.window.find? (fun t => t.tidx == c.unit.tidx)) with
  | some t => checkIntervals t.operands 0 0 0
  | none => []

/-- Intervals grant a byte. -/
def granted (is : List Interval) (a : Nat) (rd wr : Bool) : Bool :=
  is.any (fun i => i.lo ≤ (a : Int) && (a : Int) < i.hi && (!rd || i.r) && (!wr || i.w))

/-- The first byte of a range that intervals do not grant. -/
def ungranted (is : List Interval) (va n : Nat) (rd wr : Bool) : Option Nat :=
  if is.any (fun i => i.lo ≤ (va : Int) && ((va + n : Nat) : Int) ≤ i.hi && (!rd || i.r) && (!wr || i.w)) then none
  else (range va n).find? (fun a => !granted is a rd wr)

/-- Where bytes of a command lie: address, page mode, level of the leaf (7 for the local window). -/
structure EngPlace where
  pa : Nat
  cm : Nat
  lvl : Nat
  deriving DecidableEq, Repr

/-- Check and translate bytes of one line for a command: the local window of its unit, or the region check, from
which a firmware-owned job's RCX pages are exempt (R154), and the page tables. An engine task has no region: the local window refuses it as it
refuses the sequencer (R12, R210). -/
def engXlate (s : State) (c : Cmd) (kind : Kind) (va n : Nat) : ERes EngPlace :=
  let unit := if c.task then none else s.findUnit c.unit
  if inWindow va then
    match unit with
    | none => .fault s tcPageAttr va (xinfo 6 7 kind.code)
    | some u => if u.regionBytes < va - localWindow + n then .fault s tcPantryRange va 0 else .ok s ⟨u.pantryPa (va - localWindow), 0, 7⟩
  else
    let bad :=
      if 2 ^ 57 ≤ va then none
      else match unit with
        | none => if c.task then ungranted (taskChecks s c) va n kind.needsRead kind.needsWrite else none
        | some u => if regionOkLong u va n kind.needsRead kind.needsWrite then none
            else (range va n).find? (fun a => !regionOk u a 1 kind.needsRead kind.needsWrite)
    match bad, s.fwj c.unit.job with
    | some a, false => .fault s tcRegion a 0
    | _, _ =>
      match s.job c.unit.job with
      | none => .wait s
      | some j =>
        match xlateNow s true c.cls c.pair c.unit.job j.root { kind := kind } va with
        | .ok t pa e lvl =>
          match bad with
          | some a => if Pte.rcx e then .ok t ⟨pa, Pte.cm e, lvl⟩ else .fault t tcRegion a 0
          | none => .ok t ⟨pa, Pte.cm e, lvl⟩
        | .wait t _ | .retry t => .wait t
        | .trap t code info => .fault t code va info

/-- What a command asks of a copy of a host line: what its unit, or the sequencer of its task, would (R115, R116). -/
def engFloor (s : State) (c : Cmd) : Nat :=
  if c.task then (match s.job c.unit.job with | some j => j.hostFloor | none => 0)
  else match s.findUnit c.unit with | some u => u.ctx.ctl.hostFloor | none => 0

/-- A command's read over a link is out, under a name and a size. -/
def engAsked (s : State) (c : Cmd) (name n : Nat) : Bool :=
  s.outstanding.any (fun o => match o.what with | .engine i x m _ => i == c.id && x == name && m == n | _ => false)

/-- Read bytes of one line at a translated address, or ask a link for them under a name (R113, R420). A present vault line of a host page
answers (R108). -/
def engFetch (s : State) (c : Cmd) (name va : Nat) (p : EngPlace) (n : Nat) : ERes (List Byte) :=
  let pa := p.pa
  match place52 pa with
  | .pantry _ _ => if s.poisoned pa n then .fault s tcEccData va 0 else .ok s ((s.bytesAt pa n).map TByte.v)
  | .hbm | .attic _ _ _ =>
    match cohRead s (if p.cm == 2 then none else some c.cls) pa n with
    | none => .wait (s.knock pa)
    | some (t, _) => if homePoisoned t pa n then .fault t tcEccData va 0 else .ok t (homeSeen t c.key pa n)
  | .host _ _ | .peer _ _ =>
    match hostSlot s (dieOf c.pair) (engFloor s c) pa n with
    | some bs => if bs.any TByte.bad then .fault s tcEccData va 0 else .ok (touchHome s pa) (bs.map TByte.v)
    | none =>
    match c.got.find? (fun g => g.1 == (name, n)) with
    | some g => .ok s g.2
    | none =>
      match c.bad.find? (fun b => b.1 == (name, n)) with
      | some b => .fault s b.2.1 va b.2.2
      | none =>
        if engAsked s c name n then .wait s
        else .wait ((linkRead s pa n (.engine c.id name n p.lvl)).getD s)
  | .mmio _ _ | .unmapped => .fault s tcPageAttr va (xinfo 10 p.lvl 5)

/-- The physical address of a byte of a command, if it translates now. -/
def peekPa (s : State) (c : Cmd) (va : Nat) : Option Nat :=
  if inWindow va then (if c.task then none else s.findUnit c.unit).map (fun u => u.pantryPa (va - localWindow))
  else match s.job c.unit.job with
    | none => none
    | some j => match xlateNow s false c.cls c.pair c.unit.job j.root { kind := .engRead } va with
      | .ok _ pa _ _ => some pa
      | .wait _ _ | .retry _ | .trap _ _ _ => none

/-- A command reads what its earlier sectors have written though it has not performed yet (R142, R374). -/
def overlayKept (s : State) (c : Cmd) (pa : Nat) (bs : List Byte) : List Byte :=
  c.kept.foldl (fun l w =>
    match peekPa s c w.addr with
    | none => l
    | some p => if pa ≤ p then modIdx (fun b => (b &&& ~~~(BitVec.ofNat 8 w.mask)) ||| BitVec.ofNat 8 (w.val &&& w.mask)) l (p - pa) else l) bs

/-- Check and translate pieces of lines: each with its size and its place. -/
def rowPieces (c : Cmd) (kind : Kind) : List (Nat × Nat) → State → ERes (List (Nat × Nat × EngPlace))
  | [], s => .ok s []
  | (va, n) :: r, s => (engXlate s c kind va n).bind (fun t x => (rowPieces c kind r t).bind (fun t l => .ok t ((va, n, x) :: l)))

/-- A mark stands where a read of the bytes would meet it: at their home, or in the L1 copy that the read would take back (R437). -/
def markedNow (s : State) (pa n : Nat) : Bool :=
  match place52 pa with
  | .pantry _ _ => s.poisoned pa n
  | .hbm | .attic _ _ _ => homePoisoned s pa n || s.pairs.any (fun p =>
      match p.l1Find (lineOf pa) [.e, .m] with | some l => l.dirty != 0 && badIn l.data (pa % 128) n | none => false)
  | .host _ _ | .peer _ _ | .mmio _ _ | .unmapped => false

/-- Read pieces whose places are known. -/
def fetchPieces (c : Cmd) : List (Nat × Nat × EngPlace) → State → ERes (List Byte)
  | [], s => .ok s []
  | (va, n, p) :: r, s =>
    (engFetch s c va va p n).bind (fun t b => (fetchPieces c r t).bind (fun t bs => .ok t (overlayKept t c p.pa b ++ bs)))

/-- Read pieces of lines: all of them are checked and translated, and none is seen to be poisoned, before the first is read (R365, R376). -/
def engReadPieces (c : Cmd) (l : List (Nat × Nat)) (s : State) : ERes (List Byte) :=
  (rowPieces c .engRead l s).bind (fun t ps =>
    match ps.find? (fun p => markedNow t p.2.2.pa p.2.1) with
    | some p => .fault t tcEccData p.1 0
    | none => fetchPieces c ps t)

/-- Read a range. -/
def engRead (s : State) (c : Cmd) (va n : Nat) : ERes (List Byte) := engReadPieces c (linePieces va n) s

/-- Read each of some places. -/
def engReadAll (c : Cmd) : List Spot → State → ERes (List (List Byte))
  | [], s => .ok s []
  | p :: r, s => (engRead s c p.addr p.size).bind (fun t b => (engReadAll c r t).bind (fun t bs => .ok t (b :: bs)))

/-! ### Landings -/

/-- A value written to a place; it counts in half bytes (R374). -/
def spotWrite (p : Spot) (y : Nat) : List ByteW :=
  match p.nib with
  | some hi => [⟨p.addr, if hi then y * 16 else y, if hi then 0xF0 else 0x0F, 1⟩]
  | none => (range 0 p.size).map (fun i => ⟨p.addr + i, y / 256 ^ i % 256, 255, 2⟩)

/-- Whole bytes written from an address on. -/
def bytesWrite (va : Nat) : List Byte → List ByteW
  | [] => []
  | b :: bs => ⟨va, b.toNat, 255, 2⟩ :: bytesWrite (va + 1) bs

/-- The value read at a place. -/
def spotValue (p : Spot) (bs : List Byte) : Nat :=
  match p.nib with
  | some hi => if hi then leNat bs / 16 % 16 else leNat bs % 16
  | none => leNat bs

/-- Put a byte write after earlier ones of the same byte; every write counts. -/
def mergeByte (w : ByteW) : List ByteW → List ByteW
  | [] => [w]
  | x :: xs =>
    if w.addr = x.addr then ⟨x.addr, (x.val &&& (255 - w.mask)) ||| (w.val &&& w.mask), x.mask ||| w.mask, x.cnt + w.cnt⟩ :: xs
    else if w.addr < x.addr then w :: x :: xs
    else x :: mergeByte w xs

/-- Byte writes in the order of their addresses, one for each byte. -/
def mergeBytes (ws : List ByteW) (old : List ByteW) : List ByteW := ws.foldl (fun l w => mergeByte w l) old

/-- Runs of bytes within one line: neighbours, and bytes of one aligned 8-byte unit with what lies between them (R142). -/
def byteRuns : List ByteW → List (Nat × List ByteW)
  | [] => []
  | w :: ws =>
    match byteRuns ws with
    | (a, r) :: rest =>
      if (a = w.addr + 1 ∧ a % 128 ≠ 0) ∨ a / 8 = w.addr / 8 then
        (w.addr, w :: ((range (w.addr + 1) (a - w.addr - 1)).map (fun x => ⟨x, 0, 0, 0⟩) ++ r)) :: rest
      else (w.addr, [w]) :: (a, r) :: rest
    | [] => [(w.addr, [w])]

/-- The landings of merged byte writes. -/
def landingsOf (ws : List ByteW) : List Landing :=
  (byteRuns ws).map (fun r =>
    { va := r.1, pa := 0, data := r.2.map (fun w => BitVec.ofNat 8 w.val), mask := r.2.map (fun w => BitVec.ofNat 8 w.mask)
      cnt := (r.2.map ByteW.cnt).sum })

/-- The byte writes of a landing; what it counts beyond them, for bytes written more than once, stands with the first. -/
def Landing.bytes (l : Landing) : List ByteW :=
  let own (m : Byte) : Nat := if m == 255 then 2 else if m == 0 then 0 else 1
  let more := l.cnt - (l.mask.map own).sum
  ((range 0 l.data.length).map (fun i =>
    (⟨l.va + i, (l.data.getD i 0).toNat, (l.mask.getD i 0).toNat, own (l.mask.getD i 0) + (if i == 0 then more else 0)⟩ : ByteW))).filter
      (fun w => w.mask != 0)

/-- The landings of whole bytes at an address. -/
def plainLandings (va : Nat) (bs : List Byte) : List Landing :=
  (linePieces va bs.length).map (fun p =>
    { va := p.1, pa := 0, data := sliceOf bs (p.1 - va) p.2, mask := (range 0 p.2).map (fun _ => 255), cnt := 2 * p.2 })

/-- The landings of a picker's row for some elements; the row is counted with the last of them. -/
def rowLandings (els : List Nat) (va : Nat) (bs : List Byte) : List Landing :=
  (plainLandings va bs).map (fun l => { l with els := els })

/-- A landing without the gaps of its units, which a link must not see written: its runs go out one after another, with no other write
between them (R152). -/
def Landing.solid (l : Landing) : List Landing :=
  if l.mask.all (fun m => m != 0) then [l] else
  (l.bytes.foldr (fun w r =>
    match r with
    | [] => [{ l with va := w.addr, data := [BitVec.ofNat 8 w.val], mask := [BitVec.ofNat 8 w.mask], cnt := w.cnt }]
    | x :: xs =>
      if x.va == w.addr + 1 then { x with va := w.addr, data := BitVec.ofNat 8 w.val :: x.data, mask := BitVec.ofNat 8 w.mask :: x.mask, cnt := x.cnt + w.cnt } :: xs
      else { l with va := w.addr, data := [BitVec.ofNat 8 w.val], mask := [BitVec.ofNat 8 w.mask], cnt := w.cnt } :: x :: xs)
    ([] : List Landing)).map (fun x => { x with pa := l.pa + (x.va - l.va) })

def Landing.full (l : Landing) : Bool := l.mask.all (fun m => m == 255)

/-- A landing on bytes that it does not know writes the masked bits over the old ones. -/
def Landing.over_ (l : Landing) (old : List Byte) : List Byte :=
  (old.zip (l.data.zip l.mask)).map (fun x => (x.1 &&& ~~~x.2.2) ||| (x.2.1 &&& x.2.2))

/-- A landing would write part of a poisoned unit (R476). -/
def landingPoisoned (s : State) (pa : Nat) (l : Landing) : Bool :=
  let n := l.data.length
  let bad := if l.full then s.partPoison pa n else s.poisoned pa n
  -- an L1 copy that the write takes back brings its marks to the home first
  let copy := s.pairs.any (fun p => match p.l1Find (lineOf pa) [.e, .m] with
    | some x => x.dirty != 0 && badIn x.data (pa % 128) n && (!l.full || badPart x.data (pa % 128) n)
    | none => false)
  match place52 pa with
  | .pantry _ _ => bad
  | .hbm | .attic _ _ _ =>
    copy || (match (homeDie s pa).bind (fun d => (s.die d).vline (lineOf pa)) with
      | some v => if l.full then badPart v.data (pa % 128) n else badIn v.data (pa % 128) n
      | none => bad)
  | .host _ _ | .peer _ _ | .mmio _ _ | .unmapped => false

/-- An address lies behind a link. -/
def linkPa (pa : Nat) : Bool := match place52 pa with | .host _ _ | .peer _ _ => true | _ => false

/-- Half-byte writes over a link first read the byte they keep: the runs of a landing as they are then written whole. The reads are named
apart from those of the source. -/
def keepHalves (c : Cmd) (cm : Nat) : List Landing → State → ERes (List Landing)
  | [], s => .ok s []
  | l :: r, s =>
    let l1 : ERes Landing :=
      if l.full then .ok s l
      else (engFetch s c (2 ^ 64 + l.va) l.va ⟨l.pa, cm, l.lvl⟩ l.data.length).bind (fun t old =>
        .ok t { l with data := l.over_ old, mask := l.mask.map (fun _ => 255) })
    l1.bind (fun t x => (keepHalves c cm r t).bind (fun t xs => .ok t (x :: xs)))

/-- A landing with its runs as they stand now. -/
def Landing.refill (l : Landing) (runs : List Landing) : Landing :=
  runs.foldl (fun x r => { x with data := patch x.data (r.va - l.va) r.data, mask := patch x.mask (r.va - l.va) r.mask }) l

/-- Check and translate landings as engine writes. -/
def placeLandings (c : Cmd) : List Landing → State → ERes (List Landing)
  | [], s => .ok s []
  | l :: r, s =>
    (engXlate s c .engWrite l.va l.data.length).bind (fun t x =>
      if landingPoisoned t x.pa l then .fault t tcEccData l.va 0
      else
        let p := { l with pa := x.pa, lvl := x.lvl }
        let halves := p.mask.any (fun m => m != 0 && m != 255)
        let l1 : ERes Landing := if linkPa x.pa && halves then (keepHalves c x.cm p.solid t).bind (fun t rs => .ok t (p.refill rs)) else .ok t p
        l1.bind (fun t y => (placeLandings c r t).bind (fun t ys => .ok t (y :: ys))))

/-! ### The commands as a list -/

def State.cmd (s : State) (id : Nat) : Option Cmd := s.cmds.find? (fun c => c.id == id)

def State.putCmd (s : State) (c : Cmd) : State := { s with cmds := mapIf (fun x => x.id == c.id) (fun _ => c) s.cmds }

def State.dropCmd (s : State) (id : Nat) : State := { s with cmds := s.cmds.filter (fun c => c.id != id) }

/-- The earlier commands of a command's queue. -/
def earlierCmds (s : State) (c : Cmd) : List Cmd :=
  (s.cmds.takeWhile (fun x => x.id != c.id)).filter (fun x => x.pair == c.pair && x.queue == c.queue)

/-- The later commands of its unit in its queue (R367). -/
def laterOwn (s : State) (c : Cmd) : List Cmd :=
  ((s.cmds.dropWhile (fun x => x.id != c.id)).drop 1).filter (fun x => x.unit == c.unit && x.queue == c.queue && x.task == c.task)

/-- The command may go on: its unit is not frozen, its job runs. -/
def Cmd.live (s : State) (c : Cmd) : Bool :=
  if c.task then (s.job c.unit.job).isSome
  else match s.findUnit c.unit with | some u => u.running | none => false

def Cmd.isPicker (c : Cmd) : Bool :=
  match c.kind with
  | .gath _ _ _ _ _ _ | .scat _ _ _ _ | .scata _ _ _ _ _ => true
  | .cpyLin _ | .cpyShp _ | .stair _ _ | .subs _ _ | .fill _ _ _ _ => false

/-- Nothing is on its way to memory: a sector or element boundary (R367, R370). -/
def Cmd.atBoundary (c : Cmd) : Bool := c.landings.isEmpty && c.sent.isEmpty && c.kept.isEmpty

/-- Every byte has performed (R365). -/
def Cmd.finished (c : Cmd) : Bool :=
  c.atBoundary && (if c.isPicker then c.todo.isEmpty && c.failed.isEmpty && !c.bitmap else decide (c.count ≤ c.next))

/-! ### Lines and counters (R53, R63, R388) -/

/-- Bytes that a command writes in a region line, counting half bytes as halves. -/
def Cmd.lineBytes (c : Cmd) (line : Nat) : Nat :=
  let lo := localWindow + 128 * line
  ((c.whole.restSpots.map (fun p =>
    let a := max lo p.addr
    let b := min (lo + 128) (p.addr + p.size)
    if b ≤ a then 0 else (b - a) * (if p.nib.isSome then 1 else 2))).sum) / 2

/-- A line goes full with a command's last byte for it, if it is empty; it then stands unread (R53, R388). -/
def fillLine (s : State) (c : Cmd) (line : Nat) : State :=
  s.modUnit c.unit (fun u =>
    if u.lineState line != 1 then u
    else (u.landLine line).modCtx (fun x => { x with
      unread := x.unread.filter (fun r => r.line != line) ++ [⟨line, c.lineBytes line, s.cycle⟩] }))

/-- The region lines of a range. -/
def rangeLines (s : State) (c : Cmd) (va n : Nat) : List Nat :=
  match s.findUnit c.unit with
  | none => []
  | some u => if c.task then [] else spotLines u.regionBytes ⟨va, n, none⟩

/-- The lines that a command still has to write. -/
def ownLines (s : State) (c : Cmd) : List Nat :=
  match s.findUnit c.unit with
  | none => []
  | some u => if c.task then [] else c.restLines u.regionBytes

/-- Half bytes count down the counter (R63, R374). -/
def countDown (s : State) (c : Cmd) (halves : Nat) : State :=
  let t := c.half + halves
  let s := s.putCmd { c with half := t % 2 }
  match c.ctr with
  | none => s
  | some k => s.modUnit c.unit (fun u => u.setCounter k (fun x => { x with v := x.v - BitVec.ofNat 32 (t / 2) }))

/-- A faulting element of a picker is pending again; in report mode its bit of the bitmap stays set (R369, R377, R379). -/
def Cmd.pending (c : Cmd) : Cmd :=
  let els := (c.failed.map Prod.fst).filter (fun e => e < c.count)
  { c with todo := sortBy (fun a b => decide (a < b)) (c.todo ++ els), zeroed := c.zeroed ++ els, failed := [] }

/-- Words of 4 bytes of a byte string. -/
def words32 (bs : List Byte) : List Nat := (range 0 (bs.length / 4)).map (fun i => leNat (sliceOf bs (4 * i) 4))

/-- The indices of a scatter that stops before it has read them, as its index vector holds them then: they name the rows that it still has
to write (R367, assumption 88). -/
def Cmd.withIndices (s : State) (c : Cmd) : Cmd :=
  let word (ioff i : Nat) : Nat :=
    match peekPa s c (ioff + 4 * i) with
    | none => 0
    | some pa => leNat (match place52 pa with | .pantry _ _ => (s.bytesAt pa 4).map TByte.v | _ => homeSeen s c.key pa 4)
  match c.kind with
  | .scat _ n _ ioff | .scata _ n _ ioff _ => if c.idx.isEmpty then { c with idx := (range 0 n).map (word ioff) } else c
  | .cpyLin _ | .cpyShp _ | .gath _ _ _ _ _ _ | .stair _ _ | .subs _ _ | .fill _ _ _ _ => c

/-- A command stops before its end: F is set, untouched lines that it was to write go poisoned where empty, touched ones go full
(R53, R366, R367). -/
def stopCmd (s : State) (c : Cmd) (st : CmdStatus) : State :=
  let lines := ownLines s c
  let s := s.putCmd { c.withIndices s with status := st, stale := true }
  let s := match c.ctr with
    | none => s
    | some k => s.modUnit c.unit (fun u => u.setCounter k (fun x => { x with f := true }))
  lines.foldl (fun t l =>
    if c.touched.contains l then fillLine t c l
    else t.modUnit c.unit (fun u => if u.lineState l == 1 then u.setLine l 2 else u)) s

/-- A command halts with its record; later commands of the unit in the queue that stand at a boundary are held (R366, R367). -/
def haltCmd (s : State) (c : Cmd) (code addr info hcode : Nat) : State :=
  let pend := if c.isPicker then (leastBy (fun a b => decide (a < b)) c.restElems).getD 0 else if c.landings.isEmpty then c.next else c.sect
  let c1 := if c.isPicker then c.pending else c
  let s := stopCmd s c1 (.halted ⟨code, addr, c.ebase + pend, info, hcode⟩)
  (laterOwn s c).foldl (fun t x =>
    if x.inFlight && x.atBoundary && !x.finished then stopCmd t x .held else t) s

/-- A picker's fault at its start, or at a landing: GATHER_FAULT only once every element has been attempted (R376, R379). -/
def haltAt (s : State) (c : Cmd) (code addr info : Nat) : State := haltCmd s c code addr info code

/-- Some earlier command of the unit in the queue is halted or held (R367). -/
def behindStuck (s : State) (c : Cmd) : Bool := (earlierCmds s c).any (fun x => x.unit == c.unit && x.task == c.task && x.stuck)

/-- At a boundary: a picker that has attempted all and has faulting elements halts (R379); a command behind a halted one is
held (R367). -/
def settle (s : State) (id : Nat) : State :=
  match s.cmd id with
  | none => s
  | some c =>
    if c.status != .running || !c.atBoundary || c.finished then s
    else if behindStuck s c then stopCmd s c .held
    else if c.isPicker && c.todo.isEmpty && (!c.bitmap || c.failed.any (fun x => x.1 == c.count)) then
      match leastBy (fun a b => decide (a.1 < b.1)) c.failed with
      | none => s
      | some (_, code, addr, info) => haltCmd s c tcGatherFault addr info code
    else s

/-! ### Where a command reads (R365, R383) -/

/-- Signed offset of a tap in a dimension. -/
def tapOff (t : BitVec 64) (k : Nat) : Int := sintOf 8 (t.toNat / 256 ^ k)

/-- Remainder of an integer by a positive number. -/
def emodNat (a : Int) (n : Nat) : Nat := (a % ((n : Nat) : Int)).toNat

/-- Where a STAIR tap reads in one dimension (R383): none when the zero boundary skips it. -/
def tapAt (bnd n : Nat) (s : Int) : Option Nat :=
  if 0 ≤ s && s < n then some s.toNat
  else if bnd == 0 then none
  else if bnd == 1 then some (if s < 0 then 0 else n - 1)
  else some (emodNat s n)

/-- All of some options. -/
def allSome {α : Type} : List (Option α) → Option (List α)
  | [] => some []
  | none :: _ => none
  | some a :: r => (allSome r).map (fun l => a :: l)

/-- The taps that destination element e uses, with the source coordinates of each (R383). -/
def stairTaps (r : StairRec) (taps : List (BitVec 64)) (e : Nat) : List (BitVec 64 × List Nat) :=
  let d := r.coords e
  let cls := if r.prolong then leDigits d else 0
  let base := d.map (fun x => if r.prolong then x / 2 else 2 * x)
  ((taps.drop (cls * r.ntap)).take r.ntap).filterMap (fun t =>
    if !t.getLsbD 24 then none
    else (allSome ((range 0 r.dims).map (fun k => tapAt r.bnd (r.srcExt.getD k 1) ((base.getD k 0 : Nat) + tapOff t k)))).map (fun p => (t, p)))
where
  /-- The class of a fine point: its low coordinate bits, x lowest. -/
  leDigits : List Nat → Nat
    | [] => 0
    | x :: xs => x % 2 + 2 * leDigits xs

/-- Where element e reads. -/
def Cmd.srcSpots (c : Cmd) (e : Nat) : List Spot :=
  match c.kind with
  | .cpyLin _ => [⟨wrap64 (c.src + e), 1, none⟩]
  | .cpyShp sh => [sideSpot c.src sh.slay sh.sfmt (sh.esize sh.sfmt) sh.sstr (workCoords sh.dlay sh.ext e)]
  | .stair r _ => (stairTaps r c.taps e).map (fun t =>
      ⟨wrap64 (c.src + interleave r.dims t.2 21 * elemBytes r.sfmt), elemBytes r.sfmt, none⟩)
  | .gath _ _ _ _ _ _ | .scat _ _ _ _ | .scata _ _ _ _ _ | .subs _ _ | .fill _ _ _ _ => []

/-- The address of an element's source row of SCAT and SCATA. -/
def Cmd.srcRow (c : Cmd) (row e : Nat) : Nat := wrap64 (c.src + e * row)

/-- Where a command reads whose sectors or rows are still to come. A linear run is one spot; an image is read at its start. -/
def Cmd.readSpots (c : Cmd) : List Spot :=
  match c.kind with
  | .cpyLin n => if c.next < n then [⟨wrap64 (c.src + c.next), n - c.next, none⟩] else []
  | .cpyShp _ | .stair _ _ => (range c.next (c.count - c.next)).flatMap c.srcSpots
  | .gath _ _ row _ _ _ => c.todo.map (fun e => ⟨c.rowAddr e, row, none⟩)
  | .scat _ _ row _ => c.todo.map (fun e => ⟨c.srcRow row e, row, none⟩)
  | .scata _ _ row _ _ => c.todo.map (fun e => ⟨c.srcRow row e, row, none⟩)
  | .subs _ _ | .fill _ _ _ _ => []

/-! ### What a command waits for (R150, R367) -/

/-- The physical ranges of a place. -/
def spotPhys (s : State) (c : Cmd) (p : Spot) : List (Nat × Nat) :=
  (cutAt 4096 (p.size / 4096 + 2) p.addr p.size).filterMap (fun x => (peekPa s c x.1).map (fun a => (a, x.2)))

/-- Some range of a list meets one of another. -/
def meets (l m : List (Nat × Nat)) : Bool := l.any (fun r => m.any (fun x => overlap r.1 r.2 x.1 x.2))

/-- The commands of the queue that a command must follow where they share bytes: those in flight before it, and those of other units of
its job that have stopped there (R150, R365, R367). -/
def queueBefore (s : State) (c : Cmd) : List Cmd :=
  (earlierCmds s c).filter (fun e => e.inFlight || (e.unit.job == c.unit.job && e.unit != c.unit))

/-- An earlier command of the queue still has to write a byte of the ranges that are read or written, or to read one of those that are
written (R150, R365). -/
def queueHoldsPhys (s : State) (c : Cmd) (rd wr : List (Nat × Nat)) : Bool :=
  (queueBefore s c).any (fun e => meets (e.restSpots.flatMap (spotPhys s e)) (rd ++ wr) || meets (e.readSpots.flatMap (spotPhys s e)) wr)

/-- The same for places of the command. -/
def queueHolds (s : State) (c : Cmd) (rd wr : List Spot) : Bool :=
  if (queueBefore s c).isEmpty then false else queueHoldsPhys s c (rd.flatMap (spotPhys s c)) (wr.flatMap (spotPhys s c))

/-- A command of another unit of the job that has halted, is held, or was stopped by a save still has to write a byte of the places
(R367, R370). -/
def haltHolds (s : State) (c : Cmd) (ps : List Spot) : Bool :=
  let hs := s.cmds.filter (fun h => !h.inFlight && h.unit.job == c.unit.job && h.unit != c.unit)
  hs.any (fun h => h.restSpots.any (fun r => !inWindow r.addr && ps.any (fun p => overlap r.addr r.size p.addr p.size)))

/-! ### The start of a command (R361, R376, R382) -/

/-- The places in the region that a picker needs (R376): the index vector, its rows, its bitmap. -/
def pickerNeeds (c : Cmd) : List Spot :=
  match c.kind with
  | .gath _ n row ioff rep bmp => [⟨ioff, 4 * n, none⟩, ⟨c.dst, n * row, none⟩] ++ (if rep then [⟨bmp, bitmapBytes n, none⟩] else [])
  | .scat _ n row ioff | .scata _ n row ioff _ => [⟨ioff, 4 * n, none⟩, ⟨c.src, n * row, none⟩]
  | .cpyLin _ | .cpyShp _ | .stair _ _ | .subs _ _ | .fill _ _ _ _ => []

/-- The first need that does not lie wholly in the region; engine tasks have none (R210). -/
def pickerOutside (s : State) (c : Cmd) : Option Nat :=
  if c.task then none
  else match s.findUnit c.unit with
    | none => none
    | some u => ((pickerNeeds c).find? (fun p => p.addr < localWindow || localWindow + u.regionBytes < p.addr + p.size)).map Spot.addr

def words64 (bs : List Byte) : List (BitVec 64) := (range 0 (bs.length / 8)).map (fun i => BitVec.ofNat 64 (quad bs (8 * i)))

/-- An entry breaks the layout of R382. -/
def tapBad (dims : Nat) (t : BitVec 64) : Bool :=
  t.extractLsb' 25 7 != 0 || (!t.getLsbD 24 && t != 0) || t.extractLsb' 55 8 == 0xFF ||
  (range 0 3).any (fun k => tapOff t k < -3 || 3 < tapOff t k || (dims ≤ k && tapOff t k != 0))

/-- Read the runs of a range of attic store, one after another. -/
def readSpans (s : State) : List (Nat × Nat) → Option (State × List Byte)
  | [] => some (s, [])
  | (pa, n) :: r =>
    match cohReadN none (pieces n) s pa n with
    | none => none
    | some (t, bs) =>
      match readSpans t r with
      | none => none
      | some (x, cs) => some (x, bs.map TByte.v ++ cs)

/-- The offset of the first line of a range that does not answer (R16) or is poisoned, if one is, with its code. -/
def spansBad (s : State) (spans : List (Nat × Nat)) (size : Nat) : Option (Nat × Nat) :=
  match (range 0 (size / 128)).find? (fun i => !backed s (spanPa spans (128 * i)) || homePoisoned s (spanPa spans (128 * i)) 128) with
  | none => none
  | some i => some (128 * i, if backed s (spanPa spans (128 * i)) then tcEccData else tcPageAttr)

/-- The level of the leaf through which the SUBS translated a byte of its range (R42). -/
def Subscription.levelAt (b : Subscription) (va : Nat) : Nat := ((b.pages.find? (fun p => p.1 == va / 4096)).map (fun p => p.2.1)).getD 7

/-- The landings of an image's bytes. -/
def imageLandings (u : UnitSt) (b : Subscription) (bs : List Byte) : List Landing :=
  (plainLandings (localWindow + b.off) bs).map (fun l => { l with pa := u.pantryPa (l.va - localWindow) })

/-- The image of a SUBS begins to land (R71): the bytes that the home has sent at its acceptance. One that is issued again, after a fault or a
save, takes the range as it stands now, with its number (R73): store that no longer answers (R17) or is poisoned halts it, and it lands
whole, since updates have been dropped, but counts only what it still had to write (R63, R369). -/
def startImage (s : State) (c : Cmd) (sub : Nat) : State :=
  match s.subs.find? (fun b => b.id == sub), s.findUnit c.unit with
  | some b, some u =>
    if !c.stale && !c.landings.isEmpty then
      if queueHoldsPhys s c [] [(u.pantryPa b.off, b.size)] then s else s.putCmd { c with status := .running }
    else if queueHoldsPhys s c b.spans [(u.pantryPa b.off, b.size)] then s
    else
    match readSpans s b.spans with
    | none => s
    | some (t, bs) =>
      match spansBad t b.spans b.size with
      | some (off, code) =>
        haltAt t c code (b.gbase + off) (if code == tcPageAttr then xinfo 10 (b.levelAt (b.gbase + off)) Kind.engRead.code else 0)
      | none =>
        let n := match (t.die b.die).ranges.find? (fun r => r.spans == b.spans) with | some r => r.seqno | none => 0
        let cnt (l : Landing) : Nat := if c.next == 0 then l.cnt else match c.landings.find? (fun x => x.va == l.va) with | some x => x.cnt | none => 0
        let ls := (imageLandings u b bs).map (fun l => { l with cnt := cnt l })
        ({ t with subs := mapIf (fun x => x.id == sub) (fun x => { x with last := n }) t.subs
                  updates := t.updates.filter (fun x => x.sub != sub) }).putCmd
          { c with status := .running, next := c.count, landings := ls, stale := false }
  | _, _ => s.putCmd { c with status := .running, next := c.count }

/-- The unit's commands may begin: it has replayed its saved stores (R413). -/
def Cmd.replayed (s : State) (c : Cmd) : Bool :=
  c.task || (match s.findUnit c.unit with | some u => !u.ctx.ctl.replay | none => false)

/-- ENGINE_COMMAND_START (R361, R376, R382): the command begins once those before it have begun and its queue has room for it; a
picker reads its indices, a STAIR its table, a resumed SUBS asks for a fresh image. -/
def execEngineCommandStart (id : Nat) (s : State) : Out3 :=
  match s.cmd id with
  | none => .next s
  | some c =>
    let es := (earlierCmds s c).filter Cmd.inFlight
    if c.status != .issued || !c.live s || !c.replayed s || es.any (fun e => e.status == .issued) || queueCap c.queue ≤ es.length then .next s
    else if behindStuck s c then .next (stopCmd s c .held)
    else
      let go (s : State) (c : Cmd) : State := s.putCmd { c with status := .running, got := [], bad := [] }
      let read (va n : Nat) (f : State → List Byte → State) : Out3 :=
        if queueHolds s c [⟨va, n, none⟩] [] then .next s
        else match engRead s c va n with
          | .wait t => .next t
          | .fault t code addr info => .next (haltAt t c code addr info)
          | .ok t bs => .next (f t bs)
      match c.kind with
      | .gath _ n _ ioff _ _ | .scat _ n _ ioff | .scata _ n _ ioff _ =>
        match pickerOutside s c with
        | some a => .next (haltAt s c tcPantryRange a 0)
        | none => read ioff (4 * n) (fun t bs => go t { c with idx := words32 bs })
      | .stair r table =>
        read table (8 * r.entries) (fun t bs =>
          let ts := words64 bs
          match findIdxVal (tapBad r.dims) ts 0 with
          | some (i, _) => haltAt t c tcStairTable (table + 8 * i) 0
          | none => go t { c with taps := ts })
      | .subs sub _ => .next (startImage s c sub)
      | .cpyLin _ | .cpyShp _ | .fill _ _ _ _ => .next (go s c)

/-! ### Sectors (R365, R373, R374, R383, R210) -/

/-- The bytes that element e writes, from what it read (R374, R383, R210). -/
def Cmd.elemOut (c : Cmd) (e : Nat) (bs : List (List Byte)) : List ByteW :=
  let dst := c.dstSpot e
  match c.kind with
  | .cpyShp sh =>
    let x := ((c.srcSpots e).zip bs).map (fun p => spotValue p.1 p.2)
    let x := x.headD 0
    spotWrite dst (if sh.sfmt == 0 then x else (toFormat x sh.sfmt sh.dfmt 0 false).1)
  | .stair r _ =>
    let terms := ((stairTaps r c.taps e).zip bs).map (fun p =>
      (exactMul (decodeVal (p.1.1.toNat / 2 ^ 32) 1) (decodeVal (leNat p.2) r.sfmt)).1)
    spotWrite dst (roundTo (exactSum terms 0).1 r.dfmt 0 false).1
  | .fill _ _ _ pattern => spotWrite dst (pattern % 256 ^ dst.size)
  | .cpyLin _ => spotWrite dst (leNat (bs.headD []))
  | .gath _ _ _ _ _ _ | .scat _ _ _ _ | .scata _ _ _ _ _ | .subs _ _ => []

/-- The source pages of element e, each once, in order. -/
def Cmd.srcPages (c : Cmd) (e : Nat) : List Nat :=
  (sortBy (fun a b => decide (a < b)) ((c.srcSpots e).map (fun p => p.addr / 4096))).eraseDups

/-- Elements from e on that read the same pages and write the same page (R365). -/
def runLen (c : Cmd) (pages : List Nat) (page : Nat) : Nat → Nat → Nat
  | 0, _ => 0
  | k + 1, e =>
    if e < c.count && c.srcPages e == pages && (c.dstSpot e).addr / 4096 == page then 1 + runLen c pages page k (e + 1) else 0

/-- Elements of the next sector. A linear copy's sector ends where either side leaves its page. -/
def Cmd.sectorLen (c : Cmd) : Nat :=
  match c.kind with
  | .cpyLin n => min (n - c.next) (min (4096 - wrap64 (c.src + c.next) % 4096) (4096 - wrap64 (c.dst + c.next) % 4096))
  | .cpyShp _ | .gath _ _ _ _ _ _ | .scat _ _ _ _ | .scata _ _ _ _ _ | .stair _ _ | .subs _ _ | .fill _ _ _ _ =>
    runLen c (c.srcPages c.next) ((c.dstSpot c.next).addr / 4096) (c.count - c.next) c.next

/-- Read the elements of a sector and give the bytes they write. -/
def sectorBytes (c : Cmd) : List Nat → State → ERes (List ByteW)
  | [], s => .ok s []
  | e :: r, s =>
    (engReadAll c (c.srcSpots e) s).bind (fun t bs => (sectorBytes c r t).bind (fun t ws => .ok t (c.elemOut e bs ++ ws)))

/-- The bytes that the next sector of m elements writes. -/
def sectorWrites (s : State) (c : Cmd) (m : Nat) : ERes (List ByteW) :=
  match c.kind with
  | .cpyLin _ => (engRead s c (wrap64 (c.src + c.next)) m).bind (fun t bs => .ok t (bytesWrite (wrap64 (c.dst + c.next)) bs))
  | .cpyShp _ | .gath _ _ _ _ _ _ | .scat _ _ _ _ | .scata _ _ _ _ _ | .stair _ _ | .subs _ _ | .fill _ _ _ _ =>
    (sectorBytes c (range c.next m) s).bind (fun t ws => .ok t (mergeBytes ws []))

/-- A byte whose aligned 8-byte unit later sectors, or other rows of a picker, still write is kept, so that the command writes the unit whole
(R142), and each word of a link too (R152). -/
def keeps (later : List Spot) (w : ByteW) : Bool := later.any (fun p => overlap (w.addr / 8 * 8) 8 p.addr p.size)

/-- The sector of m elements has been read: all its bytes are checked and translated; those that complete their units set out with what
earlier sectors have kept of them. -/
def setOut (s : State) (c : Cmd) (m : Nat) (ws : List ByteW) : ERes Cmd :=
  let c1 := { c with sect := c.next, next := c.next + m }
  (placeLandings c (landingsOf ws) s).bind (fun t ls =>
    let all := if c.kept.isEmpty then ws else mergeBytes ws c.kept
    let later := c1.nextSpots
    let stay := all.filter (keeps later)
    let done (t : State) (ls : List Landing) : ERes Cmd :=
      .ok t { c1 with landings := ls, kept := stay, before := c.kept, begun := false, owed := 0, got := [], bad := [] }
    if c.kept.isEmpty && stay.isEmpty then done t ls
    else (placeLandings c (landingsOf (all.filter (fun w => !stay.contains w))) t).bind done)

/-- What a command has kept sets out as it stands, before the command stops or waits (R366, R367). -/
def flushKept (s : State) (c : Cmd) : State :=
  let c1 := { c with kept := [] }
  match placeLandings c1 (landingsOf c.kept) s with
  | .wait t => t
  | .fault t code addr info => haltAt t { c1 with landings := landingsOf c.kept } code addr info
  | .ok t ls => t.putCmd { c1 with landings := ls, before := [], begun := false, owed := 0 }

/-- Where the next sector of m elements reads and writes. -/
def sectorSpots (c : Cmd) (m : Nat) : List Spot × List Spot :=
  match c.kind with
  | .cpyLin _ => ([⟨wrap64 (c.src + c.next), m, none⟩], [⟨wrap64 (c.dst + c.next), m, none⟩])
  | .cpyShp _ | .gath _ _ _ _ _ _ | .scat _ _ _ _ | .scata _ _ _ _ _ | .stair _ _ | .subs _ _ | .fill _ _ _ _ =>
    ((range c.next m).flatMap c.srcSpots, (range c.next m).map c.dstSpot)

/-- The fault bitmap of a report-mode gather (R377): every element that has faulted, by its table row or by its destination row. -/
def bitmapOf (n : Nat) (zeroed : List Nat) : List Byte :=
  leBytes (bitmapBytes n) ((zeroed.filter (fun e => e < n)).eraseDups.map (fun e => 2 ^ e)).sum

/-- A byte lies in the destination of one of some elements. -/
def Cmd.inRows (c : Cmd) (els : List Nat) (w : ByteW) : Bool :=
  els.any (fun e => (c.dstSpot e).addr ≤ w.addr && w.addr < (c.dstSpot e).addr + (c.dstSpot e).size)

/-- What a landing still writes when some elements' rows are not written: the bytes of the others. -/
def Landing.without (c : Cmd) (gone : List Nat) (l : Landing) : List Landing :=
  if !l.els.any gone.contains then [l]
  else
    let left := l.els.filter (fun e => !gone.contains e)
    (landingsOf (l.bytes.filter (c.inRows left))).map (fun x => { x with pa := l.pa + (x.va - l.va), els := left, lvl := l.lvl })

/-- Elements of a picker have met a fault of their rows (R376): they fail, and what has not landed of their rows is not written. -/
def failElems (c : Cmd) (els : List Nat) (code addr info : Nat) : Cmd :=
  let new := els.filter (fun e => !(c.failed.map Prod.fst).contains e)
  let left := c.uncounted.filter (fun e => !els.contains e)
  { c with failed := c.failed ++ new.map (fun e => (e, code, addr, info)), landings := c.landings.flatMap (Landing.without c els)
           kept := c.kept.filter (fun w => c.inRows left w || !c.inRows els w), uncounted := left }

/-! ### The rows of a picker on their way (R142, R376) -/

/-- The destinations of a picker that are still to be attempted. -/
def Cmd.laterSpots (c : Cmd) : List Spot :=
  (c.todo ++ (if c.bitmap && !c.failed.any (fun x => x.1 == c.count) then [c.count] else [])).map c.dstSpot

/-- The elements whose rows have set out and hold a byte of a landing. -/
def Cmd.owners (c : Cmd) (l : Landing) : List Nat :=
  let rows := c.uncounted.map (fun e => (c.dstSpot e).addr)
  (range 0 (match c.kind with | .gath _ _ _ _ _ _ => c.count + 1 | _ => c.count)).filter (fun e =>
    rows.contains (c.dstSpot e).addr && !c.failed.any (fun x => x.1 == e) && overlap (c.dstSpot e).addr (c.dstSpot e).size l.va l.data.length)

/-- The row at an address for some elements, which have been taken off the pending ones, sets out with what has been kept of its 8-byte
units; bytes of a unit that it shares with a row still to be attempted are kept. No bytes: what no later place shares sets out. -/
def rowOut (s : State) (c : Cmd) (later : List Spot) (els : List Nat) (va : Nat) (bs : List Byte) : ERes Cmd :=
  let n := bs.length
  let c := { c with uncounted := c.uncounted ++ (if els.isEmpty then [] else [els.foldl max 0]) }
  let inside (w : ByteW) : Bool := va ≤ w.addr / 8 * 8 && w.addr / 8 * 8 + 8 ≤ va + n
  let edges := [(⟨va, 0, 0, 0⟩ : ByteW), ⟨va + n - 1, 0, 0, 0⟩].filter (fun w => !inside w)
  if c.kept.isEmpty && !(edges.any (keeps later)) then
    (placeLandings c (rowLandings els va bs) s).bind (fun t ls => .ok t { c with landings := c.landings ++ ls })
  else
    let all := mergeBytes (bytesWrite va bs) c.kept
    let stay := all.filter (fun w => !inside w && keeps later w)
    (placeLandings c (landingsOf (all.filter (fun w => !stay.contains w))) s).bind (fun t ls =>
      .ok t { c with kept := stay, landings := c.landings ++ ls.map (fun l => { l with els := c.owners l }) })

/-- What a picker has kept sets out where no place of a list shares its unit. -/
def keptOut (s : State) (c : Cmd) (later : List Spot) : State :=
  if c.kept.all (keeps later) then s
  else match rowOut s c later [] 0 [] with
    | .wait t => t
    | .ok t d => t.putCmd d
    | .fault t code _ info =>
      let els := (landingsOf (c.kept.filter (fun w => !keeps later w))).flatMap c.owners
      t.putCmd (failElems c els.eraseDups code ((els.head?.map (fun e => (c.dstSpot e).addr)).getD 0) info)

/-- A row's elements that have set out are counted once no byte of the row is on its way (R63, R377). -/
def Cmd.rowOpen (c : Cmd) (e : Nat) : Bool :=
  (c.landings ++ c.sent.map Prod.snd).any (fun l => l.els.contains e) || c.kept.any (c.inRows [e])

def countRows (s : State) (c : Cmd) : State :=
  let done := c.uncounted.filter (fun e => !c.rowOpen e)
  countDown s { c with uncounted := c.uncounted.filter c.rowOpen } (2 * (done.map (fun e => (c.dstSpot e).size)).sum)

/-- The bitmap of a picker whose elements have all been attempted sets out; a fault leaves it to write (R376, R377). -/
def bitmapStep (s : State) (c : Cmd) : State :=
  match c.kind with
  | .gath _ n _ _ _ bmp =>
    if !c.bitmap || c.failed.any (fun x => x.1 == n) then settle (keptOut s c []) c.id
    else if !(c.landings.isEmpty && c.sent.isEmpty) || haltHolds s c [⟨bmp, bitmapBytes n, none⟩] || queueHolds s c [] [⟨bmp, bitmapBytes n, none⟩] then s
    else match rowOut s { c with bitmap := false } [] [n] bmp (bitmapOf n (c.zeroed ++ c.failed.map Prod.fst)) with
      | .wait t => t
      | .ok t d => t.putCmd { d with got := [], bad := [] }
      | .fault t code addr info => settle (t.putCmd { c with failed := c.failed ++ [(n, code, addr, info)] }) c.id
  | .scat _ _ _ _ | .scata _ _ _ _ _ | .cpyLin _ | .cpyShp _ | .stair _ _ | .subs _ _ | .fill _ _ _ _ => settle (keptOut s c []) c.id

/-- A picker's turn between rows: what it has kept sets out at a stop, or where nothing shares it any more; then its bitmap. -/
def pickerStep (s : State) (c : Cmd) : State :=
  if !c.live s || behindStuck s c then keptOut s c []
  else if c.todo.isEmpty then bitmapStep s c
  else keptOut s c c.laterSpots

/-- The address of the row at which the landings of an element fault (R379). -/
def Cmd.landRow (c : Cmd) (e : Nat) : Nat :=
  match c.kind with
  | .gath _ _ _ _ _ _ => (c.dstSpot e).addr
  | .scat _ _ _ _ | .scata _ _ _ _ _ => c.rowAddr e
  | .cpyLin _ | .cpyShp _ | .stair _ _ | .subs _ _ | .fill _ _ _ _ => 0

/-- Landings whose translation is not valid any more are translated afresh (R40, R369). -/
def replace_ (c : Cmd) : List Landing → State → ERes Cmd
  | [], s => .ok s { c with landings := [], stale := false }
  | l :: r, s =>
    match placeLandings c [l] s with
    | .wait t => .wait t
    | .fault t code addr info =>
      if c.isPicker then (replace_ c r t).bind (fun t d => .ok t (failElems d l.els code (c.landRow (l.els.headD 0)) info)) else .fault t code addr info
    | .ok t ls => (replace_ c r t).bind (fun t d => .ok t { d with landings := ls ++ d.landings })

/-- ENGINE_SECTOR (R365, R366): one sector is checked, translated and read, and its bytes set out; or the command halts at it.
Landings that a halt or an invalidation left behind are translated afresh first (R40, R369). -/
def execEngineSector (id : Nat) (s : State) : Out3 :=
  match s.cmd id with
  | none => .next s
  | some c =>
    if c.status != .running then .next s
    else if c.stale then
      match replace_ c c.landings s with
      | .wait t => .next t
      | .fault t code addr info => .next (haltAt t c code addr info)
      | .ok t d => .next (settle (t.putCmd d) id)
    else if c.isPicker then .next (pickerStep s c)
    else if !(c.landings.isEmpty && c.sent.isEmpty) then .next s
    else if !c.live s then .next (if c.kept.isEmpty then s else flushKept s c)
    else if c.count ≤ c.next then .next s
    else if behindStuck s c then .next (if c.kept.isEmpty then stopCmd s c .held else flushKept s c)
    else
      let m := c.sectorLen
      let (src, dst) := sectorSpots c m
      if haltHolds s c dst then .next (if c.kept.isEmpty then s else flushKept s c)
      else if queueHolds s c src dst then .next s
      else match (sectorWrites s c m).bind (fun t ws => setOut t c m ws) with
        | .wait t => .next t
        | .fault t code addr info => .next (if c.kept.isEmpty then haltAt t { c with got := [], bad := [] } code addr info else flushKept t c)
        | .ok t d => .next (t.putCmd d)

/-! ### Landing (R53, R63, R57, R114) -/

/-- The bytes of a landing that has performed are counted (R63): a picker's with the last of their row, those that a link has acknowledged with
the last of their sector, since a sector whose link fails counts as not written (R366, assumption 89). -/
def countLanding (s : State) (c : Cmd) (l : Landing) : State :=
  let last := c.landings.isEmpty && c.sent.isEmpty
  if c.isPicker then countRows s c
  else if linkPa l.pa && !last then s.putCmd { c with owed := c.owed + l.cnt }
  else if last then countDown s { c with owed := 0 } (c.owed + l.cnt)
  else countDown s c l.cnt

/-- A landing has performed: it is counted, and the lines whose last byte it was go full. -/
def landed (s : State) (c : Cmd) (l : Landing) : State :=
  let mine := rangeLines s c l.va l.data.length
  let c := { c with touched := (mine ++ c.touched).eraseDups }
  let s := countLanding s c l
  let rest := ownLines s c
  settle (mine.foldl (fun t x => if rest.contains x then t else fillLine t c x) s) c.id

/-- A landing has failed: the row's elements of a picker fail, and the others go on (R376). Another command halts at the sector: where it lies
behind a link the whole sector is still to write, elsewhere what has not landed of it (R366, R367, assumption 89). -/
def landFailed (s : State) (c : Cmd) (l : Landing) (code info : Nat) : State :=
  if c.isPicker then settle (s.putCmd (failElems c l.els code (c.landRow (l.els.headD 0)) info)) c.id
  else if c.status != .running then s.putCmd c
  else if linkPa l.pa then haltAt s { c with next := c.sect, landings := [], kept := c.before, begun := false, owed := 0 } code l.va info
  else haltAt s { c with landings := c.landings ++ [l] } code l.va info

/-- Send the runs of a landing over their link, one after another. -/
def sendPieces : List Landing → State → Cmd → Option State
  | [], s, c => some (s.putCmd c)
  | l :: r, s, c =>
    let k := s.fresh
    (linkWrite s.bump l.pa l.data (.engine c.id k)).bind (fun t => sendPieces r t { c with sent := c.sent ++ [(k, l)] })

/-- Perform a landing where it lies; none while its line is busy or the link has no room. -/
def performLanding (s : State) (c : Cmd) (l : Landing) (rest : List Landing) : Option State :=
  let n := l.data.length
  let c1 := { c with landings := rest, begun := true }
  match place52 l.pa with
  | .pantry _ _ =>
    if landingPoisoned s l.pa l then some (landFailed s c1 l tcEccData 0)
    else
      let new := l.over_ ((s.bytesAt l.pa n).map TByte.v)
      some (landed (noteWrite ((s.clearPoison l.pa n).setBytes l.pa (sealList 0 l.pa new)) l.pa n) c1 l)
  | .hbm | .attic _ _ _ =>
    if !backed s l.pa then some (landFailed s c1 l tcPageAttr (xinfo 10 l.lvl 6))
    else
      match quiesce s (lineOf l.pa) true with
      | none => none
      | some t =>
        if landingPoisoned t l.pa l then some (landFailed t c1 l tcEccData 0)
        else match homePut t l.pa (sealList c.key l.pa (l.over_ (homeSeen t c.key l.pa n))) with
          | some t => some (landed t c1 l)
          | none => some (landFailed t c1 l tcEccData 0)
  | .host _ _ | .peer _ _ =>
    if !linkOk s l.pa then some (landFailed s c1 l tcLinkDown (xinfo 11 l.lvl 6))
    else sendPieces l.solid (dropPc s c.pair l.pa) c1
  | .mmio _ _ | .unmapped => some (landFailed s c1 l tcPageAttr (xinfo 10 l.lvl 6))

/-- The landing of a sector under way that is seen to fail before the sector's next byte is written: its place does not answer, or its link
is down (R366). -/
def doomed (s : State) (c : Cmd) : Option (Nat × Landing) :=
  if c.isPicker then none
  else findIdxVal (fun (l : Landing) => match place52 l.pa with
    | .hbm | .attic _ _ _ => !backed s l.pa
    | .host _ _ | .peer _ _ => !linkOk s l.pa
    | .pantry _ _ | .mmio _ _ | .unmapped => false) c.landings 0

/-- ENGINE_BYTES_LAND: landing k of a command. -/
def execEngineBytesLand (id k : Nat) (s : State) : Out3 :=
  match s.cmd id with
  | none => .next s
  | some c =>
    let k := match doomed s c with | some (i, _) => if k < c.landings.length then i else k | none => k
    match c.landings[k]? with
    | none => .next s
    | some l =>
      if c.status != .running || c.stale then .next s
      else .next ((performLanding s c l (dropIdx c.landings k)).getD (s.knock l.pa))

/-- A write of a command over a link is acknowledged, or has failed (R420, R428). -/
def engineAck (s : State) (id n : Nat) (err : Option (Nat × Nat)) : State :=
  match s.cmd id with
  | none => s
  | some c =>
    match c.sent.find? (fun x => x.1 == n) with
    | none => s
    | some (_, l) =>
      let c1 := { c with sent := c.sent.filter (fun x => x.1 != n) }
      match err with
      | none => if c.status == .running then landed s c1 l else s.putCmd c1
      | some (code, info) => landFailed s c1 l code info

/-- A sector or rows that have begun to land land whole, and what is kept of earlier sectors with them, before their command is discarded (R160);
none while a line is busy, a walk is awaited or a link has no room. -/
def finishLandings : Nat → State → Nat → Option State
  | 0, s, _ => some s
  | k + 1, s, id =>
    match s.cmd id with
    | none => some s
    | some c =>
      if c.status != .running then some s
      else if c.stale then
        match replace_ c c.landings s with
        | .wait _ => none
        | .fault t _ _ _ => some t
        | .ok t d => finishLandings k (t.putCmd d) id
      else match c.landings with
        | l :: r => (performLanding s c l r).bind (fun t => finishLandings k t id)
        | [] =>
          if c.kept.isEmpty then some s
          else match placeLandings { c with kept := [] } (landingsOf c.kept) s with
            | .wait _ => none
            | .fault t _ _ _ => some t
            | .ok t ls => finishLandings k (t.putCmd { c with kept := [], landings := ls }) id

/-- The same for a command that has begun. -/
def finishSector (s : State) (c : Cmd) : Option State :=
  if c.begun || !c.kept.isEmpty then finishLandings (2 * (c.landings.length + c.kept.length + 2)) s c.id else some s

/-- A read of a command over a link ends (R420). -/
def engineGot (s : State) (id name n : Nat) (r : List Byte ⊕ (Nat × Nat)) : State :=
  match s.cmd id with
  | none => s
  | some c => s.putCmd (match r with
    | .inl bs => { c with got := c.got ++ [((name, n), bs)] }
    | .inr (code, info) => { c with bad := c.bad ++ [((name, n), code, info)] })

/-! ### Rows (R376 to R379) -/

/-- The distinct rows that a picker's pending elements name, in order of their first element. -/
def Cmd.rows (c : Cmd) : List Nat := (c.todo.map c.rowAddr).eraseDups

/-- A row has been attempted: its elements leave the pending ones, some as faulting (R379). -/
def rowDone (s : State) (c : Cmd) (a row : Nat) (els : List Nat) (failed : List (Nat × Nat × Nat × Nat)) (f : Cmd → Cmd) : State :=
  let c := f { c with todo := c.todo.filter (fun e => !els.contains e), failed := c.failed ++ failed
                      got := c.got.filter (fun g => !(a ≤ g.1.1 && g.1.1 < a + row)), bad := c.bad.filter (fun g => !(a ≤ g.1.1 && g.1.1 < a + row)) }
  let t := s.putCmd c
  settle (if c.kept.isEmpty then t else keptOut t c c.laterSpots) c.id

/-- The destination rows of a gather's elements set out: the command with their landings, and the elements whose row faults. -/
def gathDests (bs : List Byte) : List Nat → State → Cmd → ERes (Cmd × List (Nat × Nat × Nat × Nat))
  | [], s, c => .ok s (c, [])
  | e :: r, s, c =>
    let d := (c.dstSpot e).addr
    let c := { c with todo := c.todo.filter (fun x => x != e) }
    match rowOut s c c.laterSpots [e] d bs with
    | .wait t => .wait t
    | .fault t code _ info => (gathDests bs r t c).bind (fun t x => .ok t (x.1, (e, code, d, info) :: x.2))
    | .ok t c => gathDests bs r t c

/-- A gather's row (R377): one read, handed to every element that names it; zeros for a faulting row in report mode. -/
def gathRow (s : State) (c : Cmd) (row : Nat) (rep : Bool) (a : Nat) (els : List Nat) : State :=
  if queueHolds s c [⟨a, row, none⟩] (els.map c.dstSpot) || haltHolds s c (els.map c.dstSpot) then s
  else
    let give (s : State) (bs : List Byte) (zero : List Nat) : State :=
      match gathDests bs els s c with
      | .wait t | .fault t _ _ _ => t
      | .ok t (d, fs) => rowDone t d a row els fs (fun c => { c with zeroed := c.zeroed ++ zero })
    let faulty (s : State) (code info : Nat) : State :=
      if rep then give s ((range 0 row).map (fun _ => 0)) els
      else rowDone s c a row els (els.map (fun e => (e, code, a, info))) id
    if a % 4 != 0 then faulty s tcMisalign 0
    else match engRead s c a row with
      | .wait t => t
      | .fault t code _ info => faulty t code info
      | .ok t bs => give t bs []

/-- No copy of a row's lines is left anywhere but at their homes; none while one is unsettled. -/
def quietRow : List (Nat × Nat × EngPlace) → State → Option State
  | [], s => some s
  | (_, _, p) :: r, s =>
    match place52 p.pa with
    | .hbm | .attic _ _ _ => (quiesce s (lineOf p.pa) true).bind (quietRow r)
    | .pantry _ _ | .host _ _ | .peer _ _ | .mmio _ _ | .unmapped => quietRow r s

/-- Write a row's pieces at their homes, which hold the only copies. -/
def writeRow (c : Cmd) (a : Nat) (bs : List Byte) : List (Nat × Nat × EngPlace) → State → Option State
  | [], s => some s
  | (va, n, p) :: r, s =>
    let pa := p.pa
    let b := sliceOf bs (va - a) n
    match place52 pa with
    | .pantry _ _ => writeRow c a bs r (noteWrite ((s.clearPoison pa n).setBytes pa (sealList 0 pa b)) pa n)
    | _ =>
      match cohWrite s pa (sealList c.key pa b) with
      | none => none
      | some (t, _) => writeRow c a bs r t

/-- A piece of a row would write part of a poisoned unit. -/
def rowPoisoned (s : State) (ps : List (Nat × Nat × EngPlace)) : Bool :=
  ps.any (fun p =>
    landingPoisoned s p.2.2.pa { va := p.1, pa := p.2.2.pa, data := List.replicate p.2.1 0, mask := List.replicate p.2.1 255, cnt := 0 })

def rowOnLink (ps : List (Nat × Nat × EngPlace)) : Bool := ps.any (fun p => linkPa p.2.2.pa)

/-- A row shares an aligned 8-byte unit that it does not cover with a row still to be attempted, or with kept bytes (R142). -/
def rowShares (c : Cmd) (later : List Spot) (a row : Nat) : Bool :=
  let edges := (if a % 8 == 0 then [] else [a / 8 * 8]) ++ (if (a + row) % 8 == 0 then [] else [(a + row) / 8 * 8])
  edges.any (fun u => later.any (fun p => overlap u 8 p.addr p.size) || c.kept.any (fun w => w.addr / 8 * 8 == u))

/-- A scatter's row (R378): the source row of the highest element that names it. -/
def scatRow (s : State) (c : Cmd) (row : Nat) (a : Nat) (els : List Nat) : State :=
  let e := els.foldl max 0
  let src := c.srcRow row e
  let all (s : State) (code info : Nat) : State := rowDone s c a row els (els.map (fun x => (x, code, a, info))) id
  if queueHolds s c [⟨src, row, none⟩] [⟨a, row, none⟩] || haltHolds s c [⟨a, row, none⟩] then s
  else if a % 4 != 0 then all s tcMisalign 0
  else match rowPieces c .engWrite (linePieces a row) s with
    | .wait t => t
    | .fault t code _ info => all t code info
    | .ok t ps =>
      match engRead t c src row with
      | .wait t => t
      | .fault t code _ info => rowDone t c src row els [(e, code, src, info)] id
      | .ok t bs =>
        let c1 := { c with todo := c.todo.filter (fun e => !els.contains e) }
        if rowOnLink ps || rowShares c c1.laterSpots a row then
          match rowOut t c1 c1.laterSpots els a bs with
          | .wait t => t
          | .fault t code _ info => all t code info
          | .ok t d => rowDone t d src row els [] id
        else match quietRow ps t with
          | none => ps.foldl (fun t p => t.knock p.2.2.pa) t
          | some t =>
            if rowPoisoned t ps then all t tcEccData 0
            else match writeRow c a bs ps t with
              | none => t
              | some t =>
                let t := countDown t c (2 * row)
                rowDone t ((t.cmd c.id).getD c) src row els [] id

/-- One word of SCATA's fold (R378): 0 FP32, 1 INT32, 2 BF16. -/
def addWord (fmt m x : Nat) : Nat :=
  let fadd (f a b : Nat) : Nat := (roundTo (exactSum [decodeVal a f, decodeVal b f] 0).1 f 0 false).1
  match fmt with
  | 0 => fadd 1 m x
  | 1 => (m + x) % 2 ^ 32
  | _ => fadd 4 (m % 2 ^ 16) (x % 2 ^ 16) + 2 ^ 16 * fadd 4 (m / 2 ^ 16) (x / 2 ^ 16)

def addRow (fmt : Nat) (m x : List Byte) : List Byte :=
  ((words32 m).zip (words32 x)).flatMap (fun p => leBytes 4 (addWord fmt p.1 p.2))

/-- The source rows of SCATA's elements: those read, and those that fault. -/
def scataRows (c : Cmd) (row : Nat) : List Nat → State → ERes (List (List Byte) × List (Nat × Nat × Nat × Nat))
  | [], s => .ok s ([], [])
  | e :: r, s =>
    let a := c.srcRow row e
    match engRead s c a row with
    | .wait t => .wait t
    | .fault t code _ info => (scataRows c row r t).bind (fun t x => .ok t (x.1, (e, code, a, info) :: x.2))
    | .ok t b => (scataRows c row r t).bind (fun t x => .ok t (b :: x.1, x.2))

/-- SCATA's row (R378): one indivisible step folds the elements' rows into it in increasing order. Its bytes are counted once, with the fold after
which no element that names it is left (R63). -/
def scataRow (s : State) (c : Cmd) (row fmt : Nat) (a : Nat) (els : List Nat) : State :=
  let els := sortBy (fun x y => decide (x < y)) els
  let all (s : State) (code info : Nat) : State := rowDone s c a row els (els.map (fun x => (x, code, a, info))) id
  if queueHolds s c (els.map (fun e => ⟨c.srcRow row e, row, none⟩)) [⟨a, row, none⟩] || haltHolds s c [⟨a, row, none⟩] then s
  else if a % 4 != 0 then all s tcMisalign 0
  else match rowPieces c .engAtomic (linePieces a row) s with
    | .wait t => t
    | .fault t code _ info => all t code info
    | .ok t ps =>
      match engReadPieces c (linePieces a row) t with
      | .wait t => t
      | .fault t code _ info => all t code info
      | .ok t m =>
        match scataRows c row els t with
        | .wait t | .fault t _ _ _ => t
        | .ok t (xs, fs) =>
          let drop (t : State) : State := rowDone t ((t.cmd c.id).getD c) a row els fs (fun c => { c with got := [], bad := [] })
          if xs.isEmpty then drop t
          else match quietRow ps t with
            | none => t
            | some t =>
              if rowPoisoned t ps then all t tcEccData 0
              else match writeRow c a (xs.foldl (addRow fmt) m) ps t with
                | none => t
                | some t => drop (if fs.isEmpty then countDown t c (2 * row) else t)

/-- PICKER_ROW_ACCESS (R376 to R379): distinct row k of the pending elements. -/
def execPickerRowAccess (id k : Nat) (s : State) : Out3 :=
  match s.cmd id with
  | none => .next s
  | some c =>
    match c.rows[k]? with
    | none => .next s
    | some a =>
      if c.status != .running || !c.live s || c.stale then .next s
      else if behindStuck s c then .next (settle s id)
      else
        let els := c.todo.filter (fun e => c.rowAddr e == a)
        match c.kind with
        | .gath _ _ row _ rep _ => .next (gathRow s c row rep a els)
        | .scat _ _ row _ => .next (scatRow s c row a els)
        | .scata _ _ row _ fmt => .next (scataRow s c row fmt a els)
        | .cpyLin _ | .cpyShp _ | .stair _ _ | .subs _ _ | .fill _ _ _ _ => .next s

/-! ### Completion (R150, R158, R365) -/

/-- The next run of an engine task's picker, after one of 4,096 elements (R210). -/
def nextRun (s : State) (c : Cmd) : Option Cmd :=
  if c.left == 0 then none
  else
    let m := min 4096 c.left
    let kind := match c.kind with
      | .gath st n row ioff rep bmp => CmdKind.gath st m row (ioff + 4 * n) rep (bmp + 4 * (n / 32))
      | .scat st n row ioff => .scat st m row (ioff + 4 * n)
      | .scata st n row ioff fmt => .scata st m row (ioff + 4 * n) fmt
      | .cpyLin _ | .cpyShp _ | .stair _ _ | .subs _ _ | .fill _ _ _ _ => c.kind
    let rep := match c.kind with | .gath _ _ _ _ r _ => r | _ => false
    let (dst, src) := match c.kind with
      | .gath _ n row _ _ _ => (c.dst + n * row, c.src)
      | .scat _ n row _ | .scata _ n row _ _ => (c.dst, c.src + n * row)
      | .cpyLin _ | .cpyShp _ | .stair _ _ | .subs _ _ | .fill _ _ _ _ => (c.dst, c.src)
    some { c with id := s.fresh, dst := dst, src := src, kind := kind, status := .issued, todo := range 0 m, bitmap := rep
                  zeroed := [], idx := [], ebase := c.ebase + c.count, left := c.left - m, touched := [] }

/-- A task's launch counter falls (R158). -/
def lowerTask (s : State) (job tidx : Nat) : State :=
  s.modJob job (fun j => { j with window := mapIf (fun t => t.tidx == tidx) (fun t => { t with launchCtr := t.launchCtr - 1 }) j.window })

/-- ENGINE_COMMAND_COMPLETE (R150, R365): in the order of its queue, but never behind a command of another job that waits on a
halted one (R367); an engine task goes on to its next run or lowers its launch counter. -/
def execEngineCommandComplete (id : Nat) (s : State) : Out3 :=
  match s.cmd id with
  | none => .next s
  | some c =>
    let ahead := (earlierCmds s c).any (fun e => e.inFlight &&
      !(e.unit.job != c.unit.job && haltHolds s e ((sectorSpots e (if e.isPicker then 0 else e.sectorLen)).2 ++ e.rows.map (fun a => ⟨a, 1, none⟩))))
    if c.status != .running || !c.finished || ahead then .next s
    else
      let t := s.dropCmd id
      if !c.task then .next t
      else match nextRun t c with
        | some x => .next { t with cmds := t.cmds ++ [x], fresh := t.fresh + 1 }
        | none => .next (lowerTask t c.unit.job c.unit.tidx)

/-! ### Stopping and issuing again (R369, R370) -/

/-- At a save, the commands in flight that stand at a boundary stop without a fault; the others go on to theirs (R370, R412). -/
def stopForSave (s : State) (k : UKey) : State :=
  (s.unitCmds k).foldl (fun t c =>
    if c.status == .issued || (c.inFlight && c.atBoundary) then t.putCmd { c.withIndices t with status := .stopped, got := [], bad := [] } else t) s

/-- Every command of the unit has stopped, and what a halt left on a link has come back. -/
def cmdsDrained (s : State) (k : UKey) : Bool := (s.unitCmds k).all (fun c => !c.inFlight && c.sent.isEmpty)

/-- A command as it is issued again: with what it still has to write (R369). -/
def Cmd.again (c : Cmd) : Cmd := { c.pending with status := .issued, touched := [], stale := !c.landings.isEmpty }

/-- The unit's commands are issued again in their order on a pair: stopped ones, and after a trap halted and held ones too; their
lines go empty, F falls (R369). -/
def reissue (s : State) (u : UnitSt) (afterTrap : Bool) : State :=
  let mine := s.unitCmds u.key
  let again (c : Cmd) : Bool := match c.status with
    | .stopped => true
    | .halted _ | .held => afterTrap
    | .issued | .running => false
  let cs := mine.map (fun c => if again c then ({ c.again with pair := u.pair } : Cmd) else { c with pair := u.pair })
  let s := { s with cmds := s.cmds.filter (fun (c : Cmd) => !(c.unit == u.key && !c.task)) ++ cs }
  let lines := (cs.filter (fun c => c.status == .issued)).flatMap (fun c => c.restLines u.regionBytes)
  s.modUnit u.key (fun v =>
    let v := UnitSt.emptyLines lines.eraseDups v
    if afterTrap then v.modCtx (fun x => { x with counters := x.counters.map (fun (k : Counter) => { k with f := false }) }) else v)

end Sys2Proof.Machine
end

