-- ==== Sys2Proof/Machine/Mirror.lean ====
section
/-!
DEFINITION. Mirrors (R65 to R73, R385, R386): SUBS, UNSUB, the home's acceptance, and the updates.
-/

namespace Sys2Proof.Machine

/-! ### SUBS at issue (R65, R385) -/

/-- Where each page of a range begins. -/
def pageStarts (va n : Nat) : List Nat := (cutAt 4096 (n / 4096 + 2) va n).map Prod.fst

/-- How the translation of a subscription's global range ends: each page with its physical address, its leaf's level, and whether RCX exempts
it. -/
inductive SubsRes where
  | ok (s : State) (pages : List (Nat × Nat × Nat × Bool))
  | wait (s : State)
  | stop (s : State) (code addr info : Nat)

/-- Translate the pages as engine reads; each must be a C page of attic store, at step 5 of R30 (R32). allowed says that the regions grant the
range; a firmware-owned job's RCX pages need no grant (R154). -/
def subsPages (u : UnitSt) (root : Nat) (allowed : Bool) : List Nat → State → SubsRes
  | [], s => .ok s []
  | va :: r, s =>
    match xlateNow s true u.launch.cls u.pair u.key.job root { kind := .engRead, subs := true } va with
    | .ok t pa e lvl =>
      if !allowed && !Pte.rcx e then .stop t tcRegion va 0
      else
        match subsPages u root allowed r t with
        | .ok x ps => .ok x ((va / 4096, pa, lvl, s.fwj u.key.job && Pte.rcx e) :: ps)
        | .stop x code a info => .stop x code a info
        | .wait x => .wait x
    | .wait t _ | .retry t => .wait t
    | .trap t code info => .stop t code va info

/-- The physical runs of a global range: its pages, each from its first byte of the range on, joined where they follow one another. -/
def spansOf (g n : Nat) (pas : List Nat) : List (Nat × Nat) :=
  joinSpans (pas.zip ((cutAt 4096 (n / 4096 + 2) g n).map Prod.snd))

/-- Every run lies in the attic store of one die (R65). -/
def ownStore (s : State) (die : Nat) (l : List (Nat × Nat)) : Bool :=
  l.all (fun x => match place52 x.1, place52 (x.1 + x.2 - 1) with
    | .attic d _ _, .attic d' _ _ => d == die && d' == die && backed s (x.1 + x.2 - 1)
    | _, _ => false)

/-- SUBS (R385): the checks, then the wait for the home's answer. -/
def execSubs (f : CX) (s : State) : Out3 :=
  onCtl s (fun u =>
    let lw := (u.c f.ra).toNat
    let g := (u.c f.rb).toNat
    let size := (u.c f.rc).toNat
    let off := lw - localWindow
    let c := newCmd s u f 0 lw g (.subs s.fresh size)
    let mine := s.subs.any (fun b => b.unit == u.key && overlap b.off b.size off size)
    let shape := lw % 128 != 0 || g % 128 != 0 || size % 128 != 0 || size == 0 || 2 ^ 18 < size || u.regionBytes < off + size
    let active := s.subs.any (fun b => b.unit == u.key && b.active && overlap b.off b.size off size)
    let early := counterCause u c.ctr ++ causeIf (!inWindow lw || inWindow g || overlap g size localWindow (2 ^ 57 - localWindow)) 4 ++ causeIf (inWindow lw && active) 5 ++ causeIf (shape || mine) 7
    match engDesc s u early with
    | some t => t
    | none =>
      if 2 ^ 57 ≤ g + size then s.trapC u tcPageAbsent g (xinfo 1 7 5)
      else
        let allowed := regionOkLong u g size true false
        let bad := if allowed then none else (range g size).find? (fun a => !regionOk u a 1 true false)
        match s.job u.key.job, (if s.fwj u.key.job then none else bad) with
        | none, _ => s
        | _, some a => s.trapC u tcRegion a
        | some j, none =>
          match subsPages u j.root allowed (pageStarts g size) s with
          | .stop t code a info => t.trapC u code a info
          | .wait t => t
          | .ok t ps =>
            let pas := ps.map (fun p => p.2.1)
            if !ownStore t (dieOf u.pair) (spansOf g size pas) then t.trapC u tcEngDesc 0 7
            else if !readyToIssue u f.scope.toNat then t.waitC u .release
            else State.waitC { t with fresh := t.fresh + 1 } u (.subs { c with kind := .subs t.fresh size } t.fresh g (spansOf g size pas) size off f.rd (ps.map (fun p => (p.1, p.2.2.1, p.2.2.2)))))

/-! ### The home's answer (R66, R68, R71) -/

/-- The dirty words of a line's MG copies go to the home, and the copies go (R68, R111). -/
def recallMerged (s : State) (line : Nat) : State :=
  s.pairs.foldl (fun t p =>
    match p.l1Find line [.mg] with
    | none => t
    | some l => (homeMerge t line l.data l.dirty).l1Drop p.id line [.mg]) s

/-- Recall every L1 copy of the lines of a range (R68); none while one is busy. -/
def recallRange : Nat → State → Nat → Option State
  | 0, s, _ => some s
  | n + 1, s, line =>
    match quiesce s line true with
    | none => none
    | some t => recallRange n (recallMerged t line) (line + 1)

/-- The same for every run of a range. -/
def recallSpans : List (Nat × Nat) → State → Option State
  | [], s => some s
  | (pa, n) :: r, s => (recallRange (n / 128) s (lineOf pa)).bind (recallSpans r)

/-- SUBS_ACCEPT: the home of subscription id answers. A full table gives status 1; otherwise, once the copy queue has room, a record is taken,
every L1 copy of the range is recalled (R68), and the SUBS issues with the image: the range as it stands at the sequence number current now
(R71). Store that no longer answers or is poisoned gives no image: the command halts when it starts. -/
def execSubsAccept (id : Nat) (s : State) : Out3 :=
  let waits (u : UnitSt) : Bool := u.running && (match u.ctx.ctl.wait with | .subs _ k _ _ _ _ _ _ => k == id | _ => false)
  match s.units.find? waits with
  | none => .next s
  | some u =>
    match u.ctx.ctl.wait with
    | .subs c _ gbase spans size off rd pages =>
      let d := (homeDie s (spanPa spans 0)).getD 0
      if 256 ≤ (s.subs.filter (fun b => b.die == d)).length then .next (s.retireC (u.setC rd 1) 2)
      else if !queueHasSlot s u.pair 0 id then .next s
      else
        match (recallSpans spans s).bind (fun t => readSpans t spans) with
        | none => .next s
        | some (t, bs) =>
          let had := (t.die d).ranges.find? (fun r => r.spans == spans)
          let t := if had.isSome then t else t.modDie d (fun x => { x with ranges := x.ranges ++ [⟨spans, size, 0⟩] })
          let sub : Subscription := ⟨id, u.key, off, gbase, spans, size, d, (had.map RangeRec.seqno).getD 0, true, pages⟩
          let t := { t with subs := t.subs ++ [sub] }
          let c := if (spansBad t spans size).isSome then c else { c with next := c.count, landings := imageLandings u sub bs }
          .next (issueCmd (t.modUnit u.key (fun v => v.setC rd 0)) u c)
    | _ => .next s

/-! ### The end of a subscription (R72, R73) -/

/-- Drop the range records that no subscription names (R66). -/
def dropRecords (s : State) : State :=
  (range 0 Config.dies).foldl (fun t d => t.modDie d (fun x => { x with
    ranges := x.ranges.filter (fun r => s.subs.any (fun b => b.die == d && b.spans == r.spans)) })) s

/-- Apply an update to the subscriber's pantry copy (R69): no line state changes. -/
def applyUpdate (s : State) (b : Subscription) (x : Update) : State :=
  match s.findUnit b.unit with
  | none => s
  | some u =>
    let pa := u.pantryPa (b.off + x.off)
    let n := x.data.length
    let t := noteWrite ((s.clearPoison pa n).setBytes pa (sealList 0 pa x.data)) pa n
    { t with subs := mapIf (fun y => y.id == b.id) (fun y => { y with last := x.seqno }) t.subs }

/-- The home ends a subscription: every update numbered so far is applied first when the subscriber holds its region (R72). -/
def endSub (s : State) (b : Subscription) (apply_ : Bool) : State :=
  let mine := s.updates.filter (fun x => x.sub == b.id)
  let s := if apply_ then mine.foldl (fun t x => applyUpdate t b x) s else s
  dropRecords { s with subs := s.subs.filter (fun x => x.id != b.id), updates := s.updates.filter (fun x => x.sub != b.id) }

/-- Every subscription of a unit ends. -/
def endSubs (s : State) (k : UKey) (apply_ : Bool) : State :=
  (s.subs.filter (fun b => b.unit == k)).foldl (fun t b => endSub t b apply_) s

/-- UNSUB (R386): no mirror of the resident that begins there is cause 8. -/
def execUnsub (f : CX) (s : State) : Out3 :=
  onCtl s (fun u =>
    let lw := (u.c f.ra).toNat
    let sub := s.subs.find? (fun b => b.unit == u.key && localWindow + b.off == lw)
    match engDesc s u (causeIf (!inWindow lw) 4 ++ causeIf sub.isNone 8), sub with
    | some t, _ => t
    | none, some b => s.waitC u (.unsub b.id)
    | none, none => s)

/-- The image of a subscription is still on its way, or halted. -/
def imagePending (s : State) (sub : Nat) : Bool :=
  s.cmds.any (fun c => match c.kind with | .subs k _ => k == sub && !c.finished | _ => false)

/-- UNSUB_PROCESS (R72): once the image has landed. -/
def execUnsubProcess (pair slot : Nat) (s : State) : Out3 :=
  match s.resident pair slot with
  | none => .next s
  | some u =>
    match u.ctx.ctl.wait with
    | .unsub sub =>
      if s.cmds.any (fun c => c.inFlight && (match c.kind with | .subs k _ => k == sub | _ => false)) then .next s
      else
        let t := match s.subs.find? (fun b => b.id == sub) with
          | some b => endSub s b true
          | none => s
        .next (t.retireC (reread t u) 2)
    | _ => .next s

/-- MIRROR_UPDATE (R69): the subscriber applies its next update, in sequence order, after the image. -/
def execMirrorUpdate (sub : Nat) (s : State) : Out3 :=
  match s.subs.find? (fun b => b.id == sub), findIdxVal (fun (x : Update) => x.sub == sub) s.updates 0 with
  | some b, some (i, x) =>
    let there := match s.findUnit b.unit with
      | some u => (match u.place with | .placed _ _ | .trapped _ _ | .saving _ _ => true | .waiting | .saved | .restoring _ _ => false)
      | none => false
    if !b.active || !there || imagePending s sub then .next s
    else .next (applyUpdate { s with updates := dropIdx s.updates i } b x)
  | _, _ => .next s

end Sys2Proof.Machine
end

