-- ==== Sys2Proof/Machine/Sequencer.lean ====
section
/-!
DEFINITION. What the sequencers and the dispatchers share: reads and writes by the die agents, translation for them, partitions and
the spread rule, fault records, and how a task becomes the faulting task (R30, R189, R206, R218 to R223, R391, R400 to R405).
-/

namespace Sys2Proof.Machine

/-! ### Physical reads and writes by a die agent (R184, R402) -/

/-- Bytes of a range of home memory as a key generation reads them, from an address on. -/
def homeSeenN (k : Nat) : Nat → State → Nat → Nat → List Byte
  | 0, _, _, _ => []
  | f + 1, s, pa, n =>
    if n == 0 then []
    else
      let m := min n (128 - pa % 128)
      homeSeen s k pa m ++ homeSeenN k f s (pa + m) (n - m)

/-- Some line of a range is poisoned at its home. -/
def rangePoisoned (s : State) (pa n : Nat) : Bool := (cutAt 128 (pieces n) pa n).any (fun x => homePoisoned s x.1 x.2)

/-- Read plaintext at the homes of a range, for a class that fills the vault cache (R398, assumption 91); none while a line is busy. Poisoned
bytes are none (R437). -/
def devRead (s : State) (cls pa n : Nat) : Option (State × Option (List Byte)) :=
  (cohReadN (some cls) (pieces n) s pa n).map (fun p => (p.1, if rangePoisoned p.1 pa n then none else some (homeSeenN 0 (pieces n) p.1 pa n)))

/-- Write plaintext at the homes of a range; none while a line is busy. -/
def devWrite (s : State) (pa : Nat) (bs : List Byte) : Option State :=
  (cohWriteN (pieces bs.length) s pa (sealList 0 pa bs)).map Prod.fst

/-- An 8-byte number in memory. -/
def devQuad (s : State) (cls pa : Nat) : Option (State × Option Nat) := (devRead s cls pa 8).map (fun p => (p.1, p.2.map leNat))

/-! ### Translation for a die agent (R12, R29 to R36) -/

/-- Addresses that a die agent refuses before it translates (R11, R12): the local window is none of its own. -/
def agentRefuses (s : State) (kind : Kind) (va : Nat) : Option XRes :=
  if 2 ^ 57 ≤ va then some (.trap s tcPageAbsent (xinfo 1 7 kind.code))
  else if localWindow ≤ va then some (.trap s tcPageAttr (xinfo 6 7 kind.code))
  else none

/-- A die's L2 TLB holds a page. -/
def dieHit (s : State) (d job page : Nat) : Option (State × TlbEntry) :=
  (tlbFind (s.die d).l2tlb job page).map (fun t => ((s.modDie d (fun x => { x with l2tlb := touchTlb s.fresh t x.l2tlb })).bump, t))

/-- The leaf for an address through a die's L2 TLB or a walk in its turn (R35), without the checks of R30. -/
def walkDie (s : State) (cls d job root va : Nat) (kind : Kind) : XRes :=
  match agentRefuses s kind va, dieHit s d job (va / 4096) with
  | some x, _ => x
  | none, some (s, t) => .ok s (t.phys va) t.pte t.lvl
  | none, none =>
    match walkGate s d none job (va / 4096) { kind := kind, fwj := s.fwj job } with
    | (s, false) => .retry s
    | (s, true) =>
      match walkFrom cls d job va [4, 3, 2, 1, 0] s root with
      | .busy => .retry s
      | .fault code cause lvl => .trap s code (xinfo cause lvl kind.code)
      | .leaf s e lvl =>
        let t := leafEntry s d job va e lvl
        .ok (fillL2Tlb s d t) (t.phys va) e lvl

/-- Translate and check an access of a die agent; a miss walks in its turn (R35), and a fault found on a TLB hit walks again (R36). -/
def xlateDie (s : State) (cls d job root : Nat) (q : AccKind) (va : Nat) : XRes :=
  let q := { q with fwj := s.fwj job }
  let walk (s : State) : XRes :=
    match walkGate s d none job (va / 4096) q with
    | (s, false) => .retry s
    | (s, true) => walkNow s cls d job root q va
  match agentRefuses s q.kind va, dieHit s d job (va / 4096) with
  | some x, _ => x
  | none, none => walk s
  | none, some (s, t) =>
    match check30 s q t.pte (t.phys va) with
    | none => .ok s (t.phys va) t.pte t.lvl
    | some (code, cause) =>
      if 10 ≤ cause then .trap s code (xinfo cause t.lvl q.kind.code)
      else walk (s.modDie d (fun x => { x with l2tlb := x.l2tlb.filter (fun y => !y.hits job (va / 4096)) }))

/-- For what a sequencer reads: its job, whether it is the record at decode, which is read once (R189), how a request over a link is named,
and what has been read so far. -/
structure SeqRead where
  job : Job
  once : Bool
  what : Nat → Nat → Pending
  got : List (Nat × List Byte)
  bad : List (Nat × Nat × Nat)

/-- Reads for the record at decode (R189). -/
def Job.decodeRead (j : Job) : SeqRead := ⟨j, true, .decode j.id, j.got, j.bad⟩

/-- Reads of WAITEV and TJMPC (R214, R216). -/
def Job.taskRead (j : Job) (t : Task) : SeqRead := ⟨j, false, .task j.id t.tidx, t.got, t.bad⟩

/-- What a decode has read stays with the record until its decode ends (R189). -/
def keepRead (s : State) (x : SeqRead) (va : Nat) (bs : List Byte) : State :=
  if x.once then s.modJob x.job.id (fun j => { j with got := j.got ++ [(va, bs)] }) else s

/-- A read of a sequencer over a link is out for an address. -/
def SeqRead.asked (s : State) (x : SeqRead) (va : Nat) : Bool := s.outstanding.any (fun o => (range 0 5).any (fun lvl => o.what == x.what va lvl))

/-- Read bytes of one line at a translated address of a page mode, through a leaf of a level, or ask a link for them. Its reads fill for the
job's least class (R398, assumption 91), but for those of N pages (R108); a copy of a host line answers where it is as new as the
sequencer's acquires ask (R115, R116). -/
def seqFetch (s : State) (x : SeqRead) (va pa cm lvl n : Nat) : ERes (List Byte) :=
  match place52 pa with
  | .hbm | .attic _ _ _ =>
    match cohRead s (if cm == 2 then none else some x.job.clsmin) pa n with
    | none => .wait (s.knock pa)
    | some (t, _) =>
      if homePoisoned t pa n then .fault t tcEccData va 0
      else
        let bs := homeSeen t x.job.keyGen pa n
        .ok (keepRead t x va bs) bs
  | .pantry _ _ =>
    if s.poisoned pa n then .fault s tcEccData va 0
    else
      let bs := (s.bytesAt pa n).map TByte.v
      .ok (keepRead s x va bs) bs
  | .host _ _ | .peer _ _ =>
    match hostSlot s x.job.die x.job.hostFloor pa n with
    | some bs =>
      if bs.any TByte.bad then .fault s tcEccData va 0
      else .ok (keepRead (touchHome s pa) x va (bs.map TByte.v)) (bs.map TByte.v)
    | none =>
    match x.got.find? (fun g => g.1 == va) with
    | some g => .ok s g.2
    | none =>
      match x.bad.find? (fun b => b.1 == va) with
      | some b => .fault s b.2.1 va b.2.2
      | none =>
        if x.asked s va then .wait s
        else .wait ((linkRead s pa n (x.what va lvl)).getD s)
  | .mmio _ _ | .unmapped => .fault s tcPageAttr va (xinfo 10 lvl 0)

/-- Read pieces of lines with the access kind load; what the decode has read it does not read again (R189). A sequencer asks the MMIO class
for nothing (assumption 92). -/
def seqPieces (x : SeqRead) : List (Nat × Nat) → State → ERes (List Byte)
  | [], s => .ok s []
  | (va, n) :: r, s =>
    match if x.once then x.got.find? (fun g => g.1 == va) else none with
    | some g => (seqPieces x r s).bind (fun t bs => .ok t (g.2 ++ bs))
    | none =>
    match xlateDie s x.job.clsmin x.job.die x.job.id x.job.root { kind := .load } va with
    | .wait t _ | .retry t => .wait t
    | .trap t code info => .fault t code va info
    | .ok t pa e lvl =>
      (seqFetch t x va pa (Pte.cm e) lvl n).bind (fun t b => (seqPieces x r t).bind (fun t bs => .ok t (b ++ bs)))

/-- Read a range. -/
def seqRead (s : State) (x : SeqRead) (va n : Nat) : ERes (List Byte) := seqPieces x (linePieces va n) s

/-! ### Partitions (R389, R391, R439) -/

/-- The clusters of the pair partition, by number 6d + c. -/
def Job.clusters (j : Job) : List Nat := (range 0 24).filter (fun c => j.clus.testBit c)

/-- The pairs of a cluster. -/
def clusterMembers (cl : Nat) : List Nat := range (cl / 6 * Config.pairsPerDie + cl % 6 * Config.clusterPairs) Config.clusterPairs

/-- A pair is not taken out of placement by PAIROFF. -/
def pairOn (s : State) (p : Nat) : Bool := !(s.die (dieOf p)).pairoff.getLsbD (p % Config.pairsPerDie)

def clusterOn (s : State) (cl : Nat) : Bool := (clusterMembers cl).any (pairOn s)

/-- Every pair of the pair partition. -/
def Job.partition (j : Job) : List Nat := j.clusters.flatMap clusterMembers

/-- The first cluster at or after a number, the lowest one when there is none. -/
def nextCluster (cs : List Nat) (n : Nat) : Nat := ((cs.find? (fun c => n ≤ c)).getD (cs.headD 0))

/-- The cluster that the spread rule takes, and the pointer after it (R206, R391, R439). -/
def Job.spreadTake (s : State) (j : Job) : Nat × Nat :=
  let cs := j.clusters
  let first := nextCluster cs j.spread
  let turn := cs.filter (fun c => first ≤ c) ++ cs.filter (fun c => c < first)
  let cl := (turn.find? (clusterOn s)).getD first
  (cl, nextCluster cs (cl + 1))

/-- A vault lies in the vault partition (R389). -/
def Job.hasVault (j : Job) (die vault : Nat) : Bool := j.vlt.testBit (24 * die + vault)

/-! ### Fault records (R400, R401, R405) -/

/-- Where a unit stands, as a record names it. -/
def UnitSt.ident (u : UnitSt) : UnitId := ⟨u.key, u.lastPair, u.lastSlot, u.ux, u.uy, u.uz, u.ctxslot⟩

/-- LSEQ of a record about a task: its own number once it has issued as a launch or engine task, or the number issued so far. -/
def Job.lseqOf (j : Job) (tidx : Nat) : Nat :=
  match j.window.find? (fun t => t.tidx == tidx) with
  | some t => (match t.kind with | .launch _ _ _ _ _ _ _ _ | .engine _ => if t.issued then t.lseq else j.lseq | _ => j.lseq)
  | none => j.lseq

/-- The 64 bytes of a fault record. PAIR and SLOT are 0 in task records; fields that do not apply are 0. -/
def recordBytes (job lseq : Nat) (f : TaskFault) : List Byte :=
  let t := f.trap
  let own := f.unit.isSome && t.src != 6
  let pr := match f.unit with | some u => if own then u.pair else 0 | none => 0
  let sl := match f.unit with | some u => if own then u.slot else 0 | none => 0
  let x := match f.unit with | some u => u.ux | none => 0
  let y := match f.unit with | some u => u.uy | none => 0
  let z := match f.unit with | some u => u.uz | none => 0
  let cs := match f.unit.bind UnitId.ctxslot with | some (d, k) => d * 2 ^ 14 + k | none => 0
  leBytes 8 (t.code + t.src * 2 ^ 8 + job * 2 ^ 12 + pr * 2 ^ 24 + sl * 2 ^ 33 + b2n t.posted * 2 ^ 35 + b2n (f.more || t.more) * 2 ^ 36 +
      lseq % 2 ^ 24 * 2 ^ 40) ++
    leBytes 8 f.tidx ++ leBytes 4 x ++ leBytes 4 y ++ leBytes 4 z ++ leBytes 4 (t.chseq.getD 0) ++ leBytes 4 t.pc ++
    leBytes 4 (t.iter.getD 0) ++ leBytes 8 t.addr ++ leBytes 4 t.info ++ leBytes 1 t.hcode ++ leBytes 3 (t.hq % 16) ++
    leBytes 6 t.offset ++ leBytes 2 cs

/-- Where records of a job go: its block, its ring when that is usable, its vector when that is usable. -/
structure Report where
  jcb : Nat
  cls : Nat
  ring : Option (Nat × Nat)
  vector : Option (Nat × Nat)

def Job.report (j : Job) : Report := ⟨j.jcb, j.clsmin, some (j.ring, j.rsize), some (j.func, j.fvec)⟩

/-- Write a record to the ring (R405): entry RPROD mod RSIZE, or RLOST when the ring is full. A record whose place is poisoned, because RPROD or
RCONS is, is lost as well (R437, assumption 114). -/
def ringWrite (s : State) (r : Report) (bs : List Byte) : Option State :=
  match r.ring with
  | none => some s
  | some (ring, rsize) =>
    match devQuad s r.cls (r.jcb + 0xD0) with
    | none => none
    | some (s, prod) =>
      match devQuad s r.cls (r.jcb + 0xD8) with
      | none => none
      | some (s, cons) =>
        let lost : Option State := (devQuad s r.cls (r.jcb + 0xE0)).bind (fun p => match p.2 with
          | some n => devWrite p.1 (r.jcb + 0xE0) (leBytes 8 (n + 1))
          | none => some p.1)
        match prod, cons with
        | some prod, some cons =>
          if (prod + 2 ^ 64 - cons) % 2 ^ 64 == rsize then lost
          else (devWrite s (ring + prod % rsize * 64) bs).bind (fun s => devWrite s (r.jcb + 0xD0) (leBytes 8 (prod + 1)))
        | _, _ => lost

/-- Write a record (R404): to STOPREC when it stops the job, to the ring, and the interrupt. None while a line is busy. -/
def writeRecord (s : State) (r : Report) (stop : Bool) (bs : List Byte) : Option State :=
  ((if stop then devWrite s (r.jcb + 0x100) bs else some s).bind (fun s => ringWrite s r bs)).map (fun s =>
    match r.vector with
    | some (f, v) => s.interrupt f v
    | none => s)

/-! ### The faulting task (R221, R223) -/

/-- A trap with source task (R401). -/
def taskTrapOf (code addr info : Nat) : Trap := { code := code, src := 6, addr := addr, info := info }

/-- Freeze every placed unit of a task; a unit whose restore has not happened stays saved (R221, step 2). -/
def freezeTask (s : State) (job tidx : Nat) : State :=
  let mine := (s.units.filter (fun u => u.key.job == job && u.key.tidx == tidx)).map UnitSt.key
  let s := mine.foldl State.freeze s
  { s with units := s.units.map (fun u =>
      match u.place with
      | .restoring _ _ => if u.key.job == job && u.key.tidx == tidx then { u with place := .saved } else u
      | .waiting | .placed _ _ | .trapped _ _ | .saving _ _ | .saved => u) }

/-- A fault makes its task the faulting task, unless an older one has; a further fault of the same task only sets MORE (R221,
R223). A job that a stop is halting keeps the fault for its resume. -/
def raiseFault (s : State) (id : Nat) (f : TaskFault) : State :=
  match s.job id with
  | none => s
  | some j =>
    let take (st : JobStatus) : State := freezeTask (s.putJob { j with status := st, fault := some f }) id f.tidx
    let go (st : JobStatus) : State :=
      match j.fault with
      | none => take st
      | some g =>
        if f.tidx < g.tidx then take st
        else if f.tidx == g.tidx then s.putJob { j with fault := some { g with more := true, resumable := g.resumable && f.resumable } }
        else s
    match j.status with
    | .running | .faulting _ => go (.faulting f.tidx)
    | .stopping => go .stopping
    | .halted _ => s

/-- A trap of a task in the window (R213, R214, R216). -/
def taskFault (s : State) (id tidx code addr info : Nat) : State :=
  raiseFault s id { tidx := tidx, trap := { taskTrapOf code addr info with time := s.cycle }, unit := none }

/-- The address of the record at decode; a spawned one stands for the successor of the spawning launch (R226). -/
def Job.recAddr (j : Job) : Nat := if j.spawn.isEmpty then j.pc else j.succ

/-- The record at decode fails (R188, R221): it has no effect. -/
def decodeFault (s : State) (j : Job) (code addr info : Nat) : State :=
  taskFault (s.modJob j.id (fun j => { j with got := [], bad := [] })) j.id j.tidx code addr info

/-! ### Units that end (R158, R160, R184) -/

/-- LOW moves past completed units. -/
def raiseLow : Nat → Nat → List Nat → Nat × List Nat
  | 0, low, done => (low, done)
  | n + 1, low, done => if done.contains low then raiseLow n (low + 1) (done.filter (fun x => x != low)) else (low, done)

/-- A unit of the task has completed, or counts as completed. One that is cancelled before its launch issues is taken off the launch
counter when that starts (R158, R160). -/
def Task.countUnit (t : Task) (lin : Nat) : Task :=
  if lin < t.low || t.doneSet.contains lin then t
  else
    let d := lin :: t.doneSet
    let r := raiseLow (d.length + 1) t.low d
    { t with low := r.1, doneSet := r.2, launchCtr := t.launchCtr - 1 }

def State.modTask (s : State) (job tidx : Nat) (f : Task → Task) : State :=
  s.modJob job (fun j => { j with window := mapIf (fun t => t.tidx == tidx) f j.window })

/-- A unit gives up all that it holds: its slot and region with its record, its commands, its context slot (R158, R160, R176). The
pair on which it last ran is kept for its trigger entry (R208). -/
def releaseUnit (s : State) (u : UnitSt) : State :=
  let k := u.key
  let s := if u.ever then { s with lastRuns := s.lastRuns ++ [(k, u.lastPair, u.firstDie)] } else s
  let s := match u.occupies with
    | none => s
    | some (p, _) => (s.abandonMatrix k p).modPair p (fun x => { x with mq := x.mq.filter (fun c => c.unit != k), vgrab := x.vgrab.filter (fun y => y != k) })
  let s := { s with cmds := s.cmds.filter (fun (c : Cmd) => c.task || c.unit != k) }
  let s := match u.ctxslot with
    | none => s
    | some c => s.modJob k.job (fun j => { j with slotsUsed := j.slotsUsed.filter (fun x => x != c) })
  s.dropUnit k

/-- The commands of a list come to a sector or element boundary (R160); none while a line is busy or a link has no room. -/
def boundAll : List Nat → State → Option State
  | [], s => some s
  | i :: r, s => (match s.cmd i with | some c => finishSector s c | none => some s).bind (boundAll r)

/-- Discard a unit without a save (R160): its commands halt at a boundary, its subscriptions end, its trigger entry can fire (R208). -/
def discardUnit (s : State) (k : UKey) : Option State :=
  match s.findUnit k with
  | none => some s
  | some _ => (boundAll ((s.cmds.filter (fun (c : Cmd) => !c.task && c.unit == k)).map Cmd.id) s).map (fun s =>
      match s.findUnit k with
      | none => s
      | some u => releaseUnit (endSubs s k false) u)

def discardUnits : List UKey → State → Option State
  | [], s => some s
  | k :: r, s => (discardUnit s k).bind (discardUnits r)

/-- Discard the work of a task: its units, its engine commands, the records its units have enqueued (R160, R222). -/
def discardTask (s : State) (job tidx : Nat) : Option State :=
  let own (c : Cmd) : Bool := c.task && c.unit.job == job && c.unit.tidx == tidx
  ((boundAll ((s.cmds.filter own).map Cmd.id) s).bind (fun s =>
    discardUnits ((s.units.filter (fun u => u.key.job == job && u.key.tidx == tidx)).map UnitSt.key) s)).map (fun s =>
      let s := { s with cmds := s.cmds.filter (fun c => !own c) }
      let s := (range 0 Config.dies).foldl (fun t d => t.modDie d (fun x =>
        { x with triggers := x.triggers.filter (fun e => !(e.unit.job == job && e.unit.tidx == tidx)) })) s
      s.modJob job (fun j => { j with spawn := j.spawn.filter (fun x => x.1 != tidx) }))

def discardTasks (job : Nat) : List Nat → State → Option State
  | [], s => some s
  | i :: r, s => (discardTask s job i).bind (discardTasks job r)

/-- The requests of a job's PHASEs that have reached the vault controllers go ahead without it (R86). -/
def orphanSplits (s : State) (job : Nat) : State :=
  (range 0 Config.dies).foldl (fun t d => t.modDie d (fun x =>
    { x with vwait := mapIf (fun r => r.job == job) (fun r => { r with job := 4096 }) x.vwait
             vaults := x.vaults.map (fun (v : Vault) => match v.forTask with
               | some (k, i) => if k == job then { v with forTask := some (4096, i) } else v
               | none => v) })) s

/-- Whether a task is a launch or an engine task. -/
def Task.isLaunch (t : Task) : Bool := match t.kind with | .launch _ _ _ _ _ _ _ _ | .engine _ => true | _ => false

/-- A launch or an engine task has work that a cancel would discard (R160, R417). -/
def Task.hasWork (t : Task) : Bool :=
  t.isLaunch && !t.completed && (match t.kind with | .launch _ _ _ _ _ _ _ _ => t.low < t.units | _ => !(t.issued && t.launchCtr == 0))

/-! ### What a stopping job leaves in memory (R184, R226) -/

/-- The spawn queue fills the save area, records first, zeros after them. -/
def spawnBytes (j : Job) : List Byte :=
  let bs := j.spawn.flatMap (fun x => leBytes 32 x.2.toNat)
  bs ++ List.replicate (8192 - bs.length) 0

/-- Write a page of the save area through the job's tables; a page that no longer translates to HBM is left out. None while a line is
busy. -/
def writeSpawnPage (s : State) (j : Job) (k : Nat) : Option State :=
  let va := j.spawnArea + 4096 * k
  match walkDie s j.clsmin j.die j.id j.root va .store with
  | .wait _ _ | .retry _ => none
  | .trap t _ _ => some t
  | .ok t pa _ _ =>
    if !isHbm pa then some t
    else (cohWriteN (pieces 4096) t pa (sealList j.keyGen pa (sliceOf (spawnBytes j) (4096 * k) 4096))).map Prod.fst

/-- STREAM and SPAWN of a job that stops. -/
def writeResume (s : State) (j : Job) (stream : Nat) : Option State :=
  (devWrite s (j.jcb + 0x48) (leBytes 8 stream)).bind (fun s => (writeSpawnPage s j 0).bind (fun s => writeSpawnPage s j 1))

/-- The DONE bits from a low index on. -/
def doneBits (low : Nat) (done : List Nat) : Nat := done.foldl (fun a i => if low ≤ i && i < low + 4096 then a ||| 2 ^ (i - low) else a) 0

/-- LOW, HIGH, TIDX and DONE (R184). -/
def writeProgress (s : State) (j : Job) (tidx low high : Nat) (done : List Nat) : Option State :=
  devWrite s (j.jcb + 0x200) (leBytes 4 low ++ leBytes 4 high ++ leBytes 8 tidx ++ leBytes 512 (doneBits low done))

/-- A task whose work is units. -/
def hasUnits (t : Task) : Bool := match t.kind with | .launch _ _ _ _ _ _ _ _ => true | _ => false

/-- The resume area of a job that stops without a faulting task: its oldest task is the stopped one, STREAM the next record to decode
(R184). -/
def writeStop (s : State) (j : Job) : Option State :=
  let w := match j.window with
    | t :: _ => if hasUnits t then writeProgress s j t.tidx t.low t.high t.doneSet else writeProgress s j t.tidx 0 0 []
    | [] => writeProgress s j j.tidx 0 0 []
  w.bind (fun s => writeResume s j j.pc)

/-- A CANCELLED record for a launch, to the ring only (R417). -/
def cancelRecord (s : State) (j : Job) (tidx : Nat) : Option State :=
  writeRecord s j.report false (recordBytes j.id (j.lseqOf tidx) { tidx := tidx, trap := taskTrapOf tcCancelled 0 0, unit := none })

/-- Cancel the whole job (R218 LVL 3, R219, R403): a record for each launch with work left, then one to STOPREC; the job stops, and its
resume area is written (R184): a CANCEL, which stands at the stream index tidx, has been decoded by then. -/
def cancelJob (s : State) (j : Job) (tidx : Nat) : Option State :=
  let left := j.window.filter Task.hasWork
  let rec records : List Task → State → Option State
    | [], s => some s
    | t :: r, s => (cancelRecord s j t.tidx).bind (records r)
  let gone (x : Nat × BitVec 256) : Bool := j.window.any (fun t => t.tidx == x.1)
  let own := tidx == j.tidx
  let rest := { j with
    spawn := (if own then j.spawn.drop 1 else j.spawn).filter (fun x => !gone x)
    pc := if own && j.spawn.isEmpty then (j.pc + 32) % 2 ^ 64 else j.pc }
  ((records left s).bind (fun s => (writeStop s rest).bind (fun s =>
    (writeRecord s j.report true (recordBytes j.id j.lseq { tidx := tidx, trap := taskTrapOf tcCancelled 0 0, unit := none })).bind
      (discardTasks j.id (j.window.map Task.tidx))))).map (fun s =>
    let s := orphanSplits s j.id
    { s with jobs := s.jobs.filter (fun x => x.id != j.id), lastRuns := s.lastRuns.filter (fun x => x.1.job != j.id) })

end Sys2Proof.Machine
end

