-- ==== Sys2Proof/Machine/Tasks.lean ====
section
/-!
DEFINITION. The decode of task records (06): BIND, UNBIND, POOL, LAUNCH, the engine tasks, PHASE, and the ordering and control tasks.
A record that decodes enters the window; one that fails makes the faulting task; one that must wait leaves the state as it is.
-/

namespace Sys2Proof.Machine

/-! ### Entering the window (R184, R189, R222, R226) -/

/-- The task of the record at decode. A spawned record keeps the decode address, and its own address is that of the spawning launch's
successor (R226). -/
def Job.newTask (j : Job) (op : Nat) (r : Rec) (kind : TaskKind) : Task :=
  { tidx := j.tidx, addr := j.recAddr, pcAfter := if j.spawn.isEmpty then (j.pc + 32) % 2 ^ 64 else j.pc, spawned := j.spawn.head?.map Prod.fst
    rcd := r.word op, kind := kind, phaseNo := j.phaseNo }

/-- The task enters the window, with the rename map and the pools as its decode leaves them. -/
def enterTask (s : State) (id : Nat) (map : List (Nat × Buf)) (pools : List Pool) (t : Task) : State :=
  s.modJob id (fun j => { j with
    window := j.window ++ [{ t with mapAfter := map }], map := map, pools := pools, tidx := j.tidx + 1, pc := t.pcAfter, spawn := j.spawn.drop 1
    succ := if j.spawn.isEmpty then (j.pc + 32) % 2 ^ 64 else j.succ
    got := [], bad := []
    phaseNo := match t.kind with | .phase _ => j.phaseNo + 1 | _ => j.phaseNo })

/-- A task that completes at decode (R201). -/
def Task.instantly (t : Task) : Task := { t with issued := true, completed := true }

/-- Go on with what was read, wait, or fail decode. -/
def decodeWith {α : Type} (j : Job) (x : ERes α) (f : State → α → State) : State :=
  match x with
  | .ok s a => f s a
  | .wait s => s
  | .fault s code addr info => decodeFault s j code addr info

/-- TASK_DECODE (R188). -/
def Job.badRecord {α : Type} (j : Job) (s : State) : ERes α := .fault s tcTaskDecode j.recAddr 0

/-! ### Logical buffers (R190 to R194, R203) -/

def bufAt (m : List (Nat × Buf)) (b : Nat) : Option Buf := (m.find? (fun x => x.1 == b)).map Prod.snd

def putBuf (m : List (Nat × Buf)) (b : Nat) (x : Buf) : List (Nat × Buf) := (b, x) :: m.filter (fun y => y.1 != b)

def poolAt (ps : List Pool) (id : Nat) : Option Pool := ps.find? (fun p => p.id == id)

def putPool (ps : List Pool) (p : Pool) : List Pool := p :: ps.filter (fun x => x.id != p.id)

/-- The first byte of a slot (R193). -/
def Pool.slotBase (p : Pool) (k : Nat) : Nat := p.base + k * p.slotsz * 4096

/-- A buffer descriptor (R190). -/
def bufOfBytes (bs : List Byte) : Option Buf :=
  let w := quad bs 8
  let dims := bits w 5 4 + 1
  let fmt := bits w 3 0
  let ext := (range 0 4).map (fun i => leNat (sliceOf bs (0x10 + 4 * i) 4))
  let str := (range 0 4).map (fun i => sintOf 64 (quad bs (0x20 + 8 * i)))
  if w / 64 != 0 || 12 < fmt || ext.any (fun x => x == 0) || (ext.drop dims).any (fun x => x != 1) then none
  else some { base := quad bs 0, dims := dims, fmt := fmt, ext := ext, str := str, pool := none, vaults := [] }

/-- The hull of a whole buffer (R191). -/
def Buf.hull (b : Buf) : Int × Int := (boxHull b (wholeBox b) 0 0 0).getD ((b.base : Int), (b.base : Int))

/-- The vaults whose store the pages of a hull reach (R191): each page is translated; bytes of another class, or of none, fail. A vault counts
by its 16 MiB of the attic class, whatever its store size is now (assumption 93). -/
def vaultPages (j : Job) (hi : Nat) : Nat → Nat → State → ERes (List (Nat × Nat))
  | 0, _, s => .ok s []
  | k + 1, va, s =>
    if hi ≤ va then .ok s []
    else
      match walkDie s j.clsmin j.die j.id j.root va .load with
      | .wait t _ | .retry t => .wait t
      | .trap t code info => .fault t code va info
      | .ok t pa _ lvl =>
        let next := (va / 2 ^ (12 + 9 * lvl) + 1) * 2 ^ (12 + 9 * lvl)
        match place52 pa, place52 (pa + (min next hi - va) - 1) with
        | .attic d v _, .attic d' v' _ =>
          if d != d' then .fault t tcBindFault j.recAddr 0
          else (vaultPages j hi k next t).bind (fun t l => .ok t (((range v (v' + 1 - v)).map (fun x => (d, x)) ++ l).eraseDups))
        | _, _ => .fault t tcBindFault j.recAddr 0

/-- The vault set of a buffer (R191): its first page decides whether the others are translated. -/
def vaultSet (s : State) (j : Job) (b : Buf) : ERes (List (Nat × Nat)) :=
  let (lo, hi) := b.hull
  if lo < 0 || (2 ^ 57 : Int) < hi || (localWindow : Int) < hi then .fault s tcBindFault j.recAddr 0
  else
    let va := lo.toNat / 4096 * 4096
    match walkDie s j.clsmin j.die j.id j.root va .load with
    | .wait t _ | .retry t => .wait t
    | .trap t code info => .fault t code va info
    | .ok t pa _ _ =>
      match place52 pa with
      | .attic _ _ _ => vaultPages j hi.toNat ((hi.toNat - va) / 4096 + 2) va t
      | _ => .ok t []

/-- Slots of pools that a decode asks for, in order: taken, to be waited for because an older task will free one, or exhausted (R203). -/
inductive TakeRes where
  | ok (pools : List Pool) (slots : List (Nat × Nat))
  | wait
  | exhausted

def takeSlots (j : Job) : List Nat → List Pool → TakeRes
  | [], ps => .ok ps []
  | id :: r, ps =>
    match (poolAt ps id).map (fun p => (p, p.shelf)) with
    | some (p, k :: shelf) =>
      match takeSlots j r (putPool ps { p with shelf := shelf }) with
      | .ok ps l => .ok ps ((id, k) :: l)
      | .wait => .wait
      | .exhausted => .exhausted
    | some (_, []) | none => if j.window.any (fun t => t.dead.any (fun x => x.1 == id)) then .wait else .exhausted

/-- The slot that a mapped buffer would leave behind. -/
def deadSlot (m : List (Nat × Buf)) (b : Nat) : List (Nat × Nat) := ((bufAt m b).bind Buf.pool).toList

/-- BIND (R190, R191): the descriptor, the slot of a pooled buffer, the vault set; the buffer's earlier binding ends. Of several faults of one
record the first in this order is reported (assumption 94). -/
def execBind (r : Rec) (s : State) : Out3 :=
  onSeq s (fun j =>
    let x := r.x32.toNat
    let buf := x % 256
    let pid := bits x 13 8
    let pooled := bit x 14
    decodeWith j (seqRead s j.decodeRead r.q2.toNat 64) (fun s bs =>
      match bufOfBytes bs with
      | none => decodeFault s j tcTaskDecode j.recAddr 0
      | some b =>
        let go (s : State) (b : Buf) (pools : List Pool) (fresh : List (Nat × Nat)) : State :=
          decodeWith j (vaultSet s j b) (fun s vs =>
            let t := (j.newTask 0x01 r .instant).instantly
            enterTask s j.id (putBuf j.map buf { b with vaults := vs }) pools { t with fresh := fresh, dead := deadSlot j.map buf })
        if !pooled then go s b j.pools []
        else match poolAt j.pools pid with
          | none => decodeFault s j tcBindFault j.recAddr 0
          | some p =>
            let (lo, hi) := b.hull
            if ((p.slotsz * 4096 : Nat) : Int) < hi - lo then decodeFault s j tcPoolSize j.recAddr 0
            else match takeSlots j [pid] j.pools with
              | .wait => s
              | .exhausted => decodeFault s j tcPoolSize j.recAddr 1
              | .ok pools slots => go s { b with base := p.slotBase ((slots.headD (0, 0)).2), pool := slots.head? } pools slots))

/-- UNBIND (R192). -/
def execUnbind (r : Rec) (s : State) : Out3 :=
  onSeq s (fun j =>
    let buf := r.x32.toNat % 256
    enterTask s j.id (j.map.filter (fun x => x.1 != buf)) j.pools { (j.newTask 0x02 r .instant).instantly with dead := deadSlot j.map buf })

/-- POOL (R193): a declared pool with a slot mapped or held by a task in the window stays. -/
def execPool (r : Rec) (s : State) : Out3 :=
  onSeq s (fun j =>
    let id := r.x32.toNat % 64
    let q := r.q3.toNat
    let held := j.map.any (fun x => match x.2.pool with | some (p, _) => p == id | none => false) ||
      j.window.any (fun t => (t.fresh ++ t.dead).any (fun x => x.1 == id))
    if (poolAt j.pools id).isSome && held then decodeFault s j tcBindFault j.recAddr 0
    else
      let p : Pool := ⟨id, r.q2.toNat, bits q 31 0, bits q 47 32, range 0 (bits q 47 32)⟩
      enterTask s j.id j.map (putPool j.pools p) (j.newTask 0x03 r .instant).instantly)

/-! ### Operands (R188, R195, R198, R199) -/

/-- One dimension of a box: its 16 bytes; none where the reserved bits are set. -/
def boxDim (bs : List Byte) : Option (Int × Nat × Int × Int × Int) :=
  let f (off n : Nat) : Nat := leNat (sliceOf bs off n)
  if f 14 2 != 0 then none
  else some (sintOf 32 (f 0 4), f 4 4, sintOf 16 (f 8 2), sintOf 16 (f 10 2), sintOf 16 (f 12 2))

def boxOf (bs : List Byte) : Option Box := allSome ((range 0 4).map (fun d => boxDim (sliceOf bs (16 * d) 16)))

/-- The box lists of the six slots from a table's records. -/
def boxLists : List Nat → List Box → List (List Box)
  | [], _ => []
  | n :: ns, bs => bs.take n :: boxLists ns (bs.drop n)

/-- Read the region table (R195): for each slot its boxes; none listed declares the whole buffer. -/
def readRegions (s : State) (j : Job) (r : Rec) : ERes (List (List Box)) :=
  let rgn := r.q3.toNat
  if rgn == 0 then .ok s ((range 0 6).map (fun _ => []))
  else
    (seqRead s j.decodeRead rgn 64).bind (fun s h =>
      let w := leNat h
      let ns := (range 0 6).map (fun i => bits w (3 * i + 2) (3 * i))
      if w / 2 ^ 18 != 0 || ns.any (fun n => 4 < n) || (range 0 6).any (fun i => r.cls i == 0 && ns.getD i 0 != 0) then j.badRecord s
      else
        let n := ns.foldl (· + ·) 0
        (seqRead s j.decodeRead (rgn + 64) (64 * n)).bind (fun s bs =>
          match allSome ((range 0 n).map (fun i => boxOf (sliceOf bs (64 * i) 64))) with
          | none => j.badRecord s
          | some l => .ok s (boxLists ns l)))

/-- The slots that a record uses. -/
def usedSlots (r : Rec) : List Nat := (range 0 6).filter (fun i => r.cls i != 0)

/-- The operands of a task with what decoding them does to the map and the pools. -/
structure Bound where
  ops : List Operand
  map : List (Nat × Buf)
  pools : List Pool
  fresh : List (Nat × Nat)
  dead : List (Nat × Nat)

/-- The class of a slot after R198: W-full on a fixed buffer is W-part. -/
def slotClass (r : Rec) (m : List (Nat × Buf)) (i : Nat) : Nat :=
  if r.cls i == 2 && ((bufAt m (r.buf i)).bind Buf.pool).isNone then 3 else r.cls i

/-- Build the operands slot by slot; a renamed operand takes the next of the fresh slots. -/
def bindSlots (r : Rec) (boxes : List (List Box)) : List Nat → List (Nat × Nat) → Bound → Bound
  | [], _, b => b
  | i :: is, slots, b =>
    match bufAt b.map (r.buf i) with
    | none => bindSlots r boxes is slots b
    | some x =>
      let cls := slotClass r b.map i
      let bx (y : Buf) : List Box := if (boxes.getD i []).isEmpty then [wholeBox y] else boxes.getD i []
      match cls, slots, x.pool with
      | 2, (p, k) :: rest, some old =>
        let y := { x with base := ((poolAt b.pools p).map (fun q => q.slotBase k)).getD x.base, pool := some (p, k) }
        bindSlots r boxes is rest { b with ops := b.ops ++ [⟨i, 2, y, bx y⟩], map := putBuf b.map (r.buf i) y
                                           fresh := b.fresh ++ [(p, k)], dead := b.dead ++ [old] }
      | _, _, _ => bindSlots r boxes is slots { b with ops := b.ops ++ [⟨i, cls, x, bx x⟩] }

/-- The operands of the record at decode: buffers bound, regions read, renamed slots taken (R188, R195, R198, R203). -/
def decodeOperands (s : State) (j : Job) (r : Rec) (f : State → Bound → State) : State :=
  if (usedSlots r).any (fun i => (bufAt j.map (r.buf i)).isNone) then decodeFault s j tcBindFault j.recAddr 0
  else decodeWith j (readRegions s j r) (fun s boxes =>
    let needs := ((usedSlots r).filter (fun i => slotClass r j.map i == 2)).filterMap (fun i => ((bufAt j.map (r.buf i)).bind Buf.pool).map Prod.fst)
    match takeSlots j needs j.pools with
    | .wait => s
    | .exhausted => decodeFault s j tcPoolSize j.recAddr 1
    | .ok pools slots => f s (bindSlots r boxes (usedSlots r) slots ⟨[], j.map, pools, [], []⟩))

/-- A task with operands enters the window. -/
def enterBound (s : State) (j : Job) (t : Task) (b : Bound) : State :=
  enterTask s j.id b.map b.pools { t with operands := b.ops, fresh := b.fresh, dead := b.dead, inPlace := b.ops.any (fun o => 3 ≤ o.cls) }

/-- The buffer of a slot. -/
def opBuf (ops : List Operand) (i : Nat) : Option Buf := (ops.find? (fun o => o.slot == i)).map Operand.buf

def opBase (ops : List Operand) (i : Nat) : Nat := match opBuf ops i with | some b => b.base | none => 0

/-- STR1 of the buffer of a slot (R210). -/
def opStr1 (ops : List Operand) (i : Nat) : Int := match opBuf ops i with | some b => b.str.getD 1 0 | none => 0

/-! ### LAUNCH (R161, R204, R207, R227, R228, R391) -/

/-- What a LAUNCH descriptor says (R204). -/
structure LDesc where
  launch : Launch
  rule : Nat
  pdie : Nat
  pclu : Nat
  harg : Nat
  hs : List Int
  akind : List Nat
  trg : Bool
  trgk : Nat
  trgback : Nat
  need : Nat                     -- PANTRY, VREG, TILES and COUNTERS as laid out at 0x10

/-- The LAUNCH descriptor (R204); none where a field breaks its range (R161) or a reserved bit is set. -/
def ldescOf (bs : List Byte) : Option LDesc :=
  let w8 := quad bs 8
  let w10 := quad bs 0x10
  let w18 := quad bs 0x18
  let w28 := quad bs 0x28
  let w88 := quad bs 0x88
  let gx := bits w8 31 0
  let gy := bits w8 63 32
  let gz := bits w10 31 0
  let akind := (range 0 8).map (fun k => bits w88 (4 * k + 3) (4 * k))
  let l : Launch := { code := quad bs 0, gx := gx, gy := gy, gz := gz, pantry := bits w10 47 32, regs64 := bit w10 48, tiles := bits w10 52 49
                      counters := bits w10 61 53, spn := bit w10 62, scales := bits w18 3 0, cls := bits w18 5 4, stack := quad bs 0x20
                      stksz := bits w28 31 0, args := (range 0 8).map (fun k => quad bs (0x48 + 8 * k)) }
  let ok := 1 ≤ gx && 1 ≤ gy && 1 ≤ gz && gx * gy * gz ≤ 2 ^ 32 && l.pantry ≤ 16 && l.tiles ≤ 8 && l.counters ≤ 256 && !bit w10 63 &&
    l.scales ≤ 8 && bits w18 7 6 != 3 && bits w18 12 10 ≤ 5 && w18 < 2 ^ 32 && l.stksz % 4096 == 0 && l.stksz ≤ 2 ^ 20 && w28 < 2 ^ 32 &&
    akind.all (fun k => k ≤ 6) && w88 < 2 ^ 32 && (bs.drop 0x90).all (fun b => b == 0) && l.code % 64 == 0 &&
    (!bit w18 16 || 1 ≤ bits w18 31 25)
  if ok then some { launch := l, rule := bits w18 7 6, pdie := bits w18 9 8, pclu := bits w18 12 10, harg := bits w18 15 13
                    hs := (range 0 3).map (fun k => sintOf 64 (quad bs (0x30 + 8 * k))), akind := akind, trg := bit w18 16
                    trgk := bits w18 24 17, trgback := bits w18 31 25, need := w10 }
  else none

/-- The code header (R227, R228) for a descriptor: the launch with its lines and entry, and where the entry table stands. A LINEOFF below 64, like
a CODE that is not 64-byte aligned in ldescOf, fails decode with TASK_DECODE (assumption 96). -/
def headerOf (d : LDesc) (bs : List Byte) : Option (Launch × Nat × Nat) :=
  let f (off n : Nat) : Nat := leNat (sliceOf bs off n)
  let nent := f 6 2
  let lines := f 8 4
  let lineOff := f 0x10 4
  let need := f 0x18 8
  let sc := f 0x20 8
  let ok := f 0 4 == 0x534D4F42 && f 4 2 == 1 && nent ≤ 256 && 1 ≤ lines && lines ≤ 524288 && lineOff % 32 == 0 && 64 ≤ lineOff &&
    f 0x14 4 % 4 == 0 && f 0x28 4 % 128 == 0 && need % 2 ^ 32 == 0 && need < 2 ^ 62 && sc < 16 && (bs.drop 0x30).all (fun b => b == 0) &&
    bits need 47 32 ≤ bits d.need 47 32 && bits need 48 48 ≤ bits d.need 48 48 && bits need 52 49 ≤ bits d.need 52 49 &&
    bits need 61 53 ≤ bits d.need 61 53 && sc ≤ d.launch.scales
  if ok then some ({ d.launch with lineOff := lineOff, lines := lines, centry := f 0xC 4 }, nent, f 0x14 4) else none

/-- The producing launch of a triggered one (R207): in the window, with at least as many units and the counter. -/
def producerOk (j : Job) (d : LDesc) : Bool :=
  d.trgback ≤ j.tidx &&
  match j.window.find? (fun t => t.tidx + d.trgback == j.tidx) with
  | none => false
  | some t =>
    match t.kind with
    | .launch l _ _ _ _ _ _ _ => d.launch.gx * d.launch.gy * d.launch.gz ≤ t.units && d.trgk < l.counters
    | _ => false

/-- LAUNCH. Of several faults of one record the first in this order is reported (assumption 94). -/
def execLaunch (r : Rec) (s : State) : Out3 :=
  onSeq s (fun j =>
    let x : ERes LDesc := (seqRead s j.decodeRead r.q2.toNat 256).bind (fun s bs =>
      match ldescOf bs with
      | none => j.badRecord s
      | some d =>
        (seqRead s j.decodeRead d.launch.code 64).bind (fun s h =>
          match headerOf d h with
          | none => j.badRecord s
          | some (l, nent, entOff) =>
            (seqRead s j.decodeRead (d.launch.code + entOff) (4 * nent)).bind (fun s e =>
              let es := words32 e
              if es.any (fun y => 8 * l.lines ≤ y) then j.badRecord s
              else .ok s { d with launch := { l with entries := es, cls := max l.cls j.clsmin } })))
    decodeWith j x (fun s d =>
      if d.rule == 2 && !j.clus.testBit (6 * d.pdie + d.pclu) then decodeFault s j tcPrivileged j.recAddr 0
      else if d.akind.any (fun k => k != 0 && r.cls (k - 1) == 0) || (d.trg && !producerOk j d) then decodeFault s j tcTaskDecode j.recAddr 0
      else decodeOperands s j r (fun s b =>
        let trg := if d.trg then some (j.tidx - d.trgback, d.trgk) else none
        let t := j.newTask 0x10 r (.launch d.launch d.rule d.pdie d.pclu d.harg d.hs d.akind trg)
        enterBound s j { t with units := d.launch.gx * d.launch.gy * d.launch.gz } b)))

/-! ### Engine tasks (R210) -/

/-- The first command of an engine task, before it issues. -/
def taskCmd (j : Job) (queue dst src : Nat) (kind : CmdKind) (left : Nat) : Cmd :=
  { id := 0, unit := ⟨j.id, j.tidx, 0⟩, task := true, pair := 0, queue := queue, scope := 5, ctr := none, cls := j.clsmin, key := j.keyGen
    dst := dst, src := src, kind := kind, status := .issued, left := left
    todo := match kind with
      | .gath _ n _ _ _ _ | .scat _ n _ _ | .scata _ n _ _ _ => range 0 n
      | .cpyLin _ | .cpyShp _ | .stair _ _ | .subs _ _ | .fill _ _ _ _ => []
    bitmap := match kind with
      | .gath _ _ _ _ rep _ => rep
      | .cpyLin _ | .cpyShp _ | .scat _ _ _ _ | .scata _ _ _ _ _ | .stair _ _ | .subs _ _ | .fill _ _ _ _ => false }

/-- An engine task enters the window. -/
def enterEngine (s : State) (j : Job) (op : Nat) (r : Rec) (c : List Operand → Cmd) : State :=
  decodeOperands s j r (fun s b => enterBound s j { j.newTask op r (.engine (c b.ops)) with units := 1 } b)

/-- COPY: CPY with the shape record at SHAPE; a malformed one fails decode with TASK_DECODE, and misaligned bases and strides are not checked
(assumption 95). -/
def execCopy (r : Rec) (s : State) : Out3 :=
  onSeq s (fun j =>
    decodeWith j (seqRead s j.decodeRead r.q2.toNat 64) (fun s bs =>
      if shapeBad (shapeOf bs) || shapeReserved bs then decodeFault s j tcTaskDecode j.recAddr 0
      else enterEngine s j 0x11 r (fun ops => taskCmd j 0 (opBase ops 1) (opBase ops 0) (.cpyShp (shapeOf bs)) 0)))

/-- GATHER: NIDX rows in runs of 4,096; the table's row stride is its STR1. -/
def execGather (r : Rec) (s : State) : Out3 :=
  onSeq s (fun j =>
    let x := r.x32.toNat
    let n := r.q2.toNat
    let m := min n 4096
    enterEngine s j 0x12 r (fun ops =>
      taskCmd j 1 (opBase ops 2) (opBase ops 1) (.gath (opStr1 ops 1) m (bits x 12 0) (opBase ops 0) (bit x 13) (opBase ops 3)) (n - m)))

/-- SCATTER: SCAT, or SCATA when ADD = 1. -/
def execScatter (r : Rec) (s : State) : Out3 :=
  onSeq s (fun j =>
    let x := r.x32.toNat
    let n := r.q2.toNat
    let m := min n 4096
    enterEngine s j 0x13 r (fun ops =>
      let kind : CmdKind := if bit x 13 then .scata (opStr1 ops 2) m (bits x 12 0) (opBase ops 0) (bits x 15 14)
        else .scat (opStr1 ops 2) m (bits x 12 0) (opBase ops 0)
      taskCmd j 1 (opBase ops 2) (opBase ops 1) kind (n - m)))

/-- LEVEL: STAIR with the record at Q2 and the weight table in slot 2; a malformed record fails decode with TASK_DECODE, and misaligned bases
and table are not checked (assumption 95). -/
def execLevel (r : Rec) (s : State) : Out3 :=
  onSeq s (fun j =>
    decodeWith j (seqRead s j.decodeRead r.q2.toNat 64) (fun s bs =>
      if stairReserved bs || stairBad (stairOf bs) then decodeFault s j tcTaskDecode j.recAddr 0
      else enterEngine s j 0x14 r (fun ops => taskCmd j 2 (opBase ops 1) (opBase ops 0) (.stair (stairOf bs) (opBase ops 2)) 0)))

/-- FILL: every element of slot 0's boxes. -/
def execFill (r : Rec) (s : State) : Out3 :=
  onSeq s (fun j =>
    enterEngine s j 0x15 r (fun ops =>
      match ops.find? (fun o => o.slot == 0) with
      | none => taskCmd j 0 0 0 (.fill [] [] 1 0) 0
      | some o =>
        taskCmd j 0 o.buf.base 0 (.fill (o.boxes.map (fun b => b.map (fun d => (d.1, d.2.1)))) o.buf.str (elemBytes o.buf.fmt) r.q2.toNat) 0))

/-! ### PHASE and the ordering tasks (R211 to R217) -/

/-- PHASE (R211): a vault outside the partition traps PRIVILEGED. -/
def execPhase (r : Rec) (s : State) : Out3 :=
  onSeq s (fun j =>
    let es := (range 0 r.x32.toNat).map (fun i => (r.phaseDie i, r.phaseVault i, r.phaseSize i))
    if es.any (fun e => !j.hasVault e.1 e.2.1) then decodeFault s j tcPrivileged j.recAddr 0
    else enterTask s j.id j.map j.pools (j.newTask 0x20 r (.phase es)))

/-- Scope codes 0 to 3 act as .die for the sequencer (R186). -/
def seqScope (sc : Nat) : Nat := if sc < 4 then 4 else sc

/-- SIGNAL (R213). -/
def execSignal (r : Rec) (s : State) : Out3 :=
  onSeq s (fun j => enterTask s j.id j.map j.pools
    (j.newTask 0x21 r (.signal (r.x32.getLsbD 0) r.q2.toNat r.q3.toNat (seqScope r.scope.toNat))))

/-- WAITEV (R214). -/
def execWaitev (r : Rec) (s : State) : Out3 :=
  onSeq s (fun j => enterTask s j.id j.map j.pools
    (j.newTask 0x22 r (.waitev r.cnd.toNat r.x32.toNat r.q2.toNat r.q3.toNat (seqScope r.scope.toNat))))

/-- TFENCE (R215). -/
def execTfence (r : Rec) (s : State) : Out3 :=
  onSeq s (fun j => enterTask s j.id j.map j.pools (j.newTask 0x23 r (.tfence (seqScope r.scope.toNat))))

/-- TJMP (R216): a target with a bit of 63:57 set traps PAGE_ABSENT. -/
def execTjmp (r : Rec) (s : State) : Out3 :=
  onSeq s (fun j =>
    let target := r.q2.toNat
    if 2 ^ 57 ≤ target then decodeFault s j tcPageAbsent target (xinfo 1 7 0)
    else enterTask s j.id j.map j.pools { (j.newTask 0x28 r .instant).instantly with pcAfter := target })

/-- The target of a TJMPC (R216). -/
def tjmpcTarget (addr : Nat) (off : Int) : Nat := wrap64 ((addr : Int) + off * 32)

/-- TJMPC (R216): nothing after it is decoded before its read. -/
def execTjmpc (r : Rec) (s : State) : Out3 :=
  onSeq s (fun j =>
    let target := tjmpcTarget j.recAddr r.x32.toInt
    if 2 ^ 57 ≤ target then decodeFault s j tcPageAbsent target (xinfo 1 7 0)
    else enterTask s j.id j.map j.pools
      (j.newTask 0x29 r (.tjmpc r.cnd.toNat (seqScope r.scope.toNat) r.x32.toInt r.q2.toNat r.q3.toNat)))

/-- HALT (R217). -/
def execHalt (r : Rec) (s : State) : Out3 :=
  onSeq s (fun j => enterTask s j.id j.map j.pools (j.newTask 0x2F r .halt))

end Sys2Proof.Machine
end

