-- ==== Sys2Proof/Machine/Window.lean ====
section
/-!
DEFINITION. The task window (06): when a decoded task issues, what issuing does, the reads of WAITEV and TJMPC, completion and
retirement (R158, R199 to R201, R205, R210, R212 to R217, R220).
-/

namespace Sys2Proof.Machine

/-! ### Conflicts (R200) -/

/-- The grid of a task; an engine task has one place (R195). -/
def Task.grid (t : Task) : Nat × Nat × Nat :=
  match t.kind with
  | .launch l _ _ _ _ _ _ _ => (l.gx, l.gy, l.gz)
  | _ => (1, 1, 1)

/-- The byte hulls of a box over a grid (R195, R196): the hull at the origin, and how far a step of each coordinate moves it, with how many
places the coordinate has. A hull is linear in the coordinates (assumption 54). -/
structure HullGrid where
  lo : Int
  hi : Int
  steps : List (Int × Nat)
  cls : Nat

def hullGrid (o : Operand) (g : Nat × Nat × Nat) (box : Box) : Option HullGrid :=
  (boxHull o.buf box 0 0 0).map (fun h =>
    let step (x y z : Nat) : Int := match boxHull o.buf box x y z with | some k => k.1 - h.1 | none => 0
    { lo := h.1, hi := h.2, steps := [(step 1 0 0, g.1), (step 0 1 0, g.2.1), (step 0 0 1, g.2.2)], cls := o.cls })

/-- The hulls of a task with the class of each. -/
def Task.hulls (t : Task) : List HullGrid := t.operands.flatMap (fun o => o.boxes.filterMap (hullGrid o t.grid))

/-- Some of n numbers from a on meets a test. -/
def anyFrom (p : Nat → Bool) : Nat → Nat → Bool
  | 0, _ => false
  | n + 1, a => p a || anyFrom p n (a + 1)

/-- The least and the greatest sum of steps. -/
def stepSpan (l : List (Int × Nat)) : Int × Int :=
  l.foldl (fun r x => (r.1 + min 0 (x.1 * ((x.2 : Int) - 1)), r.2 + max 0 (x.1 * ((x.2 : Int) - 1)))) (0, 0)

/-- Steps, each taken fewer times than its count, can sum to a number from lo to hi: each step in turn is tried where the rest can still
reach. -/
def reaches : List (Int × Nat) → Int → Int → Bool
  | [], lo, hi => lo ≤ 0 && 0 ≤ hi
  | (a, n) :: r, lo, hi =>
    let (mn, mx) := stepSpan r
    let b : Int := if a < 0 then -a else a
    let (from_, to_) := if a < 0 then (mn - hi, mx - lo) else (lo - mx, hi - mn)
    if a == 0 then reaches r lo hi
    else
      let first := max 0 (-((-from_) / b))
      let last := min ((n : Int) - 1) (to_ / b)
      anyFrom (fun c => reaches r (lo - a * c) (hi - a * c)) (last + 1 - first).toNat first.toNat

/-- A byte hull of one grid intersects one of the other, for some unit of each (R200). -/
def hullsMeet (a b : HullGrid) : Bool :=
  let steps := sortBy (fun (x y : Int × Nat) => decide (y.1.natAbs < x.1.natAbs)) (a.steps ++ b.steps.map (fun x => (-x.1, x.2)))
  reaches steps (b.lo - a.hi + 1) (b.hi - a.lo - 1)

/-- A task conflicts with an older one (R200). -/
def conflicts (t u : Task) : Bool :=
  t.hulls.any (fun a => u.hulls.any (fun b => (clsWrites a.cls || clsWrites b.cls) && !(a.cls == 5 && b.cls == 5) && hullsMeet a b))

/-! ### When a task issues (R201, R212, R221) -/

/-- The job lets a task go on: it runs, or an older task of it still runs while a younger one is the faulting task. -/
def Job.lets (j : Job) (t : Task) : Bool :=
  match j.status with
  | .running => true
  | .faulting f => t.tidx < f
  | .stopping | .halted _ => false

/-- No task younger than it issues before it completes. -/
def Task.isGate (t : Task) : Bool := match t.kind with | .tfence _ | .waitev _ _ _ _ _ => true | _ => false

/-- A PHASE names a vault of the task's operands (R212). -/
def phaseHolds (u t : Task) : Bool :=
  match u.kind with
  | .phase es => t.operands.any (fun o => o.buf.vaults.any (fun v => es.any (fun e => e.1 == v.1 && e.2.1 == v.2)))
  | _ => false

/-- The conditions of R201 and R212 hold for a task of the window. -/
def mayIssue (j : Job) (t : Task) : Bool :=
  let old := j.window.filter (fun u => u.tidx < t.tidx)
  !t.issued && j.lets t && !old.any (fun u => !u.completed && (u.isGate || phaseHolds u t)) &&
  match t.kind with
  | .instant => false
  | .launch _ _ _ _ _ _ _ _ | .engine _ =>
    if t.inPlace then old.all Task.completed else old.all (fun u => u.completed || !conflicts t u)
  | .tfence _ | .waitev _ _ _ _ _ => old.all Task.completed
  | .signal _ _ _ _ | .tjmpc _ _ _ _ _ | .halt | .phase _ => old.isEmpty

/-! ### The implicit scope of a task (R156) -/

/-- What one buffer asks of the scope: host memory, peer memory. Its first page decides. -/
def bufReach (s : State) (j : Job) (b : Buf) : Option (Bool × Bool) :=
  match walkDie s j.clsmin j.die j.id j.root (b.hull.1.toNat / 4096 * 4096) .load with
  | .wait _ _ | .retry _ => none
  | .trap _ _ _ => some (false, false)
  | .ok _ pa _ _ =>
    match place52 pa with
    | .host port _ => some (!(port && s.p1.mode == .root), false)
    | .peer _ _ => some (false, true)
    | .hbm | .attic _ _ _ | .pantry _ _ | .mmio _ _ | .unmapped => some (false, false)

/-- The scope of a task's implicit acquire and release; none while a page table line is busy. -/
def taskScope (s : State) (j : Job) (ops : List Operand) : Option Nat :=
  (allSome (ops.map (fun o => bufReach s j o.buf))).map (fun l =>
    let host := l.any Prod.fst
    let peer := l.any Prod.snd
    if host && peer then 9 else if peer then 8 else if host then 6 else 5)

/-! ### Issue -/

/-- The argument words with the bases of the task's buffers (R205). -/
def resolveArgs (ops : List Operand) (akind args : List Nat) : List Nat :=
  (args.zip akind).map (fun x => if x.2 == 0 then x.1 else (opBase ops (x.2 - 1) + x.1) % 2 ^ 64)

/-- A LAUNCH or an engine task takes the next launch number (R400). -/
def numberLaunch (s : State) (id tidx : Nat) (f : Nat → Task → Task) : State :=
  s.modJob id (fun j => { j with
    lseq := j.lseq + 1
    window := mapIf (fun t => t.tidx == tidx) (fun t => f (j.lseq + 1) { t with issued := true, lseq := j.lseq + 1 }) j.window })

/-- LAUNCH issues: its arguments are resolved, its counter starts without the units that a CANCEL has counted already (R158, R160, R205). -/
def issueLaunch (s : State) (j : Job) (t : Task) : State :=
  numberLaunch s j.id t.tidx (fun n t =>
    match t.kind with
    | .launch l rule pdie pclu harg hs akind trg =>
      { t with launchCtr := t.units - (t.low + t.doneSet.length)
               kind := .launch { l with args := resolveArgs t.operands akind l.args, lseq := n } rule pdie pclu harg hs akind trg }
    | _ => t)

/-- The pair of a cluster with the most free slots in a queue, the lowest id on a tie (R391). -/
def enginePair (s : State) (cl q : Nat) : Nat :=
  (leastBy (fun a b => decide (s.queueLoad a q < s.queueLoad b q)) (clusterMembers cl)).getD (cl / 6 * Config.pairsPerDie + cl % 6 * Config.clusterPairs)

/-- An engine task issues its first command to a pair that the spread rule chooses (R210, R391). -/
def issueEngine (s : State) (j : Job) (t : Task) (c : Cmd) : State :=
  match taskScope s j t.operands with
  | none => s
  | some sc =>
    let (cl, next) := j.spreadTake s
    let c := { c with id := s.fresh, pair := enginePair s cl c.queue, scope := sc }
    let s := numberLaunch s j.id t.tidx (fun _ t => { t with launchCtr := 1 })
    { (s.modJob j.id (fun j => { j with spread := next })) with cmds := s.cmds ++ [c], fresh := s.fresh + 1 }

/-- PHASE asks the vault controllers for its changes (R86, R212). -/
def issuePhase (s : State) (j : Job) (t : Task) (es : List (Nat × Nat × Nat)) : State :=
  (es.foldl (fun x e => x.modDie e.1 (fun d => { d with vwait := d.vwait ++ [⟨e.2.1, j.id, t.tidx, e.2.2⟩] })) s).modTask j.id t.tidx
    (fun t => { t with issued := true })

/-- SIGNAL's store has performed: its interrupt (R213). -/
def signalDone (s : State) (id tidx : Nat) : State :=
  match s.job id with
  | none => s
  | some j =>
    match j.window.find? (fun t => t.tidx == tidx) with
    | none => s
    | some t =>
      let s := s.modTask id tidx (fun t => { t with issued := true, ready := true })
      match t.kind with
      | .signal true _ _ _ => s.interrupt j.func j.nvec
      | _ => s

/-- SIGNAL stores (R213): at the home, or over a link. -/
def issueSignal (s : State) (j : Job) (t : Task) (addr value : Nat) : State :=
  let bs := leBytes 8 value
  match xlateDie s j.clsmin j.die j.id j.root { kind := .store, size := 8 } addr with
  | .wait x _ | .retry x => x
  | .trap x code info => taskFault x j.id t.tidx code addr info
  | .ok x pa _ lvl =>
    match place52 pa with
    | .hbm | .attic _ _ _ =>
      (match cohWrite x pa (sealList j.keyGen pa bs) with
      | none => x.knock pa
      | some (y, true) => signalDone y j.id t.tidx
      | some (y, false) => taskFault y j.id t.tidx tcEccData addr (xinfo 0 lvl 1))
    | .host _ _ | .peer _ _ =>
      let x := x.modDie ((homeDie x pa).getD j.die) (fun d => { d with vlines := d.vlines.filter (fun v => v.line != lineOf pa) })
      (match linkWrite x pa bs (.signal j.id t.tidx lvl) with
      | none => s
      | some y => y.modTask j.id t.tidx (fun t => { t with issued := true }))
    | .pantry _ _ =>
      if x.partPoison pa 8 then taskFault x j.id t.tidx tcEccData addr (xinfo 0 lvl 1)
      else signalDone (noteWrite ((x.clearPoison pa 8).setBytes pa (sealList 0 pa bs)) pa 8) j.id t.tidx
    | .mmio _ _ | .unmapped => taskFault x j.id t.tidx tcPageAttr addr (xinfo 10 lvl 1)

/-- The conditions of WAITEV and TJMPC (R186). -/
def condHolds (cnd w value : Nat) : Bool :=
  match cnd with
  | 0 => w == value
  | 1 => w != value
  | 2 => w < value
  | 3 => value ≤ w
  | 4 => decide (sintOf 64 w < sintOf 64 value)
  | _ => decide (sintOf 64 value ≤ sintOf 64 w)

/-- A read for the task is out on a link. -/
def taskReading (s : State) (id tidx : Nat) : Bool :=
  s.outstanding.any (fun o => match o.what with | .task i t _ _ => i == id && t == tidx | _ => false)

/-- WAITEV or TJMPC has read its word (R214, R216). -/
def wordRead (s : State) (id tidx pa w : Nat) : State :=
  let s := s.modTask id tidx (fun t => { t with
    issued := true, got := [], bad := [], reading := false, woken := false, wpa := some pa, lastRead := s.cycle
    started := some (t.started.getD s.cycle)
    ready := match t.kind with | .waitev c _ _ v _ => condHolds c w v | _ => true })
  s.modJob id (fun j =>
    match j.window.find? (fun t => t.tidx == tidx) with
    | none => j
    | some t =>
      match t.kind with
      | .tjmpc c _ off _ v => if condHolds c w v then { j with pc := tjmpcTarget t.addr off } else j
      | _ => j)

/-- The acquire of a sequencer's read at a scope (R115, R214, R216): copies of host lines that were filled before it answer no read of the
job's sequencer any more. -/
def seqAcquire (s : State) (id scope : Nat) : State :=
  match s.job id with
  | none => s
  | some j =>
    let (h, r, _) := acqCovers scope false
    if !(h || r) then s
    else
      let e := (s.die j.die).epoch + 1
      (s.modJob id (fun j => { j with hostFloor := e })).modDie j.die (fun d => { d with epoch := e })

/-- Read the word of a WAITEV or TJMPC with an acquire at its scope: done, on its way over a link, to be tried again, or a trap of the task. -/
def readWord (s : State) (id tidx : Nat) : State :=
  -- an answer of a link ends a read whose acquire has been made
  let sc := match (s.job id).bind (fun j => j.window.find? (fun t => t.tidx == tidx)) with
    | some t => if t.got.isEmpty && t.bad.isEmpty && !taskReading s id tidx then (match t.kind with
        | .waitev _ _ _ _ sc => some sc
        | .tjmpc _ sc _ _ _ => some sc
        | _ => none) else none
    | none => none
  let s := match sc with | some sc => seqAcquire s id sc | none => s
  match s.job id with
  | none => s
  | some j =>
    match j.window.find? (fun t => t.tidx == tidx) with
    | none => s
    | some t =>
      let go (addr : Nat) (retry : Bool) : State :=
        let later (s : State) : State :=
          let out := taskReading s id tidx
          if retry || out then s.modTask id tidx (fun t => { t with issued := true, reading := out, woken := true }) else s
        match xlateDie s j.clsmin j.die id j.root { kind := .load, size := 8 } addr with
        | .wait x _ | .retry x => later x
        | .trap x code info => taskFault x id tidx code addr info
        | .ok x pa e lvl =>
          match seqFetch x (j.taskRead t) addr pa (Pte.cm e) lvl 8 with
          | .wait y => later y
          | .fault y code a info => taskFault y id tidx code a info
          | .ok y bs => wordRead y id tidx pa (leNat bs)
      match t.kind with
      | .waitev _ _ addr _ _ => go addr true
      | .tjmpc _ _ _ addr _ => go addr false
      | _ => s

/-- What issuing a task does. -/
def issueTask (s : State) (j : Job) (t : Task) : State :=
  match t.kind with
  | .instant => s
  | .launch _ _ _ _ _ _ _ _ => issueLaunch s j t
  | .engine c => issueEngine s j t c
  | .phase es => issuePhase s j t es
  | .signal _ addr value _ => issueSignal s j t addr value
  | .waitev _ _ _ _ _ | .tjmpc _ _ _ _ _ => readWord s j.id t.tidx
  | .tfence _ | .halt => s.modTask j.id t.tidx (fun t => { t with issued := true, ready := true })

/-- TASK_ISSUE: the oldest task that may issue. -/
def execTaskIssue (job : Nat) (s : State) : Out3 :=
  match s.job job with
  | none => .next s
  | some j =>
    match j.window.find? (mayIssue j) with
    | none => .next s
    | some t => .next (issueTask s j t)

/-! ### WAITEV (R214) -/

/-- The WAITEV of a job that waits. -/
def waitingEvent (s : State) (job : Nat) : Option (Job × Task) :=
  (s.job job).bind (fun j => (j.window.find? (fun t => t.issued && !t.ready && !t.completed && j.lets t &&
    (match t.kind with | .waitev _ _ _ _ _ => true | _ => false))).map (fun t => (j, t)))

/-- WAITEV_WAKE: a write to the word has performed at its home. -/
def execWaitevWake (job : Nat) (s : State) : Out3 :=
  match waitingEvent s job with
  | some (_, t) => .next (if t.woken && !t.reading then readWord s job t.tidx else s)
  | none => .next s

/-- WAITEV_REREAD: 2,048 ac have passed since its last read. -/
def execWaitevReread (job : Nat) (s : State) : Out3 :=
  match waitingEvent s job with
  | some (_, t) => .next (if t.lastRead + 2048 ≤ s.cycle && !t.reading then readWord s job t.tidx else s)
  | none => .next s

/-- Array clocks of a microsecond (R291: 1.9 GHz). -/
def usTicks (n : Nat) : Nat := n * 1900

/-- WAITEV_TIMEOUT: TMO µs have passed since its first read. -/
def execWaitevTimeout (job : Nat) (s : State) : Out3 :=
  match waitingEvent s job with
  | some (_, t) =>
    match t.kind, t.started with
    | .waitev _ tmo _ _ _, some t0 => .next (if tmo != 0 && t0 + usTicks tmo ≤ s.cycle then taskFault s job t.tidx tcWatchdog t.addr 0 else s)
    | _, _ => .next s
  | none => .next s

/-! ### Completion and retirement (R158, R201, R217, R220) -/

/-- The changes of a PHASE have ended (R212). -/
def splitsEnded (s : State) (job tidx : Nat) : Bool :=
  s.dies.toList.all (fun x => x.vwait.all (fun r => !(r.job == job && r.tidx == tidx)) &&
    x.vaults.toList.all (fun v => v.forTask != some (job, tidx)))

/-- A task's own effect has ended. -/
def taskEnded (s : State) (job : Nat) (t : Task) : Bool :=
  t.issued && match t.kind with
  | .launch _ _ _ _ _ _ _ _ | .engine _ => t.launchCtr == 0
  | .phase _ => splitsEnded s job t.tidx
  | .instant => true
  | .signal _ _ _ _ | .waitev _ _ _ _ _ | .tfence _ | .tjmpc _ _ _ _ _ | .halt => t.ready

/-- TASK_COMPLETE. -/
def execTaskComplete (job tidx : Nat) (s : State) : Out3 :=
  match s.job job with
  | none => .next s
  | some j =>
    match j.window.find? (fun t => t.tidx == tidx) with
    | none => .next s
    | some t => .next (if taskEnded s job t then s.modTask job tidx (fun t => { t with completed := true }) else s)

/-- Slots join the tails of their shelf lists (R194). -/
def freeSlots (slots : List (Nat × Nat)) (ps : List Pool) : List Pool :=
  slots.foldl (fun l x => mapIf (fun p => p.id == x.1) (fun p => { p with shelf := p.shelf ++ [x.2] }) l) ps

/-- A task names another as its producer (R207). -/
def Task.producer (t : Task) : Option Nat := match t.kind with | .launch _ _ _ _ _ _ _ trg => trg.map Prod.fst | _ => none

/-- Forget on which pairs producing units ran once no task of the window can ask. -/
def dropLastRuns (s : State) (id : Nat) : State :=
  match s.job id with
  | none => { s with lastRuns := s.lastRuns.filter (fun x => x.1.job != id) }
  | some j => { s with lastRuns := s.lastRuns.filter (fun x => x.1.job != id || j.window.any (fun t => t.tidx == x.1.tidx || t.producer == some x.1.tidx)) }

/-- TASK_RETIRE: the oldest task, once completed; it frees its dead slots. The retirement of HALT ends the job. -/
def execTaskRetire (job : Nat) (s : State) : Out3 :=
  match s.job job with
  | none => .next s
  | some j =>
    match j.window with
    | [] => .next s
    | t :: rest =>
      if !t.completed then .next s
      else match t.kind with
        | .halt => .next (dropLastRuns ({ s with jobs := s.jobs.filter (fun x => x.id != job) }.interrupt j.func j.cvec) job)
        | _ => .next (dropLastRuns (s.modJob job (fun j => { j with window := rest, pools := freeSlots t.dead j.pools })) job)

end Sys2Proof.Machine
end

