-- ==== Sys2Proof/Machine/Faulting.lean ====
section
/-!
DEFINITION. FAULTING_TASK: what the sequencer does when a task faults (R221 to R223, R226, R404, R405), and what it writes when a
job stops (R184).
-/

namespace Sys2Proof.Machine

/-! ### The squash (R222) -/

/-- Squash the younger tasks, youngest first: their work is discarded and their fresh slots join the shelf lists. -/
def squashList (id : Nat) : List Task → State → Option State
  | [], s => some s
  | t :: r, s => (discardTask s id t.tidx).bind (fun s => squashList id r (s.modJob id (fun j => { j with pools := freeSlots t.fresh j.pools })))

/-- The records of squashed tasks that came from the spawn queue go back to its head, in their order. -/
def unspawn (ts : List Task) : List (Nat × BitVec 256) := ts.filterMap (fun t => t.spawned.map (fun k => (k, t.rcd)))

/-- A task trap or a decode failure: the record is decoded again on resume (R224). -/
def Task.redecodes (t : Task) : Bool := !t.isLaunch

/-- The window, the rename map, the spawn queue and the decode position as a fault of task tidx leaves them: those just after its decode,
or, where its record is decoded again, just before it. A spawned record stands at the successor of its launch, and what an earlier spawned
TJMP has transferred decode to stays the decode address after the queue (R226, assumption 55). -/
def squash (s : State) (id tidx : Nat) : Option State :=
  match s.job id with
  | none => some s
  | some j =>
    let young := j.window.filter (fun t => tidx < t.tidx)
    (squashList id young.reverse s).map (fun s =>
      let s := { s with lastRuns := s.lastRuns.filter (fun x => !(x.1.job == id && tidx < x.1.tidx)) }
      s.modJob id (fun j =>
        match j.window.find? (fun t => t.tidx == tidx) with
        | none => j
        | some t =>
          let back := unspawn young ++ j.spawn
          let succ := if t.spawned.isSome then t.addr else (t.addr + 32) % 2 ^ 64
          if t.redecodes then
            { j with window := [], map := t.mapAfter, spawn := unspawn [t] ++ back, pc := if t.spawned.isSome then t.pcAfter else t.addr, succ := succ
                     tidx := tidx, phaseNo := t.phaseNo, got := [], bad := [] }
          else
            { j with window := [t], map := t.mapAfter, spawn := back, pc := t.pcAfter, succ := succ
                     tidx := tidx + 1, phaseNo := t.phaseNo, got := [], bad := [] }))

/-! ### Finding the faulting task (R221, R223) -/

/-- Units of a task that a trap has frozen and that have not been resumed since. -/
def trappedUnits (s : State) (job tidx : Nat) : List UnitSt :=
  s.units.filter (fun u => u.key.job == job && u.key.tidx == tidx && u.trap.isSome)

/-- First in time, ties to the lowest linear index (R223). -/
def firstTrapped (l : List UnitSt) : Option UnitSt :=
  let at_ (u : UnitSt) : Nat := match u.trap with | some t => t.time | none => 0
  leastBy (fun a b => decide (at_ a < at_ b) || (at_ a == at_ b && decide (a.key.lin < b.key.lin))) l

/-- The halted command of an engine task. -/
def haltedTask (s : State) (job tidx : Nat) : Option (Cmd × HaltRec) :=
  firstHalted (s.cmds.filter (fun c => c.task && c.unit.job == job && c.unit.tidx == tidx))

/-- The fault of a task whose trapped unit has been saved, or whose engine command has halted. -/
def faultOf (s : State) (job : Nat) (t : Task) : Option TaskFault :=
  match haltedTask s job t.tidx with
  | some (c, h) =>
    some { tidx := t.tidx, unit := none
           trap := { code := h.code, src := c.queue + 2, addr := h.addr, info := h.info, hcode := h.hcode, hq := c.queue + 2, offset := h.offset, time := s.cycle } }
  | none =>
    match firstTrapped (trappedUnits s job t.tidx) with
    | none => none
    | some u => if u.place == .saved then u.trap.map (fun x => { tidx := t.tidx, trap := x, unit := some u.ident }) else none

/-- The oldest task with a fault of its own that is older than the faulting task so far. -/
def newFault (s : State) (j : Job) : Option TaskFault :=
  let older (t : Task) : Bool := match j.fault with | some f => t.tidx < f.tidx | none => true
  (j.window.filter older).findSome? (faultOf s j.id)

/-! ### The report -/

/-- Steps 4 to 6 of R221 once every older task has retired and every unit of the faulting task is saved; none while a line is
busy. STREAM names the faulting record, the successor of the spawning LAUNCH for a spawned one (R226). The decode address itself stays:
that the transfer of an earlier spawned TJMP survives a later queued record that fails decode is the model's choice, which R226 leaves open
(assumption 55). -/
def reportFault (s : State) (id : Nat) (f : TaskFault) : Option State :=
  let lseq := match s.job id with | some j => j.lseqOf f.tidx | none => 0
  let more := f.more || 1 < (trappedUnits s id f.tidx).length
  (squash s id f.tidx).bind fun s =>
  match s.job id with
  | none => some s
  | some j =>
    let task := j.window.find? (fun t => t.tidx == f.tidx)
    let low := match task with | some t => if hasUnits t then t.low else 0 | none => 0
    let high := match task with | some t => if hasUnits t then t.high else 0 | none => 0
    let done := match task with | some t => if hasUnits t then t.doneSet else [] | none => []
    let stream := match task with | some t => t.addr | none => j.recAddr
    let f := { f with more := more, reported := true }
    ((writeProgress s j f.tidx low high done).bind (fun s => writeResume s j stream)).bind (fun s =>
      (writeRecord s j.report true (recordBytes id lseq f)).map (fun s =>
        s.modJob id (fun j => { j with status := .halted f.resumable, fault := some f })))

/-- Nothing of the faulting task runs any more and no older task is left (R221, steps 2 and 3). -/
def faultQuiet (s : State) (j : Job) (f : TaskFault) : Bool :=
  j.window.all (fun t => f.tidx ≤ t.tidx) &&
  s.units.all (fun u => !(u.key.job == j.id && u.key.tidx == f.tidx && u.occupies.isSome))

/-- FAULTING_TASK. -/
def execFaultingTask (job : Nat) (s : State) : Out3 :=
  match s.job job with
  | none => .next s
  | some j =>
    match j.status with
    | .stopping | .halted _ => .next s
    | .running | .faulting _ =>
      match newFault s j with
      | some f => .next (raiseFault s job f)
      | none =>
        match j.fault with
        | some f => if j.status != .running && faultQuiet s j f then .next ((reportFault s job f).getD s) else .next s
        | none => .next s

end Sys2Proof.Machine
end

