-- ==== Sys2Proof/Machine/Special.lean ====
section
/-!
DEFINITION. The special functions of VFSPEC (R318): exact where the value is rational, and otherwise correctly rounded from an
enclosure in fixed point. Where both ends of the enclosure do not round alike the last place is a free value (assumption 8).
-/

namespace Sys2Proof.Machine

/-- Fractional bits of the fixed-point computations. -/
def fixP : Nat := 1000

/-- Truncated fixed-point product. -/
def fmul (a b : Nat) : Nat := a * b / 2 ^ fixP

/-- n terms of Σ z2^k × z / (2k + 1), from k on; alternating with sg (atan) or not (atanh). -/
def atanSeries (z2 : Nat) : Nat → Nat → Nat → Nat × Nat
  | 0, _, _ => (0, 0)
  | n + 1, k, t =>
    let r := atanSeries z2 n (k + 1) (fmul t z2)
    -- even and odd terms apart
    if k % 2 == 0 then (r.1 + t / (2 * k + 1), r.2) else (r.1, r.2 + t / (2 * k + 1))

/-- atanh and atan of z in fixed point, 0 ≤ z ≤ 1/3. -/
def fatanh (z : Nat) : Nat := let r := atanSeries (fmul z z) 330 0 z; r.1 + r.2
def fatan (z : Nat) : Nat := let r := atanSeries (fmul z z) 330 0 z; r.1 - r.2

/-- ln 2 = 2 atanh(1/3); π = 16 atan(1/5) - 4 atan(1/239), each low by less than 2^12 units. -/
def fln2 : Nat := 2 * fatanh (2 ^ fixP / 3)
def fpi : Nat := 16 * fatan (2 ^ fixP / 5) - 4 * fatan (2 ^ fixP / 239)

/-- Taylor terms t, t × y / k, ... sorted by k mod 4. -/
def taylor (y : Nat) : Nat → Nat → Nat → Nat × Nat × Nat × Nat
  | 0, _, _ => (0, 0, 0, 0)
  | n + 1, k, t =>
    let r := taylor y n (k + 1) (fmul t y / (k + 1))
    match k % 4 with
    | 0 => (r.1 + t, r.2.1, r.2.2.1, r.2.2.2)
    | 1 => (r.1, r.2.1 + t, r.2.2.1, r.2.2.2)
    | 2 => (r.1, r.2.1, r.2.2.1 + t, r.2.2.2)
    | _ => (r.1, r.2.1, r.2.2.1, r.2.2.2 + t)

/-- e^y for 0 ≤ y < 2 in fixed point. -/
def fexp (y : Nat) : Nat := let r := taylor y 280 0 (2 ^ fixP); r.1 + r.2.1 + r.2.2.1 + r.2.2.2
/-- sin y and cos y for 0 ≤ y < 2, the difference as an integer. -/
def fsin (y : Nat) : Int := let r := taylor y 280 0 (2 ^ fixP); (r.2.1 : Int) - r.2.2.2
def fcos (y : Nat) : Int := let r := taylor y 280 0 (2 ^ fixP); (r.1 : Int) - r.2.2.1

/-- The error bound of every enclosure, in units of 2^-fixP; the reduction of the largest FP32 argument loses less than 2^142. -/
def fixErr : Nat := 2 ^ 160

/-- A magnitude scaled to fixed point, rounded down: mant × 2^exp × 2^fixP. -/
def toFix (mant : Nat) (exp : Int) : Nat :=
  let e := exp + fixP
  if 0 ≤ e then mant * 2 ^ e.toNat else mant / 2 ^ (-e).toNat

/-- An irrational value enclosed in a ± fixErr units of 2^e: rounded where the ends agree, a free value otherwise. -/
def roundEncl (fn f rm bits : Nat) (ftz : Bool) (a : Int) (e : Int) : Nat × Nat :=
  let lo := a - fixErr
  let hi := a + fixErr
  let v (x : Int) : Val := .fin (decide (x < 0)) x.natAbs e true
  let r1 := roundTo (v lo) f rm ftz
  let r2 := roundTo (v hi) f rm ftz
  if r1 == r2 && 0 < lo * hi then r1 else (Config.specBits fn f bits rm % 2 ^ fmtBits f, flNX)

/-- exp2 of a finite value (R318): integers exactly. -/
def specExp2 (f rm bits : Nat) (ftz neg : Bool) (mant : Nat) (exp : Int) : Nat × Nat :=
  let big := 2 ^ 16
  if (big : Int) ≤ magLog mant exp + 16 && mant != 0 && 16 ≤ magLog mant exp then
    -- far outside every format: an overflow, or a value below every subnormal
    if neg then roundTo (.fin false 1 (-(100000 : Int)) true) f rm ftz else roundTo (.fin false 1 100000 true) f rm ftz
  else
    let isInt := mant == 0 || 0 ≤ exp || mant % 2 ^ (-exp).toNat == 0
    if isInt then
      let n : Nat := if 0 ≤ exp then mant * 2 ^ exp.toNat else mant / 2 ^ (-exp).toNat
      roundTo (.fin false 1 (if neg then -(n : Int) else n) false) f rm ftz
    else
      let x : Int := let m := toFix mant exp; if neg then -(m : Int) else m
      let k := x / (2 ^ fixP : Nat)
      let y := (x % (2 ^ fixP : Nat)).toNat
      roundEncl 3 f rm bits ftz (fexp (fmul y fln2)) (k - fixP)

/-- log2 of a positive finite value: powers of two exactly. -/
def specLog2 (f rm bits : Nat) (ftz : Bool) (mant : Nat) (exp : Int) : Nat × Nat :=
  let l := Nat.log2 mant
  let k := magLog mant exp
  if mant == 2 ^ l then roundTo (.fin (decide (k < 0)) k.natAbs 0 false) f rm ftz
  else
    -- m in (1, 2): log2 m = 2 atanh((m - 1) / (m + 1)) / ln 2
    let z := (mant - 2 ^ l) * 2 ^ fixP / (mant + 2 ^ l)
    let g := 2 * fatanh z * 2 ^ fixP / fln2
    roundEncl 4 f rm bits ftz (k * (2 ^ fixP : Nat) + g) (-(fixP : Int))

/-- sin (cosine = false) or cos of a finite value, by reduction modulo π/2. -/
def specTrig (cosine : Bool) (f rm bits : Nat) (ftz neg : Bool) (mant : Nat) (exp : Int) : Nat × Nat :=
  if mant == 0 then if cosine then roundTo (.fin false 1 0 false) f rm ftz else roundTo (.fin neg 0 0 false) f rm ftz
  else
    let x := toFix mant exp
    let h := fpi / 2
    let k := x / h
    let y := x % h
    let q := if cosine then (k + 1) % 4 else k % 4
    let r : Int := match q with
      | 0 => fsin y
      | 1 => fcos y
      | 2 => -fsin y
      | _ => -fcos y
    roundEncl (if cosine then 6 else 5) f rm bits ftz (if neg && !cosine then -r else r) (-(fixP : Int))

/-- tanh of a finite value: for large arguments strictly between 1 - 2^-600 and 1. -/
def specTanh (f rm bits : Nat) (ftz neg : Bool) (mant : Nat) (exp : Int) : Nat × Nat :=
  if mant == 0 then roundTo (.fin neg 0 0 false) f rm ftz
  else if 8 ≤ magLog mant exp then roundTo (.fin neg (2 ^ 600 - 1) (-600) true) f rm ftz
  else
    -- (e^2x - 1) / (e^2x + 1), e^2x by squaring e^(x / 256)
    let y := toFix mant (exp - 8)
    let sq (e : Nat) : Nat := fmul e e
    let e2 := sq (sq (sq (sq (sq (sq (sq (sq (sq (fexp y)))))))))
    let r := (e2 - 2 ^ fixP) * 2 ^ fixP / (e2 + 2 ^ fixP)
    roundEncl 7 f rm bits ftz (if neg then -(r : Int) else r) (-(fixP : Int))

/-- VFSPEC on one element (R318): the table of special operands first. -/
def specElem (fn f rm : Nat) (ftz : Bool) (bits : Nat) : Nat × Nat :=
  let v := decodeOp ftz bits f
  let rnd (x : Val) : Nat × Nat := roundTo x f rm ftz
  let nan : Nat × Nat := (canonNan f, flNV)
  match v with
  | .nan s => rnd (.nan s)
  | .inf neg =>
    match fn with
    | 0 => rnd (.fin neg 0 0 false)
    | 1 => if neg then nan else rnd (.fin false 0 0 false)
    | 2 => if neg then nan else rnd (.inf false)
    | 3 => if neg then rnd (.fin false 0 0 false) else rnd (.inf false)
    | 4 => if neg then nan else rnd (.inf false)
    | 5 => nan
    | 6 => nan
    | _ => rnd (.fin neg 1 0 false)
  | .fin neg mant exp st =>
    match fn with
    | 0 =>
      let q := exactDiv (.fin false 1 0 false) (.fin neg mant exp st)
      let r := rnd q.1
      (r.1, q.2 ||| r.2)
    | 1 =>
      if mant == 0 then ((rnd (.inf neg)).1, flDZ)
      else if neg then nan
      else
        let odd := exp % 2 != 0
        let m := if odd then 2 * mant else mant
        let e := if odd then exp - 1 else exp
        let num := 2 ^ 1600
        let q := num / m
        let r := isqrt (Nat.log2 q / 2 + 1) q 0
        rnd (.fin false r (-(e / 2) - 800) (r * r * m != num))
    | 2 => if neg && mant != 0 then nan else rnd (exactSqrt neg mant exp)
    | 3 => specExp2 f rm bits ftz neg mant exp
    | 4 =>
      if mant == 0 then ((rnd (.inf true)).1, flDZ)
      else if neg then nan
      else specLog2 f rm bits ftz mant exp
    | 5 => specTrig false f rm bits ftz neg mant exp
    | 6 => specTrig true f rm bits ftz neg mant exp
    | _ => specTanh f rm bits ftz neg mant exp

end Sys2Proof.Machine
end

