-- ==== Sys2Proof/Machine/Vector.lean ====
section
/-!
DEFINITION. The vector instructions of the data slice: floating-point, integer and bit arithmetic, compares, masks, moves,
conversions and cross-lane operations (R316 to R329).
-/

namespace Sys2Proof.Machine

/-! ### The common frame (R311 to R313) -/

/-- Register, tag, empty and poison checks of an instruction with a format, its va, vb (unless scalar) and vc; more is a further
decode check. It answers the format. -/
def prepare (u : UnitSt) (f : D64) (acc : List Nat) (useB useC dstV : Bool) (bOk : Nat → Nat → Bool)
    (more : Except Stop Unit := .ok ()) : Except Stop Nat := do
  let regB := useB && !f.sb
  vregCheck u false ([f.va] ++ (if regB then [f.vb] else []) ++ (if useC then [f.vc] else []) ++ (if dstV then [f.vd] else []))
  more
  let t ← elemFormat u f acc
  if regB then
    let _ ← vtag u 1 f.vb (bOk t)
  if useC then
    let _ ← vtag u 2 f.vc (fun x => x == t)
  emptyCheck u false ([(f.va, f.fa)] ++ (if regB then [(f.vb, f.fb)] else []) ++ (if useC then [(f.vc, false)] else []))
  poisonCheck u false ([f.va] ++ (if regB then [f.vb] else []) ++ (if useC then [f.vc] else [])) (if useB && f.sb then [f.vb] else [])
  pure t

/-- The source vb carries the format. -/
def sameTag (t x : Nat) : Bool := x == t

/-- The vb element: of the register, or of the scalar (R313). -/
def bElem (u : UnitSt) (f : D64) (t e : Nat) : Nat := if f.sb then u.sreg f.vb % 2 ^ fmtBits t else elem (u.v f.vb).val t e

def fpAcc : List Nat := [1, 2, 3, 4]
def intAcc : List Nat := [8, 9, 10, 11]
def bitAcc : List Nat := [0, 8, 9, 10, 11, 12]

/-- An element-wise instruction of mark E: g of the format and the elements of va, vb and vc. -/
def elementwise (f : D64) (acc : List Nat) (useB useC : Bool) (bOk : Nat → Nat → Bool)
    (g : UnitSt → Nat → Nat → Nat → Nat → Nat × Nat) (s : State) : Out3 :=
  dataOp f (fun s u => do
    let t ← prepare u f acc useB useC true bOk
    let l := mapElems t (effMask u f) f.z (fun e =>
      g u t (elem (u.v f.va).val t e) (if useB then bElem u f t e else 0) (if useC then elem (u.v f.vc).val t e else 0))
    let w ← writeV u f.vd (elemsW t (l.map Prod.fst)) t
    pure { st := s, upd := w, flags := elemFlags l }) s

/-! ### Floating point (R314, R316) -/

/-- A flagged exact value rounded to a format. -/
def roundFl (p : Val × Nat) (t rm : Nat) (ftz : Bool) : Nat × Nat :=
  let r := roundTo p.1 t rm ftz
  (r.1, p.2 ||| r.2)

/-- A floating-point operation on decoded operands. -/
def fpOp (f : D64) (useC : Bool) (g : Nat → Val → Val → Val → Val × Nat) (s : State) : Out3 :=
  elementwise f fpAcc true useC sameTag (fun u t a b c =>
    let ftz := fpFtz u
    roundFl (g (fpRm u f) (decodeOp ftz a t) (decodeOp ftz b t) (decodeOp ftz c t)) t (fpRm u f) ftz) s

/-- The fused sums: the product, negated or not, and the addend (R316). -/
def fmaVal (negP negC : Bool) (rm : Nat) (a b c : Val) : Val × Nat :=
  let p := exactMul a b
  let r := exactSum [if negP then p.1.negate else p.1, if negC then c.negate else c] rm
  (r.1, p.2 ||| r.2)

def execVfadd (f : D64) (s : State) : Out3 := fpOp f false (fun rm a b _ => exactSum [a, b] rm) s
def execVfsub (f : D64) (s : State) : Out3 := fpOp f false (fun rm a b _ => exactSum [a, b.negate] rm) s
def execVfmul (f : D64) (s : State) : Out3 := fpOp f false (fun _ a b _ => exactMul a b) s
def execVfdiv (f : D64) (s : State) : Out3 := fpOp f false (fun _ a b _ => exactDiv a b) s
def execVfma (f : D64) (s : State) : Out3 := fpOp f true (fmaVal false false) s
def execVfms (f : D64) (s : State) : Out3 := fpOp f true (fmaVal false true) s
def execVfnma (f : D64) (s : State) : Out3 := fpOp f true (fmaVal true false) s
def execVfmin (f : D64) (s : State) : Out3 := elementwise f fpAcc true false sameTag (fun u t a b _ => minMaxOwn false (fpFtz u) a b t) s
def execVfmax (f : D64) (s : State) : Out3 := elementwise f fpAcc true false sameTag (fun u t a b _ => minMaxOwn true (fpFtz u) a b t) s

/-- VFSPEC (R318, R319). -/
def execVfspec (f : D64) (s : State) : Out3 :=
  elementwise f (if f.fn == 2 then fpAcc else [1, 3, 4]) false false sameTag
    (fun u t a _ _ => specElem f.fn.toNat t (fpRm u f) (fpFtz u) a) s

/-! ### Compares (R317, R322) -/

/-- The outcome of VFCMP for one element with its flags. -/
def fcmp (fn : Nat) (a b : Val) : Bool × Nat :=
  let un := a.isNan || b.isNan
  let snan := a.nv ||| b.nv
  let ordered := 2 ≤ fn && fn ≤ 5
  let fl := if un && ordered then flNV else snan
  let c := cmpVal a b
  let r := match fn with
    | 0 => !un && c == 0
    | 1 => un || c != 0
    | 2 => !un && c < 0
    | 3 => !un && c ≤ 0
    | 4 => !un && c > 0
    | 5 => !un && c ≥ 0
    | 6 => un
    | _ => !un
  (r, fl)

/-- The outcome of VICMP for one element. -/
def icmp (fn : Nat) (a b : BitVec 32) : Bool :=
  match fn with
  | 0 => a == b
  | 1 => a != b
  | 2 => a.slt b
  | 3 => a.sle b
  | 4 => b.slt a
  | 5 => b.sle a
  | 6 => a.ult b
  | _ => b.ule a

/-- The mask that a compare leaves: lane by lane the outcome of its element, 0 under zeroing, or the old bit. -/
def cmpMask (t : Nat) (old : Mask) (l : List (Option Nat × Nat)) : Mask :=
  BitVec.ofNat 128 (packElems 1 ((range 0 128).map (fun i =>
    let e := if t == 2 then i / 2 else i
    match (l.getD e (none, 0)).1 with
    | some x => x
    | none => b2n (old.getLsbD i))))

/-- The lanes of md that a compare writes. -/
def cmpWrites (t : Nat) (l : List (Option Nat × Nat)) (i : Nat) : Bool := ((l.getD (if t == 2 then i / 2 else i) (none, 0)).1).isSome

/-- A marked half of md is written in part only. -/
def cmpSplits (u : UnitSt) (md : Nat) (written : Nat → Bool) : Bool :=
  u.ctx.mpoison.any (fun r => r.1 == md && (range (64 * r.2) 64).any written && !(range (64 * r.2) 64).all written)

/-- A compare into md; a marked half of md is cleared where it is written whole, and traps where it is written in part (R476). -/
def compareOp (f : D64) (acc : List Nat) (g : UnitSt → Nat → Nat → Nat → Bool × Nat) (s : State) : Out3 :=
  dataOp f (fun s u => do
    let t ← prepare u f acc true false false sameTag (mdstCheck u f.vd)
    let l := mapElems t (effMask u f) f.z (fun e =>
      let r := g u t (elem (u.v f.va).val t e) (bElem u f t e)
      (b2n r.1, r.2))
    need (!cmpSplits u f.vd.toNat (cmpWrites t l)) (dstop u false tcEccData)
    pure { st := s, upd := UnitSt.setMLanes f.vd (cmpMask t (u.mreg f.vd.toNat) l) (cmpWrites t l), flags := elemFlags l }) s

def execVfcmp (f : D64) (s : State) : Out3 :=
  compareOp f [1, 2] (fun u t a b => fcmp f.fn.toNat (decodeOp (fpFtz u) a t) (decodeOp (fpFtz u) b t)) s

def execVicmp (f : D64) (s : State) : Out3 :=
  compareOp f [0, 8] (fun _ _ a b => (icmp f.fn.toNat (BitVec.ofNat 32 a) (BitVec.ofNat 32 b), 0)) s

/-! ### Integers (R320) -/

/-- The saturation bit of layout I. -/
def satOf (f : D64) : Bool := f.x16.getLsbD 8

/-- An exact integer operation, wrapped or clamped. -/
def intOp (f : D64) (useC : Bool) (g : Nat → Int → Int → Int → Int) (s : State) : Out3 :=
  elementwise f intAcc true useC sameTag (fun _ t a b c =>
    wrapOrSat (satOf f) t (g t (intElem a t) (intElem b t) (intElem c t))) s

def execViadd (f : D64) (s : State) : Out3 := intOp f false (fun _ a b _ => a + b) s
def execVisub (f : D64) (s : State) : Out3 := intOp f false (fun _ a b _ => a - b) s
def execVimul (f : D64) (s : State) : Out3 :=
  intOp f false (fun t a b _ => if f.fn == 1 then a * b / (2 ^ fmtBits t : Nat) else a * b) s
def execVimad (f : D64) (s : State) : Out3 := intOp f true (fun _ a b c => a * b + c) s

/-- VIMIN and VIMAX: fn 1 reads every format unsigned. -/
def minMaxInt (f : D64) (mx : Bool) (s : State) : Out3 :=
  elementwise f intAcc true false sameTag (fun _ t a b _ =>
    let v (x : Nat) : Int := if f.fn == 1 then x else intElem x t
    (if decide (v a < v b) != mx then a else b, 0)) s

def execVimin (f : D64) (s : State) : Out3 := minMaxInt f false s
def execVimax (f : D64) (s : State) : Out3 := minMaxInt f true s

/-! ### Bits (R321) -/

/-- The shifts: the count is the vb element, which may also be RAW32, or imm6. -/
def shiftOp (f : D64) (g : Nat → Nat → Nat → Nat) (s : State) : Out3 :=
  elementwise f bitAcc (f.fn == 0) false (fun t x => x == t || x == 0) (fun _ t a b _ =>
    (g t a (if f.fn == 0 then b else f.vc.toNat), 0)) s

def execVshl (f : D64) (s : State) : Out3 := shiftOp f (fun t x n => if fmtBits t ≤ n then 0 else x * 2 ^ n % 2 ^ fmtBits t) s
def execVshr (f : D64) (s : State) : Out3 := shiftOp f (fun t x n => if fmtBits t ≤ n then 0 else x / 2 ^ n) s
def execVsar (f : D64) (s : State) : Out3 :=
  shiftOp f (fun t x n =>
    if t == 11 then (if 8 ≤ n then 0 else x / 2 ^ n)
    else natOf (fmtBits t) (sintOf (fmtBits t) x / (2 ^ min n (fmtBits t) : Nat))) s

/-- BREV: the low n bits reversed. -/
def brev (x : Nat) : Nat → Nat
  | 0 => 0
  | n + 1 => b2n (x.testBit 0) * 2 ^ n + brev (x / 2) n

/-- VIBIT. -/
def execVibit (f : D64) (s : State) : Out3 :=
  elementwise f bitAcc false false sameTag (fun _ t a _ _ =>
    (match f.fn.toNat with
      | 0 => popN a (fmtBits t)
      | 1 => clzN a (fmtBits t)
      | _ => brev a (fmtBits t), 0)) s

/-! ### Whole lanes (R321, R325, R326) -/

/-- Lane i of a register. -/
def UnitSt.lane (u : UnitSt) (i : BitVec 6) (n : Nat) : Nat := elem (u.v i).val 0 n

/-- A lane is active for a register of a tag: FP64 elements follow lane 2j (R264). -/
def laneActive (t : Nat) (em : Mask) (i : Nat) : Bool := em.getLsbD (if t == 2 then i / 2 * 2 else i)

/-- An instruction that writes whole lanes under the effective mask; bOk none: no vb register. It gives vd a tag of va's. -/
def laneOp (f : D64) (bOk : Option (Nat → Nat → Bool)) (scal : List (BitVec 6)) (tag : Nat → Nat)
    (g : UnitSt → Nat → Nat → Nat) (s : State) : Out3 :=
  dataOp f (fun s u => do
    let regB := bOk.isSome
    vregCheck u false ([f.va] ++ (if regB then [f.vb] else []) ++ [f.vd])
    let t ← vtag u 0 f.va anyTag
    match bOk with
    | some ok =>
      let _ ← vtag u 1 f.vb (ok t)
    | none => pure ()
    emptyCheck u false ([(f.va, f.fa)] ++ (if regB then [(f.vb, f.fb)] else []))
    poisonCheck u false ([f.va] ++ (if regB then [f.vb] else [])) scal
    let em := effMask u f
    let w ← writeV u f.vd (lanesW ((range 0 128).map (fun i =>
      if laneActive t em i then some (g u t i) else if f.z then some 0 else none))) (tag t)
    pure { st := s, upd := w }) s

/-- VAND, VOR, VXOR: with sb the low 32 bits of the scalar stand in every lane. -/
def bitwiseOp (f : D64) (g : Nat → Nat → Nat) (s : State) : Out3 :=
  laneOp f (if f.sb then none else some (fun _ x => anyTag x)) (if f.sb then [f.vb] else []) id
    (fun u _ i => g (u.lane f.va i) (if f.sb then u.sreg f.vb % 2 ^ 32 else u.lane f.vb i)) s

def execVand (f : D64) (s : State) : Out3 := bitwiseOp f (fun a b => a &&& b) s
def execVor (f : D64) (s : State) : Out3 := bitwiseOp f (fun a b => a ||| b) s
def execVxor (f : D64) (s : State) : Out3 := bitwiseOp f (fun a b => a ^^^ b) s

/-- VMOV: a copy, or a copy with another tag. -/
def execVmov (f : D64) (s : State) : Out3 :=
  laneOp f none [] (fun t => if f.fn == 1 then f.fmt else t) (fun u _ i => u.lane f.va i) s

/-- VSEL: lane i of va where m[vc] is set, of vb where it is clear. -/
def execVsel (f : D64) (s : State) : Out3 :=
  laneOp f (some sameTag) [] id (fun u t i => if laneActive t (u.mreg f.vc.toNat) i then u.lane f.va i else u.lane f.vb i) s

/-- VXCH: lane i XOR (W >> k). -/
def execVxch (f : D64) (s : State) : Out3 :=
  laneOp f none [] id (fun u _ i => u.lane f.va (i ^^^ (Config.width >>> f.vc.toNat))) s

/-- The lane or count of layout L (R325, R326). -/
def laneIndex (u : UnitSt) (f : D64) : Nat := if f.fn == 1 then u.sreg f.vb % Config.width else f.x16.toNat / 256 % 128

/-- VROT: lane (i + n) mod W. -/
def execVrot (f : D64) (s : State) : Out3 :=
  laneOp f none (if f.fn == 1 then [f.vb] else []) id (fun u _ i => u.lane f.va ((i + laneIndex u f) % Config.width)) s

/-- VSHUF: lane (v mod W) of va, v being lane i of vb. -/
def execVshuf (f : D64) (s : State) : Out3 :=
  laneOp f (some (fun _ x => x == 0 || x == 8)) [] id (fun u _ i => u.lane f.va (u.lane f.vb i % Config.width)) s

/-- VBCAST: the low b bits of the scalar to every active element. -/
def execVbcast (f : D64) (s : State) : Out3 :=
  dataOp f (fun s u => do
    vregCheck u false [f.vd]
    poisonCheck u false [] [f.va]
    let t := f.fmt
    let l := mapElems t (effMask u f) f.z (fun _ => (u.sreg f.va % 2 ^ fmtBits t, 0))
    let w ← writeV u f.vd (elemsW t (l.map Prod.fst)) t
    pure { st := s, upd := w }) s

/-- The pair bit of layout L. -/
def pairBit (f : D64) : Bool := f.x16.getLsbD 7

/-- VLANE: one lane, or a pair of lanes, to a scalar register. -/
def execVlane (f : D64) (s : State) : Out3 :=
  dataOp f (fun s u => do
    vregCheck u false [f.va]
    sdstCheck u f.vd
    let _ ← vtag u 0 f.va anyTag
    emptyCheck u false [(f.va, f.fa)]
    poisonCheck u false [f.va] (if f.fn == 1 then [f.vb] else [])
    let i := laneIndex u f
    let x := if pairBit f then elem (u.v f.va).val 2 (i % (Config.width / 2)) else u.lane f.va i
    pure { st := s, upd := fun y => y.setS f.vd x }) s

/-- VINS: a scalar into one lane, or a pair, if that lane is set in ma. -/
def execVins (f : D64) (s : State) : Out3 :=
  dataOp f (fun s u => do
    vregCheck u false [f.vd]
    poisonCheck u false [] ([f.va] ++ (if f.fn == 1 then [f.vb] else []))
    let i := laneIndex u f
    let x := u.sreg f.va
    let lo := if pairBit f then i % (Config.width / 2) * 2 else i
    if u.ma.getLsbD lo then
      let tag := (u.v f.vd).tag.toNat
      let l := (range 0 128).map (fun k =>
        if k == lo then some (x % 2 ^ 32) else if pairBit f && k == lo + 1 then some (x / 2 ^ 32 % 2 ^ 32) else none)
      let w ← writeV u f.vd (lanesW l) (if tag == 15 then 0 else tag)
      pure { st := s, upd := w }
    else pure { st := s, upd := id }) s

/-! ### Conversion (R324) -/

/-- The part q of layout C. -/
def partQ (f : D64) : Nat := f.x16.toNat / 128 % 16

/-- VCVT. Where the destination has more elements, FP_TRAP names the element of the destination (R324 does not say which: DESIGN CHOICE, assumption
123). -/
def execVcvt (f : D64) (s : State) : Out3 :=
  dataOp f (fun s u => do
    vregCheck u false [f.va, f.vd]
    let fs ← vtag u 0 f.va (fun t => 1 ≤ t && t ≤ 12)
    let ft := f.fmt
    let ns := numElem fs
    let nd := numElem ft
    let q := partQ f
    need (q < max ns nd / min ns nd) (illegalOp u false 4 q)
    emptyCheck u false [(f.va, f.fa)]
    poisonCheck u false [f.va] []
    let em := effMask u f
    let one (src : Nat) (act : Bool) : Option Nat × Nat :=
      if act then
        let r := toFormat (elem (u.v f.va).val fs src) fs ft (fpRm u f) (fpFtz u)
        (some r.1, r.2)
      else (if f.z then some 0 else none, 0)
    let l : List (Option Nat × Nat) :=
      if ns ≤ nd then (range 0 nd).map (fun t => if q * ns ≤ t && t < (q + 1) * ns then one (t - q * ns) (active (t - q * ns) fs em) else (none, 0))
      else (range 0 nd).map (fun e => one (q * nd + e) (active e ft em))
    let w ← writeV u f.vd (elemsW ft (l.map Prod.fst)) ft
    pure { st := s, upd := w, flags := elemFlags l }) s

/-! ### Masks (R323) -/

/-- A mask instruction into md. -/
def maskOp (f : D64) (g : UnitSt → Mask) (s : State) : Out3 :=
  dataOp f (fun s u => do
    mdstCheck u f.vd
    pure { st := s, upd := fun x => x.setM f.vd (g u) }) s

/-- MOP. -/
def execMop (f : D64) (s : State) : Out3 :=
  maskOp f (fun u =>
    let a := u.mreg f.va.toNat
    let b := u.mreg f.vb.toNat
    match f.fn.toNat with
    | 0 => a &&& b
    | 1 => a ||| b
    | 2 => a ^^^ b
    | 3 => a &&& ~~~b
    | 4 => ~~~a
    | 5 => lowLanes Config.width
    | _ => 0) s

/-- A mask instruction into a scalar register. -/
def maskToS (f : D64) (g : UnitSt → Nat) (s : State) : Out3 :=
  dataOp f (fun s u => do
    sdstCheck u f.vd
    pure { st := s, upd := fun x => x.setS f.vd (g u) }) s

/-- MCNT. -/
def execMcnt (f : D64) (s : State) : Out3 := maskToS f (fun u => popN (u.mreg f.va.toNat).toNat 128) s

/-- MFIRST: the lowest or highest set lane, W where none is set. -/
def execMfirst (f : D64) (s : State) : Out3 :=
  maskToS f (fun u =>
    let m := (u.mreg f.va.toNat).toNat
    if m == 0 then Config.width else if f.fn == 0 then ctzN m 0 128 else Nat.log2 m) s

/-- MMOV. -/
def execMmov (f : D64) (s : State) : Out3 :=
  match f.fn.toNat with
  | 0 => maskOp f (fun u => u.mreg f.va.toNat) s
  | 1 =>
    dataOp f (fun s u => do
      mdstCheck u f.vd
      poisonCheck u false [] [f.va, f.vb]
      pure { st := s, upd := fun x => x.setM f.vd (BitVec.ofNat 128 (u.sreg f.va + 2 ^ 64 * u.sreg f.vb)) }) s
  | 2 => maskToS f (fun u => (u.mreg f.va.toNat).toNat % 2 ^ 64) s
  | _ => maskToS f (fun u => (u.mreg f.va.toNat).toNat / 2 ^ 64) s

/-! ### Across lanes (R327 to R329) -/

def redAcc : List Nat := [1, 2, 3, 4, 8, 9, 10, 11]

/-- The elements of va, with the identity where inactive. -/
def identElems (u : UnitSt) (f : D64) (t : Nat) : List Nat :=
  (range 0 (numElem t)).map (fun e => if active e t (effMask u f) then elem (u.v f.va).val t e else identBits f.fn.toNat t)

/-- VRED. -/
def execVred (f : D64) (s : State) : Out3 :=
  dataOp f (fun s u => do
    let t ← prepare u f redAcc false false false sameTag (sdstCheck u f.vd)
    let r := treeReduce f.fn.toNat t (fpFtz u) (Nat.log2 (numElem t)) (identElems u f t)
    pure { st := s, upd := fun x => x.setS f.vd r.1, flags := r.2.filter (fun p => p.2 != 0) }) s

/-- VSCAN. -/
def execVscan (f : D64) (s : State) : Out3 :=
  dataOp f (fun s u => do
    let t ← prepare u f redAcc false false true sameTag
    let r := scanElems f.fn.toNat t (fpFtz u) f.sb (identBits f.fn.toNat t) (identElems u f t)
    let l := ((range 0 r.length).zip r).map (fun p => (maskElem t (effMask u f) f.z p.1 p.2.1, p.2.2))
    let w ← writeV u f.vd (elemsW t (l.map Prod.fst)) t
    pure { st := s, upd := w, flags := elemFlags l }) s

/-- Checks of VCOMP and VEXPD: any tag, the count register narrowed to s0 to s31 by decode. -/
def packCheck (u : UnitSt) (f : D64) : Except Stop Nat := do
  vregCheck u false [f.va, f.vd]
  let t ← vtag u 0 f.va anyTag
  emptyCheck u false [(f.va, f.fa)]
  poisonCheck u false [f.va] []
  pure t

/-- The active elements in order. -/
def activeElems (t : Nat) (em : Mask) : List Nat := (range 0 (numElem t)).filter (fun e => active e t em)

/-- VCOMP: the active elements packed from element 0 on, zeros above, and their count. -/
def execVcomp (f : D64) (s : State) : Out3 :=
  dataOp f (fun s u => do
    let t ← packCheck u f
    let es := (activeElems t (effMask u f)).map (fun e => elem (u.v f.va).val t e)
    let w ← writeV u f.vd (elemsW t ((range 0 (numElem t)).map (fun e => some (es.getD e 0)))) t
    pure { st := s, upd := fun x => (w x).setS f.vc es.length }) s

/-- Element j of va into the j-th active element. -/
def expandElems (t : Nat) (em : Mask) (z : Bool) (src : VReg) : Nat → List Nat → List (Option Nat)
  | _, [] => []
  | j, e :: es =>
    if active e t em then some (elem src t j) :: expandElems t em z src (j + 1) es
    else (if z then some 0 else none) :: expandElems t em z src j es

/-- VEXPD. -/
def execVexpd (f : D64) (s : State) : Out3 :=
  dataOp f (fun s u => do
    let t ← packCheck u f
    let em := effMask u f
    let w ← writeV u f.vd (elemsW t (expandElems t em f.z (u.v f.va).val 0 (range 0 (numElem t)))) t
    pure { st := s, upd := fun x => (w x).setS f.vc (activeElems t em).length }) s

/-- x ranks above y in a group: NaN first, then larger magnitude, then the lower index (R329). -/
def ranksAbove (f : Nat) (x y : Nat × Nat) : Bool :=
  let a := decodeVal x.2 f
  let b := decodeVal y.2 f
  if a.isNan || b.isNan then if a.isNan && b.isNan then decide (x.1 < y.1) else a.isNan
  else
    let c := cmpVal a.abs b.abs
    c > 0 || (c == 0 && decide (x.1 < y.1))

/-- The indices of the four elements of a group that are kept, rising. -/
def keptOf (f : Nat) (g : List Nat) : List Nat :=
  let xs := (range 0 8).zip g
  (range 0 8).filter (fun k => (xs.filter (fun y => ranksAbove f y (k, g.getD k 0))).length < 4)

/-- The metadata field of kept indices. -/
def metaField (ks : List Nat) : Nat := ks.getD 0 0 + 8 * ks.getD 1 0 + 64 * ks.getD 2 0 + 512 * ks.getD 3 0

/-- VPRUNE. -/
def execVprune (f : D64) (s : State) : Out3 :=
  dataOp f (fun s u => do
    vregCheck u false [f.va, f.vc, f.vd]
    let t ← elemFormat u f [3, 4, 5, 6, 10]
    let n := numElem t
    let g := n / 8
    let p := f.x16.toNat / 256 % 8
    need (p < 256 / g) (illegalOp u false 4 p)
    emptyCheck u false [(f.va, f.fa)]
    poisonCheck u false [f.va] []
    let groups := (range 0 g).map (fun i => (range 0 8).map (fun k => elem (u.v f.va).val t (8 * i + k)))
    let kept := groups.map (fun x => (keptOf t x, x))
    let vals := kept.flatMap (fun x => x.1.map (fun k => x.2.getD k 0))
    let h := p % 2
    let dl := (range 0 n).map (fun e => if h * (n / 2) ≤ e && e < (h + 1) * (n / 2) then some (vals.getD (e - h * (n / 2)) 0) else none)
    let ml := (range 0 256).map (fun e => if p * g ≤ e && e < (p + 1) * g then some (metaField ((kept.getD (e - p * g) ([], [])).1) ) else none)
    let w ← writeV u f.vd (elemsW t dl) t
    let w2 ← writeV u f.vc (elemsW 13 ml) 13
    pure { st := s, upd := fun x => w2 (w x) }) s

end Sys2Proof.Machine
end

