-- ==== Sys2Proof/Machine/Pantry.lean ====
section
/-!
DEFINITION. Pantry access, the constant path, the scalar side, queues and sequencing of the data slice (R59, R60, R168 to R176,
R330 to R339), with the steps that end its waits.
-/

namespace Sys2Proof.Machine

/-! ### VLD and VST (R331) -/

/-- The active lanes for a tag. -/
def activeLanes (t : Nat) (em : Mask) : List Nat := (range 0 128).filter (laneActive t em)

/-- One past the highest byte of lanes of 4 bytes. -/
def laneExtent (ls : List Nat) : Nat := (ls.map (fun i => 4 * i + 4)).foldl max 0

/-- A lane write: the words got for active lanes, zero or kept elsewhere. -/
def lanesFrom (ls : List Nat) (words : List Nat) (z : Bool) : RegW :=
  lanesW ((range 0 128).map (fun i =>
    match findIdxVal (fun k => k == i) ls 0 with
    | some (j, _) => some (words.getD j 0)
    | none => if z then some 0 else none))

/-- The address of a pantry instruction, aligned to n bytes (R330). -/
def alignedAddr (u : UnitSt) (base off : Nat) (k : BitVec 6) (n : Nat) : Except Stop Nat := do
  let a ← pantryAddr u false base off k
  need (a % n == 0) (dstop u false tcMisalign a)
  pure a

/-- The region and the offset of VLD's lane 0, after the checks on its address. -/
def vldPlace (s : State) (u : UnitSt) (f : D64) (ls : List Nat) : Except Stop (UnitSt × Nat) := do
  poisonCheck u false [] [f.va]
  let a ← alignedAddr u (u.sreg f.va) f.x16.toNat f.vc 4
  resolve s u false a (laneExtent ls)

/-- The words of lanes of a VLD whose region and offset are known. -/
def vldWords (s : State) (u : UnitSt) (f : D64) (r : UnitSt × Nat) (ls : List Nat) : Except Stop (State × List (Nat × Nat)) :=
  (pantryRead s u r.1 false f.fa (ls.map (fun i => (r.2 + 4 * i, 4)))).map (fun g => (g.1, ls.zip (g.2.map leNat)))

/-- VLD: a lane that has been read already keeps its word, for a VLD is not one event (R335). Where a line that it has still to read is not
full any more, its check and all of its reads start again (R54). -/
def execVld (f : D64) (s : State) : Out3 :=
  dataOp f (fun s u => do
    vregCheck u false [f.vd]
    let t := f.fn.toNat
    let ls := activeLanes t (effMask u f)
    if ls.isEmpty then
      let w ← writeV u f.vd (lanesFrom [] [] f.z) t
      pure { st := s, upd := w }
    else
      let r ← vldPlace s u f ls
      let early := u.ctx.dat.lanes
      let g ← match vldWords s u f r (ls.filter (fun i => !early.any (fun e => e.1 == i))) with
        | .ok g => .ok (g.1, early ++ g.2)
        | .error e => if early.isEmpty then .error e else vldWords s u f r ls
      let word (i : Nat) : Nat := ((g.2.find? (fun e => e.1 == i)).map Prod.snd).getD 0
      let w ← writeV u f.vd (lanesFrom ls (ls.map word) f.z) t
      pure { st := g.1, upd := w }) s

/-- What of a VLD is one event: an aligned 8-byte unit (R142), or a line of a mirror, which shows one sequence point (R69). -/
def vldUnit (s : State) (r : UnitSt × Nat) (i : Nat) : Nat × Nat :=
  let a := r.2 + 4 * i
  (a / 128, if s.subs.any (fun b => b.unit == r.1.key && overlap b.off b.size (a / 128 * 128) 128) then 16 else a / 8 % 16)

/-- The VLD at the PC reads the lanes of a mask, whole units of them, before the others (R335), once every line that it reads has been found
full (R54). -/
def vldAhead (f : D64) (u : UnitSt) (n : Nat) (s : State) : State :=
  let ls := activeLanes f.fn.toNat (effMask u f)
  match vregCheck u false [f.vd], vldPlace s u f ls with
  | .ok _, .ok r =>
    let early := u.ctx.dat.lanes
    let late := ls.filter (fun i => !early.any (fun e => e.1 == i))
    let some := late.filter (fun i => late.all (fun j => n.testBit j || vldUnit s r j != vldUnit s r i))
    (match vldWords s u f r late, vldWords s u f r some with
    | .ok _, .ok (t, ws) => t.modUnit u.key (fun v => v.modDat (fun d => { d with lanes := early ++ ws }))
    | _, _ => s)
  | _, _ => s

/-- VST. -/
def execVst (f : D64) (s : State) : Out3 :=
  dataOp f (fun s u => do
    vregCheck u false [f.vb]
    let t ← vtag u 1 f.vb anyTag
    let ls := activeLanes t (effMask u f)
    if ls.isEmpty then
      emptyCheck u false [(f.vb, f.fb)]
      pure { st := s, upd := id }
    else
      let a ← alignedAddr u (u.sreg f.va) f.x16.toNat f.vc 4
      let r ← resolve s u false a (laneExtent ls)
      emptyCheck u false [(f.vb, f.fb)]
      poisonCheck u false [f.vb] [f.va]
      let t ← pantryStore s u r.1 false (ls.map (fun i => (r.2 + 4 * i, leBytes 4 (elem (u.v f.vb).val 0 i))))
      pure { st := t, upd := id }) s

/-! ### VLDX and VSTX (R332) -/

/-- The region offsets that the lanes name, after the checks of R332. -/
def indexed (s : State) (u : UnitSt) (f : D64) (ls : List Nat) : Except Stop (UnitSt × List Nat) := do
  let a ← pantryAddr u false (u.sreg f.va) f.x16.toNat 0
  let xs := ls.map (fun i => elem (u.v f.vb).val 0 i)
  need (a % 4 == 0 && xs.all (fun x => x % 4 == 0)) (dstop u false tcMisalign a)
  let r ← resolve s u false a 0
  need (xs.all (fun x => r.2 + x + 4 ≤ r.1.regionBytes)) (dstop u false tcPantryRange a)
  pure (r.1, xs.map (fun x => r.2 + x))

/-- VLDX. -/
def execVldx (f : D64) (s : State) : Out3 :=
  dataOp f (fun s u => do
    vregCheck u false [f.vb, f.vd]
    let _ ← vtag u 1 f.vb (fun t => t == 0 || t == 8)
    emptyCheck u false [(f.vb, f.fb)]
    poisonCheck u false [f.vb] [f.va]
    let ls := activeLanes 0 (effMask u f)
    if ls.isEmpty then
      let w ← writeV u f.vd (lanesFrom [] [] f.z) f.fn.toNat
      pure { st := s, upd := w }
    else
      let r ← indexed s u f ls
      let g ← pantryRead s u r.1 false f.fa (r.2.map (fun o => (o, 4)))
      let w ← writeV u f.vd (lanesFrom ls (g.2.map leNat) f.z) f.fn.toNat
      pure { st := g.1, upd := w }) s

/-- Each distinct word once, with the value of the last lane that names it. -/
def lastWins : List (Nat × List Byte) → List (Nat × List Byte)
  | [] => []
  | w :: ws => if ws.any (fun x => x.1 == w.1) then lastWins ws else w :: lastWins ws

/-- VSTX. -/
def execVstx (f : D64) (s : State) : Out3 :=
  dataOp f (fun s u => do
    vregCheck u false [f.vb, f.vc]
    let _ ← vtag u 1 f.vb (fun t => t == 0 || t == 8)
    let _ ← vtag u 2 f.vc anyTag
    emptyCheck u false [(f.vb, f.fb)]
    let ls := activeLanes 0 (effMask u f)
    if ls.isEmpty then
      emptyCheck u false [(f.vc, false)]
      pure { st := s, upd := id }
    else
      let r ← indexed s u f ls
      emptyCheck u false [(f.vc, false)]
      poisonCheck u false [f.vb, f.vc] [f.va]
      let ws := (r.2.zip ls).map (fun x => (x.1, leBytes 4 (elem (u.v f.vc).val 0 x.2)))
      let t ← pantryStore s u r.1 false (lastWins ws)
      pure { st := t, upd := id }) s

/-! ### VLDC (R74, R333) -/

/-- Check and translate the words of the active lanes, in lane order: their physical addresses, with the levels of their leaves. -/
def constAddrs (u : UnitSt) : List Nat → State → Except Stop (State × List (Nat × Nat))
  | [], s => .ok (s, [])
  | va :: r, s =>
    if 2 ^ 57 ≤ va then .error (dstop u false tcPageAbsent va (xinfo 1 7 4))
    else if localWindow ≤ va then .error (dstop u false tcPageAttr va (xinfo 6 7 4))
    else
      let allowed := regionOk u va 4 true false
      if !allowed && !s.fwj u.key.job then .error (dstop u false tcRegion va)
      else match xlate s u true { kind := .const } va with
      | .trap t code info => .error (.hold (t.takeTrap u (datTrap u false code va info)))
      | .wait t n => .error (.hold (t.modUnit u.key (fun v => v.modDat (fun d => { d with wait := .walk n }))))
      | .retry t => .error (.hold t)
      | .ok t pa e lvl => do
        if !allowed && !Pte.rcx e then .error (dstop u false tcRegion va)
        let x ← constAddrs u r t
        pure (x.1, (pa, lvl) :: x.2)

/-- The lines of the constant cache, filled where it does not hold them (R74): a coherent read, or a read over the link. -/
def constFill (u : UnitSt) : List ((Nat × Nat) × Nat) → State → Except Stop State
  | [], s => .ok s
  | ((pa, lvl), va) :: r, s =>
    let j := u.key.job
    let mine (l : CcLine) : Bool := l.job == j && l.line == lineOf pa
    if (s.pairOf u.pair).cc.any mine then constFill u r (s.modPair u.pair (fun p => { p with cc := toFront mine p.cc }))
    else
      let base := lineOf pa * 128
      match place52 pa with
      | .host _ _ | .peer _ _ =>
        let a : Access := { aid := s.fresh, unit := u.key, pair := u.pair, va := va, pa := base, size := 128, cm := 0, ham := 0
                            lvl := lvl, key := s.keyGenOf u, cls := u.launch.cls, group := 0, len := 2, rel := none, acq := none
                            use := .const }
        match hostSlot s (dieOf u.pair) u.ctx.ctl.hostFloor base 128 with
        | some bs => if bs.any TByte.bad then .error (dstop u false tcEccData va) else constFill u r (fillConst (touchHome s base) u.pair j (lineOf pa) bs)
        | none =>
          match linkRead s.bump base 128 (.access a) with
          | some t => .error (.hold (t.modUnit u.key (fun v => v.modDat (fun d => { d with wait := .const s.fresh }))))
          | none => .error (.hold s)
      | .hbm | .attic _ _ _ | .pantry _ _ | .mmio _ _ | .unmapped =>
        match cohRead s (some u.launch.cls) base 128 with
        | none => .error (.hold (s.knock base))
        | some (t, bs) =>
          if homePoisoned t base 128 then .error (dstop u false tcEccData va)
          else constFill u r (fillConst t u.pair j (lineOf pa) bs)

/-- The word at an address of the constant cache. -/
def constWord (s : State) (u : UnitSt) (pa : Nat) : Nat :=
  match (s.pairOf u.pair).cc.find? (fun l => l.job == u.key.job && l.line == lineOf pa) with
  | none => 0
  | some l => leNat (lineSeen (s.keyGenOf u) (lineOf pa * 128) l.data (pa % 128) 4)

/-- VLDC. -/
def execVldc (f : D64) (s : State) : Out3 :=
  dataOp f (fun s u => do
    vregCheck u false [f.vd]
    let t := f.fn.toNat
    let ls := activeLanes t (effMask u f)
    if ls.isEmpty then
      let w ← writeV u f.vd (lanesFrom [] [] f.z) t
      pure { st := s, upd := w }
    else
      poisonCheck u false [] [f.va]
      let a := (u.sreg f.va + f.x16.toNat) % 2 ^ 64
      need (a % 4 == 0) (dstop u false tcMisalign a)
      let vas := ls.map (fun i => (a + 4 * i) % 2 ^ 64)
      let x ← constAddrs u vas s
      let s1 ← constFill u (x.2.zip vas) x.1
      let w ← writeV u f.vd (lanesFrom ls (x.2.map (fun y => constWord s1 u y.1)) f.z) t
      pure { st := s1, upd := w }) s

/-! ### PFILL and PMARK (R60, R334) -/

/-- PFILL. -/
def execPfill (f : D64) (s : State) : Out3 :=
  dataOp f (fun s u => do
    if u.ma == 0 then pure { st := s, upd := id }
    else
      poisonCheck u false [] [f.va, f.vb, f.vc]
      let a ← alignedAddr u (u.sreg f.va) f.x16.toNat 0 4
      let n := u.sreg f.vb
      if n == 0 then pure { st := s, upd := id }
      else
        need (n ≤ 262144) (dstop u false tcPantryRange a)
        let r ← resolve s u false a (4 * n)
        let w := leBytes 4 (u.sreg f.vc)
        let t ← pantryStore s u r.1 false [(r.2, ((range 0 n).map (fun _ => w)).flatten)]
        pure { st := t, upd := id }) s

/-- Lines take a state by PMARK. -/
def markLines (st : Nat) (ls : List Nat) (v : UnitSt) : UnitSt :=
  if st == 1 then v.emptyLines ls else ls.foldl (fun v l => v.setLine l st) v

/-- PMARK. -/
def execPmark (f : D64) (s : State) : Out3 :=
  dataOp f (fun s u => do
    if u.ma == 0 then pure { st := s, upd := id }
    else
      poisonCheck u false [] [f.va, f.vb]
      let a ← alignedAddr u (u.sreg f.va) f.x16.toNat f.vc 128
      let n := u.sreg f.vb
      if n == 0 then pure { st := s, upd := id }
      else
        need (n ≤ 8192) (dstop u false tcPantryRange a)
        let r ← resolve s u false a (128 * n)
        pure { st := s.modUnit r.1.key (markLines f.fn.toNat (range (r.2 / 128) n)), upd := id }) s

/-! ### The scalar side (R336, R337) -/

/-- SALU. -/
def execSalu (f : D64) (s : State) : Out3 :=
  dataOp f (fun s u => do
    sdstCheck u f.vd
    poisonCheck u false [] (if f.fn.toNat < 0x18 then [f.va, f.vb] else [f.va])
    let a : Word := BitVec.ofNat 64 (u.sreg f.va)
    let b : Word := BitVec.ofNat 64 (u.sreg f.vb)
    need (!(aluDivides f.fn.toNat && b == 0)) (dstop u false tcDivZero)
    pure { st := s, upd := fun x => x.setS f.vd (aluFn f.fn.toNat a b).toNat }) s

/-- The operations of SLI. -/
def sliFn (fn : Nat) (a : Word) (x : BitVec 16) : Word :=
  let sh := x.toNat % 64
  match fn with
  | 0 => a + x.signExtend 64
  | 1 => a &&& x.zeroExtend 64
  | 2 => a ||| x.zeroExtend 64
  | 3 => a ^^^ x.zeroExtend 64
  | 4 => a <<< sh
  | 5 => a >>> sh
  | 6 => a.sshiftRight sh
  | _ => (a <<< (16 : Nat)) ||| x.zeroExtend 64

/-- SLI. -/
def execSli (f : D64) (s : State) : Out3 :=
  dataOp f (fun s u => do
    sdstCheck u f.vd
    poisonCheck u false [] [f.va]
    pure { st := s, upd := fun x => x.setS f.vd (sliFn f.fn.toNat (BitVec.ofNat 64 (u.sreg f.va)) f.x16).toNat }) s

/-- SLD: fn[1:0] the size, fn[2] sign extension. -/
def execSld (f : D64) (s : State) : Out3 :=
  dataOp f (fun s u => do
    let n := 2 ^ (f.fn.toNat % 4)
    sdstCheck u f.vd
    poisonCheck u false [] [f.va]
    let a ← alignedAddr u (u.sreg f.va) f.x16.toNat f.vc n
    let r ← resolve s u false a n
    let g ← pantryRead s u r.1 false f.fa [(r.2, n)]
    pure { st := g.1, upd := fun x => x.setS f.vd (loadValue (f.fn.getLsbD 2) g.2.flatten).toNat }) s

/-- SST. -/
def execSst (f : D64) (s : State) : Out3 :=
  dataOp f (fun s u => do
    let n := 2 ^ (f.fn.toNat % 4)
    poisonCheck u false [] [f.va, f.vb]
    let a ← alignedAddr u (u.sreg f.va) f.x16.toNat f.vc n
    let r ← resolve s u false a n
    let t ← pantryStore s u r.1 false [(r.2, leBytes n (u.sreg f.vb))]
    pure { st := t, upd := id }) s

/-! ### The dumbwaiter (R174, R338) -/

/-- The entry appended, or discarded once the control slice has ended. -/
def Ctx.pushDw (e : DwEntry) (x : Ctx) : Ctx := if x.ctl.done then x else { x with dw := x.dw ++ [e] }

/-- DWPUSH. -/
def execDwpush (f : D64) (s : State) : Out3 :=
  dataOp f (fun s u => do
    poisonCheck u false [] (if f.fn == 1 then [] else [f.va])
    let e := if f.fn == 1 then DwEntry.pred (u.mreg f.va.toNat) else .scalar (BitVec.ofNat 64 (u.sreg f.va))
    need (u.ctx.ctl.done || u.ctx.dw.length < 64) (.wait (.dwpush e f.nas))
    pure { st := s, upd := fun x => x.modCtx (Ctx.pushDw e) }) s

/-- The resident whose data slice may go on in a slot. -/
def dataResident (s : State) (pair slot : Nat) : Option UnitSt := (s.resident pair slot).filter UnitSt.datRuns

/-- DWPUSH_RESUME: there is room, or the control slice has ended; the push completes. -/
def execDwpushResume (pair slot : Nat) (s : State) : Out3 :=
  match dataResident s pair slot with
  | none => .next s
  | some u =>
    match u.ctx.dat.wait with
    | .dwpush e nas =>
      if u.ctx.ctl.done || u.ctx.dw.length < 64 then .next (s.putUnit ((selectNext s (u.modCtx (Ctx.pushDw e)) nas).stamped s.cycle)) else .next s
    | _ => .next s

/-! ### Register blocks (R175, R176) -/

/-- v32 to v63 as granted: UNINIT, full, all bits zero (R176, R266). -/
def Ctx.grantExt (now : Nat) (x : Ctx) : Ctx :=
  { x with ext := true, extSince := now
           dat := { x.dat with v := (range 32 32).foldl (fun v i => v.setIfInBounds i {}) x.dat.v } }

/-- Extended blocks in use on a pair. -/
def extUsed (s : State) (pair : Nat) : Nat :=
  ((s.occupants pair).filter (fun u => u.ctx.ext && (match u.place with | .restoring _ _ => false | _ => true))).length

/-- VGRAB (R176, R339). -/
def execVgrab (f : D64) (s : State) : Out3 :=
  dataOp f (fun s u => do
    need u.launch.regs64 (illegalOp u false 5 32)
    if u.ctx.ext then pure { st := s, upd := id }
    else if extUsed s u.pair < 2 && (s.pairOf u.pair).vgrab.isEmpty then
      pure { st := s, upd := fun x => x.modCtx (Ctx.grantExt s.cycle) }
    else
      .error (.hold ((s.modPair u.pair (fun p => { p with vgrab := if p.vgrab.contains u.key then p.vgrab else p.vgrab ++ [u.key] })).waitD u .vgrab))) s

/-- VGRAB_GRANT (R176): a free block goes to the unit whose VGRAB has waited longest; its VGRAB then finds the block held. A unit
under restore at the head takes its block in CONTEXT_RESTORE. -/
def execVgrabGrant (pair : Nat) (s : State) : Out3 :=
  match (s.pairOf pair).vgrab with
  | [] => .next s
  | k :: r =>
    let t := s.modPair pair (fun p => { p with vgrab := r })
    match s.findUnit k with
    | none => .next t
    | some u =>
      if (match u.place with | .restoring p _ => p == pair | _ => false) then .next s
      else if !(u.datRuns && u.pair == pair && u.ctx.dat.wait == .vgrab) then .next t
      else if extUsed s pair < 2 then .next (t.putUnit ((u.modCtx (Ctx.grantExt s.cycle)).modDat (fun d => { d with wait := .none })))
      else .next s

/-- VDROP (R176). -/
def execVdrop (f : D64) (s : State) : Out3 :=
  dataOp f (fun s _ => pure { st := s, upd := fun x => x.modCtx (fun c => { c with ext := false }) }) s

/-- DNOP (R171): with fn 1 the head moves to the next data instruction, or to the PC at which the walk to it stops. -/
def execDnop (f : D64) (s : State) : Out3 :=
  dataOp f (fun s u => do
    if f.fn == 0 then pure { st := s, upd := id }
    else
      let r := nextPc u true true (u.launch.lines + 1) s u.ctx.dat.buf (u.ctx.dat.pc + 2)
      let head (pc : Nat) : Except Stop Eff := .ok { st := r.1, upd := fun x => x.modDat (fun d => { d with head := pc }) }
      match r.2 with
      | .found pc => head pc
      | .stop pc _ => head pc
      | .fault pc _ _ _ => head pc
      | .wait => .error (.hold r.1)) s

/-! ### Steps that end waits -/

/-- CHUTE_POP (R165, R168): the oldest entry becomes the current one, or ends the slice; after a restore, once its stores have been replayed (R413). -/
def execChutePop (pair slot : Nat) (s : State) : Out3 :=
  match dataResident s pair slot with
  | none => .next s
  | some u =>
    if u.ctx.dat.wait != .pop || u.ctx.ctl.replay then .next s
    else match u.ctx.chute with
      | [] => .next s
      | e :: r =>
        let w (i : Nat) : BitVec 32 := e.bits.extractLsb' (32 * i) 32
        let index := (e.bits.extractLsb' 0 16).toNat
        let start := u.launch.entries.getD index 0
        let u1 := u.modCtx (fun x => { x with chute := r, chHead := (e.seqno + 1) % 2 ^ 32 })
        if e.bits.getLsbD 31 then .next (s.putUnit ((u1.modCtx (Ctx.endData (s.queuedMatrix u))).stamped s.cycle))
        else
          let d := { u1.ctx.dat with
            eb := w 1, en := w 2, it := 0, ea := #v[w 3, w 4, w 5, w 6], xm := e.bits.getLsbD 24
            tail := (e.bits.extractLsb' 16 8).toNat, head := start, pc := start, mode := .transfer, wait := .none, chseq := e.seqno }
          .next (s.putUnit (((u1.modDat (fun _ => d)).setM 0 (activeMask d 0)).stamped s.cycle))

/-- A wait ends and the instruction issues again, from the start of its checks (R55). -/
def reissueD (s : State) (pair slot : Nat) (w : DatWait) : Out3 :=
  match dataResident s pair slot with
  | none => .next s
  | some u => if u.ctx.dat.wait == w then .next (s.putUnit (u.modDat (fun d => { d with wait := .none }))) else .next s

/-- No line that a waiting instruction reads has changed its state (R54). -/
def linesStand (s : State) (seen : List (UKey × Nat × Nat)) : Bool :=
  seen.all (fun l =>
    match s.findUnit l.1 with
    | some v => v.occupies.isSome && v.lineState l.2.1 == l.2.2
    | none => false)

/-- LINE_STATE_WAIT_END (R54, R55): a line read has changed its state, so the check is made again. -/
def execLineStateWaitEnd (pair slot : Nat) (s : State) : Out3 :=
  match dataResident s pair slot with
  | none => .next s
  | some u =>
    match u.ctx.dat.wait with
    | .line seen => if linesStand s seen then .next s else reissueD s pair slot (.line seen)
    | _ => .next s

/-- REGISTER_EMPTY_WAIT_END (R241). -/
def execRegisterEmptyWaitEnd (pair slot : Nat) (s : State) : Out3 := reissueD s pair slot .register

end Sys2Proof.Machine
end

