-- ==== Sys2Proof/Machine/Placement.lean ====
section
/-!
DEFINITION. Placement of units (13, 06): admission, the trigger tables, the choice of a pair, the start of a unit, pre-emption, the end of
a unit, and the changes of a vault's split (R49, R50, R62, R75, R82 to R86, R158 to R163, R177, R206 to R209, R391 to R394, R410, R439).
-/

namespace Sys2Proof.Machine

/-- Bytes of a range become zero; an unlisted byte reads as zero. -/
def State.zeroRange (s : State) (pa n : Nat) : State :=
  let out {α : Type} (c : Nat × α) : Bool := c.1 < pa || pa + n ≤ c.1
  { (s.clearPoison pa n) with mem := s.mem.filter out, keys := s.keys.filter out }

/-! ### Images of saved units (R402, R410, R411, R413, R414) -/

/-- Quadword 0 of the header: MAGIC, VALID, job id. -/
def headerQuad (job : Nat) (valid : Bool) : Nat := 0x43545831 + 2 ^ 32 * b2n valid + 2 ^ 52 * job

/-- The first byte of a unit's context slot (R402, R410). -/
def slotBase (s : State) (u : UnitSt) : Option Nat :=
  match s.job u.key.job, u.ctxslot with
  | some j, some (d, k) => some (j.ctxb.getD d 0 + k * 0x140000)
  | _, _ => none

/-- How an access to a context slot ends: done, a busy line, or a failing code with its cause (R414). -/
inductive ImgRes (α : Type) where
  | ok (s : State) (a : α)
  | busy
  | fail (code cause : Nat)

/-- Read bytes as key generation k reads them, line after line, filling for a class (R398, assumption 91). An image is plain (k = 0). -/
def readPart (s : State) (cls k pa n : Nat) : ImgRes (List Byte) :=
  if n == 0 then .ok s []
  else if !(backed s pa && backed s (pa + n - 1)) then .fail tcPageAttr 10
  else match cohReadN (some cls) (pieces n) s pa n with
    | none => .busy
    | some (t, _) => if rangePoisoned t pa n then .fail tcEccData 0 else .ok t (homeSeenN k (pieces n) t pa n)

/-- A save or a restore has failed (R414), or an image is refused (R413): the task faults, the unit is named. -/
def contextFault (s : State) (u : UnitSt) (code info : Nat) (resumable : Bool) : State :=
  let addr := match (s.job u.key.job).bind (fun j => j.window.find? (fun t => t.tidx == u.key.tidx)) with | some t => t.addr | none => 0
  raiseFault s u.key.job { tidx := u.key.tidx, trap := { taskTrapOf code addr info with time := s.cycle }, unit := some u.ident, resumable := resumable }

/-- Step 2: MAGIC, VALID, job id, tags and line states. -/
def imageOk (u : UnitSt) (quad0 tags lines : List Byte) : Bool :=
  leNat quad0 % 2 ^ 33 == headerQuad 0 true && leNat quad0 / 2 ^ 52 == u.key.job && tags.all (fun b => b.toNat % 16 != 14) &&
  lines.all (fun b => (range 0 4).all (fun k => b.toNat / 4 ^ k % 4 != 3))

/-- Steps 1 and 2 of R413: whether the image of a saved unit is one. -/
def checkImage (s : State) (u : UnitSt) : ImgRes Bool :=
  let cls := u.launch.cls
  match slotBase s u with
  | none => .busy
  | some base =>
    match readPart s cls 0 base 8 with
    | .busy => .busy
    | .fail code cause => .fail code cause
    | .ok s q =>
      match readPart s cls 0 (base + 0x580) (64 + u.launch.tiles) with
      | .busy => .busy
      | .fail code cause => .fail code cause
      | .ok s tags =>
        match readPart s cls 0 (base + 0x8000) (u.regionBytes / 512) with
        | .busy => .busy
        | .fail code cause => .fail code cause
        | .ok s lines => .ok s (imageOk u q tags lines)

/-! ### Admission (R206, R209, R391, R392, R439) -/

/-- Occupied resident slots of a cluster. -/
def clusterLoad (s : State) (cl : Nat) : Nat := ((clusterMembers cl).map (fun p => (s.occupants p).length)).sum

/-- The home die that the home rule of a launch gives a unit; none when the address has none; waits while a line is busy. -/
def homeOfUnit (s : State) (j : Job) (l : Launch) (harg : Nat) (hs : List Int) (x y z : Nat) : Option (Option Nat) :=
  let va := wrap64 ((l.args.getD harg 0 : Int) + hs.getD 0 0 * x + hs.getD 1 0 * y + hs.getD 2 0 * z)
  match walkDie s l.cls j.die j.id j.root va .load with
  | .wait _ _ | .retry _ => none
  | .trap _ _ _ => some none
  | .ok t pa _ _ => some (if backed t pa then homeDie t pa else none)

/-- The cluster that a rule chooses for a unit, and the spread pointer after it (R206, R391, R439). -/
def chooseCluster (s : State) (j : Job) (l : Launch) (rule pdie pclu harg : Nat) (hs : List Int) (x y z : Nat) : Option (Nat × Nat) :=
  match rule with
  | 1 =>
    (homeOfUnit s j l harg hs x y z).map (fun d =>
      let cs := match d with
        | some d => j.clusters.filter (fun c => c / 6 == d && clusterOn s c)
        | none => []
      match leastBy (fun a b => decide (clusterLoad s a < clusterLoad s b)) cs with
      | some c => (c, j.spread)
      | none => j.spreadTake s)
  | 2 => some (if clusterOn s (6 * pdie + pclu) then (6 * pdie + pclu, j.spread) else j.spreadTake s)
  | _ => some (j.spreadTake s)

/-- A unit as it is admitted: it waits for placement from now on (R392). -/
def newUnit (s : State) (j : Job) (t : Task) (l : Launch) (lin : Nat) (target : List Nat) : UnitSt :=
  let x := lin % l.gx
  let y := lin / l.gx % l.gy
  let z := lin / (l.gx * l.gy)
  { key := ⟨j.id, t.tidx, lin⟩, die := j.die, launch := l, ux := x, uy := y, uz := z, checks := checkIntervals t.operands x y z
    stamp := s.cycle, target := target, place := .waiting, ever := false, when := 0, base := 0, ctxslot := none, trap := none, ctx := {} }

/-- Admit the units of a launch from its next one on, while R209 lets them. Under the home rule one unit is handed to placement at a
time, so that the slots of those before it count as occupied (R206, and the worked example of 17). -/
def admitUnits (job tidx : Nat) : Nat → State → State
  | 0, s => s
  | n + 1, s =>
    match s.job job with
    | none => s
    | some j =>
      match j.window.find? (fun t => t.tidx == tidx) with
      | none => s
      | some t =>
        match t.kind with
        | .launch l rule pdie pclu harg hs _ none =>
          if !(t.issued && !t.completed && t.next < t.units && t.next < t.low + 4096) then s
          else if t.next < t.low || t.doneSet.contains t.next then
            admitUnits job tidx n (s.modTask job tidx (fun t => { t with next := t.next + 1 }))
          else
            let x := t.next % l.gx
            let y := t.next / l.gx % l.gy
            let z := t.next / (l.gx * l.gy)
            match chooseCluster s j l rule pdie pclu harg hs x y z with
            | none => s
            | some (c, spread) =>
              let s := { s with units := s.units ++ [newUnit s j t l t.next (clusterMembers c)] }
              let s := (s.modJob job (fun j => { j with spread := spread })).modTask job tidx (fun t => { t with next := t.next + 1 })
              if rule == 1 then s else admitUnits job tidx n s
        | _ => s

/-- A unit of the task has completed, or counts as completed (R160). -/
def Task.isDone (t : Task) (lin : Nat) : Bool := lin < t.low || t.doneSet.contains lin

/-! ### Triggers (R207, R208) -/

/-- The die into whose table the triggered unit of a producing unit goes: that of its first placement. -/
def producerDie (s : State) (k : UKey) : Option Nat :=
  match s.findUnit k with
  | some u => if u.ever then some u.firstDie else none
  | none => (s.lastRuns.find? (fun x => x.1 == k)).map (fun x => x.2.2)

/-- The producing unit is gone and was never placed. -/
def producerLost (s : State) (j : Job) (k : UKey) : Bool :=
  (s.findUnit k).isNone && (producerDie s k).isNone &&
  match j.window.find? (fun t => t.tidx == k.tidx) with
  | some t => t.isDone k.lin
  | none => true

/-- Triggered units of a task that may be entered into a table or admitted now, in linear order. -/
def triggerCandidates (s : State) (j : Job) (t : Task) (prod : Nat) : List Nat :=
  let mine (k : UKey) : Bool := k.job == j.id && k.tidx == prod && k.lin < t.units
  let ran := ((s.units.filter (fun u => mine u.key && u.ever)).map (fun u => u.key.lin)) ++
    ((s.lastRuns.filter (fun x => mine x.1)).map (fun x => x.1.lin))
  let lost := (range t.low (min t.units (t.low + 4096) - t.low)).filter (fun i => producerLost s j ⟨j.id, prod, i⟩)
  (sortBy (fun a b => decide (a < b)) (ran ++ lost).eraseDups).filter (fun i => !t.entered.contains i && !t.isDone i)

/-- Enter one triggered unit: into the table where there is room, or straight for placement. -/
def enterTrigger (s : State) (j : Job) (t : Task) (l : Launch) (prod ctr lin : Nat) : State :=
  let k : UKey := ⟨j.id, prod, lin⟩
  let seen (s : State) : State := s.modTask j.id t.tidx (fun t => { t with entered := lin :: t.entered })
  match producerDie s k with
  | some d =>
    if 256 ≤ (s.die d).triggers.length then s
    else seen (s.modDie d (fun x => { x with triggers := x.triggers ++ [⟨k, ctr, ⟨j.id, t.tidx, lin⟩⟩] }))
  | none => seen { s with units := s.units ++ [newUnit s j t l lin j.partition] }

/-- Every issued launch admits its units, triggered ones by their tables. -/
def admitTask (s : State) (job : Nat) (t : Task) : State :=
  match s.job job, t.kind with
  | some j, .launch l _ _ _ _ _ _ (some (prod, ctr)) =>
    if t.issued && !t.completed then (triggerCandidates s j t prod).foldl (fun s i => enterTrigger s j t l prod ctr i) s else s
  | some _, .launch _ _ _ _ _ _ _ none => admitUnits job t.tidx (t.low + 4096 - t.next) s
  | _, _ => s

def admitJob (s : State) (j : Job) : State := (j.window.filter j.lets).foldl (fun s t => admitTask s j.id t) s

/-- The triggered units of units that have been discarded before they were ever placed are admitted at that discard (R208). -/
def admitLost (s : State) (id : Nat) : State :=
  match s.job id with
  | none => s
  | some j => (j.window.filter (fun t => j.lets t && t.issued && !t.completed)).foldl (fun s t =>
      match t.kind with
      | .launch l _ _ _ _ _ _ (some (prod, ctr)) =>
        ((triggerCandidates s j t prod).filter (fun i => producerLost s j ⟨id, prod, i⟩)).foldl (fun s i => enterTrigger s j t l prod ctr i) s
      | _ => s) s

/-- The pairs on which a fired unit may be placed (R208): its pair, or those of its cluster that are on, or the partition. -/
def firedTarget (s : State) (j : Job) (p : Nat) : List Nat :=
  if pairOn s p then [p]
  else
    let near := (clusterMembers (dieOf p * 6 + p % Config.pairsPerDie / Config.clusterPairs)).filter (pairOn s)
    if near.isEmpty then j.partition else near

/-- TRIGGER_FIRE: entry k of a die's table fires when the counter of its placed producing unit is drained, or when that unit is gone. -/
def execTriggerFire (die k : Nat) (s : State) : Out3 :=
  match (s.die die).triggers[k]? with
  | none => .next s
  | some e =>
    match s.job e.unit.job with
    | none => .next s
    | some j =>
      match j.window.find? (fun t => t.tidx == e.unit.tidx) with
      | none => .next s
      | some t =>
        let at_ := match s.findUnit e.producer with
          | some u => (match u.place with | .placed p _ => if counterDrained s u e.ctr then some p else none | _ => none)
          | none => some (((s.lastRuns.find? (fun x => x.1 == e.producer)).map (fun x => x.2.1)).getD 0)
        match at_, t.kind with
        | some p, .launch l _ _ _ _ _ _ _ =>
          if !j.lets t then .next s
          else
            let s := s.modDie die (fun x => { x with triggers := dropIdx x.triggers k })
            .next { s with units := s.units ++ [newUnit s j t l e.unit.lin (firedTarget s j p)] }
        | _, _ => .next s

/-! ### CANCEL (R160, R208, R218, R219, R417) -/

/-- A whole task is cancelled: it and its units count as completed; a launch with work left leaves one record (R160, R417). -/
def cancelTask (s : State) (j : Job) (t : Task) : Option State :=
  ((if t.hasWork then cancelRecord s j t.tidx else some s).bind (fun s => discardTask s j.id t.tidx)).map (fun s =>
    s.modTask j.id t.tidx (fun t => { t with issued := true, completed := true, launchCtr := 0, ready := true, low := t.units, doneSet := [] }))

def cancelTasks (j : Job) : List Task → State → Option State
  | [], s => some s
  | t :: r, s => (cancelTask s j t).bind (cancelTasks j r)

/-- One unit is cancelled: it counts as completed. -/
def cancelUnit (s : State) (j : Job) (t : Task) (lin : Nat) : Option State :=
  let k : UKey := ⟨j.id, t.tidx, lin⟩
  ((cancelRecord s j t.tidx).bind (fun s => discardUnit s k)).map (fun s =>
    let s := (range 0 Config.dies).foldl (fun x d => x.modDie d (fun y => { y with triggers := y.triggers.filter (fun e => e.unit != k) })) s
    s.modTask j.id t.tidx (fun t => t.countUnit lin))

/-- What a CANCEL does to older tasks; none while a record cannot be written. -/
def cancelAct (s : State) (j : Job) (lvl back unit : Nat) : Option State :=
  match lvl with
  | 2 => cancelTasks j (j.window.filter (fun t => t.phaseNo == j.phaseNo && !t.completed)) s
  | 3 => cancelJob s j j.tidx
  | _ =>
    match j.window.find? (fun t => t.tidx + back == j.tidx && t.isLaunch && !t.completed) with
    | none => some s
    | some t =>
      if lvl == 1 then cancelTask s j t
      else if t.units ≤ unit || unit < t.low || t.doneSet.contains unit then some s
      else match t.kind with
        | .engine _ => cancelTask s j t
        | _ => cancelUnit s j t unit

/-- CANCEL. -/
def execCancel (r : Rec) (s : State) : Out3 :=
  onSeq s (fun j =>
    let x := r.x32.toNat
    match cancelAct s j (x % 4) (bits x 8 2) r.q2.toNat with
    | none => s
    | some t => admitLost (enterTask t j.id j.map j.pools (j.newTask 0x2A r .instant).instantly) j.id)

/-! ### Fit (R162, R393, R410) -/

/-- The lowest offset at which a region fits beside others. -/
def regionOffset (others : List UnitSt) (size : Nat) : Option Nat :=
  ((range 0 16).map (fun i => i * 65536)).find? (fun o =>
    o + size ≤ 0x100000 && others.all (fun v => v.base + v.regionBytes ≤ o || o + size ≤ v.base))

/-- The lowest free context slot of a job's area on a die (R410). -/
def freeCtx (s : State) (job die : Nat) : Option (Nat × Nat) :=
  (s.job job).bind (fun j =>
    ((range 0 (min (j.ctxn.getD die 0) (j.slotsUsed.length + 1))).find? (fun k => !j.slotsUsed.contains (die, k))).map (fun k => (die, k)))

/-- A unit fits on a pair beside some units: the offset of its region. -/
def fitsBeside (s : State) (u : UnitSt) (p : Nat) (others : List UnitSt) : Option Nat :=
  let sum (f : Launch → Nat) : Nat := (others.map (fun v => f v.launch)).sum + f u.launch
  if others.length < 4 && sum Launch.counters ≤ 256 && sum Launch.tiles ≤ 8 && sum Launch.scales ≤ 8 &&
      (u.ctxslot.isSome || (freeCtx s u.key.job (dieOf p)).isSome) then regionOffset others u.regionBytes
  else none

/-- The pairs of a unit's target set that are on (R439). -/
def targetsOn (s : State) (u : UnitSt) : List Nat := u.target.filter (pairOn s)

/-- The unit awaits placement: its job lets its task run and no trap of it is unreported. -/
def awaitsPlace (s : State) (u : UnitSt) : Bool :=
  (match u.place with | .waiting | .saved => true | _ => false) && u.trap.isNone &&
  match s.job u.key.job with
  | none => false
  | some j => match j.window.find? (fun t => t.tidx == u.key.tidx) with
    | some t => j.lets t && u.key.lin < t.low + 4096
    | none => false

/-- Class, stamp, die of the sequencer, job, linear index: the order in which units are considered (R392, R393). -/
def placeOrder (a b : UnitSt) : Bool :=
  let key (u : UnitSt) : List Nat := [u.launch.cls, u.stamp, u.die, u.key.job, u.key.lin]
  let rec lt : List Nat → List Nat → Bool
    | x :: xs, y :: ys => decide (x < y) || (x == y && lt xs ys)
    | _, _ => false
  lt (key a) (key b)

/-- Another unit, considered before this one, has had victims leave a pair, which stays its own until it is placed there (R394). -/
def claimedBy (s : State) (u : UnitSt) (p : Nat) : Bool :=
  s.units.any (fun v => v.claim.any (fun c => c.1 == p) && v.key != u.key && placeOrder v u && awaitsPlace s v)

/-- Residents that leave a pair anyway: frozen, their save to come. -/
def UnitSt.leaving (u : UnitSt) : Bool := match u.place with | .trapped _ _ | .saving _ _ => true | _ => false

/-- The save of a victim on a pair has still to complete (R394). -/
def victimsLeave (s : State) (p : Nat) (ks : List UKey) : Bool := (s.occupants p).any (fun v => v.leaving && ks.contains v.key)

/-- The pair that a placement takes: of those that fit the one with the most free slots, the lowest id on a tie. A unit of class 0 for which
victims leave a pair takes that one, once they have all been saved. -/
def bestPair (s : State) (u : UnitSt) : Option (Nat × Nat) :=
  let mine (p : Nat) : Bool := (match u.claim with | some (q, ks) => q == p && !victimsLeave s p ks | none => true) && !claimedBy s u p
  let fits := (sortBy (fun a b => decide (a < b)) ((targetsOn s u).filter mine)).filterMap (fun p => (fitsBeside s u p (s.occupants p)).map (fun o => (p, o)))
  leastBy (fun a b => decide ((s.occupants a.1).length < (s.occupants b.1).length)) fits

/-- The lowest free slot of a pair. -/
def freeSlot (s : State) (p : Nat) : Nat :=
  ((range 0 4).find? (fun k => (s.occupants p).all (fun v => v.slot != k))).getD 0

/-! ### The start of a unit (R49, R50, R62, R75, R111, R156, R163) -/

/-- The context of a unit at its start. -/
def startCtx (l : Launch) (now : Nat) : Ctx :=
  { ctl := { pc := l.centry, mode := .transfer }
    counters := List.replicate l.counters {}
    scaleA := List.replicate (512 * l.scales) 0
    scaleB := List.replicate (512 * l.scales) 0
    lastDone := now }

/-- The unit takes a context slot at its first placement (R410). -/
def takeCtx (s : State) (u : UnitSt) (p : Nat) : State × Option (Nat × Nat) :=
  match u.ctxslot with
  | some c => (s, some c)
  | none =>
    match freeCtx s u.key.job (dieOf p) with
    | some c => (s.modJob u.key.job (fun j => { j with slotsUsed := j.slotsUsed ++ [c] }), some c)
    | none => (s, none)

/-- A unit starts on a pair; none while the scope of its task cannot be found. -/
def startUnit (s : State) (u : UnitSt) (p base : Nat) : Option State :=
  match s.job u.key.job with
  | none => none
  | some j =>
    match j.window.find? (fun t => t.tidx == u.key.tidx) with
    | none => none
    | some t =>
      (taskScope s j t.operands).map (fun sc =>
        let k := freeSlot s p
        let (s, c) := takeCtx s u p
        let v := { u with place := .placed p k, claim := none, ever := true, firstDie := dieOf p, lastPair := p, lastSlot := k, when := s.fresh
                          base := base, ctxslot := c, ctx := startCtx u.launch s.cycle }
        let s := ((s.bump).putUnit v).zeroRange (v.pantryPa 0) v.regionBytes
        let s := if t.pairsSeen.contains p then s else s.modPair p (fun x => { x with cc := x.cc.filter (fun l => l.job != j.id) })
        let s := s.modTask j.id t.tidx (fun t => { t with
          pairsSeen := if t.pairsSeen.contains p then t.pairsSeen else p :: t.pairsSeen, high := max t.high (u.key.lin + 1) })
        acquireFx s u.key p sc false)

/-- A saved unit's resources are taken; its restore follows (R413). It is the youngest resident of its pair (R177). -/
def reserveUnit (s : State) (u : UnitSt) (p base : Nat) : State :=
  s.bump.putUnit { u with place := .restoring p (freeSlot s p), claim := none, base := base, when := s.fresh }

/-- Place a unit on a pair; none while something that it needs is busy, as the counters of its image (R413, step 1). Its image is checked
before it takes anything (step 2). -/
def placeUnit (s : State) (u : UnitSt) (p base : Nat) : Option State :=
  match u.place with
  | .waiting => startUnit s u p base
  | .saved =>
    if !u.ctx.ctl.unacked.toList.all (fun n => n == 0) then none
    else match checkImage s u with
      | .busy => none
      | .fail code cause => some (contextFault s u code (2 ^ 31 + cause) false)
      | .ok t false => some (contextFault t u tcQueueState 0 true)
      | .ok t true => some (reserveUnit t u p base)
  | .placed _ _ | .trapped _ _ | .saving _ _ | .restoring _ _ => none

/-! ### Pre-emption for class 0 (R394) -/

/-- Victims of a pair in their order: class 3 first, then the youngest. A resident that is frozen already, or whose restore is to come, is one
too. -/
def victimList (s : State) (p : Nat) : List UnitSt :=
  sortBy (fun a b => decide (b.launch.cls < a.launch.cls) || (a.launch.cls == b.launch.cls && decide (b.when < a.when)))
    ((s.occupants p).filter (fun v => v.launch.cls != 0))

/-- Take victims one at a time until the unit fits; none when it never does. -/
def takeVictims (s : State) (u : UnitSt) (p : Nat) : List UnitSt → List UnitSt → Option (List UnitSt)
  | others, [] => if (fitsBeside s u p others).isSome then some [] else none
  | others, v :: r =>
    if (fitsBeside s u p others).isSome then some []
    else (takeVictims s u p (others.filter (fun x => x.key != v.key)) r).map (fun l => v :: l)

/-- The pair with the smallest cost and its victims; one that no number of them frees costs infinitely much. -/
def chooseVictims (s : State) (u : UnitSt) : Option (Nat × List UnitSt) :=
  let costs := (sortBy (fun a b => decide (a < b)) ((targetsOn s u).filter (fun p => !claimedBy s u p))).filterMap (fun p =>
    (takeVictims s u p (s.occupants p) (victimList s p)).map (fun l => (p, l)))
  leastBy (fun a b => decide (a.2.length < b.2.length)) costs

/-- A victim freezes; one whose restore is to come stays in memory. -/
def evict (s : State) (v : UnitSt) : State :=
  match v.place with
  | .restoring p _ => (s.putUnit { v with place := .saved }).modPair p (fun x => { x with vgrab := x.vgrab.filter (fun y => y != v.key) })
  | .waiting | .placed _ _ | .trapped _ _ | .saving _ _ | .saved => s.freeze v.key

/-- CLASS0_PREEMPTION: the victims freeze, and the pair is the unit's own (R394). A unit whose pair has gone out of placement, or that does not
fit there once its victims have been saved, chooses anew. -/
def preempt (s : State) (u : UnitSt) : State :=
  let holds := match u.claim with
    | some (p, ks) => (targetsOn s u).contains p && victimsLeave s p ks
    | none => false
  if holds then s
  else match chooseVictims s u with
    | none => s.putUnit { u with claim := none }
    | some (p, vs) => (vs.foldl evict s).putUnit { u with claim := some (p, vs.map UnitSt.key) }

/-! ### UNIT_PLACEMENT (R392, R393) -/

/-- One pass over the units that await placement; left holds the older ones that stay unplaced. A unit whose task has come to fault in the pass
awaits it no more. -/
def placePass : List UnitSt → List UnitSt → State → State
  | [], _, s => s
  | u :: r, left, s =>
    let blocked := left.any (fun v => v.launch.cls == u.launch.cls && (targetsOn s v).any (fun p => u.target.contains p))
    if !awaitsPlace s u then placePass r left s
    else if blocked then placePass r (u :: left) s
    else match (bestPair s u).bind (fun x => placeUnit s u x.1 x.2) with
      | some t => placePass r left t
      | none => placePass r (u :: left) (if u.launch.cls == 0 && (bestPair s u).isNone then preempt s u else s)

/-- UNIT_PLACEMENT. -/
def execUnitPlacement (s : State) : Out3 :=
  let s := s.jobs.foldl admitJob s
  .next (placePass (sortBy placeOrder (s.units.filter (awaitsPlace s))) [] s)

/-! ### VGRAB_PREEMPTION (R177) -/

/-- A control slice has ended or is blocked in a wait of R177. -/
def ctlWaits (s : State) (u : UnitSt) : Bool :=
  u.ctx.ctl.done || match u.ctx.ctl.wait with
  | .chute _ _ | .exiting 1 => chuteFull u.ctx
  | .dwpop _ _ => u.ctx.dw.isEmpty && !u.ctx.dat.done
  | .waitc k _ => !(u.counter k).f && !counterDrained s u k
  | .qfence _ _ ids _ => s.cmds.any (fun c => ids.contains c.id && c.inFlight)
  | .waitv _ _ _ _ _ _ _ _ _ _ _ | .exiting _ => true
  | .none | .walk _ | .access _ | .release | .storeBuf _ | .yielding _ | .queue _ | .subs _ _ _ _ _ _ _ _ | .unsub _ => false

/-- A data slice has ended or is blocked in a wait of R177; a line wait is one while a line of the instruction is empty. -/
def datWaits (s : State) (u : UnitSt) : Bool :=
  u.ctx.dat.done || (!u.ctx.dat.stopped && match u.ctx.dat.wait with
  | .pop => u.ctx.chute.isEmpty
  | .dwpush _ _ => 64 ≤ u.ctx.dw.length && !u.ctx.ctl.done
  | .line seen => linesStand s seen
  | .vgrab => true
  | .none | .walk _ | .register | .matrixQueue | .matrixOrder | .const _ => false)

/-- A resident is waiting (R177). -/
def unitWaits (s : State) (u : UnitSt) : Bool := ctlWaits s u && datWaits s u

/-- VGRAB_PREEMPTION. A unit whose restore waits for a block (R176) is not counted among the residents that wait in VGRAB, so that such a wait
alone pre-empts nobody: the model's choice, since R177 names VGRAB only (assumption 115). -/
def execVgrabPreemption (pair : Nat) (s : State) : Out3 :=
  let rs := (s.occupants pair).filter (fun u => match u.place with | .restoring _ _ => false | _ => true)
  if rs.all (fun u => u.running && unitWaits s u) && rs.any (fun u => u.ctx.dat.wait == .vgrab && !u.ctx.dat.done) && 2 ≤ extUsed s pair then
    match leastBy (fun a b => decide (b.when < a.when)) (rs.filter (fun u => u.ctx.ext)) with
    | some u => .next (s.freeze u.key)
    | none => .next s
  else .next s

/-! ### UNIT_COMPLETE (R72, R111, R158, R159) -/

/-- UNIT_COMPLETE: both slices have ended and no command of the unit is in flight: an implicit release, its subscriptions end, its
resources are free, the launch counter falls. -/
def execUnitComplete (job tidx lin : Nat) (s : State) : Out3 :=
  let k : UKey := ⟨job, tidx, lin⟩
  match s.findUnit k with
  | none => .next s
  | some u =>
    if !(u.running && u.ctx.ctl.done && u.ctx.dat.done) || (s.unitCmds k).any Cmd.inFlight || s.queuedMatrix u then .next s
    else
      let s := endSubs (releaseFx s k u.pair 5) k true
      .next ((releaseUnit s ((s.findUnit k).getD u)).modTask job tidx (fun t => t.countUnit lin))

/-! ### Vault splits (R82 to R86) -/

/-- First byte of a vault's attic store at an offset of n MiB. -/
def atticAt (die vault n : Nat) : Nat := 0x1000000000000 + die * 0x40000000 + vault * 0x1000000 + n * 0x100000

/-- Lines of a physical range that something of the machine holds or asks for. -/
def heldLines (s : State) (lo hi : Nat) : List Nat :=
  let mine (l : Nat) : Bool := lo ≤ l && l < hi
  ((s.pairs.flatMap (fun p => p.l1.map L1Line.line)) ++ s.dies.toList.flatMap (fun x => x.sf.map SfEntry.line ++ x.dir.map DirEntry.line ++
    x.txns.map (fun t => t.req.line) ++ x.wbw.map WbWait.line) ++ s.toHome.map (fun m => m.2.2.line) ++ s.toDie.map (fun m => m.2.2.line)).filter mine

/-- Take every copy of a range's lines away without writing it back (R83). -/
def purgeLines (s : State) (lo hi : Nat) : State :=
  let out (l : Nat) : Bool := !(lo ≤ l && l < hi)
  let s := { s with pairs := s.pairs.map (fun p => { p with l1 := p.l1.filter (fun l => out l.line) }) }
  (range 0 Config.dies).foldl (fun t d => t.modDie d (fun x => { x with sf := x.sf.filter (fun e => out e.line), dir := x.dir.filter (fun e => out e.line) })) s

def State.modVault (s : State) (die v : Nat) (f : Vault → Vault) : State :=
  s.modDie die (fun x => { x with vaults := x.vaults.setIfInBounds v (f (x.vault v)) })

/-- A sector under way has still to write to a vault's store: the change waits for it (R366, assumption 89). -/
def sectorIn (s : State) (die vault : Nat) : Bool :=
  s.cmds.any (fun (c : Cmd) => c.begun && !c.stale && c.landings.any (fun l => match place52 l.pa with
    | .attic d v _ => d == die && v == vault
    | _ => false))

/-- VAULT_SPLIT_START: the vault's oldest request starts once no change runs. -/
def execVaultSplitStart (die vault : Nat) (s : State) : Out3 :=
  let v := (s.die die).vault vault
  match findIdxVal (fun (r : SplitReq) => r.vault == vault) (s.die die).vwait 0 with
  | none => .next s
  | some (i, r) =>
    if v.busyTill.isSome || sectorIn s die vault then .next s
    else
      let taken := s.modDie die (fun x => { x with vwait := dropIdx x.vwait i })
      let lo := atticAt die vault (min v.store r.size)
      let n := (max v.store r.size - min v.store r.size) * 0x100000
      if r.size == v.store then .next taken
      else if v.store < r.size then
        let moved := ((s.die die).vlines.filter (fun x => x.vault == vault && 16 - r.size ≤ x.way)).map VLine.line
        let t := (moved.foldl (fun t l => dropVline t die l) taken).zeroRange lo n
        .next (t.modVault die vault (fun v => { v with
          target := r.size, origin := v.store, busyTill := some (s.cycle + 16384 * (r.size - v.store) + 600), forTask := some (r.job, r.tidx) }))
      else if (heldLines s (lineOf lo) (lineOf (lo + n))).any (lineBusy s) then .next s
      else .next ((purgeLines taken (lineOf lo) (lineOf (lo + n))).modVault die vault (fun v => { v with
          store := r.size, target := r.size, origin := v.store, busyTill := some (s.cycle + 600), forTask := some (r.job, r.tidx) }))

/-- VAULT_SPLIT_END: the duration has passed; STORE takes its value. -/
def execVaultSplitEnd (die vault : Nat) (s : State) : Out3 :=
  match ((s.die die).vault vault).busyTill with
  | none => .next s
  | some t =>
    if s.cycle < t then .next s
    else .next (s.modVault die vault (fun v => { v with store := v.target, origin := v.target, busyTill := none, forTask := none }))

end Sys2Proof.Machine
end

