-- ==== Sys2Proof/Machine/Context.lean ====
section
/-!
DEFINITION. Context save and restore, and the unit watchdog (R64, R73, R116, R149, R176, R183, R360, R369, R370, R409 to R416).
-/

namespace Sys2Proof.Machine

/-! ### The context image (R411) -/

/-- The little-endian bytes of registers of some width. -/
def regBytes (n : Nat) (l : List Nat) : List Byte := l.flatMap (leBytes n)

/-- Bytes of a part whose layout is private. -/
def freeBytes (number off n : Nat) : List Byte := (range off n).map (Config.imageByte number)

/-- The tag byte of a register or tile: tag and empty bit. -/
def tagByte (tag : BitVec 4) (empty : Bool) : Byte := BitVec.ofNat 8 (tag.toNat + 16 * b2n empty)

/-- Two bits per pantry line, four lines a byte. -/
def lineBytes (x : Ctx) (bytes : Nat) : List Byte :=
  (range 0 ((bytes / 128 + 3) / 4)).map (fun i => BitVec.ofNat 8 ((range 0 4).foldl (fun a k => a + 4 ^ k * cellGet 0 x.lines (4 * i + k)) 0))

/-- The parts of an image after its header: offset and bytes. Reserved bytes are zero. -/
def imageParts (number : Nat) (u : UnitSt) (rcd pantry : List Byte) : List (Nat × List Byte) :=
  let x := u.ctx
  let nv := if u.launch.regs64 then 64 else 32
  let words (l : List (BitVec 20)) : List Byte := regBytes 4 (l.map BitVec.toNat)
  [(0x40, rcd), (0x80, freeBytes number 0x80 384),
   (0x200, regBytes 8 (x.ctl.c.toList.map BitVec.toNat)), (0x400, regBytes 8 (x.dat.s.toList.map BitVec.toNat)),
   (0x500, regBytes 16 (x.dat.m.toList.map BitVec.toNat)),
   (0x580, x.dat.v.toList.map (fun v => tagByte v.tag v.empty) ++ x.tiles.toList.map (fun t => tagByte t.tag t.empty) ++ List.replicate 56 0),
   (0x600, freeBytes number 0x600 1024), (0xA00, freeBytes number 0xA00 32 ++ List.replicate 0x5E0 0),
   (0x1000, freeBytes number 0x1000 0x1000), (0x2000, freeBytes number 0x2000 0x3000), (0x5000, freeBytes number 0x5000 0x1000),
   (0x6000, freeBytes number 0x6000 0x2000), (0x8000, lineBytes x u.regionBytes ++ List.replicate (4096 - (lineBytes x u.regionBytes).length) 0),
   (0x9000, freeBytes number 0x9000 0x6000), (0xF000, List.replicate 4096 0),
   (0x10000, (x.dat.v.toList.take nv).flatMap (fun v => leBytes 512 v.val.toNat)),
   (0x18000, words x.scaleA), (0x1C000, words x.scaleB),
   (0x20000, (x.tiles.toList.take u.launch.tiles).flatMap (fun t => leBytes 16384 t.val.toNat)),
   (0x40000, pantry)]

/-- Write part after part. -/
def writeParts (base : Nat) : List (Nat × List Byte) → State → ImgRes Unit
  | [], s => .ok s ()
  | (off, bs) :: r, s =>
    if bs.isEmpty then writeParts base r s
    else if !(backed s (base + off) && backed s (base + off + bs.length - 1)) then .fail tcPageAttr 10
    else match cohWriteN (pieces bs.length) s (base + off) (sealList 0 (base + off) bs) with
      | none => .busy
      | some (t, true) => writeParts base r t
      | some (_, false) => .fail tcEccData 0

/-- The runs of an image that a restore reads beside quadword 0, the tags, the line states and the pantry: the header block, what the unit
declared of registers, scale entries and tiles (R411, R413, step 4). -/
def imageRuns (u : UnitSt) : List (Nat × Nat) :=
  [(0, 0x10000), (0x10000, 512 * (if u.launch.regs64 then 64 else 32)), (0x18000, 4 * u.ctx.scaleA.length),
   (0x1C000, 4 * u.ctx.scaleB.length), (0x20000, 16384 * u.launch.tiles)]

/-- Read one run after another. -/
def readParts (s : State) (cls k : Nat) : List (Nat × Nat) → ImgRes (List Byte)
  | [] => .ok s []
  | (pa, n) :: r =>
    match readPart s cls k pa n with
    | .busy => .busy
    | .fail code cause => .fail code cause
    | .ok t bs =>
      match readParts t cls k r with
      | .busy => .busy
      | .fail code cause => .fail code cause
      | .ok x cs => .ok x (bs ++ cs)

/-! ### The save (R149, R370, R412) -/

/-- An atomic of the unit is under way on a link; it completes before the save. One that only waits for the bridge lock has not begun. -/
def amoOut (s : State) (k : UKey) : Bool :=
  let mine (a : Access) : Bool := a.unit == k && (match a.use with | .amo _ _ => true | _ => false)
  let held (p : Port) : Bool := match p.lock with | some a => mine a | none => false
  held s.p0 || held s.p1 || s.outstanding.any (fun o => match o.what with
    | .access a | .emulRead a | .emulProbe a _ _ => mine a
    | _ => false)

/-- What a control slice's wait becomes in the image: the remaining time of a WAITV; every other instruction issues again (R183). -/
def savedWait (now : Nat) : CtlWait → CtlWait
  | .waitv va pa size acq scope cmp rd last limit _ _ => .waitv va pa size acq scope cmp rd last (limit.map (fun t => t - now)) true none
  | _ => .none

/-- How a slice finds its instruction after a resume: as at a transfer (R233), also where a trap of its own walk stopped it. A slice that has
completed its instruction and has not walked on yet, or that a TRAP has stopped (R292), walks on (assumption 98). -/
def savedMode (m : PcMode) : PcMode := if m == .here then .transfer else m

/-- A freeze ends the wait of a YIELD, which does not resume: it has completed (R293, assumption 99). -/
def Ctl.endYield (c : Ctl) : Ctl := match c.wait with | .yielding _ => c.advance 1 | _ => c

/-- Both slices as the image holds them. -/
def savedSlices (now : Nat) (x : Ctx) : Ctx :=
  let c := x.ctl.endYield
  { x with
    codeErr := none
    ctl := { c with wait := savedWait now c.wait, mode := savedMode c.mode, buf := none, rcd := none, replay := false, ahead := [] }
    dat := { x.dat with wait := if x.dat.wait == .pop then .pop else .none, mode := savedMode x.dat.mode, buf := none, lanes := [] } }

/-- A register, tile or scale entry of the unit is poisoned (R476). -/
def Ctx.regsPoisoned (x : Ctx) : Bool :=
  !x.cpoison.isEmpty || !x.spoison.isEmpty || !x.mpoison.isEmpty || !x.scalePoison.isEmpty || x.dat.v.toList.any (fun v => v.poison != 0) ||
  x.tiles.toList.any (fun t => !t.poison.isEmpty)

/-- Pantry lines with an uncorrectable error are saved as poisoned, with zero bytes (R414). -/
def pantryOf (s : State) (u : UnitSt) : Ctx × List Byte :=
  (range 0 (u.regionBytes / 128)).foldl (fun r l =>
    let pa := u.pantryPa (128 * l)
    if s.poisoned pa 128 then ({ r.1 with lines := cellPut 0 r.1.lines l 2 }, r.2 ++ List.replicate 128 0)
    else (r.1, r.2 ++ (s.bytesAt pa 128).map TByte.v)) (u.ctx, [])

/-- The record of the freeze that stands in the image, or zeros. -/
def freezeRecord (s : State) (u : UnitSt) : List Byte :=
  match s.job u.key.job, u.trap with
  | some j, some t => recordBytes j.id (j.lseqOf u.key.tidx) { tidx := u.key.tidx, trap := t, unit := some u.ident }
  | _, _ => List.replicate 64 0

/-- The unit is in memory and holds nothing of the pair any more (R412, step 5). -/
def leavePair (s : State) (u : UnitSt) (x : Ctx) : State :=
  let k := u.key
  let mine := (s.pairOf u.pair).mq.filter (fun c => c.unit == k)
  let target := match s.job k.job with | some j => j.partition | none => u.target
  let s := s.modPair u.pair (fun p => { p with mq := p.mq.filter (fun c => c.unit != k), vgrab := p.vgrab.filter (fun y => y != k) })
  s.putUnit { u with place := .saved, target := target, ctx := { savedSlices s.cycle x with mq := mine } }

/-- The save once nothing of the unit is under way; none while a line is busy. -/
def saveUnit (s : State) (u : UnitSt) : Option State :=
  let k := u.key
  let subs := (s.subs.filter (fun b => b.unit == k)).map Subscription.id
  let s := mergeBack s u.pair k.job false
  let s := { s with subs := mapIf (fun b => b.unit == k) (fun b => { b with active := false }) s.subs
                    updates := s.updates.filter (fun x => !subs.contains x.sub) }
  match slotBase s u, s.findUnit k with
  | some base, some u =>
    let (x, pantry) := pantryOf s u
    let failed (code cause : Nat) : State := contextFault (leavePair s u x) u code (2 ^ 31 + cause) false
    if x.regsPoisoned then some (failed tcEccData 0)
    else
      let u := { u with ctx := x }
      let hd (v : Bool) : List Byte := leBytes 8 (headerQuad k.job v) ++ freeBytes s.fresh 8 56
      match writeParts base ((0, hd false) :: imageParts s.fresh u (freezeRecord s u) pantry ++ [(0, hd true)]) s with
      | .busy => none
      | .fail code cause => some (failed code cause)
      | .ok t _ => some (leavePair t.bump u x)
  | _, _ => none

/-- CONTEXT_SAVE of the frozen unit of a slot: its commands stop at their boundaries, then the image is written. -/
def execContextSave (pair slot : Nat) (s : State) : Out3 :=
  match s.units.find? (fun u => u.place == .trapped pair slot || u.place == .saving pair slot) with
  | none => .next s
  | some u =>
    let t := (stopForSave s u.key).abandonMatrix u.key pair
    if !cmdsDrained t u.key || amoOut t u.key then .next t
    else .next ((saveUnit t u).getD t)

/-! ### The restore (R413) -/

/-- The extended block that the unit held is free for it, in the order of the VGRAB waiters (R176). -/
def blockFree (s : State) (u : UnitSt) (pair : Nat) : Bool :=
  !u.ctx.ext || (extUsed s pair < 2 && match (s.pairOf pair).vgrab with | [] => true | k :: _ => k == u.key)

/-- Step 5: a fresh image of each subscription whose SUBS has completed, as the key generation of its job reads the home, at the sequence number there
(R73). -/
def refreshSubs (u : UnitSt) (key : Nat) : List Subscription → State → ImgRes Unit
  | [], s => .ok s ()
  | b :: r, s =>
    let open_ := s.cmds.any (fun c => c.unit == u.key && !c.task && (match c.kind with | .subs id _ => id == b.id | _ => false))
    if open_ then refreshSubs u key r s
    else match recallSpans b.spans s with
      | none => .busy
      | some t =>
        match readParts t u.launch.cls key b.spans with
        | .busy => .busy
        | .fail code cause => .fail code cause
        | .ok t bs =>
          let n := match (t.die b.die).ranges.find? (fun x => x.spans == b.spans) with | some x => x.seqno | none => 0
          let pa := u.pantryPa b.off
          let t := (t.clearPoison pa b.size).setBytes pa (sealList 0 pa bs)
          refreshSubs u key r { t with subs := mapIf (fun x => x.id == b.id) (fun x => { x with last := n }) t.subs }

/-- A saved store to the region goes to the region's new place; one to a mirror stays with its home (R70). -/
def movedStore (u : UnitSt) (e : StoreEntry) : StoreEntry :=
  if inWindow e.acc.va && (match place52 e.acc.pa with | .pantry _ _ => true | _ => false) then { e with acc := { e.acc with pa := u.pantryPa (e.acc.va - localWindow), pair := u.pair } }
  else { e with acc := { e.acc with pair := u.pair } }

/-- A control slice's wait on the new pair, from now on. -/
def restoredWait (u : UnitSt) (now : Nat) : CtlWait → CtlWait
  | .waitv va pa size acq scope cmp rd _ limit _ _ =>
    .waitv va (if inWindow va then u.pantryPa (va - localWindow) else pa) size acq scope cmp rd now (limit.map (fun t => now + t)) true none
  | w => w

/-- Steps 4 to 8 of R413 with the image's pantry bytes; none while a line is busy. -/
def resumeUnit (s : State) (u : UnitSt) (pair slot : Nat) (pantry : List Byte) : ImgRes Unit :=
  let k := u.key
  let d := dieOf pair
  let key := s.keyGenOf u
  let pa := u.pantryPa 0
  let s := (s.zeroRange pa u.regionBytes).setBytes pa (sealList 0 pa pantry)
  let s := { s with subs := mapIf (fun b => b.unit == k) (fun b => { b with active := true }) s.subs }
  match refreshSubs u key (s.subs.filter (fun b => b.unit == k)) s with
  | .busy => .busy
  | .fail code cause => .fail code cause
  | .ok s _ =>
    let e := (s.die d).epoch + 1
    let s := acquireSet s k pair true (true, true, true)
    let fix (c : Ctl) : Ctl := { c with hostFloor := e, peerFloor := e, wait := restoredWait u s.cycle c.wait, replay := !c.sb.isEmpty, sb := c.sb.map (movedStore u) }
    let ms := u.ctx.mq.zip (range s.fresh u.ctx.mq.length)
    let v := { u with place := .placed pair slot, lastPair := pair, lastSlot := slot, when := s.fresh + ms.length, resumed := false
                      ctx := { u.ctx with ctl := fix u.ctx.ctl, mq := [], lastDone := s.cycle, extSince := s.cycle } }
    let s := { (s.putUnit v) with fresh := s.fresh + ms.length + 1 }
    let s := s.modPair pair (fun p => { p with mq := p.mq ++ ms.map (fun x => { x.1 with number := x.2 }), vgrab := p.vgrab.filter (fun y => y != k) })
    .ok (reissue s v u.resumed) ()

/-- CONTEXT_RESTORE of the unit that waits for its restore in a slot; what it reads of the image is judged as at the placement. -/
def execContextRestore (pair slot : Nat) (s : State) : Out3 :=
  match s.units.find? (fun u => u.place == .restoring pair slot) with
  | none => .next s
  | some u =>
    match slotBase s u with
    | none => .next s
    | some base =>
      let failed (code info : Nat) (resumable : Bool) : State :=
        let s := s.modPair pair (fun p => { p with vgrab := p.vgrab.filter (fun y => y != u.key) })
        contextFault (s.putUnit { u with place := .saved }) u code info resumable
      if !u.ctx.ctl.unacked.toList.all (fun n => n == 0) then .next s
      else match checkImage s u with
        | .busy => .next s
        | .fail code cause => .next (failed code (2 ^ 31 + cause) false)
        | .ok _ false => .next (failed tcQueueState 0 true)
        | .ok s1 true =>
          if !blockFree s u pair then
            .next (s.modPair pair (fun p => { p with vgrab := if p.vgrab.contains u.key then p.vgrab else p.vgrab ++ [u.key] }))
          else match readParts s1 u.launch.cls 0 ((imageRuns u).map (fun r => (base + r.1, r.2))) with
            | .busy => .next s
            | .fail code cause => .next (failed code (2 ^ 31 + cause) false)
            | .ok s2 _ =>
              match readPart s2 u.launch.cls 0 (base + 0x40000) u.regionBytes with
              | .busy => .next s
              | .fail code cause => .next (failed code (2 ^ 31 + cause) false)
              | .ok t bs =>
                match resumeUnit t u pair slot bs with
                | .ok t _ => .next t
                | .busy => .next s
                | .fail code cause => .next (failed code (2 ^ 31 + cause) false)

/-! ### UNIT_WATCHDOG (R409) -/

/-- INFO of a waiting control slice: the major of its instruction, bit 8 for a CX instruction. -/
def ctlMajor : CtlWait → Nat
  | .chute e _ => 0x100 + 0x18 + b2n (e.getLsbD 24)
  | .dwpop _ _ => 0x11A
  | .qfence _ _ _ _ => 0x11B
  | .waitc _ _ => 0x127
  | .waitv _ _ _ _ _ _ _ _ _ _ _ => 0x10C
  | _ => 0x34

/-- INFO of a waiting data slice: 0 for a pop, else the major of its instruction. -/
def datMajor (d : Dat) : Nat :=
  if d.wait == .pop then 0
  else match d.buf with
    | some (_, w) => (wordAt w (d.pc % 8)).1 / 2 ^ 56
    | none => 0

/-- UNIT_WATCHDOG. -/
def execUnitWatchdog (pair slot : Nat) (s : State) : Out3 :=
  match s.resident pair slot with
  | none => .next s
  | some u =>
    match s.job u.key.job with
    | none => .next s
    | some j =>
      if j.wdog == 0 || s.cycle < u.ctx.lastDone + usTicks j.wdog || !unitWaits s u || (u.ctx.ctl.done && u.ctx.dat.done) then .next s
      else if !u.ctx.dat.done then .next (s.takeTrap u (datTrap u false tcWatchdog 0 (datMajor u.ctx.dat)))
      else .next (s.trapC u tcWatchdog 0 (ctlMajor u.ctx.ctl.wait))

end Sys2Proof.Machine
end

