-- ==== Sys2Proof/Machine/Matrix.lean ====
section
/-!
DEFINITION. The matrix unit (11): the push of each instruction with its checks (R342 to R349, R352), the arithmetic of the commands
(R350 to R358), and the steps MATRIX_QUEUE_SPACE, MATRIX_COMMAND_START and MATRIX_COMMAND_COMPLETE (R359, R360).
-/

namespace Sys2Proof.Machine

/-! ### Tiles (R340) -/

def UnitSt.tile (u : UnitSt) (n : Nat) : TileSt := u.ctx.tiles.toArray.getD n {}

def UnitSt.setTile (n : Nat) (f : TileSt → TileSt) (u : UnitSt) : UnitSt :=
  u.modCtx (fun c => { c with tiles := c.tiles.setIfInBounds n (f (c.tiles.toArray.getD n {})) })

/-- The 4,096 words of a tile, row-major. -/
def TileSt.words (t : TileSt) : List Nat := (range 0 4096).map (fun i => (t.val.toNat >>> (32 * i)) % 2 ^ 32)

/-- A tile number at or above the declared count: cause 4. -/
def tileCheck (u : UnitSt) (n : Nat) : Except Stop Unit := need (n < u.launch.tiles) (illegalOp u true 4 n)

/-- The tag check of a tile (R267): it is reported as register 64 + n. -/
def tileTag (u : UnitSt) (pos n : Nat) (ok : Nat → Bool) : Except Stop Nat := tagCheck u true pos (64 + n) (u.tile n).tag.toNat ok

/-! ### The push (R342) -/

/-- What a push appends, and what it does to the unit's registers at once. -/
structure Push where
  st : State
  cmd : MCmd
  upd : UnitSt → UnitSt

/-- Bytes of captured operands (R359). -/
def MCmd.capBytes (c : MCmd) : Nat :=
  match c.op with
  | 0x71 => 2 * c.captured.length
  | 0x75 => 8 * ((c.captured.length + 2) / 3)
  | _ => 0

/-- There is room in the queue for the command (R359). -/
def queueRoom (s : State) (u : UnitSt) (c : MCmd) : Bool :=
  let q := (s.pairOf u.pair).mq
  q.length < 32 && (((q.filter (fun x => x.unit == u.key)).map MCmd.capBytes).sum + c.capBytes ≤ 24 * 1024)

/-- A command of the instruction at the PC. -/
def matrixCmd (s : State) (u : UnitSt) (op : Nat) (f : D64) (sp sc addr addr2 : Nat) (captured : List Nat) : MCmd :=
  { unit := u.key, cls := u.launch.cls, number := s.fresh, op := op, f := f, sp := sp, sc := sc, addr := addr, addr2 := addr2
    captured := captured, pc := u.ctx.dat.pc, chseq := u.ctx.dat.chseq, iter := u.ctx.dat.it.toNat }

/-- A matrix instruction (R342, R344): first checks, the marks alone when ma has no active lane, then the later checks and the
push, which waits for room. -/
def pushOp (f : D64) (first : UnitSt → Except Stop (UnitSt → UnitSt)) (later : State → UnitSt → Except Stop Push) (s : State) : Out3 :=
  dataOp f (fun s u => do
    let marks ← first u
    if u.ma == 0 then pure { st := s, upd := marks }
    else
      let p ← later s u
      need (queueRoom p.st u p.cmd) (.wait .matrixQueue)
      let t := (p.st.modPair u.pair (fun x => { x with mq := x.mq ++ [p.cmd] })).bump
      pure { st := t, upd := fun x => marks (p.upd x) }) s

/-- Lines of several operands, with their owners (R342 step 5). -/
def operandLines (rs : List (UnitSt × Nat × Nat)) : List (UnitSt × Nat) :=
  rs.flatMap (fun r => (spanLines [(r.2.1, r.2.2)]).map (fun l => (r.1, l)))

/-- A destination tile takes its result tag and becomes empty. -/
def claimTile (n tag : Nat) (u : UnitSt) : UnitSt := u.setTile n (fun t => { t with tag := BitVec.ofNat 4 tag, empty := true })

/-! ### Formats (R349) -/

/-- The pair is scaled. -/
def mmScaled (fa : Nat) : Bool := fa == 5 || fa == 6 || fa == 7

/-- The tag of the tile of a format pair. -/
def mmTileTag (fa : Nat) : Nat := if isInt fa then 8 else 1

def mmSet (f : D64) : Bool := f.x16.getLsbD 12
def mmSat (f : D64) : Bool := f.x16.getLsbD 11

/-- The descriptor causes of MMA and MMAS (R348), lowest first. -/
def mmDescriptor (u : UnitSt) (f : D64) (mmas : Bool) (sp sc : Nat) : Option Nat :=
  let k := sc % 1024
  let offA := bits sc 27 16
  let offB := bits sc 43 32
  let zeros := bits sp 31 25 == 0 && bits sp 63 57 == 0 && bits sc 15 10 == 0 && bits sc 31 28 == 0 && bits sc 63 44 == 0
  let kOk := 8 ≤ k && k ≤ 512 && k % (if mmas then 32 else 8) == 0
  let scaled := mmScaled (fmtA f)
  if !zeros then some 1
  else if !kOk then some 2
  else if scaled && (u.launch.scales * 512 < offA + 64 * (k / 8) || u.launch.scales * 512 < offB + 64 * (k / 8)) then some 3
  else if !scaled && (offA != 0 || offB != 0) then some 4
  else if mmas && 64 < f.vb.toNat + k / 32 then some 6
  else none

/-- The metadata registers that an MMAS names: vM onwards, one per 32 columns. -/
def metaRegs (f : D64) (k : Nat) : List (BitVec 6) :=
  ((range 0 (max (k / 32) 1)).filter (fun r => f.vb.toNat + r < 64)).map (fun r => BitVec.ofNat 6 (f.vb.toNat + r))

/-- A metadata field is malformed (R352). -/
def metaBad (x : Nat) : Bool :=
  x / 4096 != 0 || !(x % 8 < x / 8 % 8 && x / 8 % 8 < x / 64 % 8 && x / 64 % 8 < x / 512 % 8)

/-- The first malformed field of a register. -/
def metaFirst (u : UnitSt) (r : BitVec 6) : Option (Nat × Nat) :=
  ((range 0 256).find? (fun g => metaBad (elem (u.v r).val 13 g))).map (fun g => (g, elem (u.v r).val 13 g))

/-- The checks and captured fields of the metadata (R342 step 4, R352). -/
def metaCheck (u : UnitSt) (f : D64) (k : Nat) : Except Stop (List Nat) := do
  let regs := metaRegs f k
  (regs.drop 1).forM (fun r => do
    vregCheck u true [r]
    let _ ← tagCheck u true 1 r.toNat (u.v r).tag.toNat (fun t => t == 13))
  emptyCheck u true (regs.map (fun r => (r, f.fb)))
  poisonCheck u true regs []
  match regs.findSome? (fun r => (metaFirst u r).map (fun x => (r, x))) with
  | some (r, g, x) => .error (dstop u true tcMetadata 0 (g + 256 * r.toNat + 65536 * x))
  | none => pure (regs.flatMap (fun r => (range 0 256).map (fun g => elem (u.v r).val 13 g)))

/-- lb of MMAS marks every metadata register (R344). -/
def markMeta (u : UnitSt) (f : D64) (x : UnitSt) : UnitSt :=
  if f.lb then (metaRegs f (u.sreg f.vc % 1024)).foldl (fun x r => x.setV r.toNat (fun v => { v with tag := 15 })) x else x

/-- MMA and MMAS. -/
def mmaOp (f : D64) (mmas : Bool) (s : State) : Out3 :=
  pushOp f
    (fun u => do
      if mmas then vregCheck u true [f.vb]
      tileCheck u f.vd.toNat
      if mmas then
        let _ ← tagCheck u true 1 f.vb.toNat (u.v f.vb).tag.toNat (fun t => t == 13)
      if !mmSet f then
        let _ ← tileTag u 3 f.vd.toNat (fun t => t == mmTileTag (fmtA f))
      pure (if mmas then markMeta u f else id))
    (fun s u => do
      poisonCheck u true [] [f.va, f.vc]
      let sp := u.sreg f.va
      let sc := u.sreg f.vc
      match mmDescriptor u f mmas sp sc with
      | some c => .error (dstop u true tcEngDesc 0 c)
      | none => pure ()
      let a := bits sp 24 0
      let b := bits sp 56 32
      let k := sc % 1024
      let op := if mmas then 0x71 else 0x70
      let na := mmABytes op k (fmtA f)
      let nb := mmBBytes k (fmtB f)
      need (a % 128 == 0) (dstop u true tcMisalign a)
      need (b % 128 == 0) (dstop u true tcMisalign b)
      let ra ← resolve s u true a na
      let rb ← resolve s u true b nb
      let cap ← if mmas then metaCheck u f k else pure []
      let lines := operandLines [(ra.1, ra.2, na), (rb.1, rb.2, nb)]
      lineCheck s u true f.fa lines
      let t := readLines s u lines
      pure { st := t, cmd := matrixCmd s u op f sp sc a b cap, upd := claimTile f.vd.toNat (mmTileTag (fmtA f)) }) s

def execMma (f : D64) (s : State) : Out3 := mmaOp f false s
def execMmas (f : D64) (s : State) : Out3 := mmaOp f true s

/-- MZERO (R354). -/
def execMzero (f : D64) (s : State) : Out3 :=
  pushOp f
    (fun u => do
      tileCheck u f.vd.toNat
      pure id)
    (fun s u => pure { st := s, cmd := matrixCmd s u 0x72 f 0 0 0 0 [], upd := claimTile f.vd.toNat f.fmt }) s

/-- The block address of MLDA and MSTA: off counts 8-byte units in x16[15:3] (R344, R355). -/
def blockAddr (u : UnitSt) (f : D64) : Except Stop Nat := do
  let a ← pantryAddr u true (u.sreg f.va) (f.x16.toNat / 8 * 8) f.vc
  need (a % 128 == 0) (dstop u true tcMisalign a)
  pure a

/-- MLDA (R355). -/
def execMlda (f : D64) (s : State) : Out3 :=
  pushOp f
    (fun u => do
      tileCheck u f.vd.toNat
      pure id)
    (fun s u => do
      poisonCheck u true [] [f.va]
      let n := 512 * fmtBits f.fn.toNat
      let a ← blockAddr u f
      let r ← resolve s u true a n
      let lines := operandLines [(r.1, r.2, n)]
      lineCheck s u true f.fa lines
      let t := readLines s u lines
      pure { st := t, cmd := matrixCmd s u 0x74 f 0 0 a 0 [], upd := claimTile f.vd.toNat (mmTileTag f.fn.toNat) }) s

/-- A target tag suits a tile's tag (R356). -/
def mstaSuits (tileT t : Nat) : Bool := if tileT == 8 then isInt t else [1, 3, 4, 5, 6, 7].contains t

/-- MSTA (R356): stores into mirrors are region-checked here (R154). -/
def execMsta (f : D64) (s : State) : Out3 :=
  pushOp f
    (fun u => do
      tileCheck u f.vb.toNat
      let _ ← tileTag u 1 f.vb.toNat (fun t => mstaSuits t f.fn.toNat)
      pure id)
    (fun s u => do
      poisonCheck u true [] [f.va]
      let n := 512 * fmtBits f.fn.toNat
      let a ← blockAddr u f
      let r ← resolve s u true a n
      match mirrorRefused u (mirrorPart s r.1 r.2 (List.replicate n 0)) with
      | some p => .error (dstop u true tcRegion (reportAddr u r.1 (p.1.off + p.2.1)))
      | none => pure { st := s, cmd := { matrixCmd s u 0x73 f 0 0 a 0 [] with tag := (u.tile f.vb.toNat).tag.toNat }, upd := id }) s

/-- MRDV (R357). -/
def execMrdv (f : D64) (s : State) : Out3 :=
  pushOp f
    (fun u => do
      vregCheck u true [f.vd]
      tileCheck u f.va.toNat
      let _ ← tileTag u 0 f.va.toNat (fun _ => true)
      pure id)
    (fun s u => pure
      { st := s, cmd := matrixCmd s u 0x76 f 0 0 0 0 []
        upd := fun x => x.setV f.vd.toNat (fun v => { v with tag := (u.tile f.va.toNat).tag, empty := true }) }) s

/-- The first scale word with any of bits 63:60 set (R262). -/
def scaleBad (ws : List Nat) : Option Nat := (findIdxVal (fun w => w / 2 ^ 60 != 0) ws 0).map Prod.fst

/-- MSCL (R358): the words are read and checked at the push. -/
def execMscl (f : D64) (s : State) : Out3 :=
  pushOp f (fun _ => pure id)
    (fun s u => do
      poisonCheck u true [] [f.va, f.vb, f.vc]
      let n := u.sreg f.vb
      let o := u.sreg f.vc
      need (0 < n && n ≤ 4096 && o + n ≤ u.launch.scales * 512) (dstop u true tcEngDesc 0 5)
      let a ← pantryAddr u true (u.sreg f.va) f.x16.toNat 0
      need (a % 8 == 0) (dstop u true tcMisalign a)
      let nw := (n + 2) / 3
      let r ← resolve s u true a (8 * nw)
      let g ← pantryRead s u r.1 true f.fa [(r.2, 8 * nw)]
      let ws := (range 0 nw).map (fun i => leNat (sliceOf g.2.flatten (8 * i) 8))
      match scaleBad ws with
      | some w => .error (dstop u true tcFormat 0 (256 * (w % 256)))
      | none =>
        let vals := (ws.flatMap (fun w => [w % 2 ^ 20, w / 2 ^ 20 % 2 ^ 20, w / 2 ^ 40 % 2 ^ 20])).take n
        pure { st := g.1, cmd := matrixCmd s u 0x75 f 0 o a 0 vals, upd := id }) s

/-! ### Arithmetic (R350, R351, R353) -/

/-- n dense elements of a format (R347). -/
def denseElems (bs : List Byte) (f n : Nat) : List Nat :=
  let x := leNat bs
  (range 0 n).map (fun i => (x >>> (fmtBits f * i)) % 2 ^ fmtBits f)

/-- Rows of k elements, each from its own bytes. -/
def rowsOf (bs : List Byte) (f k : Nat) : Nat → List (List Nat)
  | 0 => []
  | n + 1 => denseElems (bs.take (k * fmtBits f / 8)) f k :: rowsOf (bs.drop (k * fmtBits f / 8)) f k n

/-- A row of the expanded A (R353): kept value j of block G at its index, +0 elsewhere. -/
def expandRow (caps : List Nat) (i k : Nat) (row : List Nat) : List Nat :=
  (range 0 (k / 8)).flatMap (fun g =>
    let x := caps.getD (256 * (g / 4) + 4 * i + g % 4) 0
    let ks := [x % 8, x / 8 % 8, x / 64 % 8, x / 512 % 8]
    (range 0 8).map (fun t => match findIdxVal (fun q => q == t) ks 0 with | some (j, _) => row.getD (4 * g + j) 0 | none => 0))

/-- A flagged product of exact values. -/
def mulFl (a b : Val × Nat) : Val × Nat :=
  let r := exactMul a.1 b.1
  (r.1, a.2 ||| b.2 ||| r.2)

/-- One floating-point block (R350): the exact block sum, scaled, added to the accumulator with the only rounding. -/
def blockFp (fa fb : Nat) (acc : Nat × Nat) (xs ys : List Nat) (sa sb : Val) : Nat × Nat :=
  let ps := xs.zipWith (fun x y => exactMul (decodeVal x fa) (decodeVal y fb)) ys
  let s := exactSum (ps.map Prod.fst) 0
  let fl := (ps.map Prod.snd).foldl (· ||| ·) s.2
  let t := mulFl (mulFl (s.1, fl) (sa, 0)) (sb, 0)
  let r := exactSum [decodeVal acc.1 1, t.1] 0
  let q := roundTo r.1 1 0 false
  (q.1, acc.2 ||| t.2 ||| r.2 ||| q.2)

/-- One integer block: wrapped, or clamped with SATF. -/
def blockInt (fa fb : Nat) (sat : Bool) (acc : Nat × Nat) (xs ys : List Nat) : Nat × Nat :=
  let s := (xs.zipWith (fun x y => intElem x fa * intElem y fb) ys).sum
  let r := wrapOrSat sat 8 (sintOf 32 acc.1 + s)
  (r.1, acc.2 ||| r.2)

/-- The blocks of 8 of a row. -/
def blocks8 : Nat → List Nat → List (List Nat)
  | 0, _ => []
  | n + 1, l => l.take 8 :: blocks8 n (l.drop 8)

/-- One element of the product: the fold over its blocks, with the scales of its row and column. -/
def mmaElem (f : D64) (k old : Nat) (row col : List Nat) (sa sb : List Val) : Nat × Nat :=
  let n := k / 8
  let bs := (blocks8 n row).zip (blocks8 n col)
  if isInt (fmtA f) then bs.foldl (fun acc b => blockInt (fmtA f) (fmtB f) (mmSat f) acc b.1 b.2) (old, 0)
  else (bs.zip (sa.zip sb)).foldl (fun acc b => blockFp (fmtA f) (fmtB f) acc b.1.1 b.1.2 b.2.1 b.2.2) (old, 0)

/-- The scales of row or column i, 1 for an unscaled format. -/
def scaleRun (f : D64) (store : List (BitVec 20)) (off i n : Nat) : List Val :=
  (range 0 n).map (fun j => if mmScaled (fmtA f) then decodeVal (store.getD (off + i * n + j) 0).toNat tagS20 else .fin false 1 0 false)

/-- The 4,096 results of MMA or MMAS, row-major, with their flags. -/
def mmaAll (u : UnitSt) (c : MCmd) (abytes bbytes : List Byte) : List (Nat × Nat) :=
  let k := c.k
  let n := k / 8
  let rows0 := rowsOf abytes (fmtA c.f) (if c.op == 0x71 then k / 2 else k) 64
  let rows := if c.op == 0x71 then ((range 0 64).zip rows0).map (fun r => expandRow c.captured r.1 k r.2) else rows0
  let cols := rowsOf bbytes (fmtB c.f) k 64
  let old := (u.tile c.f.vd.toNat).words
  let sas := (range 0 64).map (fun i => scaleRun c.f u.ctx.scaleA (bits c.sc 27 16) i n)
  let sbs := (range 0 64).map (fun i => scaleRun c.f u.ctx.scaleB (bits c.sc 43 32) i n)
  ((range 0 64).zip (rows.zip sas)).flatMap (fun r =>
    ((range 0 64).zip (cols.zip sbs)).map (fun q =>
      mmaElem c.f k (if mmSet c.f then 0 else old.getD (64 * r.1 + q.1) 0) r.2.1 q.2.1 r.2.2 q.2.2))

/-! ### Execution (R342, R343, R360) -/

/-- A fault of a running command (R360, R401). -/
def MCmd.fault (c : MCmd) (code : Nat) (addr : Nat := 0) (info : Nat := 0) : Trap :=
  { code := code, src := 5, pc := c.pc, addr := addr, info := info, chseq := some c.chseq, iter := some c.iter }

/-- Read n bytes at a pantry address, which resolves anew on the unit's pair (R415). -/
def cmdRead (s : State) (u : UnitSt) (c : MCmd) (a n : Nat) : Except Trap (List Byte) :=
  match resolve s u true a n with
  | .error _ => .error (c.fault tcPantryRange a)
  | .ok (v, off) =>
    match poisonedLine s v (off, n) with
    | some l => .error (c.fault tcEccData (a + 128 * l - off))
    | none => .ok ((s.bytesAt (v.pantryPa off) n).map TByte.v)

/-- Another queued command of the unit, after this one, writes the same tile or register. -/
def laterWrites (s : State) (u : UnitSt) (c : MCmd) : Bool :=
  let tileDst (x : MCmd) : Bool := x.op == 0x70 || x.op == 0x71 || x.op == 0x72 || x.op == 0x74
  (s.pairOf u.pair).mq.any (fun x => x.unit == u.key && c.number < x.number && x.f.vd == c.f.vd &&
    (if c.op == 0x76 then x.op == 0x76 else tileDst x))

/-- A tile receives all its words; it is full unless a later command is to write it, whose tag it keeps. -/
def fillTile (n : Nat) (later : Bool) (ws : List Nat) (u : UnitSt) : UnitSt :=
  u.setTile n (fun t => { t with val := BitVec.ofNat 131072 (packElems 32 ws), empty := later, poison := [] })

/-- MRDV's copy (R357): a register that a later instruction has written, or that a later MRDV is to write, keeps what it holds. -/
def fillReg (c : MCmd) (later : Bool) (ws : List Nat) (u : UnitSt) : UnitSt :=
  if (u.v c.f.vd).empty && !later && vregOk u c.f.vd.toNat then
    u.setV c.f.vd.toNat (fun v => { v with val := BitVec.ofNat 4096 (packElems 32 ws), empty := false, poison := 0 })
  else u

/-- Scales into a side of the store from an entry on (R358). -/
def putScales (store : List (BitVec 20)) (o : Nat) (vals : List Nat) : List (BitVec 20) := patch store o (vals.map (BitVec.ofNat 20))

/-- What a command does when it completes: the state with its memory effects, the update of its unit, its flags; or its fault; or
that it is tried again. -/
def runMatrix (s : State) (u : UnitSt) (c : MCmd) : Except (Option Trap) (State × (UnitSt → UnitSt) × Nat) :=
  let rd (a n : Nat) : Except (Option Trap) (List Byte) := (cmdRead s u c a n).mapError some
  let later := laterWrites s u c
  let tile := u.tile (if c.op == 0x73 then c.f.vb.toNat else if c.op == 0x76 then c.f.va.toNat else c.f.vd.toNat)
  let flags (l : List (Nat × Nat)) : Nat := (l.map Prod.snd).foldl (· ||| ·) 0
  match c.op with
  | 0x70 | 0x71 => do
    let a ← rd c.addr (mmABytes c.op c.k (fmtA c.f))
    let b ← rd c.addr2 (mmBBytes c.k (fmtB c.f))
    let n := 64 * (c.k / 8)
    let used (side k : Nat) : Bool := mmScaled (fmtA c.f) && overlap (3 * k) 3 (if side == 0 then bits c.sc 27 16 else bits c.sc 43 32) n
    if u.ctx.scalePoison.any (fun p => used p.1 p.2) || (!mmSet c.f && !tile.poison.isEmpty) then throw (some (c.fault tcEccData))
    let r := mmaAll u c a b
    pure (s, fillTile c.f.vd.toNat later (r.map Prod.fst), flags r)
  | 0x72 => pure (s, fillTile c.f.vd.toNat later (List.replicate 4096 0), 0)
  | 0x74 => do
    let t := c.f.fn.toNat
    let b ← rd c.addr (512 * fmtBits t)
    let r := (rowsOf b t 64 64).flatten.map (fun x => toFormat x t (mmTileTag t) 0 false)
    pure (s, fillTile c.f.vd.toNat later (r.map Prod.fst), flags r)
  | 0x73 => do
    let t := c.f.fn.toNat
    if !tile.poison.isEmpty then throw (some (c.fault tcEccData))
    let r := tile.words.map (fun x => toFormat x c.tag t 0 false)
    let bs := leBytes (512 * fmtBits t) (packElems (fmtBits t) (r.map Prod.fst))
    match resolve s u true c.addr (512 * fmtBits t) with
    | .error _ => throw (some (c.fault tcPantryRange c.addr))
    | .ok (v, off) =>
      match pantryStore s u v true [(off, bs)] with
      | .error (.trap x) => throw (some (c.fault x.code x.addr x.info))
      | .error _ => throw none
      | .ok x => pure (x, id, flags r)
  | 0x75 => do
    let side := c.f.fn.toNat
    let n := c.captured.length
    let keep (p : Nat × Nat) : Bool := !(p.1 == side && c.sc ≤ 3 * p.2 && 3 * p.2 + 3 ≤ c.sc + n)
    if u.ctx.scalePoison.any (fun p => keep p && p.1 == side && overlap (3 * p.2) 3 c.sc n) then throw (some (c.fault tcEccData))
    pure (s, fun x => x.modCtx (fun y =>
      let y := { y with scalePoison := y.scalePoison.filter keep }
      if side == 0 then { y with scaleA := putScales y.scaleA c.sc c.captured } else { y with scaleB := putScales y.scaleB c.sc c.captured }), 0)
  | _ =>
    let q := c.f.x16.toNat % 4096
    -- 128 words of a part are 64 ECC units of 64 bits
    if tile.poison.any (fun i => i / 64 == q) then throw (some (c.fault tcEccData))
    else pure (s, fillReg c later ((tile.words.drop (128 * q)).take 128), 0)

/-- MATRIX_QUEUE_SPACE (R359): a push that waits for room issues again. -/
def execMatrixQueueSpace (pair slot : Nat) (s : State) : Out3 :=
  if (s.pairOf pair).mq.length < 32 then reissueD s pair slot .matrixQueue else .next s

/-- Among the oldest commands of some residents of a pair, the one of the lowest class, the earliest pushed among equals (R359). -/
def matrixHead (s : State) (pair : Nat) (ok : UnitSt → Bool) : Option MCmd :=
  let p := s.pairOf pair
  let cands := p.mq.filter (fun c =>
    (match s.findUnit c.unit with | some u => ok u && u.pair == pair && !u.ctx.ctl.replay | none => false) &&
    !p.mq.any (fun x => x.unit == c.unit && x.number < c.number))
  leastBy (fun a b => decide (a.cls < b.cls) || (a.cls == b.cls && decide (a.number < b.number))) cands

/-- MATRIX_COMMAND_START (R359, R413): the free unit takes a command of the running residents. -/
def execMatrixCommandStart (pair : Nat) (s : State) : Out3 :=
  let p := s.pairOf pair
  if p.mrun.isSome then .next s
  else match matrixHead s pair UnitSt.running with
    | none => .next s
    | some c => .next (s.setPair { p with mrun := some c.number })

/-- A command that a freeze of this very ac has abandoned still shows the trap that it would have come to in this ac, and nothing else
(R182, R416; assumption 107). -/
def abandonedTrap (s : State) (pair : Nat) : State :=
  if (s.pairOf pair).mrun.isSome then s
  else match matrixHead s pair (fun u => u.frozeNow s.cycle) with
    | none => s
    | some c =>
      match s.findUnit c.unit with
      | none => s
      | some u => (match runMatrix s u c with | .error (some t) => s.takeTrap u t | _ => s)

/-- The unit goes on after a command of its own has left the queue: waits of R343 end, and a data slice that has taken its end ends
with its last command (R159). -/
def afterMatrix (last : Bool) (u : UnitSt) : UnitSt :=
  u.modDat (fun d => { d with wait := if d.wait == .matrixOrder then .none else d.wait
                              done := d.done || (d.stopped && last), stopped := d.stopped && !last })

/-- MATRIX_COMMAND_COMPLETE (R342, R360): the running command reads its operands and writes its results as one step, and its flags are
ORed in; a fault freezes the unit, with the command at the head of its commands. -/
def execMatrixCommandComplete (pair : Nat) (s : State) : Out3 :=
  let p := s.pairOf pair
  match p.mrun.bind (fun n => p.mq.find? (fun c => c.number == n)) with
  | none => .next (abandonedTrap s pair)
  | some c =>
    match s.findUnit c.unit with
    | none => .next (s.setPair { p with mrun := none, mq := p.mq.filter (fun x => x.number != c.number) })
    | some u =>
      match runMatrix s u c with
      | .error none => .next s
      | .error (some t) => .next (s.takeTrap u t)
      | .ok (t, upd, fl) =>
        let t := t.modPair pair (fun x => { x with mrun := none, mq := x.mq.filter (fun y => y.number != c.number) })
        .next (t.modUnit c.unit (fun v =>
          afterMatrix (!t.queuedMatrix v) ((upd v).modCtl (fun x => { x with fpflags := x.fpflags ||| BitVec.ofNat 6 fl }))))

end Sys2Proof.Machine
end

