-- ==== Sys2Proof/Machine/Registers.lean ====
section
/-!
DEFINITION. The registers of the MMIO class (R7, R15) and the commands that they start: TIVCMD, ICIVCMD, JOBCMD, KEYCMD and PAIROFF
(R22, R24, R38, R39, R82, R90, R92, R184, R389, R397, R402, R403, R423, R426, R433, R436, R439, R440, R477).
-/

namespace Sys2Proof.Machine

/-! ### Reading (R7) -/

/-- The RW and status bits that a command register shows: BUSY, OVR, ERR, and at 59:46 its kind and job. -/
def CmdReg.shown (r : CmdReg) : Nat :=
  2 ^ 62 * b2n r.run.isSome + 2 ^ 61 * b2n r.ovr + 2 ^ 60 * b2n r.err + 2 ^ 58 * r.kind + 2 ^ 46 * r.job

/-- 50 ms in array clocks (R418, R432). -/
def lapseTicks : Nat := 95000000

/-- A die controller is live: it has completed boot and has renewed its heartbeat within the last 50 ms (R432). -/
def State.alive (s : State) (d : Nat) : Bool := s.fw.live.getLsbD d && decide (s.cycle < s.fw.beats.toArray.getD d 0 + lapseTicks)

def liveBits (s : State) : Nat := b2n (s.alive 0) + 2 * b2n (s.alive 1) + 4 * b2n (s.alive 2) + 8 * b2n (s.alive 3)

/-- FWSTAT (R433). -/
def fwstat (s : State) : Nat :=
  2 ^ 32 * (s.fw.epoch % 2 ^ 32) + 2 ^ 8 * liveBits s + 2 ^ 6 * s.fw.leader + 2 ^ 5 * b2n s.fw.throt + 2 ^ 4 * b2n s.fw.dumped + b2n s.fw.ready

/-- The value of the register at an offset of die d's MMIO block; none where no register stands (R15). -/
def regRead (s : State) (d off : Nat) : Option Nat :=
  let x := s.die d
  if off == 0x100000 then some x.tivaddr.toNat
  else if off == 0x100008 then some (x.tiv.shown + x.tiv.arg)
  else if off == 0x100010 then some s.fw.locgib
  else if off == 0x200000 then some x.iciv.shown
  else if 0x300000 ≤ off && off < 0x300000 + 8 * 24 && off % 8 == 0 then
    let v := x.vault ((off - 0x300000) / 8)
    some (2 ^ 31 * b2n v.busyTill.isSome + 2 ^ 8 * v.target + v.store)
  else if off == 0x300100 then some x.waypart.toNat
  else if off == 0x400000 then some x.jobcmd.shown
  else if off == 0x400008 then some (x.jcba * 4096)
  else if 0x500000 ≤ off && off < 0x500000 + 8 * 64 && off % 8 == 0 then
    if d == 0 then some (s.vfbind0.toArray.getD ((off - 0x500000) / 8) 0).toNat
    else if d == 2 then some (s.vfbind2.toArray.getD ((off - 0x500000) / 8) 0).toNat
    else none
  else if off == 0x600000 then some (if s.fw.peerValid then 2 ^ 8 + s.fw.peerId else s.fw.peerId)
  else if off == 0x700000 then some (fwstat s)
  else if off == 0x700008 then (if d == 0 then some (s.fw.keycmd.shown + s.fw.keycmd.arg) else none)
  else if off == 0x700010 then some (x.pairoff.toNat % 2 ^ 64)
  else if off == 0x700018 then some (x.pairoff.toNat / 2 ^ 64)
  else if off == 0x700020 then some (s.fw.dumpBase * 2 ^ 30)
  else none

/-! ### Writing (R7, R38, R92, R403, R436) -/

/-- A write of a command register. Kinds from bad on are reserved: GO sets OVR and starts nothing. -/
def CmdReg.write (r : CmdReg) (v bad kind job arg latched page : Nat) (errs : Bool) : CmdReg :=
  let r := if v.testBit 61 then { r with ovr := false } else r
  if !v.testBit 63 then { r with kind := kind, job := job, arg := arg }
  else if r.run.isSome then { r with ovr := true }
  else
    let r := { r with kind := kind, job := job, arg := arg }
    if bad ≤ kind then (if errs then { r with err := true } else { r with ovr := true })
    else { r with run := some { kind := kind, job := job, arg := latched, page := page }, err := false }

/-- A range command of no pages completes at once (R38). -/
def CmdReg.endEmpty (r : CmdReg) : CmdReg := { r with run := r.run.filter (fun x => !(x.kind == 2 && x.arg == 0)) }

/-- The pairs of a die that PAIROFF names and did not name before are taken out of placement (R439): their residents are saved. -/
def setPairoff (s : State) (d : Nat) (x : BitVec 96) : State :=
  let old := (s.die d).pairoff
  let new := (range 0 Config.pairsPerDie).filter (fun i => x.getLsbD i && !old.getLsbD i)
  let s := s.modDie d (fun y => { y with pairoff := x })
  let gone (u : UnitSt) : Bool := match u.occupies with | some (p, _) => dieOf p == d && new.contains (p % Config.pairsPerDie) | none => false
  let s := ((s.units.filter gone).map UnitSt.key).foldl State.freeze s
  { s with units := s.units.map (fun u => match u.place with | .restoring _ _ => if gone u then { u with place := .saved } else u | _ => u) }

/-- A write of PAIROFF0 or PAIROFF1. -/
def writePairoff (s : State) (d reg : Nat) (v : Word) : State :=
  let old := (s.die d).pairoff
  setPairoff s d (if reg == 0 then old.extractLsb' 64 32 ++ v else (v.extractLsb' 0 32 : BitVec 32) ++ (old.extractLsb' 0 64 : BitVec 64))

/-- The bits of VFBIND that a write sets (R423). -/
def vfbindMask : Word := BitVec.ofNat 64 (2 ^ 63 + (2 ^ 57 - 2 ^ 42) + 0xFFF)

/-- A write of the register at an offset of die d's MMIO block; none where no register stands. -/
def regWrite (s : State) (d off : Nat) (w : Word) : Option State :=
  let v := w.toNat
  let kind := bits v 59 58
  let job := bits v 57 46
  if off == 0x100000 then some (s.modDie d (fun x => { x with tivaddr := BitVec.ofNat 64 (bits v 56 12 * 4096) }))
  else if off == 0x100008 then
    some (s.modDie d (fun x => { x with tiv := (x.tiv.write v 3 kind job (bits v 31 0) (bits v 31 0) (x.tivaddr.toNat / 4096) false).endEmpty }))
  else if off == 0x200000 then some (s.modDie d (fun x => { x with iciv := x.iciv.write v 2 kind job 0 0 0 false }))
  else if off == 0x300100 then some (s.modDie d (fun x => { x with waypart := w }))
  else if off == 0x400000 then some (s.modDie d (fun x => { x with jobcmd := x.jobcmd.write v 4 kind job 0 x.jcba 0 false }))
  else if off == 0x400008 then some (s.modDie d (fun x => { x with jcba := bits v 51 12 }))
  else if 0x500000 ≤ off && off < 0x500000 + 8 * 64 && off % 8 == 0 && (d == 0 || d == 2) then
    let i := (off - 0x500000) / 8
    some (if d == 0 then { s with vfbind0 := s.vfbind0.setIfInBounds i (w &&& vfbindMask) } else { s with vfbind2 := s.vfbind2.setIfInBounds i (w &&& vfbindMask) })
  else if off == 0x700008 && d == 0 then some { s with fw := { s.fw with keycmd := s.fw.keycmd.write v 2 kind 0 (bits v 9 0) (bits v 9 0) s.fw.epoch true } }
  else if off == 0x700010 then some (writePairoff s d 0 w)
  else if off == 0x700018 then some (writePairoff s d 1 w)
  else if (regRead s d off).isSome then some s
  else none

/-- REGISTER_WRITE: an aligned 8-byte write in the MMIO class. A register that is read only ignores it. -/
def execRegisterWrite (addr : Nat) (value : Word) (s : State) : Out3 :=
  match place52 addr with
  | .mmio d off => .next ((if d < Config.dies then regWrite s d off value else none).getD s)
  | _ => .next s

/-- PAIROFF_WRITE (R439). -/
def execPairoffWrite (die reg : Nat) (value : Word) (s : State) : Out3 :=
  .next (if die < Config.dies then writePairoff s die reg value else s)

/-! ### Uncached accesses at their home (R15, R103, R108, R117) -/

/-- A translated access of a firmware-owned job reads or writes a register (R15, R21). -/
def regAccess (s : State) (a : Access) (die off : Nat) : State :=
  match a.use with
  | .store data _ => completeAccess ((regWrite s die off (BitVec.ofNat 64 (leNat data))).getD s) a (.ok [])
  | .load _ _ | .waitv | .pref | .record | .const | .code _ | .amo _ _ => completeAccess s a (.ok (leBytes 8 ((regRead s die off).getD 0)))

/-- UNCACHED_ACCESS (R108): access k that waits at the home performs when it is the oldest of its line's queue (R103, R118), unless
the line is unsettled. -/
def execUncachedAccess (d k : Nat) (s : State) : Out3 :=
  match (s.die d).uncq[k]? with
  | none => .next s
  | some a =>
    let take (t : State) : State := leaveHome t d a
    let turn := match (s.die d).homeq.find? (fun r => r.line == a.line) with
      | some (.uncached i _) => i == a.aid
      | some (.remote _ _ _ _) | some (.here _ _) | some (.visit _ _) => false
      | none => true
    if !a.live s then .next (amoUncount (take s) a)
    else if !turn then .next s
    else if !backed s a.pa then .next (take (completeAccess s a (.err tcPageAttr (xinfo 10 a.lvl a.use.kindCode))))
    else match place52 a.pa with
    | .mmio m off => .next (take (regAccess s a m off))
    | .hbm | .attic _ _ _ | .pantry _ _ | .host _ _ | .peer _ _ | .unmapped =>
      match quiesce s a.line a.use.writes with
      | none => .next s
      | some t =>
        -- the access performs, then the next request of its line starts
        let ends (x : State) (r : AccRes) : Out3 := .next (take (completeAccess x a r))
        let old := homeSeen t a.key a.pa a.size
        let bad := homePoisoned t a.pa a.size
        match a.use with
        | .load _ _ | .waitv | .pref | .record | .const | .code _ => ends (touchHome t a.pa) (if bad then .err tcEccData 0 else .ok old)
        | .store data _ =>
          match homePut t a.pa (sealList a.key a.pa data) with
          | some u => ends u (.ok [])
          | none => ends t (.err tcEccData (xinfo 0 a.lvl 1))
        | .amo _ op =>
          if bad then ends t (.err tcEccData 0)
          else match homePut t a.pa (sealList a.key a.pa (leBytes op.size (amoNew op (leNat old)))) with
            | some u => ends u (.ok old)
            | none => ends t (.err tcEccData 0)

/-! ### TLB invalidation (R38, R39) -/

/-- A command names a job: kind 0 all, else its own. -/
def CmdRun.names (r : CmdRun) (job : Nat) : Bool := r.kind == 0 || r.job == job

/-- A range of pages of a job meets a command's. -/
def CmdRun.covers (r : CmdRun) (job page pages : Nat) : Bool :=
  r.names job && (r.kind != 2 || overlap page pages r.page r.arg)

/-- Remove the entries that a command names, from every TLB and walk cache. -/
def dropEntries (s : State) (r : CmdRun) : State :=
  let keep (t : TlbEntry) : Bool := !r.covers t.job t.page t.pages
  let s := { s with pairs := s.pairs.map (fun p => { p with tlb := p.tlb.filter keep }) }
  (range 0 Config.dies).foldl (fun t d => t.modDie d (fun x => { x with l2tlb := x.l2tlb.filter keep, walks := x.walks.filter (fun w => !r.names w.job) })) s

/-- What has been translated but has not been sent is translated afresh, and what an engine has read of a sector through a removed entry it
reads again through the new one, so that no access mixes the two (R40). -/
def staleLandings (s : State) (r : CmdRun) : State :=
  let page (va : Nat) : Nat := va % 2 ^ 64 / 4096
  { s with
    cmds := s.cmds.map (fun (c : Cmd) =>
      if r.names c.unit.job then { c with stale := c.stale || !c.landings.isEmpty
                                          got := c.got.filter (fun g => !r.covers c.unit.job (page g.1.1) 1)
                                          bad := c.bad.filter (fun g => !r.covers c.unit.job (page g.1.1) 1) } else c)
    outstanding := s.outstanding.map (fun (o : Outstanding) => match o.what with
      | .engine i va _ _ =>
        (match s.cmds.find? (fun (c : Cmd) => c.id == i && r.covers c.unit.job (page va) 1) with
        | some c => { o with what := .stale c.unit.job (page va) }
        | none => o)
      | _ => o) }

/-- An instruction that waits with a translation that a command removes issues again: a store for room in the buffer, a SUBS for its home's
answer; a parked WAITV or WAITEV reads again (R39, R40). -/
def reissueWaits (s : State) (r : CmdRun) : State :=
  let wait (u : UnitSt) : CtlWait := match u.ctx.ctl.wait with
    | .storeBuf e => if r.covers u.key.job (e.acc.va / 4096) 1 then .release else u.ctx.ctl.wait
    | .subs _ _ g _ size _ _ _ => if r.covers u.key.job (g / 4096) (size / 4096 + 2) then .release else u.ctx.ctl.wait
    | .waitv va pa size acq scope cmp rd last limit _ reading =>
      .waitv va pa size acq scope cmp rd last limit (r.covers u.key.job (va / 4096) 1 || (match u.ctx.ctl.wait with | .waitv _ _ _ _ _ _ _ _ _ w _ => w | _ => false)) reading
    | w => w
  { s with
    units := s.units.map (fun u => if r.names u.key.job && u.running then u.modCtl (fun c => { c with wait := wait u }) else u)
    jobs := s.jobs.map (fun j => if r.names j.id then { j with window := j.window.map (fun t => if t.wpa.isSome then { t with woken := true } else t) } else j) }

/-- A TIVCMD of a kind acts once: a posted write that arrived earlier through the same port has performed, since a port's writes wait for one
another (HOST_WRITE, R424). -/
def tlbInvalidate (die kind : Nat) (s : State) : Out3 :=
  match (s.die die).tiv.run with
  | none => .next s
  | some r =>
    if r.kind != kind || r.acted then .next s
    else
      let t := reissueWaits (staleLandings (dropEntries s r) r) r
      .next ((t.modDie die (fun x => { x with tiv := { x.tiv with run := some { r with acted := true, mark := s.fresh, actedAt := s.cycle } } })).bump)

def execTlbInvalidateAll (die : Nat) (s : State) : Out3 := tlbInvalidate die 0 s
def execTlbInvalidateJob (die : Nat) (s : State) : Out3 := tlbInvalidate die 1 s
def execTlbInvalidateRange (die : Nat) (s : State) : Out3 := tlbInvalidate die 2 s

/-- An access was translated before a command acted, with an entry that it names. -/
def CmdRun.holds (r : CmdRun) (a : Access) : Bool := a.aid < r.mark && r.covers a.unit.job (a.va / 4096) 1

/-- A write that awaits its acknowledgement, in order of sending below a mark, for a job that a command names. -/
def waitsFor (s : State) (r : CmdRun) (w : StoreFor) : Bool :=
  match w with
  | .unit a => r.names a.unit.job && (match a.err with | some e => r.covers a.unit.job (e.2.1 / 4096) 1 | none => true)
  | .engine c _ => s.cmds.any (fun (x : Cmd) => x.id == c && r.names x.unit.job)
  | .signal j _ _ => r.names j
  | .posted _ _ => true

/-- A request outstanding outside that a removed entry may have translated: of a request without a number of its own, one that went out
before the command acted. -/
def CmdRun.awaits (r : CmdRun) (s : State) (o : Outstanding) : Bool :=
  match o.what with
  | .access a | .emulRead a | .emulProbe a _ _ | .fill a _ _ _ => r.holds a
  | .engine c va _ _ => o.since ≤ r.actedAt && s.cmds.any (fun (x : Cmd) => x.id == c && r.covers x.unit.job (va % 2 ^ 64 / 4096) 1)
  | .decode j va _ | .task j _ va _ => o.since ≤ r.actedAt && r.covers j (va / 4096) 1
  | .stale j page => o.since ≤ r.actedAt && r.covers j page 1
  | .store w => o.since ≤ r.actedAt && waitsFor s r w
  | .forward _ _ => o.since ≤ r.actedAt
  | .probe _ => false

/-- Some access that a removed entry translated has not performed (R39). -/
def oldAccess (s : State) (r : CmdRun) : Bool :=
  s.dies.toList.any (fun x => x.sfq.any (fun q => r.holds q.acc) || x.uncq.any r.holds) ||
  s.outstanding.any (r.awaits s) ||
  (s.p0.lockq ++ s.p1.lockq ++ s.p0.lock.toList ++ s.p1.lock.toList).any r.holds ||
  s.units.any (fun u => (u.ctx.ctl.sb ++ u.ctx.ctl.flight).any (fun e => r.holds e.acc)) ||
  s.cmds.any (fun (c : Cmd) => r.names c.unit.job && c.sent.any (fun x => x.1 < r.mark && r.covers c.unit.job (x.2.va / 4096) 1)) ||
  (s.p0.unacked ++ s.p1.unacked).any (fun x => x.1 < r.mark && waitsFor s r x.2)

/-- TLB_INVALIDATE_DONE. -/
def execTlbInvalidateDone (die : Nat) (s : State) : Out3 :=
  match (s.die die).tiv.run with
  | none => .next s
  | some r => .next (if !r.acted || oldAccess s r then s else s.modDie die (fun x => { x with tiv := { x.tiv with run := none } }))

/-! ### Instruction-cache invalidation (R90, R92) -/

/-- Drop the lines of some jobs from every instruction cache; fetches under way for them are made again. -/
def dropCode (s : State) (gone : Nat → Bool) : State :=
  let s := { s with pairs := s.pairs.map (fun p => { p with l1i := p.l1i.filter (fun l => !gone l.job) }) }
  let s := fetchAgain s (fun u => gone u.key.job) (fun a => a.use.isCode)
  (range 0 Config.dies).foldl (fun t d => t.modDie d (fun x => { x with l2i := x.l2i.filter (fun l => !gone l.job) })) s

/-- An ICIVCMD of a kind acts once, after the posted writes that arrived before it, as for TIVCMD. -/
def icacheInvalidate (die kind : Nat) (s : State) : Out3 :=
  match (s.die die).iciv.run with
  | none => .next s
  | some r =>
    if r.kind != kind || r.acted then .next s
    else .next ((dropCode s r.names).modDie die (fun x => { x with iciv := { x.iciv with run := some { r with acted := true } } }))

def execIcacheInvalidateAll (die : Nat) (s : State) : Out3 := icacheInvalidate die 0 s
def execIcacheInvalidateJob (die : Nat) (s : State) : Out3 := icacheInvalidate die 1 s

/-- ICACHE_INVALIDATE_DONE. -/
def execIcacheInvalidateDone (die : Nat) (s : State) : Out3 :=
  match (s.die die).iciv.run with
  | some r => .next (if r.acted then s.modDie die (fun x => { x with iciv := { x.iciv with run := none } }) else s)
  | none => .next s

/-! ### JOBCMD activate (R24, R184, R389, R402, R403, R477) -/

/-- The job command of a kind that runs at a die and has not acted. -/
def jobRun (s : State) (die kind : Nat) : Option CmdRun :=
  (s.die die).jobcmd.run.filter (fun r => r.kind == kind && !r.acted)

/-- The command has acted; it is refused or not. -/
def jobActed (s : State) (die : Nat) (err : Bool) : State :=
  s.modDie die (fun x => { x with jobcmd := { x.jobcmd with err := err, run := x.jobcmd.run.map (fun r => { r with acted := true }) } })

/-- The ring of a block is usable (R477). -/
def ringOk (ring rsize : Nat) : Bool :=
  ring % 64 == 0 && (range 4 12).any (fun k => rsize == 2 ^ k) && ring + 64 * rsize ≤ 0x8000000000

/-- A die's context area lies wholly in its local range or wholly in its attic store (R402, R477). -/
def areaOk (s : State) (d base n : Nat) : Bool :=
  let hi := base + n * 0x140000
  let l := s.fw.locgib
  let lo := (512 - 4 * l + d * l) * 0x40000000
  n == 0 || (lo ≤ base && hi ≤ lo + l * 0x40000000) ||
  (atticAt d 0 0 ≤ base && hi ≤ atticAt d 23 16 && (range 0 ((hi - base) / 0x10000)).all (fun k => backed s (base + k * 0x10000)))

/-- How the check of a spawn save area ends. -/
inductive PageRes where
  | good (s : State)
  | bad (s : State)
  | wait (s : State)

/-- A page of the spawn save area is a C page of HBM with R and W. -/
def spawnPage (s : State) (j : Job) (die va : Nat) : PageRes :=
  match xlateDie s j.clsmin die j.id j.root { kind := .load } va with
  | .wait t _ | .retry t => .wait t
  | .trap t _ _ => .bad t
  | .ok s _ _ _ =>
    match xlateDie s j.clsmin die j.id j.root { kind := .store } va with
    | .wait t _ | .retry t => .wait t
    | .trap t _ _ => .bad t
    | .ok t pa e _ => if isHbm pa && Pte.cm e == 0 then .good t else .bad t

/-- The same; a page refused on a TLB hit is walked again (R36). -/
def spawnPageAgain (s : State) (j : Job) (die va : Nat) : PageRes :=
  match spawnPage s j die va with
  | .bad t =>
    if (tlbFind (s.die die).l2tlb j.id (va / 4096)).isNone then .bad t
    else spawnPage (t.modDie die (fun x => { x with l2tlb := x.l2tlb.filter (fun y => !y.hits j.id (va / 4096)) })) j die va
  | r => r

/-- Both pages of a spawn save area. -/
def spawnPages (s : State) (j : Job) (die : Nat) : PageRes :=
  match spawnPageAgain s j die j.spawnArea with
  | .good t => spawnPageAgain t j die (j.spawnArea + 4096)
  | r => r

/-- The job that a block describes; its fields are those of R24, R184, R389 and R402. -/
def jobOfBlock (id die jcb gen : Nat) (b : List Byte) : Job :=
  let w := quad b 0x40
  let v := quad b 0xB8
  { id := id, die := die, jcb := jcb, key := bits w 61 52, keyGen := gen, root := bits w 51 12, pc := quad b 0x48, spawnArea := quad b 0x50
    wshare := bits (quad b 0x58) 7 0, clsmin := bits (quad b 0x60) 25 24, clus := bits (quad b 0x60) 23 0
    vlt := quad b 0x68 + 2 ^ 64 * bits (quad b 0x70) 31 0
    ctxb := (range 0 4).map (fun d => quad b (0x78 + 16 * d)), ctxn := (range 0 4).map (fun d => bits (quad b (0x80 + 16 * d)) 13 0)
    fvec := bits v 10 0, cvec := bits v 26 16, nvec := bits v 42 32, func := bits v 54 48
    ring := quad b 0xC0, rsize := bits (quad b 0xC8) 15 0, wdog := bits (quad b 0xE8) 31 0 }

/-- The offset of the first field of a block that breaks R477, but for the spawn area's translation. -/
def blockBad (s : State) (j : Job) (b : List Byte) : Option Nat :=
  let w := quad b 0x40
  let sum := ((s.jobs.filter (fun x => x.die == j.die)).map Job.wshare).sum + j.wshare
  (([(0x40, w % 4096 != 0 || !w.testBit 63 || 0x8000000 ≤ j.root || (j.key != 0 && !s.fw.keySlots.any (fun k => k.1 == j.key))),
    (0x48, j.pc % 32 != 0), (0x50, j.spawnArea % 8192 != 0),
    (0x58, quad b 0x58 / 256 != 0 || j.wshare == 0 || 128 < j.wshare || 128 < sum),
    (0x60, quad b 0x60 / 2 ^ 26 != 0 || j.clus == 0), (0x70, quad b 0x70 / 2 ^ 32 != 0)] : List (Nat × Bool)) ++
   (range 0 4).flatMap (fun d => [(0x78 + 16 * d, j.ctxb.getD d 0 % 0x10000 != 0 || !areaOk s d (j.ctxb.getD d 0) (j.ctxn.getD d 0)),
     (0x80 + 16 * d, quad b (0x80 + 16 * d) / 2 ^ 14 != 0)]) ++
   [(0xB8, j.fvec + 2 ^ 16 * j.cvec + 2 ^ 32 * j.nvec + 2 ^ 48 * j.func != quad b 0xB8 || 64 < j.func),
    (0xC0, j.ring % 64 != 0 || (!ringOk j.ring j.rsize && ringOk 0 j.rsize)), (0xC8, quad b 0xC8 / 2 ^ 16 != 0 || !ringOk 0 j.rsize),
    (0xE8, quad b 0xE8 / 2 ^ 32 != 0)]).find? Prod.snd |>.map Prod.fst

/-- The record and the interrupt of a refusal under R477; none while a line is busy. -/
def refusalRecord (s : State) (j : Job) (code off : Nat) : Option State :=
  let r : Report := ⟨j.jcb, j.clsmin, if ringOk j.ring j.rsize then some (j.ring, j.rsize) else none, if j.func ≤ 64 then some (j.func, j.fvec) else none⟩
  writeRecord s r true (recordBytes j.id 0 { tidx := 0, trap := taskTrapOf code (j.jcb + off) 0, unit := none })

/-- A refusal under R477: ERR, the record, the interrupt; none while a line is busy. -/
def refuseJob (s : State) (j : Job) (die code off : Nat) : Option State := (refusalRecord s j code off).map (fun s => jobActed s die true)

/-- The spawn queue that a stop left: the records up to the first that is all zero. -/
def spawnQueue (bs : List Byte) : List (Nat × BitVec 256) :=
  (((range 0 256).map (fun i => BitVec.ofNat 256 (leNat (sliceOf bs (32 * i) 32)))).takeWhile (fun r => r != 0)).map (fun r => (2 ^ 64, r))

/-- Instruction-cache lines of a job id go when its ROOT changes (R90). -/
def noteRoot (s : State) (id root : Nat) : State :=
  let s := if s.lastRoot.any (fun x => x.1 == id && x.2 == root) then s else dropCode s (fun j => j == id)
  { s with lastRoot := (id, root) :: s.lastRoot.filter (fun x => x.1 != id) }

/-- The job becomes active; none while a line is busy. -/
def startJob (s : State) (j : Job) (bs : List Byte) : Option State :=
  ((devWrite s (j.jcb + 0xD0) (leBytes 8 0)).bind (fun s => devWrite s (j.jcb + 0xE0) (leBytes 8 0))).map (fun s =>
    let j := { j with spawn := spawnQueue bs, spread := nextCluster j.clusters 0, succ := j.pc }
    noteRoot { s with jobs := s.jobs ++ [j] } j.id j.root)

/-- How an activation ends: it goes on in a later turn, the job is active, it is refused, or refused with a record for the field of its block
at an offset. -/
inductive Activation where
  | wait (s : State)
  | started (s : State)
  | refused (s : State)
  | badField (s : State) (j : Job) (code off : Nat)

/-- The job of which nothing but its block's place is known: its ring and its vector are not usable. -/
def unknownJob (id die jcb : Nat) : Job := { jobOfBlock id die jcb 0 [] with func := 127 }

/-- Activate a job by the block at an address (R24, R184, R389, R402, R477), for one of the 4,096 job ids (R1). Bit 62 of the translation word
counts on the die controllers' own path only (R24). A block with a poisoned byte is refused with ECC_DATA (R437, assumption 114). -/
def activate (s : State) (die id jcb : Nat) (own : Bool) : Activation :=
  if 4096 ≤ id || (s.job id).isSome || 16 ≤ (s.jobs.filter (fun j => j.die == die)).length || !isHbm jcb then .refused s
  else match devRead s 3 jcb 0x100 with
    | none => .wait s
    | some (s1, none) => .badField s1 (unknownJob id die jcb) tcEccData 0
    | some (s1, some b) =>
      let w := quad b 0x40
      let gen := ((s.fw.keySlots.find? (fun k => k.1 == bits w 61 52)).map Prod.snd).getD 0
      let j := { jobOfBlock id die jcb gen b with fwj := own && w.testBit 62 }
      match blockBad s1 j b with
      | some off => .badField s1 j tcBindFault off
      | none =>
        -- the translations of the check are the job's own
        let without (t : State) : State := { t with jobs := t.jobs.filter (fun x => x.id != id) }
        match spawnPages { s1 with jobs := s1.jobs ++ [j] } j die with
        | .wait t => .wait (without t)
        | .bad t => .badField (without t) j tcBindFault 0x50
        | .good t =>
          match seqRead t { j.decodeRead with once := false } j.spawnArea 8192 with
          | .ok t bs => (match startJob (without t) j bs with | some t => .started t | none => .wait s)
          | .wait t => .wait (without t)
          | .fault t _ _ _ => .badField (without t) j tcBindFault 0x50

/-- JOB_ACTIVATE (R403, R433). -/
def execJobActivate (die : Nat) (s : State) : Out3 :=
  match jobRun s die 0 with
  | none => .next s
  | some r =>
    if !s.fw.ready then .next (jobActed s die true)
    else match activate s die r.job (r.arg * 4096) false with
      | .wait t => .next t
      | .started t => .next (jobActed t die false)
      | .refused t => .next (jobActed t die true)
      | .badField t j code off => .next ((refuseJob t j die code off).getD s)

/-- A die controller activates a job through its own path (R24), without JOBCMD; one that breaks R477 does not start and is reported all the
same. -/
def activateOwn (s : State) (die id frame : Nat) : State :=
  match activate s die id (frame * 4096) true with
  | .wait t | .started t => t
  | .refused _ => s
  | .badField t j code off => (refusalRecord t j code off).getD s

/-! ### JOBCMD resume, cancel and stop (R224, R403, R404, R417) -/

/-- The job on which a command of a kind acts: active on this die. -/
def jobHere (s : State) (die : Nat) (r : CmdRun) : Option Job := (s.job r.job).filter (fun j => j.die == die)

/-- A unit of the task that faulted goes on: its trap registers are set when it trapped, and its stamp is taken anew (R224, R392,
R404). -/
def resumeOne (now : Nat) (u : UnitSt) : UnitSt :=
  match u.trap with
  | none => { u with stamp := now }
  | some t =>
    let set (c : Ctl) : Ctl := { c with trapcode := t.code, trappc := t.pc, trapaddr := t.addr, trapinfo := t.info }
    { u.modCtl set with stamp := now, trap := none, resumed := true }

/-- The faulting task runs again: its units, or the command of an engine task from its resume offset (R210, R224). -/
def resumeTask (s : State) (job tidx : Nat) : State :=
  { s with
    units := s.units.map (fun u => if u.key.job == job && u.key.tidx == tidx then resumeOne s.cycle u else u)
    cmds := s.cmds.map (fun (c : Cmd) =>
      if c.task && c.unit.job == job && c.unit.tidx == tidx && c.stuck then c.again else c) }

/-- JOB_RESUME. -/
def execJobResume (die : Nat) (s : State) : Out3 :=
  match jobRun s die 1 with
  | none => .next s
  | some r =>
    match jobHere s die r with
    | none => .next (jobActed s die true)
    | some j =>
      match j.status with
      | .halted true =>
        if s.fw.fatal then .next (jobActed s die true)
        else match j.fault with
          | some f =>
            if f.reported then
              .next (jobActed (resumeTask (s.putJob { j with status := .running, fault := none }) j.id f.tidx) die false)
            else .next (jobActed (s.putJob { j with status := .faulting f.tidx }) die false)
          | none => .next (jobActed (s.putJob { j with status := .running }) die false)
      | .halted false | .running | .faulting _ | .stopping => .next (jobActed s die true)

/-- JOB_CANCEL. -/
def execJobCancel (die : Nat) (s : State) : Out3 :=
  match jobRun s die 2 with
  | none => .next s
  | some r =>
    match jobHere s die r with
    | none => .next (jobActed s die true)
    | some j => .next (((cancelJob s j (2 ^ 64 - 1)).map (fun t => jobActed t die false)).getD s)

/-- Every unit of a job is in memory or has never been placed. -/
def jobQuiet (s : State) (job : Nat) : Bool := s.units.all (fun u => u.key.job != job || u.occupies.isNone)

/-- The end of a stop: the resume area names the oldest task, STREAM the next record; a fault that no resume can follow is reported. -/
def finishStop (s : State) (j : Job) : Option State :=
  (writeStop s j).bind (fun s =>
    match j.fault with
    | some f =>
      if f.resumable then some (s.modJob j.id (fun j => { j with status := .halted true }))
      else (writeRecord s j.report true (recordBytes j.id (j.lseqOf f.tidx) f)).map (fun s =>
        s.modJob j.id (fun j => { j with status := .halted false, fault := some { f with reported := true } }))
    | none => some (s.modJob j.id (fun j => { j with status := .halted true })))

/-- JOB_STOP: decode and issue halt, every placed unit is saved; done when the saves are. -/
def execJobStop (die : Nat) (s : State) : Out3 :=
  match jobRun s die 3 with
  | none => .next s
  | some r =>
    match jobHere s die r with
    | none => .next (jobActed s die true)
    | some j =>
      match j.status with
      | .halted _ => .next (jobActed s die false)
      | .running | .faulting _ =>
        .next ((j.window.map Task.tidx).foldl (fun s t => freezeTask s j.id t) (s.putJob { j with status := .stopping }))
      | .stopping => if jobQuiet s j.id then .next (((finishStop s j).map (fun t => jobActed t die false)).getD s) else .next s

/-- JOB_COMMAND_DONE. -/
def execJobCommandDone (die : Nat) (s : State) : Out3 :=
  match (s.die die).jobcmd.run with
  | some r => .next (if r.acted then s.modDie die (fun x => { x with jobcmd := { x.jobcmd with run := none } }) else s)
  | none => .next s

/-! ### KEYCMD (R436) -/

/-- There is a leader: its lease stands (R432). -/
def leaseStands (s : State) : Bool := s.fw.epoch != 0 && s.cycle < s.fw.leaseTill

/-- A KEYCMD of a kind acts once, by a command of the leader: it is refused for slot 0 and for a slot that an active job names, and where the
lease has passed on since GO, since the command then carries an older epoch (R432). -/
def keyCommand (kind : Nat) (f : Nat → Firmware → Firmware) (s : State) : Out3 :=
  match s.fw.keycmd.run with
  | none => .next s
  | some r =>
    if r.kind != kind || r.acted || !leaseStands s then .next s
    else
      let bad := r.page < s.fw.epoch || r.arg == 0 || s.jobs.any (fun j => j.key == r.arg)
      let fw := if bad then s.fw else f r.arg s.fw
      .next { s with fw := { fw with keycmd := { fw.keycmd with err := bad, run := some { r with acted := true } } } }

/-- KEY_GENERATE: a fresh key, by its number. -/
def execKeyGenerate (s : State) : Out3 :=
  keyCommand 0 (fun k fw => { fw with keyCount := fw.keyCount + 1, keySlots := (k, fw.keyCount + 1) :: fw.keySlots.filter (fun x => x.1 != k) }) s

/-- KEY_CLEAR. -/
def execKeyClear (s : State) : Out3 := keyCommand 1 (fun k fw => { fw with keySlots := fw.keySlots.filter (fun x => x.1 != k) }) s

/-- KEY_COMMAND_DONE. -/
def execKeyCommandDone (s : State) : Out3 :=
  match s.fw.keycmd.run with
  | some r => .next (if r.acted then { s with fw := { s.fw with keycmd := { s.fw.keycmd with run := none } } } else s)
  | none => .next s

end Sys2Proof.Machine
end

