-- ==== Sys2Proof/Machine/Outside.lean ====
section
/-!
DEFINITION. PCIe and Pliod Link (15): requests made to the device, the ends of requests that the device made, links and routes (R19,
R113, R299, R407, R408, R418 to R429, R476).
-/

namespace Sys2Proof.Machine

/-! ### Requests made to the device (R422 to R424) -/

/-- What a host's request names: a register, or runs of physical addresses under a key. -/
inductive HostAt where
  | reg (die off : Nat)
  | mem (s : State) (runs : List (Nat × Nat)) (key : Nat)
  | busy (s : State)
  | bad

/-- The physical runs of a range of a job's virtual addresses, each page translated and checked (R33, R422). -/
def hostPages (j : Job) (die : Nat) (q : AccKind) (key : Nat) : List (Nat × Nat) → List (Nat × Nat) → State → HostAt
  | acc, [], s => .mem s (joinSpans acc.reverse) key
  | acc, (va, n) :: r, s =>
    match xlateDie s 3 die j.id j.root q va with
    | .wait t _ | .retry t => .busy t
    | .trap _ _ _ => .bad
    | .ok t pa _ _ => hostPages j die q key ((pa, n) :: acc) r t

/-- The target of a request of n bytes; q is the access of R30 for a virtual function. A request of no bytes names its first byte. -/
def hostAt (s : State) (a : BarAddr) (n : Nat) (q : AccKind) : HostAt :=
  if a.bar == 0 then
    if a.func == 0 && n == 8 && a.off % 8 == 0 && a.off < 0x1000000000 && a.off / 0x100000000 < Config.dies then .reg (a.off / 0x100000000) (a.off % 0x100000000) else .bad
  else if a.bar != 2 || 2 ^ 42 < a.off + n then .bad
  else if a.func == 0 then
    match peerOffPa a.off, peerOffPa (a.off + (n - 1)) with
    | some pa, some last => if last == pa + (n - 1) && backed s pa && backed s last then .mem s [(pa, n)] 0 else .bad
    | _, _ => .bad
  else
    let b := ((if a.port then s.vfbind2 else s.vfbind0).toArray.getD (a.func - 1) 0).toNat
    if 64 < a.func || !b.testBit 63 then .bad
    else match s.job (b % 4096) with
      | none => .bad
      | some j =>
        let va := bits b 56 42 * 2 ^ 42 + a.off
        if n == 0 then
          match hostPages j (if a.port then 2 else 0) q j.keyGen [] [(va, 1)] s with
          | .mem t runs key => .mem t (runs.map (fun r => (r.1, 0))) key
          | r => r
        else hostPages j (if a.port then 2 else 0) q j.keyGen [] (cutAt 4096 (n / 4096 + 2) va n) s

/-- An answer to a host. -/
def reply (s : State) (a : BarAddr) (tag : Nat) (st : PcieStatus) (bs : List Byte) : State := s.emit (.completion a.port tag st bs)

/-- Where a run lies: the device's own memory, a link, or neither. -/
inductive RunAt where
  | own
  | link
  | other
  deriving DecidableEq, Repr

def runAt (pa : Nat) : RunAt :=
  match place52 pa with
  | .hbm | .attic _ _ _ => .own
  | .host _ _ | .peer _ _ => .link
  | .pantry _ _ | .mmio _ _ | .unmapped => .other

/-- Read the runs of a request in the device's own memory, filling for class 3 (R398): a part poisoned or not; none while a line is busy. -/
def readRuns (key : Nat) : List (Nat × Nat) → State → Option (State × Bool × List Byte)
  | [], s => some (s, false, [])
  | (pa, n) :: r, s =>
    (cohReadN (some 3) (pieces n) s pa n).bind (fun x =>
      (readRuns key r x.1).map (fun y =>
        (y.1, y.2.1 || rangePoisoned x.1 pa n, homeSeenN key (pieces n) x.1 pa n ++ y.2.2)))

/-- Write them; the flag says whether every run performed (R476). -/
def writeRuns (key : Nat) (data : List Byte) : List (Nat × Nat) → State → Option (State × Bool)
  | [], s => some (s, true)
  | (pa, n) :: r, s =>
    (cohWriteN (pieces n) s pa (sealList key pa (data.take n))).bind (fun x =>
      (writeRuns key (data.drop n) r x.1).map (fun y => (y.1, x.2 && y.2)))

/-- Send every run of a request to its link, or none. -/
def sendRuns (f : State → Nat → Nat → Nat → Option State) : Nat → List (Nat × Nat) → State → Option State
  | _, [], s => some s
  | off, (pa, n) :: r, s => (f s off pa n).bind (sendRuns f (off + n) r)

/-- HOST_READ. What a virtual function reads over several links, or partly over a link, comes back run by run (assumption 103). -/
def execHostRead (a : BarAddr) (size tag : Nat) (s : State) : Out3 :=
  match hostAt s a size { kind := .load } with
  | .busy t => .next t
  | .bad => .next (reply s a tag .ur [])
  | .reg d off =>
    (match regRead s d off with
    | some v => .next (reply s a tag .ok (leBytes 8 v))
    | none => .next (reply s a tag .ur []))
  | .mem t runs key =>
    if runs.any (fun r => runAt r.1 == .other) then .next (reply t a tag .ur [])
    else
      let (own, far) := runs.partition (fun r => runAt r.1 == .own)
      match sendRuns (fun s _ pa n => linkRead s pa n (.forward a.port tag)) 0 far t with
      | none => .next t
      | some t =>
        if own.isEmpty then .next t
        else match readRuns key own t with
          | none => .next s
          | some (t, bad, bs) => .next (if bad then reply t a tag .poisoned [] else reply t a tag .ok bs)

/-- A posted write that does not perform is logged through AER (R424). -/
def dropWrite (s : State) (a : BarAddr) : State := { s with aer := (a.port, a.off) :: s.aer }

/-- A write of a port that leads to another link has not performed yet. -/
def postedOut (s : State) (port : Bool) : Bool :=
  let own (w : StoreFor) : Bool := match w with | .posted p _ => p == port | _ => false
  (s.p0.unacked ++ s.p1.unacked).any (fun x => own x.2) ||
    s.outstanding.any (fun o => match o.what with | .store w => own w | _ => false)

/-- HOST_WRITE: a posted write performs at its home, or is dropped; the writes of a port perform in arrival order (R424). -/
def execHostWrite (a : BarAddr) (data : List Byte) (s : State) : Out3 :=
  let n := data.length
  if n == 0 || postedOut s a.port then .next s
  else match hostAt s a n { kind := .store } with
  | .busy t => .next t
  | .bad => .next (dropWrite s a)
  | .reg d off => .next ((regWrite s d off (BitVec.ofNat 64 (leNat data))).getD (dropWrite s a))
  | .mem t runs key =>
    if runs.any (fun r => runAt r.1 == .other) then .next (dropWrite t a)
    else if runs.all (fun r => runAt r.1 == .own) then
      (match writeRuns key data runs t with
      | none => .next s
      | some (t, true) => .next t
      | some (_, false) => .next (dropWrite s a))
    else
      match sendRuns (fun s off pa n =>
          if runAt pa == .own then (writeRuns key (sliceOf data off n) [(pa, n)] s).map (fun x => if x.2 then x.1 else dropWrite s a)
          else linkWrite s pa (sliceOf data off n) (.posted a.port a.off)) 0 runs t with
      | some t => .next t
      | none => .next s

/-- The operation of an AtomicOp by the codes of R297. -/
def hostOp (kind : AtomicKind) (size operand compare : Nat) : AtomicOp :=
  match kind with
  | .fetchAdd => ⟨0, size, operand, 0⟩
  | .swap => ⟨9, size, operand, 0⟩
  | .cas => ⟨if size == 16 then 12 else 10, size, operand, compare⟩

/-- The operand sizes of the AtomicOps (R418). -/
def hostOpOk (kind : AtomicKind) (size : Nat) : Bool := size == 4 || size == 8 || (kind == .cas && size == 16)

/-- HOST_ATOMICOP. -/
def execHostAtomicop (a : BarAddr) (kind : AtomicKind) (size operand compare tag : Nat) (s : State) : Out3 :=
  let op := hostOp kind size operand compare
  if !hostOpOk kind size || a.bar == 0 then .next (reply s a tag .ur [])
  else if a.off % size != 0 then .next (reply s a tag .ca [])
  else match hostAt s a size { kind := .atomic, size := size, aop := some op.op } with
    | .busy t => .next t
    | .bad | .reg _ _ | .mem _ [] _ => .next (reply s a tag .ur [])
    | .mem t ((pa, _) :: _) key =>
      match place52 pa with
      | .hbm | .attic _ _ _ =>
        (match cohRead t (some 3) pa size with
        | none => .next s
        | some (t1, _) =>
          if homePoisoned t1 pa size then .next (reply t1 a tag .poisoned [])
          else
            let m := homeSeen t1 key pa size
            match cohWrite t1 pa (sealList key pa (leBytes size (amoNew op (leNat m)))) with
            | none => .next s
            | some (t2, _) => .next (reply t2 a tag .ok m))
      | .host port addr =>
        .next ((sendPending t none port (.forward a.port tag) (fun n => .atomicReq port n addr op)).getD s)
      | .peer q off => .next ((sendPending t (some q) false (.forward a.port tag) (fun n => .peerReq q n off (.amo op.op size op.b op.cmp))).getD s)
      | .pantry _ _ | .mmio _ _ | .unmapped => .next (reply t a tag .ur [])

/-! ### What a link's answer does (R407, R408, R420, R421, R427, R428) -/

/-- Why an access over a link failed: a translation cause with its code, or an error of the data. -/
inductive LinkErr where
  | down
  | ecc
  | unbacked
  | amoUr
  | amoCa
  deriving DecidableEq, Repr

def LinkErr.code : LinkErr → Nat
  | .down => tcLinkDown
  | .ecc => tcEccData
  | .unbacked => tcPageAttr
  | .amoUr => tcAmoUr
  | .amoCa => tcAmoCa

/-- The cause of R42 that goes with it, 0 where none does. -/
def LinkErr.cause : LinkErr → Nat
  | .down => 11
  | .unbacked => 10
  | .ecc | .amoUr | .amoCa => 0

/-- INFO of a failed access: the fields of R42 for a translation code, 0 otherwise. -/
def LinkErr.info (e : LinkErr) (lvl kind : Nat) : Nat := if e.cause == 0 then 0 else xinfo e.cause lvl kind

/-- How an access of some use reports a PCIe status (R299, R420). -/
def pcieErr (amo : Bool) : PcieStatus → Option LinkErr
  | .ok => none
  | .ur => some (if amo then .amoUr else .down)
  | .ca => some (if amo then .amoCa else .down)
  | .poisoned => some .ecc

/-- How a peer's status is reported (R428). -/
def peerErr : PeerStatus → Option LinkErr
  | .ok => none
  | .unbacked => some .unbacked
  | .ecc => some .ecc

/-- The access kind of R42 of what an access is for. -/
def Use.kind42 : Use → Nat
  | .load _ _ | .waitv | .pref | .record => 0
  | .store _ _ => 1
  | .amo _ _ => 2
  | .code _ => 3
  | .const => 4

/-- An access ends with its bytes or an error. -/
def endAccess (s : State) (a : Access) (r : List Byte ⊕ LinkErr) : State :=
  completeAccess s a (match r with | .inl bs => .ok bs | .inr e => .err e.code (e.info a.lvl a.use.kind42))

/-- A fill over a link arrives: the vault slot and the L1, where they may keep it, then the access (R113 to R116). -/
def endFill (s : State) (a : Access) (stamp : List Nat) (slot l1 : Bool) (r : List Byte ⊕ LinkErr) : State :=
  match r with
  | .inr e => endAccess s a (.inr e)
  | .inl bs =>
    let data := bs.map (fun b => ({ v := b } : TByte))
    let s := if slot then fillVault s (slotDie s a.pair a.pa) a.line a.cls stamp data else s
    let s := s.l1Drop a.pair a.line [.pc]
    if l1 && l1Room s a.pair then performL1 (l1Put s a.pair ⟨a.line, .pc, [], data, 0, 0, stamp⟩) a [.pc]
    else match a.use with
      | .pref | .const | .code _ => s
      | .load _ _ | .store _ _ | .amo _ _ | .waitv | .record => endAccess s a (.inl (sliceOf bs (a.pa % 128) a.size))

/-- A write over a link is acknowledged, with an error or without (R408). -/
def endStore (s : State) (w : StoreFor) (err : Option LinkErr) : State :=
  match w with
  | .unit a =>
    let va := match a.err with | some e => e.2.1 | none => 0
    let lvl := match a.err with | some e => e.2.2 / 16 % 8 | none => 0
    { s with acks := s.acks ++ [{ a with err := err.map (fun e => (e.code, va, xinfo e.cause lvl 1)) }] }
  | .engine c n =>
    let lvl := match s.cmd c with
      | some x => ((x.sent.find? (fun y => y.1 == n)).map (fun y => y.2.lvl)).getD 0
      | none => 0
    engineAck s c n (err.map (fun e => (e.code, e.info lvl 6)))
  | .signal job tidx lvl =>
    (match err with
    | none => signalDone s job tidx
    | some e =>
      match (s.job job).bind (fun j => j.window.find? (fun t => t.tidx == tidx)) with
      | some t => (match t.kind with | .signal _ addr _ _ => taskFault s job tidx e.code addr (e.info lvl 1) | _ => s)
      | none => s)
  | .posted port off => if err.isSome then { s with aer := (port, off) :: s.aer } else s

/-- The bridge lock of a port goes to the first atomic that waits for it and that its slice still awaits (R181, R421, step 6); it stays free
while no tag is. -/
def passLock (port : Bool) : List Access → State → State
  | [], s => s.setPort port { s.port port with lock := none, lockq := [] }
  | a :: r, s =>
    if !a.live s then passLock port r (amoUncount s a)
    else (emulRead (s.setPort port { s.port port with lock := some a, lockq := r }) a).getD (s.setPort port { s.port port with lock := none, lockq := a :: r })

def releaseLock (s : State) (port : Bool) : State := passLock port (s.port port).lockq s

/-- A lock that no tag was free for is taken once one is. -/
def retryLock (s : State) (port : Bool) : State :=
  if (s.port port).lock.isNone && !(s.port port).lockq.isEmpty then releaseLock s port else s

/-- Step 2 of R421 has ended: the new value goes out, and the read that follows it. An atomic that a freeze has stopped goes no further
(R181). -/
def endEmulRead (s : State) (port : Bool) (a : Access) (r : List Byte ⊕ LinkErr) : State :=
  if !a.live s then releaseLock (amoUncount s a) port
  else match r, a.use, place52 a.pa with
  | .inl bs, .amo _ op, .host p addr =>
    let new := leBytes op.size (amoNew op (leNat bs))
    let t := (dropPc s a.pair a.pa).emit (.memWrite p addr new)
    (sendPending t.bump none p (.emulProbe a bs t.fresh) (fun n => .memRead p n addr 0)).getD t
  | .inr e, _, _ => releaseLock (endAccess s a (.inr e)) port
  | _, _, _ => releaseLock s port

/-- The read of R420 has ended: every write sent up to it is acknowledged. -/
def endProbe (s : State) (port : Bool) (upTo : Nat) (err : Option LinkErr) : State :=
  let x := s.port port
  let done := x.unacked.filter (fun u => u.1 ≤ upTo)
  let t := s.setPort port { x with unacked := x.unacked.filter (fun u => upTo < u.1) }
  done.foldl (fun t u => endStore t u.2 err) t

/-- The end of a request of the device: the bytes, or why it failed. down is how a failed read of R420 and of step 5 of R421 is
reported when no poisoned data came back. -/
def endPending (s : State) (port : Bool) (w : Pending) (r : List Byte ⊕ LinkErr) : State :=
  let probeErr : Option LinkErr := match r with | .inl _ => none | .inr .ecc => some .ecc | .inr _ => some .down
  match w with
  | .access a => endAccess s a r
  | .emulRead a => endEmulRead s port a r
  | .emulProbe a old n =>
    releaseLock (endAccess (endProbe s port n probeErr) a (match probeErr with | none => .inl old | some e => .inr e)) port
  | .probe n => endProbe s port n probeErr
  | .fill a stamp slot l1 => endFill s a stamp slot l1 r
  | .engine c va n lvl =>
    (match r with
    | .inl bs => engineGot s c va n (.inl bs)
    | .inr e => engineGot s c va n (.inr (e.code, e.info lvl 5)))
  | .stale _ _ => s
  | .decode id va lvl =>
    (match r with
    | .inl bs => s.modJob id (fun j => { j with got := j.got ++ [(va, bs)] })
    | .inr e => s.modJob id (fun j => { j with bad := j.bad ++ [(va, e.code, e.info lvl 0)] }))
  | .task id tidx va lvl =>
    let s := match r with
      | .inl bs => s.modTask id tidx (fun t => { t with got := t.got ++ [(va, bs)] })
      | .inr e => s.modTask id tidx (fun t => { t with bad := t.bad ++ [(va, e.code, e.info lvl 0)] })
    readWord s id tidx
  | .store w => endStore s w (match r with | .inl _ => none | .inr e => some e)
  | .forward p tag =>
    (match r with
    | .inl bs => s.emit (.completion p tag .ok bs)
    | .inr .ecc => s.emit (.completion p tag .poisoned [])
    | .inr _ => s.emit (.completion p tag .ur []))

/-- Whether a request is an AMO's, or its first step. -/
def Pending.isAmo : Pending → Bool
  | .access a | .emulRead a => a.use.isAmo
  | .emulProbe _ _ _ | .probe _ | .fill _ _ _ _ | .engine _ _ _ _ | .decode _ _ _ | .task _ _ _ _ | .stale _ _ | .store _ | .forward _ _ => false

/-- The size of the data that the request with a tag asked for, from what was last sent with it. -/
def askedSize (s : State) (peer : Option Nat) (port : Bool) (tag : Nat) : Nat :=
  ((s.out.findSome? (fun o =>
    match o with
    | .memRead p t _ n => if peer.isNone && p == port && t == tag then some n else none
    | .atomicReq p t _ op => if peer.isNone && p == port && t == tag then some op.size else none
    | .peerReq q t _ op => if peer == some q && t == tag then some (match op with | .load n => n | .store _ => 0 | .amo _ n _ _ => n) else none
    | _ => none)).getD 0)

/-- Take the outstanding request with a tag. -/
def takeOutstanding (s : State) (peer : Option Nat) (port : Bool) (tag : Nat) : Option (Pending × State) :=
  (s.outstanding.find? (fun o => o.peer == peer && (peer.isSome || o.port == port) && o.tag == tag)).map
    (fun o => (o.what, { s with outstanding := s.outstanding.filter (fun x => !(x.peer == peer && (peer.isSome || x.port == port) && x.tag == tag)) }))

/-- HOST_COMPLETION: a successful completion whose data has not the size asked for is no completion of the request. -/
def execHostCompletion (port : Bool) (tag : Nat) (status : PcieStatus) (data : List Byte) (s : State) : Out3 :=
  match takeOutstanding s none port tag with
  | none => .next s
  | some (w, t) =>
    match pcieErr w.isAmo status with
    | none => .next (if data.length == askedSize s none port tag then retryLock (endPending t port w (.inl data)) port else s)
    | some e => .next (retryLock (endPending t port w (.inr e)) port)

/-- A request has been outstanding for 50 ms. -/
def overdue (s : State) (port : Bool) (tag : Nat) : Bool :=
  s.outstanding.any (fun o => o.peer.isNone && o.port == port && o.tag == tag && o.since + lapseTicks ≤ s.cycle)

/-- COMPLETION_TIMEOUT: 50 ms have passed (R418, R420). -/
def execCompletionTimeout (port : Bool) (tag : Nat) (s : State) : Out3 :=
  match takeOutstanding s none port tag with
  | none => .next s
  | some (w, t) => .next (if overdue s port tag then retryLock (endPending t port w (.inr .down)) port else s)

/-- Every request outstanding that meets a test ends with LINK_DOWN. -/
def endAll (s : State) (test : Outstanding → Bool) : State :=
  let gone := s.outstanding.filter test
  let s := { s with outstanding := s.outstanding.filter (fun o => !test o) }
  gone.foldl (fun t o => endPending t o.port o.what (.inr .down)) s

/-- PCIE_LINK_DOWN: the port's link is down; what is outstanding on it ends, and the atomics that wait for its lock. -/
def execPcieLinkDown (port : Bool) (s : State) : Out3 :=
  let x := s.port port
  let t := s.setPort port { x with up := false, lockq := [] }
  let t := x.lockq.foldl (fun t a => endAccess t a (.inr .down)) t
  .next (endAll t (fun o => o.peer.isNone && o.port == port))

/-- PCIE_LINK_UP (R418): Gen4 to Gen6 and x4, x8 or x16; other rates and widths leave the link down. A disabled P1 stays down. -/
def execPcieLinkUp (port : Bool) (gen width : Nat) (s : State) : Out3 :=
  let x := s.port port
  if (gen == 4 || gen == 5 || gen == 6) && (width == 4 || width == 8 || width == 16) && !(port && x.mode == .disabled) then
    .next (s.setPort port { x with up := true, gen := gen, lanes := width })
  else .next s

/-! ### Pliod Link (R19, R427 to R429) -/

/-- A peer's request at its home: the answer's status and bytes; none while a line is busy. -/
def peerServe (s : State) (pa n : Nat) (op : PeerOp) : Option (State × PeerStatus × List Byte) :=
  match op with
  | .load _ => (readRuns 0 [(pa, n)] s).map (fun r => if r.2.1 then (r.1, .ecc, []) else (r.1, .ok, r.2.2))
  | .store data => (cohWriteN (pieces n) s pa (sealList 0 pa data)).map (fun r => if r.2 then (r.1, .ok, []) else (s, .ecc, []))
  | .amo o _ b cmp =>
    (readRuns 0 [(pa, n)] s).bind (fun r =>
      if r.2.1 then some (r.1, .ecc, [])
      else
        let old := r.2.2
        (cohWriteN (pieces n) r.1 pa (sealList 0 pa (leBytes n (amoNew ⟨o, n, b, cmp⟩ (leNat old))))).map (fun x => (x.1, .ok, old)))

/-- PEER_REQUEST. -/
def execPeerRequest (peer tag off : Nat) (op : PeerOp) (s : State) : Out3 :=
  let n := match op with | .load n => n | .store bs => bs.length | .amo _ n _ _ => n
  let answer (t : State) (st : PeerStatus) (bs : List Byte) : State := t.emit (.peerReply peer tag st bs)
  match peerOffPa off, peerOffPa (off + n - 1) with
  | some pa, some last =>
    if n == 0 || last != pa + (n - 1) || !backed s pa || !backed s last then .next (answer s .unbacked [])
    else (match peerServe s pa n op with
      | none => .next s
      | some (t, st, bs) => .next (answer t st bs))
  | _, _ => .next (answer s .unbacked [])

/-- PEER_RESPONSE. -/
def execPeerResponse (peer tag : Nat) (status : PeerStatus) (data : List Byte) (s : State) : Out3 :=
  match takeOutstanding s (some peer) false tag with
  | none => .next s
  | some (w, t) =>
    match peerErr status with
    | none => .next (if data.length == askedSize s (some peer) false tag then endPending t false w (.inl data) else s)
    | some e => .next (endPending t false w (.inr e))

/-- ROUTE_FAILURE. -/
def execRouteFailure (peer : Nat) (s : State) : Out3 :=
  let t := { s with fw := { s.fw with routes := s.fw.routes.filter (fun q => q != peer) } }
  .next (endAll t (fun o => o.peer == some peer))

/-- ROUTE_INSTALL: a leader command; an older epoch is refused (R432). -/
def execRouteInstall (epoch peer : Nat) (s : State) : Out3 :=
  if epoch < s.fw.epoch || s.fw.routes.contains peer then .next s
  else .next { s with fw := { s.fw with routes := peer :: s.fw.routes } }

end Sys2Proof.Machine
end

