-- ==== Sys2Proof/Machine/Firmware.lean ====
section
/-!
DEFINITION. Firmware, security and reliability (16): boot, the lease and heartbeats, attestation, storage errors, fatal errors and the
other commands of the die controllers (R22, R81, R88, R250, R419, R425, R426, R432 to R441, R476).
-/

namespace Sys2Proof.Machine

/-! ### Boot (R81, R419, R434) -/

/-- The lowest-numbered live die controller. -/
def lowestLive (live : Nat → Bool) : Option Nat := (range 0 4).find? live

def portMode (m : Nat) : PortMode := if m == 0 then .upstream else if m == 1 then .root else .disabled

/-- What a die controller of the image is offered. -/
def bootDie (b : BootImage) (d : Nat) : BootDie := if d == 0 then b.die0 else if d == 1 then b.die1 else if d == 2 then b.die2 else b.die3

/-- Steps 1 to 3 of the boot of a die: an image no older than MINSVN allows, whose signature verifies under an unrevoked root key of the
fuses, and a decode table that verifies too (R250, R434). -/
def bootsDie (f : Firmware) (b : BootImage) (d : Nat) : Bool :=
  let x := bootDie b d
  f.minsvn ≤ b.svn && (range 0 4).any (fun i => !f.revoked.getLsbD i && f.rootKeys.toArray.getD i 0 == Config.sm3 x.key) &&
    Config.sm2Verifies x.key (Config.sm3 x.image) x.sig && Config.sm2Verifies x.key (Config.sm3 x.table) x.tableSig

/-- Which dies boot. -/
def bootsOf (f : Firmware) (b : BootImage) : BitVec 4 :=
  BitVec.ofNat 4 (b2n (bootsDie f b 0) + 2 * b2n (bootsDie f b 1) + 4 * b2n (bootsDie f b 2) + 8 * b2n (bootsDie f b 3))

/-- What the measurements of a boot measure (R435): the ROM, the image with its SVN, the decode table, the fuse configuration; the image and
the table are those of the leader (assumption 7). -/
def bootMeasured (f : Firmware) (b : BootImage) (leader locgib p1mode : Nat) : List (List Nat) :=
  let x := bootDie b leader
  [[], [x.image, b.svn], [x.table], [f.minsvn, f.revoked.toNat, locgib, p1mode]]

/-- MODULE_RESET: every register takes its reset value, the four die controllers boot. HBM keeps its bytes, and every mark stays (R88, R476);
step 4 of R434 clears the attic of a die that boots, and loads LOCGIB and the P1 mode where one does; the fuses stay. -/
def execModuleReset (b : BootImage) (s : State) : Out3 :=
  let up := bootsOf s.fw b
  let keep {α : Type} (c : Nat × α) : Bool := match place52 c.1 with | .hbm => true | .attic d _ _ => !up.getLsbD d | _ => false
  let any := up != 0
  let leader := (lowestLive up.getLsbD).getD 0
  let locgib := if any then min b.locgib 32 else 0
  let p1mode := if any then b.p1mode else 0
  .next { State.reset with
    schedule := s.schedule, turn := s.turn, fresh := s.fresh, mem := s.mem.filter keep, keys := s.keys.filter keep
    poison := s.poison, out := s.out, ras := s.ras
    p1 := { State.reset.p1 with mode := portMode p1mode }
    fw := { State.reset.fw with
      boots := s.fw.boots + 1, minsvn := s.fw.minsvn, rootKeys := s.fw.rootKeys, revoked := s.fw.revoked, keyCount := s.fw.keyCount
      live := up, booted := up, ready := up == 0xF#4, leader := leader, epoch := if any then 1 else 0, leaseTill := lapseTicks
      measured := bootMeasured s.fw b leader locgib p1mode
      locgib := locgib, dumpBase := if any then b.dumpBase % 2 ^ 22 else 0, imageSvn := b.svn, commit := b.commit } }

/-! ### The lease and the heartbeats (R432) -/

def State.modFw (s : State) (f : Firmware → Firmware) : State := { s with fw := f s.fw }

/-- LEASE_RENEW: by the leader, while its lease stands. -/
def execLeaseRenew (die : Nat) (s : State) : Out3 :=
  .next (if die == s.fw.leader && s.alive die && s.fw.epoch != 0 && s.cycle < s.fw.leaseTill then
    s.modFw (fun f => { f with leaseTill := s.cycle + lapseTicks }) else s)

/-- LEASE_LAPSE: the lowest live die controller takes the lease, EPOCH rises. -/
def execLeaseLapse (s : State) : Out3 :=
  match lowestLive s.alive with
  | none => .next s
  | some d => .next (if s.cycle < s.fw.leaseTill then s
      else s.modFw (fun f => { f with leader := d, epoch := (f.epoch + 1) % 2 ^ 32, leaseTill := s.cycle + lapseTicks }))

/-- HEARTBEAT_RENEW: by a die controller that has completed boot. -/
def execHeartbeatRenew (die : Nat) (s : State) : Out3 :=
  .next (if s.fw.booted.getLsbD die then
    s.modFw (fun f => { f with beats := f.beats.setIfInBounds die s.cycle, live := f.live ||| BitVec.ofNat 4 (2 ^ die) }) else s)

/-- HEARTBEAT_LAPSE: 50 ms without renewal; the controller stays not live until it renews. -/
def execHeartbeatLapse (die : Nat) (s : State) : Out3 :=
  .next (if s.fw.live.getLsbD die && s.fw.beats.toArray.getD die 0 + lapseTicks ≤ s.cycle then
    s.modFw (fun f => { f with live := f.live &&& ~~~ (BitVec.ofNat 4 (2 ^ die)) }) else s)

/-- Whether a raise of MINSVN is due: the leader holds its lease, and a commit image has booted on all four dies (R434). -/
def raiseDue (s : State) : Bool := leaseStands s && s.fw.commit && s.fw.booted == 0xF#4

/-- The leader sends its command to raise MINSVN, which carries its epoch (R432). -/
def sendRaise (s : State) : State := if raiseDue s then s.modFw (fun f => { f with raise := some f.epoch }) else s

/-- MINSVN_RAISE (R432, R434): the command takes effect, or, where it carries an older epoch, is refused. -/
def execMinsvnRaise (s : State) : Out3 :=
  match s.fw.raise with
  | none => .next s
  | some e =>
    .next (s.modFw (fun f => { f with raise := none, minsvn := if raiseDue s && s.fw.epoch ≤ e then max f.minsvn f.imageSvn else f.minsvn }))

/-! ### Leader commands (R426, R425, R432) -/

/-- PEERID_ASSIGN. -/
def execPeeridAssign (epoch id : Nat) (s : State) : Out3 :=
  .next (if epoch < s.fw.epoch then s else s.modFw (fun f => { f with peerValid := true, peerId := id % 256 }))

/-- IDE_STREAM_CONFIGURE. -/
def execIdeStreamConfigure (port : Bool) (epoch stream keyId : Nat) (s : State) : Out3 :=
  .next (if epoch < s.fw.epoch then s
    else s.setPort port { s.port port with ide := (stream, keyId) :: (s.port port).ide.filter (fun x => x.1 != stream) })

/-! ### Attestation (R435) -/

/-- A port that carries a responder. -/
def responder (s : State) (port : Bool) : Bool := !port || s.p1.mode == .upstream

/-- An answer of the responder; the session moves on. -/
def spdmSay (s : State) (port : Bool) (step kind : Nat) (data : List Nat) : Out3 :=
  .next (if responder s port then (s.setPort port { s.port port with spdm := step }).emit (.spdm port kind data) else s)

/-- The kind of an error answer. -/
def spdmError : Nat := 15

/-- GET_VERSION: SPDM 1.2; it starts a session anew. -/
def execGetVersion (port : Bool) (s : State) : Out3 := spdmSay s port 1 0 [0x12]

/-- GET_CAPABILITIES. -/
def execGetCapabilities (port : Bool) (s : State) : Out3 := spdmSay s port 2 1 []

/-- NEGOTIATE_ALGORITHMS: SM2 and SM3 only. -/
def execNegotiateAlgorithms (port : Bool) (sm2 sm3 : Bool) (s : State) : Out3 :=
  if sm2 && sm3 then spdmSay s port 3 2 [1, 1] else spdmSay s port (s.port port).spdm spdmError []

/-- GET_DIGESTS. -/
def execGetDigests (port : Bool) (s : State) : Out3 := spdmSay s port (s.port port).spdm 3 [Config.certDigest.toNat]

/-- GET_CERTIFICATE. -/
def execGetCertificate (port : Bool) (off len : Nat) (s : State) : Out3 :=
  spdmSay s port (s.port port).spdm 4 ((range off len).map (fun i => (Config.certByte i).toNat))

/-- CHALLENGE: a signature by the device key. -/
def execChallenge (port : Bool) (nonce : Nat) (s : State) : Out3 :=
  spdmSay s port (s.port port).spdm 5 [(Config.signature s.fw.boots nonce).toNat]

/-- GET_MEASUREMENTS: the four measurements, each of what this boot has measured. -/
def execGetMeasurements (port : Bool) (index : Nat) (s : State) : Out3 :=
  if 1 ≤ index && index ≤ 4 then spdmSay s port (s.port port).spdm 6 [(Config.measurement index (s.fw.measured.getD (index - 1) [])).toNat]
  else spdmSay s port (s.port port).spdm spdmError []

/-- KEY_EXCHANGE. -/
def execKeyExchange (port : Bool) (share : Nat) (s : State) : Out3 :=
  spdmSay (s.setPort port { s.port port with share := share }) port 4 7 [(Config.keyShare s.fw.boots share).toNat]

/-- FINISH: the session stands when the MAC is right. -/
def execFinish (port : Bool) (mac : Nat) (s : State) : Out3 :=
  if (s.port port).spdm == 4 && Config.finishMacOk s.fw.boots (s.port port).share mac then spdmSay s port 5 8 []
  else spdmSay s port (s.port port).spdm spdmError []

/-! ### Storage errors (R437, R438, R476) -/

/-- The ECC unit that holds an address. -/
def eccUnit (pa : Nat) : Nat := pa / eccSize pa * eccSize pa

/-- Mark a unit of memory poisoned. -/
def State.addPoison (s : State) (pa : Nat) : State :=
  let u := eccUnit pa
  { s with poison := if s.poison.contains u then s.poison else insertBy (fun a b => decide (a < b)) u s.poison }

/-- Mark something of a resident, with a pair error on the RAS ring. -/
def markResident (s : State) (pair slot : Nat) (f : UnitSt → UnitSt) : State :=
  match s.units.find? (fun u => u.occupies == some (pair, slot)) with
  | none => s
  | some u => (s.putUnit (f u)).rasLog (pantryBase pair) 3

/-- A 64-bit unit of a line's bytes is marked. -/
def markUnit (unit : Nat) (l : List TByte) : List TByte :=
  l.zipIdx.map (fun x => if x.2 / 8 == unit then { x.1 with bad := true } else x.1)

/-- An uncorrectable error in a line to which a sector under way has still to write is detected once the sector has been written (R366,
assumption 89). -/
def sectorHolds (s : State) (line : Nat) : Bool := s.cmds.any (fun (c : Cmd) => c.begun && c.landings.any (fun l => lineOf l.pa == line))

/-- A clean line of a pair's caches is fetched again when it is next read (R437): copies that equal the home memory stay as they are, others
go. -/
def refetch (s : State) (pair line : Nat) : State :=
  let clean (l : L1Line) : Bool := l.line == line && l.dirty == 0 && (l.st == .pc || l.st == .mg)
  s.modPair pair (fun p => { p with
    l1 := p.l1.filter (fun l => !clean l)
    cc := p.cc.filter (fun l => l.line != line)
    l1i := p.l1i.filter (fun l => lineOf l.pa != line) })

/-- An uncorrectable error in a line of an L1 or a vault cache that has dirty words marks the unit (R437). -/
def markL1 (s : State) (pair line unit : Nat) : State :=
  s.modPair pair (fun p => { p with l1 := mapIf (fun (l : L1Line) => l.line == line && l.dirty != 0) (fun l => { l with data := markUnit unit l.data }) p.l1 })

def markVault (s : State) (die line unit : Nat) : State :=
  s.modDie die (fun x => { x with vlines := mapIf (fun (v : VLine) => v.line == line && v.dirty != 0) (fun v => { v with data := markUnit unit v.data }) x.vlines })

/-- ECC_ERROR_DETECTED. -/
def execEccErrorDetected (site : EccSite) (s : State) : Out3 :=
  match site with
  | .corrected pa =>
    let f := pa / 4096
    let n := ((s.corrected.find? (fun x => x.1 == f)).map Prod.snd).getD 0 + 1
    let s := { s with corrected := (f, n) :: s.corrected.filter (fun x => x.1 != f) }
    .next (if n == 8 then s.rasLog (f * 4096) 2 else s)
  | .cleanLine pair line => .next (refetch s pair line)
  | .cleanVault die line => .next (s.modDie die (fun x => { x with vlines := x.vlines.filter (fun (v : VLine) => v.line != line || v.dirty != 0) }))
  | .cleanCode die line => .next (s.modDie die (fun x => { x with l2i := x.l2i.filter (fun l => lineOf l.pa != line) }))
  | .dirtyLine pair line unit => .next (if sectorHolds s line then s else (markL1 s pair line unit).rasLog (128 * line + 8 * (unit % 16)) 3)
  | .dirtyVault die line unit => .next (if sectorHolds s line then s else (markVault s die line unit).rasLog (128 * line + 8 * (unit % 16)) 1)
  | .memory pa =>
    match place52 pa with
    | .hbm | .attic _ _ _ => .next (if sectorHolds s (lineOf pa) then s else (s.addPoison pa).rasLog (eccUnit pa) 1)
    | .pantry _ _ => .next (if sectorHolds s (lineOf pa) then s else (s.addPoison pa).rasLog (eccUnit pa) 3)
    | .host _ _ | .peer _ _ | .mmio _ _ | .unmapped => .next s
  | .vreg pair slot reg unit =>
    .next (markResident s pair slot (fun u => u.setV reg (fun v => { v with poison := v.poison ||| BitVec.ofNat 64 (2 ^ (unit % 64)) })))
  | .tile pair slot tile unit =>
    .next (markResident s pair slot (UnitSt.setTile tile (fun t => { t with poison := if t.poison.contains unit then t.poison else unit :: t.poison })))
  | .scale pair slot side entry =>
    let e := (side, entry / 3)
    .next (markResident s pair slot (fun u => u.modCtx (fun x => { x with scalePoison := e :: x.scalePoison.filter (fun y => y != e) })))
  | .mreg pair slot reg unit =>
    let e := (reg, unit % 2)
    .next (markResident s pair slot (fun u => u.modCtx (fun x => { x with mpoison := if 8 ≤ reg then x.mpoison else e :: x.mpoison.filter (fun y => y != e) })))
  | .creg pair slot reg =>
    .next (markResident s pair slot (fun u => u.modCtx (fun x => { x with cpoison := if reg == 0 || 64 ≤ reg then x.cpoison else reg :: x.cpoison.filter (fun r => r != reg) })))
  | .sreg pair slot reg =>
    .next (markResident s pair slot (fun u => u.modCtx (fun x => { x with spoison := if 32 ≤ reg then x.spoison else reg :: x.spoison.filter (fun r => r != reg) })))

/-! ### The RAS rings (R438) -/

/-- A driver names a ring to a die controller's firmware: 16-byte entries in HBM, a whole number of lines from a line on (assumption 104). -/
def nameRing (s : State) (die base size : Nat) : State :=
  if die < Config.dies && base % 128 == 0 && size != 0 && isHbm base && isHbm (base + 16 * size - 1) then
    s.modFw (fun f => { f with rasRings := f.rasRings.setIfInBounds die (some ⟨base, size, 0⟩) })
  else s

/-- A die controller writes its oldest entry to its ring: the address, then the kind; it waits while no ring is named or the line is busy. -/
def writeRasEntry (s : State) (die : Nat) : State :=
  match findIdxVal (fun (e : Nat × Nat × Nat) => e.1 == die) s.rasq 0, s.fw.rasRings.toArray.getD die none with
  | some (i, (_, pa, kind)), some r =>
    match devWrite s (r.base + 16 * (r.count % r.size)) (leBytes 8 pa ++ leBytes 8 kind) with
    | none => s
    | some t => { t with rasq := dropIdx t.rasq i }.modFw (fun f => { f with rasRings := f.rasRings.setIfInBounds die (some { r with count := r.count + 1 }) })
  | _, _ => s

/-! ### Fatal errors and the dump (R440, R441) -/

/-- What a line of a vault cache holds of a range that is written over. -/
def VLine.rewrite (base : Nat) (bs : List TByte) (v : VLine) : VLine :=
  if overlap (128 * v.line) 128 base bs.length then
    { v with data := v.data.zipIdx.map (fun x => (if 128 * v.line + x.2 < base then none else bs[128 * v.line + x.2 - base]?).getD x.1) }
  else v

/-- The dump ends: its bytes, also in a vault cache's lines of the region (R93), DUMPED, vector 0 of the physical function. -/
def endDump (s : State) (whole : Bool) : State :=
  let n := 2 * s.fw.boots + b2n whole
  let base := s.fw.dumpBase * 2 ^ 30
  let bs := (range 0 (min (Config.dumpSize n) (2 ^ 30))).map (Config.dumpByte n)
  let s := if isHbm base then
      let new := sealList 0 base bs
      let s := (s.clearPoison base bs.length).setBytes base new
      { s with dies := s.dies.map (fun (d : Die) => { d with vlines := d.vlines.map (VLine.rewrite base new) }) }
    else s
  (s.modFw (fun f => { f with dumping := false, dumped := true, dumpWhole := whole })).interrupt 0 0

/-- A fatal error: nothing of the pairs moves any more, the dump starts; one during the dump ends it. -/
def goFatal (s : State) : State :=
  if s.fw.dumping then endDump s false
  else if s.fw.fatal then s
  else s.modFw (fun f => { f with fatal := true, dumping := (range 0 4).any s.alive })

/-- FATAL_ERROR. -/
def execFatalError (site : FatalSite) (s : State) : Out3 :=
  match site with
  | .dieController d => .next (goFatal (s.modFw (fun f => { f with live := f.live &&& ~~~ (BitVec.ofNat 4 (2 ^ d)) })))
  | .snoopFilter _ | .directory _ | .bridge _ => .next (goFatal s)

/-- DUMP_COMPLETE. -/
def execDumpComplete (whole : Bool) (s : State) : Out3 := .next (if s.fw.dumping then endDump s whole else s)

/-- CRITICAL_TEMPERATURE takes the fatal path. -/
def execCriticalTemperature (s : State) : Out3 := .next (goFatal s)

/-- THROTTLE sets THROT; the idle clocks are timing only. -/
def execThrottle (s : State) : Out3 := .next (s.modFw (fun f => { f with throt := true }))

/-- THROTTLE_RELEASE. -/
def execThrottleRelease (s : State) : Out3 := .next (s.modFw (fun f => { f with throt := false }))

end Sys2Proof.Machine
end

