-- ==== Sys2Proof/Machine/Dispatch.lean ====
section
/-!
DEFINITION. One arm per instruction: the call of its meaning.
-/

namespace Sys2Proof.Machine

def exec (i : Instr) (s : State) : Host.Outcome State Fault Refusal :=
  match i with
  | .illegal => Sys2Proof.Machine.execIllegal s
  | .add f => Sys2Proof.Machine.execAdd f s
  | .sub f => Sys2Proof.Machine.execSub f s
  | .and f => Sys2Proof.Machine.execAnd f s
  | .or f => Sys2Proof.Machine.execOr f s
  | .xor f => Sys2Proof.Machine.execXor f s
  | .andn f => Sys2Proof.Machine.execAndn f s
  | .sll f => Sys2Proof.Machine.execSll f s
  | .srl f => Sys2Proof.Machine.execSrl f s
  | .sra f => Sys2Proof.Machine.execSra f s
  | .ror f => Sys2Proof.Machine.execRor f s
  | .slt f => Sys2Proof.Machine.execSlt f s
  | .sltu f => Sys2Proof.Machine.execSltu f s
  | .seq f => Sys2Proof.Machine.execSeq f s
  | .min f => Sys2Proof.Machine.execMin f s
  | .max f => Sys2Proof.Machine.execMax f s
  | .minu f => Sys2Proof.Machine.execMinu f s
  | .maxu f => Sys2Proof.Machine.execMaxu f s
  | .mul f => Sys2Proof.Machine.execMul f s
  | .mulh f => Sys2Proof.Machine.execMulh f s
  | .mulhu f => Sys2Proof.Machine.execMulhu f s
  | .div f => Sys2Proof.Machine.execDiv f s
  | .divu f => Sys2Proof.Machine.execDivu f s
  | .rem f => Sys2Proof.Machine.execRem f s
  | .remu f => Sys2Proof.Machine.execRemu f s
  | .clz f => Sys2Proof.Machine.execClz f s
  | .ctz f => Sys2Proof.Machine.execCtz f s
  | .popc f => Sys2Proof.Machine.execPopc f s
  | .addi f => Sys2Proof.Machine.execAddi f s
  | .andi f => Sys2Proof.Machine.execAndi f s
  | .ori f => Sys2Proof.Machine.execOri f s
  | .xori f => Sys2Proof.Machine.execXori f s
  | .slli f => Sys2Proof.Machine.execSlli f s
  | .srli f => Sys2Proof.Machine.execSrli f s
  | .srai f => Sys2Proof.Machine.execSrai f s
  | .slti f => Sys2Proof.Machine.execSlti f s
  | .sltiu f => Sys2Proof.Machine.execSltiu f s
  | .lih f => Sys2Proof.Machine.execLih f s
  | .addpc f => Sys2Proof.Machine.execAddpc f s
  | .bEq f => Sys2Proof.Machine.execBEq f s
  | .bNe f => Sys2Proof.Machine.execBNe f s
  | .bLt f => Sys2Proof.Machine.execBLt f s
  | .bGe f => Sys2Proof.Machine.execBGe f s
  | .bLtu f => Sys2Proof.Machine.execBLtu f s
  | .bGeu f => Sys2Proof.Machine.execBGeu f s
  | .jal f => Sys2Proof.Machine.execJal f s
  | .jalr f => Sys2Proof.Machine.execJalr f s
  | .ld f => Sys2Proof.Machine.execLd f s
  | .lds f => Sys2Proof.Machine.execLds f s
  | .st f => Sys2Proof.Machine.execSt f s
  | .csrr f => Sys2Proof.Machine.execCsrr f s
  | .csrw f => Sys2Proof.Machine.execCsrw f s
  | .trap f => Sys2Proof.Machine.execTrap f s
  | .yield f => Sys2Proof.Machine.execYield f s
  | .exit => Sys2Proof.Machine.execExit s
  | .exitComplete pair slot => Sys2Proof.Machine.execExitComplete pair slot s
  | .yieldEnd pair slot => Sys2Proof.Machine.execYieldEnd pair slot s
  | .ldo f => Sys2Proof.Machine.execLdo f s
  | .sto f => Sys2Proof.Machine.execSto f s
  | .amo f => Sys2Proof.Machine.execAmo f s
  | .fence f => Sys2Proof.Machine.execFence f s
  | .waitv f => Sys2Proof.Machine.execWaitv f s
  | .waitvWake pair slot => Sys2Proof.Machine.execWaitvWake pair slot s
  | .waitvReread pair slot => Sys2Proof.Machine.execWaitvReread pair slot s
  | .waitvTimeout pair slot => Sys2Proof.Machine.execWaitvTimeout pair slot s
  | .icinv f => Sys2Proof.Machine.execIcinv f s
  | .cinv f => Sys2Proof.Machine.execCinv f s
  | .pref f => Sys2Proof.Machine.execPref f s
  | .lea f => Sys2Proof.Machine.execLea f s
  | .mzip f => Sys2Proof.Machine.execMzip f s
  | .munz f => Sys2Proof.Machine.execMunz f s
  | .bfx f => Sys2Proof.Machine.execBfx f s
  | .bfi f => Sys2Proof.Machine.execBfi f s
  | .chp f => Sys2Proof.Machine.execChp f s
  | .chpm f => Sys2Proof.Machine.execChpm f s
  | .chutePushResume pair slot => Sys2Proof.Machine.execChutePushResume pair slot s
  | .dwpop f => Sys2Proof.Machine.execDwpop f s
  | .dwpopResume pair slot => Sys2Proof.Machine.execDwpopResume pair slot s
  | .qfence f => Sys2Proof.Machine.execQfence f s
  | .qfenceComplete pair slot => Sys2Proof.Machine.execQfenceComplete pair slot s
  | .tenq f => Sys2Proof.Machine.execTenq f s
  | .cpy f => Sys2Proof.Machine.execCpy f s
  | .gath f => Sys2Proof.Machine.execGath f s
  | .scat f => Sys2Proof.Machine.execScat f s
  | .scata f => Sys2Proof.Machine.execScata f s
  | .stair f => Sys2Proof.Machine.execStair f s
  | .cntset f => Sys2Proof.Machine.execCntset f s
  | .cntadd f => Sys2Proof.Machine.execCntadd f s
  | .waitc f => Sys2Proof.Machine.execWaitc f s
  | .waitcComplete pair slot => Sys2Proof.Machine.execWaitcComplete pair slot s
  | .subs f => Sys2Proof.Machine.execSubs f s
  | .unsub f => Sys2Proof.Machine.execUnsub f s
  | .engq f => Sys2Proof.Machine.execEngq f s
  | .engineQueueSlotFree pair slot => Sys2Proof.Machine.execEngineQueueSlotFree pair slot s
  | .storeBufferSpace pair slot => Sys2Proof.Machine.execStoreBufferSpace pair slot s
  | .vfadd f => Sys2Proof.Machine.execVfadd f s
  | .vfsub f => Sys2Proof.Machine.execVfsub f s
  | .vfmul f => Sys2Proof.Machine.execVfmul f s
  | .vfma f => Sys2Proof.Machine.execVfma f s
  | .vfms f => Sys2Proof.Machine.execVfms f s
  | .vfnma f => Sys2Proof.Machine.execVfnma f s
  | .vfmin f => Sys2Proof.Machine.execVfmin f s
  | .vfmax f => Sys2Proof.Machine.execVfmax f s
  | .vfcmp f => Sys2Proof.Machine.execVfcmp f s
  | .vfspec f => Sys2Proof.Machine.execVfspec f s
  | .vfdiv f => Sys2Proof.Machine.execVfdiv f s
  | .viadd f => Sys2Proof.Machine.execViadd f s
  | .visub f => Sys2Proof.Machine.execVisub f s
  | .vimul f => Sys2Proof.Machine.execVimul f s
  | .vimad f => Sys2Proof.Machine.execVimad f s
  | .vimin f => Sys2Proof.Machine.execVimin f s
  | .vimax f => Sys2Proof.Machine.execVimax f s
  | .vand f => Sys2Proof.Machine.execVand f s
  | .vor f => Sys2Proof.Machine.execVor f s
  | .vxor f => Sys2Proof.Machine.execVxor f s
  | .vshl f => Sys2Proof.Machine.execVshl f s
  | .vshr f => Sys2Proof.Machine.execVshr f s
  | .vsar f => Sys2Proof.Machine.execVsar f s
  | .vicmp f => Sys2Proof.Machine.execVicmp f s
  | .vibit f => Sys2Proof.Machine.execVibit f s
  | .mop f => Sys2Proof.Machine.execMop f s
  | .mcnt f => Sys2Proof.Machine.execMcnt f s
  | .mfirst f => Sys2Proof.Machine.execMfirst f s
  | .mmov f => Sys2Proof.Machine.execMmov f s
  | .vcvt f => Sys2Proof.Machine.execVcvt f s
  | .vmov f => Sys2Proof.Machine.execVmov f s
  | .vbcast f => Sys2Proof.Machine.execVbcast f s
  | .vsel f => Sys2Proof.Machine.execVsel f s
  | .vlane f => Sys2Proof.Machine.execVlane f s
  | .vins f => Sys2Proof.Machine.execVins f s
  | .vxch f => Sys2Proof.Machine.execVxch f s
  | .vrot f => Sys2Proof.Machine.execVrot f s
  | .vshuf f => Sys2Proof.Machine.execVshuf f s
  | .vred f => Sys2Proof.Machine.execVred f s
  | .vscan f => Sys2Proof.Machine.execVscan f s
  | .vcomp f => Sys2Proof.Machine.execVcomp f s
  | .vexpd f => Sys2Proof.Machine.execVexpd f s
  | .vprune f => Sys2Proof.Machine.execVprune f s
  | .vld f => Sys2Proof.Machine.execVld f s
  | .vst f => Sys2Proof.Machine.execVst f s
  | .vldx f => Sys2Proof.Machine.execVldx f s
  | .vstx f => Sys2Proof.Machine.execVstx f s
  | .vldc f => Sys2Proof.Machine.execVldc f s
  | .pfill f => Sys2Proof.Machine.execPfill f s
  | .pmark f => Sys2Proof.Machine.execPmark f s
  | .salu f => Sys2Proof.Machine.execSalu f s
  | .sli f => Sys2Proof.Machine.execSli f s
  | .sst f => Sys2Proof.Machine.execSst f s
  | .sld f => Sys2Proof.Machine.execSld f s
  | .dwpush f => Sys2Proof.Machine.execDwpush f s
  | .dwpushResume pair slot => Sys2Proof.Machine.execDwpushResume pair slot s
  | .mma f => Sys2Proof.Machine.execMma f s
  | .mmas f => Sys2Proof.Machine.execMmas f s
  | .mzero f => Sys2Proof.Machine.execMzero f s
  | .msta f => Sys2Proof.Machine.execMsta f s
  | .mlda f => Sys2Proof.Machine.execMlda f s
  | .mscl f => Sys2Proof.Machine.execMscl f s
  | .mrdv f => Sys2Proof.Machine.execMrdv f s
  | .vgrab f => Sys2Proof.Machine.execVgrab f s
  | .vgrabGrant pair => Sys2Proof.Machine.execVgrabGrant pair s
  | .vdrop f => Sys2Proof.Machine.execVdrop f s
  | .dnop f => Sys2Proof.Machine.execDnop f s
  | .chutePop pair slot => Sys2Proof.Machine.execChutePop pair slot s
  | .lineStateWaitEnd pair slot => Sys2Proof.Machine.execLineStateWaitEnd pair slot s
  | .registerEmptyWaitEnd pair slot => Sys2Proof.Machine.execRegisterEmptyWaitEnd pair slot s
  | .matrixQueueSpace pair slot => Sys2Proof.Machine.execMatrixQueueSpace pair slot s
  | .matrixCommandStart pair => Sys2Proof.Machine.execMatrixCommandStart pair s
  | .matrixCommandComplete pair => Sys2Proof.Machine.execMatrixCommandComplete pair s
  | .engineCommandStart id => Sys2Proof.Machine.execEngineCommandStart id s
  | .engineSector id => Sys2Proof.Machine.execEngineSector id s
  | .engineBytesLand id k => Sys2Proof.Machine.execEngineBytesLand id k s
  | .pickerRowAccess id k => Sys2Proof.Machine.execPickerRowAccess id k s
  | .engineCommandComplete id => Sys2Proof.Machine.execEngineCommandComplete id s
  | .subsAccept id => Sys2Proof.Machine.execSubsAccept id s
  | .unsubProcess pair slot => Sys2Proof.Machine.execUnsubProcess pair slot s
  | .mirrorUpdate sub => Sys2Proof.Machine.execMirrorUpdate sub s
  | .storeBufferDrain pair slot => Sys2Proof.Machine.execStoreBufferDrain pair slot s
  | .storeAck k => Sys2Proof.Machine.execStoreAck k s
  | .pageWalk die => Sys2Proof.Machine.execPageWalk die s
  | .snoopFilterRequest die k => Sys2Proof.Machine.execSnoopFilterRequest die k s
  | .uncachedAccess die k => Sys2Proof.Machine.execUncachedAccess die k s
  | .rds src home => Sys2Proof.Machine.execRds src home s
  | .rdm src home => Sys2Proof.Machine.execRdm src home s
  | .upg src home => Sys2Proof.Machine.execUpg src home s
  | .wbm src home => Sys2Proof.Machine.execWbm src home s
  | .evicte src home => Sys2Proof.Machine.execEvicte src home s
  | .invack src home => Sys2Proof.Machine.execInvack src home s
  | .fwdack src home => Sys2Proof.Machine.execFwdack src home s
  | .stale src home => Sys2Proof.Machine.execStale src home s
  | .datas home dst => Sys2Proof.Machine.execDatas home dst s
  | .datae home dst => Sys2Proof.Machine.execDatae home dst s
  | .datam home dst => Sys2Proof.Machine.execDatam home dst s
  | .ackm home dst => Sys2Proof.Machine.execAckm home dst s
  | .wback home dst => Sys2Proof.Machine.execWback home dst s
  | .inv home dst => Sys2Proof.Machine.execInv home dst s
  | .fwds home dst => Sys2Proof.Machine.execFwds home dst s
  | .fwdm home dst => Sys2Proof.Machine.execFwdm home dst s
  | .recall home dst => Sys2Proof.Machine.execRecall home dst s
  | .bind t => Sys2Proof.Machine.execBind t s
  | .unbind t => Sys2Proof.Machine.execUnbind t s
  | .pool t => Sys2Proof.Machine.execPool t s
  | .launch t => Sys2Proof.Machine.execLaunch t s
  | .copy t => Sys2Proof.Machine.execCopy t s
  | .gather t => Sys2Proof.Machine.execGather t s
  | .scatter t => Sys2Proof.Machine.execScatter t s
  | .level t => Sys2Proof.Machine.execLevel t s
  | .fill t => Sys2Proof.Machine.execFill t s
  | .phase t => Sys2Proof.Machine.execPhase t s
  | .signal t => Sys2Proof.Machine.execSignal t s
  | .waitev t => Sys2Proof.Machine.execWaitev t s
  | .waitevWake job => Sys2Proof.Machine.execWaitevWake job s
  | .waitevReread job => Sys2Proof.Machine.execWaitevReread job s
  | .waitevTimeout job => Sys2Proof.Machine.execWaitevTimeout job s
  | .tfence t => Sys2Proof.Machine.execTfence t s
  | .tjmp t => Sys2Proof.Machine.execTjmp t s
  | .tjmpc t => Sys2Proof.Machine.execTjmpc t s
  | .cancel t => Sys2Proof.Machine.execCancel t s
  | .halt t => Sys2Proof.Machine.execHalt t s
  | .taskIssue job => Sys2Proof.Machine.execTaskIssue job s
  | .taskComplete job tidx => Sys2Proof.Machine.execTaskComplete job tidx s
  | .taskRetire job => Sys2Proof.Machine.execTaskRetire job s
  | .faultingTask job => Sys2Proof.Machine.execFaultingTask job s
  | .unitPlacement => Sys2Proof.Machine.execUnitPlacement s
  | .vgrabPreemption pair => Sys2Proof.Machine.execVgrabPreemption pair s
  | .triggerFire die k => Sys2Proof.Machine.execTriggerFire die k s
  | .unitComplete job tidx lin => Sys2Proof.Machine.execUnitComplete job tidx lin s
  | .vaultSplitStart die vault => Sys2Proof.Machine.execVaultSplitStart die vault s
  | .vaultSplitEnd die vault => Sys2Proof.Machine.execVaultSplitEnd die vault s
  | .contextSave pair slot => Sys2Proof.Machine.execContextSave pair slot s
  | .contextRestore pair slot => Sys2Proof.Machine.execContextRestore pair slot s
  | .unitWatchdog pair slot => Sys2Proof.Machine.execUnitWatchdog pair slot s
  | .tlbInvalidateAll die => Sys2Proof.Machine.execTlbInvalidateAll die s
  | .tlbInvalidateJob die => Sys2Proof.Machine.execTlbInvalidateJob die s
  | .tlbInvalidateRange die => Sys2Proof.Machine.execTlbInvalidateRange die s
  | .tlbInvalidateDone die => Sys2Proof.Machine.execTlbInvalidateDone die s
  | .icacheInvalidateAll die => Sys2Proof.Machine.execIcacheInvalidateAll die s
  | .icacheInvalidateJob die => Sys2Proof.Machine.execIcacheInvalidateJob die s
  | .icacheInvalidateDone die => Sys2Proof.Machine.execIcacheInvalidateDone die s
  | .jobActivate die => Sys2Proof.Machine.execJobActivate die s
  | .jobResume die => Sys2Proof.Machine.execJobResume die s
  | .jobCancel die => Sys2Proof.Machine.execJobCancel die s
  | .jobStop die => Sys2Proof.Machine.execJobStop die s
  | .jobCommandDone die => Sys2Proof.Machine.execJobCommandDone die s
  | .keyGenerate => Sys2Proof.Machine.execKeyGenerate s
  | .keyClear => Sys2Proof.Machine.execKeyClear s
  | .pairoffWrite die reg value => Sys2Proof.Machine.execPairoffWrite die reg value s
  | .registerWrite addr value => Sys2Proof.Machine.execRegisterWrite addr value s
  | .hostRead a size tag => Sys2Proof.Machine.execHostRead a size tag s
  | .hostWrite a data => Sys2Proof.Machine.execHostWrite a data s
  | .hostAtomicop a kind size operand compare tag => Sys2Proof.Machine.execHostAtomicop a kind size operand compare tag s
  | .hostCompletion port tag status data => Sys2Proof.Machine.execHostCompletion port tag status data s
  | .completionTimeout port tag => Sys2Proof.Machine.execCompletionTimeout port tag s
  | .pcieLinkDown port => Sys2Proof.Machine.execPcieLinkDown port s
  | .peerRequest peer tag off op => Sys2Proof.Machine.execPeerRequest peer tag off op s
  | .peerResponse peer tag status data => Sys2Proof.Machine.execPeerResponse peer tag status data s
  | .routeFailure peer => Sys2Proof.Machine.execRouteFailure peer s
  | .routeInstall epoch peer => Sys2Proof.Machine.execRouteInstall epoch peer s
  | .moduleReset b => Sys2Proof.Machine.execModuleReset b s
  | .leaseRenew die => Sys2Proof.Machine.execLeaseRenew die s
  | .leaseLapse => Sys2Proof.Machine.execLeaseLapse s
  | .minsvnRaise => Sys2Proof.Machine.execMinsvnRaise s
  | .getVersion port => Sys2Proof.Machine.execGetVersion port s
  | .getCapabilities port => Sys2Proof.Machine.execGetCapabilities port s
  | .negotiateAlgorithms port sm2 sm3 => Sys2Proof.Machine.execNegotiateAlgorithms port sm2 sm3 s
  | .getDigests port => Sys2Proof.Machine.execGetDigests port s
  | .getCertificate port off len => Sys2Proof.Machine.execGetCertificate port off len s
  | .challenge port nonce => Sys2Proof.Machine.execChallenge port nonce s
  | .getMeasurements port index => Sys2Proof.Machine.execGetMeasurements port index s
  | .keyExchange port share => Sys2Proof.Machine.execKeyExchange port share s
  | .finish port mac => Sys2Proof.Machine.execFinish port mac s
  | .eccErrorDetected site => Sys2Proof.Machine.execEccErrorDetected site s
  | .fatalError site => Sys2Proof.Machine.execFatalError site s
  | .dumpComplete whole => Sys2Proof.Machine.execDumpComplete whole s
  | .throttle => Sys2Proof.Machine.execThrottle s
  | .criticalTemperature => Sys2Proof.Machine.execCriticalTemperature s
  | .pcieLinkUp port gen width => Sys2Proof.Machine.execPcieLinkUp port gen width s
  | .peeridAssign epoch id => Sys2Proof.Machine.execPeeridAssign epoch id s
  | .ideStreamConfigure port epoch stream keyId => Sys2Proof.Machine.execIdeStreamConfigure port epoch stream keyId s
  | .heartbeatRenew die => Sys2Proof.Machine.execHeartbeatRenew die s
  | .heartbeatLapse die => Sys2Proof.Machine.execHeartbeatLapse die s
  | .throttleRelease => Sys2Proof.Machine.execThrottleRelease s
  | .keyCommandDone => Sys2Proof.Machine.execKeyCommandDone s

end Sys2Proof.Machine
end

