-- ==== Sys2Proof/Machine/Scheduler.lean ====
section
/-!
DEFINITION. What a turn runs: the instruction at a slice's PC, the record at a sequencer's decode address, a hardware step; which
turns a machine that has not booted, or has met a fatal error, still serves; and the turns that the default scheduler offers
(assumption 4).
-/

namespace Sys2Proof.Machine

/-- What a turn comes to: it is over, or exec runs an instruction in a state. -/
inductive Ready where
  | over_ (s : State)
  | run (i : Instr) (s : State)
  deriving DecidableEq, Repr

/-! ### Which turns are served (R434, R440) -/

/-- All four dies have booted. -/
def State.up (s : State) : Bool := s.fw.booted == 0xF#4

/-- Steps of the die controllers, which do not need a booted module (R432, R434, R435, R437, R440, R441). -/
def bootFree (i : Instr) : Bool :=
  match i with
  | .moduleReset _ | .leaseRenew _ | .leaseLapse | .heartbeatRenew _ | .heartbeatLapse _ | .minsvnRaise
  | .getVersion _ | .getCapabilities _ | .negotiateAlgorithms _ _ _ | .getDigests _ | .getCertificate _ _ _ | .challenge _ _
  | .getMeasurements _ _ | .keyExchange _ _ | .finish _ _
  | .eccErrorDetected _ | .fatalError _ | .dumpComplete _ | .throttle | .throttleRelease | .criticalTemperature => true
  | _ => false

/-- Steps of the pairs, the engines and the jobs, which a fatal error ends (R440). -/
def pairStep (i : Instr) : Bool :=
  match i with
  | .exitComplete _ _ | .yieldEnd _ _ | .waitvWake _ _ | .waitvReread _ _ | .waitvTimeout _ _ | .chutePushResume _ _
  | .dwpopResume _ _ | .qfenceComplete _ _ | .waitcComplete _ _ | .engineQueueSlotFree _ _ | .storeBufferSpace _ _
  | .dwpushResume _ _ | .vgrabGrant _ | .chutePop _ _ | .lineStateWaitEnd _ _ | .registerEmptyWaitEnd _ _ | .matrixQueueSpace _ _
  | .matrixCommandStart _ | .matrixCommandComplete _ | .engineCommandStart _ | .engineSector _ | .engineBytesLand _ _
  | .pickerRowAccess _ _ | .engineCommandComplete _ | .subsAccept _ | .unsubProcess _ _ | .storeBufferDrain _ _
  | .waitevWake _ | .waitevReread _ | .waitevTimeout _ | .taskIssue _ | .taskComplete _ _ | .taskRetire _ | .faultingTask _
  | .unitPlacement | .vgrabPreemption _ | .triggerFire _ _ | .unitComplete _ _ _ | .contextSave _ _ | .contextRestore _ _
  | .unitWatchdog _ _ | .jobActivate _ | .jobResume _ | .jobCancel _ | .jobStop _ => true
  | _ => false

/-- The registers that answer while the module is not up: FWSTAT can be read, and JOBCMD refuses its commands (R433, R434, assumption 105). -/
def registerStep (i : Instr) : Bool :=
  match i with
  | .registerWrite a _ => (match place52 a with | .mmio _ off => off == 0x400000 | _ => false)
  | .jobActivate _ | .jobResume _ | .jobCancel _ | .jobStop _ | .jobCommandDone _ => true
  | .hostRead a _ _ => a.bar == 0 && (a.off % 0x100000000 == 0x700000 || a.off % 0x100000000 == 0x400000)
  | .hostWrite a _ => a.bar == 0 && a.off % 0x100000000 == 0x400000
  | _ => false

/-- A hardware step is served. -/
def State.serves (s : State) (i : Instr) : Bool :=
  i.enc == .step && (s.up || bootFree i || registerStep i) && !(s.fw.fatal && pairStep i)

/-- Programs run. -/
def State.runs (s : State) : Bool := s.up && !s.fw.fatal

/-! ### Turns of the slices (R177, R179, R232, R234) -/

/-- The control registers that an instruction reads (R281, 09, 12). -/
def controlSources (i : Instr) : List (BitVec 6) :=
  match i.enc with
  | .cr _ f => [f.ra, f.rb]
  | .ci _ f => [f.ra]
  | .cb _ f => [f.ra, f.rb]
  | .cm op f => if op == 0x1A then [f.ra, f.rd] else [f.ra]
  | .cx op f =>
    [f.ra, f.rb, f.rc] ++ (if [0x14, 0x21, 0x22, 0x23, 0x24].contains op then [f.rd] else []) ++
      (if op == 0x0A && f.sub.toNat % 16 == 12 then [f.rb + 1, f.rc + 1] else [])
  | .cj _ _ | .zero | .exitWord | .d64 _ _ | .task _ _ | .step => []

/-- The instruction reads a register with a poison mark (R437, R476). -/
def poisonedSource (u : UnitSt) (i : Instr) : Bool := (controlSources i).any (fun r => u.ctx.cpoison.contains r.toNat)

/-- The mask registers that a data instruction reads (R240, R289): the active mask where its entry takes masks, and its mask operands. -/
def maskSources (i : Instr) : List Nat :=
  match i.enc with
  | .d64 op f =>
    match dSpec op f.fn.toNat f.sb with
    | none => []
    | some p =>
      let field (c : Cls) (x : BitVec 6) : List Nat := if c == .m then [x.toNat] else []
      (if p.mask == .u then [] else [0, f.msel.toNat]) ++ field p.va f.va ++ field p.vb f.vb ++ field p.vc f.vc
  | _ => []

/-- The instruction reads a mask register with a poison mark (R437, R476). -/
def poisonedMask (u : UnitSt) (i : Instr) : Bool := !u.ctx.mpoison.isEmpty && (maskSources i).any (fun r => u.ctx.mpoison.any (fun e => e.1 == r))

/-- TRAPINFO of an ILLEGAL_OP trap (R234): the cause, and in bits 15:8 the low byte of the value. -/
def DecodeErr_info (e : DecodeErr) : Nat := e.cause + 256 * (e.value % 256)

/-- The control word or double word that the slice fetched. -/
def decodeControl (n w : Nat) : Except DecodeErr Instr :=
  if n == 32 then decodeC32 (BitVec.ofNat 32 w) else decodeCX (BitVec.ofNat 64 w)

/-- The restored stores of a resident have performed, so that its slices may go on (R149). -/
def UnitSt.replayed (u : UnitSt) : Bool :=
  u.ctx.ctl.sb.isEmpty && u.ctx.ctl.flight.isEmpty && u.ctx.ctl.unacked.toList.all (fun n => n == 0)

/-- A turn of a control slice. -/
def readyCtl (s : State) (p k : Nat) : Ready :=
  match s.resident p k with
  | none => .over_ s
  | some u =>
    if !u.ctlRuns || !s.runs then .over_ s
    else if u.ctx.ctl.replay then
      .over_ (if u.replayed then s.putUnit (u.modCtl (fun c => { c with replay := false })) else s)
    else if u.ctx.ctl.wait != .none && u.ctx.ctl.wait != .release then .over_ s
    else match fetchSlice s u false with
      | .stop t => .over_ t
      | .word t w n =>
        let t := { t with cur := .ctl p k }
        match decodeControl n w, (t.resident p k).filter UnitSt.ctlRuns with
        | _, none => .over_ t
        | .error e, some v => .over_ (t.trapC v tcIllegalOp 0 (DecodeErr_info e))
        | .ok i, some v => if poisonedSource v i then .over_ (t.trapC v tcEccData) else .run i t

/-- A matrix major (R401). -/
def matrixMajor (w : Nat) : Bool := 0x70 ≤ w / 2 ^ 56 && w / 2 ^ 56 ≤ 0x76

/-- A turn of a data slice. -/
def readyDat (s : State) (p k : Nat) : Ready :=
  match s.resident p k with
  | none => .over_ s
  | some u =>
    if !u.datRuns || !s.runs || u.ctx.ctl.replay || u.ctx.dat.wait != .none then .over_ s
    else match fetchSlice s u true with
      | .stop t => .over_ t
      | .word t w _ =>
        let t := { t with cur := .dat p k }
        match decodeD64 (BitVec.ofNat 64 w), (t.resident p k).filter UnitSt.datRuns with
        | _, none => .over_ t
        | .error e, some v => .over_ (t.takeTrap v (datTrap v (matrixMajor w) tcIllegalOp 0 (DecodeErr_info e)))
        | .ok i, some v => if poisonedMask v i then .over_ (t.takeTrap v (datTrap v (matrixMajor w) tcEccData)) else .run i t

/-- The data slice of a resident reads the lanes of a mask n of the VLD at its PC before the others (R335). -/
def readLanes (s : State) (p k n : Nat) : State :=
  match readyDat s p k with
  | .run (.vld f) t => (match t.resident p k with | some u => vldAhead f u n t | none => s)
  | .run _ _ => s
  | .over_ t => t

/-! ### Turns of a sequencer (R184, R189, R216, R220, R226) -/

/-- Decode stops behind a task whose outcome decides what comes next (R216, R220, R227). -/
def Task.blocksDecode (t : Task) : Bool :=
  match t.kind with
  | .halt => true
  | .tjmpc _ _ _ _ _ => !t.ready
  | .launch l _ _ _ _ _ _ _ => l.spn
  | .instant | .engine _ | .phase _ | .signal _ _ _ _ | .waitev _ _ _ _ _ | .tfence _ => false

/-- The job may decode its next record. -/
def Job.decodes (j : Job) : Bool :=
  j.status == .running && j.window.length < j.wshare && !j.window.any Task.blocksDecode

/-- A record at decode, or its refusal (R188). -/
def readyRecord (s : State) (id : Nat) (w : BitVec 256) : Ready :=
  match s.job id with
  | none => .over_ s
  | some j =>
    match decodeTask w with
    | .error _ => .over_ (decodeFault s j tcTaskDecode j.recAddr 0)
    | .ok i => .run i { s with cur := .sequencer id }

/-- A turn of a sequencer: the oldest spawned record, else the record at the decode address. -/
def readySeq (s : State) (id : Nat) : Ready :=
  match s.job id with
  | none => .over_ s
  | some j =>
    if !s.runs || !j.decodes then .over_ s
    else match j.spawn with
      | (_, w) :: _ => readyRecord s id w
      | [] =>
        match seqRead s j.decodeRead j.pc 32 with
        | .wait t => .over_ t
        | .fault t code va info => .over_ (decodeFault t ((t.job id).getD j) code va info)
        | .ok t bs => readyRecord t id (BitVec.ofNat 256 (leNat bs))

/-- Run it. -/
def runReady (r : Ready) : Out3 :=
  match r with
  | .over_ s => .next s
  | .run i s => exec i s

/-! ### Traps in the ac of a freeze (R182, R416) -/

/-- The unit of a slot, frozen in this very ac: by a trap of its control slice, which one of its data slice may still replace, or without a
trap. -/
def frozenNow (s : State) (p k : Nat) (dat : Bool) : Option UnitSt :=
  s.units.find? (fun u => match u.place with
    | .trapped q n => q == p && n == k && dat && (match u.trap with | some t => t.time == s.cycle && !t.ofData | none => false)
    | .saving q n => q == p && n == k && u.frozenAt == s.cycle
    | .waiting | .placed _ _ | .saved | .restoring _ _ => false)

/-- The trap, and nothing else, of what a turn of a frozen unit's slice would have come to in this ac. -/
def strike (s : State) (u : UnitSt) (p k : Nat) (turn : State → Ready) : State :=
  match runReady (turn (s.putUnit { u with place := .placed p k, trap := none })) with
  | .next t =>
    (match t.findUnit u.key with
    | some v =>
      (match v.place, v.trap with
      | .trapped _ _, some x => s.takeTrap (if x.posted then u.modCtl (fun c => { c with posted := none, more := false }) else u) x
      | _, _ => s)
    | none => s)
  | .fault _ | .refused _ => s

/-- A turn of a slice, or of a step that ends its wait. -/
def readySlice (s : State) (p k : Nat) (dat : Bool) (turn : State → Ready) : Ready :=
  match frozenNow s p k dat with
  | some u => .over_ (strike s u p k turn)
  | none => turn s

/-- The resident whose control slice's wait a step may end with a trap. -/
def waitStep (i : Instr) : Option (Nat × Nat) :=
  match i with
  | .exitComplete p k | .waitvWake p k | .waitvReread p k | .waitvTimeout p k | .dwpopResume p k | .qfenceComplete p k | .waitcComplete p k
  | .unitWatchdog p k => some (p, k)
  | _ => none

/-- What a turn comes to. -/
def ready (s : State) (t : Turn) : Ready :=
  let hw (i : Instr) (s : State) : Ready := if s.serves i then .run i s else .over_ s
  match t with
  | .ctl p k => readySlice s p k false (fun s => readyCtl s p k)
  | .dat p k => readySlice s p k true (fun s => readyDat s p k)
  | .sequencer j => readySeq s j
  | .hw i => (match waitStep i with | some (p, k) => readySlice s p k false (hw i) | none => hw i s)
  | .idle => .over_ s
  | .ahead p k va n => .over_ (if s.runs then readAheadNow s p k va n else s)
  | .lanes p k n => .over_ (readLanes s p k n)
  | .fwActivate d j frame => .over_ (if s.runs && d < Config.dies then activateOwn s d j frame else s)
  | .rasRing d base n => .over_ (if s.up then nameRing s d base n else s)
  | .rasEntry d => .over_ (if s.up then writeRasEntry s d else s)
  | .sendRaise => .over_ (sendRaise s)

/-! ### The default scheduler (assumption 4) -/

/-- The step that delivers a message to a home. -/
def toHomeStep (m : Nat × Nat × ToHome) : Instr :=
  match m.2.2 with
  | .rds _ => .rds m.1 m.2.1 | .rdm _ => .rdm m.1 m.2.1 | .upg _ => .upg m.1 m.2.1 | .wbm _ _ _ _ => .wbm m.1 m.2.1
  | .evicte _ => .evicte m.1 m.2.1 | .invack _ => .invack m.1 m.2.1 | .fwdack _ _ _ => .fwdack m.1 m.2.1 | .stale _ => .stale m.1 m.2.1

/-- The step that delivers a message to a die. -/
def toDieStep (m : Nat × Nat × ToDie) : Instr :=
  match m.2.2 with
  | .datas _ _ => .datas m.1 m.2.1 | .datae _ _ => .datae m.1 m.2.1 | .datam _ _ => .datam m.1 m.2.1 | .ackm _ => .ackm m.1 m.2.1
  | .wback _ => .wback m.1 m.2.1 | .inv _ => .inv m.1 m.2.1 | .fwds _ => .fwds m.1 m.2.1 | .fwdm _ => .fwdm m.1 m.2.1
  | .recall _ => .recall m.1 m.2.1

/-- The turns of a unit. -/
def unitTurns (u : UnitSt) : List Turn :=
  match u.occupies with
  | none => []
  | some (p, k) =>
    [.ctl p k, .dat p k] ++ ([.exitComplete p k, .yieldEnd p k, .waitvWake p k, .waitvReread p k, .waitvTimeout p k,
      .chutePushResume p k, .dwpopResume p k, .qfenceComplete p k, .waitcComplete p k, .engineQueueSlotFree p k, .storeBufferSpace p k,
      .dwpushResume p k, .chutePop p k, .lineStateWaitEnd p k, .registerEmptyWaitEnd p k, .matrixQueueSpace p k, .unsubProcess p k,
      .storeBufferDrain p k, .contextSave p k, .contextRestore p k, .unitWatchdog p k, .matrixCommandStart p,
      .matrixCommandComplete p, .vgrabGrant p, .vgrabPreemption p, .unitComplete u.key.job u.key.tidx u.key.lin].map Turn.hw)

/-- The turns of an engine command. -/
def cmdTurns (c : Cmd) : List Turn :=
  ([.engineCommandStart c.id, .engineSector c.id, .engineBytesLand c.id 0, .pickerRowAccess c.id 0, .engineCommandComplete c.id] : List Instr).map Turn.hw

/-- The turns of a job. -/
def jobTurns (j : Job) : List Turn :=
  .sequencer j.id :: ([Instr.taskIssue j.id, .taskRetire j.id, .faultingTask j.id, .waitevWake j.id, .waitevReread j.id, .waitevTimeout j.id] ++
    j.window.map (fun t => Instr.taskComplete j.id t.tidx)).map Turn.hw

/-- The steps of a die's controllers. -/
def dieSteps (s : State) (d : Nat) : List Instr :=
  let x := s.die d
  let walks : List Instr := if x.missq.isEmpty then [] else [.pageWalk d]
  let splits : List Instr := x.vwait.map (fun (r : SplitReq) => Instr.vaultSplitStart d r.vault)
  let busy : List Instr := ((range 0 Config.vaultsPerDie).filter (fun v => (x.vault v).busyTill.isSome)).map (fun v => Instr.vaultSplitEnd d v)
  let tiv : List Instr := if x.tiv.run.isNone then [] else [.tlbInvalidateAll d, .tlbInvalidateJob d, .tlbInvalidateRange d, .tlbInvalidateDone d]
  let iciv : List Instr := if x.iciv.run.isNone then [] else [.icacheInvalidateAll d, .icacheInvalidateJob d, .icacheInvalidateDone d]
  let job : List Instr := if x.jobcmd.run.isNone then [] else [.jobActivate d, .jobResume d, .jobCancel d, .jobStop d, .jobCommandDone d]
  walks ++ (range 0 x.sfq.length).map (fun k => Instr.snoopFilterRequest d k) ++
    (range 0 x.uncq.length).map (fun k => Instr.uncachedAccess d k) ++
    (range 0 x.triggers.length).map (fun k => Instr.triggerFire d k) ++ splits ++ busy ++ tiv ++ iciv ++ job

/-- The steps whose causes stand outside units, commands, jobs and dies. -/
def otherSteps (s : State) : List Instr :=
  let accepts : List Instr := s.units.filterMap (fun (u : UnitSt) => match u.ctx.ctl.wait with
    | .subs _ k _ _ _ _ _ _ => some (Instr.subsAccept k)
    | _ => none)
  let place : List Instr := if s.jobs.isEmpty then [] else [.unitPlacement]
  let keys : List Instr := if s.fw.keycmd.run.isNone then [] else [.keyGenerate, .keyClear, .keyCommandDone]
  s.toHome.map toHomeStep ++ s.toDie.map toDieStep ++ (range 0 s.acks.length).map (fun k => Instr.storeAck k) ++
    s.subs.map (fun (b : Subscription) => Instr.mirrorUpdate b.id) ++ accepts ++ place ++ keys

/-- Every turn that the state offers: slices, sequencers and the steps whose causes stand in the state. -/
def offers (s : State) : List Turn :=
  s.units.flatMap unitTurns ++ s.cmds.flatMap cmdTurns ++ s.jobs.flatMap jobTurns ++
    ((range 0 Config.dies).flatMap (dieSteps s) ++ otherSteps s).map Turn.hw ++ ((s.rasq.map Prod.fst).eraseDups.map Turn.rasEntry)

/-! ### Visitors of a line (R103, R118) -/

/-- Who asks for a line in a turn, where its access takes a place in the line's queue. -/
def Turn.visitor (t : Turn) : Option (Nat × Nat × Nat) :=
  match t with
  | .ctl p k => some (0, p, k)
  | .dat p k => some (1, p, k)
  | .sequencer j => some (2, j, 0)
  | .hw (.engineCommandStart c) => some (3, c, 0)
  | .hw (.engineSector c) => some (4, c, 0)
  | .hw (.engineBytesLand c k) => some (5, c, k)
  | .hw (.pickerRowAccess c k) => some (6, c, k)
  | .hw (.taskIssue j) => some (7, j, 0)
  | .hw (.waitevReread j) => some (8, j, 0)
  | _ => none

/-- The visitor still stands: its slice runs, or its command or its job is there. -/
def visitorLives (s : State) (w : Nat × Nat × Nat) : Bool :=
  if w.1 < 2 then s.units.any (fun u => u.occupies == some w.2 && u.running)
  else if 3 ≤ w.1 && w.1 ≤ 6 then (s.cmd w.2.1).isSome
  else (s.job w.2.1).isSome

/-- Places that nobody takes any more are given up, and what waits behind them starts. -/
def sweepHomes (s : State) : State :=
  if s.dies.toList.all (fun x => x.homeq.isEmpty) then s
  else
    let keep (r : HomeReq) : Bool := match r with | .visit w _ => visitorLives s w | _ => true
    (range 0 Config.dies).foldl pumpAll { s with dies := s.dies.map (fun (x : Die) => { x with homeq := x.homeq.filter keep }) }

/-- The agent whose turn it is comes to the lines where it is the next: it leaves their queues, and accesses them in this turn or not. -/
def comeTo (s : State) (w : Option (Nat × Nat × Nat)) : State :=
  let mine (x : Die) (i : Nat) (r : HomeReq) : Bool := match r with
    | .visit v l => w == some v && (x.homeq.take i).all (fun q => q.line != l) && !unsettled s l
    | _ => false
  { s with now := w, dies := s.dies.map (fun (x : Die) => { x with homeq := (x.homeq.zipIdx.filter (fun p => !mine x p.2 p.1)).map Prod.fst }) }

/-- Whose turn it is, and the state in which the turn begins: the head of the schedule, else the next turn that the state offers, one
clock later. -/
def nextTurn (s : State) : State × Turn :=
  let begin_ (s : State) (t : Turn) : State × Turn := (comeTo (sweepHomes { s with cur := .none }) t.visitor, t)
  match s.schedule with
  | (dt, t) :: r => begin_ { s with cycle := s.cycle + dt, schedule := r } t
  | [] =>
    let l := offers s
    begin_ { s with cycle := s.cycle + 1, turn := s.turn + 1 } (l.getD (s.turn % l.length) .idle)

end Sys2Proof.Machine
end

