-- ==== Sys2Proof/Machine/Loading.lean ====
section
/-!
DEFINITION. Placing one instruction where the next step runs it. The machine fetches from code objects of units and from task
streams of jobs, so this stands for what a driver loads: a job, a page with its translation, a unit with its launch (assumption 14).
-/

namespace Sys2Proof.Machine

/-- The physical and the virtual page of the placed instruction, with its leaf: present, readable, writable, executable. -/
def placedPa : Nat := 0x100000
def placedVa : Nat := 0x200000
def placedPte : Pte := 0x10000F

def placedTlb : TlbEntry := ⟨0, placedVa / 4096, 1, placedPte, 0, 0⟩

/-- The line that holds one instruction: its header says what it is and that it is the last line (R229). -/
def placedLine (header w : Nat) : Nat := header + 2 ^ 32 * w

/-- The 32 bytes at the page, in no cache and without a mark. -/
def placeBytes (s : State) (x : Nat) : State :=
  let away (l : Nat) : Bool := l != placedPa / 128
  let s := { (s.clearPoison placedPa 64).setBytes placedPa ((leBytes 32 x).map (fun b => ({ v := b } : TByte))) with
    poison := s.poison.filter (fun a => a < placedPa || placedPa + 128 ≤ a)
    dies := s.dies.map (fun (d : Die) => { d with
      sf := d.sf.filter (fun e => away e.line), dir := d.dir.filter (fun e => away e.line), txns := []
      vlines := d.vlines.filter (fun (e : VLine) => away e.line), l2i := d.l2i.filter (fun l => l.job != 0) }) }
  { s with pairs := s.pairs.map (fun (p : PairSt) => { p with
      l1 := p.l1.filter (fun (l : L1Line) => away l.line), l1i := p.l1i.filter (fun l => l.job != 0) }) }

/-- The module is up, and job 0 is active on die 0. -/
def placeJob (s : State) (j : Job) : State :=
  { s with
    fw := { s.fw with booted := 0xF, ready := true, fatal := false }
    jobs := j :: s.jobs.filter (fun x => x.id != 0) }

/-- A unit of job 0 in slot 0 of pair 0 whose code object is the placed line. -/
def placeUnitAt (s : State) (ctx : Ctx) : State :=
  let u : UnitSt := {
    key := ⟨0, 0, 0⟩, die := 0, launch := { code := placedVa, lines := 1 }, ux := 0, uy := 0, uz := 0, checks := [], stamp := 0
    target := [0], place := .placed 0 0, ever := true, when := 0, base := 0, ctxslot := none, trap := none, ctx := ctx }
  { s.modPair 0 (fun p => { p with tlb := placedTlb :: p.tlb }) with
    units := u :: s.units.filter (fun (x : UnitSt) => x.key != u.key && x.occupies != some (0, 0)) }

/-- Place an instruction of nbits bits, and give its agent the next turn. -/
def placeWord (s : State) (nbits w : Nat) : State :=
  let first (t : Turn) (s : State) : State := { s with schedule := (0, t) :: s.schedule }
  let ctl : Ctx := { ctl := { pc := 1 } }
  let dat : Ctx := { dat := { pc := 1, mode := .transfer, wait := .none } }
  let code (header : Nat) (c : Ctx) : State :=
    placeUnitAt (placeJob (placeBytes s (placedLine header w)) { id := 0, die := 0, jcb := 0 }) c
  if nbits ≤ 32 then first (.ctl 0 0) (code 0x10000001 ctl)
  else if nbits ≤ 64 then
    match decodeCX (BitVec.ofNat 64 w) with
    | .ok _ => first (.ctl 0 0) (code 0x100000E2 ctl)
    | .error _ => first (.dat 0 0) (code 0x100000E4 dat)
  else
    let s := placeJob (placeBytes s w) { id := 0, die := 0, jcb := 0, pc := placedVa }
    first (.sequencer 0) (s.modDie 0 (fun d => { d with l2tlb := placedTlb :: d.l2tlb }))

end Sys2Proof.Machine
end

