-- ==== Sys2Proof/Machine/Step.lean ====
section
/-!
DEFINITION. One step of the machine: a turn of one agent. The schedule in the state says whose, and how many array clocks pass
before it (assumption 4).
-/

namespace Sys2Proof.Machine

/-- One step: the next turn begins, fetches and decodes where it is an agent's, and runs what it came to. -/
def step (s : State) : Host.Outcome State Fault Refusal :=
  runReady (ready (nextTurn s).1 (nextTurn s).2)

/-- The instruction whose bits are w, placed where the next step fetches it (fixed name). -/
def State.withFetchWord (s : State) (nbits w : Nat) : State := placeWord s nbits w

end Sys2Proof.Machine
end

