-- ==== Sys2Proof/Safety.lean ====
section
/-!
DEFINITION. The terms in which claims are stated: who executes, what a step does not change, what a run that goes on is.
-/

namespace Sys2Proof.Machine

/-- The unit u executes an instruction of its control slice: it is the running resident at the cursor, and the unit of its key. -/
def CtlAt (s : State) (u : UnitSt) : Prop :=
  ∃ p k, s.cur = .ctl p k ∧ s.resident p k = some u ∧ s.findUnit u.key = some u ∧ u.ctlRuns = true

/-- The unit u executes an instruction of its data slice. -/
def DatAt (s : State) (u : UnitSt) : Prop :=
  ∃ p k, s.cur = .dat p k ∧ s.resident p k = some u ∧ s.findUnit u.key = some u ∧ u.datRuns = true

/-- The sequencer of job j decodes a record. -/
def SeqAt (s : State) (j : Job) : Prop := ∃ id, s.cur = .sequencer id ∧ s.job id = some j

/-- Every unit other than u is as before. -/
def SameOthers (s t : State) (u : UnitSt) : Prop := ∀ k, k ≠ u.key → t.findUnit k = s.findUnit k

/-- The instruction of n words of u's control slice ends in t: u's PC has moved past it, its other parts are those of v. -/
def Retired (s t : State) (u v : UnitSt) (n : Nat) : Prop :=
  t.findUnit u.key = some ((v.modCtl (Ctl.advance n)).stamped s.cycle) ∧ SameOthers s t u

/-- v is u, but that a slice of it may wait no longer for a fetch, which is made again. -/
def Restarted (u v : UnitSt) : Prop :=
  v = (u.modCtl (fun c => { c with wait := v.ctx.ctl.wait })).modDat (fun d => { d with wait := v.ctx.dat.wait }) ∧
  (v.ctx.ctl.wait = u.ctx.ctl.wait ∨ v.ctx.ctl.wait = .none) ∧ (v.ctx.dat.wait = u.ctx.dat.wait ∨ v.ctx.dat.wait = .none)

/-- The instruction of n words of u's control slice ends in t, and slices may have to make fetches again; nothing else of any unit changes. -/
def RetiredRestarting (s t : State) (u : UnitSt) (n : Nat) : Prop :=
  (∃ v, Restarted u v ∧ t.findUnit u.key = some ((v.modCtl (Ctl.advance n)).stamped s.cycle)) ∧
  ∀ k, k ≠ u.key → ∀ w, s.findUnit k = some w → ∃ x, Restarted w x ∧ t.findUnit k = some x

/-- An access of the control slice at va reaches size bytes of the unit's own pantry region, where no own store that has not performed
stands and nothing is poisoned (R12, R129, R289). -/
def LocalAccess (s : State) (u : UnitSt) (va size : Nat) : Prop :=
  va % size = 0 ∧ localWindow ≤ va ∧ va < 2 ^ 57 ∧ va - localWindow + size ≤ u.regionBytes ∧
    ownStores u (u.pantryPa (va - localWindow)) size = [] ∧ s.poisoned (u.pantryPa (va - localWindow)) size = false

/-- No merging line of the pair's L1 that the unit's job uses holds words that a release or an acquire at a scope would write back (R111). -/
def CleanMerge (s : State) (u : UnitSt) (scope : Nat) : Prop :=
  scope = 0 ∨ ∀ l ∈ (s.pairOf u.pair).l1, l.st = .mg → l.jobs.contains u.key.job = true → l.dirty = 0

/-- In t, u has become v by an acquire instruction of two words at a scope (R111, R124): the PC has moved past it, nothing read ahead stands, and
beyond the slice's own scope no merging line of the job stands in the pair's L1; the data slice and the buffered stores are as before. -/
def Acquired (t : State) (u v : UnitSt) (scope : Nat) : Prop :=
  v.ctx.ctl.pc = u.ctx.ctl.pc + 2 ∧ v.ctx.ctl.ahead = [] ∧ v.ctx.dat = u.ctx.dat ∧ v.ctx.ctl.sb = u.ctx.ctl.sb ∧
  (scope ≠ 0 → ∀ l ∈ (t.pairOf u.pair).l1, l.st = .mg → l.jobs.contains u.key.job = false)

/-- Counter k of u is faulted, and c is the oldest halted command of u that names it, with its halt record (R366 to R368). -/
def FaultsWith (s : State) (u : UnitSt) (k : Nat) (c : Cmd) (h : HaltRec) : Prop :=
  (u.counter k).f = true ∧ (s.unitCmds u.key).find? (fun c => c.ctr == some k && c.halt?.isSome) = some c ∧ c.status = .halted h

/-- A step at s neither faults nor is refused. -/
def GoesOn (s : State) : Prop := ∃ t, step s = .next t

/-- Every byte of memory and every mark of its key and its poison is as before. -/
def SameMemory (s t : State) : Prop := (∀ a, t.byteAt a = s.byteAt a) ∧ t.poison = s.poison

/-- Every byte outside n bytes from pa is as before; one that shares a 16-byte cipher block of HBM with them, where the block lies under the
key generation k of the write (R436, assumption 6). -/
def KeepsRest (s t : State) (k pa n : Nat) : Prop :=
  ∀ p, p < pa ∨ pa + n ≤ p →
    (isHbm pa = true → pa / 16 * 16 ≤ p → p < (pa + n + 15) / 16 * 16 → ∀ i < 16, (s.byteAt (p / 16 * 16 + i)).key = k) → t.byteAt p = s.byteAt p

/-- All that does not belong to units is as before: memory, caches, directories, engines, jobs, links and the die controllers. -/
def SameOutside (s t : State) : Prop := t = { s with units := t.units }

/-! ### Placement -/

/-- At offset o of pair p a region of u's size is free beside the residents, at a 64 KiB boundary (R393). -/
def RegionFree (s : State) (u : UnitSt) (p o : Nat) : Prop :=
  o % 65536 = 0 ∧ o + u.regionBytes ≤ 0x100000 ∧ ∀ v ∈ s.occupants p, v.base + v.regionBytes ≤ o ∨ o + u.regionBytes ≤ v.base

/-- Unit u fits on pair p: a resident slot, a run of pantry, its counters, tiles and scale entries are free (R162, R393), and a context slot, unless
it has one (R410). -/
def FitsOn (s : State) (u : UnitSt) (p : Nat) : Prop :=
  let rs := s.occupants p
  rs.length < 4 ∧ (rs.map (fun v => v.launch.counters)).sum + u.launch.counters ≤ 256 ∧ (rs.map (fun v => v.launch.tiles)).sum + u.launch.tiles ≤ 8 ∧
    (rs.map (fun v => v.launch.scales)).sum + u.launch.scales ≤ 8 ∧ (u.ctxslot ≠ none ∨ freeCtx s u.key.job (dieOf p) ≠ none) ∧ ∃ o, RegionFree s u p o

/-- Of the pairs of u's target set that are on and on which u fits, p has the most free slots, and the lowest id of those; base is the lowest
offset that fits there (R393, R439). -/
def BestFit (s : State) (u : UnitSt) (p base : Nat) : Prop :=
  p ∈ u.target ∧ pairOn s p = true ∧ FitsOn s u p ∧ RegionFree s u p base ∧ (∀ o, RegionFree s u p o → base ≤ o) ∧
  ∀ q ∈ u.target, pairOn s q = true → FitsOn s u q →
    (s.occupants p).length < (s.occupants q).length ∨ ((s.occupants p).length = (s.occupants q).length ∧ p ≤ q)

/-! ### Data instructions -/

/-- The data instruction of u completes: its unit becomes v, goes on as the selector says (R169), and nothing else changes. -/
def DataGives (s : State) (u : UnitSt) (i : Instr) (nas : BitVec 2) (P : UnitSt → Prop) : Prop :=
  ∃ v, exec i s = .next (s.putUnit ((selectNext s v nas).stamped s.cycle)) ∧ v.key = u.key ∧ P v

/-- A vector register that an instruction may read now, with its tag (R175, R241, R267, R476). -/
def Source (u : UnitSt) (i : BitVec 6) (t : Nat) : Prop :=
  vregOk u i.toNat = true ∧ (u.v i).tag.toNat = t ∧ (u.v i).empty = false ∧ (u.v i).poison = 0

/-- A vector register that the instruction f may write now; one that an MRDV is still to write is written whole (R343, assumption 86). -/
def Dest (u : UnitSt) (f : D64) (i : BitVec 6) : Prop :=
  vregOk u i.toNat = true ∧ (u.v i).poison = 0 ∧ ((u.v i).empty = true → f.z = true ∨ effMask u f = BitVec.allOnes 128)

/-- The second operand of layout f: a vector register of format t, or with sb a scalar (R313). -/
def SourceB (u : UnitSt) (f : D64) (t : Nat) : Prop := if f.sb then u.ctx.spoison = [] else Source u f.vb t

/-- The element format is t: the suffix names it, or the tag of va alone does (R313). -/
def Format (f : D64) (t : Nat) : Prop := f.fmt = 0 ∨ f.fmt = t

/-- No flag is enabled to trap (R270). -/
def NoFpTraps (u : UnitSt) : Prop := u.ctx.ctl.fpmode.toNat / 8 % 32 = 0

/-- A register after the last-read marks of f (R242). -/
def lastRead (u : UnitSt) (f : D64) (i : BitVec 6) : VState :=
  if (f.la = true ∧ i = f.va) ∨ (f.lb = true ∧ i = f.vb) then { u.v i with tag := 15 } else u.v i

/-- Between u and v only vector register d, the tags of last-read sources and FPFLAGS differ. -/
def OnlyVector (u v : UnitSt) (f : D64) (d : BitVec 6) : Prop :=
  (∀ i, i ≠ d → v.v i = lastRead u f i) ∧
  v = { u with ctx := { u.ctx with dat := { u.ctx.dat with v := v.ctx.dat.v }, ctl := { u.ctx.ctl with fpflags := v.ctx.ctl.fpflags } } }

/-- Register d of v is full, of format t, with element e active: g e; inactive: zero or the old element (R240, R264). -/
def Elements (u v : UnitSt) (f : D64) (d : BitVec 6) (t : Nat) (g : Nat → Nat) : Prop :=
  (v.v d).tag.toNat = t ∧ (v.v d).empty = false ∧ (v.v d).poison = 0 ∧
  ∀ e < numElem t, elem (v.v d).val t e =
    if active e t (effMask u f) then g e % 2 ^ fmtBits t else if f.z then 0 else elem (u.v d).val t e

/-- FPFLAGS gains the flags h of the active elements and no other (R271). -/
def FlagsGained (u v : UnitSt) (f : D64) (t : Nat) (h : Nat → Nat) : Prop :=
  ∀ b < 6, v.ctx.ctl.fpflags.getLsbD b = true ↔
    u.ctx.ctl.fpflags.getLsbD b = true ∨ ∃ e < numElem t, active e t (effMask u f) = true ∧ (h e).testBit b = true

/-- An instruction of mark E completes: element e of vd is r e, which raises flags h e. -/
def ElementResult (s : State) (u : UnitSt) (i : Instr) (f : D64) (t : Nat) (r : Nat → Nat × Nat) : Prop :=
  DataGives s u i f.nas (fun v => OnlyVector u v f f.vd ∧ Elements u v f f.vd t (fun e => (r e).1) ∧ FlagsGained u v f t (fun e => (r e).2))

/-- Between u and v only mask d, its poison marks, the tags of last-read sources and FPFLAGS differ. -/
def OnlyMask (u v : UnitSt) (f : D64) (d : BitVec 6) : Prop :=
  (∀ i, v.v i = lastRead u f i) ∧ (∀ k, k ≠ d.toNat → v.mreg k = u.mreg k) ∧
  v = { u with ctx := { u.ctx with mpoison := v.ctx.mpoison
                                   dat := { u.ctx.dat with v := v.ctx.dat.v, m := v.ctx.dat.m }
                                   ctl := { u.ctx.ctl with fpflags := v.ctx.ctl.fpflags } } }

/-- Between u and v only scalar register d, its poison mark, the tags of last-read sources and FPFLAGS differ. -/
def OnlyScalar (u v : UnitSt) (f : D64) (d : BitVec 6) : Prop :=
  (∀ i, v.v i = lastRead u f i) ∧ (∀ k : BitVec 6, k ≠ d → v.sreg k = u.sreg k) ∧
  v = { u with ctx := { u.ctx with spoison := v.ctx.spoison
                                   dat := { u.ctx.dat with v := v.ctx.dat.v, s := v.ctx.dat.s }
                                   ctl := { u.ctx.ctl with fpflags := v.ctx.ctl.fpflags } } }

/-- An instruction on whole lanes completes: active lane i of vd is g i, with activity taken for format t and the register's new tag t2. -/
def LaneResult (s : State) (u : UnitSt) (i : Instr) (f : D64) (t t2 : Nat) (g : Nat → Nat) : Prop :=
  DataGives s u i f.nas (fun v => OnlyVector u v f f.vd ∧ (v.v f.vd).tag.toNat = t2 ∧ (v.v f.vd).empty = false ∧ (v.v f.vd).poison = 0 ∧
    (∀ k < 128, v.lane f.vd k =
      if laneActive t (effMask u f) k then g k % 2 ^ 32 else if f.z then 0 else u.lane f.vd k) ∧
    v.ctx.ctl.fpflags = u.ctx.ctl.fpflags)

/-- An instruction completes with the scalar register d equal to x modulo 2^64 and no flag raised. -/
def ScalarResult (s : State) (u : UnitSt) (i : Instr) (f : D64) (d : BitVec 6) (x : Nat) : Prop :=
  DataGives s u i f.nas (fun v => OnlyScalar u v f d ∧ v.sreg d = x % 2 ^ 64 ∧ v.ctx.ctl.fpflags = u.ctx.ctl.fpflags)

/-- An instruction completes with the mask register d equal to x and no flag raised. -/
def MaskResult (s : State) (u : UnitSt) (i : Instr) (f : D64) (x : Mask) : Prop :=
  DataGives s u i f.nas (fun v => OnlyMask u v f f.vd ∧ v.mreg f.vd.toNat = x ∧ v.ctx.ctl.fpflags = u.ctx.ctl.fpflags)

/-- A data instruction completes in t: its unit goes on as v does by the selector, and P holds of t and v. -/
def DataEnds (s : State) (u : UnitSt) (i : Instr) (nas : BitVec 2) (P : State → UnitSt → Prop) : Prop :=
  ∃ t v, exec i s = .next t ∧ t.findUnit u.key = some ((selectNext t v nas).stamped s.cycle) ∧ v.key = u.key ∧ P t v

/-- The pantry address A of an instruction names offset A mod 2^20 of w's region (R13, R14, R330): of the unit's own, or with bit 24 set of
the lowest-slot unit of its task on a pair of its cluster. -/
def Names (s : State) (u : UnitSt) (f : D64) (k : BitVec 6) (A : Nat) (w : UnitSt) : Prop :=
  pantryAddr u false (u.sreg f.va) f.x16.toNat k = .ok A ∧ regionOwner s u A = some w ∧ s.findUnit w.key = some w

/-- The state in which a data-slice read of full lines leaves the caches: where landings have filled one of them it is an acquire at .pair
(R58, R111), by which the job's merging lines of the pair go. -/
def afterRead (s : State) (u : UnitSt) (lines : List (UnitSt × Nat)) : State :=
  if lines.any (fun l => l.1.ctx.landed.contains l.2) then mergeBack s u.pair u.key.job true else s

/-- n bytes from offset a of w's region may be read now: in the region, in full lines, not poisoned (R54, R476). -/
def MayRead (s : State) (w : UnitSt) (a n : Nat) : Prop :=
  a + n ≤ w.regionBytes ∧ (∀ l, a / 128 ≤ l → l * 128 < a + n → w.lineState l = 0) ∧ s.poisoned (w.pantryPa a) n = false

/-- n bytes from offset a of w's region may be written now: in the region, no poisoned unit of theirs in part, no active mirror (R70, R476). -/
def MayWrite (s : State) (w : UnitSt) (a n : Nat) : Prop :=
  a + n ≤ w.regionBytes ∧ s.partPoison (w.pantryPa a) n = false ∧ ∀ b ∈ s.subs, b.unit = w.key → b.active = false

/-- Every unit other than u keeps its place, its registers and its queues. -/
def SameSlices (s t : State) (u : UnitSt) : Prop :=
  ∀ k, k ≠ u.key → (t.findUnit k).map (fun x => (x.place, x.ctx.ctl, x.ctx.dat, x.ctx.chute, x.ctx.dw, x.ctx.tiles)) =
    (s.findUnit k).map (fun x => (x.place, x.ctx.ctl, x.ctx.dat, x.ctx.chute, x.ctx.dw, x.ctx.tiles))

/-- The number that n bytes of u's region at offset a hold. -/
def pantryNat (s : State) (u : UnitSt) (a n : Nat) : Nat := leNat ((s.bytesAt (u.pantryPa a) n).map TByte.v)

/-- In t, n bytes of u's region at offset a hold the number x. -/
def Stored (t : State) (u : UnitSt) (a n x : Nat) : Prop := ∀ j < n, t.byteAt (u.pantryPa a + j) = { v := BitVec.ofNat 8 (x / 256 ^ j) }

/-- The data-slice registers of v are those of u, but for last-read marks and the vector registers in ds. -/
def SameRegisters (u v : UnitSt) (f : D64) (ds : List (BitVec 6)) : Prop :=
  (∀ i, i ∉ ds → v.v i = lastRead u f i) ∧ v.ctx.dat.s = u.ctx.dat.s ∧ v.ctx.dat.m = u.ctx.dat.m ∧
  v.ctx.ctl.fpflags = u.ctx.ctl.fpflags ∧ v.ctx.ctl.c = u.ctx.ctl.c

/-- Lanes of a loaded register: its tag, and lane k the word w k where active for its tag. -/
def LoadedLanes (u v : UnitSt) (f : D64) (t : Nat) (w : Nat → Nat) : Prop :=
  (v.v f.vd).tag.toNat = t ∧ (v.v f.vd).empty = false ∧
  ∀ k < 128, v.lane f.vd k = if laneActive t (effMask u f) k then w k else if f.z then 0 else u.lane f.vd k

/-! ### Task records and tasks -/

/-- The decode address after the next record: a spawned record leaves it where it is (R189, R226). -/
def nextRecord (j : Job) : Nat := if j.spawn.isEmpty then (j.pc + 32) % 2 ^ 64 else j.pc

/-- The record at decode enters the window as a task of which P holds; the rename map and the pools after it are m and ps, decode goes on
at pc, and no other job changes (R184, R189). -/
def Enters (s t : State) (j : Job) (m : List (Nat × Buf)) (ps : List Pool) (pc : Nat) (P : Task → Prop) : Prop :=
  ∃ x, P x ∧ x.tidx = j.tidx ∧ x.addr = j.recAddr ∧ x.mapAfter = m ∧ x.pcAfter = pc ∧ x.phaseNo = j.phaseNo ∧
    t.job j.id = some { j with window := j.window ++ [x], map := m, pools := ps, tidx := j.tidx + 1, pc := pc, spawn := j.spawn.drop 1
                               succ := if j.spawn.isEmpty then (j.pc + 32) % 2 ^ 64 else j.succ
                               got := [], bad := [], phaseNo := match x.kind with | .phase _ => j.phaseNo + 1 | _ => j.phaseNo } ∧
    ∀ id, id ≠ j.id → t.job id = s.job id

/-- A task that is complete from its decode on (R201). -/
def Instant (x : Task) : Prop := x.kind = .instant ∧ x.issued = true ∧ x.completed = true

/-- The operands of a record bind: every slot that it uses is mapped, its region table reads, its renamed slots are on their shelves (R188,
R195, R198, R203). -/
def OperandsBind (s t : State) (j : Job) (r : Rec) (b : Bound) : Prop :=
  (∀ i ∈ usedSlots r, (bufAt j.map (r.buf i)).isSome = true) ∧
  ∃ boxes pools slots, readRegions s j r = .ok t boxes ∧
    takeSlots j (((usedSlots r).filter (fun i => slotClass r j.map i == 2)).filterMap
      (fun i => ((bufAt j.map (r.buf i)).bind Buf.pool).map Prod.fst)) j.pools = .ok pools slots ∧
    b = bindSlots r boxes (usedSlots r) slots ⟨[], j.map, pools, [], []⟩

/-- The task carries what binding its operands gave. -/
def HasOperands (x : Task) (b : Bound) : Prop :=
  x.operands = b.ops ∧ x.fresh = b.fresh ∧ x.dead = b.dead ∧ x.inPlace = b.ops.any (fun o => 3 ≤ o.cls) ∧ x.issued = false ∧ x.completed = false

/-- The task of a stream index in a job's window. -/
def State.taskOf (s : State) (job tidx : Nat) : Option Task := (s.job job).bind (fun j => j.window.find? (fun t => t.tidx == tidx))

/-! ### Frames and runs -/

/-- Instructions of the control slice that work on registers alone: they reach neither memory nor the code object (R282 to R286, R290, R304 to
R306). -/
def onlyRegisters (i : Instr) : Bool :=
  match i.enc with
  | .cr _ _ | .cb _ _ => true
  | .ci op _ => op ≤ 0x0A || op == 0x30 || op == 0x31
  | .cj op _ => op == 0x0B || op == 0x0C
  | .cx op _ => 0x10 ≤ op && op ≤ 0x14
  | .zero | .cm _ _ | .exitWord | .d64 _ _ | .task _ _ | .step => false

/-- The control register that such an instruction writes. -/
def destC (i : Instr) : Option (BitVec 6) :=
  match i.enc with
  | .cr _ f => some f.rd
  | .ci op f => if op == 0x31 then none else some f.rd
  | .cj _ f => some f.rd
  | .cx _ f => some f.rd
  | .cb _ _ | .zero | .cm _ _ | .exitWord | .d64 _ _ | .task _ _ | .step => none

/-- The state in which a turn begins that the schedule names next: its clocks have passed, nobody executes yet, and the homes' queues stand as
the agent finds them. -/
def turnBegins (s : State) (dt : Nat) (t : Turn) (rest : List (Nat × Turn)) : State :=
  comeTo (sweepHomes { s with cycle := s.cycle + dt, schedule := rest, cur := .none }) t.visitor

end Sys2Proof.Machine
end

