-- ==== Sys2Proof/WellFormed.lean ====
section
/-!
DEFINITION. Well-formed instructions: an encoded instruction whose fields obey the rules of R125, R185 to R188, R234 and
R239 to R244; a hardware step carries no fields to check.
-/

namespace Sys2Proof

/-- The instruction's fields obey the rules of its format. -/
def Instr.wf (i : Instr) : Bool := i.enc.err.isNone

/-- The instruction stands in code or in a task stream (a hardware step does not). -/
def Instr.encoded (i : Instr) : Bool :=
  match i.enc with
  | .step => false
  | .zero | .cr _ _ | .ci _ _ | .cb _ _ | .cj _ _ | .cm _ _ | .exitWord | .cx _ _ | .d64 _ _ | .task _ _ => true

end Sys2Proof
end

