-- ==== Sys2Proof/Certificates/Slice0/Obligations.lean ====
section
/-!
DEFINITION. The statements about this machine, each a proposition for the provers.
-/

open Sys2Proof Sys2Proof.Machine

/-- R282: what the ALU group computes from a := c[ra] and b := c[rb]; each instruction completes with that result in c[rd].

R283: a zero divisor traps INT_DIV_ZERO at the instruction and writes no register; DIV of -2^63 by -1 gives -2^63 and REM of the
same operands 0. -/
def Obligations.AluResults : Prop :=
  (∀ (f : CR) (s : State) (u : UnitSt), CtlAt s u →
    let a := u.c f.ra
    let b := u.c f.rb
    let sh := (b.extractLsb' 0 6).toNat
    let gives (i : Instr) (x : Word) : Prop := exec i s = .next (s.retireC (u.setC f.rd x) 1)
    gives (.add f) (a + b) ∧ gives (.sub f) (a - b) ∧ gives (.and f) (a &&& b) ∧ gives (.or f) (a ||| b) ∧
    gives (.xor f) (a ^^^ b) ∧ gives (.andn f) (a &&& ~~~b) ∧
    gives (.sll f) (a <<< sh) ∧ gives (.srl f) (a >>> sh) ∧ gives (.sra f) (a.sshiftRight sh) ∧
    gives (.ror f) ((a >>> sh) ||| (a <<< ((64 - sh) % 64))) ∧
    gives (.slt f) (if a.toInt < b.toInt then 1 else 0) ∧ gives (.sltu f) (if a.toNat < b.toNat then 1 else 0) ∧
    gives (.seq f) (if a = b then 1 else 0) ∧
    gives (.min f) (if a.toInt ≤ b.toInt then a else b) ∧ gives (.max f) (if b.toInt ≤ a.toInt then a else b) ∧
    gives (.minu f) (if a.toNat ≤ b.toNat then a else b) ∧ gives (.maxu f) (if b.toNat ≤ a.toNat then a else b) ∧
    gives (.mul f) (BitVec.ofNat 64 (a.toNat * b.toNat)) ∧
    gives (.mulh f) ((BitVec.ofInt 128 (a.toInt * b.toInt)).extractLsb' 64 64) ∧
    gives (.mulhu f) ((BitVec.ofNat 128 (a.toNat * b.toNat)).extractLsb' 64 64) ∧
    (b ≠ 0 →
      gives (.div f) (BitVec.ofInt 64 (Int.tdiv a.toInt b.toInt)) ∧ gives (.divu f) (BitVec.ofNat 64 (a.toNat / b.toNat)) ∧
      gives (.rem f) (a - b * BitVec.ofInt 64 (Int.tdiv a.toInt b.toInt)) ∧
      gives (.remu f) (a - b * BitVec.ofNat 64 (a.toNat / b.toNat))) ∧
    (∃ n : Nat, gives (.clz f) (BitVec.ofNat 64 n) ∧ n ≤ 64 ∧ (∀ i < 64, 64 - n ≤ i → a.getLsbD i = false) ∧
      (n < 64 → a.getLsbD (63 - n) = true)) ∧
    (∃ n : Nat, gives (.ctz f) (BitVec.ofNat 64 n) ∧ n ≤ 64 ∧ (∀ i < n, a.getLsbD i = false) ∧ (n < 64 → a.getLsbD n = true)) ∧
    gives (.popc f) (BitVec.ofNat 64 (((List.range 64).filter (fun i => a.getLsbD i)).length))) ∧
  (∀ (f : CR) (s : State) (u : UnitSt), CtlAt s u →
    (u.c f.rb = 0 → ∀ i ∈ [Instr.div f, .divu f, .rem f, .remu f], exec i s = .next (s.trapC u tcDivZero)) ∧
    (u.c f.ra = 0x8000000000000000 → u.c f.rb = 0xFFFFFFFFFFFFFFFF →
      exec (.div f) s = .next (s.retireC (u.setC f.rd 0x8000000000000000) 1) ∧ exec (.rem f) s = .next (s.retireC (u.setC f.rd 0) 1)))

/-- R284, R285: the immediate instructions, LIH and ADDPC complete with their results. -/
def Obligations.ImmediateResults : Prop :=
  (∀ (f : CI) (s : State) (u : UnitSt), CtlAt s u →
    let a := u.c f.ra
    let imm := f.imm.signExtend 64
    let n := (f.imm.extractLsb' 0 6).toNat
    let gives (i : Instr) (x : Word) : Prop := exec i s = .next (s.retireC (u.setC f.rd x) 1)
    gives (.addi f) (a + imm) ∧ gives (.andi f) (a &&& imm) ∧ gives (.ori f) (a ||| imm) ∧ gives (.xori f) (a ^^^ imm) ∧
    gives (.slli f) (a <<< n) ∧ gives (.srli f) (a >>> n) ∧ gives (.srai f) (a.sshiftRight n) ∧
    gives (.slti f) (if a.toInt < f.imm.toInt then 1 else 0) ∧ gives (.sltiu f) (if a.toNat < imm.toNat then 1 else 0)) ∧
  (∀ (f : CJ) (s : State) (u : UnitSt), CtlAt s u →
    let gives (i : Instr) (x : Word) : Prop := exec i s = .next (s.retireC (u.setC f.rd x) 1)
    gives (.lih f) (f.off.signExtend 64 <<< 13) ∧
    gives (.addpc f) (BitVec.ofNat 64 u.launch.code + BitVec.ofNat 64 u.launch.lineOff +
      4 * (BitVec.ofNat 64 u.ctx.ctl.pc + f.off.signExtend 64)))

/-- R286: a branch whose condition holds transfers to PC + sext(off10); otherwise the slice goes on.

R287: JAL and JALR write the PC of the next control instruction, or 8 × LINES where the walk to it stops, and transfer; a
JALR target above 32 bits traps ILLEGAL_LINE with cause 6, a line whose fetch faults traps at the jump, and neither writes c[rd]. -/
def Obligations.ControlTransfers : Prop :=
  (∀ (f : CB) (s : State) (u : UnitSt), CtlAt s u →
    let a := u.c f.ra
    let b := u.c f.rb
    let target := (BitVec.ofNat 32 u.ctx.ctl.pc + f.off.signExtend 32).toNat
    let goes (i : Instr) (c : Prop) : Prop :=
      (c → exec i s = .next (s.putUnit ((u.modCtl (Ctl.transfer target)).stamped s.cycle))) ∧ (¬ c → exec i s = .next (s.retireC u 1))
    goes (.bEq f) (a = b) ∧ goes (.bNe f) (a ≠ b) ∧ goes (.bLt f) (a.toInt < b.toInt) ∧ goes (.bGe f) (b.toInt ≤ a.toInt) ∧
    goes (.bLtu f) (a.toNat < b.toNat) ∧ goes (.bGeu f) (b.toNat ≤ a.toNat)) ∧
  (∀ (s t : State) (u : UnitSt) (w : WalkPc), CtlAt s u →
    nextPc u false false (u.launch.lines + 1) s u.ctx.ctl.buf (u.ctx.ctl.pc + 1) = (t, w) →
    let linked (rd : BitVec 6) (target link : Nat) : State :=
      t.putUnit (((u.setC rd (BitVec.ofNat 64 link)).modCtl (Ctl.transfer target)).stamped t.cycle)
    let jumps (i : Instr) (rd : BitVec 6) (target : Nat) : Prop :=
      (∀ pc, w = .found pc → exec i s = .next (linked rd target pc)) ∧
      (∀ pc c, w = .stop pc c → exec i s = .next (linked rd target (8 * u.launch.lines))) ∧
      (∀ pc code va info, w = .fault pc code va info →
        exec i s = .next (t.takeTrap (reread t u) { code := code, src := 0, pc := u.ctx.ctl.pc, addr := va, info := info }) ∧
        (reread t u).ctx.ctl.c = u.ctx.ctl.c)
    (∀ f : CJ, jumps (.jal f) f.rd (BitVec.ofNat 32 u.ctx.ctl.pc + f.off.signExtend 32).toNat) ∧
    (∀ f : CI,
      let x := u.c f.ra + f.imm.signExtend 64
      (x.toNat < 2 ^ 32 → jumps (.jalr f) f.rd x.toNat) ∧
      (2 ^ 32 ≤ x.toNat → exec (.jalr f) s = .next (s.trapC u tcIllegalLine x.toNat 6))))

/-- R304 to R306: LEA, MZIP, MUNZ, BFX and BFI complete with their results, bit by bit. -/
def Obligations.AddressHelperResults : Prop :=
  ∀ (f : CX) (s : State) (u : UnitSt), CtlAt s u →
    let a := u.c f.ra
    let b := u.c f.rb
    let pos := f.imm.toNat % 64
    let len := f.imm.toNat / 64
    let gives (i : Instr) (p : Word → Prop) : Prop := ∃ x, exec i s = .next (s.retireC (u.setC f.rd x) 2) ∧ p x
    gives (.lea f) (fun x => x = a + (b <<< (f.sub.extractLsb' 0 3).toNat) + f.imm.signExtend 64) ∧
    (f.sub = 0 → gives (.mzip f) (fun x => ∀ i < 32, x.getLsbD (2 * i) = a.getLsbD i ∧ x.getLsbD (2 * i + 1) = b.getLsbD i)) ∧
    (f.sub = 1 → gives (.mzip f) (fun x => x.getLsbD 63 = false ∧ ∀ i < 21,
      x.getLsbD (3 * i) = a.getLsbD i ∧ x.getLsbD (3 * i + 1) = b.getLsbD i ∧ x.getLsbD (3 * i + 2) = (u.c f.rc).getLsbD i)) ∧
    (∀ k < 2, f.sub.toNat = 2 * k → gives (.munz f) (fun x => ∀ i < 64, x.getLsbD i = (decide (i < 32) && a.getLsbD (2 * i + k)))) ∧
    (∀ k < 3, f.sub.toNat = 8 + 2 * k → gives (.munz f) (fun x => ∀ i < 64, x.getLsbD i = (decide (i < 21) && a.getLsbD (3 * i + k)))) ∧
    (1 ≤ len → pos + len ≤ 64 →
      (f.sub = 0 → gives (.bfx f) (fun x => ∀ i < 64, x.getLsbD i = (decide (i < len) && a.getLsbD (pos + i)))) ∧
      (f.sub = 1 → gives (.bfx f) (fun x => ∀ i < 64, x.getLsbD i = a.getLsbD (pos + min i (len - 1)))) ∧
      gives (.bfi f) (fun x => ∀ i < 64, x.getLsbD i =
        if pos ≤ i ∧ i < pos + len then a.getLsbD (i - pos) else (u.c f.rd).getLsbD i))

/-- R290, R291: CSRR reads every system register of the table, CSRW writes FPMODE and FPFLAGS without their reserved bits. -/
def Obligations.SystemRegisters : Prop :=
  ∀ (f : CI) (s : State) (u : UnitSt), CtlAt s u →
    let reads (n x : Nat) : Prop := f.imm.toNat = n → exec (.csrr f) s = .next (s.retireC (u.setC f.rd (BitVec.ofNat 64 x)) 1)
    reads 0x000 128 ∧ reads 0x001 u.pair ∧ reads 0x002 u.slot ∧ reads 0x003 u.launch.cls ∧ reads 0x004 u.ux ∧ reads 0x005 u.uy ∧
    reads 0x006 u.uz ∧ reads 0x007 u.key.lin ∧ reads 0x008 u.launch.gx ∧ reads 0x009 u.launch.gy ∧ reads 0x00A u.launch.gz ∧
    reads 0x00B u.key.tidx ∧ reads 0x00C u.key.job ∧ reads 0x00D u.launch.code ∧
    reads 0x00E (u.launch.stack + u.key.lin * u.launch.stksz) ∧ reads 0x00F u.launch.stksz ∧ reads 0x010 s.cycle ∧
    reads 0x011 u.ctx.chTail ∧ reads 0x020 u.ctx.ctl.fpmode.toNat ∧ reads 0x021 u.ctx.ctl.fpflags.toNat ∧
    reads 0x030 u.ctx.ctl.trapcode ∧ reads 0x031 u.ctx.ctl.trappc ∧ reads 0x032 u.ctx.ctl.trapaddr ∧ reads 0x033 u.ctx.ctl.trapinfo ∧
    (∀ k < 8, reads (0x040 + k) (u.launch.args.getD k 0)) ∧
    (f.imm = 0x020 → exec (.csrw f) s = .next (s.retireC (u.modCtl (fun c => { c with fpmode := (u.c f.ra).extractLsb' 0 9 })) 1)) ∧
    (f.imm = 0x021 → exec (.csrw f) s = .next (s.retireC (u.modCtl (fun c => { c with fpflags := (u.c f.ra).extractLsb' 0 6 })) 1))

/-- R292: TRAP completes, so that the saved PC is the next control instruction's (or the one at which the walk to it stops), and raises
SW_TRAP with its immediate; every register keeps its value.

R235: the ILLEGAL instruction traps ILLEGAL_OP with cause 1, precisely at its PC.

R181, R281, R401: a trap freezes the unit where it stands, with the PC, address and information of the trap; no register, queue or byte of
memory changes.

R293: YIELD n gives up n clocks, then the slice goes on with every register unchanged.

R294: EXIT pushes the end marker, waits for the stores and the commands, and then the control slice ends; a marker already pushed
is not pushed again. -/
def Obligations.TrapsAndEnds : Prop :=
  (∀ (f : CI) (s t : State) (u : UnitSt) (w : WalkPc), CtlAt s u →
    nextPc u false true (u.launch.lines + 1) s u.ctx.ctl.buf (u.ctx.ctl.pc + 1) = (t, w) → w ≠ .wait → (t.findUnit u.key).isSome →
    ∃ x v, exec (.trap f) s = .next x ∧ x.findUnit u.key = some v ∧ v.place = .trapped u.pair u.slot ∧
      v.trap.map Trap.code = some 0x20 ∧ v.trap.map Trap.info = some f.imm.toNat ∧ v.trap.map Trap.src = some 0 ∧
      v.trap.map Trap.pc = some v.ctx.ctl.pc ∧ v.ctx.ctl.c = u.ctx.ctl.c ∧ v.ctx.dat = u.ctx.dat ∧
      (∀ pc, w = .found pc → v.ctx.ctl.pc = pc) ∧ (∀ pc c, w = .stop pc c → v.ctx.ctl.pc = pc ∧ v.ctx.ctl.mode = .walk) ∧
      (∀ pc code va info, w = .fault pc code va info → v.ctx.ctl.pc = pc ∧ v.ctx.ctl.mode = .walk)) ∧
  (∀ (s : State) (u : UnitSt), CtlAt s u → exec .illegal s = .next (s.trapC u tcIllegalOp 0 1)) ∧
  (∀ (s : State) (u : UnitSt) (p k code addr info : Nat), s.findUnit u.key = some u → u.place = .placed p k →
    ∃ v, (s.trapC u code addr info).findUnit u.key = some v ∧ v.place = .trapped p k ∧ v.ctx = u.ctx ∧
      v.trap.map Trap.code = some code ∧ v.trap.map Trap.pc = some u.ctx.ctl.pc ∧ v.trap.map Trap.addr = some addr ∧
      v.trap.map Trap.info = some info ∧ v.trap.map Trap.src = some 0 ∧ v.trap.bind Trap.chseq = some u.ctx.dat.chseq ∧
      SameMemory s (s.trapC u code addr info) ∧ SameOthers s (s.trapC u code addr info) u) ∧
  ((∀ (f : CI) (s : State) (u : UnitSt), CtlAt s u → exec (.yield f) s = .next (s.waitC u (.yielding (s.cycle + f.imm.toNat)))) ∧
  (∀ (s : State) (u : UnitSt) (p k n : Nat), s.resident p k = some u → u.ctx.ctl.wait = .yielding n → n ≤ s.cycle →
    exec (.yieldEnd p k) s = .next (s.retireC u 1))) ∧
  ((∀ (s : State) (u : UnitSt), CtlAt s u → u.ctx.ctl.marker = false → u.ctx.dat.done = false → u.ctx.dat.stopped = false →
    pantryPending u = false → u.ctx.chute.length < 64 →
    ∃ v, exec .exit s = .next (s.putUnit v) ∧ v.key = u.key ∧ v.ctx.chute = u.ctx.chute ++ [⟨0x80000000, u.ctx.chTail % 2 ^ 32⟩] ∧
      v.ctx.ctl.marker = true ∧ v.ctx.ctl.wait = .exiting 2 ∧ v.ctx.ctl.c = u.ctx.ctl.c) ∧
  (∀ (s : State) (u : UnitSt), CtlAt s u → u.ctx.ctl.marker = true → exec .exit s = .next (s.waitC u (.exiting 2))) ∧
  (∀ (s : State) (u : UnitSt) (p k : Nat), s.resident p k = some u → u.ctx.ctl.wait = .exiting 2 → u.ctx.ctl.sb = [] →
    (∀ g < 4, u.ctx.ctl.unacked.toArray.getD g 0 = 0) → u.ctx.ctl.posted = none → s.unitCmds u.key = [] →
    ∃ v, exec (.exitComplete p k) s = .next (s.putUnit v) ∧ v.key = u.key ∧ v.ctx.ctl.done = true ∧ v.ctx.dw = [] ∧
      v.ctx.ctl.c = u.ctx.ctl.c ∧ v.ctx.dat = u.ctx.dat))

/-- R288, R289, R295: a load of 1, 2, 4 or 8 bytes from the unit's own pantry region, whatever the states of its lines, completes with the
zero- or sign-extended bytes in c[rd]; memory and all other registers keep their values. An acquire LDO (R111, R124) does so too, keeps nothing
that the slice has read ahead, and takes the job's merging lines out of the L1.

R129: a load takes its value from the youngest store of the slice to its bytes that has not performed, and completes.

R93, R113, R129: a load of a C page whose line the pair's L1 holds (a host or peer line with a stamp that reaches the slice's floor, R116),
or of an M page (R110) whose line it holds for the job, completes with the line's bytes and changes neither memory nor the L1; what the slice
has read ahead of that location it takes instead. An acquire LDO takes its acquire effects first (R111, R115, R295). -/
def Obligations.LoadsRead : Prop :=
  (∀ (s : State) (u : UnitSt), CtlAt s u →
    let loads (i : Instr) (rd : BitVec 6) (va size : Nat) (signed : Bool) (n : Nat) : Prop :=
      LocalAccess s u va size →
      let x := leNat ((s.bytesAt (u.pantryPa (va - localWindow)) size).map TByte.v)
      ∃ t, exec i s = .next t ∧ SameMemory s t ∧
        Retired s t u ((u.setC rd (if signed then BitVec.ofInt 64 (sintOf (8 * size) x) else BitVec.ofNat 64 x)).modCtl
          (fun c => c.forget (u.pantryPa (va - localWindow)) size)) n
    (∀ f : CM,
      let va := (u.c f.ra + BitVec.ofInt 64 (f.off.toInt * 2 ^ f.sz.toNat)).toNat
      loads (.ld f) f.rd va (2 ^ f.sz.toNat) false 1 ∧ loads (.lds f) f.rd va (2 ^ f.sz.toNat) true 1) ∧
    (∀ f : CX,
      let va := (u.c f.ra + f.imm.signExtend 64).toNat
      let size := 2 ^ (f.sub.toNat % 4)
      (f.ord = 0 → loads (.ldo f) f.rd va size (f.sub.getLsbD 2) 2) ∧
      (f.ord = 1 → LocalAccess s u va size → CleanMerge s u f.scope.toNat →
        let x := leNat ((s.bytesAt (u.pantryPa (va - localWindow)) size).map TByte.v)
        ∃ t v, exec (.ldo f) s = .next t ∧ SameMemory s t ∧ t.findUnit u.key = some v ∧ Acquired t u v f.scope.toNat ∧
          v.ctx.ctl.c = (u.setC f.rd (if f.sub.getLsbD 2 then BitVec.ofInt 64 (sintOf (8 * size) x) else BitVec.ofNat 64 x)).ctx.ctl.c))) ∧
  (∀ (f : CM) (s : State) (u : UnitSt) (e : StoreEntry), CtlAt s u →
    let size := 2 ^ f.sz.toNat
    let va := (u.c f.ra + BitVec.ofInt 64 (f.off.toInt * 2 ^ f.sz.toNat)).toNat
    let pa := u.pantryPa (va - localWindow)
    va % size = 0 → localWindow ≤ va → va < 2 ^ 57 → va - localWindow + size ≤ u.regionBytes →
    (ownStores u pa size).getLast? = some e → e.acc.pa ≤ pa → pa + size ≤ e.acc.pa + e.acc.size →
    ∃ t, exec (.ld f) s = .next t ∧ SameMemory s t ∧
      Retired s t u ((u.setC f.rd (BitVec.ofNat 64 (leNat (sliceOf e.acc.use.storeData (pa - e.acc.pa) size)))).modCtl (fun c => c.forget pa size)) 1) ∧
  (∀ (s t : State) (u : UnitSt) (l : L1Line) (e : Pte) (pa lvl : Nat), CtlAt s u →
    let loads (i : Instr) (rd : BitVec 6) (va size : Nat) (signed : Bool) (n : Nat) (acq : Option Nat) : Prop :=
      let s1 := match acq with | some sc => acquireAt s u va sc | none => s
      let w := reread s1 u
      va % size = 0 → va < localWindow → xlate s1 w false { kind := .load, size := size } va = .ok t pa e lvl →
      (regionOk u va size true false = true ∨ (s.fwj u.key.job = true ∧ Pte.rcx e = true)) → ownStores u pa size = [] →
      let ends (bs : List Byte) : Prop :=
        let x := if signed then BitVec.ofInt 64 (sintOf (8 * size) (leNat bs)) else BitVec.ofNat 64 (leNat bs)
        (acq = none → ∃ y, exec i s = .next y ∧ SameMemory s y ∧ (y.pairOf u.pair).l1 = (s.pairOf u.pair).l1 ∧
          Retired s y u ((u.setC rd x).modCtl (fun c => c.forget pa size)) n) ∧
        (∀ sc, acq = some sc → ∃ y v, exec i s = .next y ∧ y.findUnit u.key = some v ∧ Acquired y u v sc ∧ v.ctx.ctl.c = (u.setC rd x).ctx.ctl.c)
      (∀ bs, acq = none → u.ctx.ctl.readAhead pa size = some bs → bs.length = size → ends bs) ∧
      (u.ctx.ctl.readAhead pa size = none ∨ acq.isSome = true →
        ((Pte.cm e = 0 ∧ cachedHere u.pair pa = true ∧ t.l1Find u.pair (lineOf pa) [.s, .e, .m] = some l) ∨
         (Pte.cm e = 1 ∧ cachedHere u.pair pa = true ∧ t.l1Find u.pair (lineOf pa) [.mg] = some l ∧ l.jobs.contains u.key.job = true) ∨
         (Pte.cm e = 0 ∧ ((∃ p a, place52 pa = .host p a) ∨ (∃ q a, place52 pa = .peer q a)) ∧ t.l1Find u.pair (lineOf pa) [.pc] = some l ∧
           stampOk l.stamp (dieOf u.pair) (if isPeerLine (lineOf pa) then w.ctx.ctl.peerFloor else w.ctx.ctl.hostFloor) = true)) →
        l.data.length = 128 → pa % 128 + size ≤ 128 → (isHbm pa = false ∨ ∀ b ∈ l.data, b.key = s.keyGenOf u) →
        badIn l.data (pa % 128) size = false → homePoisoned t pa size = false →
        ends ((sliceOf l.data (pa % 128) size).map TByte.v))
    (∀ f : CM,
      let va := (u.c f.ra + BitVec.ofInt 64 (f.off.toInt * 2 ^ f.sz.toNat)).toNat
      loads (.ld f) f.rd va (2 ^ f.sz.toNat) false 1 none ∧ loads (.lds f) f.rd va (2 ^ f.sz.toNat) true 1 none) ∧
    (∀ f : CX,
      let va := (u.c f.ra + f.imm.signExtend 64).toNat
      (f.ord = 0 → loads (.ldo f) f.rd va (2 ^ (f.sub.toNat % 4)) (f.sub.getLsbD 2) 2 none) ∧
      (f.ord = 1 → loads (.ldo f) f.rd va (2 ^ (f.sub.toNat % 4)) (f.sub.getLsbD 2) 2 (some f.scope.toNat))))

/-- R146, R288, R296: a store to the unit's own pantry region, or to a page whose translation stands in the TLB, enters the store buffer with
its address and the low bytes of its data, and completes; memory does not change yet. A release STO (R125, R148) is marked with its scope.

R146, R147, R408: a waiting store enters the buffer once there is room; an acknowledgement takes the store off its group's counter and
records the first error.

R146, R289: the oldest buffered store, when it goes to a pantry, performs: exactly its bytes are written, everything else in memory
stays, it leaves the buffer and its acknowledgement sets out, in the group of R147. A release store (R148) does so once every group up to its
scope is empty, and not before.

R93, R94, R110, R117: the oldest buffered store performs in a line that the pair's L1 holds: in E or M for a C page, in MG for the job for an
M page. Its bytes stand in the line and its words are dirty; the line of a C page is in M; the line's other bytes and all of memory stay. -/
def Obligations.StoresPerform : Prop :=
  (∀ (s : State) (u : UnitSt), CtlAt s u → u.ctx.ctl.sb.length < 32 →
    let enters (i : Instr) (va size : Nat) (data : Word) (n : Nat) (rel : Option Nat) : Prop :=
      va % size = 0 → va < 2 ^ 57 →
      let buffered (s0 : State) (pa : Nat) : Prop :=
        ∃ e t, exec i s = .next t ∧ e.acc.va = va ∧ e.acc.pa = pa ∧ e.acc.size = size ∧ e.acc.pair = u.pair ∧ e.rel = rel ∧
          e.acc.use.storeData = leBytes size data.toNat ∧ SameMemory s0 t ∧
          Retired s0 t u (u.modCtl (fun c => ({ c with sb := c.sb ++ [e] }).forget pa size)) n
      (localWindow ≤ va → va - localWindow + size ≤ u.regionBytes → mirrorAt s u.key (va - localWindow) size = none →
        buffered s (u.pantryPa (va - localWindow))) ∧
      (va < localWindow → regionOk u va size false true = true → ∀ (t : State) (pa : Nat) (e : Pte) (lvl : Nat),
        xlate s u false { kind := .store, size := size } va = .ok t pa e lvl → buffered t pa)
    (∀ f : CM, enters (.st f) (u.c f.ra + BitVec.ofInt 64 (f.off.toInt * 2 ^ f.sz.toNat)).toNat (2 ^ f.sz.toNat) (u.c f.rd) 1 none) ∧
    (∀ f : CX,
      let stores (rel : Option Nat) : Prop := enters (.sto f) (u.c f.ra + f.imm.signExtend 64).toNat (2 ^ (f.sub.toNat % 4)) (u.c f.rb) 2 rel
      (f.ord = 0 → stores none) ∧ (f.ord = 2 → u.ctx.ctl.posted = none → stores (some f.scope.toNat)))) ∧
  ((∀ (s : State) (u : UnitSt) (p k : Nat) (e : StoreEntry), s.resident p k = some u → u.ctx.ctl.wait = .storeBuf e →
    u.ctx.ctl.sb.length < 32 →
    exec (.storeBufferSpace p k) s =
      .next (s.retireC (u.modCtl (fun c => ({ c with sb := c.sb ++ [e] }).forget e.acc.pa e.acc.size)) e.acc.len)) ∧
  (∀ (s : State) (u : UnitSt) (k : Nat) (a : Ack), s.acks[k]? = some a → s.findUnit a.unit = some u → a.group < 4 →
    ∃ t v, exec (.storeAck k) s = .next t ∧ t.findUnit a.unit = some v ∧ t.acks = dropIdx s.acks k ∧
      v.ctx.ctl.unacked.toArray.getD a.group 0 = u.ctx.ctl.unacked.toArray.getD a.group 0 - 1 ∧
      (a.err = none → v.ctx.ctl.posted = u.ctx.ctl.posted) ∧
      (∀ e, a.err = some e → u.ctx.ctl.posted = none → v.ctx.ctl.posted = some e) ∧
      v.ctx.ctl.c = u.ctx.ctl.c ∧ v.ctx.ctl.pc = u.ctx.ctl.pc ∧ SameMemory s t)) ∧
  (∀ (s : State) (u : UnitSt) (p k q o sid : Nat) (e : StoreEntry) (rest : List StoreEntry) (data : List Byte),
    s.memWf = true → s.resident p k = some u → s.findUnit u.key = some u → u.ctx.ctl.sb = e :: rest → u.ctx.ctl.flight = [] →
    e.acc.use = .store data sid → e.acc.aid = sid → e.acc.unit = u.key → data.length = e.acc.size → place52 e.acc.pa = .pantry q o →
    s.partPoison e.acc.pa e.acc.size = false →
    let waits (sc : Nat) : Prop := ∃ g ≤ scopeGroup sc, u.ctx.ctl.unacked.toArray.getD g 0 ≠ 0
    (∀ sc, e.rel = some sc → waits sc → exec (.storeBufferDrain p k) s = .next s) ∧
    ((∀ sc, e.rel = some sc → ¬ waits sc ∧ CleanMerge s u sc) →
    ∃ t v, exec (.storeBufferDrain p k) s = .next t ∧ t.memWf = true ∧
      (∀ i, i < data.length → (t.byteAt (e.acc.pa + i)).v = data.getD i 0) ∧
      (∀ a, ¬ (e.acc.pa ≤ a ∧ a < e.acc.pa + data.length) → t.byteAt a = s.byteAt a) ∧
      t.acks = s.acks ++ [⟨u.key, if q = u.pair then 0 else if dieOf q = dieOf u.pair then 1 else 2, none⟩] ∧ t.findUnit u.key = some v ∧
      v.ctx.ctl.sb = rest ∧ v.ctx.ctl.flight = [] ∧ v.ctx.ctl.c = u.ctx.ctl.c ∧ v.ctx.ctl.pc = u.ctx.ctl.pc)) ∧
  (∀ (s : State) (u : UnitSt) (p k sid : Nat) (e : StoreEntry) (rest : List StoreEntry) (data : List Byte) (l : L1Line),
    s.resident p k = some u → s.findUnit u.key = some u → u.ctx.ctl.sb = e :: rest → u.ctx.ctl.flight = [] → e.rel = none →
    e.acc.use = .store data sid → e.acc.aid = sid → e.acc.unit = u.key → data.length = e.acc.size → 0 < e.acc.size →
    let pa := e.acc.pa
    let off := pa % 128
    let n := e.acc.size
    let st : L1St := if e.acc.cm = 0 then .m else .mg
    off + n ≤ 128 → l.data.length = 128 → cachedHere u.pair pa = true → backed s pa = true → subscribed s pa n = false →
    homePoisoned s pa n = false → badPart l.data off n = false →
    (e.acc.cm = 0 ∧ s.l1Find u.pair (lineOf pa) [.e, .m] = some l) ∨
      (e.acc.cm = 1 ∧ s.l1Find u.pair (lineOf pa) [.mg] = some l ∧ l.jobs.contains u.key.job = true) →
    ∃ t v m, exec (.storeBufferDrain p k) s = .next t ∧ SameMemory s t ∧ t.l1Find u.pair (lineOf pa) [st] = some m ∧
      (∀ i < n, m.data.getD (off + i) {} = sealed e.acc.key (pa + i) (data.getD i 0)) ∧
      (∀ j < 128, j < off ∨ off + n ≤ j →
        (isHbm pa = true → j / 16 * 16 < off + n → off < j / 16 * 16 + 16 → ∀ i < 16, (l.data.getD (j / 16 * 16 + i) {}).key = e.acc.key) →
        m.data.getD j {} = l.data.getD j {}) ∧
      (∀ w < 32, m.dirty.getLsbD w = (l.dirty.getLsbD w || decide (off / 4 ≤ w ∧ 4 * w < off + n))) ∧
      t.acks = s.acks ++ [⟨u.key, 0, none⟩] ∧ t.findUnit u.key = some v ∧ v.ctx.ctl.sb = rest ∧ v.ctx.ctl.flight = [] ∧
      v.ctx.ctl.c = u.ctx.ctl.c ∧ v.ctx.ctl.pc = u.ctx.ctl.pc)

/-- R289, R10, R12, R43, R154: an access of the control slice traps, in this order, MISALIGN for an address that its size does not divide,
PAGE_ABSENT with cause 1 above 57 bits, PANTRY_RANGE past the end of the region in the local window, and REGION outside the unit's
intervals elsewhere. -/
def Obligations.AccessChecksTrap : Prop :=
  ∀ (s : State) (u : UnitSt), CtlAt s u →
    let traps (i : Instr) (va size : Nat) (rd wr : Bool) (kind : Nat) : Prop :=
      (va % size ≠ 0 → exec i s = .next (s.trapC u 0x0A va)) ∧
      (va % size = 0 → 2 ^ 57 ≤ va → exec i s = .next (s.trapC u 0x10 va (1 + 16 * 7 + 256 * kind))) ∧
      (va % size = 0 → va < 2 ^ 57 → localWindow ≤ va → u.regionBytes < va - localWindow + size → exec i s = .next (s.trapC u 0x09 va)) ∧
      (va % size = 0 → va < localWindow → s.fwj u.key.job = false → regionOk u va size rd wr = false → exec i s = .next (s.trapC u 0x13 va))
    (∀ f : CM,
      let va := (u.c f.ra + BitVec.ofInt 64 (f.off.toInt * 2 ^ f.sz.toNat)).toNat
      traps (.ld f) va (2 ^ f.sz.toNat) true false 0 ∧ traps (.lds f) va (2 ^ f.sz.toNat) true false 0 ∧
      traps (.st f) va (2 ^ f.sz.toNat) false true 1) ∧
    (∀ f : CX, f.ord = 0 →
      let va := (u.c f.ra + f.imm.signExtend 64).toNat
      traps (.ldo f) va (2 ^ (f.sub.toNat % 4)) true false 0 ∧ traps (.sto f) va (2 ^ (f.sub.toNat % 4)) false true 1 ∧
      traps (.amo f) va (if f.sub.toNat % 16 = 12 then 16 else if f.sub.getLsbD 6 then 8 else 4) true true 2 ∧
      traps (.waitv f) va (if f.sub.getLsbD 0 then 4 else 8) true false 0)

/-- R297, R298: an AMO on the unit's own pantry region reads the old value into c[rd] (CAS128: c[rd] and c[rd+1]) and writes the new value of
its operation, FADD32's rounded to nearest even, to exactly its bytes in one step. With a release part (R125, R148) it does so once the store
buffer and the groups up to its scope are empty; with an acquire part it has the acquire effects (R111, R124). -/
def Obligations.LocalAtomics : Prop :=
  ∀ (f : CX) (s : State) (u : UnitSt), CtlAt s u → s.memWf = true → f.sub.toNat % 16 ≤ 12 →
    (f.ord.getLsbD 1 = true → u.ctx.ctl.posted = none ∧ u.ctx.ctl.sb = [] ∧ ∀ g ≤ scopeGroup f.scope.toNat, u.ctx.ctl.unacked.toArray.getD g 0 = 0) →
    (f.ord = 0 ∨ CleanMerge s u f.scope.toNat) →
    let op := f.sub.toNat % 16
    let size := if op = 12 then 16 else if f.sub.getLsbD 6 then 8 else 4
    let w := 8 * size
    let va := (u.c f.ra + f.imm.signExtend 64).toNat
    let pa := u.pantryPa (va - localWindow)
    let m := leNat ((s.bytesAt pa size).map TByte.v)
    let two (r : BitVec 6) : Nat := if op = 12 then (u.c r).toNat + 2 ^ 64 * (u.c (r + 1)).toNat else (u.c r).toNat % 2 ^ w
    let b := two f.rb
    LocalAccess s u va size → mirrorAt s u.key (va - localWindow) size = none →
    ∃ t x, exec (.amo f) s = .next t ∧ t.memWf = true ∧ x < 2 ^ w ∧
      (∀ i < size, (t.byteAt (pa + i)).v = (leBytes size x).getD i 0) ∧
      (∀ a, ¬ (pa ≤ a ∧ a < pa + size) → t.byteAt a = s.byteAt a) ∧
      (∃ v, t.findUnit u.key = some v ∧ v.ctx.dat = u.ctx.dat ∧ v.ctx.ctl.pc = u.ctx.ctl.pc + 2 ∧
        (f.ord.getLsbD 0 = true → Acquired t u v f.scope.toNat) ∧
        v.ctx.ctl.c = (if op = 12 then (u.setC f.rd (BitVec.ofNat 64 m)).setC (f.rd + 1) (BitVec.ofNat 64 (m / 2 ^ 64))
          else u.setC f.rd (BitVec.ofNat 64 m)).ctx.ctl.c) ∧
      (op = 0 → x = (m + b) % 2 ^ w) ∧ (op = 1 → (x : Int) = ((m : Int) - b) % (2 ^ w : Nat)) ∧ (op = 2 → x = m &&& b) ∧
      (op = 3 → x = m ||| b) ∧ (op = 4 → x = m ^^^ b) ∧
      (op = 5 → x = if sintOf w m ≤ sintOf w b then m else b) ∧ (op = 6 → x = if sintOf w b ≤ sintOf w m then m else b) ∧
      (op = 7 → x = min m b) ∧ (op = 8 → x = max m b) ∧ (op = 9 → x = b) ∧
      (op = 10 ∨ op = 12 → x = if m = b then two f.rc else m) ∧
      (op = 11 → f.sub.getLsbD 6 = false → x = (roundTo (exactSum [decodeVal m 1, decodeVal b 1] 0).1 1 0 false).1)

/-- R300, R111, R148: FENCE completes (exec answers the next state) when it has no release part, or no posted error stands and the stores that its scope
covers are acknowledged; every register keeps its value, the PC moves past it, and after an acquire part at a scope wider than .self the job holds no
merging line in the pair's L1.

R148, R408: a fence, an AMO or a store with a release part surfaces a posted store error before anything else, and a fence or AMO
otherwise waits while the stores that its scope covers are unacknowledged.

R90, R75, R302: ICINV and CINV complete in every state: exec answers a next state with no line of the job left in the instruction or constant caches of the pairs in their scope (for
ICINV also of the dies it touches), and every other line untouched.

R303: PREF traps never and changes no register; it completes (exec answers a next state with the PC past it) in the local window, outside the
unit's regions, where its translation fails, and where the request for its line can set out, and is tried again while it cannot. -/
def Obligations.FencesAndCaches : Prop :=
  (∀ (f : CX) (s : State) (u : UnitSt), CtlAt s u →
    (f.ord = 1 ∨ (u.ctx.ctl.posted = none ∧ drained u f.scope.toNat = true)) →
    ∃ t v, exec (.fence f) s = .next t ∧ t.findUnit u.key = some v ∧ v.ctx.ctl.c = u.ctx.ctl.c ∧ v.ctx.dat = u.ctx.dat ∧
      v.ctx.ctl.pc = u.ctx.ctl.pc + 2 ∧ v.ctx.ctl.wait = .none ∧
      (f.ord ≠ 2 → f.scope ≠ 0 → ∀ l ∈ (t.pairOf u.pair).l1, l.st = .mg → u.key.job ∉ l.jobs)) ∧
  (∀ (f : CX) (s : State) (u : UnitSt), CtlAt s u →
    (∀ (code addr info : Nat), u.ctx.ctl.posted = some (code, addr, info) →
      let traps (i : Instr) : Prop := ∃ t v, exec i s = .next t ∧ t.findUnit u.key = some v ∧ v.place = .trapped u.pair u.slot ∧
        v.ctx.ctl.posted = none ∧ v.ctx.ctl.pc = u.ctx.ctl.pc ∧ v.trap.map Trap.code = some code ∧ v.trap.map Trap.addr = some addr ∧
        v.trap.map Trap.info = some info ∧ v.trap.map Trap.posted = some true
      (f.ord ≠ 1 → traps (.fence f)) ∧ (f.ord.getLsbD 1 = true → traps (.amo f)) ∧ (f.ord = 2 → traps (.sto f))) ∧
    (u.ctx.ctl.posted = none → drained u f.scope.toNat = false →
      (f.ord ≠ 1 → exec (.fence f) s = .next (s.waitC u .release)) ∧
      (f.ord.getLsbD 1 = true → exec (.amo f) s = .next (s.waitC u .release)))) ∧
  (∀ (f : CX) (s : State) (u : UnitSt), CtlAt s u →
    (∃ t, exec (.icinv f) s = .next t ∧ RetiredRestarting s t u 2 ∧ SameMemory s t ∧
      (∀ p ∈ t.pairs, inScope f.scope.toNat u.pair p.id = true → ∀ l ∈ p.l1i, l.job ≠ u.key.job) ∧
      (∀ d < 4, d = dieOf u.pair ∨ 5 ≤ f.scope.toNat → ∀ l ∈ (t.die d).l2i, l.job ≠ u.key.job) ∧
      (∀ d < 4, ∀ l ∈ (s.die d).l2i, l.job ≠ u.key.job → l ∈ (t.die d).l2i) ∧
      (∀ p ∈ s.pairs, ∀ l ∈ p.l1i, l.job ≠ u.key.job → ∃ q ∈ t.pairs, q.id = p.id ∧ l ∈ q.l1i)) ∧
    (∃ t, exec (.cinv f) s = .next t ∧ RetiredRestarting s t u 2 ∧ SameMemory s t ∧
      (∀ p ∈ t.pairs, inScope f.scope.toNat u.pair p.id = true → ∀ l ∈ p.cc, l.job ≠ u.key.job) ∧
      (∀ p ∈ s.pairs, ∀ l ∈ p.cc, l.job ≠ u.key.job → ∃ q ∈ t.pairs, q.id = p.id ∧ l ∈ q.cc))) ∧
  (∀ (f : CX) (s : State) (u : UnitSt), CtlAt s u →
    let va := (u.c f.ra + f.imm.signExtend 64).toNat
    let root := match s.job u.key.job with | some j => j.root | none => 0
    let found := xlateNow s true u.launch.cls u.pair u.key.job root { kind := .load } va
    let same (v : UnitSt) : Prop := v.place = u.place ∧ v.ctx.ctl.c = u.ctx.ctl.c ∧ v.ctx.dat = u.ctx.dat ∧ v.ctx.ctl.fpflags = u.ctx.ctl.fpflags
    let completes : Prop :=
      ∃ t v, exec (.pref f) s = .next t ∧ t.findUnit u.key = some v ∧ same v ∧ v.ctx.ctl.pc = u.ctx.ctl.pc + 2 ∧ v.ctx.ctl.wait = .none
    (localWindow ≤ va ∨ (regionOk u va 1 true false = false ∧ s.fwj u.key.job = false) → exec (.pref f) s = .next (s.retireC u 2)) ∧
    (∀ t code info, found = .trap t code info → completes) ∧
    (∀ t pa e lvl, found = .ok t pa e lvl →
      (∀ y, prefetch t.bump u (prefAccess t u va pa (Pte.cm e) lvl) (f.sub.getLsbD 0) ≠ .retry y) → completes) ∧
    (completes ∨ ∃ t v, exec (.pref f) s = .next t ∧ t.findUnit u.key = some v ∧ same v ∧ v.ctx.ctl.pc = u.ctx.ctl.pc ∧ v.ctx.ctl.wait = .release))

/-- R301: WAITV on a pantry location, with or without an acquire part, completes when what it reads differs from c[rb], truncated to its size: exec answers
a next state with that value in c[rd]. Parked, WAITV_WAKE completes it the same way at a wake-up, WAITV_REREAD after 2,048 clocks, and WAITV_TIMEOUT at its
limit whatever the value; none of them while a restore still replays the slice's stores (R413).

R151, R309: QFENCE completes (exec answers a next state with the PC past it and every register as before) when none of the unit's commands in the named
queues is in flight or halted, and waits for exactly those in flight otherwise; QFENCE_COMPLETE completes it when they have all ended. -/
def Obligations.WaitsEnd : Prop :=
  ((∀ (f : CX) (s : State) (u : UnitSt), CtlAt s u → f.ord = 0 →
    let va := (u.c f.ra + f.imm.signExtend 64).toNat
    let size := if f.sub.getLsbD 0 then 4 else 8
    let x := leNat ((s.bytesAt (u.pantryPa (va - localWindow)) size).map TByte.v)
    LocalAccess s u va size → x ≠ (u.c f.rb).toNat % 2 ^ (8 * size) →
    ∃ t, exec (.waitv f) s = .next t ∧ SameMemory s t ∧ Retired s t u (u.setC f.rd (BitVec.ofNat 64 x)) 2) ∧
  (∀ (f : CX) (s : State) (u : UnitSt), CtlAt s u → f.ord = 1 → (∀ l ∈ (s.pairOf u.pair).l1, l.st ≠ .mg) →
    let va := (u.c f.ra + f.imm.signExtend 64).toNat
    let size := if f.sub.getLsbD 0 then 4 else 8
    let x := leNat ((s.bytesAt (u.pantryPa (va - localWindow)) size).map TByte.v)
    LocalAccess s u va size → x ≠ (u.c f.rb).toNat % 2 ^ (8 * size) →
    ∃ t v, exec (.waitv f) s = .next t ∧ SameMemory s t ∧ t.findUnit u.key = some v ∧ v.ctx.ctl.c = (u.setC f.rd (BitVec.ofNat 64 x)).ctx.ctl.c ∧
      v.ctx.ctl.pc = u.ctx.ctl.pc + 2 ∧ v.ctx.ctl.wait = .none ∧ v.ctx.dat = u.ctx.dat) ∧
  (∀ (s : State) (u : UnitSt) (p k va size scope cmp last : Nat) (rd : BitVec 6) (limit : Option Nat) (woken : Bool),
    s.resident p k = some u → s.findUnit u.key = some u →
    u.ctx.ctl.wait = .waitv va (u.pantryPa (va - localWindow)) size false scope cmp rd last limit woken none →
    LocalAccess s u va size →
    let x := leNat ((s.bytesAt (u.pantryPa (va - localWindow)) size).map TByte.v)
    let done (i : Instr) : Prop :=
      ∃ t, exec i s = .next t ∧ SameMemory s t ∧ Retired s t u (u.setC rd (BitVec.ofNat 64 x)) 2
    (u.ctx.ctl.replay = true → ∀ i ∈ [Instr.waitvWake p k, .waitvReread p k, .waitvTimeout p k], exec i s = .next s) ∧
    (u.ctx.ctl.replay = false →
    (woken = true → x ≠ cmp % 2 ^ (8 * size) → done (.waitvWake p k)) ∧
    (last + 2048 ≤ s.cycle → x ≠ cmp % 2 ^ (8 * size) → done (.waitvReread p k)) ∧
    (∀ n, limit = some n → n ≤ s.cycle → done (.waitvTimeout p k))))) ∧
  ((∀ (f : CX) (s : State) (u : UnitSt), CtlAt s u →
    let cs := (s.unitCmds u.key).filter (fun c => f.imm.toNat.testBit c.queue && c.inFlight)
    (cs = [] → (∀ c ∈ s.unitCmds u.key, f.imm.toNat.testBit c.queue = true → c.halt? = none) →
      ∃ t v, exec (.qfence f) s = .next t ∧ t.findUnit u.key = some v ∧ v.ctx.ctl.c = u.ctx.ctl.c ∧ v.ctx.dat = u.ctx.dat ∧
        v.ctx.ctl.pc = u.ctx.ctl.pc + 2 ∧ v.ctx.ctl.wait = .none) ∧
    (cs ≠ [] → exec (.qfence f) s = .next (s.waitC u (.qfence f.imm.toNat f.scope.toNat (cs.map Cmd.id) (cs.map Cmd.scope))))) ∧
  (∀ (s : State) (u : UnitSt) (p k mask scope : Nat) (ids scopes : List Nat), s.resident p k = some u → s.findUnit u.key = some u →
    u.ctx.ctl.wait = .qfence mask scope ids scopes → (∀ c ∈ s.cmds, c.id ∈ ids → c.inFlight = false) →
    (∀ c ∈ s.unitCmds u.key, mask.testBit c.queue = true → c.halt? = none) →
    ∃ t v, exec (.qfenceComplete p k) s = .next t ∧ t.findUnit u.key = some v ∧ v.ctx.ctl.c = u.ctx.ctl.c ∧ v.ctx.dat = u.ctx.dat ∧
      v.ctx.ctl.pc = u.ctx.ctl.pc + 2 ∧ v.ctx.ctl.wait = .none))

/-- R165, R166, R307: CHP and CHPM complete where the check of R166 holds, no pantry store of the slice is still to perform and the chute has room: exec
answers a next state with the entry that their fields make in the chute, under the next sequence number, which c[rd] receives. A failed check
traps QUEUE_STATE without a push, and a full chute makes the push wait until CHUTE_PUSH_RESUME completes it. That a push behind an end selector (stopped) traps while matrix
commands still run is the model's choice between R159 and R169 (assumption 20, DEDUCED).

R174, R308: DWPOP, and DWPOP_RESUME for a pop that waits, complete when the oldest dumbwaiter entry is of their kind: exec answers a next state with it
taken into the register or register pair. An entry of the other kind stays, and traps QUEUE_STATE, as does an empty queue of a data slice that has ended;
on an empty queue of one that goes on the pop waits, also behind an end selector whose matrix commands still run, which is the model's choice between R159 and R169 (assumption
20, DEDUCED).

R225, R310: TENQ completes once its record is read: exec answers a next state with the record at the tail of the job's spawn queue and 0 in c[rd]; a
full queue answers 1, a launch without SPN answers 2, and neither changes the queue.

R174, R338: DWPUSH completes with its scalar or predicate appended to the dumbwaiter where that has room, waits while it is full, and completes with the
datum discarded once the control slice has ended; DWPUSH_RESUME completes the waiting push. -/
def Obligations.QueueInstructions : Prop :=
  ((∀ (f : CX) (s : State) (u : UnitSt), CtlAt s u →
    let index := f.imm.toNat % 256
    let tail := f.imm.toNat / 256 % 256
    let entry (xm : BitVec 1) : BitVec 256 :=
      0#32 ++ u.c f.rc ++ u.c f.rb ++ u.c f.ra ++ 0#7 ++ xm ++ BitVec.ofNat 8 tail ++ 0#8 ++ BitVec.ofNat 8 index
    let pushes (i : Instr) (xm : BitVec 1) : Prop :=
      ∃ v, exec i s = .next (s.retireC v 2) ∧ v.key = u.key ∧ v.ctx.chute = u.ctx.chute ++ [⟨entry xm, u.ctx.chTail % 2 ^ 32⟩] ∧
        v.ctx.chTail = (u.ctx.chTail + 1) % 2 ^ 32 ∧ v.ctx.ctl = (u.setC f.rd (BitVec.ofNat 64 u.ctx.chTail)).ctx.ctl ∧ v.ctx.dat = u.ctx.dat
    let ready := pantryPending u = false ∧ u.ctx.chute.length < 64
    (index < u.launch.entries.length → u.ctx.dat.done = false → u.ctx.dat.stopped = false → ready →
      (tail ≤ 128 → pushes (.chp f) 0) ∧ (tail = 0 → pushes (.chpm f) 1)) ∧
    (index < u.launch.entries.length → u.ctx.dat.done = false → u.ctx.dat.stopped = false →
      (pantryPending u = true → (tail ≤ 128 → exec (.chp f) s = .next (s.waitC u .release)) ∧
        (tail = 0 → exec (.chpm f) s = .next (s.waitC u .release))) ∧
      (pantryPending u = false → 64 ≤ u.ctx.chute.length → (tail ≤ 128 → exec (.chp f) s = .next (s.waitC u (.chute (entry 0) f.rd))) ∧
        (tail = 0 → exec (.chpm f) s = .next (s.waitC u (.chute (entry 1) f.rd))))) ∧
    ((u.launch.entries.length ≤ index ∨ 128 < tail ∨ u.ctx.dat.done = true ∨ u.ctx.dat.stopped = true) →
      exec (.chp f) s = .next (s.trapC u 0x04)) ∧
    ((u.launch.entries.length ≤ index ∨ tail ≠ 0 ∨ u.ctx.dat.done = true ∨ u.ctx.dat.stopped = true) →
      exec (.chpm f) s = .next (s.trapC u 0x04))) ∧
  (∀ (s : State) (u : UnitSt) (p k : Nat) (e : BitVec 256) (rd : BitVec 6), s.resident p k = some u → u.ctx.ctl.wait = .chute e rd →
    u.ctx.chute.length < 64 → u.ctx.dat.done = false → u.ctx.dat.stopped = false →
    ∃ v, exec (.chutePushResume p k) s = .next (s.retireC v 2) ∧ v.ctx.chute = u.ctx.chute ++ [⟨e, u.ctx.chTail % 2 ^ 32⟩] ∧
      v.ctx.ctl = (u.setC rd (BitVec.ofNat 64 u.ctx.chTail)).ctx.ctl)) ∧
  (∀ (s : State) (u : UnitSt) (rd : BitVec 6) (isPred : Bool) (i : Instr),
    ((∃ f : CX, CtlAt s u ∧ i = .dwpop f ∧ rd = f.rd ∧ isPred = f.sub.getLsbD 0) ∨
      (∃ p k, s.resident p k = some u ∧ i = .dwpopResume p k ∧ u.ctx.ctl.wait = .dwpop rd isPred)) →
    (∀ x r, u.ctx.dw = .scalar x :: r → isPred = false →
      ∃ v, exec i s = .next (s.retireC v 2) ∧ v.ctx.dw = r ∧ v.ctx.ctl = (u.setC rd x).ctx.ctl ∧ v.ctx.dat = u.ctx.dat) ∧
    (∀ (x : Mask) r, u.ctx.dw = .pred x :: r → isPred = true →
      ∃ v, exec i s = .next (s.retireC v 2) ∧ v.ctx.dw = r ∧
        v.ctx.ctl = ((u.setC rd (x.extractLsb' 0 64)).setC (rd + 1) (x.extractLsb' 64 64)).ctx.ctl ∧ v.ctx.dat = u.ctx.dat) ∧
    (∀ x r, u.ctx.dw = .scalar x :: r → isPred = true → exec i s = .next (s.trapC u 0x04)) ∧
    (∀ x r, u.ctx.dw = .pred x :: r → isPred = false → exec i s = .next (s.trapC u 0x04)) ∧
    (u.ctx.dw = [] → u.ctx.dat.done = true → exec i s = .next (s.trapC u 0x04)) ∧
    (u.ctx.dw = [] → u.ctx.dat.done = false →
      (∀ f, i = .dwpop f → exec i s = .next (s.waitC u (.dwpop rd isPred))) ∧ (∀ p k, i = .dwpopResume p k → exec i s = .next s))) ∧
  (∀ (f : CX) (s : State) (u : UnitSt) (j : Job) (bs : List Byte), CtlAt s u → s.job u.key.job = some j →
    u.ctx.ctl.rcd = some ((u.c f.ra).toNat, bs) →
    (u.launch.spn = true → j.spawn.length < 256 →
      exec (.tenq f) s = .next ((s.putJob { j with spawn := j.spawn ++ [(u.key.tidx, BitVec.ofNat 256 (leNat bs))] }).retireC (u.setC f.rd 0) 2)) ∧
    (u.launch.spn = true → 256 ≤ j.spawn.length → exec (.tenq f) s = .next (s.retireC (u.setC f.rd 1) 2)) ∧
    (u.launch.spn = false → exec (.tenq f) s = .next (s.retireC (u.setC f.rd 2) 2))) ∧
  ((∀ (f : D64) (s : State) (u : UnitSt), DatAt s u → u.ctx.spoison = [] →
    let e : DwEntry := if f.fn = 1 then .pred (u.mreg f.va.toNat) else .scalar (BitVec.ofNat 64 (u.sreg f.va))
    (u.ctx.ctl.done = false → u.ctx.dw.length < 64 → DataGives s u (.dwpush f) f.nas (fun v => v.ctx.dw = u.ctx.dw ++ [e] ∧ SameRegisters u v f [])) ∧
    (u.ctx.ctl.done = true → DataGives s u (.dwpush f) f.nas (fun v => v.ctx.dw = u.ctx.dw ∧ SameRegisters u v f [])) ∧
    (u.ctx.ctl.done = false → 64 ≤ u.ctx.dw.length →
      exec (.dwpush f) s = .next (s.waitD (u.modDat (fun d => { d with lanes := [] })) (.dwpush e f.nas)))) ∧
  (∀ (s : State) (u : UnitSt) (p k : Nat) (e : DwEntry) (nas : BitVec 2), s.resident p k = some u → u.datRuns = true →
    u.ctx.dat.wait = .dwpush e nas → u.ctx.ctl.done = false → u.ctx.dw.length < 64 →
    ∃ v, exec (.dwpushResume p k) s = .next (s.putUnit ((selectNext s v nas).stamped s.cycle)) ∧ v.ctx.dw = u.ctx.dw ++ [e] ∧ v.key = u.key))

/-- R133, R361 to R364, R371, R375, R380: a queued engine command whose descriptor obeys its rules, with the slice's earlier stores performed and room
in its queue, joins its queue as its registers and record say, and CPY, GATH, SCAT, SCATA or STAIR completes: exec answers a next state with the command in
flight, the PC past it and no register changed; a linear copy of 0 bytes completes without a command.

R363: descriptor errors trap ENG_DESC with the lowest cause that holds, and issue nothing: an undeclared counter is cause 1, a reserved
field 2, a value out of range 3, sides on the wrong side of the local window 4, a destination in an active mirror of the resident 5, CNTSET
on a counter that a command names 6.

R361: ENGINE_QUEUE_SLOT_FREE completes once the queue has room: the command that waits enters its queue, with its fields, and its instruction ends. -/
def Obligations.EngineIssue : Prop :=
  (∀ (f : CX) (s : State) (u : UnitSt), CtlAt s u →
    u.ctx.ctl.flight = [] → drained u (engScope f.scope.toNat) = true → (∀ b ∈ s.subs, b.unit ≠ u.key) →
    (f.imm.getLsbD 8 = true → f.imm.toNat % 256 < u.launch.counters) →
    let a := (u.c f.ra).toNat
    let b := (u.c f.rb).toNat
    let w := (u.c f.rc).toNat
    let issues (i : Instr) (q dst src : Nat) (kind : CmdKind) : Prop :=
      queueHasSlot s u.pair q s.fresh = true →
      ∃ t c v, exec i s = .next t ∧ t.cmds = s.cmds ++ [c] ∧ c.unit = u.key ∧ c.task = false ∧ c.pair = u.pair ∧ c.queue = q ∧ c.dst = dst ∧
        c.src = src ∧ c.kind = kind ∧ c.status = .issued ∧ c.ctr = (if f.imm.getLsbD 8 then some (f.imm.toNat % 256) else none) ∧
        c.scope = f.scope.toNat ∧ t.findUnit u.key = some v ∧ v.ctx.ctl.c = u.ctx.ctl.c ∧ v.ctx.ctl.pc = u.ctx.ctl.pc + 2 ∧
        v.ctx.ctl.wait = .none ∧ v.ctx.dat = u.ctx.dat
    let record (va : Nat) (bs : List Byte) : Prop := u.ctx.ctl.rcd = some (va, bs)
    let pick (locl table : Nat) : Prop :=
      w < 2 ^ 43 ∧ 1 ≤ pickN w ∧ pickN w ≤ 4096 ∧ pickOff w % 4 = 0 ∧ locl % 4 = 0 ∧ inWindow locl = true ∧ inWindow table = false
    (f.sub.getLsbD 0 = false → w = 0 → exec (.cpy f) s = .next (s.retireC u 2)) ∧
    (f.sub.getLsbD 0 = false → 1 ≤ w → w ≤ 2 ^ 40 → issues (.cpy f) 0 a b (.cpyLin w)) ∧
    (f.sub.getLsbD 0 = true → ∀ bs, record w bs → shapeReserved bs = false → shapeBad (shapeOf bs) = false →
      (∀ x ∈ shapeAligns (shapeOf bs) a b, x.1 % x.2 = 0) → issues (.cpy f) 0 a b (.cpyShp (shapeOf bs))) ∧
    (pick a b → issues (.gath f) 1 a b (.gath (u.c f.rd).toInt (pickN w) (pickRow w) (localWindow + pickOff w) (f.sub.getLsbD 0)
      (a + pickN w * pickRow w))) ∧
    (pick b a → issues (.scat f) 1 a b (.scat (u.c f.rd).toInt (pickN w) (pickRow w) (localWindow + pickOff w))) ∧
    (pick b a → f.sub.toNat % 4 ≠ 3 →
      issues (.scata f) 1 a b (.scata (u.c f.rd).toInt (pickN w) (pickRow w) (localWindow + pickOff w) (f.sub.toNat % 4))) ∧
    (∀ bs, record w bs → stairReserved bs = false → stairBad (stairOf bs) = false → a % elemBytes (stairOf bs).dfmt = 0 →
      b % elemBytes (stairOf bs).sfmt = 0 → (u.c f.rd).toNat % 8 = 0 → inWindow (u.c f.rd).toNat = true →
      (u.c f.rd).toNat - localWindow + 8 * (stairOf bs).entries ≤ u.regionBytes → issues (.stair f) 2 a b (.stair (stairOf bs) (u.c f.rd).toNat))) ∧
  (∀ (f : CX) (s : State) (u : UnitSt), CtlAt s u →
    let w := (u.c f.rc).toNat
    let undeclared := f.imm.getLsbD 8 = true ∧ u.launch.counters ≤ f.imm.toNat % 256
    let declared := f.imm.getLsbD 8 = false
    let traps (i : Instr) (cause : Nat) : Prop := exec i s = .next (s.trapC u 0x18 0 cause)
    (f.sub.getLsbD 0 = false → undeclared → traps (.cpy f) 1) ∧
    (f.sub.getLsbD 0 = false → declared → 2 ^ 40 < w → traps (.cpy f) 3) ∧
    (pickOff w % 4 = 0 → (u.c f.ra).toNat % 4 = 0 → undeclared → traps (.gath f) 1) ∧
    (pickOff w % 4 = 0 → (u.c f.ra).toNat % 4 = 0 → declared → 2 ^ 43 ≤ w → traps (.gath f) 2) ∧
    (pickOff w % 4 = 0 → (u.c f.ra).toNat % 4 = 0 → declared → w < 2 ^ 43 → pickN w = 0 → traps (.gath f) 3) ∧
    (pickOff w % 4 = 0 → (u.c f.ra).toNat % 4 = 0 → declared → w < 2 ^ 43 → 1 ≤ pickN w → pickN w ≤ 4096 →
      inWindow (u.c f.ra).toNat = false → traps (.gath f) 4) ∧
    (declared → ∀ b ∈ s.subs, b.unit = u.key → b.active = true →
      let a := (u.c f.ra).toNat
      let meets (x n : Nat) : Prop := 0 < b.size ∧ localWindow + b.off < x + n ∧ x < localWindow + b.off + b.size
      (f.sub.getLsbD 0 = false → 1 ≤ w → w ≤ 2 ^ 40 → meets a w → traps (.cpy f) 5) ∧
      (pickOff w % 4 = 0 → a % 4 = 0 → w < 2 ^ 43 → 1 ≤ pickN w → pickN w ≤ 4096 → inWindow a = true → inWindow (u.c f.rb).toNat = false →
        meets a (pickN w * pickRow w) → traps (.gath f) 5)) ∧
    (∀ c ∈ s.cmds, c.unit = u.key → c.task = false → c.ctr = some (f.imm.toNat % 256) → c.status ≠ .stopped →
      f.imm.toNat % 256 < u.launch.counters → traps (.cntset f) 6) ∧
    (u.launch.counters ≤ f.imm.toNat % 256 → traps (.cntset f) 1 ∧ traps (.cntadd f) 1 ∧ traps (.waitc f) 1)) ∧
  (∀ (s : State) (u : UnitSt) (p k : Nat) (c : Cmd), s.resident p k = some u → s.findUnit u.key = some u → u.ctx.ctl.wait = .queue c →
    queueHasSlot s p c.queue c.id = true →
    ∃ t id v, exec (.engineQueueSlotFree p k) s = .next t ∧ t.cmds = s.cmds ++ [{ c with id := id }] ∧ t.findUnit u.key = some v ∧
      v.ctx.ctl.c = u.ctx.ctl.c ∧ v.ctx.ctl.pc = u.ctx.ctl.pc + 2 ∧ v.ctx.ctl.wait = .none)

/-- R62, R384, R387: CNTSET, on a counter that no command holds, CNTADD, WAITC on a drained counter, WAITC_COMPLETE there and ENGQ complete: exec answers a next
state, with the 32-bit value of the counter written, or the counter, the occupancy or the free slots of a queue in c[rd]. On a faulted counter
WAITC and WAITC_COMPLETE trap with the halt record of the oldest halted command that names it (R366, R368). -/
def Obligations.CountersAndQueries : Prop :=
  let surfaces (i : Instr) (s : State) (u : UnitSt) (c : Cmd) (h : HaltRec) : Prop :=
    ∃ t v r, exec i s = .next t ∧ t.findUnit u.key = some v ∧ v.place = .trapped u.pair u.slot ∧ v.ctx = u.ctx ∧ v.trap = some r ∧
      r.code = h.code ∧ r.src = c.queue + 2 ∧ r.pc = u.ctx.ctl.pc ∧ r.addr = h.addr ∧ r.info = h.info ∧ r.hcode = h.hcode ∧ r.offset = h.offset
  (∀ (f : CX) (s : State) (u : UnitSt), CtlAt s u →
    let k := f.imm.toNat % 256
    (k < u.launch.counters → u.launch.counters = u.ctx.counters.length →
      (counterBusy s u k = false → ∃ v, exec (.cntset f) s = .next (s.retireC v 2) ∧ (v.counter k).v = (u.c f.ra).extractLsb' 0 32 ∧
        (v.counter k).f = (u.counter k).f ∧ v.ctx.ctl = u.ctx.ctl ∧ (∀ i, i ≠ k → v.counter i = u.counter i)) ∧
      (∃ v, exec (.cntadd f) s = .next (s.retireC v 2) ∧ (v.counter k).v = (u.counter k).v + (u.c f.ra).extractLsb' 0 32 ∧
        (v.counter k).f = (u.counter k).f ∧ v.ctx.ctl = u.ctx.ctl ∧ (∀ i, i ≠ k → v.counter i = u.counter i)) ∧
      ((u.counter k).f = false → counterDrained s u k = true →
        ∃ t v, exec (.waitc f) s = .next t ∧ t.findUnit u.key = some v ∧ v.ctx.ctl.c = u.ctx.ctl.c ∧ v.ctx.ctl.pc = u.ctx.ctl.pc + 2 ∧
          v.ctx.ctl.wait = .none ∧ v.ctx.counters = u.ctx.counters) ∧
      ((u.counter k).f = false → counterDrained s u k = false → exec (.waitc f) s = .next (s.waitC u (.waitc k f.scope.toNat))) ∧
      (∀ c h, FaultsWith s u k c h → surfaces (.waitc f) s u c h)) ∧
    (f.imm.toNat < u.launch.counters → f.sub = 0 → exec (.engq f) s = .next (s.retireC (u.setC f.rd
      (BitVec.ofNat 64 ((u.counter f.imm.toNat).v.toNat + 2 ^ 32 * b2n (u.counter f.imm.toNat).f + 2 ^ 33 * b2n (counterBusy s u f.imm.toNat)))) 2)) ∧
    (f.sub = 1 → exec (.engq f) s = .next (s.retireC (u.setC f.rd (BitVec.ofNat 64
      ((s.unitCmds u.key).filter (fun c => f.imm.toNat.testBit c.queue && (c.inFlight || c.stuck))).length)) 2)) ∧
    (f.sub = 2 → exec (.engq f) s = .next (s.retireC (u.setC f.rd
      (BitVec.ofNat 64 (queueCap f.imm.toNat - s.queueLoad u.pair f.imm.toNat))) 2)) ∧
    (f.sub = 3 → exec (.engq f) s = .next (s.retireC (u.setC f.rd
      (BitVec.ofNat 64 (u.ctx.early.toArray.getD f.imm.toNat 0 + if f.imm.toNat = 1 then (u.ctx.unread.map Unread.bytes).sum else 0))) 2)) ∧
    (f.sub = 0 → u.launch.counters ≤ f.imm.toNat → exec (.engq f) s = .next (s.trapC u 0x18 0 1))) ∧
  (∀ (s : State) (u : UnitSt) (p n k scope : Nat), s.resident p n = some u → s.findUnit u.key = some u → u.ctx.ctl.wait = .waitc k scope →
    ((u.counter k).f = false → counterDrained s u k = true →
      ∃ t v, exec (.waitcComplete p n) s = .next t ∧ t.findUnit u.key = some v ∧ v.ctx.ctl.c = u.ctx.ctl.c ∧
        v.ctx.ctl.pc = u.ctx.ctl.pc + 2 ∧ v.ctx.ctl.wait = .none) ∧
    (∀ c h, u.running = true → FaultsWith s u k c h → surfaces (.waitcComplete p n) s u c h))

/-- R65, R66, R72, R385, R386: SUBS with a valid range asks its home, whose answer, SUBS_ACCEPT, completes it: with a record taken, its image issued and 0 in
c[rd], or, the table full, with 1. UNSUB asks for its subscription's end, and UNSUB_PROCESS takes the subscription away and completes it. ENG_DESC
(R363): a SUBS over an active mirror is cause 5, one that breaks R65 or names attic store of another die 7, an UNSUB of no mirror 8.

R69: MIRROR_UPDATE completes for an active subscription whose image has landed, its next update applied: exactly its bytes change in the subscriber's pantry, and the
subscription's number moves on. -/
def Obligations.SubscriptionsAndMirrors : Prop :=
  ((∀ (f : CX) (s t : State) (u : UnitSt) (j : Job) (ps : List (Nat × Nat × Nat × Bool)), CtlAt s u → s.job u.key.job = some j →
    let pas := ps.map (fun p => p.2.1)
    let lw := (u.c f.ra).toNat
    let g := (u.c f.rb).toNat
    let n := (u.c f.rc).toNat
    inWindow lw = true → g + n ≤ localWindow → lw % 128 = 0 → g % 128 = 0 → n % 128 = 0 → 0 < n → n ≤ 2 ^ 18 →
    lw - localWindow + n ≤ u.regionBytes → (∀ b ∈ s.subs, b.unit ≠ u.key) → (f.imm.getLsbD 8 = true → f.imm.toNat % 256 < u.launch.counters) →
    regionOkLong u g n true false = true → subsPages u j.root true (pageStarts g n) s = .ok t ps →
    (ownStore t (dieOf u.pair) (spansOf g n pas) = false → exec (.subs f) s = .next (t.trapC u 0x18 0 7)) ∧
    (ownStore t (dieOf u.pair) (spansOf g n pas) = true → u.ctx.ctl.flight = [] → drained u (engScope f.scope.toNat) = true →
    ∃ c x, let t1 := State.waitC x u (.subs c t.fresh g (spansOf g n pas) n (lw - localWindow) f.rd (ps.map (fun p => (p.1, p.2.2.1, p.2.2.2))))
      exec (.subs f) s = .next t1 ∧ c.kind = .subs t.fresh n ∧ c.dst = lw ∧ c.src = g ∧
      -- the home's answer completes it
      ∀ d, u ∈ s.units → (∀ v ∈ t1.units, ∀ c' g' p' n' o' r' q', v.ctx.ctl.wait = .subs c' t.fresh g' p' n' o' r' q' → v.key = u.key) →
        homeDie t1 (spanPa (spansOf g n pas) 0) = some d → (t1.subs.filter (fun b => b.die == d)).length < 256 →
        queueHasSlot t1 u.pair 0 t.fresh = true →
        ((recallSpans (spansOf g n pas) t1).bind (fun x => readSpans x (spansOf g n pas))).isSome →
        ∃ t2 v, exec (.subsAccept t.fresh) t1 = .next t2 ∧ t2.findUnit u.key = some v ∧ v.ctx.ctl.c = (u.setC f.rd 0).ctx.ctl.c ∧
          v.ctx.ctl.pc = u.ctx.ctl.pc + 2 ∧ v.ctx.ctl.wait = .none)) ∧
  (∀ (f : CX) (s : State) (u : UnitSt), CtlAt s u → (f.imm.getLsbD 8 = true → f.imm.toNat % 256 < u.launch.counters) →
    let lw := (u.c f.ra).toNat
    let g := (u.c f.rb).toNat
    let n := (u.c f.rc).toNat
    let meets (b : Subscription) : Prop := b.unit = u.key ∧ b.off < lw - localWindow + n ∧ lw - localWindow < b.off + b.size ∧ 0 < b.size ∧ 0 < n
    inWindow lw = true → g < localWindow → g + n ≤ localWindow →
    ((∃ b ∈ s.subs, meets b ∧ b.active = true) → exec (.subs f) s = .next (s.trapC u 0x18 0 5)) ∧
    ((∀ b ∈ s.subs, ¬ (meets b ∧ b.active = true)) →
      lw % 128 ≠ 0 ∨ g % 128 ≠ 0 ∨ n % 128 ≠ 0 ∨ n = 0 ∨ 2 ^ 18 < n ∨ u.regionBytes < lw - localWindow + n ∨ (∃ b ∈ s.subs, meets b) →
      exec (.subs f) s = .next (s.trapC u 0x18 0 7))) ∧
  (∀ (s : State) (u : UnitSt) (c : Cmd) (id gbase size off d : Nat) (spans : List (Nat × Nat)) (rd : BitVec 6) (pages : List (Nat × Nat × Bool)), u ∈ s.units → u.running = true →
    (∀ v ∈ s.units, ∀ c' g' p' n' o' r' q', v.ctx.ctl.wait = .subs c' id g' p' n' o' r' q' → v = u) →
    u.ctx.ctl.wait = .subs c id gbase spans size off rd pages → homeDie s (spanPa spans 0) = some d →
    (256 ≤ (s.subs.filter (fun b => b.die == d)).length → exec (.subsAccept id) s = .next (s.retireC (u.setC rd 1) 2)) ∧
    ((s.subs.filter (fun b => b.die == d)).length < 256 → queueHasSlot s u.pair 0 id = true →
      ((recallSpans spans s).bind (fun x => readSpans x spans)).isSome → s.findUnit u.key = some u →
      ∃ t v, exec (.subsAccept id) s = .next t ∧ t.findUnit u.key = some v ∧ v.ctx.ctl.c = (u.setC rd 0).ctx.ctl.c ∧
        v.ctx.ctl.pc = u.ctx.ctl.pc + 2 ∧ v.ctx.ctl.wait = .none ∧
        ∃ b ∈ t.subs, b.id = id ∧ b.unit = u.key ∧ b.spans = spans ∧ b.gbase = gbase ∧ b.size = size ∧ b.off = off ∧ b.die = d ∧ b.active = true)) ∧
  (∀ (f : CX) (s : State) (u : UnitSt), CtlAt s u → inWindow (u.c f.ra).toNat = true →
    (∀ b ∈ s.subs, b.unit = u.key → localWindow + b.off ≠ (u.c f.ra).toNat) → exec (.unsub f) s = .next (s.trapC u 0x18 0 8)) ∧
  (∀ (f : CX) (s : State) (u : UnitSt) (b : Subscription), CtlAt s u → inWindow (u.c f.ra).toNat = true →
    s.subs.find? (fun b => b.unit == u.key && localWindow + b.off == (u.c f.ra).toNat) = some b →
    exec (.unsub f) s = .next (s.waitC u (.unsub b.id)) ∧
    ((∀ c ∈ s.cmds, c.inFlight = false) → ∃ t v, exec (.unsubProcess u.pair u.slot) (s.waitC u (.unsub b.id)) = .next t ∧ (∀ x ∈ t.subs, x.id ≠ b.id) ∧
      t.findUnit u.key = some v ∧ v.ctx.ctl.c = u.ctx.ctl.c ∧ v.ctx.ctl.pc = u.ctx.ctl.pc + 2 ∧ v.ctx.ctl.wait = .none)) ∧
  (∀ (s : State) (u : UnitSt) (p k sub : Nat), s.resident p k = some u → s.findUnit u.key = some u → u.ctx.ctl.wait = .unsub sub →
    (∀ c ∈ s.cmds, c.inFlight = false) →
    ∃ t v, exec (.unsubProcess p k) s = .next t ∧ (∀ b ∈ t.subs, b.id ≠ sub) ∧
      t.findUnit u.key = some v ∧ v.ctx.ctl.c = u.ctx.ctl.c ∧ v.ctx.ctl.pc = u.ctx.ctl.pc + 2 ∧ v.ctx.ctl.wait = .none)) ∧
  (∀ (s : State) (b : Subscription) (u : UnitSt) (x : Update) (i p k : Nat), s.memWf = true →
    s.subs.find? (fun y => y.id == b.id) = some b → s.findUnit b.unit = some u → u.place = .placed p k →
    findIdxVal (fun (y : Update) => y.sub == b.id) s.updates 0 = some (i, x) → b.active = true → imagePending s b.id = false →
    let pa := u.pantryPa (b.off + x.off)
    ∃ t, exec (.mirrorUpdate b.id) s = .next t ∧ t.memWf = true ∧ t.updates = dropIdx s.updates i ∧
      t.subs = mapIf (fun y => y.id == b.id) (fun y => { y with last := x.seqno }) s.subs ∧
      (∀ n < x.data.length, (t.byteAt (pa + n)).v = x.data.getD n 0) ∧
      (∀ a, ¬ (pa ≤ a ∧ a < pa + x.data.length) → t.byteAt a = s.byteAt a))

/-- R316, R318, with R276 and R278: VFADD, VFSUB, VFMUL, VFDIV, VFMIN, VFMAX, VFMA, VFMS, VFNMA and VFSPEC complete (exec answers a next state) when their
sources may be read, their destination may be written and no flag is enabled to trap, their active elements the rounded results of the
exact operation on its operands, subnormal operands flushed where FPMODE says so, with the flags of R273 and R276. VFSPEC gives its special
operands the results of the table of R318 (a NaN the canonical NaN), and rcp the rounded quotient, sqrt the rounded root. -/
def Obligations.FloatElementResults : Prop :=
  ∀ (f : D64) (s : State) (u : UnitSt) (t : Nat), DatAt s u → NoFpTraps u → t ∈ [1, 2, 3, 4] → Format f t → Source u f.va t → Dest u f f.vd →
    let ftz := fpFtz u
    let rm := fpRm u f
    let a (e : Nat) : Nat := elem (u.v f.va).val t e
    let b (e : Nat) : Nat := if f.sb then u.sreg f.vb % 2 ^ fmtBits t else elem (u.v f.vb).val t e
    let c (e : Nat) : Nat := elem (u.v f.vc).val t e
    let val (x : Nat) : Val := decodeOp ftz x t
    let rounds (i : Instr) (g : Nat → Val × Nat) : Prop :=
      ElementResult s u i f t (fun e => ((roundTo (g e).1 t rm ftz).1, (g e).2 ||| (roundTo (g e).1 t rm ftz).2))
    (SourceB u f t →
      rounds (.vfadd f) (fun e => exactSum [val (a e), val (b e)] rm) ∧
      rounds (.vfsub f) (fun e => exactSum [val (a e), (val (b e)).negate] rm) ∧
      rounds (.vfmul f) (fun e => exactMul (val (a e)) (val (b e))) ∧
      rounds (.vfdiv f) (fun e => exactDiv (val (a e)) (val (b e))) ∧
      ElementResult s u (.vfmin f) f t (fun e => minMaxOwn false ftz (a e) (b e) t) ∧
      ElementResult s u (.vfmax f) f t (fun e => minMaxOwn true ftz (a e) (b e) t) ∧
      (Source u f.vc t →
        let p (e : Nat) : Val × Nat := exactMul (val (a e)) (val (b e))
        let fused (x y : Nat → Val) (e : Nat) : Val × Nat := ((exactSum [x e, y e] rm).1, (p e).2 ||| (exactSum [x e, y e] rm).2)
        rounds (.vfma f) (fused (fun e => (p e).1) (fun e => val (c e))) ∧
        rounds (.vfms f) (fused (fun e => (p e).1) (fun e => (val (c e)).negate)) ∧
        rounds (.vfnma f) (fused (fun e => (p e).1.negate) (fun e => val (c e))))) ∧
    (f.fn.toNat ≤ 7 → t ≠ 2 ∨ f.fn = 2 → ∃ r : Nat → Nat × Nat, ElementResult s u (.vfspec f) f t r ∧ ∀ e < numElem t,
      let fn := f.fn.toNat
      let v := val (a e)
      let is (x : Val) (fl : Nat) : Prop := r e = ((roundTo x t rm ftz).1, fl ||| (roundTo x t rm ftz).2)
      let isNan (fl : Nat) : Prop := r e = ([0, 0x7FC00000, 0x7FF8000000000000, 0x7E00, 0x7FC0].getD t 0, fl)
      (∀ q, v = .nan q → isNan (if q then 16 else 0)) ∧
      (∀ n, v = .inf n →
        (fn = 0 → is (.fin n 0 0 false) 0) ∧ (fn ∈ [1, 2, 4] → n = true → isNan 16) ∧ (fn = 1 → n = false → is (.fin false 0 0 false) 0) ∧
        (fn ∈ [2, 4] → n = false → is (.inf false) 0) ∧ (fn = 3 → is (if n then .fin false 0 0 false else .inf false) 0) ∧
        (fn ∈ [5, 6] → isNan 16) ∧ (fn = 7 → is (.fin n 1 0 false) 0)) ∧
      (∀ n x st, v = .fin n 0 x st →
        (fn ∈ [0, 1] → is (.inf n) 8) ∧ (fn ∈ [2, 5, 7] → is (.fin n 0 0 false) 0) ∧ (fn ∈ [3, 6] → is (.fin false 1 0 false) 0) ∧
        (fn = 4 → is (.inf true) 8)) ∧
      (∀ m x st, v = .fin true m x st → 0 < m → fn ∈ [1, 2, 4] → isNan 16) ∧
      (∀ (k : Nat) st, v = .fin false (2 ^ k) (-(k : Int)) st → fn = 4 → is (.fin false 0 0 false) 0) ∧
      (fn = 0 → is (exactDiv (.fin false 1 0 false) v).1 (exactDiv (.fin false 1 0 false) v).2) ∧
      (∀ m x st, v = .fin false m x st → fn = 2 → is (exactSqrt false m x) 0))

/-- R320, R321: the integer, shift and bit instructions complete with their results, wrapped modulo 2^b or clamped where they say so (and
then flagged). -/
def Obligations.IntegerElementResults : Prop :=
  ∀ (f : D64) (s : State) (u : UnitSt) (t : Nat), DatAt s u → Format f t → Source u f.va t → Dest u f f.vd →
    let w := fmtBits t
    let a (e : Nat) : Nat := elem (u.v f.va).val t e
    let b (e : Nat) : Nat := if f.sb then u.sreg f.vb % 2 ^ w else elem (u.v f.vb).val t e
    let num (x : Nat) : Int := if t = 11 then (x : Int) else sintOf w x
    let gives (i : Instr) (g : Nat → Nat) : Prop := ElementResult s u i f t (fun e => (g e, 0))
    let exact (i : Instr) (x : Nat → Int) : Prop := ElementResult s u i f t (fun e =>
      if satOf f && decide (x e < intMin t) then (natOf w (intMin t), 32)
      else if satOf f && decide (intMax t < x e) then (natOf w (intMax t), 32) else (natOf w (x e), 0))
    (t ∈ [8, 9, 10, 11] → SourceB u f t →
      exact (.viadd f) (fun e => num (a e) + num (b e)) ∧ exact (.visub f) (fun e => num (a e) - num (b e)) ∧
      (f.fn = 0 → exact (.vimul f) (fun e => num (a e) * num (b e))) ∧
      (f.fn = 1 → exact (.vimul f) (fun e => num (a e) * num (b e) / (2 ^ w : Nat))) ∧
      (Source u f.vc t → exact (.vimad f) (fun e => num (a e) * num (b e) + num (elem (u.v f.vc).val t e))) ∧
      (f.fn = 0 → gives (.vimin f) (fun e => if num (a e) < num (b e) then a e else b e) ∧
        gives (.vimax f) (fun e => if num (a e) < num (b e) then b e else a e)) ∧
      (f.fn = 1 → gives (.vimin f) (fun e => min (a e) (b e)) ∧ gives (.vimax f) (fun e => max (a e) (b e)))) ∧
    (t ∈ [0, 8, 9, 10, 11, 12] →
      (∀ n : Nat → Nat, (f.fn = 0 ∧ (SourceB u f t ∨ (f.sb = false ∧ Source u f.vb 0)) ∧ n = b) ∨ (f.fn = 1 ∧ n = fun _ => f.vc.toNat) →
        gives (.vshl f) (fun e => if n e < w then a e * 2 ^ n e else 0) ∧
        gives (.vshr f) (fun e => if n e < w then a e / 2 ^ n e else 0) ∧
        (t ≠ 11 → gives (.vsar f) (fun e => natOf w (sintOf w (a e) / (2 ^ min (n e) w : Nat)))) ∧
        (t = 11 → gives (.vsar f) (fun e => if n e < w then a e / 2 ^ n e else 0))) ∧
      (f.fn = 0 → gives (.vibit f) (fun e => ((List.range w).filter (fun i => (a e).testBit i)).length)) ∧
      (f.fn = 1 → gives (.vibit f) (fun e => clzN (a e) w)) ∧
      (f.fn = 2 → gives (.vibit f) (fun e => brev (a e) w)))

/-- R317, R322: a compare completes with the mask lanes of its active elements at the outcome of its condition, both lanes of a pair for
FP64, and with the flags of R317. A poisoned half of the mask loses its mark where it is written whole (R476), and one written in part traps
ECC_DATA.

R323: the mask instructions complete with their results. -/
def Obligations.MaskRegisterResults : Prop :=
  (∀ (f : D64) (s : State) (u : UnitSt) (t : Nat), DatAt s u → Format f t → Source u f.va t → SourceB u f t →
    f.vd ≠ 0 → f.vd.toNat < 8 → f.fn.toNat < 8 →
    let a (e : Nat) : Nat := elem (u.v f.va).val t e
    let b (e : Nat) : Nat := if f.sb then u.sreg f.vb % 2 ^ fmtBits t else elem (u.v f.vb).val t e
    let compares (i : Instr) (c : Nat → Bool) (fl : Nat → Nat) : Prop :=
      DataGives s u i f.nas (fun v => OnlyMask u v f f.vd ∧ FlagsGained u v f t fl ∧
        (f.z = true → ∀ r ∈ v.ctx.mpoison, r.2 < 2 → r.1 ≠ f.vd.toNat) ∧ ∀ k < 128,
        let e := if t = 2 then k / 2 else k
        (v.mreg f.vd.toNat).getLsbD k =
          if active e t (effMask u f) then c e else if f.z then false else (u.mreg f.vd.toNat).getLsbD k)
    let written (k : Nat) : Bool := f.z || active (if t = 2 then k / 2 else k) t (effMask u f)
    let split : Prop := ∃ r ∈ u.ctx.mpoison, r.1 = f.vd.toNat ∧ (∃ k < 64, written (64 * r.2 + k) = true) ∧ ∃ k < 64, written (64 * r.2 + k) = false
    (split → ∀ i, (i = .vfcmp f ∧ t ∈ [1, 2]) ∨ (i = .vicmp f ∧ t ∈ [0, 8]) →
      exec i s = .next (s.takeTrap u { code := 0x17, src := 1, pc := u.ctx.dat.pc })) ∧
    (¬ split →
    (t ∈ [1, 2] → NoFpTraps u →
      let x (e : Nat) : Val := decodeOp (fpFtz u) (a e) t
      let y (e : Nat) : Val := decodeOp (fpFtz u) (b e) t
      let un (e : Nat) : Bool := (x e).isNan || (y e).isNan
      let snan (e : Nat) : Nat := if (x e).isSnan || (y e).isSnan then 16 else 0
      compares (.vfcmp f)
        (fun e => match f.fn.toNat with
          | 0 => !un e && cmpVal (x e) (y e) == 0
          | 1 => un e || cmpVal (x e) (y e) != 0
          | 2 => !un e && decide (cmpVal (x e) (y e) < 0)
          | 3 => !un e && decide (cmpVal (x e) (y e) ≤ 0)
          | 4 => !un e && decide (0 < cmpVal (x e) (y e))
          | 5 => !un e && decide (0 ≤ cmpVal (x e) (y e))
          | 6 => un e
          | _ => !un e)
        (fun e => if un e && decide (2 ≤ f.fn.toNat ∧ f.fn.toNat ≤ 5) then 16 else snan e)) ∧
    (t ∈ [0, 8] →
      let x (e : Nat) : Int := sintOf 32 (a e)
      let y (e : Nat) : Int := sintOf 32 (b e)
      compares (.vicmp f)
        (fun e => match f.fn.toNat with
          | 0 => decide (x e = y e)
          | 1 => decide (x e ≠ y e)
          | 2 => decide (x e < y e)
          | 3 => decide (x e ≤ y e)
          | 4 => decide (y e < x e)
          | 5 => decide (y e ≤ x e)
          | 6 => decide (a e < b e)
          | _ => decide (b e ≤ a e))
        (fun _ => 0)))) ∧
  (∀ (f : D64) (s : State) (u : UnitSt), DatAt s u →
    let a := u.mreg f.va.toNat
    let b := u.mreg f.vb.toNat
    (f.vd ≠ 0 → f.vd.toNat < 8 →
      (f.fn = 0 → MaskResult s u (.mop f) f (a &&& b)) ∧ (f.fn = 1 → MaskResult s u (.mop f) f (a ||| b)) ∧
      (f.fn = 2 → MaskResult s u (.mop f) f (a ^^^ b)) ∧ (f.fn = 3 → MaskResult s u (.mop f) f (a &&& ~~~b)) ∧
      (f.fn = 4 → MaskResult s u (.mop f) f (~~~a)) ∧ (f.fn = 5 → MaskResult s u (.mop f) f (BitVec.allOnes 128)) ∧
      (f.fn = 6 → MaskResult s u (.mop f) f 0) ∧
      (f.fn = 0 → MaskResult s u (.mmov f) f a) ∧
      (f.fn = 1 → u.ctx.spoison = [] → MaskResult s u (.mmov f) f (BitVec.ofNat 64 (u.sreg f.vb) ++ BitVec.ofNat 64 (u.sreg f.va)))) ∧
    (f.vd.toNat < 32 →
      ScalarResult s u (.mcnt f) f f.vd (((List.range 128).filter (fun i => a.getLsbD i)).length) ∧
      (a = 0 → ScalarResult s u (.mfirst f) f f.vd 128) ∧
      (∀ n < 128, f.fn = 0 → a.getLsbD n = true → (∀ k < n, a.getLsbD k = false) → ScalarResult s u (.mfirst f) f f.vd n) ∧
      (∀ n < 128, f.fn = 1 → a.getLsbD n = true → (∀ k < 128, n < k → a.getLsbD k = false) → ScalarResult s u (.mfirst f) f f.vd n) ∧
      (f.fn = 2 → ScalarResult s u (.mmov f) f f.vd (a.extractLsb' 0 64).toNat) ∧
      (f.fn = 3 → ScalarResult s u (.mmov f) f f.vd (a.extractLsb' 64 64).toNat)))

/-- R321, R325, R326: the bitwise, move and permute instructions complete with whole lanes; VLANE and VINS move one lane or a pair
between a vector and a scalar register. That VINS into an inactive lane leaves the tag of an UNINIT destination as well is the model's choice
(assumption 31: R325 does not settle it). -/
def Obligations.LaneInstructions : Prop :=
  ∀ (f : D64) (s : State) (u : UnitSt), DatAt s u → u.ctx.spoison = [] →
    let i := if f.fn = 1 then u.sreg f.vb % 128 else (f.x16.extractLsb' 8 7).toNat
    (∀ t ≤ 13, Source u f.va t → Dest u f f.vd →
      (∀ (x : Instr) (g : Nat → Nat → Nat), x = .vand f ∧ g = (· &&& ·) ∨ x = .vor f ∧ g = (· ||| ·) ∨ x = .vxor f ∧ g = (· ^^^ ·) →
        (f.sb = true → LaneResult s u x f t t (fun k => g (u.lane f.va k) (u.sreg f.vb % 2 ^ 32))) ∧
        (∀ t2 ≤ 13, f.sb = false → Source u f.vb t2 → LaneResult s u x f t t (fun k => g (u.lane f.va k) (u.lane f.vb k)))) ∧
      LaneResult s u (.vmov f) f t (if f.fn = 1 then f.fmt else t) (fun k => u.lane f.va k) ∧
      (Source u f.vb t → LaneResult s u (.vsel f) f t t (fun k =>
        if laneActive t (u.mreg f.vc.toNat) k then u.lane f.va k else u.lane f.vb k)) ∧
      LaneResult s u (.vxch f) f t t (fun k => u.lane f.va (k ^^^ (128 >>> f.vc.toNat))) ∧
      LaneResult s u (.vrot f) f t t (fun k => u.lane f.va ((k + i) % 128)) ∧
      (∀ t2, t2 = 0 ∨ t2 = 8 → Source u f.vb t2 → LaneResult s u (.vshuf f) f t t (fun k => u.lane f.va (u.lane f.vb k % 128)))) ∧
    (Dest u f f.vd → ElementResult s u (.vbcast f) f f.fmt (fun _ => (u.sreg f.va, 0))) ∧
    (∀ t ≤ 13, Source u f.va t → f.vd.toNat < 32 →
      (f.x16.getLsbD 7 = false → ScalarResult s u (.vlane f) f f.vd (u.lane f.va i)) ∧
      (f.x16.getLsbD 7 = true → ScalarResult s u (.vlane f) f f.vd (u.lane f.va (i % 64 * 2) + 2 ^ 32 * u.lane f.va (i % 64 * 2 + 1)))) ∧
    (Dest u f f.vd →
      let lo := if f.x16.getLsbD 7 then i % 64 * 2 else i
      (u.ma.getLsbD lo = false → DataGives s u (.vins f) f.nas (fun v => v = markRead f u)) ∧
      (u.ma.getLsbD lo = true → (u.v f.vd).empty = false → DataGives s u (.vins f) f.nas (fun v =>
        OnlyVector u v f f.vd ∧ (v.v f.vd).tag = (if (u.v f.vd).tag = 15 then 0 else (u.v f.vd).tag) ∧ (v.v f.vd).empty = false ∧
        ∀ k < 128, v.lane f.vd k =
          if k = lo then u.sreg f.va % 2 ^ 32
          else if f.x16.getLsbD 7 = true ∧ k = lo + 1 then u.sreg f.va / 2 ^ 32 % 2 ^ 32 else u.lane f.vd k)))

/-- R324: VCVT completes with the converted elements of part q; elements of a denser target outside the part keep their bits. -/
def Obligations.ConversionResults : Prop :=
  ∀ (f : D64) (s : State) (u : UnitSt) (fs ft : Nat), DatAt s u → NoFpTraps u → Source u f.va fs → Dest u f f.vd → 1 ≤ fs → fs ≤ 12 →
    f.fmt = ft → 1 ≤ ft → ft ≤ 12 →
    let ns := numElem fs
    let nd := numElem ft
    let q := (f.x16.extractLsb' 7 4).toNat
    q < max ns nd / min ns nd → ((u.v f.vd).empty = true → nd ≤ ns) →
    let conv (e : Nat) : Nat × Nat := toFormat (elem (u.v f.va).val fs e) fs ft (fpRm u f) (fpFtz u)
    DataGives s u (.vcvt f) f.nas (fun v => OnlyVector u v f f.vd ∧ (v.v f.vd).tag.toNat = ft ∧ (v.v f.vd).empty = false ∧
      (nd < ns → FlagsGained u v f ft (fun e => (conv (q * nd + e)).2) ∧ Elements u v f f.vd ft (fun e => (conv (q * nd + e)).1)) ∧
      (ns ≤ nd → FlagsGained u v f fs (fun e => (conv e).2) ∧
        (∀ e < ns, elem (v.v f.vd).val ft (q * ns + e) =
          if active e fs (effMask u f) then (conv e).1 % 2 ^ fmtBits ft else if f.z then 0 else elem (u.v f.vd).val ft (q * ns + e)) ∧
        (∀ e < nd, e < q * ns ∨ (q + 1) * ns ≤ e → elem (v.v f.vd).val ft e = elem (u.v f.vd).val ft e)))

/-- R279, R280, R327 to R329: a reduction completes with the tree over the active elements and the identity elsewhere, a scan with the
running combination in element order; VCOMP and VEXPD pack and unpack the active elements and write their number; VPRUNE keeps of each group
the four elements that rank highest by R329 and writes their indices. -/
def Obligations.CrossLaneResults : Prop :=
  ∀ (f : D64) (s : State) (u : UnitSt) (t : Nat), DatAt s u → Source u f.va t →
    let em := effMask u f
    let op := f.fn.toNat
    let x (e : Nat) : Nat := if active e t em then elem (u.v f.va).val t e else identBits op t
    (t ∈ [1, 2, 3, 4, 8, 9, 10, 11] → NoFpTraps u → Format f t →
      let r := treeReduce op t (fpFtz u) (Nat.log2 (numElem t)) ((List.range (numElem t)).map x)
      (f.vd.toNat < 32 → DataGives s u (.vred f) f.nas (fun v => OnlyScalar u v f f.vd ∧ v.sreg f.vd = r.1 % 2 ^ 64 ∧
        ∀ b < 6, v.ctx.ctl.fpflags.getLsbD b = true ↔ u.ctx.ctl.fpflags.getLsbD b = true ∨ ∃ p ∈ r.2, p.2.testBit b = true)) ∧
      (Dest u f f.vd →
        let step (a : Nat) (e : Nat) : Nat × Nat := combineBits op t (fpFtz u) a (x e)
        let upTo (e : Nat) : Nat := (List.range e).foldl (fun a k => (step a k).1) (identBits op t)
        DataGives s u (.vscan f) f.nas (fun v => OnlyVector u v f f.vd ∧
          Elements u v f f.vd t (fun e => if f.sb then upTo (e + 1) else upTo e) ∧
          ∀ b < 6, v.ctx.ctl.fpflags.getLsbD b = true ↔
            u.ctx.ctl.fpflags.getLsbD b = true ∨ ∃ e < numElem t, (step (upTo e) e).2.testBit b = true))) ∧
    (t ≤ 13 → Dest u f f.vd → f.vc.toNat < 32 →
      let es := (List.range (numElem t)).filter (fun e => active e t em)
      let packs (i : Instr) (g : Nat → Nat) : Prop :=
        DataGives s u i f.nas (fun v => (∀ k, k ≠ f.vd → v.v k = lastRead u f k) ∧ (v.v f.vd).tag.toNat = t ∧ (v.v f.vd).empty = false ∧
          v.sreg f.vc = es.length ∧ (∀ k, k ≠ f.vc → v.sreg k = u.sreg k) ∧ ∀ e < numElem t, elem (v.v f.vd).val t e = g e)
      packs (.vcomp f) (fun j => match es[j]? with | some e => elem (u.v f.va).val t e | none => 0) ∧
      packs (.vexpd f) (fun e => if active e t em then elem (u.v f.va).val t (es.filter (fun k => k < e)).length
        else if f.z then 0 else elem (u.v f.vd).val t e)) ∧
    (t ∈ [3, 4, 5, 6, 10] → Format f t → Dest u f f.vd → Dest u f f.vc → f.vd ≠ f.vc → (u.v f.vd).empty = false → (u.v f.vc).empty = false →
      let n := numElem t
      let p := (f.x16.extractLsb' 8 3).toNat
      let x (g k : Nat) : Val := decodeVal (elem (u.v f.va).val t (8 * g + k)) t
      let above (g i j : Nat) : Prop :=
        ((x g i).isNan = true ∧ ((x g j).isNan = false ∨ i < j)) ∨
        ((x g i).isNan = false ∧ (x g j).isNan = false ∧
          (0 < cmpVal (x g i).abs (x g j).abs ∨ (cmpVal (x g i).abs (x g j).abs = 0 ∧ i < j)))
      p < 256 / (n / 8) →
      ∃ kept : Nat → List Nat, (∀ g < n / 8, (kept g).Pairwise (· < ·) ∧ (∀ i ∈ kept g, i < 8) ∧ ∀ i ∈ kept g, ∀ j < 8, j ∉ kept g → above g i j) ∧
      DataGives s u (.vprune f) f.nas (fun v => (∀ k, k ≠ f.vd → k ≠ f.vc → v.v k = lastRead u f k) ∧
        (v.v f.vd).tag.toNat = t ∧ (v.v f.vc).tag = 13 ∧
        (∀ g < n / 8, (kept g).length = 4 ∧
          (∀ j < 4, elem (v.v f.vd).val t (p % 2 * (n / 2) + 4 * g + j) = elem (u.v f.va).val t (8 * g + (kept g).getD j 0)) ∧
          elem (v.v f.vc).val 13 (p * (n / 8) + g) = (kept g).getD 0 0 + 8 * (kept g).getD 1 0 + 64 * (kept g).getD 2 0 + 512 * (kept g).getD 3 0) ∧
        (∀ e < n, e / (n / 2) ≠ p % 2 → elem (v.v f.vd).val t e = elem (u.v f.vd).val t e) ∧
        (∀ e < 256, e / (n / 8) ≠ p → elem (v.v f.vc).val 13 e = elem (u.v f.vc).val 13 e) ∧
        v.ctx.ctl.fpflags = u.ctx.ctl.fpflags))

/-- R330 to R332: VLD and VLDX complete with the words of their active lanes read from the region that the address names, and change no byte of
memory but for what the acquire of a read of lines that landings have filled writes back (R58, R111). That the words may be those of lanes that an
earlier turn of the schedule has read is the model's reading of R335 (assumption 81).

R333, R74: VLDC completes with the words of its active lanes as the constant cache holds them once each address has been checked and
translated and its line is filled; with no active lane nothing is checked. -/
def Obligations.VectorAndConstantLoads : Prop :=
  (∀ (f : D64) (s : State) (u w : UnitSt) (A : Nat), DatAt s u → u.ctx.spoison = [] → s.queuedMatrix u = false → Dest u f f.vd → f.fn.toNat ≤ 13 →
    A % 4 = 0 →
    let a := A % 2 ^ 20
    let loads (i : Instr) (t : Nat) (early : List (Nat × Nat)) (off x : Nat → Nat) : Prop :=
      let late (k : Nat) : Bool := laneActive t (effMask u f) k && (early.find? (fun e => e.1 == k)).isNone
      let read := afterRead s u (((List.range 128).filter late).map (fun k => (w, off k / 128)))
      DataEnds s u i f.nas (fun y v => SameMemory read y ∧ SameSlices read y u ∧ SameRegisters u v f [f.vd] ∧
        (v.v f.vd).tag.toNat = f.fn.toNat ∧ (v.v f.vd).empty = false ∧
        ∀ k < 128, v.lane f.vd k = if laneActive t (effMask u f) k then x k else if f.z then 0 else u.lane f.vd k)
    (Names s u f f.vc A w → (∀ k < 128, laneActive f.fn.toNat (effMask u f) k = true → MayRead s w (a + 4 * k) 4) →
      loads (.vld f) f.fn.toNat u.ctx.dat.lanes (fun k => a + 4 * k) (fun k => match u.ctx.dat.lanes.find? (fun e => e.1 == k) with
        | some e => e.2 % 2 ^ 32
        | none => pantryNat s w (a + 4 * k) 4)) ∧
    (∀ tb, tb = 0 ∨ tb = 8 → Source u f.vb tb → Names s u f 0 A w →
      (∀ k < 128, (effMask u f).getLsbD k = true → u.lane f.vb k % 4 = 0 ∧ MayRead s w (a + u.lane f.vb k) 4) →
      loads (.vldx f) 0 [] (fun k => a + u.lane f.vb k) (fun k => pantryNat s w (a + u.lane f.vb k) 4))) ∧
  (∀ (f : D64) (s : State) (u : UnitSt), DatAt s u → u.ctx.spoison = [] → Dest u f f.vd → f.fn.toNat ≤ 13 →
    let t := f.fn.toNat
    let a := (u.sreg f.va + f.x16.toNat) % 2 ^ 64
    let ls := (List.range 128).filter (laneActive t (effMask u f))
    let vas := ls.map (fun i => (a + 4 * i) % 2 ^ 64)
    (ls = [] → DataGives s u (.vldc f) f.nas (fun v => SameRegisters u v f [f.vd] ∧ (v.v f.vd).tag.toNat = t ∧
      ∀ k < 128, v.lane f.vd k = if f.z then 0 else u.lane f.vd k)) ∧
    (∀ (x y : State) (pas : List (Nat × Nat)) (w : UnitSt), ls ≠ [] → a % 4 = 0 → constAddrs u vas s = .ok (x, pas) →
      constFill u (pas.zip vas) x = .ok y → y.findUnit u.key = some w → w.ctx = u.ctx →
      DataEnds s u (.vldc f) f.nas (fun t2 v => t2.mem = y.mem ∧ SameRegisters u v f [f.vd] ∧
        LoadedLanes u v f t (fun k => constWord y u ((pas.zip ls).findSome? (fun p => if p.2 = k then some p.1.1 else none) |>.getD 0)))))

/-- R330 to R332: VST and VSTX complete with the active lanes stored at their addresses, of equal addresses of VSTX the highest lane's, and
every other byte of memory as before.

R60, R334: PFILL completes with s[N] words of the value stored from its address on, PMARK with s[N] lines in its state; both leave the rest
of memory and of the lines alone, and neither does anything when ma is empty. -/
def Obligations.VectorStoresAndFills : Prop :=
  (∀ (f : D64) (s : State) (u w : UnitSt) (A : Nat), DatAt s u → u.ctx.spoison = [] → s.queuedMatrix u = false → A % 4 = 0 →
    let a := A % 2 ^ 20
    let stores (i : Instr) (act : Nat → Bool) (off : Nat → Nat) (x : Nat → Nat) : Prop :=
      s.memWf = true → (∀ k < 128, act k = true → off k % 4 = 0 ∧ MayWrite s w (off k) 4) →
      DataEnds s u i f.nas (fun y v => SameRegisters u v f [] ∧
        (∀ k < 128, act k = true → (∀ l < 128, k < l → act l = true → off l ≠ off k) → Stored y w (off k) 4 (x k)) ∧
        ∀ p, (∀ k < 128, act k = true → p < w.pantryPa (off k) ∨ w.pantryPa (off k) + 4 ≤ p) → y.byteAt p = s.byteAt p)
    (∀ t ≤ 13, Source u f.vb t → Names s u f f.vc A w →
      stores (.vst f) (laneActive t (effMask u f)) (fun k => a + 4 * k) (fun k => u.lane f.vb k)) ∧
    (∀ t ≤ 13, ∀ tb, tb = 0 ∨ tb = 8 → Source u f.vb tb → Source u f.vc t → Names s u f 0 A w →
      stores (.vstx f) (fun k => (effMask u f).getLsbD k) (fun k => a + u.lane f.vb k) (fun k => u.lane f.vc k))) ∧
  (∀ (f : D64) (s : State) (u w : UnitSt) (A : Nat), DatAt s u → u.ctx.spoison = [] → s.queuedMatrix u = false →
    let a := A % 2 ^ 20
    let n := u.sreg f.vb
    (u.ma = 0 → ∀ i ∈ [Instr.pfill f, .pmark f], DataGives s u i f.nas (fun v => v.ctx = (markRead f u).ctx)) ∧
    (u.ma ≠ 0 → Names s u f 0 A w → A % 4 = 0 → 0 < n → n ≤ 262144 → MayWrite s w a (4 * n) → s.memWf = true →
      DataEnds s u (.pfill f) f.nas (fun x v => SameRegisters u v f [] ∧
        (∀ k < n, Stored x w (a + 4 * k) 4 (u.sreg f.vc)) ∧
        ∀ p, p < w.pantryPa a ∨ w.pantryPa a + 4 * n ≤ p → x.byteAt p = s.byteAt p)) ∧
    (u.ma ≠ 0 → Names s u f f.vc A w → A % 128 = 0 → 0 < n → n ≤ 8192 → a + 128 * n ≤ w.regionBytes → f.fn.toNat ≤ 2 →
      cellsWf 0 0 w.ctx.lines = true →
      DataEnds s u (.pmark f) f.nas (fun x v => SameMemory s x ∧ SameSlices s x u ∧ SameRegisters u v f [] ∧
        ∃ y, x.findUnit w.key = some y ∧ ∀ l, y.lineState l = if a / 128 ≤ l ∧ l < a / 128 + n then f.fn.toNat else w.lineState l)))

/-- R336, R337: SALU computes as the control slice's ALU does, SLI with its immediate, SLD and SST load and store a scalar of their size in
the region that the address names. -/
def Obligations.ScalarSide : Prop :=
  ∀ (f : D64) (s : State) (u w : UnitSt) (A : Nat), DatAt s u → u.ctx.spoison = [] →
    let a : Word := BitVec.ofNat 64 (u.sreg f.va)
    let b : Word := BitVec.ofNat 64 (u.sreg f.vb)
    let sh := f.x16.toNat % 64
    let off := A % 2 ^ 20
    let n := 2 ^ (f.fn.toNat % 4)
    (f.vd.toNat < 32 →
      (aluDivides f.fn.toNat = false ∨ b ≠ 0 → ScalarResult s u (.salu f) f f.vd (aluFn f.fn.toNat a b).toNat) ∧
      (aluDivides f.fn.toNat = true → b = 0 → exec (.salu f) s = .next (s.takeTrap u { code := 0x0B, src := 1, pc := u.ctx.dat.pc })) ∧
      (∀ x : Word, x ∈ ([a + f.x16.signExtend 64, a &&& f.x16.zeroExtend 64, a ||| f.x16.zeroExtend 64, a ^^^ f.x16.zeroExtend 64, a <<< sh,
          a >>> sh, a.sshiftRight sh, (a <<< 16) ||| f.x16.zeroExtend 64] : List Word)[f.fn.toNat]? →
        ScalarResult s u (.sli f) f f.vd x.toNat) ∧
      (Names s u f f.vc A w → A % n = 0 → s.queuedMatrix u = false → MayRead s w off n →
        let read := afterRead s u [(w, off / 128)]
        DataEnds s u (.sld f) f.nas (fun x v => SameMemory read x ∧ SameSlices read x u ∧ (∀ i, v.v i = lastRead u f i) ∧
          (∀ k, k ≠ f.vd → v.sreg k = u.sreg k) ∧
          v.sreg f.vd = if f.fn.getLsbD 2 then natOf 64 (sintOf (8 * n) (pantryNat s w off n)) else pantryNat s w off n))) ∧
    (Names s u f f.vc A w → A % n = 0 → s.queuedMatrix u = false → MayWrite s w off n → s.memWf = true →
      DataEnds s u (.sst f) f.nas (fun x v => SameRegisters u v f [] ∧ Stored x w off n (u.sreg f.vb) ∧
        ∀ p, p < w.pantryPa off ∨ w.pantryPa off + n ≤ p → x.byteAt p = s.byteAt p))

/-- R169, R171, R339: DNOP moves the data slice as its selector says: on, back to the head while iterations remain, to the next entry, or to the
end of the slice; with fn 1 it also moves the head to the next data instruction.

R165, R168, R170: CHUTE_POP makes the oldest entry the current one: its registers, its iteration counter 0, its mask, its start, which is the
head; an end entry ends the slice. None is taken while a restore still replays the unit's stores (R413).

R54, R55, R241, R359: an instruction that has waited for a line, a register or the matrix queue issues again from its first check.

R175, R176, R339: VGRAB completes at once where the unit holds the block or one is free and nobody waits, its registers then UNINIT and zero;
otherwise it waits and VGRAB_GRANT hands a free block to the unit that has waited longest; VDROP gives the block up. -/
def Obligations.DataSliceGoesOn : Prop :=
  (∀ (f : D64) (s : State) (u : UnitSt), DatAt s u →
    (f.fn = 0 → ∃ v, exec (.dnop f) s = .next (s.putUnit v) ∧ v.key = u.key ∧ v.ctx.dat.s = u.ctx.dat.s ∧ v.ctx.ctl = u.ctx.ctl ∧
      v.ctx.dat.head = u.ctx.dat.head ∧
      (f.nas = 0 → v.ctx.dat.pc = u.ctx.dat.pc + 2 ∧ v.ctx.dat.wait = .none ∧ v.ctx.dat.it = u.ctx.dat.it ∧ v.ma = u.ma) ∧
      (f.nas = 1 → v.ctx.dat.it.toNat = min (u.ctx.dat.it.toNat + 1) (2 ^ 32 - 1) ∧
        v.ma = activeMask u.ctx.dat v.ctx.dat.it.toNat ∧
        v.ctx.dat.pc = if v.ctx.dat.it.toNat < u.ctx.dat.en.toNat then u.ctx.dat.head else u.ctx.dat.pc + 2) ∧
      (f.nas = 2 → v.ctx.dat.wait = .pop ∧ v.ctx.dat.done = u.ctx.dat.done) ∧
      (f.nas = 3 → v.ctx.chute = [] ∧ (s.queuedMatrix u = false → v.ctx.dat.done = true) ∧
        (s.queuedMatrix u = true → v.ctx.dat.stopped = true ∧ v.ctx.dat.done = false))) ∧
    (∀ (t : State) (pc : Nat), f.fn = 1 → nextPc u true true (u.launch.lines + 1) s u.ctx.dat.buf (u.ctx.dat.pc + 2) = (t, .found pc) →
      ∃ x v, exec (.dnop f) s = .next x ∧ (t.findUnit u.key = some u → x.findUnit u.key = some v ∧ v.ctx.dat.head = pc))) ∧
  (∀ (s : State) (u : UnitSt) (p k : Nat) (e : ChuteEntry) (r : List ChuteEntry), s.resident p k = some u → u.datRuns = true →
    u.ctx.dat.wait = .pop → u.ctx.chute = e :: r →
    (u.ctx.ctl.replay = true → exec (.chutePop p k) s = .next s) ∧
    (u.ctx.ctl.replay = false → e.bits.getLsbD 31 = false → ∃ v, exec (.chutePop p k) s = .next (s.putUnit v) ∧ v.key = u.key ∧ v.ctx.chute = r ∧
      v.ctx.dat.eb = e.bits.extractLsb' 32 32 ∧ v.ctx.dat.en = e.bits.extractLsb' 64 32 ∧ v.ctx.dat.it = 0 ∧
      (∀ i < 4, v.ctx.dat.ea.toArray.getD i 0 = e.bits.extractLsb' (96 + 32 * i) 32) ∧
      v.ctx.dat.pc = u.launch.entries.getD (e.bits.toNat % 2 ^ 16) 0 ∧ v.ctx.dat.head = v.ctx.dat.pc ∧ v.ctx.dat.wait = .none ∧
      v.ctx.dat.chseq = e.seqno ∧ v.ctx.dat.v = u.ctx.dat.v ∧ v.ctx.dat.s = u.ctx.dat.s ∧
      v.ma = (if e.bits.getLsbD 24 then e.bits.extractLsb' 96 128
        else if v.ctx.dat.en = 0 then 0
        else if 1 < v.ctx.dat.en.toNat ∨ e.bits.toNat / 2 ^ 16 % 256 = 0 then BitVec.allOnes 128
        else BitVec.ofNat 128 (2 ^ (e.bits.toNat / 2 ^ 16 % 256) - 1))) ∧
    (u.ctx.ctl.replay = false → e.bits.getLsbD 31 = true → ∃ v, exec (.chutePop p k) s = .next (s.putUnit v) ∧ v.key = u.key ∧ v.ctx.chute = [] ∧
      (s.queuedMatrix u = false → v.ctx.dat.done = true))) ∧
  (∀ (s : State) (u : UnitSt) (p k : Nat), s.resident p k = some u → u.datRuns = true →
    let again (i : Instr) (w : DatWait) : Prop :=
      u.ctx.dat.wait = w → exec i s = .next (s.putUnit (u.modDat (fun d => { d with wait := .none })))
    let moved (l : UKey × Nat × Nat) : Prop := ∀ v, s.findUnit l.1 = some v → v.occupies.isSome = true → v.lineState l.2.1 ≠ l.2.2
    (∀ seen, (∃ l ∈ seen, moved l) → again (.lineStateWaitEnd p k) (.line seen)) ∧
    (∀ seen, u.ctx.dat.wait = .line seen → (∀ l ∈ seen, ¬ moved l) → exec (.lineStateWaitEnd p k) s = .next s) ∧
    again (.registerEmptyWaitEnd p k) .register ∧
    ((s.pairOf p).mq.length < 32 → again (.matrixQueueSpace p k) .matrixQueue)) ∧
  ((∀ (f : D64) (s : State) (u : UnitSt), DatAt s u →
    (u.launch.regs64 = true → u.ctx.ext = true → DataGives s u (.vgrab f) f.nas (fun v => v.ctx = (markRead f u).ctx)) ∧
    (u.launch.regs64 = true → u.ctx.ext = false → extUsed s u.pair < 2 → (s.pairOf u.pair).vgrab = [] → f.la = false → f.lb = false →
      DataGives s u (.vgrab f) f.nas (fun v => v.ctx.ext = true ∧ (∀ i : BitVec 6, 32 ≤ i.toNat → v.v i = {}) ∧
        (∀ i : BitVec 6, i.toNat < 32 → v.v i = u.v i))) ∧
    (u.launch.regs64 = false → exec (.vgrab f) s = .next (s.takeTrap u { code := 0x01, src := 1, pc := u.ctx.dat.pc, info := 5 + 256 * 32 })) ∧
    DataGives s u (.vdrop f) f.nas (fun v => v.ctx.ext = false ∧ SameRegisters u v f [])) ∧
  (∀ (s : State) (u : UnitSt) (p k : Nat) (r : List UKey), (s.pairOf p).vgrab = u.key :: r → s.findUnit u.key = some u → u.place = .placed p k →
    u.datRuns = true → u.ctx.dat.wait = .vgrab → extUsed s p < 2 →
    ∃ t v, exec (.vgrabGrant p) s = .next t ∧ t.findUnit u.key = some v ∧ v.ctx.ext = true ∧ v.ctx.dat.wait = .none ∧
      (t.pairOf p).vgrab = r ∧ ∀ i : BitVec 6, 32 ≤ i.toNat → v.v i = {}))

/-- R342 to R349, R354 to R359: a matrix instruction whose checks pass appends its command to the pair's queue, marks its destination empty with
its result's tag, and changes no byte of memory beyond that acquire of R58; with an empty ma it appends nothing; without room it waits.

R348: a descriptor that fails a condition traps ENG_DESC at the push with its lowest cause, from source 5, and pushes nothing. -/
def Obligations.MatrixPushes : Prop :=
  (∀ (f : D64) (s : State) (u : UnitSt), DatAt s u → u.ctx.spoison = [] →
    let queue (x : State) : List MCmd := (x.pairOf u.pair).mq
    let pushed (s0 : State) (i : Instr) (c : MCmd) (P : UnitSt → Prop) : Prop :=
      queueRoom s u c = true →
      DataEnds s u i f.nas (fun t v => SameMemory s0 t ∧ SameSlices s0 t u ∧ queue t = queue s ++ [c] ∧ v.ctx.dat.s = u.ctx.dat.s ∧
        v.ctx.dat.m = u.ctx.dat.m ∧ P v)
    let claimed (n tag : Nat) (v : UnitSt) : Prop := (v.tile n).tag.toNat = tag ∧ (v.tile n).empty = true ∧ (v.tile n).val = (u.tile n).val
    let full (w : UnitSt) (off n : Nat) : Prop := ∀ l, off / 128 ≤ l → l * 128 < off + n → w.lineState l = 0
    (u.ma ≠ 0 →
      (f.vd.toNat < min 8 u.launch.tiles → f.fmt = 1 ∨ f.fmt = 8 →
        let c := matrixCmd s u 0x72 f 0 0 0 0 []
        pushed s (.mzero f) c (claimed f.vd.toNat f.fmt) ∧
        (queueRoom s u c = false → exec (.mzero f) s = .next (s.waitD (u.modDat (fun d => { d with lanes := [] })) .matrixQueue))) ∧
      (∀ (w : UnitSt) (a off n : Nat), pantryAddr u true (u.sreg f.va) (f.x16.toNat / 8 * 8) f.vc = .ok a → a % 128 = 0 →
        n = 512 * fmtBits f.fn.toNat → resolve s u true a n = .ok (w, off) →
        (f.vd.toNat < min 8 u.launch.tiles → full w off n →
          pushed (afterRead s u (operandLines [(w, off, n)])) (.mlda f) (matrixCmd s u 0x74 f 0 0 a 0 []) (claimed f.vd.toNat (if isInt f.fn.toNat then 8 else 1))) ∧
        (f.vb.toNat < u.launch.tiles → (u.tile f.vb.toNat).tag.toNat ≠ 15 → mstaSuits (u.tile f.vb.toNat).tag.toNat f.fn.toNat = true →
          (∀ b ∈ s.subs, b.unit = w.key → b.active = false) →
          pushed s (.msta f) { matrixCmd s u 0x73 f 0 0 a 0 [] with tag := (u.tile f.vb.toNat).tag.toNat } (fun v => v.ctx.tiles = u.ctx.tiles))) ∧
      (vregOk u f.vd.toNat = true → f.va.toNat < u.launch.tiles → (u.tile f.va.toNat).tag ≠ 15 →
        pushed s (.mrdv f) (matrixCmd s u 0x76 f 0 0 0 0 []) (fun v =>
          (v.v f.vd).tag = (u.tile f.va.toNat).tag ∧ (v.v f.vd).empty = true ∧ v.ctx.tiles = u.ctx.tiles)) ∧
      (∀ (x : State) (bs : List (List Byte)) (w : UnitSt) (a off : Nat),
        let n := u.sreg f.vb
        let o := u.sreg f.vc
        let nw := (n + 2) / 3
        let word (i : Nat) : Nat := leNat (sliceOf bs.flatten (8 * i) 8)
        0 < n → n ≤ 4096 → o + n ≤ u.launch.scales * 512 → pantryAddr u true (u.sreg f.va) f.x16.toNat 0 = .ok a → a % 8 = 0 →
        resolve s u true a (8 * nw) = .ok (w, off) → pantryRead s u w true f.fa [(off, 8 * nw)] = .ok (x, bs) →
        (∀ i < nw, word i < 2 ^ 60) →
        pushed x (.mscl f) (matrixCmd s u 0x75 f 0 o a 0 (((List.range nw).flatMap (fun i =>
          [word i % 2 ^ 20, word i / 2 ^ 20 % 2 ^ 20, word i / 2 ^ 40 % 2 ^ 20])).take n)) (fun v => v.ctx.tiles = u.ctx.tiles)) ∧
      (∀ (mmas : Bool) (i : Instr) (wa wb : UnitSt) (oa ob : Nat) (caps : List Nat), i = (if mmas then .mmas f else .mma f) →
        let sp := u.sreg f.va
        let sc := u.sreg f.vc
        let k := sc % 1024
        let a := sp % 2 ^ 25
        let b := sp / 2 ^ 32 % 2 ^ 25
        let na := 64 * (if mmas then k / 2 else k) * fmtBits (fmtA f) / 8
        let nb := 64 * k * fmtBits (fmtB f) / 8
        f.vd.toNat < min 8 u.launch.tiles → (mmSet f = true ∨ (u.tile f.vd.toNat).tag.toNat = if isInt (fmtA f) then 8 else 1) →
        (mmas = true → vregOk u f.vb.toNat = true ∧ (u.v f.vb).tag = 13) → (mmas = false → f.lb = false) →
        mmDescriptor u f mmas sp sc = none → a % 128 = 0 → b % 128 = 0 →
        resolve s u true a na = .ok (wa, oa) → resolve s u true b nb = .ok (wb, ob) →
        (mmas = true → metaCheck u f k = .ok caps) → (mmas = false → caps = []) → full wa oa na → full wb ob nb →
        pushed (afterRead s u (operandLines [(wa, oa, na), (wb, ob, nb)])) i (matrixCmd s u (if mmas then 0x71 else 0x70) f sp sc a b caps) (claimed f.vd.toNat (if isInt (fmtA f) then 8 else 1)))) ∧
    (u.ma = 0 → f.vd.toNat < u.launch.tiles → DataGives s u (.mzero f) f.nas (fun v => v.ctx.tiles = u.ctx.tiles))) ∧
  (∀ (f : D64) (s : State) (u : UnitSt), DatAt s u → u.ctx.spoison = [] → u.ma ≠ 0 → f.vd.toNat < u.launch.tiles → mmSet f = true →
    let sp := u.sreg f.va
    let sc := u.sreg f.vc
    let k := sc % 1024
    let offA := sc / 2 ^ 16 % 2 ^ 12
    let offB := sc / 2 ^ 32 % 2 ^ 12
    let scaled := fmtA f = 5 ∨ fmtA f = 6 ∨ fmtA f = 7
    let bad1 := sp / 2 ^ 25 % 2 ^ 7 ≠ 0 ∨ sp / 2 ^ 57 % 2 ^ 7 ≠ 0 ∨ sc / 2 ^ 10 % 2 ^ 6 ≠ 0 ∨ sc / 2 ^ 28 % 2 ^ 4 ≠ 0 ∨ sc / 2 ^ 44 % 2 ^ 20 ≠ 0
    let bad2 := ¬ (8 ≤ k ∧ k ≤ 512 ∧ k % 8 = 0)
    let bad3 := scaled ∧ (u.launch.scales * 512 < offA + 64 * (k / 8) ∨ u.launch.scales * 512 < offB + 64 * (k / 8))
    let bad4 := ¬ scaled ∧ (offA ≠ 0 ∨ offB ≠ 0)
    let traps (c : Nat) : Prop := exec (.mma f) s = .next (s.takeTrap u { code := 0x18, src := 5, pc := u.ctx.dat.pc, info := c })
    (bad1 → traps 1) ∧ (¬ bad1 → bad2 → traps 2) ∧ (¬ bad1 → ¬ bad2 → bad3 → traps 3) ∧ (¬ bad1 → ¬ bad2 → bad4 → traps 4))

/-- R343, R359: a free matrix unit takes, among the oldest commands of the running residents, the one of the lowest class, the earliest pushed
among equals.

R342, R350, R351, R353 to R358, R360: the running command leaves the queue with its results in place: MZERO's zeros, MLDA's converted
elements, MRDV's words, MSCL's scales, MSTA's converted bytes, and for MMA and MMAS the fold over the blocks of 8 of R350: exact block sums, scaled
where the formats are, and rounded once a block to FP32, or added modulo 2^32 or with a clamp that raises SATF; a tile is full again when no
later command of the unit is to write it. -/
def Obligations.MatrixUnitRuns : Prop :=
  (∀ (s : State) (p : Nat) (c : MCmd),
    let q := (s.pairOf p).mq
    let oldest (x : MCmd) : Prop :=
      x ∈ q ∧ (∃ v k, s.findUnit x.unit = some v ∧ v.place = .placed p k ∧ v.ctx.ctl.replay = false) ∧ ∀ y ∈ q, y.unit = x.unit → x.number ≤ y.number
    (s.pairOf p).mrun = none → oldest c →
    (∀ x, oldest x → c.cls < x.cls ∨ (c.cls = x.cls ∧ (c.number < x.number ∨ c = x))) →
    exec (.matrixCommandStart p) s = .next (s.setPair { s.pairOf p with mrun := some c.number })) ∧
  (∀ (s : State) (p : Nat) (c : MCmd) (u : UnitSt), s.findUnit c.unit = some u → u.place = .placed p u.slot →
    (s.pairOf p).mrun = some c.number → (s.pairOf p).mq.find? (fun x => x.number == c.number) = some c →
    let d := c.f.vd.toNat
    let word (t : TileSt) (i : Nat) : Nat := (t.val.toNat >>> (32 * i)) % 2 ^ 32
    let q2 := (s.pairOf p).mq.filter (fun x => x.number != c.number)
    let ends (P : State → UnitSt → Prop) : Prop :=
      ∃ t v, exec (.matrixCommandComplete p) s = .next t ∧ t.findUnit c.unit = some v ∧ (t.pairOf p).mrun = none ∧ (t.pairOf p).mq = q2 ∧ P t v
    let only (v : UnitSt) : Prop := (∀ n < 8, n ≠ d → v.tile n = u.tile n) ∧ v.ctx.dat.v = u.ctx.dat.v ∧ (v.tile d).empty = laterWrites s u c
    let bytes (a n : Nat) : List Byte := (s.bytesAt a n).map TByte.v
    d < 8 →
    (c.op = 0x72 → ends (fun t v => SameMemory s t ∧ only v ∧ ∀ i < 4096, word (v.tile d) i = 0)) ∧
    (∀ (w : UnitSt) (off : Nat) (t : Nat), t = c.f.fn.toNat → c.op = 0x74 → resolve s u true c.addr (512 * fmtBits t) = .ok (w, off) →
      (∀ i < 4 * fmtBits t, s.poisoned (w.pantryPa (off + 128 * i)) 128 = false) →
      let x (i : Nat) : Nat := (leNat (bytes (w.pantryPa off) (512 * fmtBits t)) >>> (fmtBits t * i)) % 2 ^ fmtBits t
      ends (fun y v => SameMemory s y ∧ only v ∧ ∀ i < 4096, word (v.tile d) i = (toFormat (x i) t (if isInt t then 8 else 1) 0 false).1 % 2 ^ 32)) ∧
    (c.op = 0x76 → (u.v c.f.vd).empty = true → laterWrites s u c = false → vregOk u d = true → (u.tile c.f.va.toNat).poison = [] →
      c.f.x16.toNat % 4096 < 32 →
      ends (fun y v => SameMemory s y ∧ v.ctx.tiles = u.ctx.tiles ∧ (v.v c.f.vd).empty = false ∧ (v.v c.f.vd).tag = (u.v c.f.vd).tag ∧
        ∀ k < 128, v.lane c.f.vd k = word (u.tile c.f.va.toNat) (128 * (c.f.x16.toNat % 4096) + k))) ∧
    (c.op = 0x75 → c.f.fn = 0 → u.ctx.scalePoison = [] → c.sc + c.captured.length ≤ u.ctx.scaleA.length →
      ends (fun y v => SameMemory s y ∧ v.ctx.tiles = u.ctx.tiles ∧ v.ctx.scaleB = u.ctx.scaleB ∧ ∀ e,
        v.ctx.scaleA[e]? = if c.sc ≤ e ∧ e < c.sc + c.captured.length then (c.captured[e - c.sc]?).map (BitVec.ofNat 20) else u.ctx.scaleA[e]?)) ∧
    (∀ (w : UnitSt) (off g : Nat), c.op = 0x73 → g = c.f.fn.toNat → (c.tag = 8 ∧ g ∈ [8, 9, 10, 11, 12]) ∨ (c.tag = 1 ∧ g ∈ [1, 3, 4, 5, 6, 7]) →
      (u.tile c.f.vb.toNat).poison = [] → resolve s u true c.addr (512 * fmtBits g) = .ok (w, off) →
      (∀ b ∈ s.subs, b.unit = w.key → b.active = false) → s.partPoison (w.pantryPa off) (512 * fmtBits g) = false → s.memWf = true →
      ends (fun y v => v.ctx.tiles = u.ctx.tiles ∧
        (∀ i < 4096, pantryNat y w off (512 * fmtBits g) / 2 ^ (fmtBits g * i) % 2 ^ fmtBits g =
          (toFormat (word (u.tile c.f.vb.toNat) i) c.tag g 0 false).1 % 2 ^ fmtBits g) ∧
        ∀ a, a < w.pantryPa off ∨ w.pantryPa off + 512 * fmtBits g ≤ a → y.byteAt a = s.byteAt a)) ∧
    (∀ (wa wb : UnitSt) (oa ob fa fb : Nat), c.op = 0x70 ∨ c.op = 0x71 → fa = fmtA c.f → fb = fmtB c.f →
      (fa ∈ [5, 6] ∧ fb ∈ [5, 6]) ∨ (fa ∈ [10, 11] ∧ fb ∈ [10, 11]) ∨ (fa = fb ∧ fa ∈ [3, 4]) ∨ (fa = fb ∧ fa ∈ [7, 12] ∧ c.op = 0x70) →
      c.k % 8 = 0 → u.ctx.scalePoison = [] → (u.tile d).poison = [] →
      let ka := if c.op = 0x71 then c.k / 2 else c.k
      let na := 64 * ka * fmtBits fa / 8
      let nb := 64 * c.k * fmtBits fb / 8
      resolve s u true c.addr na = .ok (wa, oa) → resolve s u true c.addr2 nb = .ok (wb, ob) →
      (∀ i, (128 * i < na → s.poisoned (wa.pantryPa (oa + 128 * i)) (min 128 (na - 128 * i)) = false) ∧
        (128 * i < nb → s.poisoned (wb.pantryPa (ob + 128 * i)) (min 128 (nb - 128 * i)) = false)) →
      -- A[i][t] as it multiplies, the kept values of MMAS at their indices and +0 elsewhere; B[t][n]
      let dense (i t : Nat) : Nat := (leNat (bytes (wa.pantryPa oa) na) >>> (fmtBits fa * (i * ka + t))) % 2 ^ fmtBits fa
      let index (i g j : Nat) : Nat := c.captured.getD (256 * (g / 4) + 4 * i + g % 4) 0 / 8 ^ j % 8
      let a (i t : Nat) : Nat := if c.op = 0x70 then dense i t
        else match (List.range 4).find? (fun j => index i (t / 8) j == t % 8) with
          | some j => dense i (4 * (t / 8) + j)
          | none => 0
      let b (t n : Nat) : Nat := (leNat (bytes (wb.pantryPa ob) nb) >>> (fmtBits fb * (n * c.k + t))) % 2 ^ fmtBits fb
      let old (i n : Nat) : Nat := if mmSet c.f then 0 else word (u.tile d) (64 * i + n)
      let scale (store : List (BitVec 20)) (o i j : Nat) : Val :=
        if fa ∈ [5, 6, 7] then decodeVal (store.getD (o + i * (c.k / 8) + j) 0).toNat 16 else .fin false 1 0 false
      let fpBlock (i n acc j : Nat) : Nat :=
        let s := (exactSum ((List.range 8).map (fun t => (exactMul (decodeVal (a i (8 * j + t)) fa) (decodeVal (b (8 * j + t) n) fb)).1)) 0).1
        let x := (exactMul (exactMul s (scale u.ctx.scaleA (c.sc / 2 ^ 16 % 2 ^ 12) i j)).1 (scale u.ctx.scaleB (c.sc / 2 ^ 32 % 2 ^ 12) n j)).1
        (roundTo (exactSum [decodeVal acc 1, x] 0).1 1 0 false).1
      let num (f x : Nat) : Int := if f = 11 then (x : Int) else sintOf (fmtBits f) x
      let sums (i n : Nat) (acc : Int) (j : Nat) : Int :=
        acc + ((List.range 8).map (fun t => num fa (a i (8 * j + t)) * num fb (b (8 * j + t) n))).sum
      let intBlock (i n : Nat) (acc : Int) (j : Nat) : Int :=
        if mmSat c.f then max (-2 ^ 31) (min (2 ^ 31 - 1) (sums i n acc j)) else sintOf 32 (natOf 32 (sums i n acc j))
      let upTo (i n m : Nat) : Int := (List.range m).foldl (intBlock i n) (sintOf 32 (old i n))
      ends (fun y v => SameMemory s y ∧ only v ∧ (∀ i < 64, ∀ n < 64,
          (isInt fa = false → word (v.tile d) (64 * i + n) = (List.range (c.k / 8)).foldl (fpBlock i n) (old i n)) ∧
          (isInt fa = true → sintOf 32 (word (v.tile d) (64 * i + n)) = upTo i n (c.k / 8))) ∧
        (isInt fa = true → (v.ctx.ctl.fpflags.getLsbD 5 = true ↔ u.ctx.ctl.fpflags.getLsbD 5 = true ∨
          ∃ i < 64, ∃ n < 64, ∃ j < c.k / 8, intBlock i n (upTo i n j) j ≠ sums i n (upTo i n j) j ∧ mmSat c.f = true)))))

/-- R101 to R104, R109: the messages at the home of a line. A read finds no holder and is granted E, finds sharers and is granted S, or forwards to
the owner; a write invalidates the sharers first, or is granted M; a write-back is merged and acknowledged; the last answer ends the transaction, and one that
is Stale, the owner's words having come before, ends it from the home memory: DataS and S, or DataM and M, for the requester alone (R106). -/
def Obligations.HomeMessages : Prop :=
  ∀ (s : State) (src home l : Nat) (rest : List (Nat × Nat × ToHome)), s.memWf = true → home < 4 → homeDie s (l * 128) = some home →
    s.poisoned (l * 128) 128 = false → (∀ v, (s.die home).vline l = some v → v.data.length = 128 ∧ ∀ b ∈ v.data, b.bad = false) →
    (s.die home).sfEntry l = none →
    let quiet := (s.die home).txns = [] ∧ (s.die home).homeq = [] ∧
      ((s.die home).dirSt l = none → ((s.die home).dir.filter (fun e => e.line % 16384 == l % 16384)).length < 16)
    let dir := (s.die home).dirSt l
    let bytes (x : State) : List TByte := homeBytes x (l * 128) 128
    let ends (i : Instr) (d : Option DirSt) (out : List (Nat × Nat × ToDie)) : Prop :=
      ∃ t, exec i s = .next t ∧ t.toHome = rest ∧ (t.die home).dirSt l = d ∧ t.toDie = s.toDie ++ out
    let clean (data : List TByte) : Prop := data.length = 128 ∧ ∀ b ∈ data, b.bad = false
    -- word w of x after the masked words of data: its own where masked, else the old one, but in a cipher block that goes to another key
    let merged (x : List TByte) (data : List TByte) (mask : BitVec 32) : Prop :=
      ∀ w < 32, ∀ k, (∀ i < 16, (data.getD (w / 4 * 16 + i) {}).key = k) →
        (mask.getLsbD w = true → sliceOf x (4 * w) 4 = sliceOf data (4 * w) 4) ∧
        (mask.getLsbD w = false → (∀ i < 4, mask.getLsbD (w / 4 * 4 + i) = false) ∨ (∀ i < 16, ((bytes s).getD (w / 4 * 16 + i) {}).key = k) →
          sliceOf x (4 * w) 4 = sliceOf (bytes s) (4 * w) 4)
    let left := if (s.die home).inTxn l then some (DirSt.s []) else none
    -- the transaction in progress for die d, which awaits src's answer
    let awaits (d : Nat) (write upg keepX : Bool) : Prop :=
      (s.die home).txns = [⟨.remote d write upg l, [src], keepX, none⟩] ∧ (s.die home).homeq = []
    let next (m : ToHome) : Prop := takeMsg src home s.toHome = some (m, rest)
    (next (.rds l) → quiet →
      (dir = none → ends (.rds src home) (some (.e src)) [(home, src, .datae l (bytes s))]) ∧
      (∀ v, dir = some (.s v) → ends (.rds src home) (some (.s (if v.contains src then v else v ++ [src]))) [(home, src, .datas l (bytes s))]) ∧
      (∀ x, dir = some (.e x) ∨ dir = some (.m x) → ends (.rds src home) dir [(home, x, .fwds l)])) ∧
    (next (.rdm l) → quiet →
      (dir = none → ends (.rdm src home) (some (.m src)) [(home, src, .datam l (bytes s))]) ∧
      (∀ v, dir = some (.s v) →
        ((∀ x ∈ v, x = src) → ends (.rdm src home) (some (.m src)) [(home, src, .datam l (bytes s))]) ∧
        ((∃ x ∈ v, x ≠ src) → ends (.rdm src home) dir ((v.filter (fun x => x != src)).map (fun x => (home, x, .inv l))))) ∧
      (∀ x, dir = some (.e x) ∨ dir = some (.m x) → ends (.rdm src home) dir [(home, x, .fwdm l)])) ∧
    (next (.upg l) → quiet →
      (∀ v, dir = some (.s v) →
        ((∀ x ∈ v, x = src) → ends (.upg src home) (some (.m src)) [(home, src, if v.contains src then .ackm l else .datam l (bytes s))]) ∧
        ((∃ x ∈ v, x ≠ src) → ends (.upg src home) dir ((v.filter (fun x => x != src)).map (fun x => (home, x, .inv l))))) ∧
      (∀ x, dir = some (.e x) ∨ dir = some (.m x) → ends (.upg src home) dir [(home, x, .fwdm l)]) ∧
      (dir = none → ends (.upg src home) (some (.m src)) [(home, src, .datam l (bytes s))])) ∧
    (∀ (data : List TByte) (mask : BitVec 32) (keep : Bool), next (.wbm l data mask keep) → clean data → dir = some (.m src) ∨ dir = some (.e src) →
      ∃ t, exec (.wbm src home) s = .next t ∧ t.toHome = rest ∧ (t.die home).dirSt l = (if keep then some (.s [src]) else left) ∧
        t.toDie = s.toDie ++ [(home, src, .wback l)] ∧ merged (bytes t) data mask) ∧
    (next (.evicte l) → dir = some (.e src) → ends (.evicte src home) left [(home, src, .wback l)] ∧
      ∀ t, exec (.evicte src home) s = .next t → SameMemory s t) ∧
    (∀ (d : Nat) (v : List Nat) (upg : Bool), next (.invack l) → awaits d true upg false → dir = some (.s v) →
      ends (.invack src home) (some (.m d)) [(home, d, if upg && v.contains d then .ackm l else .datam l (bytes s))]) ∧
    (∀ (d : Nat) (data : List TByte) (mask : BitVec 32), next (.fwdack l data mask) → clean data → dir = some (.m src) ∨ dir = some (.e src) → src ≠ d →
      (awaits d false false true →
        ∃ t x, exec (.fwdack src home) s = .next t ∧ t.toHome = rest ∧ (t.die home).dirSt l = some (.s [src, d]) ∧
          t.toDie = s.toDie ++ [(home, d, .datas l x)] ∧ merged x data mask) ∧
      (∀ upg, awaits d true upg false →
        ∃ t x, exec (.fwdack src home) s = .next t ∧ t.toHome = rest ∧ (t.die home).dirSt l = some (.m d) ∧
          t.toDie = s.toDie ++ [(home, d, .datam l x)] ∧ merged x data mask)) ∧
    (∀ d : Nat, next (.stale l) → dir = some (.s []) ∨ dir = some (.m src) ∨ dir = some (.e src) →
      (awaits d false false true → ends (.stale src home) (some (.s [d])) [(home, d, .datas l (bytes s))]) ∧
      (∀ upg, awaits d true upg false → ends (.stale src home) (some (.m d)) [(home, d, .datam l (bytes s))]))

/-- R101, R102: the messages at a die. A grant is recorded and the access that waited performs at once, its pair then holding the line with the
permission granted; Inv, FwdM and Recall leave no copy in the die and FwdS leaves S copies, each with its answer; WbAck ends its write-back. -/
def Obligations.DieMessages : Prop :=
  ∀ (s : State) (home dst l : Nat) (rest : List (Nat × Nat × ToDie)), dst < 4 → home ≠ dst → homeDie s (l * 128) = some home →
    let next (m : ToDie) : Prop := takeMsg home dst s.toDie = some (m, rest)
    let wb := (s.die dst).wbw.find? (fun w => w.line == l)
    let grants (i : Instr) (r : SfReq) (g st : L1St) : Prop :=
      ∃ t, exec i s = .next t ∧ t.toDie = rest ∧ (∀ q ∈ (t.die dst).sfq, q.acc.aid ≠ r.acc.aid) ∧
        (∃ e, (t.die dst).sfEntry l = some e ∧ e.grant = some g ∧ e.busy = false ∧ e.holders = [r.acc.pair]) ∧
        (t.l1Find r.acc.pair l cStates).map L1Line.st = some st
    let answers (i : Instr) (m : ToHome) (P : State → Prop) : Prop :=
      ∃ t, exec i s = .next t ∧ t.toDie = rest ∧ t.toHome = s.toHome ++ [(dst, home, m)] ∧ P t
    let gone (e : SfEntry) (t : State) : Prop := (t.die dst).sfEntry l = none ∧ ∀ p ∈ e.holders, t.l1Find p l cStates = none
    (∀ (r : SfReq) (e : SfEntry), (s.die dst).issuedReq l = some r → (s.die dst).sfEntry l = some e → (s.pairOf r.acc.pair).l1.length < 512 →
      (r.write = false → r.acc.use.writes = false) →
      (∀ data, e.holders = [] → e.owner = none → s.l1Find r.acc.pair l cStates = none →
        (next (.datas l data) → r.write = false → grants (.datas home dst) r .s .s) ∧
        (next (.datae l data) → r.write = false → grants (.datae home dst) r .e .e) ∧
        (next (.datam l data) → r.write = true → grants (.datam home dst) r .m .m)) ∧
      (next (.ackm l) → r.write = true → e.holders = [r.acc.pair] → e.owner = none →
        (s.l1Find r.acc.pair l cStates).map L1Line.st = some .s → grants (.ackm home dst) r .m .m)) ∧
    (next (.inv l) → (∀ e, (s.die dst).sfEntry l = some e → e.busy = false →
      answers (.inv home dst) (.invack l) (gone e)) ∧ ((s.die dst).sfEntry l = none → answers (.inv home dst) (.invack l) (fun _ => True))) ∧
    (next (.fwds l) →
      (∀ p ln, wb = none → ownerLine s dst l = some (p, ln) → answers (.fwds home dst) (.fwdack l ln.data ln.dirty) (fun t =>
        t.l1Find p l [.e, .m] = none ∧ ∃ e, (t.die dst).sfEntry l = some e ∧ e.grant = some .s ∧ e.owner = none)) ∧
      (∀ w, wb = some w → w.keep = false → (s.die dst).sfEntry l = none → answers (.fwds home dst) (.stale l) (fun _ => True))) ∧
    (∀ (m : ToDie) (i : Instr), (m = .fwdm l ∧ i = .fwdm home dst) ∨ (m = .recall l ∧ i = .recall home dst) → next m →
      (∀ e p ln, wb = none → (s.die dst).sfEntry l = some e → e.busy = false → p ∈ e.holders → ownerLine s dst l = some (p, ln) →
        answers i (.fwdack l ln.data ln.dirty) (gone e)) ∧
      (∀ e, wb = none → (s.die dst).sfEntry l = some e → e.busy = false → ownerLine s dst l = none → answers i (.fwdack l [] 0) (gone e)) ∧
      (∀ w, wb = some w → w.keep = false → (s.die dst).sfEntry l = none → answers i (.stale l) (fun _ => True))) ∧
    (next (.wback l) → ∃ t, exec (.wback home dst) s = .next t ∧ t.toDie = rest ∧
      (∀ w, wb = some w → (t.die dst).wbw.length + 1 = (s.die dst).wbw.length) ∧ (t.die dst).sf = (s.die dst).sf)

/-- R29 to R36: PAGE_WALK walks the oldest miss. A leaf that permits the access is installed in the waiting unit's TLB and its instruction issues
again; a fault traps the waiting slice with its code, the address and the cause, level and access kind.

R96, R108, R117: the filter serves the oldest request of a line inside its die where the die's grant permits it, and otherwise sends RdS, RdM or
Upg to the line's home; an uncached load, store or atomic performs at the home on the home memory, and a store is then acknowledged. -/
def Obligations.WalksAndRequests : Prop :=
  (∀ (s : State) (d n : Nat) (m : Miss) (rest : List Miss) (j : Job) (u : UnitSt) (va : Nat), d < 4 → (s.die d).missq = m :: rest → s.job m.job = some j →
    m.waiters = [⟨u.key, u.pair, false, va, n⟩] → s.findUnit u.key = some u → u.running = true → u.ctx.ctl.wait = .walk n → dieOf u.pair = d →
    (∀ (x : State) (e : Pte) (lvl : Nat), walkFrom u.launch.cls d m.job (m.page * 4096) [4, 3, 2, 1, 0] s j.root = .leaf x e lvl →
      let t := leafEntry (x.modDie d (fun y => { y with missq := rest })) d m.job (m.page * 4096) e lvl
      x.findUnit u.key = some u → check30 x m.q e (t.phys (m.page * 4096)) = none → t.hits m.job m.page = true →
      ∃ y v, exec (.pageWalk d) s = .next y ∧ y.findUnit u.key = some v ∧ v.ctx.ctl.wait = .none ∧ v.ctx.ctl.c = u.ctx.ctl.c ∧
        (y.die d).missq = rest ∧ ∃ h ∈ (y.pairOf u.pair).tlb, h.hits m.job m.page = true ∧ h.pte = t.pte) ∧
    (∀ (code cause lvl : Nat), walkFrom u.launch.cls d m.job (m.page * 4096) [4, 3, 2, 1, 0] s j.root = .fault code cause lvl →
      ∃ y v, exec (.pageWalk d) s = .next y ∧ y.findUnit u.key = some v ∧ v.place = .trapped u.pair u.slot ∧
        v.trap.map Trap.code = some code ∧ v.trap.map Trap.addr = some va ∧ v.trap.map Trap.pc = some u.ctx.ctl.pc ∧
        v.trap.map Trap.info = some (cause + 16 * lvl + 256 * m.q.kind.code) ∧ v.ctx = u.ctx ∧ (y.die d).missq = rest)) ∧
  ((∀ (s : State) (d home : Nat) (r : SfReq) (q : List SfReq), d < 4 → (s.die d).sfq = r :: q → r.issued = false → r.acc.live s = true →
    backed s r.acc.pa = true → (r.write = true → subscribed s r.acc.pa r.acc.size = false) → homeDie s (r.acc.line * 128) = some home → home ≠ d →
    let l := r.acc.line
    ∀ e : SfEntry, (s.die d).sfEntry l = some e → e.busy = false →
      let sends (m : ToHome) : Prop := ∃ t e2, exec (.snoopFilterRequest d 0) s = .next t ∧ t.toHome = s.toHome ++ [(d, home, m)] ∧
        (t.die d).sfEntry l = some e2 ∧ e2.busy = true ∧ (t.die d).issuedReq l = some { r with issued := true }
      (e.grant = none → sends (if r.write then .rdm l else .rds l)) ∧
      (e.grant = some .s → r.write = true → sends (.upg l)) ∧
      (e.grant = some .m → r.write = true → e.holders = [r.acc.pair] → e.owner = some r.acc.pair → (s.pairOf r.acc.pair).l1.length < 512 →
        (s.l1Find r.acc.pair l cStates).map L1Line.st = some .m →
        ∃ t, exec (.snoopFilterRequest d 0) s = .next t ∧ t.toHome = s.toHome ∧ (∀ x ∈ (t.die d).sfq, x.acc.aid ≠ r.acc.aid) ∧
          (t.l1Find r.acc.pair l cStates).map L1Line.st = some .m)) ∧
  (∀ (s : State) (d h : Nat) (a : Access) (q : List Access), d < 4 → (s.die d).uncq = a :: q → a.live s = true → backed s a.pa = true →
    s.memWf = true → (∀ r ∈ (s.die d).homeq, r.line = a.line → r = .uncached a.aid a.line) →
    lineBusy s a.line = false → homeDie s a.pa = some h → (s.die h).vline a.line = none → (∀ x < 4, (s.die x).sfEntry a.line = none) → s.poisoned a.pa a.size = false → a.acq = none →
    let old := homeSeen s a.key a.pa a.size
    (∀ (u : UnitSt) (rd : BitVec 6) (signed : Bool), a.use = .load rd signed → s.findUnit a.unit = some u → u.running = true →
      u.ctx.ctl.wait = .access a.aid →
      ∃ t v, exec (.uncachedAccess d 0) s = .next t ∧ SameMemory s t ∧ t.findUnit a.unit = some v ∧
        v.ctx.ctl.c = (u.setC rd (loadValue signed old)).ctx.ctl.c ∧ v.ctx.ctl.wait = .none ∧ (t.die d).uncq = q.filter (fun b => b.aid != a.aid)) ∧
    (∀ (data : List Byte) (sid : Nat), a.use = .store data sid → data.length = a.size →
      ∃ t, exec (.uncachedAccess d 0) s = .next t ∧ t.acks = s.acks ++ [⟨a.unit, a.group, none⟩] ∧
        (t.bytesAt a.pa a.size) = sealList a.key a.pa data ∧ KeepsRest s t a.key a.pa a.size) ∧
    (∀ (u : UnitSt) (rd : BitVec 6) (op : AtomicOp), a.use = .amo rd op → op.size = a.size → op.size ≠ 16 → s.findUnit a.unit = some u → u.running = true →
      u.ctx.ctl.wait = .access a.aid →
      ∃ t v, exec (.uncachedAccess d 0) s = .next t ∧ t.findUnit a.unit = some v ∧
        v.ctx.ctl.c = (u.setC rd (BitVec.ofNat 64 (leNat old))).ctx.ctl.c ∧
        t.bytesAt a.pa a.size = sealList a.key a.pa (leBytes a.size (amoNew op (leNat old))) ∧ KeepsRest s t a.key a.pa a.size)))

/-- R190, R191, R192, R193: BIND maps a buffer as its descriptor says, fixed or in the next slot of its pool; UNBIND ends a mapping; POOL declares
a pool with every slot on its shelf. Each completes at decode. A POOL whose slots are in use, a BIND that names no declared pool and a descriptor with a
reserved bit fail decode. -/
def Obligations.BufferRecordsDecode : Prop :=
  ∀ (s : State) (j : Job) (r : Rec), SeqAt s j →
    let buf := r.x32.toNat % 256
    let pid := bits r.x32.toNat 13 8
    (∀ (s1 s2 : State) (bs : List Byte) (b : Buf) (vs : List (Nat × Nat)), seqRead s j.decodeRead r.q2.toNat 64 = .ok s1 bs →
      (bufOfBytes bs = none → exec (.bind r) s = .next (decodeFault s1 j tcTaskDecode j.recAddr 0)) ∧
      (bufOfBytes bs = some b → bit r.x32.toNat 14 = false → vaultSet s1 j b = .ok s2 vs →
        ∃ t, exec (.bind r) s = .next t ∧ Enters s t j (putBuf j.map buf { b with vaults := vs }) j.pools (nextRecord j)
          (fun x => Instant x ∧ x.fresh = [] ∧ x.dead = deadSlot j.map buf)) ∧
      (bufOfBytes bs = some b → bit r.x32.toNat 14 = true → poolAt j.pools pid = none →
        exec (.bind r) s = .next (decodeFault s1 j tcBindFault j.recAddr 0)) ∧
      (∀ (p : Pool) (k : Nat) (rest : List Nat), bufOfBytes bs = some b → bit r.x32.toNat 14 = true → poolAt j.pools pid = some p →
        p.shelf = k :: rest → b.hull.2 - b.hull.1 ≤ ((p.slotsz * 4096 : Nat) : Int) →
        let c : Buf := { b with base := p.base + k * p.slotsz * 4096, pool := some (pid, k) }
        vaultSet s1 j c = .ok s2 vs →
        ∃ t, exec (.bind r) s = .next t ∧ Enters s t j (putBuf j.map buf { c with vaults := vs }) (putPool j.pools { p with shelf := rest }) (nextRecord j)
          (fun x => Instant x ∧ x.fresh = [(pid, k)] ∧ x.dead = deadSlot j.map buf))) ∧
    (∃ t, exec (.unbind r) s = .next t ∧ Enters s t j (j.map.filter (fun x => x.1 != buf)) j.pools (nextRecord j)
      (fun x => Instant x ∧ x.fresh = [] ∧ x.dead = deadSlot j.map buf)) ∧
    (let id := r.x32.toNat % 64
     let held := j.map.any (fun x => match x.2.pool with | some (p, _) => p == id | none => false) ||
       j.window.any (fun t => (t.fresh ++ t.dead).any (fun x => x.1 == id))
     let n := bits r.q3.toNat 47 32
     ((poolAt j.pools id = none ∨ held = false) → ∃ t, exec (.pool r) s = .next t ∧
       Enters s t j j.map (putPool j.pools ⟨id, r.q2.toNat, bits r.q3.toNat 31 0, n, range 0 n⟩) (nextRecord j) Instant) ∧
     (poolAt j.pools id ≠ none → held = true → exec (.pool r) s = .next (decodeFault s j tcBindFault j.recAddr 0)))

/-- R188, R204, R207, R210, R227: LAUNCH and the engine tasks enter the window with the operands that their slots bind: a launch with what its
descriptor and the header and entry table of its code object say, an engine task with the first command that its slots and fields name. -/
def Obligations.WorkRecordsDecode : Prop :=
  ∀ (s : State) (j : Job) (r : Rec), SeqAt s j →
    let x32 := r.x32.toNat
    let n := r.q2.toNat
    let m := min n 4096
    let enters (i : Instr) (b : Bound) (P : Task → Prop) : Prop :=
      ∃ t, exec i s = .next t ∧ Enters s t j b.map b.pools (nextRecord j) (fun x => HasOperands x b ∧ P x)
    let engine (i : Instr) (b : Bound) (c : Cmd) : Prop := enters i b (fun x => x.units = 1 ∧ x.kind = .engine c)
    (∀ (t : State) (b : Bound), OperandsBind s t j r b →
      engine (.gather r) b (taskCmd j 1 (opBase b.ops 2) (opBase b.ops 1)
        (.gath (opStr1 b.ops 1) m (bits x32 12 0) (opBase b.ops 0) (bit x32 13) (opBase b.ops 3)) (n - m)) ∧
      (bit x32 13 = false → engine (.scatter r) b
        (taskCmd j 1 (opBase b.ops 2) (opBase b.ops 1) (.scat (opStr1 b.ops 2) m (bits x32 12 0) (opBase b.ops 0)) (n - m))) ∧
      (bit x32 13 = true → engine (.scatter r) b
        (taskCmd j 1 (opBase b.ops 2) (opBase b.ops 1) (.scata (opStr1 b.ops 2) m (bits x32 12 0) (opBase b.ops 0) (bits x32 15 14)) (n - m))) ∧
      (∀ o, b.ops.find? (fun o => o.slot == 0) = some o → engine (.fill r) b
        (taskCmd j 0 o.buf.base 0 (.fill (o.boxes.map (fun x => x.map (fun d => (d.1, d.2.1)))) o.buf.str (elemBytes o.buf.fmt) n) 0))) ∧
    (∀ (s1 t : State) (bs : List Byte) (b : Bound), seqRead s j.decodeRead n 64 = .ok s1 bs → OperandsBind s1 t j r b →
      (shapeBad (shapeOf bs) = false → shapeReserved bs = false →
        engine (.copy r) b (taskCmd j 0 (opBase b.ops 1) (opBase b.ops 0) (.cpyShp (shapeOf bs)) 0)) ∧
      (stairBad (stairOf bs) = false → stairReserved bs = false →
        engine (.level r) b (taskCmd j 2 (opBase b.ops 1) (opBase b.ops 0) (.stair (stairOf bs) (opBase b.ops 2)) 0))) ∧
    (∀ (s1 s2 s3 t : State) (bs h e : List Byte) (d : LDesc) (l : Launch) (nent off : Nat) (b : Bound),
      seqRead s j.decodeRead n 256 = .ok s1 bs → ldescOf bs = some d →
      seqRead s1 j.decodeRead d.launch.code 64 = .ok s2 h → headerOf d h = some (l, nent, off) →
      seqRead s2 j.decodeRead (d.launch.code + off) (4 * nent) = .ok s3 e → (∀ y ∈ words32 e, y < 8 * l.lines) →
      (d.rule = 2 → j.clus.testBit (6 * d.pdie + d.pclu) = true) → (∀ k ∈ d.akind, k ≠ 0 → r.cls (k - 1) ≠ 0) →
      (d.trg = true → producerOk j d = true) → OperandsBind s3 t j r b →
      enters (.launch r) b (fun x => x.units = d.launch.gx * d.launch.gy * d.launch.gz ∧
        x.kind = .launch { l with entries := words32 e, cls := max l.cls j.clsmin } d.rule d.pdie d.pclu d.harg d.hs d.akind
          (if d.trg then some (j.tidx - d.trgback, d.trgk) else none)))

/-- R160, R211, R213 to R218, R417: PHASE, SIGNAL, WAITEV, TFENCE, TJMPC and HALT enter the window and act when they issue; TJMP completes at decode and
moves the decode address; a target at or above 2^57 fails decode. CANCEL completes at decode: LVL 1 ends the whole task that BACK names, which then counts
as completed, LVL 0 one unit of it, LVL 3 the job; with no such task left it has no effect. LVL 2 ends
every task of the current phase that is older, and no task of an older phase. Log row 51 (DEDUCED) is the model's choice: R216 fails a TJMPC's target at or
above 2^57 at the TJMPC's own decode, whether or not it would jump. -/
def Obligations.ControlRecordsDecode : Prop :=
  ∀ (s : State) (j : Job) (r : Rec), SeqAt s j →
    let waits (i : Instr) (k : TaskKind) : Prop :=
      ∃ t, exec i s = .next t ∧ Enters s t j j.map j.pools (nextRecord j) (fun x => x.kind = k ∧ x.issued = false ∧ x.completed = false) ∧
        t = { s with jobs := t.jobs }
    let x32 := r.x32.toNat
    let q2 := r.q2.toNat
    let scope := if r.scope.toNat < 4 then 4 else r.scope.toNat
    let es := (range 0 x32).map (fun i => (r.phaseDie i, r.phaseVault i, r.phaseSize i))
    ((∀ e ∈ es, j.vlt.testBit (24 * e.1 + e.2.1) = true) → waits (.phase r) (.phase es)) ∧
    ((∃ e ∈ es, j.vlt.testBit (24 * e.1 + e.2.1) = false) → exec (.phase r) s = .next (decodeFault s j tcPrivileged j.recAddr 0)) ∧
    waits (.signal r) (.signal (r.x32.getLsbD 0) q2 r.q3.toNat scope) ∧
    waits (.waitev r) (.waitev r.cnd.toNat x32 q2 r.q3.toNat scope) ∧
    waits (.tfence r) (.tfence scope) ∧ waits (.halt r) .halt ∧
    (q2 < 2 ^ 57 → ∃ t, exec (.tjmp r) s = .next t ∧ t = { s with jobs := t.jobs } ∧ Enters s t j j.map j.pools q2 Instant) ∧
    (2 ^ 57 ≤ q2 → exec (.tjmp r) s = .next (decodeFault s j 0x10 q2 (1 + 16 * 7))) ∧
    (let target := (((j.recAddr : Int) + r.x32.toInt * 32) % 2 ^ 64).toNat
     (target < 2 ^ 57 → waits (.tjmpc r) (.tjmpc r.cnd.toNat scope r.x32.toInt q2 r.q3.toNat)) ∧
     (2 ^ 57 ≤ target → exec (.tjmpc r) s = .next (decodeFault s j 0x10 target (1 + 16 * 7)))) ∧
    (let lvl := x32 % 4
     let back := bits x32 8 2
     let named (x : Task) : Prop := j.window.find? (fun t => t.tidx + back == j.tidx && t.isLaunch && !t.completed) = some x
     (lvl < 2 → (∀ x, ¬ named x) → ∃ t, exec (.cancel r) s = .next t ∧ t = { s with jobs := t.jobs } ∧
       Enters s t j j.map j.pools (nextRecord j) Instant) ∧
     (∀ (x : Task) (s1 : State), lvl = 1 → named x → cancelTask s j x = some s1 → s.taskOf j.id x.tidx = some x →
       ∃ t y, exec (.cancel r) s = .next t ∧ t.taskOf j.id x.tidx = some y ∧ y.completed = true ∧ y.launchCtr = 0 ∧
         (∀ u ∈ t.units, ¬ (u.key.job = j.id ∧ u.key.tidx = x.tidx)) ∧
         ∀ c ∈ t.cmds, ¬ (c.task = true ∧ c.unit.job = j.id ∧ c.unit.tidx = x.tidx)) ∧
     (∀ (x : Task) (s1 : State), lvl = 0 → named x → hasUnits x = true → q2 < x.units → x.isDone q2 = false → cancelUnit s j x q2 = some s1 →
       s.taskOf j.id x.tidx = some x →
       ∃ t y, exec (.cancel r) s = .next t ∧ t.taskOf j.id x.tidx = some y ∧ y.isDone q2 = true ∧ y.launchCtr = x.launchCtr - 1 ∧
         ∀ u ∈ t.units, u.key ≠ ⟨j.id, x.tidx, q2⟩) ∧
     (∀ s1 : State, lvl = 2 → (j.window.map Task.tidx).Nodup →
       cancelTasks j (j.window.filter (fun t => t.phaseNo == j.phaseNo && !t.completed)) s = some s1 →
       ∃ t, exec (.cancel r) s = .next t ∧ ∀ x ∈ j.window, s.taskOf j.id x.tidx = some x → ∃ y, t.taskOf j.id x.tidx = some y ∧
         (x.phaseNo ≠ j.phaseNo → y.completed = x.completed ∧ y.launchCtr = x.launchCtr) ∧
         (x.phaseNo = j.phaseNo → y.completed = true ∧ (x.completed = false → y.launchCtr = 0 ∧
           (∀ u ∈ t.units, ¬ (u.key.job = j.id ∧ u.key.tidx = x.tidx)) ∧
           ∀ c ∈ t.cmds, ¬ (c.task = true ∧ c.unit.job = j.id ∧ c.unit.tidx = x.tidx)))) ∧
     (∀ s1, lvl = 3 → cancelJob s j j.tidx = some s1 → ∃ t, exec (.cancel r) s = .next t ∧ t.job j.id = none))

/-- R158, R201, R205, R212, R213, R217, R220, R400: the oldest task that may issue issues; a task completes once its own effect has ended; the oldest
completed task retires and its dead slots return to their shelves; the retirement of HALT ends the job with its completion interrupt. -/
def Obligations.TasksIssueCompleteRetire : Prop :=
  (∀ (s : State) (job : Nat) (j : Job) (x : Task), s.job job = some j → j.window.find? (mayIssue j) = some x → s.taskOf job x.tidx = some x →
    let issues (P : State → Task → Prop) : Prop := ∃ t y, exec (.taskIssue job) s = .next t ∧ t.taskOf job x.tidx = some y ∧ y.issued = true ∧ P t y
    (∀ l rule pdie pclu harg hs akind trg, x.kind = .launch l rule pdie pclu harg hs akind trg →
      issues (fun t y => y.lseq = j.lseq + 1 ∧ y.launchCtr = x.units - (x.low + x.doneSet.length) ∧ (t.job job).map Job.lseq = some (j.lseq + 1) ∧
        y.kind = .launch { l with args := resolveArgs x.operands akind l.args, lseq := j.lseq + 1 } rule pdie pclu harg hs akind trg)) ∧
    (∀ c sc, x.kind = .engine c → taskScope s j x.operands = some sc →
      issues (fun t y => y.lseq = j.lseq + 1 ∧ y.launchCtr = 1 ∧
        t.cmds = s.cmds ++ [{ c with id := s.fresh, pair := enginePair s (j.spreadTake s).1 c.queue, scope := sc }] ∧
        (t.job job).map Job.spread = some (j.spreadTake s).2)) ∧
    (∀ es, x.kind = .phase es → issues (fun t y => y = { x with issued := true } ∧
      ∀ e ∈ es, e.1 < 4 → ⟨e.2.1, job, x.tidx, e.2.2⟩ ∈ (t.die e.1).vwait)) ∧
    (∀ sc, x.kind = .tfence sc → issues (fun _ y => y = { x with issued := true, ready := true })) ∧
    (x.kind = .halt → issues (fun _ y => y = { x with issued := true, ready := true })) ∧
    (∀ irq addr value sc s1 s2 pa e lvl, x.kind = .signal irq addr value sc → xlateDie s j.clsmin j.die j.id j.root { kind := .store, size := 8 } addr = .ok s1 pa e lvl →
      (place52 pa = .hbm ∨ ∃ d v o, place52 pa = .attic d v o) → cohWrite s1 pa (sealList j.keyGen pa (leBytes 8 value)) = some (s2, true) →
      issues (fun t y => y.ready = true ∧ (irq = true → t.out = .interrupt j.func j.nvec :: s2.out) ∧ (irq = false → t.out = s2.out)))) ∧
  (∀ (s : State) (job tidx : Nat) (x : Task), s.taskOf job tidx = some x → taskEnded s job x = true →
    ∃ t, exec (.taskComplete job tidx) s = .next t ∧ t = { s with jobs := t.jobs } ∧ t.taskOf job tidx = some { x with completed := true }) ∧
  (∀ (s : State) (job : Nat) (j : Job) (x : Task) (rest : List Task), s.job job = some j → j.window = x :: rest → x.completed = true →
    ∃ t, exec (.taskRetire job) s = .next t ∧
      (x.kind ≠ .halt → t.job job = some { j with window := rest, pools := freeSlots x.dead j.pools } ∧ t.out = s.out) ∧
      (x.kind = .halt → t.job job = none ∧ t.out = .interrupt j.func j.cvec :: s.out))

/-- R214: a WAITEV that waits reads its word again at a wake-up and after 2,048 array clocks, and is ready when its condition holds of what it read;
a read that begins is an acquire at the SCOPE of its record, so that no copy of a host line that was filled before answers it; TMO microseconds after its first read its task becomes the faulting task with WATCHDOG. -/
def Obligations.WaitevReadsAgain : Prop :=
  ∀ (s : State) (job : Nat) (j : Job) (x : Task) (c tmo addr v sc : Nat), waitingEvent s job = some (j, x) → s.taskOf job x.tidx = some x →
    x.kind = .waitev c tmo addr v sc →
    let reads (i : Instr) : Prop :=
      let begins := x.got = [] ∧ x.bad = [] ∧ taskReading s job x.tidx = false
      ∀ s0 j0 s1 pa e lvl s2 bs, (begins → s0 = seqAcquire s job sc) → (¬ begins → s0 = s) → s0.job job = some j0 →
        xlateDie s0 j0.clsmin j0.die job j0.root { kind := .load, size := 8 } addr = .ok s1 pa e lvl →
        seqFetch s1 (j0.taskRead x) addr pa (Pte.cm e) lvl 8 = .ok s2 bs →
        (∃ t y, exec i s = .next t ∧ t.taskOf job x.tidx = some y ∧ y.ready = condHolds c (leNat bs) v ∧ y.woken = false ∧ y.lastRead = s.cycle) ∧
        (begins → (acqCovers sc false).1 = true ∨ (acqCovers sc false).2.1 = true →
          s0 = { s with jobs := s0.jobs, dies := s0.dies } ∧ j0 = { j with hostFloor := (s.die j.die).epoch + 1 })
    (x.woken = true → x.reading = false → reads (.waitevWake job)) ∧
    (x.lastRead + 2048 ≤ s.cycle → x.reading = false → reads (.waitevReread job)) ∧
    (∀ t0, tmo ≠ 0 → x.started = some t0 → t0 + usTicks tmo ≤ s.cycle → j.status = .running → j.fault = none →
      ∃ t, exec (.waitevTimeout job) s = .next t ∧ (t.job job).map Job.status = some (.faulting x.tidx) ∧
        ((t.job job).bind Job.fault).map (fun f => (f.tidx, f.trap.code, f.trap.src, f.trap.addr)) = some (x.tidx, 0x21, 6, x.addr))

/-- R221, R223, R404: the oldest task with a fault of its own becomes the faulting task and no unit of it runs on; once nothing of it is on a pair and no
older task is left, the record is written and the job is halted.

R400, R401, R405: a fault record is eight quadwords with its fields at their bits; it goes to ring entry RPROD mod RSIZE, and RPROD is incremented, or, where
the ring is full, nowhere, and RLOST is; STOPREC takes one that stops the job, and the interrupt is raised in each case. -/
def Obligations.FaultingTaskHaltsTheJob : Prop :=
  (∀ (s : State) (job : Nat) (j : Job), s.job job = some j →
    (∀ f, j.status = .running → j.fault = none → newFault s j = some f → (s.units.map UnitSt.key).Nodup →
      ∃ t, exec (.faultingTask job) s = .next t ∧ (t.job job).map Job.status = some (.faulting f.tidx) ∧ (t.job job).bind Job.fault = some f ∧
        SameMemory s t ∧ ∀ u ∈ t.units, u.key.job = job → u.key.tidx = f.tidx → u.running = false) ∧
    (∀ f n t, j.status = .faulting n → j.fault = some f → newFault s j = none → (∀ x ∈ j.window, f.tidx ≤ x.tidx) →
      (∀ u ∈ s.units, u.key.job = j.id → u.key.tidx = f.tidx → u.occupies = none) → reportFault s job f = some t →
      exec (.faultingTask job) s = .next t ∧ ∀ j2, t.job job = some j2 → j2.status = .halted f.resumable)) ∧
  ((∀ (job lseq : Nat) (f : TaskFault), let t := f.trap
    let q (i hi lo : Nat) : Nat := bits (leNat (sliceOf (recordBytes job lseq f) (8 * i) 8)) hi lo
    t.code < 2 ^ 8 → t.src < 7 → job < 4096 →
    (∀ u, f.unit = some u → u.pair < 384 ∧ u.slot < 4 ∧ ∀ d k, u.ctxslot = some (d, k) → d < 4 ∧ k < 2 ^ 14) →
    (recordBytes job lseq f).length = 64 ∧ q 0 7 0 = t.code ∧ q 0 11 8 = t.src ∧ q 0 23 12 = job ∧ q 0 35 35 = b2n t.posted ∧
    q 0 36 36 = b2n (f.more || t.more) ∧ q 0 39 37 = 0 ∧ q 0 63 40 = lseq % 2 ^ 24 ∧ q 1 63 0 = f.tidx % 2 ^ 64 ∧
    q 3 63 32 = t.chseq.getD 0 % 2 ^ 32 ∧ q 4 31 0 = t.pc % 2 ^ 32 ∧ q 4 63 32 = t.iter.getD 0 % 2 ^ 32 ∧ q 5 63 0 = t.addr % 2 ^ 64 ∧
    q 6 31 0 = t.info % 2 ^ 32 ∧ q 6 39 32 = t.hcode % 2 ^ 8 ∧ q 6 43 40 = t.hq % 16 ∧ q 6 63 44 = 0 ∧ q 7 47 0 = t.offset % 2 ^ 48 ∧
    (f.unit = none → q 0 34 24 = 0 ∧ q 2 63 0 = 0 ∧ q 3 31 0 = 0 ∧ q 7 63 48 = 0) ∧
    (∀ u, f.unit = some u → t.src ≠ 6 → q 0 32 24 = u.pair ∧ q 0 34 33 = u.slot ∧ q 2 31 0 = u.ux % 2 ^ 32 ∧ q 2 63 32 = u.uy % 2 ^ 32 ∧
      q 3 31 0 = u.uz % 2 ^ 32 ∧ ∀ d k, u.ctxslot = some (d, k) → q 7 63 62 = d ∧ q 7 61 48 = k)) ∧
  (∀ (s s0 s1 s2 t : State) (j : Job) (stop : Bool) (bs : List Byte) (prod cons lost : Nat), s.memWf = true → s.poison = [] →
    (∀ d < 4, ∀ v ∈ (s.die d).vlines, v.data.length = 128) → bs.length = 64 → j.jcb % 4096 = 0 → isHbm j.jcb = true → ringOk j.ring j.rsize = true →
    (j.ring + 64 * j.rsize ≤ j.jcb ∨ j.jcb + 4096 ≤ j.ring) →
    s0 = (if stop then (devWrite s (j.jcb + 0x100) bs).getD s else s) → devQuad s0 j.clsmin (j.jcb + 0xD0) = some (s1, some prod) →
    devQuad s1 j.clsmin (j.jcb + 0xD8) = some (s2, some cons) → writeRecord s j.report stop bs = some t →
    let at_ := j.ring + prod % j.rsize * 64
    (stop = true → homeSeen t 0 (j.jcb + 0x100) 64 = bs) ∧ t.out = .interrupt j.func j.fvec :: s.out ∧
    ((prod + 2 ^ 64 - cons) % 2 ^ 64 ≠ j.rsize → homeSeen t 0 at_ 64 = bs ∧ homeSeen t 0 (j.jcb + 0xD0) 8 = leBytes 8 (prod + 1)) ∧
    ((prod + 2 ^ 64 - cons) % 2 ^ 64 = j.rsize → homeSeen s2 0 (j.jcb + 0xE0) 8 = leBytes 8 lost → rangePoisoned s2 (j.jcb + 0xE0) 8 = false →
      homeSeen t 0 (j.jcb + 0xE0) 8 = leBytes 8 (lost + 1) ∧ ((∀ d < 4, (s.die d).vlines = []) → homeSeen t 0 at_ 64 = homeSeen s 0 at_ 64))))

/-- R163, R206, R393, R410, R413: UNIT_PLACEMENT admits the units of every issued launch; the units that await placement are considered by class, then by stamp. The first
starts on the pair of its target set that is on and has the most free slots of those on which it fits, the lowest id on a tie, at the lowest offset of the pantry, at the
entry of its code object with every register zero and a context slot; a saved unit whose image is one has its resources taken there. A unit that fits nowhere holds up
those of its class behind it whose target sets share a pair with its own, and no others. Log row 62 is the model's choice: the lowest free resident slot and the
lowest free context slot; row 98 the choices of a restore. -/
def Obligations.UnitsArePlaced : Prop :=
  ∀ s : State, let s1 := s.jobs.foldl admitJob s
    let first (u : UnitSt) : Prop := u ∈ s1.units ∧ awaitsPlace s1 u = true ∧ ∀ v ∈ s1.units, awaitsPlace s1 v = true → v ≠ u → placeOrder u v = true
    (s1.units.map UnitSt.key).Nodup → (∀ v ∈ s1.units, v.claim = none) →
    (∀ (u : UnitSt) (p base : Nat), first u → (∀ v ∈ s1.units, awaitsPlace s1 v = true → v ≠ u → v.place = .waiting) → BestFit s1 u p base →
      (∀ j x sc, u.place = .waiting → s1.job u.key.job = some j → s1.taskOf u.key.job u.key.tidx = some x → taskScope s1 j x.operands = some sc →
        ∃ t v, exec .unitPlacement s = .next t ∧ t.findUnit u.key = some v ∧ v.place = .placed p (freeSlot s1 p) ∧ v.base = base ∧ v.ever = true ∧
          v.launch = u.launch ∧ v.ctx.ctl.pc = u.launch.centry ∧ v.ctx.ctl.c = Vector.replicate 64 0 ∧ v.ctx.ctl.done = false ∧ v.ctx.ctl.wait = .none ∧
          v.ctx.dat = {} ∧ v.ctx.chute = [] ∧ v.ctx.dw = [] ∧ v.ctx.counters = List.replicate u.launch.counters {} ∧
          (u.ctxslot = none → v.ctxslot = freeCtx s1 u.key.job (dieOf p))) ∧
      (∀ s2, u.place = .saved → (∀ g < 4, u.ctx.ctl.unacked.toArray.getD g 0 = 0) → checkImage s1 u = .ok s2 true →
        ∃ t v, exec .unitPlacement s = .next t ∧ t.findUnit u.key = some v ∧ v.place = .restoring p (freeSlot s1 p) ∧ v.base = base ∧
          v.launch = u.launch ∧ v.ctxslot = u.ctxslot ∧ v.ctx.dat = u.ctx.dat ∧ v.ctx.ctl.c = u.ctx.ctl.c)) ∧
    (∀ u v : UnitSt, first u → v ∈ s1.units → v ≠ u → u.launch.cls ≠ 0 → (∀ w ∈ s1.units, awaitsPlace s1 w = true ↔ w = u ∨ w = v) →
      (∀ p ∈ u.target, pairOn s1 p = true → ¬ FitsOn s1 u p) →
      (v.launch.cls = u.launch.cls → (∃ p ∈ u.target, pairOn s1 p = true ∧ p ∈ v.target) → exec .unitPlacement s = .next s1) ∧
      (∀ (p base : Nat) (j : Job) (x : Task) (sc : Nat), v.launch.cls ≠ u.launch.cls ∨ (∀ p ∈ u.target, pairOn s1 p = true → p ∉ v.target) → BestFit s1 v p base →
        v.place = .waiting → s1.job v.key.job = some j → s1.taskOf v.key.job v.key.tidx = some x → taskScope s1 j x.operands = some sc →
        ∃ t w, exec .unitPlacement s = .next t ∧ t.findUnit v.key = some w ∧ w.place = .placed p (freeSlot s1 p) ∧ w.base = base ∧
          (t.findUnit u.key).map UnitSt.place = some u.place))

/-- R177, R207, R208: a trigger entry fires once the counter of its placed producing unit is drained, and its unit then awaits placement; when every
resident of a pair waits and one of them for an extended block, the one placed last that holds a block is frozen for a save.

R158, R159, R160: a unit both of whose slices have ended, with no command in flight and no matrix command queued, completes: it gives up its slot, its
region and its context slot, and the launch counter of its task falls by 1. -/
def Obligations.TriggersAndUnitEnds : Prop :=
  ((∀ (s : State) (die k p n : Nat) (e : Trigger) (j : Job) (x : Task) (u : UnitSt) (l : Launch) (rule pdie pclu harg : Nat) (hs : List Int)
      (akind : List Nat) (trg : Option (Nat × Nat)), (s.die die).triggers[k]? = some e → s.job e.unit.job = some j →
    s.taskOf e.unit.job e.unit.tidx = some x → x.kind = .launch l rule pdie pclu harg hs akind trg → j.lets x = true →
    s.findUnit e.producer = some u → u.place = .placed p n → counterDrained s u e.ctr = true →
    ∃ t v, exec (.triggerFire die k) s = .next t ∧ t.units = s.units ++ [v] ∧ v.key = e.unit ∧ v.place = .waiting ∧ v.launch = l ∧
      v.stamp = s.cycle ∧ v.target = firedTarget s j p ∧ (t.die die).triggers = dropIdx (s.die die).triggers k) ∧
  (∀ (s : State) (pair : Nat) (w u : UnitSt), s.findUnit u.key = some u →
    let rs := (s.occupants pair).filter (fun u => match u.place with | .restoring _ _ => false | _ => true)
    (∀ v ∈ rs, v.running = true ∧ unitWaits s v = true) → w ∈ rs → w.ctx.dat.wait = .vgrab → w.ctx.dat.done = false → 2 ≤ extUsed s pair →
    leastBy (fun a b => decide (b.when < a.when)) (rs.filter (fun u => u.ctx.ext)) = some u →
    ∃ t, exec (.vgrabPreemption pair) s = .next t ∧ t.findUnit u.key = some { u with place := .saving pair u.slot, frozenAt := s.cycle })) ∧
  (∀ (s : State) (job tidx lin : Nat) (u : UnitSt) (x : Task), s.findUnit ⟨job, tidx, lin⟩ = some u → u.running = true → u.ctx.ctl.done = true →
    u.ctx.dat.done = true → (∀ c ∈ s.unitCmds ⟨job, tidx, lin⟩, c.inFlight = false) → s.queuedMatrix u = false →
    s.taskOf job tidx = some x → x.isDone lin = false →
    ∃ t y, exec (.unitComplete job tidx lin) s = .next t ∧ t.findUnit ⟨job, tidx, lin⟩ = none ∧ t.unitCmds ⟨job, tidx, lin⟩ = [] ∧
      t.taskOf job tidx = some y ∧ y.isDone lin = true ∧ y.launchCtr = x.launchCtr - 1)

/-- R82, R83, R84, R86: the oldest request for a vault starts when no change runs there: growth clears the new attic store and lasts 16,384 clocks for each
MiB and 600 more, STORE taking its value at the end; a reduction takes effect at once and lasts 600 clocks; an unchanged size ends at once. -/
def Obligations.VaultSplits : Prop :=
  (∀ (s : State) (die vault i : Nat) (r : SplitReq), die < 4 → vault < 24 → ((s.die die).vault vault).busyTill = none →
    findIdxVal (fun (x : SplitReq) => x.vault == vault) (s.die die).vwait 0 = some (i, r) → sectorIn s die vault = false →
    let v := (s.die die).vault vault
    let starts (P : State → Vault → Prop) : Prop :=
      ∃ t, exec (.vaultSplitStart die vault) s = .next t ∧ (t.die die).vwait = dropIdx (s.die die).vwait i ∧ P t ((t.die die).vault vault)
    (r.size = v.store → starts (fun _ w => w = v)) ∧
    (v.store < r.size → starts (fun t w => w.store = v.store ∧ w.target = r.size ∧
      w.busyTill = some (s.cycle + 16384 * (r.size - v.store) + 600) ∧
      ∀ a, atticAt die vault v.store ≤ a → a < atticAt die vault r.size → t.byteAt a = { v := 0 })) ∧
    (r.size < v.store →
      (∀ l ∈ heldLines s (lineOf (atticAt die vault r.size)) (lineOf (atticAt die vault r.size + (v.store - r.size) * 0x100000)), lineBusy s l = false) →
      starts (fun _ w => w.store = r.size ∧ w.target = r.size ∧ w.busyTill = some (s.cycle + 600)))) ∧
  (∀ (s : State) (die vault n : Nat), die < 4 → vault < 24 → ((s.die die).vault vault).busyTill = some n → n ≤ s.cycle →
    ∃ t, exec (.vaultSplitEnd die vault) s = .next t ∧ ((t.die die).vault vault).store = ((s.die die).vault vault).target ∧
      ((t.die die).vault vault).busyTill = none)

/-- R181, R183, R369, R370, R409, R412, R413: a frozen unit whose commands stand at their boundaries is saved to its context slot and holds nothing of its pair; a restore
puts it back with every register of its data slice, its queues and its PCs as they were, and issues again the commands that the save stopped, and after a trap those
that had halted or were held, from where they stood; a resident that has waited for WDOG microseconds traps WATCHDOG. -/
def Obligations.ContextsMoveAndWatch : Prop :=
  (∀ (s t : State) (u : UnitSt) (p k : Nat), s.units.find? (fun u => u.place == .trapped p k || u.place == .saving p k) = some u →
    let s1 := (stopForSave s u.key).abandonMatrix u.key p
    cmdsDrained s1 u.key = true → amoOut s1 u.key = false → saveUnit s1 u = some t →
    exec (.contextSave p k) s = .next t ∧ ∃ v, t.findUnit u.key = some v ∧ v.place = .saved) ∧
  (∀ (s s1 s2 s3 s4 t : State) (u : UnitSt) (p k base : Nat) (q tags lines bs : List Byte),
    s.units.find? (fun u => u.place == .restoring p k) = some u → s.findUnit u.key = some u → slotBase s u = some base →
    (∀ g < 4, u.ctx.ctl.unacked.toArray.getD g 0 = 0) →
    let cls := u.launch.cls
    readPart s cls 0 base 8 = .ok s1 q → readPart s1 cls 0 (base + 0x580) (64 + u.launch.tiles) = .ok s2 tags →
    readPart s2 cls 0 (base + 0x8000) (u.regionBytes / 512) = .ok s3 lines →
    (∀ s5 rest, imageOk u q tags lines = true → blockFree s u p = true →
      readParts s3 cls 0 ((imageRuns u).map (fun r => (base + r.1, r.2))) = .ok s5 rest → readPart s5 cls 0 (base + 0x40000) u.regionBytes = .ok s4 bs →
      resumeUnit s4 u p k bs = .ok t () →
      exec (.contextRestore p k) s = .next t ∧ ∃ v, t.findUnit u.key = some v ∧ v.place = .placed p k ∧ v.ctx.dat = u.ctx.dat ∧
        v.ctx.ctl.c = u.ctx.ctl.c ∧ v.ctx.ctl.pc = u.ctx.ctl.pc ∧ v.ctx.chute = u.ctx.chute ∧ v.ctx.dw = u.ctx.dw ∧ v.ctx.tiles = u.ctx.tiles ∧
        (u.resumed = true → ∀ i, (v.counter i).f = false) ∧
        ((s.cmds.map Cmd.id).Nodup → ∀ c ∈ s.unitCmds u.key, c.status = .stopped ∨ (u.resumed = true ∧ c.stuck = true) →
          ∃ d, t.cmd c.id = some d ∧ d.status = .issued ∧ d.next = c.next ∧ d.pair = p ∧
            ∀ e, e ∈ d.todo ↔ e ∈ c.todo ∨ (e < c.count ∧ ∃ x ∈ c.failed, x.1 = e))) ∧
    (imageOk u q tags lines = false → ∃ t v, exec (.contextRestore p k) s = .next t ∧ t.findUnit u.key = some v ∧ v.place = .saved)) ∧
  (∀ (s : State) (u : UnitSt) (j : Job) (p k : Nat), s.resident p k = some u → s.findUnit u.key = some u → s.job u.key.job = some j → j.wdog ≠ 0 →
    u.ctx.lastDone + usTicks j.wdog ≤ s.cycle → unitWaits s u = true → (u.ctx.ctl.done = false ∨ u.ctx.dat.done = false) →
    ∃ t v, exec (.unitWatchdog p k) s = .next t ∧ t.findUnit u.key = some v ∧ v.place = .trapped p k ∧ v.ctx = u.ctx ∧
      v.trap.map Trap.code = some 0x21 ∧ v.trap.map Trap.src = some (if u.ctx.dat.done then 0 else 1) ∧
      v.trap.map Trap.pc = some (if u.ctx.dat.done then u.ctx.ctl.pc else u.ctx.dat.pc))

/-- R38, R39, R90, R92: an invalidation command acts once: no TLB holds an entry that it names, no walk cache one of
its job, no instruction cache a line of it; a TLB command is done once no access that a removed entry translated is left, an instruction-cache command at once. -/
def Obligations.InvalidationsEmptyTheCaches : Prop :=
  (∀ (s : State) (die kind : Nat) (i : Instr) (r : CmdRun), die < 4 →
    ((kind = 0 ∧ i = .tlbInvalidateAll die) ∨ (kind = 1 ∧ i = .tlbInvalidateJob die) ∨ (kind = 2 ∧ i = .tlbInvalidateRange die)) →
    (s.die die).tiv.run = some r → r.kind = kind → r.acted = false →
    ∃ t, exec i s = .next t ∧ (∀ p ∈ t.pairs, ∀ e ∈ p.tlb, r.covers e.job e.page e.pages = false) ∧
      (∀ d < 4, (∀ e ∈ (t.die d).l2tlb, r.covers e.job e.page e.pages = false) ∧ ∀ w ∈ (t.die d).walks, r.names w.job = false) ∧
      (t.die die).tiv.run = some { r with acted := true, mark := s.fresh, actedAt := s.cycle } ∧ SameMemory s t) ∧
  (∀ (s : State) (die : Nat) (r : CmdRun), die < 4 → (s.die die).tiv.run = some r → r.acted = true →
    (oldAccess s r = false → ∃ t, exec (.tlbInvalidateDone die) s = .next t ∧ (t.die die).tiv.run = none) ∧
    (oldAccess s r = true → exec (.tlbInvalidateDone die) s = .next s)) ∧
  (∀ (s : State) (die kind : Nat) (i : Instr) (r : CmdRun), die < 4 →
    ((kind = 0 ∧ i = .icacheInvalidateAll die) ∨ (kind = 1 ∧ i = .icacheInvalidateJob die)) →
    (s.die die).iciv.run = some r → r.kind = kind → r.acted = false →
    ∃ t, exec i s = .next t ∧ (∀ p ∈ t.pairs, ∀ l ∈ p.l1i, r.names l.job = false) ∧ (∀ d < 4, ∀ l ∈ (t.die d).l2i, r.names l.job = false) ∧
      (t.die die).iciv.run = some { r with acted := true } ∧ SameMemory s t) ∧
  (∀ (s : State) (die : Nat) (r : CmdRun), die < 4 → (s.die die).iciv.run = some r → r.acted = true →
    ∃ t, exec (.icacheInvalidateDone die) s = .next t ∧ (t.die die).iciv.run = none)

/-- R184, R224, R402, R403, R417, R477: JOBCMD activate makes the job of a valid block active at its decode address with the records of its spawn area; resume
lets a halted job and its faulting task run again, their stamps taken anew, and each of its units that trapped has TRAPCODE, TRAPPC, TRAPADDR and TRAPINFO of its own record and stands where it froze; cancel ends the
job; stop halts decode and issue, and is done once every unit is in memory. A command that names no job of the die is refused with ERR. Log row 70 (DEDUCED) is the
model's choice: every unit of the faulting task takes CYCLE at the resume, where R392 speaks of a saved one. So is row 46: the spawn area ends at its first zero record. -/
def Obligations.JobCommandsAct : Prop :=
  ∀ (s : State) (die : Nat) (r : CmdRun), die < 4 →
    (jobRun s die 0 = some r →
      (s.fw.ready = false ∨ (s.job r.job).isSome ∨ 16 ≤ (s.jobs.filter (fun j => j.die == die)).length ∨ isHbm (r.arg * 4096) = false →
        ∃ t, exec (.jobActivate die) s = .next t ∧ (t.die die).jobcmd.err = true ∧ t.jobs = s.jobs) ∧
      (∀ (s1 s2 s3 t : State) (b bs : List Byte), s.fw.ready = true → s.job r.job = none → (s.jobs.filter (fun j => j.die == die)).length < 16 →
        isHbm (r.arg * 4096) = true → r.job < 4096 → devRead s 3 (r.arg * 4096) 0x100 = some (s1, some b) →
        let gen := ((s.fw.keySlots.find? (fun k => k.1 == bits (quad b 0x40) 61 52)).map Prod.snd).getD 0
        let j := jobOfBlock r.job die (r.arg * 4096) gen b
        (∀ off, blockBad s1 j b = some off → refuseJob s1 j die tcBindFault off = some t →
          exec (.jobActivate die) s = .next t ∧ (t.die die).jobcmd.err = true ∧ t.job r.job = none) ∧
        (blockBad s1 j b = none → spawnPages { s1 with jobs := s1.jobs ++ [j] } j die = .good s2 →
          seqRead s2 { j.decodeRead with once := false } j.spawnArea 8192 = .ok s3 bs →
          startJob { s3 with jobs := s3.jobs.filter (fun x => x.id != r.job) } j bs = some t →
          ∃ t1, exec (.jobActivate die) s = .next t1 ∧ (t1.die die).jobcmd.err = false ∧
            t1.job r.job = some { j with spawn := spawnQueue bs, spread := nextCluster j.clusters 0, succ := j.pc }))) ∧
    (jobRun s die 1 = some r → ∀ (j : Job) (f : TaskFault), jobHere s die r = some j → j.status = .halted true → s.fw.fatal = false →
      j.fault = some f → f.reported = true →
      ∃ t, exec (.jobResume die) s = .next t ∧ t.job r.job = some { j with status := .running, fault := none } ∧ (t.die die).jobcmd.err = false ∧
        ∀ u ∈ t.units, u.key.job = j.id → u.key.tidx = f.tidx → u.trap = none ∧ u.stamp = s.cycle ∧
          ((s.units.map UnitSt.key).Nodup → ∀ (o : UnitSt) (x : Trap), o ∈ s.units → o.key = u.key → o.trap = some x →
            u.ctx.ctl.trapcode = x.code ∧ u.ctx.ctl.trappc = x.pc ∧ u.ctx.ctl.trapaddr = x.addr ∧ u.ctx.ctl.trapinfo = x.info ∧
            u.ctx.ctl.pc = o.ctx.ctl.pc ∧ u.ctx.ctl.c = o.ctx.ctl.c ∧ u.ctx.dat = o.ctx.dat ∧ u.place = o.place)) ∧
    (jobRun s die 2 = some r → ∀ (j : Job) (t1 : State), jobHere s die r = some j → cancelJob s j (2 ^ 64 - 1) = some t1 →
      ∃ t, exec (.jobCancel die) s = .next t ∧ t.job r.job = none ∧ (t.die die).jobcmd.err = false) ∧
    (jobRun s die 3 = some r → ∀ j : Job, jobHere s die r = some j →
      (j.status = .running → (s.units.map UnitSt.key).Nodup → ∃ t, exec (.jobStop die) s = .next t ∧ (t.job r.job).map Job.status = some .stopping ∧
        ∀ u ∈ t.units, ∀ x ∈ j.window, u.key.job = j.id → u.key.tidx = x.tidx → u.running = false) ∧
      (∀ t1 : State, j.status = .stopping → jobQuiet s j.id = true → finishStop s j = some t1 →
        ∃ t, exec (.jobStop die) s = .next t ∧ (t.die die).jobcmd.err = false ∧
          ∀ j2, t.job j.id = some j2 → j2.status = .halted (match j.fault with | some f => f.resumable | none => true))) ∧
    (∀ (k : Nat) (i : Instr), (k = 1 ∧ i = .jobResume die) ∨ (k = 2 ∧ i = .jobCancel die) ∨ (k = 3 ∧ i = .jobStop die) → jobRun s die k = some r →
      jobHere s die r = none → ∃ t, exec i s = .next t ∧ (t.die die).jobcmd.err = true ∧ t.jobs = s.jobs) ∧
    (∀ r2, (s.die die).jobcmd.run = some r2 → r2.acted = true → ∃ t, exec (.jobCommandDone die) s = .next t ∧ (t.die die).jobcmd.run = none)

/-- R7, R38, R82, R432, R436, R439: KEYCMD writes a fresh key into a slot or clears it, unless an active job names the slot or it is slot 0; PAIROFF takes the pairs that it
newly names out of placement, their residents frozen for a save; a write of a register sets its RW bits, GO starts its command, and a read-only register ignores it. Log row 109
(DEDUCED) is the model's choice of how R432 binds KEYCMD: one waits while no lease stands, and one whose epoch has passed is refused. What a register answers before
READY is that of row 105, and no clause rests on it. -/
def Obligations.KeysAndRegisters : Prop :=
  (∀ (s : State) (r : CmdRun), s.fw.keycmd.run = some r → r.acted = false → s.fw.epoch ≠ 0 → s.cycle < s.fw.leaseTill →
    let free := s.fw.epoch ≤ r.page ∧ r.arg ≠ 0 ∧ ∀ j ∈ s.jobs, j.key ≠ r.arg
    let acts (i : Instr) (P : Firmware → Prop) : Prop := ∃ t, exec i s = .next t ∧ t = { s with fw := t.fw } ∧
      t.fw.keycmd.run = some { r with acted := true } ∧ P t.fw
    (r.kind = 0 → free → acts .keyGenerate (fun f => f.keycmd.err = false ∧ f.keyCount = s.fw.keyCount + 1 ∧
      f.keySlots.find? (fun k => k.1 == r.arg) = some (r.arg, s.fw.keyCount + 1) ∧ ∀ k ∈ s.fw.keySlots, k.1 ≠ r.arg → k ∈ f.keySlots)) ∧
    (r.kind = 1 → free → acts .keyClear (fun f => f.keycmd.err = false ∧ f.keySlots = s.fw.keySlots.filter (fun k => k.1 != r.arg))) ∧
    (r.kind = 0 → ¬ free → acts .keyGenerate (fun f => f.keycmd.err = true ∧ f.keySlots = s.fw.keySlots)) ∧
    (r.kind = 1 → ¬ free → acts .keyClear (fun f => f.keycmd.err = true ∧ f.keySlots = s.fw.keySlots))) ∧
  (∀ (s : State) (r : CmdRun), s.fw.keycmd.run = some r → r.acted = true →
    ∃ t, exec .keyCommandDone s = .next t ∧ t.fw.keycmd.run = none ∧ t.fw.keySlots = s.fw.keySlots) ∧
  (∀ (s : State) (die reg : Nat) (v : Word), die < 4 → (s.units.map UnitSt.key).Nodup →
    ∃ t, exec (.pairoffWrite die reg v) s = .next t ∧
      (t.die die).pairoff = (if reg = 0 then (s.die die).pairoff.extractLsb' 64 32 ++ v else v.extractLsb' 0 32 ++ (s.die die).pairoff.extractLsb' 0 64) ∧
      ∀ u ∈ t.units, u.running = true → dieOf u.pair = die → (t.die die).pairoff.getLsbD (u.pair % 96) = true →
        (s.die die).pairoff.getLsbD (u.pair % 96) = true) ∧
  (∀ (s : State) (addr d off : Nat) (v : Word), place52 addr = .mmio d off → d < 4 →
    let writes (P : State → Prop) : Prop := ∃ t, exec (.registerWrite addr v) s = .next t ∧ P t
    (off = 0x100000 → writes (fun t => (t.die d).tivaddr = BitVec.ofNat 64 (bits v.toNat 56 12 * 4096))) ∧
    (off = 0x300100 → writes (fun t => (t.die d).waypart = v)) ∧
    (off = 0x400008 → writes (fun t => (t.die d).jcba = bits v.toNat 51 12)) ∧
    (off = 0x400000 → v.getLsbD 63 = true → (s.die d).jobcmd.run = none → writes (fun t => (t.die d).jobcmd.run =
      some { kind := bits v.toNat 59 58, job := bits v.toNat 57 46, arg := (s.die d).jcba, page := 0 } ∧ (t.die d).jobcmd.err = false)) ∧
    (∀ r, off = 0x100008 → v.getLsbD 63 = true → (s.die d).tiv.run = some r → r.kind ≠ 2 ∨ r.arg ≠ 0 →
      writes (fun t => (t.die d).tiv.run = some r ∧ (t.die d).tiv.ovr = true)) ∧
    (off = 0x100008 → v.getLsbD 63 = true → (s.die d).tiv.run = none → bits v.toNat 59 58 = 2 → bits v.toNat 31 0 = 0 →
      writes (fun t => (t.die d).tiv.run = none)) ∧
    (off = 0x100010 ∨ off = 0x600000 ∨ off = 0x700000 ∨ off = 0x700020 → writes (fun t => t = s)))

/-- R361, R365, R374, R376, R377: a command starts once those before it in its queue have started and there is room, a picker with its index vector; a sector that
is checked and read without a fault sets out as landings; a landing in a pantry writes exactly its bytes; a gather's row is read once and goes to every element that names
it; a finished command completes, and the task of an engine command without a later run loses its launch count.

R366, R367, R370, R376, R379: a fault of a sector halts its command at that sector, with none of its bytes on their way: the record names the code, the address and
the sector's first element, F is set, the lines that it was to write and that are empty go poisoned, and the later commands of its unit in the queue are held. A landing
that fails halts its command with its bytes still to write. A faulting row leaves its elements to be written while the others go on; when all have been attempted the
command halts with GATHER_FAULT and the record of its lowest faulting element, which are then the pending ones. A save stops a command at its boundary as it stands.

R378, R382, R383: SCATA adds to a row, in one step, the source rows of the elements that name it, in their order, word by word; STAIR writes
the sum, rounded once, of the weights of the taps in use times the source elements under them, after the boundary rule. -/
def Obligations.EngineCommandsPerform : Prop :=
  ((∀ (s : State) (id : Nat) (c : Cmd), s.cmd id = some c → c.status = .issued → c.live s = true → c.replayed s = true →
    (∀ e ∈ earlierCmds s c, e.inFlight = true → e.status ≠ .issued) → ((earlierCmds s c).filter Cmd.inFlight).length < queueCap c.queue →
    behindStuck s c = false →
    let starts (x : Cmd) : Prop := ∃ t, exec (.engineCommandStart id) s = .next t ∧ t.cmd id = some x
    ((∃ n, c.kind = .cpyLin n) ∨ (∃ sh, c.kind = .cpyShp sh) ∨ (∃ b st z x, c.kind = .fill b st z x) →
      starts { c with status := .running, got := [], bad := [] }) ∧
    (∀ st n row ioff rep bmp t bs, c.kind = .gath st n row ioff rep bmp → pickerOutside s c = none → queueHolds s c [⟨ioff, 4 * n, none⟩] [] = false →
      engRead s c ioff (4 * n) = .ok t bs → starts { c with status := .running, got := [], bad := [], idx := words32 bs }) ∧
    (∀ r table t bs, c.kind = .stair r table → queueHolds s c [⟨table, 8 * r.entries, none⟩] [] = false →
      engRead s c table (8 * r.entries) = .ok t bs → (∀ x ∈ words64 bs, tapBad r.dims x = false) →
      starts { c with status := .running, got := [], bad := [], taps := words64 bs })) ∧
  (∀ (s s1 t1 : State) (id : Nat) (c : Cmd) (ws : List ByteW), s.cmd id = some c → c.status = .running → c.live s = true → c.stale = false →
    c.isPicker = false → c.landings = [] → c.sent = [] → c.next < c.count → behindStuck s c = false →
    let m := c.sectorLen
    haltHolds s c (sectorSpots c m).2 = false → queueHolds s c (sectorSpots c m).1 (sectorSpots c m).2 = false → sectorWrites s c m = .ok s1 ws →
    (∀ d, setOut s1 c m ws = .ok t1 d → ∃ t, exec (.engineSector id) s = .next t ∧ t.cmd id = some d ∧ d.sect = c.next ∧ d.next = c.next + m) ∧
    (∀ ls, c.kept = [] → placeLandings c (landingsOf ws) s1 = .ok t1 ls →
      (∀ w ∈ ws, keeps { c with sect := c.next, next := c.next + m }.nextSpots w = false) →
      ∃ t, exec (.engineSector id) s = .next t ∧
        t.cmd id = some { c with sect := c.next, next := c.next + m, landings := ls, before := [], begun := false, owed := 0, got := [], bad := [] })) ∧
  (∀ (s : State) (id k q o : Nat) (c : Cmd) (l : Landing), s.memWf = true → s.cmd id = some c → c.status = .running → c.stale = false →
    doomed s c = none → c.landings[k]? = some l → place52 l.pa = .pantry q o → l.full = true → l.mask.length = l.data.length → s.partPoison l.pa l.data.length = false →
    ∃ t, exec (.engineBytesLand id k) s = .next t ∧ (∀ i < l.data.length, (t.byteAt (l.pa + i)).v = l.data.getD i 0) ∧
      (∀ a, ¬ (l.pa ≤ a ∧ a < l.pa + l.data.length) → t.byteAt a = s.byteAt a) ∧
      ∀ c2, t.cmd id = some c2 → c2.landings = dropIdx c.landings k) ∧
  (∀ (s s1 s2 : State) (id k : Nat) (c d : Cmd) (st : Int) (n row ioff bmp a : Nat) (rep : Bool) (bs : List Byte), s.cmd id = some c →
    c.status = .running → c.live s = true → c.stale = false → behindStuck s c = false → c.kind = .gath st n row ioff rep bmp → c.rows[k]? = some a →
    let els := c.todo.filter (fun e => c.rowAddr e == a)
    c.failed = [] → queueHolds s c [⟨a, row, none⟩] (els.map c.dstSpot) = false → haltHolds s c (els.map c.dstSpot) = false → a % 4 = 0 →
    engRead s c a row = .ok s1 bs → gathDests bs els s1 c = .ok s2 (d, []) → d.kept = [] →
    ∃ t c2, exec (.pickerRowAccess id k) s = .next t ∧ t.cmd id = some c2 ∧ c2.landings = d.landings ∧ c2.todo = d.todo) ∧
  (∀ (s : State) (id : Nat) (c : Cmd), s.cmd id = some c → c.status = .running → c.finished = true →
    (∀ e ∈ earlierCmds s c, e.inFlight = false) →
    (c.task = false → ∃ t, exec (.engineCommandComplete id) s = .next t ∧ t = { s with cmds := t.cmds } ∧ t.cmd id = none) ∧
    (∀ x, c.task = true → c.left = 0 → s.taskOf c.unit.job c.unit.tidx = some x →
      ∃ t, exec (.engineCommandComplete id) s = .next t ∧ t.cmd id = none ∧
        t.taskOf c.unit.job c.unit.tidx = some { x with launchCtr := x.launchCtr - 1 }))) ∧
  ((∀ (s t : State) (id code addr info : Nat) (c : Cmd), s.cmd id = some c → c.status = .running → c.live s = true → c.stale = false → c.isPicker = false →
    c.task = false → c.landings = [] → c.sent = [] → c.kept = [] → c.next < c.count → behindStuck s c = false → (s.cmds.map Cmd.id).Nodup →
    let m := c.sectorLen
    haltHolds s c (sectorSpots c m).2 = false → queueHolds s c (sectorSpots c m).1 (sectorSpots c m).2 = false →
    (sectorWrites s c m).bind (fun t ws => setOut t c m ws) = .fault t code addr info →
    ∃ t1 d, exec (.engineSector id) s = .next t1 ∧ t1.cmd id = some d ∧ d.status = .halted ⟨code, addr, c.ebase + c.next, info, code⟩ ∧
      d.landings = [] ∧ d.next = c.next ∧ SameMemory t t1 ∧
      (∀ x ∈ laterOwn s c, x.inFlight = true → x.atBoundary = true → x.finished = false → (t1.cmd x.id).map Cmd.status = some .held) ∧
      ∀ u, t.findUnit c.unit = some u → ∃ v, t1.findUnit c.unit = some v ∧
        (∀ k, c.ctr = some k → k < u.ctx.counters.length → (v.counter k).f = true ∧ (v.counter k).v = (u.counter k).v) ∧
        ∀ l ∈ c.restLines u.regionBytes, l ∉ c.touched → u.lineState l = 1 → v.lineState l = 2) ∧
  (∀ (s : State) (id k q o : Nat) (c : Cmd) (l : Landing), s.cmd id = some c → c.status = .running → c.stale = false → c.isPicker = false →
    doomed s c = none → c.landings[k]? = some l → place52 l.pa = .pantry q o → l.full = true → s.partPoison l.pa l.data.length = true →
    (s.cmds.map Cmd.id).Nodup →
    ∃ t d, exec (.engineBytesLand id k) s = .next t ∧ SameMemory s t ∧ t.cmd id = some d ∧
      d.status = .halted ⟨tcEccData, l.va, c.ebase + c.sect, 0, tcEccData⟩ ∧ l ∈ d.landings) ∧
  (∀ (s : State) (id k : Nat) (c : Cmd) (st : Int) (n row ioff bmp a : Nat), s.cmd id = some c → c.status = .running → c.live s = true → c.stale = false →
    behindStuck s c = false → c.kind = .gath st n row ioff false bmp → c.rows[k]? = some a → c.kept = [] →
    let els := c.todo.filter (fun e => c.rowAddr e == a)
    let left := c.todo.filter (fun e => c.rowAddr e != a)
    queueHolds s c [⟨a, row, none⟩] (els.map c.dstSpot) = false → haltHolds s c (els.map c.dstSpot) = false → a % 4 ≠ 0 → left ≠ [] →
    ∃ t d, exec (.pickerRowAccess id k) s = .next t ∧ SameMemory s t ∧ t.cmd id = some d ∧ d.status = .running ∧ d.todo = left ∧ d.landings = c.landings ∧
      d.failed = c.failed ++ els.map (fun e => (e, tcMisalign, a, 0))) ∧
  (∀ (s : State) (id e code addr info : Nat) (c : Cmd), s.cmd id = some c → c.status = .running → c.live s = true → c.stale = false → c.isPicker = true →
    behindStuck s c = false → c.todo = [] → c.bitmap = false → c.landings = [] → c.sent = [] → c.kept = [] → (s.cmds.map Cmd.id).Nodup →
    (e, code, addr, info) ∈ c.failed → (c.failed.map Prod.fst).Nodup → (∀ x ∈ c.failed, e ≤ x.1 ∧ x.1 < c.count) →
    ∃ t d, exec (.engineSector id) s = .next t ∧ SameMemory s t ∧ t.cmd id = some d ∧
      d.status = .halted ⟨tcGatherFault, addr, c.ebase + e, info, code⟩ ∧ ∀ x, x ∈ d.todo ↔ x ∈ c.failed.map Prod.fst) ∧
  (∀ (s : State) (u : UnitSt) (p k : Nat) (c : Cmd), s.units.find? (fun u => u.place == .trapped p k || u.place == .saving p k) = some u →
    c ∈ s.unitCmds u.key → (s.cmds.map Cmd.id).Nodup → c.inFlight = true → c.atBoundary = true →
    ∃ t d, exec (.contextSave p k) s = .next t ∧ t.cmd c.id = some d ∧ d.status = .stopped ∧ d.next = c.next ∧ d.todo = c.todo ∧ d.failed = c.failed)) ∧
  ((∀ (s t1 t2 t3 t4 t5 : State) (id k : Nat) (c : Cmd) (st : Int) (n row ioff fmt a : Nat) (ps : List (Nat × Nat × EngPlace)) (m : List Byte) (xs : List (List Byte)),
    s.memWf = true → (∀ d < 4, ∀ v ∈ (s.die d).vlines, v.data.length = 128) → s.cmd id = some c → c.status = .running → c.live s = true → c.stale = false →
    behindStuck s c = false → c.kind = .scata st n row ioff fmt → c.rows[k]? = some a → a % 4 = 0 → row % 4 = 0 → c.kept = [] → c.failed = [] →
    let els := sortBy (fun x y => decide (x < y)) (c.todo.filter (fun e => c.rowAddr e == a))
    queueHolds s c (els.map (fun e => ⟨c.srcRow row e, row, none⟩)) [⟨a, row, none⟩] = false → haltHolds s c [⟨a, row, none⟩] = false →
    rowPieces c .engAtomic (linePieces a row) s = .ok t1 ps →
    (∀ p ∈ ps, match place52 p.2.2.pa with | .pantry _ _ | .hbm | .attic _ _ _ => True | _ => False) →
    ps.Pairwise (fun p q => overlap p.2.2.pa p.2.1 q.2.2.pa q.2.1 = false) →
    engReadPieces c (linePieces a row) t1 = .ok t2 m → scataRows c row els t2 = .ok t3 (xs, []) → xs ≠ [] →
    m.length = row → (∀ x ∈ xs, x.length = row) → quietRow ps t3 = some t4 → rowPoisoned t4 ps = false →
    let fadd (f x y : Nat) : Nat := (roundTo (exactSum [decodeVal x f, decodeVal y f] 0).1 f 0 false).1
    let add (x y : Nat) : Nat := if fmt = 0 then fadd 1 x y else if fmt = 1 then (x + y) % 2 ^ 32
      else fadd 4 (x % 2 ^ 16) (y % 2 ^ 16) + 2 ^ 16 * fadd 4 (x / 2 ^ 16) (y / 2 ^ 16)
    let word (i : Nat) : Nat := xs.foldl (fun v x => add v (leNat (sliceOf x (4 * i) 4))) (leNat (sliceOf m (4 * i) 4))
    writeRow c a (xs.foldl (addRow fmt) m) ps t4 = some t5 →
    ∃ t, exec (.pickerRowAccess id k) s = .next t ∧ (∃ d, t.cmd id = some d ∧ d.todo = c.todo.filter (fun e => c.rowAddr e != a)) ∧
      ∀ p ∈ ps, (match place52 p.2.2.pa with | .pantry _ _ => (t.bytesAt p.2.2.pa p.2.1).map TByte.v | _ => homeSeen t c.key p.2.2.pa p.2.1) =
        (List.range p.2.1).map (fun i => BitVec.ofNat 8 (word ((p.1 - a + i) / 4) / 256 ^ ((p.1 - a + i) % 4)))) ∧
  (∀ (s : State) (u : UnitSt) (c : Cmd) (r : StairRec) (table : Nat), s.findUnit c.unit = some u → c.task = false → c.kind = .stair r table → c.kept = [] →
    u.regionBytes ≤ 0x100000 →
    let m := c.sectorLen
    let dst (e : Nat) : Nat := wrap64 (c.dst + interleave r.dims (r.coords e) 21 * elemBytes r.dfmt)
    let cls (e : Nat) : Nat := if r.prolong then ((List.range r.dims).map (fun k => (r.coords e).getD k 0 % 2 * 2 ^ k)).sum else 0
    let base (e k : Nat) : Nat := if r.prolong then (r.coords e).getD k 0 / 2 else 2 * (r.coords e).getD k 0
    let bound (n : Nat) (x : Int) : Option Nat := if 0 ≤ x ∧ x < n then some x.toNat else if r.bnd = 0 then none
      else if r.bnd = 1 then some (if x < 0 then 0 else n - 1) else some (x % n).toNat
    let used (e : Nat) : List (BitVec 64 × List Nat) := ((c.taps.drop (cls e * r.ntap)).take r.ntap).filterMap (fun t =>
      if t.getLsbD 24 then ((List.range r.dims).mapM (fun k => bound (r.srcExt.getD k 1) ((base e k : Nat) + (t.extractLsb' (8 * k) 8).toInt))).map (fun p => (t, p)) else none)
    let at_ (p : List Nat) : Nat := wrap64 (c.src + interleave r.dims p 21 * elemBytes r.sfmt)
    let value (e : Nat) : Nat := (roundTo (exactSum ((used e).map (fun t => (exactMul (decodeVal (t.1.toNat / 2 ^ 32) 1)
      (decodeVal (leNat ((s.bytesAt (u.pantryPa (at_ t.2 - localWindow)) (elemBytes r.sfmt)).map TByte.v)) r.sfmt)).1)) 0).1 r.dfmt 0 false).1
    (∀ e < m, (r.coords (c.next + e)).length = r.dims ∧ ∀ t ∈ used (c.next + e), localWindow ≤ at_ t.2 ∧ at_ t.2 + elemBytes r.sfmt ≤ localWindow + u.regionBytes ∧
      s.poisoned (u.pantryPa (at_ t.2 - localWindow)) (elemBytes r.sfmt) = false ∧
      ∀ i < elemBytes r.sfmt, ∃ q o, place52 (u.pantryPa (at_ t.2 - localWindow) + i) = .pantry q o) →
    (∀ e < m, ∀ x < m, e ≠ x → overlap (dst (c.next + e)) (elemBytes r.dfmt) (dst (c.next + x)) (elemBytes r.dfmt) = false) →
    ∃ ws, sectorWrites s c m = .ok s ws ∧ ∀ e < m, ∀ i < elemBytes r.dfmt, ∃ w ∈ ws,
      w.addr = dst (c.next + e) + i ∧ w.val = value (c.next + e) / 256 ^ i % 256 ∧ w.mask = 255))

/-- R7, R422, R424: a host read of a register, or of memory through a BAR, is answered with its bytes, and with UR where nothing answers; a posted write performs at
its home or is dropped and logged; an AtomicOp answers the old value and performs its operation. -/
def Obligations.HostRequestsAreServed : Prop :=
  ∀ (s : State) (a : BarAddr),
    let replies (i : Instr) (t1 : State) (tag : Nat) (st : PcieStatus) (bs : List Byte) : Prop :=
      exec i s = .next { t1 with out := .completion a.port tag st bs :: t1.out }
    (∀ (size tag : Nat),
      (∀ d off v, hostAt s a size { kind := .load } = .reg d off → regRead s d off = some v → replies (.hostRead a size tag) s tag .ok (leBytes 8 v)) ∧
      (hostAt s a size { kind := .load } = .bad → replies (.hostRead a size tag) s tag .ur []) ∧
      (∀ t t1 pa key bs, hostAt s a size { kind := .load } = .mem t [(pa, size)] key → runAt pa = .own →
        cohReadN (some 3) (pieces size) t pa size = some (t1, bs) →
        (rangePoisoned t1 pa size = false → replies (.hostRead a size tag) t1 tag .ok (homeSeenN key (pieces size) t1 pa size)) ∧
        (rangePoisoned t1 pa size = true → replies (.hostRead a size tag) t1 tag .poisoned [])) ∧
      (∀ t t1 runs key bad bs, hostAt s a size { kind := .load } = .mem t runs key → runs ≠ [] → (∀ r ∈ runs, runAt r.1 = .own) →
        readRuns key runs t = some (t1, bad, bs) →
        replies (.hostRead a size tag) t1 tag (if bad then .poisoned else .ok) (if bad then [] else bs))) ∧
    (∀ (data : List Byte), data ≠ [] →
      (postedOut s a.port = true → exec (.hostWrite a data) s = .next s) ∧
      (postedOut s a.port = false →
      (∀ d off t, hostAt s a data.length { kind := .store } = .reg d off → regWrite s d off (BitVec.ofNat 64 (leNat data)) = some t →
        exec (.hostWrite a data) s = .next t) ∧
      (hostAt s a data.length { kind := .store } = .bad → exec (.hostWrite a data) s = .next { s with aer := (a.port, a.off) :: s.aer }) ∧
      (∀ t t1 pa key ok, hostAt s a data.length { kind := .store } = .mem t [(pa, data.length)] key → runAt pa = .own →
        cohWriteN (pieces data.length) t pa (sealList key pa data) = some (t1, ok) →
        exec (.hostWrite a data) s = .next (if ok then t1 else { s with aer := (a.port, a.off) :: s.aer })) ∧
      (∀ t t1 runs key ok, hostAt s a data.length { kind := .store } = .mem t runs key → (∀ r ∈ runs, runAt r.1 = .own) →
        writeRuns key data runs t = some (t1, ok) →
        exec (.hostWrite a data) s = .next (if ok then t1 else { s with aer := (a.port, a.off) :: s.aer })))) ∧
    (∀ (kind : AtomicKind) (size operand compare tag : Nat), (size = 4 ∨ size = 8 ∨ (kind = .cas ∧ size = 16)) → a.bar ≠ 0 →
      let op := hostOp kind size operand compare
      (a.off % size ≠ 0 → replies (.hostAtomicop a kind size operand compare tag) s tag .ca []) ∧
      (a.off % size = 0 → hostAt s a size { kind := .atomic, size := size, aop := some op.op } = .bad → replies (.hostAtomicop a kind size operand compare tag) s tag .ur []) ∧
      (∀ t t1 t2 pa n runs key old ok, a.off % size = 0 → hostAt s a size { kind := .atomic, size := size, aop := some op.op } = .mem t ((pa, n) :: runs) key →
        runAt pa = .own → cohRead t (some 3) pa size = some (t1, old) → homePoisoned t1 pa size = false →
        let m := leNat (homeSeen t1 key pa size)
        let new := match kind with
          | .fetchAdd => (m + operand) % 2 ^ (8 * size)
          | .swap => operand % 2 ^ (8 * size)
          | .cas => if m = compare % 2 ^ (8 * size) then operand % 2 ^ (8 * size) else m
        operand < 2 ^ (8 * size) → compare < 2 ^ (8 * size) → cohWrite t1 pa (sealList key pa (leBytes size new)) = some (t2, ok) →
        replies (.hostAtomicop a kind size operand compare tag) t2 tag .ok (homeSeen t1 key pa size)))

/-- R19, R418, R420, R427, R428, R429: the end of a request that the device has made gives its bytes, or its failure, to what asked for it, once; a request that a peer makes is
served at its home, or answered as unbacked; links come up at the rates and widths of their ports, and a link or route that is lost ends what is outstanding on it. -/
def Obligations.LinksEndAndServeRequests : Prop :=
  (∀ (s : State) (port : Bool) (tag : Nat) (bs : List Byte) (w : Pending) (t1 : State), takeOutstanding s none port tag = some (w, t1) →
    askedSize s none port tag = bs.length →
    let idle := (s.port port).lock ≠ none ∨ (s.port port).lockq = []
    (overdue s port tag = false → exec (.completionTimeout port tag) s = .next s) ∧
    (∀ p n, w = .forward p n → exec (.hostCompletion port tag .ok bs) s = .next (retryLock { t1 with out := .completion p n .ok bs :: t1.out } port)) ∧
    (∀ id va lvl j, w = .decode id va lvl → s.job id = some j →
      (∃ t, exec (.hostCompletion port tag .ok bs) s = .next t ∧ (idle → t.outstanding = t1.outstanding) ∧ t.job id = some { j with got := j.got ++ [(va, bs)] }) ∧
      (∃ t, exec (.hostCompletion port tag .poisoned bs) s = .next t ∧ t.job id = some { j with bad := j.bad ++ [(va, 0x17, 0)] }) ∧
      (overdue s port tag = true → ∃ t, exec (.completionTimeout port tag) s = .next t ∧ (idle → t.outstanding = t1.outstanding) ∧
        (t.job id).map Job.bad = some (j.bad ++ [(va, 0x16, 11 + 16 * lvl)]))) ∧
    (∀ c va n lvl x, w = .engine c va n lvl → s.cmd c = some x →
      ∃ t, exec (.hostCompletion port tag .ok bs) s = .next t ∧ (idle → t.outstanding = t1.outstanding) ∧ t.cmd c = some { x with got := x.got ++ [((va, n), bs)] })) ∧
  (∀ (s : State) (port : Bool),
    (∃ t, exec (.pcieLinkDown port) s = .next t ∧ (t.port port).up = false) ∧
    (∀ gen width, (gen = 4 ∨ gen = 5 ∨ gen = 6) → (width = 4 ∨ width = 8 ∨ width = 16) → (port = true → s.p1.mode ≠ .disabled) →
      ∃ t, exec (.pcieLinkUp port gen width) s = .next t ∧ t.port port = { s.port port with up := true, gen := gen, lanes := width } ∧
        t.port (!port) = s.port (!port))) ∧
  (∀ (s : State) (peer tag off : Nat) (op : PeerOp) (pa n : Nat), n = (match op with | .load n => n | .store bs => bs.length | .amo _ n _ _ => n) →
    let replies (t1 : State) (st : PeerStatus) (bs : List Byte) : Prop :=
      exec (.peerRequest peer tag off op) s = .next { t1 with out := .peerReply peer tag st bs :: t1.out }
    (peerOffPa off = none → replies s .unbacked []) ∧
    (peerOffPa off = some pa → peerOffPa (off + n - 1) = some (pa + (n - 1)) → 0 < n → backed s pa = true → backed s (pa + (n - 1)) = true →
      ∀ t1 st bs, peerServe s pa n op = some (t1, st, bs) → replies t1 st bs)) ∧
  (∀ (s : State) (peer tag n : Nat) (up : Bool) (bs : List Byte) (t1 : State), takeOutstanding s (some peer) false tag = some (.forward up n, t1) →
    askedSize s (some peer) false tag = bs.length →
    exec (.peerResponse peer tag .ok bs) s = .next { t1 with out := .completion up n .ok bs :: t1.out } ∧
    exec (.peerResponse peer tag .ecc []) s = .next { t1 with out := .completion up n .poisoned [] :: t1.out }) ∧
  (∀ (s : State) (peer epoch : Nat),
    (∃ t, exec (.routeFailure peer) s = .next t ∧ peer ∉ t.fw.routes ∧ ∀ q, q ≠ peer → (q ∈ t.fw.routes ↔ q ∈ s.fw.routes)) ∧
    (s.fw.epoch ≤ epoch → ∃ t, exec (.routeInstall epoch peer) s = .next t ∧ peer ∈ t.fw.routes ∧ ∀ q, q ≠ peer → (q ∈ t.fw.routes ↔ q ∈ s.fw.routes)) ∧
    (epoch < s.fw.epoch → exec (.routeInstall epoch peer) s = .next s))

/-- R88, R419, R432, R434, R476: module reset leaves the dies live whose image and decode table verify under MINSVN, keeps HBM and the fuses and empties the attic; the leader renews its
lease and the lowest live die takes it when it lapses, raising EPOCH; heartbeats set and, 50 ms without one, clear LIVE; MINSVN rises only for a commit image on four dies. That every byte outside HBM,
so also of the pantries, is zero and in plaintext is the model's choice (assumption 3); so are the kept attic store of a die that does not boot and the count of boots (assumption 78,
DEDUCED), and how MINSVN is raised: by a command of the leader, refused without a lease, with an epoch that has passed, or without a commit image on four dies (assumption 110). -/
def Obligations.FirmwareControllers : Prop :=
  (∀ (s : State) (b : BootImage), s.memWf = true →
    let ok (d : Nat) : Bool := bootsDie s.fw b d
    let any := ok 0 || ok 1 || ok 2 || ok 3
    ∃ t, exec (.moduleReset b) s = .next t ∧ t.units = [] ∧ t.jobs = [] ∧ t.cmds = [] ∧ t.fw.minsvn = s.fw.minsvn ∧ t.fw.rootKeys = s.fw.rootKeys ∧
      t.fw.revoked = s.fw.revoked ∧ t.fw.boots = s.fw.boots + 1 ∧ (∀ d < 4, t.fw.live.getLsbD d = ok d) ∧
      t.fw.ready = (ok 0 && ok 1 && ok 2 && ok 3) ∧ t.fw.epoch = b2n any ∧ t.p1.mode = portMode (if any then b.p1mode else 0) ∧ t.poison = s.poison ∧
      (∀ pa, isHbm pa = true → t.byteAt pa = s.byteAt pa) ∧
      (∀ pa, isHbm pa = false → (∀ d v o, place52 pa = .attic d v o → ok d = true) → t.byteAt pa = { v := 0 }) ∧
      (∀ pa d v o, place52 pa = .attic d v o → ok d = false → t.byteAt pa = s.byteAt pa) ∧
      ∀ d < 4, ∀ v < 24, ((t.die d).vault v).store = 8) ∧
  (∀ (s : State) (die : Nat), die < 4 →
    let gives (i : Instr) (f : Firmware) : Prop := exec i s = .next { s with fw := f }
    (die = s.fw.leader → s.alive die = true → s.fw.epoch ≠ 0 → s.cycle < s.fw.leaseTill →
      gives (.leaseRenew die) { s.fw with leaseTill := s.cycle + 95000000 }) ∧
    (die ≠ s.fw.leader → exec (.leaseRenew die) s = .next s) ∧
    (s.fw.leaseTill ≤ s.cycle → s.alive die = true → (∀ k < die, s.alive k = false) →
      gives .leaseLapse { s.fw with leader := die, epoch := (s.fw.epoch + 1) % 2 ^ 32, leaseTill := s.cycle + 95000000 }) ∧
    (s.alive die = true ↔ s.fw.live.getLsbD die = true ∧ s.cycle < s.fw.beats.toArray.getD die 0 + 95000000) ∧
    (s.fw.booted.getLsbD die = true → ∃ t, exec (.heartbeatRenew die) s = .next t ∧ t.fw.beats.toArray.getD die 0 = s.cycle ∧
      ∀ k < 4, t.fw.live.getLsbD k = (decide (k = die) || s.fw.live.getLsbD k)) ∧
    (s.fw.live.getLsbD die = true → s.fw.beats.toArray.getD die 0 + 95000000 ≤ s.cycle → ∃ t, exec (.heartbeatLapse die) s = .next t ∧
      ∀ k < 4, t.fw.live.getLsbD k = (decide (k ≠ die) && s.fw.live.getLsbD k)) ∧
    (∀ e, s.fw.raise = some e → s.fw.epoch ≠ 0 → s.cycle < s.fw.leaseTill → s.fw.epoch ≤ e → s.fw.commit = true → s.fw.booted = 0xF →
      gives .minsvnRaise { s.fw with raise := none, minsvn := max s.fw.minsvn s.fw.imageSvn }) ∧
    (∀ e, s.fw.raise = some e → s.fw.commit = false ∨ s.fw.booted ≠ 0xF ∨ e < s.fw.epoch ∨ s.fw.epoch = 0 ∨ s.fw.leaseTill ≤ s.cycle → gives .minsvnRaise { s.fw with raise := none }) ∧
    (s.fw.raise = none → exec .minsvnRaise s = .next s))

/-- R425, R426, R432, R435: a leader command of an older epoch is refused and another sets the peer identifier or the IDE stream; the responder of a port answers SPDM 1.2,
negotiates SM2 and SM3 only, and establishes a session when the MAC of FINISH is right. The data of its answers are free values (assumption 7). -/
def Obligations.LeaderAndSpdmCommands : Prop :=
  (∀ (s : State) (port : Bool) (epoch id stream key : Nat), s.fw.epoch ≤ epoch →
    exec (.peeridAssign epoch id) s = .next { s with fw := { s.fw with peerValid := true, peerId := id % 256 } } ∧
    ∃ t, exec (.ideStreamConfigure port epoch stream key) s = .next t ∧ (stream, key) ∈ (t.port port).ide ∧ t.port (!port) = s.port (!port)) ∧
  (∀ (s : State) (port : Bool) (epoch id stream key : Nat), epoch < s.fw.epoch →
    exec (.peeridAssign epoch id) s = .next s ∧ exec (.ideStreamConfigure port epoch stream key) s = .next s) ∧
  (∀ (s : State) (port : Bool), (port = true → s.p1.mode = .upstream) →
    let answers (i : Instr) (step kind : Nat) (P : List Nat → Prop) : Prop :=
      ∃ t data, exec i s = .next t ∧ t.out = .spdm port kind data :: s.out ∧ (t.port port).spdm = step ∧ P data
    let now := (s.port port).spdm
    answers (.getVersion port) 1 0 (fun d => d = [0x12]) ∧ answers (.getCapabilities port) 2 1 (fun _ => True) ∧
    answers (.negotiateAlgorithms port true true) 3 2 (fun _ => True) ∧
    (∀ sm2 sm3, (sm2 && sm3) = false → answers (.negotiateAlgorithms port sm2 sm3) now 15 (fun _ => True)) ∧
    answers (.getDigests port) now 3 (fun d => d.length = 1) ∧ (∀ off len, answers (.getCertificate port off len) now 4 (fun d => d.length = len)) ∧
    (∀ nonce, answers (.challenge port nonce) now 5 (fun d => d = [(Config.signature s.fw.boots nonce).toNat])) ∧
    (∀ index, 1 ≤ index → index ≤ 4 → answers (.getMeasurements port index) now 6 (fun d => d = [(Config.measurement index (s.fw.measured.getD (index - 1) [])).toNat])) ∧
    (∀ index, index = 0 ∨ 4 < index → answers (.getMeasurements port index) now 15 (fun _ => True)) ∧
    (∀ share, answers (.keyExchange port share) 4 7 (fun d => d = [(Config.keyShare s.fw.boots share).toNat])) ∧
    (∀ mac, (now = 4 → Config.finishMacOk s.fw.boots (s.port port).share mac = true → answers (.finish port mac) 5 8 (fun _ => True)) ∧
      (now ≠ 4 → answers (.finish port mac) now 15 (fun _ => True))))

/-- R437, R438, R440, R441, R476: an uncorrectable error marks its unit of storage and is logged, the eighth corrected error of a frame is logged; a fatal error or the critical
temperature stops the pairs and starts the dump, whose end sets DUMPED and interrupts; THROT follows the throttle. -/
def Obligations.ReliabilitySteps : Prop :=
  (∀ (s : State) (pa : Nat),
    (place52 pa = .hbm → sectorHolds s (lineOf pa) = false → ∃ t, exec (.eccErrorDetected (.memory pa)) s = .next t ∧ pa / 64 * 64 ∈ t.poison ∧ t.ras = (pa / 64 * 64, 1) :: s.ras ∧
      ∀ a, t.byteAt a = s.byteAt a) ∧
    (∀ n, s.corrected.find? (fun x => x.1 == pa / 4096) = some (pa / 4096, n) →
      ∃ t, exec (.eccErrorDetected (.corrected pa)) s = .next t ∧ t.corrected.find? (fun x => x.1 == pa / 4096) = some (pa / 4096, n + 1) ∧
        t.ras = (if n = 7 then [(pa / 4096 * 4096, 2)] else []) ++ s.ras)) ∧
  (∀ (s : State) (u : UnitSt) (p k reg unit : Nat), s.units.find? (fun u => u.occupies == some (p, k)) = some u → reg < 64 → unit < 64 →
    ∃ t v, exec (.eccErrorDetected (.vreg p k reg unit)) s = .next t ∧ t.findUnit u.key = some v ∧
      (v.v (BitVec.ofNat 6 reg)).poison.getLsbD unit = true ∧ v.ctx.ctl = u.ctx.ctl) ∧
  (∀ (s : State),
    (∀ site, s.fw.fatal = false → s.fw.dumping = false → (∀ d, site ≠ .dieController d) → exec (.fatalError site) s =
      .next { s with fw := { s.fw with fatal := true, dumping := s.alive 0 || s.alive 1 || s.alive 2 || s.alive 3 } }) ∧
    (∀ d, d < 4 → s.fw.fatal = false → s.fw.dumping = false → ∃ t, exec (.fatalError (.dieController d)) s = .next t ∧ t.fw.fatal = true ∧
      t.fw.live.getLsbD d = false ∧ t.fw.dumping = (t.alive 0 || t.alive 1 || t.alive 2 || t.alive 3)) ∧
    (s.fw.fatal = false → s.fw.dumping = false → exec .criticalTemperature s = .next { s with fw := { s.fw with fatal := true, dumping := s.alive 0 || s.alive 1 || s.alive 2 || s.alive 3 } }) ∧
    (∀ whole, s.fw.dumping = true → ∃ t, exec (.dumpComplete whole) s = .next t ∧ t.fw.dumped = true ∧ t.fw.dumping = false ∧ t.fw.dumpWhole = whole ∧
      t.out = .interrupt 0 0 :: s.out) ∧
    (s.fw.dumping = true → ∀ site, (∀ d, site ≠ .dieController d) → ∃ t, exec (.fatalError site) s = .next t ∧ t.fw.dumped = true ∧ t.fw.dumpWhole = false) ∧
    exec .throttle s = .next { s with fw := { s.fw with throt := true } } ∧
    exec .throttleRelease s = .next { s with fw := { s.fw with throt := false } })

/-- Decode and encode agree: every instruction that stands in code or in a task stream and is well-formed is what the decoder of its format reads from the word that the encoder
gives it. -/
def Obligations.EncodeDecodeRoundTrip : Prop := ∀ i : Instr, i.encoded = true → i.wf = true → i.decodeBack = some i

/-- What the decoders accept is well-formed, and its word is the one word that encodes it: no reserved or unused bit is dropped; only ILLEGAL, whose major takes any bits (R235), has
many words. -/
def Obligations.DecodersAcceptOneWord : Prop :=
  (∀ (w : BitVec 32) (i : Instr), decodeC32 w = .ok i → i ≠ .illegal → i.wf = true ∧ encode i = some (32, w.toNat)) ∧
  (∀ (w : BitVec 64) (i : Instr), decodeCX w = .ok i → i.wf = true ∧ encode i = some (64, w.toNat)) ∧
  (∀ (w : BitVec 64) (i : Instr), decodeD64 w = .ok i → i.wf = true ∧ encode i = some (64, w.toNat)) ∧
  (∀ (w : BitVec 256) (i : Instr), decodeTask w = .ok i → i.wf = true ∧ encode i = some (256, w.toNat))

/-- Words written out from the encodings of R236, R238, R239 and R185 decode to the instructions they stand for, and reserved ones are refused with their cause. -/
def Obligations.WordsDecode : Prop :=
  decodeC32 0x02084180 = .ok (.add ⟨1, 2, 3⟩) ∧ decodeC32 0x04085FFF = .ok (.addi ⟨1, 2, 0x1FFF⟩) ∧
  decodeC32 0x20084405 = .ok (.bNe ⟨1, 2, 5⟩) ∧ decodeC32 0x220FFFFE = .ok (.jal ⟨1, 0x7FFFE⟩) ∧
  decodeC32 0x30085802 = .ok (.ld ⟨1, 2, 3, 2⟩) ∧ decodeC32 0x68000000 = .ok .exit ∧ decodeC32 0 = .ok .illegal ∧
  decodeCX 0x1408418000000007 = .ok (.amo ⟨1, 2, 3, 0, 0, 0, 0, 7⟩) ∧
  decodeD64 0x1004208000000000 = .ok (.vfadd ⟨1, 2, 2, 0, 0, false, 0, false, false, false, false, false, 0, 0⟩) ∧
  decodeTask (0x2F : BitVec 256) = .ok (.halt ⟨0, 0, 0, 0, 0, 0⟩) ∧
  decodeC32 0x026841FF = .error ⟨2, 0x7F⟩

/-- A step runs the decoded instruction: when the turn is a slice's or a sequencer's, and the word or record that it fetches decodes, the step is exec of it in the state after the
fetch; where the word is refused the slice traps ILLEGAL_OP with the cause and its value, and the record fails decode; a hardware step that is served runs as it is. That the head of a
schedule in the state says whose turn it is and how long it is in coming is the model's choice (assumption 4); so are the ECC_DATA trap of a poisoned source register, which R437 leaves to the
instruction that reads it, before any effect (assumption 36), and the unit that stays frozen in the clock of a trap of its other slice (frozenNow; assumption 107). -/
def Obligations.StepRunsTheDecodedInstruction : Prop :=
  ∀ (s : State) (dt : Nat) (turn : Turn) (rest : List (Nat × Turn)), s.schedule = (dt, turn) :: rest →
    let b := turnBegins s dt turn rest
    (∀ (p k n w : Nat) (u v : UnitSt) (t : State), turn = .ctl p k → b.runs = true → b.resident p k = some u → u.ctlRuns = true → u.ctx.ctl.replay = false →
      u.ctx.ctl.wait = .none ∨ u.ctx.ctl.wait = .release → frozenNow b p k false = none → fetchSlice b u false = .word t w n →
      ({ t with cur := .ctl p k } : State).resident p k = some v → v.ctlRuns = true →
      (∀ i, decodeControl n w = .ok i → poisonedSource v i = false → step s = exec i { t with cur := .ctl p k }) ∧
      (∀ i, decodeControl n w = .ok i → poisonedSource v i = true → step s = .next (State.trapC { t with cur := .ctl p k } v 0x17)) ∧
      (∀ e, decodeControl n w = .error e → step s = .next (State.trapC { t with cur := .ctl p k } v 0x01 0 (e.cause + 256 * (e.value % 256))))) ∧
    (∀ (p k n w : Nat) (u v : UnitSt) (t : State), turn = .dat p k → b.runs = true → b.resident p k = some u → u.datRuns = true → u.ctx.ctl.replay = false →
      u.ctx.dat.wait = .none → frozenNow b p k true = none → fetchSlice b u true = .word t w n → ({ t with cur := .dat p k } : State).resident p k = some v → v.datRuns = true →
      (∀ i, decodeD64 (BitVec.ofNat 64 w) = .ok i → poisonedMask v i = false → step s = exec i { t with cur := .dat p k }) ∧
      (∀ i, decodeD64 (BitVec.ofNat 64 w) = .ok i → poisonedMask v i = true →
        step s = .next (State.takeTrap { t with cur := .dat p k } v (datTrap v (matrixMajor w) 0x17))) ∧
      (∀ e, decodeD64 (BitVec.ofNat 64 w) = .error e →
        step s = .next (State.takeTrap { t with cur := .dat p k } v (datTrap v (matrixMajor w) 0x01 0 (e.cause + 256 * (e.value % 256)))))) ∧
    (∀ (id : Nat) (j : Job), turn = .sequencer id → b.runs = true → b.job id = some j → j.decodes = true →
      (∀ tidx w q i, j.spawn = (tidx, w) :: q → decodeTask w = .ok i → step s = exec i { b with cur := .sequencer id }) ∧
      (∀ t bs i, j.spawn = [] → seqRead b j.decodeRead j.pc 32 = .ok t bs → (t.job id).isSome = true → decodeTask (BitVec.ofNat 256 (leNat bs)) = .ok i →
        step s = exec i { t with cur := .sequencer id }) ∧
      (∀ t bs e j2, j.spawn = [] → seqRead b j.decodeRead j.pc 32 = .ok t bs → t.job id = some j2 → decodeTask (BitVec.ofNat 256 (leNat bs)) = .error e →
        step s = .next (decodeFault t j2 0x30 j2.recAddr 0))) ∧
    (turn = .idle → step s = .next b) ∧
    (∀ i, turn = .hw i → (∀ p k, waitStep i = some (p, k) → frozenNow b p k false = none) → (b.serves i = true → step s = exec i b) ∧ (b.serves i = false → step s = .next b))

/-- No step faults or is refused: from every state the machine goes on. It rests on R234, by
which a word that is no instruction traps, on R221, by which a trap ends in a report, and on R440, by which a fatal error stops the pairs and not the machine. -/
def Obligations.EveryStepGoesOn : Prop := ∀ s : State, GoesOn s

/-- Module reset leaves what R7, R22, R82, R397, R433 and R439 state: READY 0, every vault of 8 MiB of store with all its ways for each class, every command register idle, no pair off. The rest is
the model's choice where the spec gives no value: no unit, job, command or message and empty queues (assumption 2), links down, no peer identifier and cycle 0 (assumption 1), no key in any slot
(assumption 60), and memory with nothing listed (assumption 3). -/
def Obligations.ResetState : Prop :=
  State.reset.mem = [] ∧ State.reset.memWf = true ∧ State.reset.poison = [] ∧ State.reset.units = [] ∧ State.reset.jobs = [] ∧ State.reset.cmds = [] ∧
  State.reset.toHome = [] ∧ State.reset.toDie = [] ∧ State.reset.cycle = 0 ∧ State.reset.fw.ready = false ∧ State.reset.fw.keySlots = [] ∧
  State.reset.fw.peerValid = false ∧ State.reset.p0.up = false ∧ State.reset.p1.up = false ∧
  ∀ d < 4, (State.reset.die d).waypart = 0xFFFFFFFFFFFFFFFF ∧ (State.reset.die d).pairoff = 0 ∧ (State.reset.die d).tiv.run = none ∧ (State.reset.die d).iciv.run = none ∧
    (State.reset.die d).jobcmd.run = none ∧ (State.reset.die d).jobcmd.err = false ∧
    ∀ v < 24, ((State.reset.die d).vault v).store = 8 ∧ ((State.reset.die d).vault v).target = 8 ∧ ((State.reset.die d).vault v).busyTill = none

/-- The memory keeps its canonical form: addresses rise strictly and no entry equals what an unlisted address reads as, of the bytes and of their keys, after every step. The form is the model's own (assumption 3), for the bytes of the physical space of R15 and the
keys of R47; no rule asks for it. -/
def Obligations.StepsKeepTheMemoryForm : Prop := ∀ s t : State, s.memWf = true → step s = .next t → t.memWf = true

/-- The frame of the control instructions that work on registers alone: whatever the operands, if one goes on, memory, every other unit and everything outside the units and pairs stay as they
are, and of its own unit every register but the destination, the data slice, the queues, the counters, the tiles, the store buffer, the trap registers and, but for CSRW, FPMODE and FPFLAGS. -/
def Obligations.ControlFrame : Prop :=
  ∀ (i : Instr) (s t : State) (u : UnitSt), onlyRegisters i = true → CtlAt s u → exec i s = .next t →
    SameMemory s t ∧ SameOthers s t u ∧ t = { s with units := t.units, pairs := t.pairs } ∧
    ∃ v, t.findUnit u.key = some v ∧ (∀ k, destC i ≠ some k → v.c k = u.c k) ∧ v.ctx.dat = u.ctx.dat ∧ v.ctx.chute = u.ctx.chute ∧ v.ctx.dw = u.ctx.dw ∧
      v.ctx.counters = u.ctx.counters ∧ v.ctx.tiles = u.ctx.tiles ∧ v.ctx.ctl.sb = u.ctx.ctl.sb ∧ v.ctx.ctl.unacked = u.ctx.ctl.unacked ∧
      v.ctx.ctl.trapcode = u.ctx.ctl.trapcode ∧ v.ctx.ctl.trappc = u.ctx.ctl.trappc ∧ v.ctx.ctl.trapaddr = u.ctx.ctl.trapaddr ∧
      v.ctx.ctl.trapinfo = u.ctx.ctl.trapinfo ∧ ((∀ f, i ≠ .csrw f) → v.ctx.ctl.fpmode = u.ctx.ctl.fpmode ∧ v.ctx.ctl.fpflags = u.ctx.ctl.fpflags)

/-- The frame of the data instructions that store nothing: if one goes on, every byte of memory reads as before, but for what a read of full pantry lines
writes back as an acquire (R58, R111) and for the look-ahead fetch of DNOP, and of its own unit every control register, the PC of the control slice, FPMODE, the
trap registers and the store buffer stay; an element-wise one leaves every scalar register and every vector register but its destination, whose sources may lose their tags by a last-read mark. -/
def Obligations.DataFrame : Prop :=
  ∀ (i : Instr) (op : Nat) (f : D64) (s t : State) (u : UnitSt), i.enc = .d64 op f → op ∉ [0x51, 0x53, 0x54, 0x56, 0x62] → DatAt s u → exec i s = .next t →
    (op ∉ [0x50, 0x52, 0x63, 0x70, 0x71, 0x74, 0x75] → op ≠ 0x7A ∨ f.fn = 0 → ∀ a, t.byteAt a = s.byteAt a) ∧
    (op ≠ 0x7A → (∀ a, t.byteAt a = s.byteAt a) ∨ ∀ a, t.byteAt a = (mergeBack s u.pair u.key.job true).byteAt a) ∧
    ∃ v, t.findUnit u.key = some v ∧ v.ctx.ctl.c = u.ctx.ctl.c ∧ v.ctx.ctl.pc = u.ctx.ctl.pc ∧ v.ctx.ctl.fpmode = u.ctx.ctl.fpmode ∧
      v.ctx.ctl.trapcode = u.ctx.ctl.trapcode ∧ v.ctx.ctl.sb = u.ctx.ctl.sb ∧
      (op < 0x2E → op ≠ 0x18 → op ≠ 0x2C →
        v.ctx.dat.s = u.ctx.dat.s ∧ ∀ r : BitVec 6, r ≠ f.vd → v.v r = u.v r ∨ v.v r = lastRead u f r)

/-- R175, R181, R241, R267, R272, R437, R476: an element-wise instruction of two vector sources traps, in this order, ILLEGAL_OP with cause 5 for a register that its unit may not name, UNINIT or FORMAT for the tag
of va and then vb, FE_EMPTY for an empty source whose bit is set (it waits where no bit of an empty source is set), ECC_DATA for a poisoned one, and FP_TRAP where VFADD raises an enabled flag; a trap
changes no register. The order of the cause-5 registers (assumption 22), FE_EMPTY with ADDR and INFO 0 before any wait (assumption 23), and ECC_DATA with INFO 0 (assumption 32) are the model's choices. -/
def Obligations.DataInstructionsTrap : Prop :=
  ∀ (f : D64) (s : State) (u : UnitSt) (i : Instr), DatAt s u → f.sb = false → f.fmt = 0 →
    i ∈ [Instr.vfadd f, .vfsub f, .vfmul f, .vfdiv f, .vfmin f, .vfmax f] →
    let traps (code info : Nat) : Prop := exec i s = .next (s.takeTrap u (datTrap u false code 0 info))
    let ta := (u.v f.va).tag.toNat
    let tb := (u.v f.vb).tag.toNat
    let named := vregOk u f.va.toNat = true ∧ vregOk u f.vb.toNat = true ∧ vregOk u f.vd.toNat = true
    (vregOk u f.va.toNat = false → traps 0x01 (5 + 256 * f.va.toNat)) ∧
    (named → ta = 15 → traps 0x05 (16 * 15 + 256 * f.va.toNat)) ∧
    (named → ta ≠ 15 → ta ∉ [1, 2, 3, 4] → traps 0x06 (16 * ta + 256 * f.va.toNat)) ∧
    (named → ta ∈ [1, 2, 3, 4] → tb = 15 → traps 0x05 (1 + 16 * 15 + 256 * f.vb.toNat)) ∧
    (named → ta ∈ [1, 2, 3, 4] → tb ≠ 15 → tb ≠ ta → traps 0x06 (1 + 16 * tb + 256 * f.vb.toNat)) ∧
    (named → ta ∈ [1, 2, 3, 4] → tb = ta →
      ((u.v f.va).empty = true → f.fa = true → traps 0x07 0) ∧
      ((u.v f.va).empty = true → f.fa = false → ((u.v f.vb).empty = false ∨ f.fb = false) → exec i s = .next (s.waitD (u.modDat (fun d => { d with lanes := [] })) .register)) ∧
      ((u.v f.va).empty = false → (u.v f.vb).empty = false → (u.v f.va).poison ≠ 0 → traps 0x17 0) ∧
      (∀ e, i = .vfadd f → (u.v f.va).empty = false → (u.v f.vb).empty = false → (u.v f.va).poison = 0 → (u.v f.vb).poison = 0 → (u.v f.vd).poison = 0 →
        e < numElem ta → active e ta (effMask u f) = true →
        (let x := exactSum [decodeOp (fpFtz u) (elem (u.v f.va).val ta e) ta, decodeOp (fpFtz u) (elem (u.v f.vb).val ta e) ta] (fpRm u f)
         (x.2 ||| (roundTo x.1 ta (fpRm u f) (fpFtz u)).2) &&& (u.ctx.ctl.fpmode.toNat / 8 % 32)) ≠ 0 →
        ∃ info, traps 0x0C info))
end

