-- ==== Sys2Proof/Laws/State.lean ====
section
/-!
SUPPORT. What each update of the state leaves alone, one lemma per field, and what it gives in the field it changes; the same for a
unit's parts.
-/

namespace Sys2Proof.Machine

@[simp] theorem State.putUnit_cycle (s : State) (u : UnitSt) : (s.putUnit u).cycle = s.cycle := rfl
@[simp] theorem State.putUnit_schedule (s : State) (u : UnitSt) : (s.putUnit u).schedule = s.schedule := rfl
@[simp] theorem State.putUnit_turn (s : State) (u : UnitSt) : (s.putUnit u).turn = s.turn := rfl
@[simp] theorem State.putUnit_cur (s : State) (u : UnitSt) : (s.putUnit u).cur = s.cur := rfl
@[simp] theorem State.putUnit_now (s : State) (u : UnitSt) : (s.putUnit u).now = s.now := rfl
@[simp] theorem State.putUnit_fresh (s : State) (u : UnitSt) : (s.putUnit u).fresh = s.fresh := rfl
@[simp] theorem State.putUnit_mem (s : State) (u : UnitSt) : (s.putUnit u).mem = s.mem := rfl
@[simp] theorem State.putUnit_keys (s : State) (u : UnitSt) : (s.putUnit u).keys = s.keys := rfl
@[simp] theorem State.putUnit_poison (s : State) (u : UnitSt) : (s.putUnit u).poison = s.poison := rfl
@[simp] theorem State.putUnit_corrected (s : State) (u : UnitSt) : (s.putUnit u).corrected = s.corrected := rfl
@[simp] theorem State.putUnit_pairs (s : State) (u : UnitSt) : (s.putUnit u).pairs = s.pairs := rfl
@[simp] theorem State.putUnit_dies (s : State) (u : UnitSt) : (s.putUnit u).dies = s.dies := rfl
@[simp] theorem State.putUnit_toHome (s : State) (u : UnitSt) : (s.putUnit u).toHome = s.toHome := rfl
@[simp] theorem State.putUnit_toDie (s : State) (u : UnitSt) : (s.putUnit u).toDie = s.toDie := rfl
@[simp] theorem State.putUnit_cmds (s : State) (u : UnitSt) : (s.putUnit u).cmds = s.cmds := rfl
@[simp] theorem State.putUnit_acks (s : State) (u : UnitSt) : (s.putUnit u).acks = s.acks := rfl
@[simp] theorem State.putUnit_subs (s : State) (u : UnitSt) : (s.putUnit u).subs = s.subs := rfl
@[simp] theorem State.putUnit_updates (s : State) (u : UnitSt) : (s.putUnit u).updates = s.updates := rfl
@[simp] theorem State.putUnit_jobs (s : State) (u : UnitSt) : (s.putUnit u).jobs = s.jobs := rfl
@[simp] theorem State.putUnit_lastRoot (s : State) (u : UnitSt) : (s.putUnit u).lastRoot = s.lastRoot := rfl
@[simp] theorem State.putUnit_lastRuns (s : State) (u : UnitSt) : (s.putUnit u).lastRuns = s.lastRuns := rfl
@[simp] theorem State.putUnit_p0 (s : State) (u : UnitSt) : (s.putUnit u).p0 = s.p0 := rfl
@[simp] theorem State.putUnit_p1 (s : State) (u : UnitSt) : (s.putUnit u).p1 = s.p1 := rfl
@[simp] theorem State.putUnit_outstanding (s : State) (u : UnitSt) : (s.putUnit u).outstanding = s.outstanding := rfl
@[simp] theorem State.putUnit_out (s : State) (u : UnitSt) : (s.putUnit u).out = s.out := rfl
@[simp] theorem State.putUnit_aer (s : State) (u : UnitSt) : (s.putUnit u).aer = s.aer := rfl
@[simp] theorem State.putUnit_ras (s : State) (u : UnitSt) : (s.putUnit u).ras = s.ras := rfl
@[simp] theorem State.putUnit_rasq (s : State) (u : UnitSt) : (s.putUnit u).rasq = s.rasq := rfl
@[simp] theorem State.putUnit_vfbind0 (s : State) (u : UnitSt) : (s.putUnit u).vfbind0 = s.vfbind0 := rfl
@[simp] theorem State.putUnit_vfbind2 (s : State) (u : UnitSt) : (s.putUnit u).vfbind2 = s.vfbind2 := rfl
@[simp] theorem State.putUnit_fw (s : State) (u : UnitSt) : (s.putUnit u).fw = s.fw := rfl

@[simp] theorem State.dropUnit_cycle (s : State) (k : UKey) : (s.dropUnit k).cycle = s.cycle := rfl
@[simp] theorem State.dropUnit_schedule (s : State) (k : UKey) : (s.dropUnit k).schedule = s.schedule := rfl
@[simp] theorem State.dropUnit_turn (s : State) (k : UKey) : (s.dropUnit k).turn = s.turn := rfl
@[simp] theorem State.dropUnit_cur (s : State) (k : UKey) : (s.dropUnit k).cur = s.cur := rfl
@[simp] theorem State.dropUnit_now (s : State) (k : UKey) : (s.dropUnit k).now = s.now := rfl
@[simp] theorem State.dropUnit_fresh (s : State) (k : UKey) : (s.dropUnit k).fresh = s.fresh := rfl
@[simp] theorem State.dropUnit_mem (s : State) (k : UKey) : (s.dropUnit k).mem = s.mem := rfl
@[simp] theorem State.dropUnit_keys (s : State) (k : UKey) : (s.dropUnit k).keys = s.keys := rfl
@[simp] theorem State.dropUnit_poison (s : State) (k : UKey) : (s.dropUnit k).poison = s.poison := rfl
@[simp] theorem State.dropUnit_corrected (s : State) (k : UKey) : (s.dropUnit k).corrected = s.corrected := rfl
@[simp] theorem State.dropUnit_pairs (s : State) (k : UKey) : (s.dropUnit k).pairs = s.pairs := rfl
@[simp] theorem State.dropUnit_dies (s : State) (k : UKey) : (s.dropUnit k).dies = s.dies := rfl
@[simp] theorem State.dropUnit_toHome (s : State) (k : UKey) : (s.dropUnit k).toHome = s.toHome := rfl
@[simp] theorem State.dropUnit_toDie (s : State) (k : UKey) : (s.dropUnit k).toDie = s.toDie := rfl
@[simp] theorem State.dropUnit_cmds (s : State) (k : UKey) : (s.dropUnit k).cmds = s.cmds := rfl
@[simp] theorem State.dropUnit_acks (s : State) (k : UKey) : (s.dropUnit k).acks = s.acks := rfl
@[simp] theorem State.dropUnit_subs (s : State) (k : UKey) : (s.dropUnit k).subs = s.subs := rfl
@[simp] theorem State.dropUnit_updates (s : State) (k : UKey) : (s.dropUnit k).updates = s.updates := rfl
@[simp] theorem State.dropUnit_jobs (s : State) (k : UKey) : (s.dropUnit k).jobs = s.jobs := rfl
@[simp] theorem State.dropUnit_lastRoot (s : State) (k : UKey) : (s.dropUnit k).lastRoot = s.lastRoot := rfl
@[simp] theorem State.dropUnit_lastRuns (s : State) (k : UKey) : (s.dropUnit k).lastRuns = s.lastRuns := rfl
@[simp] theorem State.dropUnit_p0 (s : State) (k : UKey) : (s.dropUnit k).p0 = s.p0 := rfl
@[simp] theorem State.dropUnit_p1 (s : State) (k : UKey) : (s.dropUnit k).p1 = s.p1 := rfl
@[simp] theorem State.dropUnit_outstanding (s : State) (k : UKey) : (s.dropUnit k).outstanding = s.outstanding := rfl
@[simp] theorem State.dropUnit_out (s : State) (k : UKey) : (s.dropUnit k).out = s.out := rfl
@[simp] theorem State.dropUnit_aer (s : State) (k : UKey) : (s.dropUnit k).aer = s.aer := rfl
@[simp] theorem State.dropUnit_ras (s : State) (k : UKey) : (s.dropUnit k).ras = s.ras := rfl
@[simp] theorem State.dropUnit_rasq (s : State) (k : UKey) : (s.dropUnit k).rasq = s.rasq := rfl
@[simp] theorem State.dropUnit_vfbind0 (s : State) (k : UKey) : (s.dropUnit k).vfbind0 = s.vfbind0 := rfl
@[simp] theorem State.dropUnit_vfbind2 (s : State) (k : UKey) : (s.dropUnit k).vfbind2 = s.vfbind2 := rfl
@[simp] theorem State.dropUnit_fw (s : State) (k : UKey) : (s.dropUnit k).fw = s.fw := rfl

@[simp] theorem State.modUnit_cycle (s : State) (k : UKey) (f : UnitSt → UnitSt) : (s.modUnit k f).cycle = s.cycle := rfl
@[simp] theorem State.modUnit_schedule (s : State) (k : UKey) (f : UnitSt → UnitSt) : (s.modUnit k f).schedule = s.schedule := rfl
@[simp] theorem State.modUnit_turn (s : State) (k : UKey) (f : UnitSt → UnitSt) : (s.modUnit k f).turn = s.turn := rfl
@[simp] theorem State.modUnit_cur (s : State) (k : UKey) (f : UnitSt → UnitSt) : (s.modUnit k f).cur = s.cur := rfl
@[simp] theorem State.modUnit_now (s : State) (k : UKey) (f : UnitSt → UnitSt) : (s.modUnit k f).now = s.now := rfl
@[simp] theorem State.modUnit_fresh (s : State) (k : UKey) (f : UnitSt → UnitSt) : (s.modUnit k f).fresh = s.fresh := rfl
@[simp] theorem State.modUnit_mem (s : State) (k : UKey) (f : UnitSt → UnitSt) : (s.modUnit k f).mem = s.mem := rfl
@[simp] theorem State.modUnit_keys (s : State) (k : UKey) (f : UnitSt → UnitSt) : (s.modUnit k f).keys = s.keys := rfl
@[simp] theorem State.modUnit_poison (s : State) (k : UKey) (f : UnitSt → UnitSt) : (s.modUnit k f).poison = s.poison := rfl
@[simp] theorem State.modUnit_corrected (s : State) (k : UKey) (f : UnitSt → UnitSt) : (s.modUnit k f).corrected = s.corrected := rfl
@[simp] theorem State.modUnit_pairs (s : State) (k : UKey) (f : UnitSt → UnitSt) : (s.modUnit k f).pairs = s.pairs := rfl
@[simp] theorem State.modUnit_dies (s : State) (k : UKey) (f : UnitSt → UnitSt) : (s.modUnit k f).dies = s.dies := rfl
@[simp] theorem State.modUnit_toHome (s : State) (k : UKey) (f : UnitSt → UnitSt) : (s.modUnit k f).toHome = s.toHome := rfl
@[simp] theorem State.modUnit_toDie (s : State) (k : UKey) (f : UnitSt → UnitSt) : (s.modUnit k f).toDie = s.toDie := rfl
@[simp] theorem State.modUnit_cmds (s : State) (k : UKey) (f : UnitSt → UnitSt) : (s.modUnit k f).cmds = s.cmds := rfl
@[simp] theorem State.modUnit_acks (s : State) (k : UKey) (f : UnitSt → UnitSt) : (s.modUnit k f).acks = s.acks := rfl
@[simp] theorem State.modUnit_subs (s : State) (k : UKey) (f : UnitSt → UnitSt) : (s.modUnit k f).subs = s.subs := rfl
@[simp] theorem State.modUnit_updates (s : State) (k : UKey) (f : UnitSt → UnitSt) : (s.modUnit k f).updates = s.updates := rfl
@[simp] theorem State.modUnit_jobs (s : State) (k : UKey) (f : UnitSt → UnitSt) : (s.modUnit k f).jobs = s.jobs := rfl
@[simp] theorem State.modUnit_lastRoot (s : State) (k : UKey) (f : UnitSt → UnitSt) : (s.modUnit k f).lastRoot = s.lastRoot := rfl
@[simp] theorem State.modUnit_lastRuns (s : State) (k : UKey) (f : UnitSt → UnitSt) : (s.modUnit k f).lastRuns = s.lastRuns := rfl
@[simp] theorem State.modUnit_p0 (s : State) (k : UKey) (f : UnitSt → UnitSt) : (s.modUnit k f).p0 = s.p0 := rfl
@[simp] theorem State.modUnit_p1 (s : State) (k : UKey) (f : UnitSt → UnitSt) : (s.modUnit k f).p1 = s.p1 := rfl
@[simp] theorem State.modUnit_outstanding (s : State) (k : UKey) (f : UnitSt → UnitSt) : (s.modUnit k f).outstanding = s.outstanding := rfl
@[simp] theorem State.modUnit_out (s : State) (k : UKey) (f : UnitSt → UnitSt) : (s.modUnit k f).out = s.out := rfl
@[simp] theorem State.modUnit_aer (s : State) (k : UKey) (f : UnitSt → UnitSt) : (s.modUnit k f).aer = s.aer := rfl
@[simp] theorem State.modUnit_ras (s : State) (k : UKey) (f : UnitSt → UnitSt) : (s.modUnit k f).ras = s.ras := rfl
@[simp] theorem State.modUnit_rasq (s : State) (k : UKey) (f : UnitSt → UnitSt) : (s.modUnit k f).rasq = s.rasq := rfl
@[simp] theorem State.modUnit_vfbind0 (s : State) (k : UKey) (f : UnitSt → UnitSt) : (s.modUnit k f).vfbind0 = s.vfbind0 := rfl
@[simp] theorem State.modUnit_vfbind2 (s : State) (k : UKey) (f : UnitSt → UnitSt) : (s.modUnit k f).vfbind2 = s.vfbind2 := rfl
@[simp] theorem State.modUnit_fw (s : State) (k : UKey) (f : UnitSt → UnitSt) : (s.modUnit k f).fw = s.fw := rfl

@[simp] theorem State.retireC_cycle (s : State) (u : UnitSt) (n : Nat) : (s.retireC u n).cycle = s.cycle := rfl
@[simp] theorem State.retireC_schedule (s : State) (u : UnitSt) (n : Nat) : (s.retireC u n).schedule = s.schedule := rfl
@[simp] theorem State.retireC_turn (s : State) (u : UnitSt) (n : Nat) : (s.retireC u n).turn = s.turn := rfl
@[simp] theorem State.retireC_cur (s : State) (u : UnitSt) (n : Nat) : (s.retireC u n).cur = s.cur := rfl
@[simp] theorem State.retireC_now (s : State) (u : UnitSt) (n : Nat) : (s.retireC u n).now = s.now := rfl
@[simp] theorem State.retireC_fresh (s : State) (u : UnitSt) (n : Nat) : (s.retireC u n).fresh = s.fresh := rfl
@[simp] theorem State.retireC_mem (s : State) (u : UnitSt) (n : Nat) : (s.retireC u n).mem = s.mem := rfl
@[simp] theorem State.retireC_keys (s : State) (u : UnitSt) (n : Nat) : (s.retireC u n).keys = s.keys := rfl
@[simp] theorem State.retireC_poison (s : State) (u : UnitSt) (n : Nat) : (s.retireC u n).poison = s.poison := rfl
@[simp] theorem State.retireC_corrected (s : State) (u : UnitSt) (n : Nat) : (s.retireC u n).corrected = s.corrected := rfl
@[simp] theorem State.retireC_pairs (s : State) (u : UnitSt) (n : Nat) : (s.retireC u n).pairs = s.pairs := rfl
@[simp] theorem State.retireC_dies (s : State) (u : UnitSt) (n : Nat) : (s.retireC u n).dies = s.dies := rfl
@[simp] theorem State.retireC_toHome (s : State) (u : UnitSt) (n : Nat) : (s.retireC u n).toHome = s.toHome := rfl
@[simp] theorem State.retireC_toDie (s : State) (u : UnitSt) (n : Nat) : (s.retireC u n).toDie = s.toDie := rfl
@[simp] theorem State.retireC_cmds (s : State) (u : UnitSt) (n : Nat) : (s.retireC u n).cmds = s.cmds := rfl
@[simp] theorem State.retireC_acks (s : State) (u : UnitSt) (n : Nat) : (s.retireC u n).acks = s.acks := rfl
@[simp] theorem State.retireC_subs (s : State) (u : UnitSt) (n : Nat) : (s.retireC u n).subs = s.subs := rfl
@[simp] theorem State.retireC_updates (s : State) (u : UnitSt) (n : Nat) : (s.retireC u n).updates = s.updates := rfl
@[simp] theorem State.retireC_jobs (s : State) (u : UnitSt) (n : Nat) : (s.retireC u n).jobs = s.jobs := rfl
@[simp] theorem State.retireC_lastRoot (s : State) (u : UnitSt) (n : Nat) : (s.retireC u n).lastRoot = s.lastRoot := rfl
@[simp] theorem State.retireC_lastRuns (s : State) (u : UnitSt) (n : Nat) : (s.retireC u n).lastRuns = s.lastRuns := rfl
@[simp] theorem State.retireC_p0 (s : State) (u : UnitSt) (n : Nat) : (s.retireC u n).p0 = s.p0 := rfl
@[simp] theorem State.retireC_p1 (s : State) (u : UnitSt) (n : Nat) : (s.retireC u n).p1 = s.p1 := rfl
@[simp] theorem State.retireC_outstanding (s : State) (u : UnitSt) (n : Nat) : (s.retireC u n).outstanding = s.outstanding := rfl
@[simp] theorem State.retireC_out (s : State) (u : UnitSt) (n : Nat) : (s.retireC u n).out = s.out := rfl
@[simp] theorem State.retireC_aer (s : State) (u : UnitSt) (n : Nat) : (s.retireC u n).aer = s.aer := rfl
@[simp] theorem State.retireC_ras (s : State) (u : UnitSt) (n : Nat) : (s.retireC u n).ras = s.ras := rfl
@[simp] theorem State.retireC_rasq (s : State) (u : UnitSt) (n : Nat) : (s.retireC u n).rasq = s.rasq := rfl
@[simp] theorem State.retireC_vfbind0 (s : State) (u : UnitSt) (n : Nat) : (s.retireC u n).vfbind0 = s.vfbind0 := rfl
@[simp] theorem State.retireC_vfbind2 (s : State) (u : UnitSt) (n : Nat) : (s.retireC u n).vfbind2 = s.vfbind2 := rfl
@[simp] theorem State.retireC_fw (s : State) (u : UnitSt) (n : Nat) : (s.retireC u n).fw = s.fw := rfl

@[simp] theorem State.waitC_cycle (s : State) (u : UnitSt) (w : CtlWait) : (s.waitC u w).cycle = s.cycle := rfl
@[simp] theorem State.waitC_schedule (s : State) (u : UnitSt) (w : CtlWait) : (s.waitC u w).schedule = s.schedule := rfl
@[simp] theorem State.waitC_turn (s : State) (u : UnitSt) (w : CtlWait) : (s.waitC u w).turn = s.turn := rfl
@[simp] theorem State.waitC_cur (s : State) (u : UnitSt) (w : CtlWait) : (s.waitC u w).cur = s.cur := rfl
@[simp] theorem State.waitC_now (s : State) (u : UnitSt) (w : CtlWait) : (s.waitC u w).now = s.now := rfl
@[simp] theorem State.waitC_fresh (s : State) (u : UnitSt) (w : CtlWait) : (s.waitC u w).fresh = s.fresh := rfl
@[simp] theorem State.waitC_mem (s : State) (u : UnitSt) (w : CtlWait) : (s.waitC u w).mem = s.mem := rfl
@[simp] theorem State.waitC_keys (s : State) (u : UnitSt) (w : CtlWait) : (s.waitC u w).keys = s.keys := rfl
@[simp] theorem State.waitC_poison (s : State) (u : UnitSt) (w : CtlWait) : (s.waitC u w).poison = s.poison := rfl
@[simp] theorem State.waitC_corrected (s : State) (u : UnitSt) (w : CtlWait) : (s.waitC u w).corrected = s.corrected := rfl
@[simp] theorem State.waitC_pairs (s : State) (u : UnitSt) (w : CtlWait) : (s.waitC u w).pairs = s.pairs := rfl
@[simp] theorem State.waitC_dies (s : State) (u : UnitSt) (w : CtlWait) : (s.waitC u w).dies = s.dies := rfl
@[simp] theorem State.waitC_toHome (s : State) (u : UnitSt) (w : CtlWait) : (s.waitC u w).toHome = s.toHome := rfl
@[simp] theorem State.waitC_toDie (s : State) (u : UnitSt) (w : CtlWait) : (s.waitC u w).toDie = s.toDie := rfl
@[simp] theorem State.waitC_cmds (s : State) (u : UnitSt) (w : CtlWait) : (s.waitC u w).cmds = s.cmds := rfl
@[simp] theorem State.waitC_acks (s : State) (u : UnitSt) (w : CtlWait) : (s.waitC u w).acks = s.acks := rfl
@[simp] theorem State.waitC_subs (s : State) (u : UnitSt) (w : CtlWait) : (s.waitC u w).subs = s.subs := rfl
@[simp] theorem State.waitC_updates (s : State) (u : UnitSt) (w : CtlWait) : (s.waitC u w).updates = s.updates := rfl
@[simp] theorem State.waitC_jobs (s : State) (u : UnitSt) (w : CtlWait) : (s.waitC u w).jobs = s.jobs := rfl
@[simp] theorem State.waitC_lastRoot (s : State) (u : UnitSt) (w : CtlWait) : (s.waitC u w).lastRoot = s.lastRoot := rfl
@[simp] theorem State.waitC_lastRuns (s : State) (u : UnitSt) (w : CtlWait) : (s.waitC u w).lastRuns = s.lastRuns := rfl
@[simp] theorem State.waitC_p0 (s : State) (u : UnitSt) (w : CtlWait) : (s.waitC u w).p0 = s.p0 := rfl
@[simp] theorem State.waitC_p1 (s : State) (u : UnitSt) (w : CtlWait) : (s.waitC u w).p1 = s.p1 := rfl
@[simp] theorem State.waitC_outstanding (s : State) (u : UnitSt) (w : CtlWait) : (s.waitC u w).outstanding = s.outstanding := rfl
@[simp] theorem State.waitC_out (s : State) (u : UnitSt) (w : CtlWait) : (s.waitC u w).out = s.out := rfl
@[simp] theorem State.waitC_aer (s : State) (u : UnitSt) (w : CtlWait) : (s.waitC u w).aer = s.aer := rfl
@[simp] theorem State.waitC_ras (s : State) (u : UnitSt) (w : CtlWait) : (s.waitC u w).ras = s.ras := rfl
@[simp] theorem State.waitC_rasq (s : State) (u : UnitSt) (w : CtlWait) : (s.waitC u w).rasq = s.rasq := rfl
@[simp] theorem State.waitC_vfbind0 (s : State) (u : UnitSt) (w : CtlWait) : (s.waitC u w).vfbind0 = s.vfbind0 := rfl
@[simp] theorem State.waitC_vfbind2 (s : State) (u : UnitSt) (w : CtlWait) : (s.waitC u w).vfbind2 = s.vfbind2 := rfl
@[simp] theorem State.waitC_fw (s : State) (u : UnitSt) (w : CtlWait) : (s.waitC u w).fw = s.fw := rfl

@[simp] theorem State.setDie_cycle (s : State) (d : Nat) (x : Die) : (s.setDie d x).cycle = s.cycle := rfl
@[simp] theorem State.setDie_schedule (s : State) (d : Nat) (x : Die) : (s.setDie d x).schedule = s.schedule := rfl
@[simp] theorem State.setDie_turn (s : State) (d : Nat) (x : Die) : (s.setDie d x).turn = s.turn := rfl
@[simp] theorem State.setDie_cur (s : State) (d : Nat) (x : Die) : (s.setDie d x).cur = s.cur := rfl
@[simp] theorem State.setDie_now (s : State) (d : Nat) (x : Die) : (s.setDie d x).now = s.now := rfl
@[simp] theorem State.setDie_fresh (s : State) (d : Nat) (x : Die) : (s.setDie d x).fresh = s.fresh := rfl
@[simp] theorem State.setDie_mem (s : State) (d : Nat) (x : Die) : (s.setDie d x).mem = s.mem := rfl
@[simp] theorem State.setDie_keys (s : State) (d : Nat) (x : Die) : (s.setDie d x).keys = s.keys := rfl
@[simp] theorem State.setDie_poison (s : State) (d : Nat) (x : Die) : (s.setDie d x).poison = s.poison := rfl
@[simp] theorem State.setDie_corrected (s : State) (d : Nat) (x : Die) : (s.setDie d x).corrected = s.corrected := rfl
@[simp] theorem State.setDie_units (s : State) (d : Nat) (x : Die) : (s.setDie d x).units = s.units := rfl
@[simp] theorem State.setDie_pairs (s : State) (d : Nat) (x : Die) : (s.setDie d x).pairs = s.pairs := rfl
@[simp] theorem State.setDie_toHome (s : State) (d : Nat) (x : Die) : (s.setDie d x).toHome = s.toHome := rfl
@[simp] theorem State.setDie_toDie (s : State) (d : Nat) (x : Die) : (s.setDie d x).toDie = s.toDie := rfl
@[simp] theorem State.setDie_cmds (s : State) (d : Nat) (x : Die) : (s.setDie d x).cmds = s.cmds := rfl
@[simp] theorem State.setDie_acks (s : State) (d : Nat) (x : Die) : (s.setDie d x).acks = s.acks := rfl
@[simp] theorem State.setDie_subs (s : State) (d : Nat) (x : Die) : (s.setDie d x).subs = s.subs := rfl
@[simp] theorem State.setDie_updates (s : State) (d : Nat) (x : Die) : (s.setDie d x).updates = s.updates := rfl
@[simp] theorem State.setDie_jobs (s : State) (d : Nat) (x : Die) : (s.setDie d x).jobs = s.jobs := rfl
@[simp] theorem State.setDie_lastRoot (s : State) (d : Nat) (x : Die) : (s.setDie d x).lastRoot = s.lastRoot := rfl
@[simp] theorem State.setDie_lastRuns (s : State) (d : Nat) (x : Die) : (s.setDie d x).lastRuns = s.lastRuns := rfl
@[simp] theorem State.setDie_p0 (s : State) (d : Nat) (x : Die) : (s.setDie d x).p0 = s.p0 := rfl
@[simp] theorem State.setDie_p1 (s : State) (d : Nat) (x : Die) : (s.setDie d x).p1 = s.p1 := rfl
@[simp] theorem State.setDie_outstanding (s : State) (d : Nat) (x : Die) : (s.setDie d x).outstanding = s.outstanding := rfl
@[simp] theorem State.setDie_out (s : State) (d : Nat) (x : Die) : (s.setDie d x).out = s.out := rfl
@[simp] theorem State.setDie_aer (s : State) (d : Nat) (x : Die) : (s.setDie d x).aer = s.aer := rfl
@[simp] theorem State.setDie_ras (s : State) (d : Nat) (x : Die) : (s.setDie d x).ras = s.ras := rfl
@[simp] theorem State.setDie_rasq (s : State) (d : Nat) (x : Die) : (s.setDie d x).rasq = s.rasq := rfl
@[simp] theorem State.setDie_vfbind0 (s : State) (d : Nat) (x : Die) : (s.setDie d x).vfbind0 = s.vfbind0 := rfl
@[simp] theorem State.setDie_vfbind2 (s : State) (d : Nat) (x : Die) : (s.setDie d x).vfbind2 = s.vfbind2 := rfl
@[simp] theorem State.setDie_fw (s : State) (d : Nat) (x : Die) : (s.setDie d x).fw = s.fw := rfl

@[simp] theorem State.modDie_cycle (s : State) (d : Nat) (f : Die → Die) : (s.modDie d f).cycle = s.cycle := rfl
@[simp] theorem State.modDie_schedule (s : State) (d : Nat) (f : Die → Die) : (s.modDie d f).schedule = s.schedule := rfl
@[simp] theorem State.modDie_turn (s : State) (d : Nat) (f : Die → Die) : (s.modDie d f).turn = s.turn := rfl
@[simp] theorem State.modDie_cur (s : State) (d : Nat) (f : Die → Die) : (s.modDie d f).cur = s.cur := rfl
@[simp] theorem State.modDie_now (s : State) (d : Nat) (f : Die → Die) : (s.modDie d f).now = s.now := rfl
@[simp] theorem State.modDie_fresh (s : State) (d : Nat) (f : Die → Die) : (s.modDie d f).fresh = s.fresh := rfl
@[simp] theorem State.modDie_mem (s : State) (d : Nat) (f : Die → Die) : (s.modDie d f).mem = s.mem := rfl
@[simp] theorem State.modDie_keys (s : State) (d : Nat) (f : Die → Die) : (s.modDie d f).keys = s.keys := rfl
@[simp] theorem State.modDie_poison (s : State) (d : Nat) (f : Die → Die) : (s.modDie d f).poison = s.poison := rfl
@[simp] theorem State.modDie_corrected (s : State) (d : Nat) (f : Die → Die) : (s.modDie d f).corrected = s.corrected := rfl
@[simp] theorem State.modDie_units (s : State) (d : Nat) (f : Die → Die) : (s.modDie d f).units = s.units := rfl
@[simp] theorem State.modDie_pairs (s : State) (d : Nat) (f : Die → Die) : (s.modDie d f).pairs = s.pairs := rfl
@[simp] theorem State.modDie_toHome (s : State) (d : Nat) (f : Die → Die) : (s.modDie d f).toHome = s.toHome := rfl
@[simp] theorem State.modDie_toDie (s : State) (d : Nat) (f : Die → Die) : (s.modDie d f).toDie = s.toDie := rfl
@[simp] theorem State.modDie_cmds (s : State) (d : Nat) (f : Die → Die) : (s.modDie d f).cmds = s.cmds := rfl
@[simp] theorem State.modDie_acks (s : State) (d : Nat) (f : Die → Die) : (s.modDie d f).acks = s.acks := rfl
@[simp] theorem State.modDie_subs (s : State) (d : Nat) (f : Die → Die) : (s.modDie d f).subs = s.subs := rfl
@[simp] theorem State.modDie_updates (s : State) (d : Nat) (f : Die → Die) : (s.modDie d f).updates = s.updates := rfl
@[simp] theorem State.modDie_jobs (s : State) (d : Nat) (f : Die → Die) : (s.modDie d f).jobs = s.jobs := rfl
@[simp] theorem State.modDie_lastRoot (s : State) (d : Nat) (f : Die → Die) : (s.modDie d f).lastRoot = s.lastRoot := rfl
@[simp] theorem State.modDie_lastRuns (s : State) (d : Nat) (f : Die → Die) : (s.modDie d f).lastRuns = s.lastRuns := rfl
@[simp] theorem State.modDie_p0 (s : State) (d : Nat) (f : Die → Die) : (s.modDie d f).p0 = s.p0 := rfl
@[simp] theorem State.modDie_p1 (s : State) (d : Nat) (f : Die → Die) : (s.modDie d f).p1 = s.p1 := rfl
@[simp] theorem State.modDie_outstanding (s : State) (d : Nat) (f : Die → Die) : (s.modDie d f).outstanding = s.outstanding := rfl
@[simp] theorem State.modDie_out (s : State) (d : Nat) (f : Die → Die) : (s.modDie d f).out = s.out := rfl
@[simp] theorem State.modDie_aer (s : State) (d : Nat) (f : Die → Die) : (s.modDie d f).aer = s.aer := rfl
@[simp] theorem State.modDie_ras (s : State) (d : Nat) (f : Die → Die) : (s.modDie d f).ras = s.ras := rfl
@[simp] theorem State.modDie_rasq (s : State) (d : Nat) (f : Die → Die) : (s.modDie d f).rasq = s.rasq := rfl
@[simp] theorem State.modDie_vfbind0 (s : State) (d : Nat) (f : Die → Die) : (s.modDie d f).vfbind0 = s.vfbind0 := rfl
@[simp] theorem State.modDie_vfbind2 (s : State) (d : Nat) (f : Die → Die) : (s.modDie d f).vfbind2 = s.vfbind2 := rfl
@[simp] theorem State.modDie_fw (s : State) (d : Nat) (f : Die → Die) : (s.modDie d f).fw = s.fw := rfl

@[simp] theorem State.setPair_cycle (s : State) (x : PairSt) : (s.setPair x).cycle = s.cycle := rfl
@[simp] theorem State.setPair_schedule (s : State) (x : PairSt) : (s.setPair x).schedule = s.schedule := rfl
@[simp] theorem State.setPair_turn (s : State) (x : PairSt) : (s.setPair x).turn = s.turn := rfl
@[simp] theorem State.setPair_cur (s : State) (x : PairSt) : (s.setPair x).cur = s.cur := rfl
@[simp] theorem State.setPair_now (s : State) (x : PairSt) : (s.setPair x).now = s.now := rfl
@[simp] theorem State.setPair_fresh (s : State) (x : PairSt) : (s.setPair x).fresh = s.fresh := rfl
@[simp] theorem State.setPair_mem (s : State) (x : PairSt) : (s.setPair x).mem = s.mem := rfl
@[simp] theorem State.setPair_keys (s : State) (x : PairSt) : (s.setPair x).keys = s.keys := rfl
@[simp] theorem State.setPair_poison (s : State) (x : PairSt) : (s.setPair x).poison = s.poison := rfl
@[simp] theorem State.setPair_corrected (s : State) (x : PairSt) : (s.setPair x).corrected = s.corrected := rfl
@[simp] theorem State.setPair_units (s : State) (x : PairSt) : (s.setPair x).units = s.units := rfl
@[simp] theorem State.setPair_dies (s : State) (x : PairSt) : (s.setPair x).dies = s.dies := rfl
@[simp] theorem State.setPair_toHome (s : State) (x : PairSt) : (s.setPair x).toHome = s.toHome := rfl
@[simp] theorem State.setPair_toDie (s : State) (x : PairSt) : (s.setPair x).toDie = s.toDie := rfl
@[simp] theorem State.setPair_cmds (s : State) (x : PairSt) : (s.setPair x).cmds = s.cmds := rfl
@[simp] theorem State.setPair_acks (s : State) (x : PairSt) : (s.setPair x).acks = s.acks := rfl
@[simp] theorem State.setPair_subs (s : State) (x : PairSt) : (s.setPair x).subs = s.subs := rfl
@[simp] theorem State.setPair_updates (s : State) (x : PairSt) : (s.setPair x).updates = s.updates := rfl
@[simp] theorem State.setPair_jobs (s : State) (x : PairSt) : (s.setPair x).jobs = s.jobs := rfl
@[simp] theorem State.setPair_lastRoot (s : State) (x : PairSt) : (s.setPair x).lastRoot = s.lastRoot := rfl
@[simp] theorem State.setPair_lastRuns (s : State) (x : PairSt) : (s.setPair x).lastRuns = s.lastRuns := rfl
@[simp] theorem State.setPair_p0 (s : State) (x : PairSt) : (s.setPair x).p0 = s.p0 := rfl
@[simp] theorem State.setPair_p1 (s : State) (x : PairSt) : (s.setPair x).p1 = s.p1 := rfl
@[simp] theorem State.setPair_outstanding (s : State) (x : PairSt) : (s.setPair x).outstanding = s.outstanding := rfl
@[simp] theorem State.setPair_out (s : State) (x : PairSt) : (s.setPair x).out = s.out := rfl
@[simp] theorem State.setPair_aer (s : State) (x : PairSt) : (s.setPair x).aer = s.aer := rfl
@[simp] theorem State.setPair_ras (s : State) (x : PairSt) : (s.setPair x).ras = s.ras := rfl
@[simp] theorem State.setPair_rasq (s : State) (x : PairSt) : (s.setPair x).rasq = s.rasq := rfl
@[simp] theorem State.setPair_vfbind0 (s : State) (x : PairSt) : (s.setPair x).vfbind0 = s.vfbind0 := rfl
@[simp] theorem State.setPair_vfbind2 (s : State) (x : PairSt) : (s.setPair x).vfbind2 = s.vfbind2 := rfl
@[simp] theorem State.setPair_fw (s : State) (x : PairSt) : (s.setPair x).fw = s.fw := rfl

@[simp] theorem State.modPair_cycle (s : State) (p : Nat) (f : PairSt → PairSt) : (s.modPair p f).cycle = s.cycle := rfl
@[simp] theorem State.modPair_schedule (s : State) (p : Nat) (f : PairSt → PairSt) : (s.modPair p f).schedule = s.schedule := rfl
@[simp] theorem State.modPair_turn (s : State) (p : Nat) (f : PairSt → PairSt) : (s.modPair p f).turn = s.turn := rfl
@[simp] theorem State.modPair_cur (s : State) (p : Nat) (f : PairSt → PairSt) : (s.modPair p f).cur = s.cur := rfl
@[simp] theorem State.modPair_now (s : State) (p : Nat) (f : PairSt → PairSt) : (s.modPair p f).now = s.now := rfl
@[simp] theorem State.modPair_fresh (s : State) (p : Nat) (f : PairSt → PairSt) : (s.modPair p f).fresh = s.fresh := rfl
@[simp] theorem State.modPair_mem (s : State) (p : Nat) (f : PairSt → PairSt) : (s.modPair p f).mem = s.mem := rfl
@[simp] theorem State.modPair_keys (s : State) (p : Nat) (f : PairSt → PairSt) : (s.modPair p f).keys = s.keys := rfl
@[simp] theorem State.modPair_poison (s : State) (p : Nat) (f : PairSt → PairSt) : (s.modPair p f).poison = s.poison := rfl
@[simp] theorem State.modPair_corrected (s : State) (p : Nat) (f : PairSt → PairSt) : (s.modPair p f).corrected = s.corrected := rfl
@[simp] theorem State.modPair_units (s : State) (p : Nat) (f : PairSt → PairSt) : (s.modPair p f).units = s.units := rfl
@[simp] theorem State.modPair_dies (s : State) (p : Nat) (f : PairSt → PairSt) : (s.modPair p f).dies = s.dies := rfl
@[simp] theorem State.modPair_toHome (s : State) (p : Nat) (f : PairSt → PairSt) : (s.modPair p f).toHome = s.toHome := rfl
@[simp] theorem State.modPair_toDie (s : State) (p : Nat) (f : PairSt → PairSt) : (s.modPair p f).toDie = s.toDie := rfl
@[simp] theorem State.modPair_cmds (s : State) (p : Nat) (f : PairSt → PairSt) : (s.modPair p f).cmds = s.cmds := rfl
@[simp] theorem State.modPair_acks (s : State) (p : Nat) (f : PairSt → PairSt) : (s.modPair p f).acks = s.acks := rfl
@[simp] theorem State.modPair_subs (s : State) (p : Nat) (f : PairSt → PairSt) : (s.modPair p f).subs = s.subs := rfl
@[simp] theorem State.modPair_updates (s : State) (p : Nat) (f : PairSt → PairSt) : (s.modPair p f).updates = s.updates := rfl
@[simp] theorem State.modPair_jobs (s : State) (p : Nat) (f : PairSt → PairSt) : (s.modPair p f).jobs = s.jobs := rfl
@[simp] theorem State.modPair_lastRoot (s : State) (p : Nat) (f : PairSt → PairSt) : (s.modPair p f).lastRoot = s.lastRoot := rfl
@[simp] theorem State.modPair_lastRuns (s : State) (p : Nat) (f : PairSt → PairSt) : (s.modPair p f).lastRuns = s.lastRuns := rfl
@[simp] theorem State.modPair_p0 (s : State) (p : Nat) (f : PairSt → PairSt) : (s.modPair p f).p0 = s.p0 := rfl
@[simp] theorem State.modPair_p1 (s : State) (p : Nat) (f : PairSt → PairSt) : (s.modPair p f).p1 = s.p1 := rfl
@[simp] theorem State.modPair_outstanding (s : State) (p : Nat) (f : PairSt → PairSt) : (s.modPair p f).outstanding = s.outstanding := rfl
@[simp] theorem State.modPair_out (s : State) (p : Nat) (f : PairSt → PairSt) : (s.modPair p f).out = s.out := rfl
@[simp] theorem State.modPair_aer (s : State) (p : Nat) (f : PairSt → PairSt) : (s.modPair p f).aer = s.aer := rfl
@[simp] theorem State.modPair_ras (s : State) (p : Nat) (f : PairSt → PairSt) : (s.modPair p f).ras = s.ras := rfl
@[simp] theorem State.modPair_rasq (s : State) (p : Nat) (f : PairSt → PairSt) : (s.modPair p f).rasq = s.rasq := rfl
@[simp] theorem State.modPair_vfbind0 (s : State) (p : Nat) (f : PairSt → PairSt) : (s.modPair p f).vfbind0 = s.vfbind0 := rfl
@[simp] theorem State.modPair_vfbind2 (s : State) (p : Nat) (f : PairSt → PairSt) : (s.modPair p f).vfbind2 = s.vfbind2 := rfl
@[simp] theorem State.modPair_fw (s : State) (p : Nat) (f : PairSt → PairSt) : (s.modPair p f).fw = s.fw := rfl

@[simp] theorem State.putJob_cycle (s : State) (j : Job) : (s.putJob j).cycle = s.cycle := rfl
@[simp] theorem State.putJob_schedule (s : State) (j : Job) : (s.putJob j).schedule = s.schedule := rfl
@[simp] theorem State.putJob_turn (s : State) (j : Job) : (s.putJob j).turn = s.turn := rfl
@[simp] theorem State.putJob_cur (s : State) (j : Job) : (s.putJob j).cur = s.cur := rfl
@[simp] theorem State.putJob_now (s : State) (j : Job) : (s.putJob j).now = s.now := rfl
@[simp] theorem State.putJob_fresh (s : State) (j : Job) : (s.putJob j).fresh = s.fresh := rfl
@[simp] theorem State.putJob_mem (s : State) (j : Job) : (s.putJob j).mem = s.mem := rfl
@[simp] theorem State.putJob_keys (s : State) (j : Job) : (s.putJob j).keys = s.keys := rfl
@[simp] theorem State.putJob_poison (s : State) (j : Job) : (s.putJob j).poison = s.poison := rfl
@[simp] theorem State.putJob_corrected (s : State) (j : Job) : (s.putJob j).corrected = s.corrected := rfl
@[simp] theorem State.putJob_units (s : State) (j : Job) : (s.putJob j).units = s.units := rfl
@[simp] theorem State.putJob_pairs (s : State) (j : Job) : (s.putJob j).pairs = s.pairs := rfl
@[simp] theorem State.putJob_dies (s : State) (j : Job) : (s.putJob j).dies = s.dies := rfl
@[simp] theorem State.putJob_toHome (s : State) (j : Job) : (s.putJob j).toHome = s.toHome := rfl
@[simp] theorem State.putJob_toDie (s : State) (j : Job) : (s.putJob j).toDie = s.toDie := rfl
@[simp] theorem State.putJob_cmds (s : State) (j : Job) : (s.putJob j).cmds = s.cmds := rfl
@[simp] theorem State.putJob_acks (s : State) (j : Job) : (s.putJob j).acks = s.acks := rfl
@[simp] theorem State.putJob_subs (s : State) (j : Job) : (s.putJob j).subs = s.subs := rfl
@[simp] theorem State.putJob_updates (s : State) (j : Job) : (s.putJob j).updates = s.updates := rfl
@[simp] theorem State.putJob_lastRoot (s : State) (j : Job) : (s.putJob j).lastRoot = s.lastRoot := rfl
@[simp] theorem State.putJob_lastRuns (s : State) (j : Job) : (s.putJob j).lastRuns = s.lastRuns := rfl
@[simp] theorem State.putJob_p0 (s : State) (j : Job) : (s.putJob j).p0 = s.p0 := rfl
@[simp] theorem State.putJob_p1 (s : State) (j : Job) : (s.putJob j).p1 = s.p1 := rfl
@[simp] theorem State.putJob_outstanding (s : State) (j : Job) : (s.putJob j).outstanding = s.outstanding := rfl
@[simp] theorem State.putJob_out (s : State) (j : Job) : (s.putJob j).out = s.out := rfl
@[simp] theorem State.putJob_aer (s : State) (j : Job) : (s.putJob j).aer = s.aer := rfl
@[simp] theorem State.putJob_ras (s : State) (j : Job) : (s.putJob j).ras = s.ras := rfl
@[simp] theorem State.putJob_rasq (s : State) (j : Job) : (s.putJob j).rasq = s.rasq := rfl
@[simp] theorem State.putJob_vfbind0 (s : State) (j : Job) : (s.putJob j).vfbind0 = s.vfbind0 := rfl
@[simp] theorem State.putJob_vfbind2 (s : State) (j : Job) : (s.putJob j).vfbind2 = s.vfbind2 := rfl
@[simp] theorem State.putJob_fw (s : State) (j : Job) : (s.putJob j).fw = s.fw := rfl

@[simp] theorem State.modJob_cycle (s : State) (i : Nat) (f : Job → Job) : (s.modJob i f).cycle = s.cycle := rfl
@[simp] theorem State.modJob_schedule (s : State) (i : Nat) (f : Job → Job) : (s.modJob i f).schedule = s.schedule := rfl
@[simp] theorem State.modJob_turn (s : State) (i : Nat) (f : Job → Job) : (s.modJob i f).turn = s.turn := rfl
@[simp] theorem State.modJob_cur (s : State) (i : Nat) (f : Job → Job) : (s.modJob i f).cur = s.cur := rfl
@[simp] theorem State.modJob_now (s : State) (i : Nat) (f : Job → Job) : (s.modJob i f).now = s.now := rfl
@[simp] theorem State.modJob_fresh (s : State) (i : Nat) (f : Job → Job) : (s.modJob i f).fresh = s.fresh := rfl
@[simp] theorem State.modJob_mem (s : State) (i : Nat) (f : Job → Job) : (s.modJob i f).mem = s.mem := rfl
@[simp] theorem State.modJob_keys (s : State) (i : Nat) (f : Job → Job) : (s.modJob i f).keys = s.keys := rfl
@[simp] theorem State.modJob_poison (s : State) (i : Nat) (f : Job → Job) : (s.modJob i f).poison = s.poison := rfl
@[simp] theorem State.modJob_corrected (s : State) (i : Nat) (f : Job → Job) : (s.modJob i f).corrected = s.corrected := rfl
@[simp] theorem State.modJob_units (s : State) (i : Nat) (f : Job → Job) : (s.modJob i f).units = s.units := rfl
@[simp] theorem State.modJob_pairs (s : State) (i : Nat) (f : Job → Job) : (s.modJob i f).pairs = s.pairs := rfl
@[simp] theorem State.modJob_dies (s : State) (i : Nat) (f : Job → Job) : (s.modJob i f).dies = s.dies := rfl
@[simp] theorem State.modJob_toHome (s : State) (i : Nat) (f : Job → Job) : (s.modJob i f).toHome = s.toHome := rfl
@[simp] theorem State.modJob_toDie (s : State) (i : Nat) (f : Job → Job) : (s.modJob i f).toDie = s.toDie := rfl
@[simp] theorem State.modJob_cmds (s : State) (i : Nat) (f : Job → Job) : (s.modJob i f).cmds = s.cmds := rfl
@[simp] theorem State.modJob_acks (s : State) (i : Nat) (f : Job → Job) : (s.modJob i f).acks = s.acks := rfl
@[simp] theorem State.modJob_subs (s : State) (i : Nat) (f : Job → Job) : (s.modJob i f).subs = s.subs := rfl
@[simp] theorem State.modJob_updates (s : State) (i : Nat) (f : Job → Job) : (s.modJob i f).updates = s.updates := rfl
@[simp] theorem State.modJob_lastRoot (s : State) (i : Nat) (f : Job → Job) : (s.modJob i f).lastRoot = s.lastRoot := rfl
@[simp] theorem State.modJob_lastRuns (s : State) (i : Nat) (f : Job → Job) : (s.modJob i f).lastRuns = s.lastRuns := rfl
@[simp] theorem State.modJob_p0 (s : State) (i : Nat) (f : Job → Job) : (s.modJob i f).p0 = s.p0 := rfl
@[simp] theorem State.modJob_p1 (s : State) (i : Nat) (f : Job → Job) : (s.modJob i f).p1 = s.p1 := rfl
@[simp] theorem State.modJob_outstanding (s : State) (i : Nat) (f : Job → Job) : (s.modJob i f).outstanding = s.outstanding := rfl
@[simp] theorem State.modJob_out (s : State) (i : Nat) (f : Job → Job) : (s.modJob i f).out = s.out := rfl
@[simp] theorem State.modJob_aer (s : State) (i : Nat) (f : Job → Job) : (s.modJob i f).aer = s.aer := rfl
@[simp] theorem State.modJob_ras (s : State) (i : Nat) (f : Job → Job) : (s.modJob i f).ras = s.ras := rfl
@[simp] theorem State.modJob_rasq (s : State) (i : Nat) (f : Job → Job) : (s.modJob i f).rasq = s.rasq := rfl
@[simp] theorem State.modJob_vfbind0 (s : State) (i : Nat) (f : Job → Job) : (s.modJob i f).vfbind0 = s.vfbind0 := rfl
@[simp] theorem State.modJob_vfbind2 (s : State) (i : Nat) (f : Job → Job) : (s.modJob i f).vfbind2 = s.vfbind2 := rfl
@[simp] theorem State.modJob_fw (s : State) (i : Nat) (f : Job → Job) : (s.modJob i f).fw = s.fw := rfl

@[simp] theorem State.setByte_cycle (s : State) (a : Nat) (b : TByte) : (s.setByte a b).cycle = s.cycle := rfl
@[simp] theorem State.setByte_schedule (s : State) (a : Nat) (b : TByte) : (s.setByte a b).schedule = s.schedule := rfl
@[simp] theorem State.setByte_turn (s : State) (a : Nat) (b : TByte) : (s.setByte a b).turn = s.turn := rfl
@[simp] theorem State.setByte_cur (s : State) (a : Nat) (b : TByte) : (s.setByte a b).cur = s.cur := rfl
@[simp] theorem State.setByte_now (s : State) (a : Nat) (b : TByte) : (s.setByte a b).now = s.now := rfl
@[simp] theorem State.setByte_fresh (s : State) (a : Nat) (b : TByte) : (s.setByte a b).fresh = s.fresh := rfl
@[simp] theorem State.setByte_poison (s : State) (a : Nat) (b : TByte) : (s.setByte a b).poison = s.poison := rfl
@[simp] theorem State.setByte_corrected (s : State) (a : Nat) (b : TByte) : (s.setByte a b).corrected = s.corrected := rfl
@[simp] theorem State.setByte_units (s : State) (a : Nat) (b : TByte) : (s.setByte a b).units = s.units := rfl
@[simp] theorem State.setByte_pairs (s : State) (a : Nat) (b : TByte) : (s.setByte a b).pairs = s.pairs := rfl
@[simp] theorem State.setByte_dies (s : State) (a : Nat) (b : TByte) : (s.setByte a b).dies = s.dies := rfl
@[simp] theorem State.setByte_toHome (s : State) (a : Nat) (b : TByte) : (s.setByte a b).toHome = s.toHome := rfl
@[simp] theorem State.setByte_toDie (s : State) (a : Nat) (b : TByte) : (s.setByte a b).toDie = s.toDie := rfl
@[simp] theorem State.setByte_cmds (s : State) (a : Nat) (b : TByte) : (s.setByte a b).cmds = s.cmds := rfl
@[simp] theorem State.setByte_acks (s : State) (a : Nat) (b : TByte) : (s.setByte a b).acks = s.acks := rfl
@[simp] theorem State.setByte_subs (s : State) (a : Nat) (b : TByte) : (s.setByte a b).subs = s.subs := rfl
@[simp] theorem State.setByte_updates (s : State) (a : Nat) (b : TByte) : (s.setByte a b).updates = s.updates := rfl
@[simp] theorem State.setByte_jobs (s : State) (a : Nat) (b : TByte) : (s.setByte a b).jobs = s.jobs := rfl
@[simp] theorem State.setByte_lastRoot (s : State) (a : Nat) (b : TByte) : (s.setByte a b).lastRoot = s.lastRoot := rfl
@[simp] theorem State.setByte_lastRuns (s : State) (a : Nat) (b : TByte) : (s.setByte a b).lastRuns = s.lastRuns := rfl
@[simp] theorem State.setByte_p0 (s : State) (a : Nat) (b : TByte) : (s.setByte a b).p0 = s.p0 := rfl
@[simp] theorem State.setByte_p1 (s : State) (a : Nat) (b : TByte) : (s.setByte a b).p1 = s.p1 := rfl
@[simp] theorem State.setByte_outstanding (s : State) (a : Nat) (b : TByte) : (s.setByte a b).outstanding = s.outstanding := rfl
@[simp] theorem State.setByte_out (s : State) (a : Nat) (b : TByte) : (s.setByte a b).out = s.out := rfl
@[simp] theorem State.setByte_aer (s : State) (a : Nat) (b : TByte) : (s.setByte a b).aer = s.aer := rfl
@[simp] theorem State.setByte_ras (s : State) (a : Nat) (b : TByte) : (s.setByte a b).ras = s.ras := rfl
@[simp] theorem State.setByte_rasq (s : State) (a : Nat) (b : TByte) : (s.setByte a b).rasq = s.rasq := rfl
@[simp] theorem State.setByte_vfbind0 (s : State) (a : Nat) (b : TByte) : (s.setByte a b).vfbind0 = s.vfbind0 := rfl
@[simp] theorem State.setByte_vfbind2 (s : State) (a : Nat) (b : TByte) : (s.setByte a b).vfbind2 = s.vfbind2 := rfl
@[simp] theorem State.setByte_fw (s : State) (a : Nat) (b : TByte) : (s.setByte a b).fw = s.fw := rfl

@[simp] theorem State.setBytes_cycle (s : State) (a : Nat) (bs : List TByte) : (s.setBytes a bs).cycle = s.cycle := rfl
@[simp] theorem State.setBytes_schedule (s : State) (a : Nat) (bs : List TByte) : (s.setBytes a bs).schedule = s.schedule := rfl
@[simp] theorem State.setBytes_turn (s : State) (a : Nat) (bs : List TByte) : (s.setBytes a bs).turn = s.turn := rfl
@[simp] theorem State.setBytes_cur (s : State) (a : Nat) (bs : List TByte) : (s.setBytes a bs).cur = s.cur := rfl
@[simp] theorem State.setBytes_now (s : State) (a : Nat) (bs : List TByte) : (s.setBytes a bs).now = s.now := rfl
@[simp] theorem State.setBytes_fresh (s : State) (a : Nat) (bs : List TByte) : (s.setBytes a bs).fresh = s.fresh := rfl
@[simp] theorem State.setBytes_poison (s : State) (a : Nat) (bs : List TByte) : (s.setBytes a bs).poison = s.poison := rfl
@[simp] theorem State.setBytes_corrected (s : State) (a : Nat) (bs : List TByte) : (s.setBytes a bs).corrected = s.corrected := rfl
@[simp] theorem State.setBytes_units (s : State) (a : Nat) (bs : List TByte) : (s.setBytes a bs).units = s.units := rfl
@[simp] theorem State.setBytes_pairs (s : State) (a : Nat) (bs : List TByte) : (s.setBytes a bs).pairs = s.pairs := rfl
@[simp] theorem State.setBytes_dies (s : State) (a : Nat) (bs : List TByte) : (s.setBytes a bs).dies = s.dies := rfl
@[simp] theorem State.setBytes_toHome (s : State) (a : Nat) (bs : List TByte) : (s.setBytes a bs).toHome = s.toHome := rfl
@[simp] theorem State.setBytes_toDie (s : State) (a : Nat) (bs : List TByte) : (s.setBytes a bs).toDie = s.toDie := rfl
@[simp] theorem State.setBytes_cmds (s : State) (a : Nat) (bs : List TByte) : (s.setBytes a bs).cmds = s.cmds := rfl
@[simp] theorem State.setBytes_acks (s : State) (a : Nat) (bs : List TByte) : (s.setBytes a bs).acks = s.acks := rfl
@[simp] theorem State.setBytes_subs (s : State) (a : Nat) (bs : List TByte) : (s.setBytes a bs).subs = s.subs := rfl
@[simp] theorem State.setBytes_updates (s : State) (a : Nat) (bs : List TByte) : (s.setBytes a bs).updates = s.updates := rfl
@[simp] theorem State.setBytes_jobs (s : State) (a : Nat) (bs : List TByte) : (s.setBytes a bs).jobs = s.jobs := rfl
@[simp] theorem State.setBytes_lastRoot (s : State) (a : Nat) (bs : List TByte) : (s.setBytes a bs).lastRoot = s.lastRoot := rfl
@[simp] theorem State.setBytes_lastRuns (s : State) (a : Nat) (bs : List TByte) : (s.setBytes a bs).lastRuns = s.lastRuns := rfl
@[simp] theorem State.setBytes_p0 (s : State) (a : Nat) (bs : List TByte) : (s.setBytes a bs).p0 = s.p0 := rfl
@[simp] theorem State.setBytes_p1 (s : State) (a : Nat) (bs : List TByte) : (s.setBytes a bs).p1 = s.p1 := rfl
@[simp] theorem State.setBytes_outstanding (s : State) (a : Nat) (bs : List TByte) : (s.setBytes a bs).outstanding = s.outstanding := rfl
@[simp] theorem State.setBytes_out (s : State) (a : Nat) (bs : List TByte) : (s.setBytes a bs).out = s.out := rfl
@[simp] theorem State.setBytes_aer (s : State) (a : Nat) (bs : List TByte) : (s.setBytes a bs).aer = s.aer := rfl
@[simp] theorem State.setBytes_ras (s : State) (a : Nat) (bs : List TByte) : (s.setBytes a bs).ras = s.ras := rfl
@[simp] theorem State.setBytes_rasq (s : State) (a : Nat) (bs : List TByte) : (s.setBytes a bs).rasq = s.rasq := rfl
@[simp] theorem State.setBytes_vfbind0 (s : State) (a : Nat) (bs : List TByte) : (s.setBytes a bs).vfbind0 = s.vfbind0 := rfl
@[simp] theorem State.setBytes_vfbind2 (s : State) (a : Nat) (bs : List TByte) : (s.setBytes a bs).vfbind2 = s.vfbind2 := rfl
@[simp] theorem State.setBytes_fw (s : State) (a : Nat) (bs : List TByte) : (s.setBytes a bs).fw = s.fw := rfl

@[simp] theorem State.clearPoison_cycle (s : State) (a n : Nat) : (s.clearPoison a n).cycle = s.cycle := rfl
@[simp] theorem State.clearPoison_schedule (s : State) (a n : Nat) : (s.clearPoison a n).schedule = s.schedule := rfl
@[simp] theorem State.clearPoison_turn (s : State) (a n : Nat) : (s.clearPoison a n).turn = s.turn := rfl
@[simp] theorem State.clearPoison_cur (s : State) (a n : Nat) : (s.clearPoison a n).cur = s.cur := rfl
@[simp] theorem State.clearPoison_now (s : State) (a n : Nat) : (s.clearPoison a n).now = s.now := rfl
@[simp] theorem State.clearPoison_fresh (s : State) (a n : Nat) : (s.clearPoison a n).fresh = s.fresh := rfl
@[simp] theorem State.clearPoison_mem (s : State) (a n : Nat) : (s.clearPoison a n).mem = s.mem := rfl
@[simp] theorem State.clearPoison_keys (s : State) (a n : Nat) : (s.clearPoison a n).keys = s.keys := rfl
@[simp] theorem State.clearPoison_corrected (s : State) (a n : Nat) : (s.clearPoison a n).corrected = s.corrected := rfl
@[simp] theorem State.clearPoison_units (s : State) (a n : Nat) : (s.clearPoison a n).units = s.units := rfl
@[simp] theorem State.clearPoison_pairs (s : State) (a n : Nat) : (s.clearPoison a n).pairs = s.pairs := rfl
@[simp] theorem State.clearPoison_dies (s : State) (a n : Nat) : (s.clearPoison a n).dies = s.dies := rfl
@[simp] theorem State.clearPoison_toHome (s : State) (a n : Nat) : (s.clearPoison a n).toHome = s.toHome := rfl
@[simp] theorem State.clearPoison_toDie (s : State) (a n : Nat) : (s.clearPoison a n).toDie = s.toDie := rfl
@[simp] theorem State.clearPoison_cmds (s : State) (a n : Nat) : (s.clearPoison a n).cmds = s.cmds := rfl
@[simp] theorem State.clearPoison_acks (s : State) (a n : Nat) : (s.clearPoison a n).acks = s.acks := rfl
@[simp] theorem State.clearPoison_subs (s : State) (a n : Nat) : (s.clearPoison a n).subs = s.subs := rfl
@[simp] theorem State.clearPoison_updates (s : State) (a n : Nat) : (s.clearPoison a n).updates = s.updates := rfl
@[simp] theorem State.clearPoison_jobs (s : State) (a n : Nat) : (s.clearPoison a n).jobs = s.jobs := rfl
@[simp] theorem State.clearPoison_lastRoot (s : State) (a n : Nat) : (s.clearPoison a n).lastRoot = s.lastRoot := rfl
@[simp] theorem State.clearPoison_lastRuns (s : State) (a n : Nat) : (s.clearPoison a n).lastRuns = s.lastRuns := rfl
@[simp] theorem State.clearPoison_p0 (s : State) (a n : Nat) : (s.clearPoison a n).p0 = s.p0 := rfl
@[simp] theorem State.clearPoison_p1 (s : State) (a n : Nat) : (s.clearPoison a n).p1 = s.p1 := rfl
@[simp] theorem State.clearPoison_outstanding (s : State) (a n : Nat) : (s.clearPoison a n).outstanding = s.outstanding := rfl
@[simp] theorem State.clearPoison_out (s : State) (a n : Nat) : (s.clearPoison a n).out = s.out := rfl
@[simp] theorem State.clearPoison_aer (s : State) (a n : Nat) : (s.clearPoison a n).aer = s.aer := rfl
@[simp] theorem State.clearPoison_ras (s : State) (a n : Nat) : (s.clearPoison a n).ras = s.ras := rfl
@[simp] theorem State.clearPoison_rasq (s : State) (a n : Nat) : (s.clearPoison a n).rasq = s.rasq := rfl
@[simp] theorem State.clearPoison_vfbind0 (s : State) (a n : Nat) : (s.clearPoison a n).vfbind0 = s.vfbind0 := rfl
@[simp] theorem State.clearPoison_vfbind2 (s : State) (a n : Nat) : (s.clearPoison a n).vfbind2 = s.vfbind2 := rfl
@[simp] theorem State.clearPoison_fw (s : State) (a n : Nat) : (s.clearPoison a n).fw = s.fw := rfl

@[simp] theorem State.bump_cycle (s : State) : s.bump.cycle = s.cycle := rfl
@[simp] theorem State.bump_schedule (s : State) : s.bump.schedule = s.schedule := rfl
@[simp] theorem State.bump_turn (s : State) : s.bump.turn = s.turn := rfl
@[simp] theorem State.bump_cur (s : State) : s.bump.cur = s.cur := rfl
@[simp] theorem State.bump_now (s : State) : s.bump.now = s.now := rfl
@[simp] theorem State.bump_mem (s : State) : s.bump.mem = s.mem := rfl
@[simp] theorem State.bump_keys (s : State) : s.bump.keys = s.keys := rfl
@[simp] theorem State.bump_poison (s : State) : s.bump.poison = s.poison := rfl
@[simp] theorem State.bump_corrected (s : State) : s.bump.corrected = s.corrected := rfl
@[simp] theorem State.bump_units (s : State) : s.bump.units = s.units := rfl
@[simp] theorem State.bump_pairs (s : State) : s.bump.pairs = s.pairs := rfl
@[simp] theorem State.bump_dies (s : State) : s.bump.dies = s.dies := rfl
@[simp] theorem State.bump_toHome (s : State) : s.bump.toHome = s.toHome := rfl
@[simp] theorem State.bump_toDie (s : State) : s.bump.toDie = s.toDie := rfl
@[simp] theorem State.bump_cmds (s : State) : s.bump.cmds = s.cmds := rfl
@[simp] theorem State.bump_acks (s : State) : s.bump.acks = s.acks := rfl
@[simp] theorem State.bump_subs (s : State) : s.bump.subs = s.subs := rfl
@[simp] theorem State.bump_updates (s : State) : s.bump.updates = s.updates := rfl
@[simp] theorem State.bump_jobs (s : State) : s.bump.jobs = s.jobs := rfl
@[simp] theorem State.bump_lastRoot (s : State) : s.bump.lastRoot = s.lastRoot := rfl
@[simp] theorem State.bump_lastRuns (s : State) : s.bump.lastRuns = s.lastRuns := rfl
@[simp] theorem State.bump_p0 (s : State) : s.bump.p0 = s.p0 := rfl
@[simp] theorem State.bump_p1 (s : State) : s.bump.p1 = s.p1 := rfl
@[simp] theorem State.bump_outstanding (s : State) : s.bump.outstanding = s.outstanding := rfl
@[simp] theorem State.bump_out (s : State) : s.bump.out = s.out := rfl
@[simp] theorem State.bump_aer (s : State) : s.bump.aer = s.aer := rfl
@[simp] theorem State.bump_ras (s : State) : s.bump.ras = s.ras := rfl
@[simp] theorem State.bump_rasq (s : State) : s.bump.rasq = s.rasq := rfl
@[simp] theorem State.bump_vfbind0 (s : State) : s.bump.vfbind0 = s.vfbind0 := rfl
@[simp] theorem State.bump_vfbind2 (s : State) : s.bump.vfbind2 = s.vfbind2 := rfl
@[simp] theorem State.bump_fw (s : State) : s.bump.fw = s.fw := rfl

@[simp] theorem State.emit_cycle (s : State) (o : Out) : (s.emit o).cycle = s.cycle := rfl
@[simp] theorem State.emit_schedule (s : State) (o : Out) : (s.emit o).schedule = s.schedule := rfl
@[simp] theorem State.emit_turn (s : State) (o : Out) : (s.emit o).turn = s.turn := rfl
@[simp] theorem State.emit_cur (s : State) (o : Out) : (s.emit o).cur = s.cur := rfl
@[simp] theorem State.emit_now (s : State) (o : Out) : (s.emit o).now = s.now := rfl
@[simp] theorem State.emit_fresh (s : State) (o : Out) : (s.emit o).fresh = s.fresh := rfl
@[simp] theorem State.emit_mem (s : State) (o : Out) : (s.emit o).mem = s.mem := rfl
@[simp] theorem State.emit_keys (s : State) (o : Out) : (s.emit o).keys = s.keys := rfl
@[simp] theorem State.emit_poison (s : State) (o : Out) : (s.emit o).poison = s.poison := rfl
@[simp] theorem State.emit_corrected (s : State) (o : Out) : (s.emit o).corrected = s.corrected := rfl
@[simp] theorem State.emit_units (s : State) (o : Out) : (s.emit o).units = s.units := rfl
@[simp] theorem State.emit_pairs (s : State) (o : Out) : (s.emit o).pairs = s.pairs := rfl
@[simp] theorem State.emit_dies (s : State) (o : Out) : (s.emit o).dies = s.dies := rfl
@[simp] theorem State.emit_toHome (s : State) (o : Out) : (s.emit o).toHome = s.toHome := rfl
@[simp] theorem State.emit_toDie (s : State) (o : Out) : (s.emit o).toDie = s.toDie := rfl
@[simp] theorem State.emit_cmds (s : State) (o : Out) : (s.emit o).cmds = s.cmds := rfl
@[simp] theorem State.emit_acks (s : State) (o : Out) : (s.emit o).acks = s.acks := rfl
@[simp] theorem State.emit_subs (s : State) (o : Out) : (s.emit o).subs = s.subs := rfl
@[simp] theorem State.emit_updates (s : State) (o : Out) : (s.emit o).updates = s.updates := rfl
@[simp] theorem State.emit_jobs (s : State) (o : Out) : (s.emit o).jobs = s.jobs := rfl
@[simp] theorem State.emit_lastRoot (s : State) (o : Out) : (s.emit o).lastRoot = s.lastRoot := rfl
@[simp] theorem State.emit_lastRuns (s : State) (o : Out) : (s.emit o).lastRuns = s.lastRuns := rfl
@[simp] theorem State.emit_p0 (s : State) (o : Out) : (s.emit o).p0 = s.p0 := rfl
@[simp] theorem State.emit_p1 (s : State) (o : Out) : (s.emit o).p1 = s.p1 := rfl
@[simp] theorem State.emit_outstanding (s : State) (o : Out) : (s.emit o).outstanding = s.outstanding := rfl
@[simp] theorem State.emit_aer (s : State) (o : Out) : (s.emit o).aer = s.aer := rfl
@[simp] theorem State.emit_ras (s : State) (o : Out) : (s.emit o).ras = s.ras := rfl
@[simp] theorem State.emit_rasq (s : State) (o : Out) : (s.emit o).rasq = s.rasq := rfl
@[simp] theorem State.emit_vfbind0 (s : State) (o : Out) : (s.emit o).vfbind0 = s.vfbind0 := rfl
@[simp] theorem State.emit_vfbind2 (s : State) (o : Out) : (s.emit o).vfbind2 = s.vfbind2 := rfl
@[simp] theorem State.emit_fw (s : State) (o : Out) : (s.emit o).fw = s.fw := rfl

@[simp] theorem State.interrupt_cycle (s : State) (f v : Nat) : (s.interrupt f v).cycle = s.cycle := rfl
@[simp] theorem State.interrupt_schedule (s : State) (f v : Nat) : (s.interrupt f v).schedule = s.schedule := rfl
@[simp] theorem State.interrupt_turn (s : State) (f v : Nat) : (s.interrupt f v).turn = s.turn := rfl
@[simp] theorem State.interrupt_cur (s : State) (f v : Nat) : (s.interrupt f v).cur = s.cur := rfl
@[simp] theorem State.interrupt_now (s : State) (f v : Nat) : (s.interrupt f v).now = s.now := rfl
@[simp] theorem State.interrupt_fresh (s : State) (f v : Nat) : (s.interrupt f v).fresh = s.fresh := rfl
@[simp] theorem State.interrupt_mem (s : State) (f v : Nat) : (s.interrupt f v).mem = s.mem := rfl
@[simp] theorem State.interrupt_keys (s : State) (f v : Nat) : (s.interrupt f v).keys = s.keys := rfl
@[simp] theorem State.interrupt_poison (s : State) (f v : Nat) : (s.interrupt f v).poison = s.poison := rfl
@[simp] theorem State.interrupt_corrected (s : State) (f v : Nat) : (s.interrupt f v).corrected = s.corrected := rfl
@[simp] theorem State.interrupt_units (s : State) (f v : Nat) : (s.interrupt f v).units = s.units := rfl
@[simp] theorem State.interrupt_pairs (s : State) (f v : Nat) : (s.interrupt f v).pairs = s.pairs := rfl
@[simp] theorem State.interrupt_dies (s : State) (f v : Nat) : (s.interrupt f v).dies = s.dies := rfl
@[simp] theorem State.interrupt_toHome (s : State) (f v : Nat) : (s.interrupt f v).toHome = s.toHome := rfl
@[simp] theorem State.interrupt_toDie (s : State) (f v : Nat) : (s.interrupt f v).toDie = s.toDie := rfl
@[simp] theorem State.interrupt_cmds (s : State) (f v : Nat) : (s.interrupt f v).cmds = s.cmds := rfl
@[simp] theorem State.interrupt_acks (s : State) (f v : Nat) : (s.interrupt f v).acks = s.acks := rfl
@[simp] theorem State.interrupt_subs (s : State) (f v : Nat) : (s.interrupt f v).subs = s.subs := rfl
@[simp] theorem State.interrupt_updates (s : State) (f v : Nat) : (s.interrupt f v).updates = s.updates := rfl
@[simp] theorem State.interrupt_jobs (s : State) (f v : Nat) : (s.interrupt f v).jobs = s.jobs := rfl
@[simp] theorem State.interrupt_lastRoot (s : State) (f v : Nat) : (s.interrupt f v).lastRoot = s.lastRoot := rfl
@[simp] theorem State.interrupt_lastRuns (s : State) (f v : Nat) : (s.interrupt f v).lastRuns = s.lastRuns := rfl
@[simp] theorem State.interrupt_p0 (s : State) (f v : Nat) : (s.interrupt f v).p0 = s.p0 := rfl
@[simp] theorem State.interrupt_p1 (s : State) (f v : Nat) : (s.interrupt f v).p1 = s.p1 := rfl
@[simp] theorem State.interrupt_outstanding (s : State) (f v : Nat) : (s.interrupt f v).outstanding = s.outstanding := rfl
@[simp] theorem State.interrupt_aer (s : State) (f v : Nat) : (s.interrupt f v).aer = s.aer := rfl
@[simp] theorem State.interrupt_ras (s : State) (f v : Nat) : (s.interrupt f v).ras = s.ras := rfl
@[simp] theorem State.interrupt_rasq (s : State) (f v : Nat) : (s.interrupt f v).rasq = s.rasq := rfl
@[simp] theorem State.interrupt_vfbind0 (s : State) (f v : Nat) : (s.interrupt f v).vfbind0 = s.vfbind0 := rfl
@[simp] theorem State.interrupt_vfbind2 (s : State) (f v : Nat) : (s.interrupt f v).vfbind2 = s.vfbind2 := rfl
@[simp] theorem State.interrupt_fw (s : State) (f v : Nat) : (s.interrupt f v).fw = s.fw := rfl

@[simp] theorem State.rasLog_cycle (s : State) (a k : Nat) : (s.rasLog a k).cycle = s.cycle := rfl
@[simp] theorem State.rasLog_schedule (s : State) (a k : Nat) : (s.rasLog a k).schedule = s.schedule := rfl
@[simp] theorem State.rasLog_turn (s : State) (a k : Nat) : (s.rasLog a k).turn = s.turn := rfl
@[simp] theorem State.rasLog_cur (s : State) (a k : Nat) : (s.rasLog a k).cur = s.cur := rfl
@[simp] theorem State.rasLog_now (s : State) (a k : Nat) : (s.rasLog a k).now = s.now := rfl
@[simp] theorem State.rasLog_fresh (s : State) (a k : Nat) : (s.rasLog a k).fresh = s.fresh := rfl
@[simp] theorem State.rasLog_mem (s : State) (a k : Nat) : (s.rasLog a k).mem = s.mem := rfl
@[simp] theorem State.rasLog_keys (s : State) (a k : Nat) : (s.rasLog a k).keys = s.keys := rfl
@[simp] theorem State.rasLog_poison (s : State) (a k : Nat) : (s.rasLog a k).poison = s.poison := rfl
@[simp] theorem State.rasLog_corrected (s : State) (a k : Nat) : (s.rasLog a k).corrected = s.corrected := rfl
@[simp] theorem State.rasLog_units (s : State) (a k : Nat) : (s.rasLog a k).units = s.units := rfl
@[simp] theorem State.rasLog_pairs (s : State) (a k : Nat) : (s.rasLog a k).pairs = s.pairs := rfl
@[simp] theorem State.rasLog_dies (s : State) (a k : Nat) : (s.rasLog a k).dies = s.dies := rfl
@[simp] theorem State.rasLog_toHome (s : State) (a k : Nat) : (s.rasLog a k).toHome = s.toHome := rfl
@[simp] theorem State.rasLog_toDie (s : State) (a k : Nat) : (s.rasLog a k).toDie = s.toDie := rfl
@[simp] theorem State.rasLog_cmds (s : State) (a k : Nat) : (s.rasLog a k).cmds = s.cmds := rfl
@[simp] theorem State.rasLog_acks (s : State) (a k : Nat) : (s.rasLog a k).acks = s.acks := rfl
@[simp] theorem State.rasLog_subs (s : State) (a k : Nat) : (s.rasLog a k).subs = s.subs := rfl
@[simp] theorem State.rasLog_updates (s : State) (a k : Nat) : (s.rasLog a k).updates = s.updates := rfl
@[simp] theorem State.rasLog_jobs (s : State) (a k : Nat) : (s.rasLog a k).jobs = s.jobs := rfl
@[simp] theorem State.rasLog_lastRoot (s : State) (a k : Nat) : (s.rasLog a k).lastRoot = s.lastRoot := rfl
@[simp] theorem State.rasLog_lastRuns (s : State) (a k : Nat) : (s.rasLog a k).lastRuns = s.lastRuns := rfl
@[simp] theorem State.rasLog_p0 (s : State) (a k : Nat) : (s.rasLog a k).p0 = s.p0 := rfl
@[simp] theorem State.rasLog_p1 (s : State) (a k : Nat) : (s.rasLog a k).p1 = s.p1 := rfl
@[simp] theorem State.rasLog_outstanding (s : State) (a k : Nat) : (s.rasLog a k).outstanding = s.outstanding := rfl
@[simp] theorem State.rasLog_out (s : State) (a k : Nat) : (s.rasLog a k).out = s.out := rfl
@[simp] theorem State.rasLog_aer (s : State) (a k : Nat) : (s.rasLog a k).aer = s.aer := rfl
@[simp] theorem State.rasLog_vfbind0 (s : State) (a k : Nat) : (s.rasLog a k).vfbind0 = s.vfbind0 := rfl
@[simp] theorem State.rasLog_vfbind2 (s : State) (a k : Nat) : (s.rasLog a k).vfbind2 = s.vfbind2 := rfl
@[simp] theorem State.rasLog_fw (s : State) (a k : Nat) : (s.rasLog a k).fw = s.fw := rfl

@[simp] theorem State.modFw_cycle (s : State) (f : Firmware → Firmware) : (s.modFw f).cycle = s.cycle := rfl
@[simp] theorem State.modFw_schedule (s : State) (f : Firmware → Firmware) : (s.modFw f).schedule = s.schedule := rfl
@[simp] theorem State.modFw_turn (s : State) (f : Firmware → Firmware) : (s.modFw f).turn = s.turn := rfl
@[simp] theorem State.modFw_cur (s : State) (f : Firmware → Firmware) : (s.modFw f).cur = s.cur := rfl
@[simp] theorem State.modFw_now (s : State) (f : Firmware → Firmware) : (s.modFw f).now = s.now := rfl
@[simp] theorem State.modFw_fresh (s : State) (f : Firmware → Firmware) : (s.modFw f).fresh = s.fresh := rfl
@[simp] theorem State.modFw_mem (s : State) (f : Firmware → Firmware) : (s.modFw f).mem = s.mem := rfl
@[simp] theorem State.modFw_keys (s : State) (f : Firmware → Firmware) : (s.modFw f).keys = s.keys := rfl
@[simp] theorem State.modFw_poison (s : State) (f : Firmware → Firmware) : (s.modFw f).poison = s.poison := rfl
@[simp] theorem State.modFw_corrected (s : State) (f : Firmware → Firmware) : (s.modFw f).corrected = s.corrected := rfl
@[simp] theorem State.modFw_units (s : State) (f : Firmware → Firmware) : (s.modFw f).units = s.units := rfl
@[simp] theorem State.modFw_pairs (s : State) (f : Firmware → Firmware) : (s.modFw f).pairs = s.pairs := rfl
@[simp] theorem State.modFw_dies (s : State) (f : Firmware → Firmware) : (s.modFw f).dies = s.dies := rfl
@[simp] theorem State.modFw_toHome (s : State) (f : Firmware → Firmware) : (s.modFw f).toHome = s.toHome := rfl
@[simp] theorem State.modFw_toDie (s : State) (f : Firmware → Firmware) : (s.modFw f).toDie = s.toDie := rfl
@[simp] theorem State.modFw_cmds (s : State) (f : Firmware → Firmware) : (s.modFw f).cmds = s.cmds := rfl
@[simp] theorem State.modFw_acks (s : State) (f : Firmware → Firmware) : (s.modFw f).acks = s.acks := rfl
@[simp] theorem State.modFw_subs (s : State) (f : Firmware → Firmware) : (s.modFw f).subs = s.subs := rfl
@[simp] theorem State.modFw_updates (s : State) (f : Firmware → Firmware) : (s.modFw f).updates = s.updates := rfl
@[simp] theorem State.modFw_jobs (s : State) (f : Firmware → Firmware) : (s.modFw f).jobs = s.jobs := rfl
@[simp] theorem State.modFw_lastRoot (s : State) (f : Firmware → Firmware) : (s.modFw f).lastRoot = s.lastRoot := rfl
@[simp] theorem State.modFw_lastRuns (s : State) (f : Firmware → Firmware) : (s.modFw f).lastRuns = s.lastRuns := rfl
@[simp] theorem State.modFw_p0 (s : State) (f : Firmware → Firmware) : (s.modFw f).p0 = s.p0 := rfl
@[simp] theorem State.modFw_p1 (s : State) (f : Firmware → Firmware) : (s.modFw f).p1 = s.p1 := rfl
@[simp] theorem State.modFw_outstanding (s : State) (f : Firmware → Firmware) : (s.modFw f).outstanding = s.outstanding := rfl
@[simp] theorem State.modFw_out (s : State) (f : Firmware → Firmware) : (s.modFw f).out = s.out := rfl
@[simp] theorem State.modFw_aer (s : State) (f : Firmware → Firmware) : (s.modFw f).aer = s.aer := rfl
@[simp] theorem State.modFw_ras (s : State) (f : Firmware → Firmware) : (s.modFw f).ras = s.ras := rfl
@[simp] theorem State.modFw_rasq (s : State) (f : Firmware → Firmware) : (s.modFw f).rasq = s.rasq := rfl
@[simp] theorem State.modFw_vfbind0 (s : State) (f : Firmware → Firmware) : (s.modFw f).vfbind0 = s.vfbind0 := rfl
@[simp] theorem State.modFw_vfbind2 (s : State) (f : Firmware → Firmware) : (s.modFw f).vfbind2 = s.vfbind2 := rfl

/-! ### Ports -/

@[simp] theorem State.setPort_cycle (s : State) (p : Bool) (x : Port) : (s.setPort p x).cycle = s.cycle := by cases p <;> rfl
@[simp] theorem State.setPort_schedule (s : State) (p : Bool) (x : Port) : (s.setPort p x).schedule = s.schedule := by cases p <;> rfl
@[simp] theorem State.setPort_turn (s : State) (p : Bool) (x : Port) : (s.setPort p x).turn = s.turn := by cases p <;> rfl
@[simp] theorem State.setPort_cur (s : State) (p : Bool) (x : Port) : (s.setPort p x).cur = s.cur := by cases p <;> rfl
@[simp] theorem State.setPort_now (s : State) (p : Bool) (x : Port) : (s.setPort p x).now = s.now := by cases p <;> rfl
@[simp] theorem State.setPort_fresh (s : State) (p : Bool) (x : Port) : (s.setPort p x).fresh = s.fresh := by cases p <;> rfl
@[simp] theorem State.setPort_mem (s : State) (p : Bool) (x : Port) : (s.setPort p x).mem = s.mem := by cases p <;> rfl
@[simp] theorem State.setPort_keys (s : State) (p : Bool) (x : Port) : (s.setPort p x).keys = s.keys := by cases p <;> rfl
@[simp] theorem State.setPort_poison (s : State) (p : Bool) (x : Port) : (s.setPort p x).poison = s.poison := by cases p <;> rfl
@[simp] theorem State.setPort_corrected (s : State) (p : Bool) (x : Port) : (s.setPort p x).corrected = s.corrected := by cases p <;> rfl
@[simp] theorem State.setPort_units (s : State) (p : Bool) (x : Port) : (s.setPort p x).units = s.units := by cases p <;> rfl
@[simp] theorem State.setPort_pairs (s : State) (p : Bool) (x : Port) : (s.setPort p x).pairs = s.pairs := by cases p <;> rfl
@[simp] theorem State.setPort_dies (s : State) (p : Bool) (x : Port) : (s.setPort p x).dies = s.dies := by cases p <;> rfl
@[simp] theorem State.setPort_toHome (s : State) (p : Bool) (x : Port) : (s.setPort p x).toHome = s.toHome := by cases p <;> rfl
@[simp] theorem State.setPort_toDie (s : State) (p : Bool) (x : Port) : (s.setPort p x).toDie = s.toDie := by cases p <;> rfl
@[simp] theorem State.setPort_cmds (s : State) (p : Bool) (x : Port) : (s.setPort p x).cmds = s.cmds := by cases p <;> rfl
@[simp] theorem State.setPort_acks (s : State) (p : Bool) (x : Port) : (s.setPort p x).acks = s.acks := by cases p <;> rfl
@[simp] theorem State.setPort_subs (s : State) (p : Bool) (x : Port) : (s.setPort p x).subs = s.subs := by cases p <;> rfl
@[simp] theorem State.setPort_updates (s : State) (p : Bool) (x : Port) : (s.setPort p x).updates = s.updates := by cases p <;> rfl
@[simp] theorem State.setPort_jobs (s : State) (p : Bool) (x : Port) : (s.setPort p x).jobs = s.jobs := by cases p <;> rfl
@[simp] theorem State.setPort_lastRoot (s : State) (p : Bool) (x : Port) : (s.setPort p x).lastRoot = s.lastRoot := by cases p <;> rfl
@[simp] theorem State.setPort_lastRuns (s : State) (p : Bool) (x : Port) : (s.setPort p x).lastRuns = s.lastRuns := by cases p <;> rfl
@[simp] theorem State.setPort_outstanding (s : State) (p : Bool) (x : Port) : (s.setPort p x).outstanding = s.outstanding := by cases p <;> rfl
@[simp] theorem State.setPort_out (s : State) (p : Bool) (x : Port) : (s.setPort p x).out = s.out := by cases p <;> rfl
@[simp] theorem State.setPort_aer (s : State) (p : Bool) (x : Port) : (s.setPort p x).aer = s.aer := by cases p <;> rfl
@[simp] theorem State.setPort_ras (s : State) (p : Bool) (x : Port) : (s.setPort p x).ras = s.ras := by cases p <;> rfl
@[simp] theorem State.setPort_rasq (s : State) (p : Bool) (x : Port) : (s.setPort p x).rasq = s.rasq := by cases p <;> rfl
@[simp] theorem State.setPort_vfbind0 (s : State) (p : Bool) (x : Port) : (s.setPort p x).vfbind0 = s.vfbind0 := by cases p <;> rfl
@[simp] theorem State.setPort_vfbind2 (s : State) (p : Bool) (x : Port) : (s.setPort p x).vfbind2 = s.vfbind2 := by cases p <;> rfl
@[simp] theorem State.setPort_fw (s : State) (p : Bool) (x : Port) : (s.setPort p x).fw = s.fw := by cases p <;> rfl
@[simp] theorem State.setPort_port (s : State) (p : Bool) (x : Port) : (s.setPort p x).port p = x := by cases p <;> rfl
@[simp] theorem State.setPort_other (s : State) (p : Bool) (x : Port) : (s.setPort p x).port (!p) = s.port (!p) := by cases p <;> rfl

/-! ### Changed fields -/

@[simp] theorem State.putUnit_units (s : State) (u : UnitSt) : (s.putUnit u).units = putUnitL u s.units := rfl
@[simp] theorem State.emit_out (s : State) (o : Out) : (s.emit o).out = o :: s.out := rfl
@[simp] theorem State.bump_fresh (s : State) : s.bump.fresh = s.fresh + 1 := rfl
@[simp] theorem State.modFw_fw (s : State) (f : Firmware → Firmware) : (s.modFw f).fw = f s.fw := rfl

/-! ### A unit's parts -/

@[simp] theorem UnitSt.modCtl_key (u : UnitSt) (f : Ctl → Ctl) : (u.modCtl f).key = u.key := rfl
@[simp] theorem UnitSt.modCtl_die (u : UnitSt) (f : Ctl → Ctl) : (u.modCtl f).die = u.die := rfl
@[simp] theorem UnitSt.modCtl_launch (u : UnitSt) (f : Ctl → Ctl) : (u.modCtl f).launch = u.launch := rfl
@[simp] theorem UnitSt.modCtl_ux (u : UnitSt) (f : Ctl → Ctl) : (u.modCtl f).ux = u.ux := rfl
@[simp] theorem UnitSt.modCtl_uy (u : UnitSt) (f : Ctl → Ctl) : (u.modCtl f).uy = u.uy := rfl
@[simp] theorem UnitSt.modCtl_uz (u : UnitSt) (f : Ctl → Ctl) : (u.modCtl f).uz = u.uz := rfl
@[simp] theorem UnitSt.modCtl_checks (u : UnitSt) (f : Ctl → Ctl) : (u.modCtl f).checks = u.checks := rfl
@[simp] theorem UnitSt.modCtl_stamp (u : UnitSt) (f : Ctl → Ctl) : (u.modCtl f).stamp = u.stamp := rfl
@[simp] theorem UnitSt.modCtl_target (u : UnitSt) (f : Ctl → Ctl) : (u.modCtl f).target = u.target := rfl
@[simp] theorem UnitSt.modCtl_place (u : UnitSt) (f : Ctl → Ctl) : (u.modCtl f).place = u.place := rfl
@[simp] theorem UnitSt.modCtl_ever (u : UnitSt) (f : Ctl → Ctl) : (u.modCtl f).ever = u.ever := rfl
@[simp] theorem UnitSt.modCtl_firstDie (u : UnitSt) (f : Ctl → Ctl) : (u.modCtl f).firstDie = u.firstDie := rfl
@[simp] theorem UnitSt.modCtl_claim (u : UnitSt) (f : Ctl → Ctl) : (u.modCtl f).claim = u.claim := rfl
@[simp] theorem UnitSt.modCtl_lastPair (u : UnitSt) (f : Ctl → Ctl) : (u.modCtl f).lastPair = u.lastPair := rfl
@[simp] theorem UnitSt.modCtl_lastSlot (u : UnitSt) (f : Ctl → Ctl) : (u.modCtl f).lastSlot = u.lastSlot := rfl
@[simp] theorem UnitSt.modCtl_resumed (u : UnitSt) (f : Ctl → Ctl) : (u.modCtl f).resumed = u.resumed := rfl
@[simp] theorem UnitSt.modCtl_frozenAt (u : UnitSt) (f : Ctl → Ctl) : (u.modCtl f).frozenAt = u.frozenAt := rfl
@[simp] theorem UnitSt.modCtl_when (u : UnitSt) (f : Ctl → Ctl) : (u.modCtl f).when = u.when := rfl
@[simp] theorem UnitSt.modCtl_base (u : UnitSt) (f : Ctl → Ctl) : (u.modCtl f).base = u.base := rfl
@[simp] theorem UnitSt.modCtl_ctxslot (u : UnitSt) (f : Ctl → Ctl) : (u.modCtl f).ctxslot = u.ctxslot := rfl
@[simp] theorem UnitSt.modCtl_trap (u : UnitSt) (f : Ctl → Ctl) : (u.modCtl f).trap = u.trap := rfl

@[simp] theorem UnitSt.modDat_key (u : UnitSt) (f : Dat → Dat) : (u.modDat f).key = u.key := rfl
@[simp] theorem UnitSt.modDat_die (u : UnitSt) (f : Dat → Dat) : (u.modDat f).die = u.die := rfl
@[simp] theorem UnitSt.modDat_launch (u : UnitSt) (f : Dat → Dat) : (u.modDat f).launch = u.launch := rfl
@[simp] theorem UnitSt.modDat_ux (u : UnitSt) (f : Dat → Dat) : (u.modDat f).ux = u.ux := rfl
@[simp] theorem UnitSt.modDat_uy (u : UnitSt) (f : Dat → Dat) : (u.modDat f).uy = u.uy := rfl
@[simp] theorem UnitSt.modDat_uz (u : UnitSt) (f : Dat → Dat) : (u.modDat f).uz = u.uz := rfl
@[simp] theorem UnitSt.modDat_checks (u : UnitSt) (f : Dat → Dat) : (u.modDat f).checks = u.checks := rfl
@[simp] theorem UnitSt.modDat_stamp (u : UnitSt) (f : Dat → Dat) : (u.modDat f).stamp = u.stamp := rfl
@[simp] theorem UnitSt.modDat_target (u : UnitSt) (f : Dat → Dat) : (u.modDat f).target = u.target := rfl
@[simp] theorem UnitSt.modDat_place (u : UnitSt) (f : Dat → Dat) : (u.modDat f).place = u.place := rfl
@[simp] theorem UnitSt.modDat_ever (u : UnitSt) (f : Dat → Dat) : (u.modDat f).ever = u.ever := rfl
@[simp] theorem UnitSt.modDat_firstDie (u : UnitSt) (f : Dat → Dat) : (u.modDat f).firstDie = u.firstDie := rfl
@[simp] theorem UnitSt.modDat_claim (u : UnitSt) (f : Dat → Dat) : (u.modDat f).claim = u.claim := rfl
@[simp] theorem UnitSt.modDat_lastPair (u : UnitSt) (f : Dat → Dat) : (u.modDat f).lastPair = u.lastPair := rfl
@[simp] theorem UnitSt.modDat_lastSlot (u : UnitSt) (f : Dat → Dat) : (u.modDat f).lastSlot = u.lastSlot := rfl
@[simp] theorem UnitSt.modDat_resumed (u : UnitSt) (f : Dat → Dat) : (u.modDat f).resumed = u.resumed := rfl
@[simp] theorem UnitSt.modDat_frozenAt (u : UnitSt) (f : Dat → Dat) : (u.modDat f).frozenAt = u.frozenAt := rfl
@[simp] theorem UnitSt.modDat_when (u : UnitSt) (f : Dat → Dat) : (u.modDat f).when = u.when := rfl
@[simp] theorem UnitSt.modDat_base (u : UnitSt) (f : Dat → Dat) : (u.modDat f).base = u.base := rfl
@[simp] theorem UnitSt.modDat_ctxslot (u : UnitSt) (f : Dat → Dat) : (u.modDat f).ctxslot = u.ctxslot := rfl
@[simp] theorem UnitSt.modDat_trap (u : UnitSt) (f : Dat → Dat) : (u.modDat f).trap = u.trap := rfl

@[simp] theorem UnitSt.modCtx_key (u : UnitSt) (f : Ctx → Ctx) : (u.modCtx f).key = u.key := rfl
@[simp] theorem UnitSt.modCtx_die (u : UnitSt) (f : Ctx → Ctx) : (u.modCtx f).die = u.die := rfl
@[simp] theorem UnitSt.modCtx_launch (u : UnitSt) (f : Ctx → Ctx) : (u.modCtx f).launch = u.launch := rfl
@[simp] theorem UnitSt.modCtx_ux (u : UnitSt) (f : Ctx → Ctx) : (u.modCtx f).ux = u.ux := rfl
@[simp] theorem UnitSt.modCtx_uy (u : UnitSt) (f : Ctx → Ctx) : (u.modCtx f).uy = u.uy := rfl
@[simp] theorem UnitSt.modCtx_uz (u : UnitSt) (f : Ctx → Ctx) : (u.modCtx f).uz = u.uz := rfl
@[simp] theorem UnitSt.modCtx_checks (u : UnitSt) (f : Ctx → Ctx) : (u.modCtx f).checks = u.checks := rfl
@[simp] theorem UnitSt.modCtx_stamp (u : UnitSt) (f : Ctx → Ctx) : (u.modCtx f).stamp = u.stamp := rfl
@[simp] theorem UnitSt.modCtx_target (u : UnitSt) (f : Ctx → Ctx) : (u.modCtx f).target = u.target := rfl
@[simp] theorem UnitSt.modCtx_place (u : UnitSt) (f : Ctx → Ctx) : (u.modCtx f).place = u.place := rfl
@[simp] theorem UnitSt.modCtx_ever (u : UnitSt) (f : Ctx → Ctx) : (u.modCtx f).ever = u.ever := rfl
@[simp] theorem UnitSt.modCtx_firstDie (u : UnitSt) (f : Ctx → Ctx) : (u.modCtx f).firstDie = u.firstDie := rfl
@[simp] theorem UnitSt.modCtx_claim (u : UnitSt) (f : Ctx → Ctx) : (u.modCtx f).claim = u.claim := rfl
@[simp] theorem UnitSt.modCtx_lastPair (u : UnitSt) (f : Ctx → Ctx) : (u.modCtx f).lastPair = u.lastPair := rfl
@[simp] theorem UnitSt.modCtx_lastSlot (u : UnitSt) (f : Ctx → Ctx) : (u.modCtx f).lastSlot = u.lastSlot := rfl
@[simp] theorem UnitSt.modCtx_resumed (u : UnitSt) (f : Ctx → Ctx) : (u.modCtx f).resumed = u.resumed := rfl
@[simp] theorem UnitSt.modCtx_frozenAt (u : UnitSt) (f : Ctx → Ctx) : (u.modCtx f).frozenAt = u.frozenAt := rfl
@[simp] theorem UnitSt.modCtx_when (u : UnitSt) (f : Ctx → Ctx) : (u.modCtx f).when = u.when := rfl
@[simp] theorem UnitSt.modCtx_base (u : UnitSt) (f : Ctx → Ctx) : (u.modCtx f).base = u.base := rfl
@[simp] theorem UnitSt.modCtx_ctxslot (u : UnitSt) (f : Ctx → Ctx) : (u.modCtx f).ctxslot = u.ctxslot := rfl
@[simp] theorem UnitSt.modCtx_trap (u : UnitSt) (f : Ctx → Ctx) : (u.modCtx f).trap = u.trap := rfl

@[simp] theorem UnitSt.stamped_key (u : UnitSt) (n : Nat) : (u.stamped n).key = u.key := rfl
@[simp] theorem UnitSt.stamped_die (u : UnitSt) (n : Nat) : (u.stamped n).die = u.die := rfl
@[simp] theorem UnitSt.stamped_launch (u : UnitSt) (n : Nat) : (u.stamped n).launch = u.launch := rfl
@[simp] theorem UnitSt.stamped_ux (u : UnitSt) (n : Nat) : (u.stamped n).ux = u.ux := rfl
@[simp] theorem UnitSt.stamped_uy (u : UnitSt) (n : Nat) : (u.stamped n).uy = u.uy := rfl
@[simp] theorem UnitSt.stamped_uz (u : UnitSt) (n : Nat) : (u.stamped n).uz = u.uz := rfl
@[simp] theorem UnitSt.stamped_checks (u : UnitSt) (n : Nat) : (u.stamped n).checks = u.checks := rfl
@[simp] theorem UnitSt.stamped_stamp (u : UnitSt) (n : Nat) : (u.stamped n).stamp = u.stamp := rfl
@[simp] theorem UnitSt.stamped_target (u : UnitSt) (n : Nat) : (u.stamped n).target = u.target := rfl
@[simp] theorem UnitSt.stamped_place (u : UnitSt) (n : Nat) : (u.stamped n).place = u.place := rfl
@[simp] theorem UnitSt.stamped_ever (u : UnitSt) (n : Nat) : (u.stamped n).ever = u.ever := rfl
@[simp] theorem UnitSt.stamped_firstDie (u : UnitSt) (n : Nat) : (u.stamped n).firstDie = u.firstDie := rfl
@[simp] theorem UnitSt.stamped_claim (u : UnitSt) (n : Nat) : (u.stamped n).claim = u.claim := rfl
@[simp] theorem UnitSt.stamped_lastPair (u : UnitSt) (n : Nat) : (u.stamped n).lastPair = u.lastPair := rfl
@[simp] theorem UnitSt.stamped_lastSlot (u : UnitSt) (n : Nat) : (u.stamped n).lastSlot = u.lastSlot := rfl
@[simp] theorem UnitSt.stamped_resumed (u : UnitSt) (n : Nat) : (u.stamped n).resumed = u.resumed := rfl
@[simp] theorem UnitSt.stamped_frozenAt (u : UnitSt) (n : Nat) : (u.stamped n).frozenAt = u.frozenAt := rfl
@[simp] theorem UnitSt.stamped_when (u : UnitSt) (n : Nat) : (u.stamped n).when = u.when := rfl
@[simp] theorem UnitSt.stamped_base (u : UnitSt) (n : Nat) : (u.stamped n).base = u.base := rfl
@[simp] theorem UnitSt.stamped_ctxslot (u : UnitSt) (n : Nat) : (u.stamped n).ctxslot = u.ctxslot := rfl
@[simp] theorem UnitSt.stamped_trap (u : UnitSt) (n : Nat) : (u.stamped n).trap = u.trap := rfl

@[simp] theorem UnitSt.setC_key (u : UnitSt) (i : BitVec 6) (x : Word) : (u.setC i x).key = u.key := rfl
@[simp] theorem UnitSt.setC_die (u : UnitSt) (i : BitVec 6) (x : Word) : (u.setC i x).die = u.die := rfl
@[simp] theorem UnitSt.setC_launch (u : UnitSt) (i : BitVec 6) (x : Word) : (u.setC i x).launch = u.launch := rfl
@[simp] theorem UnitSt.setC_ux (u : UnitSt) (i : BitVec 6) (x : Word) : (u.setC i x).ux = u.ux := rfl
@[simp] theorem UnitSt.setC_uy (u : UnitSt) (i : BitVec 6) (x : Word) : (u.setC i x).uy = u.uy := rfl
@[simp] theorem UnitSt.setC_uz (u : UnitSt) (i : BitVec 6) (x : Word) : (u.setC i x).uz = u.uz := rfl
@[simp] theorem UnitSt.setC_checks (u : UnitSt) (i : BitVec 6) (x : Word) : (u.setC i x).checks = u.checks := rfl
@[simp] theorem UnitSt.setC_stamp (u : UnitSt) (i : BitVec 6) (x : Word) : (u.setC i x).stamp = u.stamp := rfl
@[simp] theorem UnitSt.setC_target (u : UnitSt) (i : BitVec 6) (x : Word) : (u.setC i x).target = u.target := rfl
@[simp] theorem UnitSt.setC_place (u : UnitSt) (i : BitVec 6) (x : Word) : (u.setC i x).place = u.place := rfl
@[simp] theorem UnitSt.setC_ever (u : UnitSt) (i : BitVec 6) (x : Word) : (u.setC i x).ever = u.ever := rfl
@[simp] theorem UnitSt.setC_firstDie (u : UnitSt) (i : BitVec 6) (x : Word) : (u.setC i x).firstDie = u.firstDie := rfl
@[simp] theorem UnitSt.setC_claim (u : UnitSt) (i : BitVec 6) (x : Word) : (u.setC i x).claim = u.claim := rfl
@[simp] theorem UnitSt.setC_lastPair (u : UnitSt) (i : BitVec 6) (x : Word) : (u.setC i x).lastPair = u.lastPair := rfl
@[simp] theorem UnitSt.setC_lastSlot (u : UnitSt) (i : BitVec 6) (x : Word) : (u.setC i x).lastSlot = u.lastSlot := rfl
@[simp] theorem UnitSt.setC_resumed (u : UnitSt) (i : BitVec 6) (x : Word) : (u.setC i x).resumed = u.resumed := rfl
@[simp] theorem UnitSt.setC_frozenAt (u : UnitSt) (i : BitVec 6) (x : Word) : (u.setC i x).frozenAt = u.frozenAt := rfl
@[simp] theorem UnitSt.setC_when (u : UnitSt) (i : BitVec 6) (x : Word) : (u.setC i x).when = u.when := rfl
@[simp] theorem UnitSt.setC_base (u : UnitSt) (i : BitVec 6) (x : Word) : (u.setC i x).base = u.base := rfl
@[simp] theorem UnitSt.setC_ctxslot (u : UnitSt) (i : BitVec 6) (x : Word) : (u.setC i x).ctxslot = u.ctxslot := rfl
@[simp] theorem UnitSt.setC_trap (u : UnitSt) (i : BitVec 6) (x : Word) : (u.setC i x).trap = u.trap := rfl

@[simp] theorem UnitSt.modCtl_ctl (u : UnitSt) (f : Ctl → Ctl) : (u.modCtl f).ctx.ctl = f u.ctx.ctl := rfl
@[simp] theorem UnitSt.modCtl_dat (u : UnitSt) (f : Ctl → Ctl) : (u.modCtl f).ctx.dat = u.ctx.dat := rfl
@[simp] theorem UnitSt.modDat_ctl (u : UnitSt) (f : Dat → Dat) : (u.modDat f).ctx.ctl = u.ctx.ctl := rfl
@[simp] theorem UnitSt.modDat_dat (u : UnitSt) (f : Dat → Dat) : (u.modDat f).ctx.dat = f u.ctx.dat := rfl
@[simp] theorem UnitSt.modCtx_ctx (u : UnitSt) (f : Ctx → Ctx) : (u.modCtx f).ctx = f u.ctx := rfl
@[simp] theorem UnitSt.setC_dat (u : UnitSt) (i : BitVec 6) (x : Word) : (u.setC i x).ctx.dat = u.ctx.dat := rfl
@[simp] theorem UnitSt.stamped_ctl (u : UnitSt) (n : Nat) : (u.stamped n).ctx.ctl = u.ctx.ctl := rfl
@[simp] theorem UnitSt.stamped_dat (u : UnitSt) (n : Nat) : (u.stamped n).ctx.dat = u.ctx.dat := rfl

/-! ### Registers of the control slice (R236) -/

/-- c0 reads zero, whatever has been written. -/
@[simp] theorem Ctl.getC_zero (c : Ctl) : c.getC 0 = 0 := by simp [Ctl.getC]

/-- A write to c0 is discarded. -/
@[simp] theorem Ctl.setC_zero (c : Ctl) (x : Word) : c.setC 0 x = c := by simp [Ctl.setC]

/-- Reading the register written. -/
theorem Ctl.getC_setC_same (c : Ctl) (i : BitVec 6) (x : Word) (h : i ≠ 0) : (c.setC i x).getC i = x := by
  unfold Ctl.getC Ctl.setC
  rw [if_neg h, if_neg h]
  exact Vector.getElem_set_self i.isLt

/-- Reading another register. -/
theorem Ctl.getC_setC_other (c : Ctl) (i k : BitVec 6) (x : Word) (h : k ≠ i) : (c.setC i x).getC k = c.getC k := by
  have hn : i.toNat ≠ k.toNat := fun e => h (BitVec.eq_of_toNat_eq e.symm)
  by_cases hi : i = 0
  · simp [Ctl.setC, hi]
  · by_cases hk : k = 0
    · simp [Ctl.getC, hk]
    · unfold Ctl.getC Ctl.setC
      rw [if_neg hi, if_neg hk, if_neg hk]
      exact Vector.getElem_set_ne i.isLt k.isLt hn

/-! ### Finding units -/

theorem findUnit_putUnitL_other (u : UnitSt) (k : UKey) (h : k ≠ u.key) (l : List UnitSt) :
    (putUnitL u l).find? (fun x => x.key == k) = l.find? (fun x => x.key == k) := by
  induction l with
  | nil => rfl
  | cons x xs ih =>
    unfold putUnitL
    split
    · rename_i hx
      have h1 : (u.key == k) = false := by simpa using fun e => h e.symm
      have h2 : (x.key == k) = false := by rw [hx]; exact h1
      simp [h1, h2]
    · simp [List.find?_cons, ih]

/-- An update of one unit leaves the others as they are. -/
theorem State.putUnit_findUnit_other (s : State) (u : UnitSt) (k : UKey) (h : k ≠ u.key) :
    (s.putUnit u).findUnit k = s.findUnit k := findUnit_putUnitL_other u k h s.units

theorem findUnit_putUnitL_same (u v : UnitSt) (l : List UnitSt) (h : l.find? (fun x => x.key == u.key) = some v) :
    (putUnitL u l).find? (fun x => x.key == u.key) = some u := by
  induction l with
  | nil => simp at h
  | cons x xs ih =>
    unfold putUnitL
    split
    · simp
    · rename_i hx
      have h2 : (x.key == u.key) = false := by simpa using hx
      simp only [List.find?_cons, h2] at h ⊢
      exact ih h

/-- The unit put in place is found. -/
theorem State.putUnit_findUnit_same (s : State) (u v : UnitSt) (h : s.findUnit u.key = some v) :
    (s.putUnit u).findUnit u.key = some u := findUnit_putUnitL_same u v s.units h

/-- A unit that is found has the key that was asked for. -/
theorem State.findUnit_key (s : State) (k : UKey) (u : UnitSt) (h : s.findUnit k = some u) : u.key = k := by
  simpa using List.find?_some h

end Sys2Proof.Machine
end

