-- ==== Sys2Proof/Laws/Memory.lean ====
section
/-!
SUPPORT. Sparse lists in canonical form, and memory on them: every operation keeps the form, a read after a write gives the value
written, and a write leaves every other address alone.
-/

namespace Sys2Proof.Machine

section Cells

variable {α : Type} [DecidableEq α]

theorem cellsWf_mono (d : α) (l : List (Nat × α)) : ∀ lo lo', lo' ≤ lo → cellsWf d lo l = true → cellsWf d lo' l = true := by
  intro lo lo' h hw
  cases l with
  | nil => rfl
  | cons c r =>
    obtain ⟨k, v⟩ := c
    simp only [cellsWf, Bool.and_eq_true, decide_eq_true_eq] at hw ⊢
    exact ⟨⟨le_trans h hw.1.1, hw.1.2⟩, hw.2⟩

/-- Below the lowest key every address reads as the default. -/
theorem cellGet_below (d : α) (l : List (Nat × α)) : ∀ lo a, cellsWf d lo l = true → a < lo → cellGet d l a = d := by
  intro lo a hw h
  cases l with
  | nil => rfl
  | cons c r =>
    obtain ⟨k, v⟩ := c
    simp only [cellsWf, Bool.and_eq_true, decide_eq_true_eq] at hw
    have h1 : a ≠ k := by omega
    have h2 : a < k := by omega
    simp [cellGet, h1, h2]

theorem cellPut_wf (d : α) (l : List (Nat × α)) (a : Nat) (v : α) :
    ∀ lo, lo ≤ a → cellsWf d lo l = true → cellsWf d lo (cellPut d l a v) = true := by
  induction l with
  | nil => intro lo h _; unfold cellPut; split <;> simp_all [cellsWf]
  | cons c r ih =>
    obtain ⟨k, x⟩ := c
    intro lo h hw
    simp only [cellsWf, Bool.and_eq_true, decide_eq_true_eq] at hw
    unfold cellPut
    split
    · rename_i hk
      subst hk
      split
      · exact cellsWf_mono d r _ _ (by omega) hw.2
      · simp_all [cellsWf]
    · split
      · rename_i h1 h2
        split
        · simp only [cellsWf, Bool.and_eq_true, decide_eq_true_eq]; exact hw
        · rename_i hv
          simp only [cellsWf, Bool.and_eq_true, decide_eq_true_eq]
          exact ⟨⟨h, hv⟩, ⟨by omega, hw.1.2⟩, hw.2⟩
      · rename_i h1 h2
        simp only [cellsWf, Bool.and_eq_true, decide_eq_true_eq]
        exact ⟨hw.1, ih (k + 1) (by omega) hw.2⟩

theorem cellGet_cellPut_same (d : α) (l : List (Nat × α)) (a : Nat) (v : α) :
    ∀ lo, cellsWf d lo l = true → cellGet d (cellPut d l a v) a = v := by
  induction l with
  | nil => intro lo _; unfold cellPut; split <;> simp_all [cellGet]
  | cons c r ih =>
    obtain ⟨k, x⟩ := c
    intro lo hw
    simp only [cellsWf, Bool.and_eq_true, decide_eq_true_eq] at hw
    unfold cellPut
    split
    · rename_i hk
      subst hk
      split
      · rename_i hv
        rw [hv]
        exact cellGet_below d r _ _ hw.2 (by omega)
      · simp [cellGet]
    · split
      · rename_i h1 h2
        split
        · rename_i hv
          simp [cellGet, h1, h2, hv]
        · simp [cellGet]
      · rename_i h1 h2
        simp only [cellGet, if_neg h1, if_neg h2]
        exact ih _ hw.2

theorem cellGet_cellPut_other (d : α) (l : List (Nat × α)) (a b : Nat) (v : α) (hb : b ≠ a) :
    ∀ lo, cellsWf d lo l = true → cellGet d (cellPut d l a v) b = cellGet d l b := by
  induction l with
  | nil =>
    intro lo _
    unfold cellPut
    split <;> simp [cellGet, hb]
  | cons c r ih =>
    obtain ⟨k, x⟩ := c
    intro lo hw
    simp only [cellsWf, Bool.and_eq_true, decide_eq_true_eq] at hw
    unfold cellPut
    split
    · rename_i hk
      subst hk
      split
      · simp only [cellGet, if_neg hb]
        split
        · exact cellGet_below d r _ _ hw.2 (by omega)
        · rfl
      · simp only [cellGet, if_neg hb]
    · split
      · rename_i h1 h2
        split
        · rfl
        · simp only [cellGet, if_neg hb]
          by_cases hba : b < a
          · have e1 : b ≠ k := by omega
            have e2 : b < k := by omega
            simp [hba, e1, e2]
          · simp [hba]
      · simp only [cellGet]
        rw [ih _ hw.2]

theorem cellsWf_filter (d : α) (p : Nat × α → Bool) (l : List (Nat × α)) :
    ∀ lo, cellsWf d lo l = true → cellsWf d lo (l.filter p) = true := by
  induction l with
  | nil => intro lo _; rfl
  | cons c r ih =>
    obtain ⟨k, x⟩ := c
    intro lo hw
    simp only [cellsWf, Bool.and_eq_true, decide_eq_true_eq] at hw
    rw [List.filter_cons]
    split
    · simp only [cellsWf, Bool.and_eq_true, decide_eq_true_eq]
      exact ⟨hw.1, ih _ hw.2⟩
    · exact cellsWf_mono d _ _ _ (by omega) (ih _ hw.2)

theorem cellsWf_append (d : α) (m : Nat) (l₂ : List (Nat × α)) (h₂ : cellsWf d m l₂ = true) (l₁ : List (Nat × α)) :
    ∀ lo, lo ≤ m → cellsWf d lo l₁ = true → (∀ c ∈ l₁, c.1 < m) → cellsWf d lo (l₁ ++ l₂) = true := by
  induction l₁ with
  | nil => intro lo hm _ _; exact cellsWf_mono d l₂ _ _ hm h₂
  | cons c r ih =>
    obtain ⟨k, x⟩ := c
    intro lo hm hw hk
    simp only [cellsWf, Bool.and_eq_true, decide_eq_true_eq, List.cons_append] at hw ⊢
    exact ⟨hw.1, ih (k + 1) (hk (k, x) (by simp)) hw.2 (fun c hc => hk c (by simp [hc]))⟩

theorem cellGet_append (d : α) (m : Nat) (l₂ : List (Nat × α)) (h₂ : cellsWf d m l₂ = true) (l₁ : List (Nat × α)) (b : Nat) :
    (∀ c ∈ l₁, c.1 < m) → cellGet d (l₁ ++ l₂) b = if b < m then cellGet d l₁ b else cellGet d l₂ b := by
  induction l₁ with
  | nil =>
    intro _
    split
    · rename_i hb; exact cellGet_below d l₂ _ _ h₂ hb
    · rfl
  | cons c r ih =>
    obtain ⟨k, x⟩ := c
    intro hk
    have hkm : k < m := hk (k, x) (by simp)
    rw [List.cons_append]
    simp only [cellGet]
    rw [ih (fun c hc => hk c (by simp [hc]))]
    by_cases hb : b < m
    · simp [hb]
    · have e1 : b ≠ k := by omega
      have e2 : ¬ b < k := by omega
      simp [hb, e1, e2]

theorem cellsWf_takeWhile (d : α) (p : Nat × α → Bool) (l : List (Nat × α)) :
    ∀ lo, cellsWf d lo l = true → cellsWf d lo (l.takeWhile p) = true := by
  induction l with
  | nil => intro lo _; rfl
  | cons c r ih =>
    obtain ⟨k, x⟩ := c
    intro lo hw
    simp only [cellsWf, Bool.and_eq_true, decide_eq_true_eq] at hw
    rw [List.takeWhile_cons]
    split
    · simp only [cellsWf, Bool.and_eq_true, decide_eq_true_eq]
      exact ⟨hw.1, ih _ hw.2⟩
    · rfl

theorem cellsWf_dropWhile (d : α) (n : Nat) (l : List (Nat × α)) :
    ∀ lo, cellsWf d lo l = true → cellsWf d (max lo n) (l.dropWhile (fun c => decide (c.1 < n))) = true := by
  induction l with
  | nil => intro lo _; rfl
  | cons c r ih =>
    obtain ⟨k, x⟩ := c
    intro lo hw
    simp only [cellsWf, Bool.and_eq_true, decide_eq_true_eq] at hw
    rw [List.dropWhile_cons]
    split
    · rename_i hk
      simp only [decide_eq_true_eq] at hk
      exact cellsWf_mono d _ _ _ (by omega) (ih _ hw.2)
    · rename_i hk
      simp only [decide_eq_true_eq] at hk
      simp only [cellsWf, Bool.and_eq_true, decide_eq_true_eq]
      exact ⟨⟨by omega, hw.1.2⟩, hw.2⟩

theorem cellGet_takeWhile (d : α) (n b : Nat) (hb : b < n) (l : List (Nat × α)) :
    ∀ lo, cellsWf d lo l = true → cellGet d (l.takeWhile (fun c => decide (c.1 < n))) b = cellGet d l b := by
  induction l with
  | nil => intro lo _; rfl
  | cons c r ih =>
    obtain ⟨k, x⟩ := c
    intro lo hw
    simp only [cellsWf, Bool.and_eq_true, decide_eq_true_eq] at hw
    rw [List.takeWhile_cons]
    split
    · simp only [cellGet]; rw [ih _ hw.2]
    · rename_i hk
      simp only [decide_eq_true_eq] at hk
      have e1 : b ≠ k := by omega
      have e2 : b < k := by omega
      simp [cellGet, e1, e2]

omit [DecidableEq α] in
theorem cellGet_dropWhile (d : α) (n b : Nat) (hb : n ≤ b) (l : List (Nat × α)) :
    cellGet d (l.dropWhile (fun c => decide (c.1 < n))) b = cellGet d l b := by
  induction l with
  | nil => rfl
  | cons c r ih =>
    obtain ⟨k, x⟩ := c
    rw [List.dropWhile_cons]
    split
    · rename_i hk
      simp only [decide_eq_true_eq] at hk
      have e1 : b ≠ k := by omega
      have e2 : ¬ b < k := by omega
      simp only [cellGet, if_neg e1, if_neg e2]
      exact ih
    · rfl

theorem listed_keys (d : α) (vs : List α) : ∀ a, ∀ c ∈ listed d a vs, a ≤ c.1 ∧ c.1 < a + vs.length := by
  induction vs with
  | nil => intro a c hc; simp [listed] at hc
  | cons v vs ih =>
    intro a c hc
    unfold listed at hc
    split at hc
    · have := ih (a + 1) c hc; simp only [List.length_cons]; omega
    · rw [List.mem_cons] at hc
      rcases hc with hc | hc
      · subst hc; simp only [List.length_cons]; omega
      · have := ih (a + 1) c hc; simp only [List.length_cons]; omega

theorem listed_wf (d : α) (vs : List α) : ∀ a, cellsWf d a (listed d a vs) = true := by
  induction vs with
  | nil => intro a; rfl
  | cons v vs ih =>
    intro a
    unfold listed
    split
    · exact cellsWf_mono d _ _ _ (by omega) (ih (a + 1))
    · rename_i hv
      simp only [cellsWf, Bool.and_eq_true, decide_eq_true_eq]
      exact ⟨⟨le_refl a, hv⟩, ih (a + 1)⟩

theorem cellGet_listed (d : α) (vs : List α) : ∀ a b, a ≤ b → cellGet d (listed d a vs) b = vs.getD (b - a) d := by
  induction vs with
  | nil => intro a b _; simp [listed, cellGet]
  | cons v vs ih =>
    intro a b hb
    unfold listed
    by_cases hba : b = a
    · subst hba
      split
      · rename_i hv
        rw [cellGet_below d _ (b + 1) b (listed_wf d vs (b + 1)) (by omega)]
        simp [hv]
      · simp [cellGet]
    · have e : b - a = (b - (a + 1)) + 1 := by omega
      have e2 : ¬ b < a := by omega
      split
      · rw [ih (a + 1) b (by omega), e]; simp
      · simp only [cellGet, if_neg hba, if_neg e2]
        rw [ih (a + 1) b (by omega), e]; simp

omit [DecidableEq α] in
theorem takeWhile_keys (n : Nat) (l : List (Nat × α)) : ∀ c ∈ l.takeWhile (fun c => decide (c.1 < n)), c.1 < n := by
  intro c hc
  simpa using List.mem_takeWhile_imp hc

/-- A write of a range keeps the form. -/
theorem cellPutRange_wf (d : α) (l : List (Nat × α)) (a : Nat) (vs : List α) (hw : cellsWf d 0 l = true) :
    cellsWf d 0 (cellPutRange d l a vs) = true := by
  unfold cellPutRange
  rw [List.append_assoc]
  refine cellsWf_append d a _ ?_ _ 0 (Nat.zero_le a) (cellsWf_takeWhile d _ l 0 hw) (takeWhile_keys a l)
  refine cellsWf_append d (a + vs.length) _ ?_ _ a (by omega) (listed_wf d vs a) (fun c hc => (listed_keys d vs a c hc).2)
  exact cellsWf_mono d _ _ _ (by omega) (cellsWf_dropWhile d (a + vs.length) _ _ (cellsWf_dropWhile d a l 0 hw))

/-- What a write of a range gives at each address. -/
theorem cellGet_cellPutRange (d : α) (l : List (Nat × α)) (a : Nat) (vs : List α) (b : Nat) (hw : cellsWf d 0 l = true) :
    cellGet d (cellPutRange d l a vs) b = if a ≤ b ∧ b < a + vs.length then vs.getD (b - a) d else cellGet d l b := by
  have h3 := cellsWf_mono d _ _ (a + vs.length) (by omega) (cellsWf_dropWhile d (a + vs.length) _ _ (cellsWf_dropWhile d a l 0 hw))
  have h23 := cellsWf_append d (a + vs.length) _ h3 _ a (by omega) (listed_wf d vs a) (fun c hc => (listed_keys d vs a c hc).2)
  unfold cellPutRange
  rw [List.append_assoc, cellGet_append d a _ h23 _ b (takeWhile_keys a l),
    cellGet_append d (a + vs.length) _ h3 _ b (fun c hc => (listed_keys d vs a c hc).2)]
  by_cases h1 : b < a
  · have e : ¬ (a ≤ b ∧ b < a + vs.length) := by omega
    rw [if_pos h1, if_neg e]
    exact cellGet_takeWhile d a b h1 l 0 hw
  · by_cases h2 : b < a + vs.length
    · have e : a ≤ b ∧ b < a + vs.length := by omega
      rw [if_neg h1, if_pos h2, if_pos e]
      exact cellGet_listed d vs a b e.1
    · have e : ¬ (a ≤ b ∧ b < a + vs.length) := by omega
      rw [if_neg h1, if_neg h2, if_neg e, cellGet_dropWhile d _ b (by omega), cellGet_dropWhile d _ b (by omega)]

end Cells

/-! ### Memory -/

theorem State.memWf_iff (s : State) : s.memWf = true ↔ cellsWf 0 0 s.mem = true ∧ cellsWf 0 0 s.keys = true := by
  simp [State.memWf, Memory.wf]

/-- Memory right after reset has the form. -/
theorem State.reset_memWf : State.reset.memWf = true := rfl

theorem State.setByte_memWf (s : State) (a : Nat) (b : TByte) (h : s.memWf = true) : (s.setByte a b).memWf = true := by
  rw [State.memWf_iff] at h ⊢
  exact ⟨cellPut_wf 0 _ a _ 0 (Nat.zero_le a) h.1, cellPut_wf 0 _ a _ 0 (Nat.zero_le a) h.2⟩

theorem State.setBytes_memWf (s : State) (a : Nat) (bs : List TByte) (h : s.memWf = true) : (s.setBytes a bs).memWf = true := by
  rw [State.memWf_iff] at h ⊢
  exact ⟨cellPutRange_wf 0 _ a _ h.1, cellPutRange_wf 0 _ a _ h.2⟩

theorem State.storeBytes_memWf (s : State) (a : Nat) (bs : List TByte) (h : s.memWf = true) : (s.storeBytes a bs).memWf = true := by
  unfold State.storeBytes
  dsimp only
  split <;> exact State.setBytes_memWf _ _ _ h

theorem State.clearPoison_memWf (s : State) (a n : Nat) (h : s.memWf = true) : (s.clearPoison a n).memWf = true := h

theorem State.zeroRange_memWf (s : State) (a n : Nat) (h : s.memWf = true) : (s.zeroRange a n).memWf = true := by
  rw [State.memWf_iff] at h ⊢
  exact ⟨cellsWf_filter 0 _ _ 0 h.1, cellsWf_filter 0 _ _ 0 h.2⟩

theorem State.writeRaw_memWf (s t : State) (a : Nat) (bs : List TByte) (h : s.memWf = true) (e : s.writeRaw a bs = some t) :
    t.memWf = true := by
  unfold State.writeRaw at e
  split at e
  · exact absurd e (by simp)
  · injection e with e
    subst e
    exact State.storeBytes_memWf _ _ _ h

/-- The byte written is the byte read, without a mark. -/
theorem State.byteAt_setByte_same (s : State) (a : Nat) (b : TByte) (h : s.memWf = true) : (s.setByte a b).byteAt a = { b with bad := false } := by
  rw [State.memWf_iff] at h
  show (⟨cellGet 0 (cellPut 0 s.mem a b.v) a, cellGet 0 (cellPut 0 s.keys a b.key) a, false⟩ : TByte) = _
  rw [cellGet_cellPut_same 0 _ a _ 0 h.1, cellGet_cellPut_same 0 _ a _ 0 h.2]

/-- A write leaves every other byte alone. -/
theorem State.byteAt_setByte_other (s : State) (a b : Nat) (x : TByte) (h : s.memWf = true) (hb : b ≠ a) :
    (s.setByte a x).byteAt b = s.byteAt b := by
  rw [State.memWf_iff] at h
  show (⟨cellGet 0 (cellPut 0 s.mem a x.v) b, cellGet 0 (cellPut 0 s.keys a x.key) b, false⟩ : TByte) = s.byteAt b
  rw [cellGet_cellPut_other 0 _ a b _ hb 0 h.1, cellGet_cellPut_other 0 _ a b _ hb 0 h.2]
  rfl

/-- A write of a range leaves every byte outside it alone. -/
theorem State.byteAt_setBytes_other (s : State) (a b : Nat) (bs : List TByte) (h : s.memWf = true)
    (hb : ¬ (a ≤ b ∧ b < a + bs.length)) : (s.setBytes a bs).byteAt b = s.byteAt b := by
  rw [State.memWf_iff] at h
  show (⟨cellGet 0 (cellPutRange 0 s.mem a (bs.map TByte.v)) b, cellGet 0 (cellPutRange 0 s.keys a (bs.map TByte.key)) b, false⟩ : TByte) = s.byteAt b
  rw [cellGet_cellPutRange 0 _ a _ b h.1, cellGet_cellPutRange 0 _ a _ b h.2]
  simp only [List.length_map, if_neg hb]
  rfl

/-- A write of a range gives its bytes, without marks. -/
theorem State.byteAt_setBytes_same (s : State) (a i : Nat) (bs : List TByte) (h : s.memWf = true) (hi : i < bs.length) :
    (s.setBytes a bs).byteAt (a + i) = { bs[i] with bad := false } := by
  rw [State.memWf_iff] at h
  show (⟨cellGet 0 (cellPutRange 0 s.mem a (bs.map TByte.v)) (a + i), cellGet 0 (cellPutRange 0 s.keys a (bs.map TByte.key)) (a + i), false⟩ : TByte) = _
  rw [cellGet_cellPutRange 0 _ a _ _ h.1, cellGet_cellPutRange 0 _ a _ _ h.2]
  have e : a ≤ a + i ∧ a + i < a + bs.length := by omega
  simp only [List.length_map, if_pos e, Nat.add_sub_cancel_left]
  simp [List.getD, hi]

end Sys2Proof.Machine
end

