-- ==== Sys2Proof/Laws/Exec.lean ====
section
/-!
SUPPORT. How a meaning runs for the agent at the cursor, and what the shared operations of a slice do: completing, waiting, trapping.
-/

namespace Sys2Proof.Machine

theorem CtlAt.find {s : State} {u : UnitSt} (h : CtlAt s u) : s.findUnit u.key = some u := by
  obtain ⟨_, _, _, _, hf, _⟩ := h
  exact hf

theorem CtlAt.run {s : State} {u : UnitSt} (h : CtlAt s u) : u.running = true := by
  obtain ⟨_, _, _, _, _, hu⟩ := h
  simp only [UnitSt.ctlRuns, Bool.and_eq_true] at hu
  exact hu.1

theorem DatAt.find {s : State} {u : UnitSt} (h : DatAt s u) : s.findUnit u.key = some u := by
  obtain ⟨_, _, _, _, hf, _⟩ := h
  exact hf

theorem DatAt.run {s : State} {u : UnitSt} (h : DatAt s u) : u.running = true := by
  obtain ⟨_, _, _, _, _, hu⟩ := h
  simp only [UnitSt.datRuns, Bool.and_eq_true] at hu
  exact hu.1.1

/-- A control instruction runs for the unit at the cursor. -/
theorem onCtl_at {s : State} {u : UnitSt} (h : CtlAt s u) (f : UnitSt → State) : onCtl s f = .next (f u) := by
  obtain ⟨p, k, hc, hr, _, hu⟩ := h
  simp [onCtl, hc, hr, hu]

/-- A data instruction runs for the unit at the cursor. -/
theorem onDat_at {s : State} {u : UnitSt} (h : DatAt s u) (f : UnitSt → State) : onDat s f = .next (f u) := by
  obtain ⟨p, k, hc, hr, _, hu⟩ := h
  simp [onDat, hc, hr, hu]

/-- A record is decoded for the job at the cursor. -/
theorem onSeq_at {s : State} {j : Job} (h : SeqAt s j) (f : Job → State) : onSeq s f = .next (f j) := by
  obtain ⟨p, hc, hr⟩ := h
  simp [onSeq, hc, hr]

/-- A resident stands where it was looked for. -/
theorem State.resident_place {s : State} {u : UnitSt} {p k : Nat} (h : s.resident p k = some u) : u.place = .placed p k := by
  simpa using List.find?_some h

theorem CtlAt.place {s : State} {u : UnitSt} (h : CtlAt s u) : u.place = .placed u.pair u.slot := by
  obtain ⟨p, k, _, hr, _, _⟩ := h
  have := State.resident_place hr
  simp [UnitSt.pair, UnitSt.slot, UnitSt.occupies, this]

theorem DatAt.place {s : State} {u : UnitSt} (h : DatAt s u) : u.place = .placed u.pair u.slot := by
  obtain ⟨p, k, _, hr, _, _⟩ := h
  have := State.resident_place hr
  simp [UnitSt.pair, UnitSt.slot, UnitSt.occupies, this]

/-! ### Abandoning a matrix command changes a pair only -/

theorem State.abandonMatrix_cases (s : State) (k : UKey) (p : Nat) :
    s.abandonMatrix k p = s ∨ s.abandonMatrix k p = s.setPair { s.pairOf p with mrun := none } := by
  simp only [State.abandonMatrix]
  split
  · exact .inl rfl
  · split
    · exact .inr rfl
    · exact .inl rfl

@[simp] theorem State.abandonMatrix_units (s : State) (k : UKey) (p : Nat) : (s.abandonMatrix k p).units = s.units := by
  rcases s.abandonMatrix_cases k p with h | h <;> simp [h]
@[simp] theorem State.abandonMatrix_mem (s : State) (k : UKey) (p : Nat) : (s.abandonMatrix k p).mem = s.mem := by
  rcases s.abandonMatrix_cases k p with h | h <;> simp [h]
@[simp] theorem State.abandonMatrix_keys (s : State) (k : UKey) (p : Nat) : (s.abandonMatrix k p).keys = s.keys := by
  rcases s.abandonMatrix_cases k p with h | h <;> simp [h]
@[simp] theorem State.abandonMatrix_poison (s : State) (k : UKey) (p : Nat) : (s.abandonMatrix k p).poison = s.poison := by
  rcases s.abandonMatrix_cases k p with h | h <;> simp [h]

/-! ### Taking a trap (R181, R401) -/

/-- A running unit that takes a trap: it is frozen in its slot with the trap's record, its context unchanged. -/
theorem State.takeTrap_units (s : State) (u : UnitSt) (t : Trap) (p k : Nat) (h : u.place = .placed p k) :
    (s.takeTrap u t).units = putUnitL { u with place := .trapped p k, trap := some { u.fillTrap t with time := s.cycle } } s.units := by
  simp [State.takeTrap, h]

/-- All that taking a trap can do: nothing, or put the unit with its context unchanged but for a posted error that is still to surface, and
abandon its matrix command. -/
theorem State.takeTrap_cases (s : State) (u : UnitSt) (t : Trap) :
    s.takeTrap u t = s ∨ ∃ v : UnitSt, v.key = u.key ∧ (v.ctx = u.ctx ∨ ∃ o, u.trap = some o ∧ o.posted = true ∧
      v.ctx = (u.modCtl (fun c => { c with posted := some (o.code, o.addr, o.info), more := o.more })).ctx) ∧
      (s.takeTrap u t = s.putUnit v ∨ ∃ p, s.takeTrap u t = (s.putUnit v).abandonMatrix u.key p) := by
  simp only [State.takeTrap]
  split
  · refine .inr ⟨_, ?_, .inl ?_, .inr ⟨_, rfl⟩⟩ <;> rfl
  · split
    · rename_i o ho
      split
      · refine .inr ⟨_, ?_, ?_, .inl rfl⟩
        · dsimp only; split <;> rfl
        · dsimp only
          split
          · exact .inr ⟨o, ho, by assumption, rfl⟩
          · exact .inl rfl
      · exact .inl rfl
    · exact .inl rfl
  · split
    · refine .inr ⟨_, ?_, .inl ?_, .inl rfl⟩ <;> rfl
    · exact .inl rfl
  all_goals exact .inl rfl

@[simp] theorem State.takeTrap_mem (s : State) (u : UnitSt) (t : Trap) : (s.takeTrap u t).mem = s.mem := by
  rcases s.takeTrap_cases u t with h | ⟨v, -, -, h | ⟨p, h⟩⟩ <;> simp [h]
@[simp] theorem State.takeTrap_keys (s : State) (u : UnitSt) (t : Trap) : (s.takeTrap u t).keys = s.keys := by
  rcases s.takeTrap_cases u t with h | ⟨v, -, -, h | ⟨p, h⟩⟩ <;> simp [h]
@[simp] theorem State.takeTrap_poison (s : State) (u : UnitSt) (t : Trap) : (s.takeTrap u t).poison = s.poison := by
  rcases s.takeTrap_cases u t with h | ⟨v, -, -, h | ⟨p, h⟩⟩ <;> simp [h]

/-- A trap changes no byte of memory. -/
theorem State.takeTrap_sameMemory (s : State) (u : UnitSt) (t : Trap) : SameMemory s (s.takeTrap u t) :=
  ⟨fun a => by simp [State.byteAt], by simp⟩

/-- A trap leaves every other unit alone. -/
theorem State.takeTrap_sameOthers (s : State) (u : UnitSt) (t : Trap) : SameOthers s (s.takeTrap u t) u := by
  intro k hk
  rcases s.takeTrap_cases u t with h | ⟨v, hv, -, h | ⟨p, h⟩⟩
  · rw [h]
  · rw [h]; exact State.putUnit_findUnit_other s v k (by rw [hv]; exact hk)
  · rw [h]
    show ((s.putUnit v).abandonMatrix u.key p).units.find? _ = _
    rw [State.abandonMatrix_units]
    exact State.putUnit_findUnit_other s v k (by rw [hv]; exact hk)

/-! ### Completing (R232) -/

/-- The instruction completes: the unit is the given one past its instruction; the others, memory and the rest stay. -/
theorem State.retireC_retired (s : State) (u v w : UnitSt) (n : Nat) (hk : v.key = u.key) (h : s.findUnit u.key = some w) :
    Retired s (s.retireC v n) u v n := by
  refine ⟨?_, fun k hne => ?_⟩
  · rw [← hk]
    exact State.putUnit_findUnit_same s ((v.modCtl (Ctl.advance n)).stamped s.cycle) w (by simpa [hk] using h)
  · exact State.putUnit_findUnit_other s _ k (by simpa [hk] using hne)

theorem State.retireC_sameMemory (s : State) (u : UnitSt) (n : Nat) : SameMemory s (s.retireC u n) := ⟨fun _ => rfl, rfl⟩

theorem State.bytesAt_length (s : State) (n : Nat) : ∀ pa, (s.bytesAt pa n).length = n := by
  induction n with
  | zero => intro _; rfl
  | succ n ih => intro pa; simp [State.bytesAt, ih]

end Sys2Proof.Machine
end

