-- ==== Sys2Proof/Laws/Data.lean ====
section
/-!
SUPPORT. How a data instruction ends: elements and masks of a written register, the flags it gains, its last-read marks.
-/

namespace Sys2Proof.Machine

theorem packElems_testBit (b : Nat) (l : List Nat) : ∀ e k, k < b → (packElems b l).testBit (b * e + k) = (l.getD e 0 % 2 ^ b).testBit k := by
  induction l with
  | nil => intro e k _; simp [packElems]
  | cons x xs ih =>
    intro e k hk
    simp only [packElems]
    rw [Nat.add_comm, Nat.testBit_two_pow_mul_add _ (Nat.mod_lt _ (Nat.two_pow_pos b))]
    cases e with
    | zero => simp [hk]
    | succ e =>
      rw [if_neg (by rw [Nat.mul_succ]; omega)]
      have : b * (e + 1) + k - b = b * e + k := by rw [Nat.mul_succ]; omega
      rw [this, ih e k hk]
      simp

theorem elem_testBit (r : VReg) (f e k : Nat) : (elem r f e).testBit k = (decide (k < fmtBits f) && r.getLsbD (fmtBits f * e + k)) := by
  simp [elem, Nat.testBit_mod_two_pow, Nat.testBit_shiftRight, BitVec.getLsbD]

theorem fmtBits_pos (f : Nat) : 0 < fmtBits f := by unfold fmtBits; split <;> omega

theorem numElem_mul (f : Nat) (e k : Nat) (he : e < numElem f) (hk : k < fmtBits f) : fmtBits f * e + k < 4096 := by
  have h1 : fmtBits f * (4096 / fmtBits f) ≤ 4096 := Nat.mul_div_le _ _
  have h2 : fmtBits f * (e + 1) ≤ fmtBits f * numElem f := Nat.mul_le_mul_left _ he
  rw [Nat.mul_succ] at h2
  unfold numElem at h2
  omega

/-- Element e of a register after a write of elements of its format. -/
theorem elem_apply (f tag : Nat) (l : List (Option Nat)) (x : VState) (e : Nat) (he : e < numElem f) :
    elem ((elemsW f l).apply tag x).val f e = match l.getD e none with | some y => y % 2 ^ fmtBits f | none => elem x.val f e := by
  apply Nat.eq_of_testBit_eq
  intro k
  rw [elem_testBit]
  by_cases hk : k < fmtBits f
  · have hn := numElem_mul f e k he hk
    have hv := packElems_testBit (fmtBits f) (l.map (fun o => o.getD 0)) e k hk
    have hc := packElems_testBit (fmtBits f) (l.map (fun o => if o.isSome then 2 ^ fmtBits f - 1 else 0)) e k hk
    simp only [List.getD_eq_getElem?_getD, List.getElem?_map] at hv hc
    simp only [RegW.apply, elemsW, BitVec.getLsbD_or, BitVec.getLsbD_and, BitVec.getLsbD_not, BitVec.getLsbD_ofNat, Nat.testBit_and, hv, hc, hn, hk]
    rcases h : l[e]? with _ | _ | y
    · simp [List.getD_eq_getElem?_getD, h, elem_testBit, hk]
    · simp [List.getD_eq_getElem?_getD, h, elem_testBit, hk]
    · have h1 : (2 ^ fmtBits f - 1) % 2 ^ fmtBits f = 2 ^ fmtBits f - 1 := Nat.mod_eq_of_lt (by have := Nat.two_pow_pos (fmtBits f); omega)
      simp [List.getD_eq_getElem?_getD, h, h1, hk, Nat.testBit_two_pow_sub_one]
  · simp only [hk]
    simp only [decide_false, Bool.false_and]
    split
    · rw [Nat.testBit_lt_two_pow]; exact Nat.lt_of_lt_of_le (Nat.mod_lt _ (Nat.two_pow_pos _)) (Nat.pow_le_pow_right (by omega) (by omega))
    · simp [elem_testBit, hk]

theorem apply_poison (w : RegW) (tag : Nat) (x : VState) (h : x.poison = 0) : (w.apply tag x).poison = 0 := by
  have : ∀ (l : List Nat), packElems 1 (l.map (fun _ => 0)) = 0 := by
    intro l; induction l with
    | nil => rfl
    | cons a l ih => simpa [packElems] using ih
  simp only [RegW.apply, h]
  have e : (range 0 64).map (fun i => b2n ((0#64).getLsbD i && w.cov / 2 ^ (64 * i) % 2 ^ 64 != 2 ^ 64 - 1)) = (range 0 64).map (fun _ => 0) := by
    apply List.map_congr_left; intro i _; simp [b2n]
  have e2 := e.trans rfl
  simp only [BitVec.ofNat_eq_ofNat] at *
  rw [e, this]

theorem splits_zero (w : RegW) (p : BitVec 64) (h : p = 0) : w.splits p = false := by
  subst h; simp [RegW.splits]

theorem enabledFlag_none {u : UnitSt} (h : NoFpTraps u) (l : List (Nat × Nat)) : enabledFlag u l = none := by
  unfold NoFpTraps at h
  simp [enabledFlag, h, leastBy]

theorem allFlags_testBit (l : List (Nat × Nat)) (b : Nat) : (allFlags l).testBit b = true ↔ ∃ p ∈ l, p.2.testBit b = true := by
  have : ∀ (l : List (Nat × Nat)) (a : Nat), (l.foldl (fun a p => a ||| p.2) a).testBit b = true ↔ a.testBit b = true ∨ ∃ p ∈ l, p.2.testBit b = true := by
    intro l
    induction l with
    | nil => simp
    | cons x xs ih => intro a; simp [ih, Nat.testBit_or, or_assoc]
  simpa [allFlags] using this l 0

theorem range_length (n : Nat) : ∀ a, (range a n).length = n := by
  induction n with
  | zero => intro a; rfl
  | succ n ih => intro a; simp [range, ih]

theorem range_get (n : Nat) : ∀ a i, i < n → (range a n)[i]? = some (a + i) := by
  induction n with
  | zero => intro a i h; omega
  | succ n ih =>
    intro a i h
    cases i with
    | zero => rfl
    | succ i => simp only [range, List.getElem?_cons_succ, ih (a + 1) i (by omega)]; congr 1; omega

theorem mem_range (n : Nat) : ∀ a i, i ∈ range a n ↔ a ≤ i ∧ i < a + n := by
  induction n with
  | zero => intro a i; simp [range]
  | succ n ih => intro a i; simp only [range, List.mem_cons, ih]; omega


/-- A data instruction that only changes its own unit, and raises no enabled flag, ends in its unit's new state. -/
theorem dataOp_gives {s : State} {u : UnitSt} (h : DatAt s u) (hn : NoFpTraps u) (f : D64) (g : State → UnitSt → Except Stop Eff)
    (upd : UnitSt → UnitSt) (fl : List (Nat × Nat)) (hg : g s u = .ok { st := s, upd := upd, flags := fl }) :
    dataOp f g s = .next (s.putUnit ((selectNext s ((upd (markRead f u)).modCtl (fun c => { c with fpflags := c.fpflags ||| BitVec.ofNat 6 (allFlags fl) })) f.nas).stamped s.cycle)) := by
  simp only [dataOp, onDat_at h, hg, finishD, enabledFlag_none hn, h.find, Option.getD_some]

theorem setV_v (u : UnitSt) (i : BitVec 6) (g : VState → VState) (j : BitVec 6) :
    (u.setV i.toNat g).v j = if j = i then g (u.v i) else u.v j := by
  simp only [UnitSt.setV, UnitSt.v, UnitSt.modDat]
  rw [Vector.getElem_setIfInBounds]
  by_cases hji : j = i
  · subst hji
    have := j.isLt
    simp only [Nat.reducePow] at this
    simp [Array.getD_eq_getD_getElem?, this]
  · have : ¬ i.toNat = j.toNat := fun h => hji (BitVec.eq_of_toNat_eq h.symm)
    simp [hji, this]

theorem markRead_v (f : D64) (u : UnitSt) (j : BitVec 6) : (markRead f u).v j = lastRead u f j := by
  simp only [markRead, lastRead]
  cases ha : f.la <;> cases hb : f.lb <;> simp [setV_v]
  · split
    · rename_i h; subst h; rfl
    · rfl
  · split
    · rename_i h; subst h; rfl
    · rfl
  · by_cases h1 : j = f.vb <;> by_cases h2 : j = f.va <;> simp_all
    

theorem markRead_rest (f : D64) (u : UnitSt) :
    markRead f u = { u with ctx := { u.ctx with dat := { u.ctx.dat with v := (markRead f u).ctx.dat.v } } } := by
  simp only [markRead]
  cases f.la <;> cases f.lb <;> rfl

/-- What a write of one vector register by a completing instruction leaves. -/
theorem onlyVector_write (f : D64) (u : UnitSt) (w : RegW) (t : Nat) (d : BitVec 6) (x : BitVec 6) :
    OnlyVector u (((markRead f u).setV d.toNat (w.apply t)).modCtl (fun c => { c with fpflags := c.fpflags ||| x })) f d := by
  refine ⟨fun i hi => ?_, ?_⟩
  · show ((markRead f u).setV d.toNat (w.apply t)).v i = _
    rw [setV_v, if_neg hi, markRead_v]
  · rw [markRead_rest]; rfl

theorem range_getD_map {β : Type} (n e : Nat) (he : e < n) (g : Nat → β) (d : β) : ((range 0 n).map g).getD e d = g e := by
  simp [List.getD_eq_getElem?_getD, range_get n 0 e he]

/-- A write of elements under the effective mask. -/
theorem elements_write (f : D64) (u : UnitSt) (t : Nat) (ht : t < 16) (d : BitVec 6) (x : BitVec 6) (l : List (Option Nat)) (g : Nat → Nat)
    (hp : (u.v d).poison = 0)
    (hl : ∀ e < numElem t, l.getD e none = if active e t (effMask u f) then some (g e) else if f.z then some 0 else none) :
    Elements u (((markRead f u).setV d.toNat ((elemsW t l).apply t)).modCtl (fun c => { c with fpflags := c.fpflags ||| x })) f d t g := by
  have hv : ((((markRead f u).setV d.toNat ((elemsW t l).apply t)).modCtl (fun c => { c with fpflags := c.fpflags ||| x })).v d) = (elemsW t l).apply t (lastRead u f d) := by
    show ((markRead f u).setV d.toNat ((elemsW t l).apply t)).v d = _
    rw [setV_v, if_pos rfl, markRead_v]
  have hq : (lastRead u f d).poison = 0 := by unfold lastRead; split <;> exact hp
  have hval : (lastRead u f d).val = (u.v d).val := by unfold lastRead; split <;> rfl
  rw [Elements, hv]
  refine ⟨?_, rfl, apply_poison _ _ _ hq, fun e he => ?_⟩
  · simp [RegW.apply]; omega
  · rw [elem_apply _ _ _ _ _ he, hl e he, hval]
    by_cases ha : active e t (effMask u f) = true
    · simp [ha]
    · cases f.z <;> simp [ha]

theorem elemFlags_mem (r : Nat → Nat × Nat) (t : Nat) (u : UnitSt) (f : D64) (b : Nat) :
    (∃ p ∈ elemFlags (mapElems t (effMask u f) f.z r), p.2.testBit b = true) ↔
      ∃ e < numElem t, active e t (effMask u f) = true ∧ (r e).2.testBit b = true := by
  simp only [elemFlags, List.mem_filter]
  constructor
  · rintro ⟨⟨i, y⟩, ⟨hm, -⟩, hb⟩
    obtain ⟨k, hk, he⟩ := List.getElem_of_mem hm
    simp only [List.getElem_zip, Prod.mk.injEq, List.getElem_map, mapElems] at he
    obtain ⟨-, he⟩ := he
    have hk' : k < numElem t := by simpa [mapElems, range_length] using hk
    have hr : (range 0 (numElem t))[k]'(by simpa [range_length] using hk') = k := by
      have := range_get (numElem t) 0 k hk'
      rw [List.getElem?_eq_getElem (by simpa [range_length] using hk')] at this
      simpa using this
    rw [hr] at he
    refine ⟨k, hk', ?_⟩
    by_cases ha : active k t (effMask u f) = true
    · simp only [ha, if_true] at he; subst he; exact ⟨ha, hb⟩
    · simp only [ha] at he; subst he; simp at hb
  · rintro ⟨e, he, ha, hb⟩
    refine ⟨(e, (r e).2), ⟨?_, ?_⟩, hb⟩
    · have hl : e < (mapElems t (effMask u f) f.z r).length := by simpa [mapElems, range_length] using he
      have hz : e < ((range 0 (mapElems t (effMask u f) f.z r).length).zip ((mapElems t (effMask u f) f.z r).map Prod.snd)).length := by
        simpa [range_length] using hl
      have := List.getElem_mem hz
      have hr := range_get (numElem t) 0 e he
      have hr2 := range_get (mapElems t (effMask u f) f.z r).length 0 e hl
      rw [List.getElem?_eq_getElem (by simpa [range_length] using he)] at hr
      rw [List.getElem?_eq_getElem (by simpa [range_length] using hl)] at hr2
      simp only [List.getElem_zip, List.getElem_map, mapElems] at this
      simp only [mapElems] at hr2
      simp only [Option.some.injEq, Nat.zero_add] at hr hr2
      rw [hr, hr2] at this
      simpa [ha, mapElems] using this
    · simp; intro h; rw [h] at hb; simp at hb

theorem flags_write (f : D64) (u : UnitSt) (t : Nat) (w : UnitSt) (r : Nat → Nat × Nat) (hw : w.ctx.ctl.fpflags = u.ctx.ctl.fpflags) :
    FlagsGained u (w.modCtl (fun c => { c with fpflags := c.fpflags ||| BitVec.ofNat 6 (allFlags (elemFlags (mapElems t (effMask u f) f.z r))) })) f t (fun e => (r e).2) := by
  intro b hb
  have h := allFlags_testBit (elemFlags (mapElems t (effMask u f) f.z r)) b
  rw [elemFlags_mem] at h
  simp only [UnitSt.modCtl, BitVec.getLsbD_or, Bool.or_eq_true, BitVec.getLsbD_ofNat, hw, hb, decide_true, Bool.true_and, h]

theorem markRead_fpflags (f : D64) (u : UnitSt) : (markRead f u).ctx.ctl.fpflags = u.ctx.ctl.fpflags := by
  rw [markRead_rest]

theorem markRead_key (f : D64) (u : UnitSt) : (markRead f u).key = u.key := by
  rw [markRead_rest]

/-- An instruction whose meaning writes the elements r under the effective mask has that result. -/
theorem elementResult_of {s : State} {u : UnitSt} (h : DatAt s u) (hn : NoFpTraps u) (f : D64) (g : State → UnitSt → Except Stop Eff)
    (t : Nat) (ht : t < 16) (hp : (u.v f.vd).poison = 0) (r : Nat → Nat × Nat)
    (i : Instr) (hi : exec i s = dataOp f g s)
    (hg : g s u = .ok { st := s, upd := fun x => x.setV f.vd.toNat ((elemsW t ((mapElems t (effMask u f) f.z r).map Prod.fst)).apply t),
                        flags := elemFlags (mapElems t (effMask u f) f.z r) }) :
    ElementResult s u i f t r := by
  refine ⟨_, hi.trans (dataOp_gives h hn f g _ _ hg), ?_, ?_, ?_, ?_⟩
  · show (markRead f u).key = u.key
    exact markRead_key f u
  · exact onlyVector_write f u _ t f.vd _
  · refine elements_write f u t ht f.vd _ _ _ hp (fun e he => ?_)
    simp only [mapElems, List.map_map]
    rw [range_getD_map _ _ he]
    simp only [Function.comp]
    split <;> rfl
  · exact flags_write f u t _ r (markRead_fpflags f u)

/-- The checks of an element-wise instruction pass for readable operands. -/
theorem prepare_ok (u : UnitSt) (f : D64) (t : Nat) (acc : List Nat) (useB useC dstV : Bool) (bOk : Nat → Nat → Bool)
    (ht : t ≠ 15) (hacc : t ∈ acc) (hf : Format f t) (ha : Source u f.va t)
    (hb : useB = true → (SourceB u f t ∧ bOk t t = true) ∨ (f.sb = false ∧ ∃ x, x ≠ 15 ∧ Source u f.vb x ∧ bOk t x = true))
    (hc : useC = true → Source u f.vc t) (hd : dstV = true → vregOk u f.vd.toNat = true) :
    prepare u f acc useB useC dstV bOk = .ok t := by
  obtain ⟨ha1, ha2, ha3, ha4⟩ := ha
  have hel : elemFormat u f acc = .ok t := by
    unfold elemFormat vtag tagCheck
    rcases hf with h | h
    · simp [h, ha2, ht, hacc]
    · by_cases h0 : f.fmt = 0
      · simp [h0, ha2, ht, hacc]
      · subst h; simp [h0, ha2, ht]
  unfold prepare
  rw [hel]
  cases useB with
  | false =>
    cases useC <;> cases dstV <;>
      simp_all [vregCheck, emptyCheck, poisonCheck, need, vtag, tagCheck, Source, bind, Except.bind, pure, Except.pure]
  | true =>
    cases hsb : f.sb with
    | true =>
      have hb' : u.ctx.spoison = [] := by
        rcases hb rfl with ⟨h, -⟩ | ⟨h, -⟩
        · simpa [SourceB, hsb] using h
        · simp [hsb] at h
      cases useC <;> cases dstV <;>
        simp_all [vregCheck, emptyCheck, poisonCheck, need, vtag, tagCheck, Source, bind, Except.bind, pure, Except.pure]
    | false =>
      have hb' : ∃ x, x ≠ 15 ∧ Source u f.vb x ∧ bOk t x = true := by
        rcases hb rfl with ⟨h, h2⟩ | ⟨-, h⟩
        · exact ⟨t, ht, by simpa [SourceB, hsb] using h, h2⟩
        · exact h
      obtain ⟨x, hx, ⟨h1, h2, h3, h4⟩, h5⟩ := hb'
      clear hb
      cases useC <;> cases dstV <;>
        simp_all [vregCheck, emptyCheck, poisonCheck, need, vtag, tagCheck, Source, bind, Except.bind, pure, Except.pure]

/-! ### Whole writes -/

theorem packElems_ones (b n : Nat) : packElems b (List.replicate n (2 ^ b - 1)) = 2 ^ (b * n) - 1 := by
  induction n with
  | zero => simp [packElems]
  | succ n ih =>
    have h1 := Nat.two_pow_pos b
    have h2 := Nat.two_pow_pos (b * n)
    rw [List.replicate_succ, packElems, ih, Nat.mod_eq_of_lt (by omega), Nat.mul_sub, ← Nat.pow_add, Nat.mul_one, Nat.mul_succ, Nat.add_comm b]
    have h3 : 2 ^ b ≤ 2 ^ (b * n + b) := Nat.pow_le_pow_right (by omega) (by omega)
    omega

/-- A write of every element of a format covers the register. -/
theorem elemsW_full (t : Nat) (ht : t < 16) (l : List (Option Nat)) (hl : l.length = numElem t) (hs : ∀ o ∈ l, o.isSome = true) :
    (elemsW t l).cov = 2 ^ 4096 - 1 := by
  have h : l.map (fun o => if o.isSome then 2 ^ fmtBits t - 1 else 0) = List.replicate l.length (2 ^ fmtBits t - 1) := by
    rw [List.eq_replicate_iff]
    refine ⟨by simp, fun x hx => ?_⟩
    obtain ⟨o, ho, rfl⟩ := List.mem_map.1 hx
    simp [hs o ho]
  have hm : fmtBits t * numElem t = 4096 := by interval_cases t <;> rfl
  simp only [elemsW, h, packElems_ones, hl, hm]

/-- The elements of a zeroing or unmasked instruction are all written. -/
theorem mapElems_full (u : UnitSt) (f : D64) (t : Nat) (r : Nat → Nat × Nat) (h : f.z = true ∨ effMask u f = BitVec.allOnes 128) (ht : t < 16) :
    ∀ o ∈ (mapElems t (effMask u f) f.z r).map Prod.fst, o.isSome = true := by
  intro o ho
  simp only [mapElems, List.map_map, List.mem_map, Function.comp] at ho
  obtain ⟨e, he, rfl⟩ := ho
  rcases h with h | h
  · split <;> simp [*]
  · have hl : elemLane t e < 128 := by
      have := (mem_range _ _ _).1 he
      unfold elemLane
      interval_cases t <;> simp [numElem, fmtBits] at * <;> omega
    have ha : active e t (effMask u f) = true := by
      rw [active, h, BitVec.getLsbD_allOnes, decide_eq_true hl]
    simp [ha]

/-- A register write that waits for nothing. -/
theorem writeV_ok {u : UnitSt} {i : BitVec 6} {w : RegW} (hp : (u.v i).poison = 0) (he : (u.v i).empty = true → w.cov = 2 ^ 4096 - 1) (tag : Nat) :
    writeV u i w tag = .ok (fun x => x.setV i.toNat (w.apply tag)) := by
  unfold writeV
  rw [splits_zero _ _ hp]
  cases h : (u.v i).empty with
  | false => simp
  | true => simp [he h]

/-- An element-wise instruction whose checks pass has its function's results. -/
theorem elementwise_result {s : State} {u : UnitSt} (h : DatAt s u) (hn : NoFpTraps u) (f : D64) (i : Instr) (acc : List Nat) (useB useC : Bool)
    (bOk : Nat → Nat → Bool) (g : UnitSt → Nat → Nat → Nat → Nat → Nat × Nat) (t : Nat) (ht : t < 16)
    (hi : exec i s = elementwise f acc useB useC bOk g s) (hp : prepare u f acc useB useC true bOk = .ok t) (hd : Dest u f f.vd) :
    ElementResult s u i f t (fun e =>
      g u t (elem (u.v f.va).val t e) (if useB then bElem u f t e else 0) (if useC then elem (u.v f.vc).val t e else 0)) := by
  refine elementResult_of h hn f _ t ht hd.2.1 _ i hi ?_
  have hw (r : Nat → Nat × Nat) := writeV_ok (w := elemsW t ((mapElems t (effMask u f) f.z r).map Prod.fst)) hd.2.1
    (fun he => elemsW_full t ht _ (by simp [mapElems, range_length]) (mapElems_full u f t r (hd.2.2 he) ht)) t
  simp only [hp, bind, Except.bind, hw, pure, Except.pure]

/-- Results that agree on the active elements up to the width are the same results. -/
theorem elementResult_congr {s : State} {u : UnitSt} {i : Instr} {f : D64} {t : Nat} {r r' : Nat → Nat × Nat} (h : ElementResult s u i f t r)
    (h1 : ∀ e < numElem t, (r e).1 % 2 ^ fmtBits t = (r' e).1 % 2 ^ fmtBits t) (h2 : ∀ e < numElem t, (r e).2 = (r' e).2) :
    ElementResult s u i f t r' := by
  obtain ⟨v, he, hk, ho, ⟨e1, e2, e3, e4⟩, hf⟩ := h
  refine ⟨v, he, hk, ho, ⟨e1, e2, e3, fun e hlt => ?_⟩, fun b hb => ?_⟩
  · rw [e4 e hlt, h1 e hlt]
  · rw [hf b hb]
    constructor <;> rintro (h | ⟨e, hlt, ha, hx⟩)
    · exact .inl h
    · exact .inr ⟨e, hlt, ha, (congrArg (Nat.testBit · b) (h2 e hlt)).symm.trans hx⟩
    · exact .inl h
    · exact .inr ⟨e, hlt, ha, (congrArg (Nat.testBit · b) (h2 e hlt)).trans hx⟩

end Sys2Proof.Machine
end

