-- ==== Sys2Proof/Laws/PerInstr.lean ====
section
/-!
SUPPORT. Per instruction: its word is one of the three sizes that code and task streams have, and fits that size.
-/

namespace Sys2Proof.Laws

/-- The word that the encoder gives an instruction has 32, 64 or 256 bits and lies below two to that power (R185, R228, R236, R238, R239). -/
def Encoding.Statement (i : Instr) : Prop := ∀ n w, encode i = some (n, w) → (n = 32 ∨ n = 64 ∨ n = 256) ∧ w < 2 ^ n

theorem Encoding.fits (i : Instr) : Encoding.Statement i := by
  intro n w h
  unfold encode at h
  split at h <;> first | (simp at h; done) | (simp only [Option.some.injEq, Prod.mk.injEq] at h; obtain ⟨rfl, rfl⟩ := h; exact ⟨by simp, by first | exact BitVec.isLt _ | decide⟩)

theorem Encoding.illegal : Encoding.Statement .illegal := Encoding.fits _
theorem Encoding.add (f : CR) : Encoding.Statement (.add f) := Encoding.fits _
theorem Encoding.sub (f : CR) : Encoding.Statement (.sub f) := Encoding.fits _
theorem Encoding.and (f : CR) : Encoding.Statement (.and f) := Encoding.fits _
theorem Encoding.or (f : CR) : Encoding.Statement (.or f) := Encoding.fits _
theorem Encoding.xor (f : CR) : Encoding.Statement (.xor f) := Encoding.fits _
theorem Encoding.andn (f : CR) : Encoding.Statement (.andn f) := Encoding.fits _
theorem Encoding.sll (f : CR) : Encoding.Statement (.sll f) := Encoding.fits _
theorem Encoding.srl (f : CR) : Encoding.Statement (.srl f) := Encoding.fits _
theorem Encoding.sra (f : CR) : Encoding.Statement (.sra f) := Encoding.fits _
theorem Encoding.ror (f : CR) : Encoding.Statement (.ror f) := Encoding.fits _
theorem Encoding.slt (f : CR) : Encoding.Statement (.slt f) := Encoding.fits _
theorem Encoding.sltu (f : CR) : Encoding.Statement (.sltu f) := Encoding.fits _
theorem Encoding.seq (f : CR) : Encoding.Statement (.seq f) := Encoding.fits _
theorem Encoding.min (f : CR) : Encoding.Statement (.min f) := Encoding.fits _
theorem Encoding.max (f : CR) : Encoding.Statement (.max f) := Encoding.fits _
theorem Encoding.minu (f : CR) : Encoding.Statement (.minu f) := Encoding.fits _
theorem Encoding.maxu (f : CR) : Encoding.Statement (.maxu f) := Encoding.fits _
theorem Encoding.mul (f : CR) : Encoding.Statement (.mul f) := Encoding.fits _
theorem Encoding.mulh (f : CR) : Encoding.Statement (.mulh f) := Encoding.fits _
theorem Encoding.mulhu (f : CR) : Encoding.Statement (.mulhu f) := Encoding.fits _
theorem Encoding.div (f : CR) : Encoding.Statement (.div f) := Encoding.fits _
theorem Encoding.divu (f : CR) : Encoding.Statement (.divu f) := Encoding.fits _
theorem Encoding.rem (f : CR) : Encoding.Statement (.rem f) := Encoding.fits _
theorem Encoding.remu (f : CR) : Encoding.Statement (.remu f) := Encoding.fits _
theorem Encoding.clz (f : CR) : Encoding.Statement (.clz f) := Encoding.fits _
theorem Encoding.ctz (f : CR) : Encoding.Statement (.ctz f) := Encoding.fits _
theorem Encoding.popc (f : CR) : Encoding.Statement (.popc f) := Encoding.fits _
theorem Encoding.addi (f : CI) : Encoding.Statement (.addi f) := Encoding.fits _
theorem Encoding.andi (f : CI) : Encoding.Statement (.andi f) := Encoding.fits _
theorem Encoding.ori (f : CI) : Encoding.Statement (.ori f) := Encoding.fits _
theorem Encoding.xori (f : CI) : Encoding.Statement (.xori f) := Encoding.fits _
theorem Encoding.slli (f : CI) : Encoding.Statement (.slli f) := Encoding.fits _
theorem Encoding.srli (f : CI) : Encoding.Statement (.srli f) := Encoding.fits _
theorem Encoding.srai (f : CI) : Encoding.Statement (.srai f) := Encoding.fits _
theorem Encoding.slti (f : CI) : Encoding.Statement (.slti f) := Encoding.fits _
theorem Encoding.sltiu (f : CI) : Encoding.Statement (.sltiu f) := Encoding.fits _
theorem Encoding.lih (f : CJ) : Encoding.Statement (.lih f) := Encoding.fits _
theorem Encoding.addpc (f : CJ) : Encoding.Statement (.addpc f) := Encoding.fits _
theorem Encoding.bEq (f : CB) : Encoding.Statement (.bEq f) := Encoding.fits _
theorem Encoding.bNe (f : CB) : Encoding.Statement (.bNe f) := Encoding.fits _
theorem Encoding.bLt (f : CB) : Encoding.Statement (.bLt f) := Encoding.fits _
theorem Encoding.bGe (f : CB) : Encoding.Statement (.bGe f) := Encoding.fits _
theorem Encoding.bLtu (f : CB) : Encoding.Statement (.bLtu f) := Encoding.fits _
theorem Encoding.bGeu (f : CB) : Encoding.Statement (.bGeu f) := Encoding.fits _
theorem Encoding.jal (f : CJ) : Encoding.Statement (.jal f) := Encoding.fits _
theorem Encoding.jalr (f : CI) : Encoding.Statement (.jalr f) := Encoding.fits _
theorem Encoding.ld (f : CM) : Encoding.Statement (.ld f) := Encoding.fits _
theorem Encoding.lds (f : CM) : Encoding.Statement (.lds f) := Encoding.fits _
theorem Encoding.st (f : CM) : Encoding.Statement (.st f) := Encoding.fits _
theorem Encoding.csrr (f : CI) : Encoding.Statement (.csrr f) := Encoding.fits _
theorem Encoding.csrw (f : CI) : Encoding.Statement (.csrw f) := Encoding.fits _
theorem Encoding.trap (f : CI) : Encoding.Statement (.trap f) := Encoding.fits _
theorem Encoding.yield (f : CI) : Encoding.Statement (.yield f) := Encoding.fits _
theorem Encoding.exit : Encoding.Statement .exit := Encoding.fits _
theorem Encoding.exitComplete (pair slot : Nat) : Encoding.Statement (.exitComplete pair slot) := Encoding.fits _
theorem Encoding.yieldEnd (pair slot : Nat) : Encoding.Statement (.yieldEnd pair slot) := Encoding.fits _
theorem Encoding.ldo (f : CX) : Encoding.Statement (.ldo f) := Encoding.fits _
theorem Encoding.sto (f : CX) : Encoding.Statement (.sto f) := Encoding.fits _
theorem Encoding.amo (f : CX) : Encoding.Statement (.amo f) := Encoding.fits _
theorem Encoding.fence (f : CX) : Encoding.Statement (.fence f) := Encoding.fits _
theorem Encoding.waitv (f : CX) : Encoding.Statement (.waitv f) := Encoding.fits _
theorem Encoding.waitvWake (pair slot : Nat) : Encoding.Statement (.waitvWake pair slot) := Encoding.fits _
theorem Encoding.waitvReread (pair slot : Nat) : Encoding.Statement (.waitvReread pair slot) := Encoding.fits _
theorem Encoding.waitvTimeout (pair slot : Nat) : Encoding.Statement (.waitvTimeout pair slot) := Encoding.fits _
theorem Encoding.icinv (f : CX) : Encoding.Statement (.icinv f) := Encoding.fits _
theorem Encoding.cinv (f : CX) : Encoding.Statement (.cinv f) := Encoding.fits _
theorem Encoding.pref (f : CX) : Encoding.Statement (.pref f) := Encoding.fits _
theorem Encoding.lea (f : CX) : Encoding.Statement (.lea f) := Encoding.fits _
theorem Encoding.mzip (f : CX) : Encoding.Statement (.mzip f) := Encoding.fits _
theorem Encoding.munz (f : CX) : Encoding.Statement (.munz f) := Encoding.fits _
theorem Encoding.bfx (f : CX) : Encoding.Statement (.bfx f) := Encoding.fits _
theorem Encoding.bfi (f : CX) : Encoding.Statement (.bfi f) := Encoding.fits _
theorem Encoding.chp (f : CX) : Encoding.Statement (.chp f) := Encoding.fits _
theorem Encoding.chpm (f : CX) : Encoding.Statement (.chpm f) := Encoding.fits _
theorem Encoding.chutePushResume (pair slot : Nat) : Encoding.Statement (.chutePushResume pair slot) := Encoding.fits _
theorem Encoding.dwpop (f : CX) : Encoding.Statement (.dwpop f) := Encoding.fits _
theorem Encoding.dwpopResume (pair slot : Nat) : Encoding.Statement (.dwpopResume pair slot) := Encoding.fits _
theorem Encoding.qfence (f : CX) : Encoding.Statement (.qfence f) := Encoding.fits _
theorem Encoding.qfenceComplete (pair slot : Nat) : Encoding.Statement (.qfenceComplete pair slot) := Encoding.fits _
theorem Encoding.tenq (f : CX) : Encoding.Statement (.tenq f) := Encoding.fits _
theorem Encoding.cpy (f : CX) : Encoding.Statement (.cpy f) := Encoding.fits _
theorem Encoding.gath (f : CX) : Encoding.Statement (.gath f) := Encoding.fits _
theorem Encoding.scat (f : CX) : Encoding.Statement (.scat f) := Encoding.fits _
theorem Encoding.scata (f : CX) : Encoding.Statement (.scata f) := Encoding.fits _
theorem Encoding.stair (f : CX) : Encoding.Statement (.stair f) := Encoding.fits _
theorem Encoding.cntset (f : CX) : Encoding.Statement (.cntset f) := Encoding.fits _
theorem Encoding.cntadd (f : CX) : Encoding.Statement (.cntadd f) := Encoding.fits _
theorem Encoding.waitc (f : CX) : Encoding.Statement (.waitc f) := Encoding.fits _
theorem Encoding.waitcComplete (pair slot : Nat) : Encoding.Statement (.waitcComplete pair slot) := Encoding.fits _
theorem Encoding.subs (f : CX) : Encoding.Statement (.subs f) := Encoding.fits _
theorem Encoding.unsub (f : CX) : Encoding.Statement (.unsub f) := Encoding.fits _
theorem Encoding.engq (f : CX) : Encoding.Statement (.engq f) := Encoding.fits _
theorem Encoding.engineQueueSlotFree (pair slot : Nat) : Encoding.Statement (.engineQueueSlotFree pair slot) := Encoding.fits _
theorem Encoding.storeBufferSpace (pair slot : Nat) : Encoding.Statement (.storeBufferSpace pair slot) := Encoding.fits _
theorem Encoding.vfadd (f : D64) : Encoding.Statement (.vfadd f) := Encoding.fits _
theorem Encoding.vfsub (f : D64) : Encoding.Statement (.vfsub f) := Encoding.fits _
theorem Encoding.vfmul (f : D64) : Encoding.Statement (.vfmul f) := Encoding.fits _
theorem Encoding.vfma (f : D64) : Encoding.Statement (.vfma f) := Encoding.fits _
theorem Encoding.vfms (f : D64) : Encoding.Statement (.vfms f) := Encoding.fits _
theorem Encoding.vfnma (f : D64) : Encoding.Statement (.vfnma f) := Encoding.fits _
theorem Encoding.vfmin (f : D64) : Encoding.Statement (.vfmin f) := Encoding.fits _
theorem Encoding.vfmax (f : D64) : Encoding.Statement (.vfmax f) := Encoding.fits _
theorem Encoding.vfcmp (f : D64) : Encoding.Statement (.vfcmp f) := Encoding.fits _
theorem Encoding.vfspec (f : D64) : Encoding.Statement (.vfspec f) := Encoding.fits _
theorem Encoding.vfdiv (f : D64) : Encoding.Statement (.vfdiv f) := Encoding.fits _
theorem Encoding.viadd (f : D64) : Encoding.Statement (.viadd f) := Encoding.fits _
theorem Encoding.visub (f : D64) : Encoding.Statement (.visub f) := Encoding.fits _
theorem Encoding.vimul (f : D64) : Encoding.Statement (.vimul f) := Encoding.fits _
theorem Encoding.vimad (f : D64) : Encoding.Statement (.vimad f) := Encoding.fits _
theorem Encoding.vimin (f : D64) : Encoding.Statement (.vimin f) := Encoding.fits _
theorem Encoding.vimax (f : D64) : Encoding.Statement (.vimax f) := Encoding.fits _
theorem Encoding.vand (f : D64) : Encoding.Statement (.vand f) := Encoding.fits _
theorem Encoding.vor (f : D64) : Encoding.Statement (.vor f) := Encoding.fits _
theorem Encoding.vxor (f : D64) : Encoding.Statement (.vxor f) := Encoding.fits _
theorem Encoding.vshl (f : D64) : Encoding.Statement (.vshl f) := Encoding.fits _
theorem Encoding.vshr (f : D64) : Encoding.Statement (.vshr f) := Encoding.fits _
theorem Encoding.vsar (f : D64) : Encoding.Statement (.vsar f) := Encoding.fits _
theorem Encoding.vicmp (f : D64) : Encoding.Statement (.vicmp f) := Encoding.fits _
theorem Encoding.vibit (f : D64) : Encoding.Statement (.vibit f) := Encoding.fits _
theorem Encoding.mop (f : D64) : Encoding.Statement (.mop f) := Encoding.fits _
theorem Encoding.mcnt (f : D64) : Encoding.Statement (.mcnt f) := Encoding.fits _
theorem Encoding.mfirst (f : D64) : Encoding.Statement (.mfirst f) := Encoding.fits _
theorem Encoding.mmov (f : D64) : Encoding.Statement (.mmov f) := Encoding.fits _
theorem Encoding.vcvt (f : D64) : Encoding.Statement (.vcvt f) := Encoding.fits _
theorem Encoding.vmov (f : D64) : Encoding.Statement (.vmov f) := Encoding.fits _
theorem Encoding.vbcast (f : D64) : Encoding.Statement (.vbcast f) := Encoding.fits _
theorem Encoding.vsel (f : D64) : Encoding.Statement (.vsel f) := Encoding.fits _
theorem Encoding.vlane (f : D64) : Encoding.Statement (.vlane f) := Encoding.fits _
theorem Encoding.vins (f : D64) : Encoding.Statement (.vins f) := Encoding.fits _
theorem Encoding.vxch (f : D64) : Encoding.Statement (.vxch f) := Encoding.fits _
theorem Encoding.vrot (f : D64) : Encoding.Statement (.vrot f) := Encoding.fits _
theorem Encoding.vshuf (f : D64) : Encoding.Statement (.vshuf f) := Encoding.fits _
theorem Encoding.vred (f : D64) : Encoding.Statement (.vred f) := Encoding.fits _
theorem Encoding.vscan (f : D64) : Encoding.Statement (.vscan f) := Encoding.fits _
theorem Encoding.vcomp (f : D64) : Encoding.Statement (.vcomp f) := Encoding.fits _
theorem Encoding.vexpd (f : D64) : Encoding.Statement (.vexpd f) := Encoding.fits _
theorem Encoding.vprune (f : D64) : Encoding.Statement (.vprune f) := Encoding.fits _
theorem Encoding.vld (f : D64) : Encoding.Statement (.vld f) := Encoding.fits _
theorem Encoding.vst (f : D64) : Encoding.Statement (.vst f) := Encoding.fits _
theorem Encoding.vldx (f : D64) : Encoding.Statement (.vldx f) := Encoding.fits _
theorem Encoding.vstx (f : D64) : Encoding.Statement (.vstx f) := Encoding.fits _
theorem Encoding.vldc (f : D64) : Encoding.Statement (.vldc f) := Encoding.fits _
theorem Encoding.pfill (f : D64) : Encoding.Statement (.pfill f) := Encoding.fits _
theorem Encoding.pmark (f : D64) : Encoding.Statement (.pmark f) := Encoding.fits _
theorem Encoding.salu (f : D64) : Encoding.Statement (.salu f) := Encoding.fits _
theorem Encoding.sli (f : D64) : Encoding.Statement (.sli f) := Encoding.fits _
theorem Encoding.sst (f : D64) : Encoding.Statement (.sst f) := Encoding.fits _
theorem Encoding.sld (f : D64) : Encoding.Statement (.sld f) := Encoding.fits _
theorem Encoding.dwpush (f : D64) : Encoding.Statement (.dwpush f) := Encoding.fits _
theorem Encoding.dwpushResume (pair slot : Nat) : Encoding.Statement (.dwpushResume pair slot) := Encoding.fits _
theorem Encoding.mma (f : D64) : Encoding.Statement (.mma f) := Encoding.fits _
theorem Encoding.mmas (f : D64) : Encoding.Statement (.mmas f) := Encoding.fits _
theorem Encoding.mzero (f : D64) : Encoding.Statement (.mzero f) := Encoding.fits _
theorem Encoding.msta (f : D64) : Encoding.Statement (.msta f) := Encoding.fits _
theorem Encoding.mlda (f : D64) : Encoding.Statement (.mlda f) := Encoding.fits _
theorem Encoding.mscl (f : D64) : Encoding.Statement (.mscl f) := Encoding.fits _
theorem Encoding.mrdv (f : D64) : Encoding.Statement (.mrdv f) := Encoding.fits _
theorem Encoding.vgrab (f : D64) : Encoding.Statement (.vgrab f) := Encoding.fits _
theorem Encoding.vgrabGrant (pair : Nat) : Encoding.Statement (.vgrabGrant pair) := Encoding.fits _
theorem Encoding.vdrop (f : D64) : Encoding.Statement (.vdrop f) := Encoding.fits _
theorem Encoding.dnop (f : D64) : Encoding.Statement (.dnop f) := Encoding.fits _
theorem Encoding.chutePop (pair slot : Nat) : Encoding.Statement (.chutePop pair slot) := Encoding.fits _
theorem Encoding.lineStateWaitEnd (pair slot : Nat) : Encoding.Statement (.lineStateWaitEnd pair slot) := Encoding.fits _
theorem Encoding.registerEmptyWaitEnd (pair slot : Nat) : Encoding.Statement (.registerEmptyWaitEnd pair slot) := Encoding.fits _
theorem Encoding.matrixQueueSpace (pair slot : Nat) : Encoding.Statement (.matrixQueueSpace pair slot) := Encoding.fits _
theorem Encoding.matrixCommandStart (pair : Nat) : Encoding.Statement (.matrixCommandStart pair) := Encoding.fits _
theorem Encoding.matrixCommandComplete (pair : Nat) : Encoding.Statement (.matrixCommandComplete pair) := Encoding.fits _
theorem Encoding.engineCommandStart (id : Nat) : Encoding.Statement (.engineCommandStart id) := Encoding.fits _
theorem Encoding.engineSector (id : Nat) : Encoding.Statement (.engineSector id) := Encoding.fits _
theorem Encoding.engineBytesLand (id k : Nat) : Encoding.Statement (.engineBytesLand id k) := Encoding.fits _
theorem Encoding.pickerRowAccess (id k : Nat) : Encoding.Statement (.pickerRowAccess id k) := Encoding.fits _
theorem Encoding.engineCommandComplete (id : Nat) : Encoding.Statement (.engineCommandComplete id) := Encoding.fits _
theorem Encoding.subsAccept (id : Nat) : Encoding.Statement (.subsAccept id) := Encoding.fits _
theorem Encoding.unsubProcess (pair slot : Nat) : Encoding.Statement (.unsubProcess pair slot) := Encoding.fits _
theorem Encoding.mirrorUpdate (sub : Nat) : Encoding.Statement (.mirrorUpdate sub) := Encoding.fits _
theorem Encoding.storeBufferDrain (pair slot : Nat) : Encoding.Statement (.storeBufferDrain pair slot) := Encoding.fits _
theorem Encoding.storeAck (k : Nat) : Encoding.Statement (.storeAck k) := Encoding.fits _
theorem Encoding.pageWalk (die : Nat) : Encoding.Statement (.pageWalk die) := Encoding.fits _
theorem Encoding.snoopFilterRequest (die k : Nat) : Encoding.Statement (.snoopFilterRequest die k) := Encoding.fits _
theorem Encoding.uncachedAccess (die k : Nat) : Encoding.Statement (.uncachedAccess die k) := Encoding.fits _
theorem Encoding.rds (src home : Nat) : Encoding.Statement (.rds src home) := Encoding.fits _
theorem Encoding.rdm (src home : Nat) : Encoding.Statement (.rdm src home) := Encoding.fits _
theorem Encoding.upg (src home : Nat) : Encoding.Statement (.upg src home) := Encoding.fits _
theorem Encoding.wbm (src home : Nat) : Encoding.Statement (.wbm src home) := Encoding.fits _
theorem Encoding.evicte (src home : Nat) : Encoding.Statement (.evicte src home) := Encoding.fits _
theorem Encoding.invack (src home : Nat) : Encoding.Statement (.invack src home) := Encoding.fits _
theorem Encoding.fwdack (src home : Nat) : Encoding.Statement (.fwdack src home) := Encoding.fits _
theorem Encoding.stale (src home : Nat) : Encoding.Statement (.stale src home) := Encoding.fits _
theorem Encoding.datas (home dst : Nat) : Encoding.Statement (.datas home dst) := Encoding.fits _
theorem Encoding.datae (home dst : Nat) : Encoding.Statement (.datae home dst) := Encoding.fits _
theorem Encoding.datam (home dst : Nat) : Encoding.Statement (.datam home dst) := Encoding.fits _
theorem Encoding.ackm (home dst : Nat) : Encoding.Statement (.ackm home dst) := Encoding.fits _
theorem Encoding.wback (home dst : Nat) : Encoding.Statement (.wback home dst) := Encoding.fits _
theorem Encoding.inv (home dst : Nat) : Encoding.Statement (.inv home dst) := Encoding.fits _
theorem Encoding.fwds (home dst : Nat) : Encoding.Statement (.fwds home dst) := Encoding.fits _
theorem Encoding.fwdm (home dst : Nat) : Encoding.Statement (.fwdm home dst) := Encoding.fits _
theorem Encoding.recall (home dst : Nat) : Encoding.Statement (.recall home dst) := Encoding.fits _
theorem Encoding.bind (t : Rec) : Encoding.Statement (.bind t) := Encoding.fits _
theorem Encoding.unbind (t : Rec) : Encoding.Statement (.unbind t) := Encoding.fits _
theorem Encoding.pool (t : Rec) : Encoding.Statement (.pool t) := Encoding.fits _
theorem Encoding.launch (t : Rec) : Encoding.Statement (.launch t) := Encoding.fits _
theorem Encoding.copy (t : Rec) : Encoding.Statement (.copy t) := Encoding.fits _
theorem Encoding.gather (t : Rec) : Encoding.Statement (.gather t) := Encoding.fits _
theorem Encoding.scatter (t : Rec) : Encoding.Statement (.scatter t) := Encoding.fits _
theorem Encoding.level (t : Rec) : Encoding.Statement (.level t) := Encoding.fits _
theorem Encoding.fill (t : Rec) : Encoding.Statement (.fill t) := Encoding.fits _
theorem Encoding.phase (t : Rec) : Encoding.Statement (.phase t) := Encoding.fits _
theorem Encoding.signal (t : Rec) : Encoding.Statement (.signal t) := Encoding.fits _
theorem Encoding.waitev (t : Rec) : Encoding.Statement (.waitev t) := Encoding.fits _
theorem Encoding.waitevWake (job : Nat) : Encoding.Statement (.waitevWake job) := Encoding.fits _
theorem Encoding.waitevReread (job : Nat) : Encoding.Statement (.waitevReread job) := Encoding.fits _
theorem Encoding.waitevTimeout (job : Nat) : Encoding.Statement (.waitevTimeout job) := Encoding.fits _
theorem Encoding.tfence (t : Rec) : Encoding.Statement (.tfence t) := Encoding.fits _
theorem Encoding.tjmp (t : Rec) : Encoding.Statement (.tjmp t) := Encoding.fits _
theorem Encoding.tjmpc (t : Rec) : Encoding.Statement (.tjmpc t) := Encoding.fits _
theorem Encoding.cancel (t : Rec) : Encoding.Statement (.cancel t) := Encoding.fits _
theorem Encoding.halt (t : Rec) : Encoding.Statement (.halt t) := Encoding.fits _
theorem Encoding.taskIssue (job : Nat) : Encoding.Statement (.taskIssue job) := Encoding.fits _
theorem Encoding.taskComplete (job tidx : Nat) : Encoding.Statement (.taskComplete job tidx) := Encoding.fits _
theorem Encoding.taskRetire (job : Nat) : Encoding.Statement (.taskRetire job) := Encoding.fits _
theorem Encoding.faultingTask (job : Nat) : Encoding.Statement (.faultingTask job) := Encoding.fits _
theorem Encoding.unitPlacement : Encoding.Statement .unitPlacement := Encoding.fits _
theorem Encoding.vgrabPreemption (pair : Nat) : Encoding.Statement (.vgrabPreemption pair) := Encoding.fits _
theorem Encoding.triggerFire (die k : Nat) : Encoding.Statement (.triggerFire die k) := Encoding.fits _
theorem Encoding.unitComplete (job tidx lin : Nat) : Encoding.Statement (.unitComplete job tidx lin) := Encoding.fits _
theorem Encoding.vaultSplitStart (die vault : Nat) : Encoding.Statement (.vaultSplitStart die vault) := Encoding.fits _
theorem Encoding.vaultSplitEnd (die vault : Nat) : Encoding.Statement (.vaultSplitEnd die vault) := Encoding.fits _
theorem Encoding.contextSave (pair slot : Nat) : Encoding.Statement (.contextSave pair slot) := Encoding.fits _
theorem Encoding.contextRestore (pair slot : Nat) : Encoding.Statement (.contextRestore pair slot) := Encoding.fits _
theorem Encoding.unitWatchdog (pair slot : Nat) : Encoding.Statement (.unitWatchdog pair slot) := Encoding.fits _
theorem Encoding.tlbInvalidateAll (die : Nat) : Encoding.Statement (.tlbInvalidateAll die) := Encoding.fits _
theorem Encoding.tlbInvalidateJob (die : Nat) : Encoding.Statement (.tlbInvalidateJob die) := Encoding.fits _
theorem Encoding.tlbInvalidateRange (die : Nat) : Encoding.Statement (.tlbInvalidateRange die) := Encoding.fits _
theorem Encoding.tlbInvalidateDone (die : Nat) : Encoding.Statement (.tlbInvalidateDone die) := Encoding.fits _
theorem Encoding.icacheInvalidateAll (die : Nat) : Encoding.Statement (.icacheInvalidateAll die) := Encoding.fits _
theorem Encoding.icacheInvalidateJob (die : Nat) : Encoding.Statement (.icacheInvalidateJob die) := Encoding.fits _
theorem Encoding.icacheInvalidateDone (die : Nat) : Encoding.Statement (.icacheInvalidateDone die) := Encoding.fits _
theorem Encoding.jobActivate (die : Nat) : Encoding.Statement (.jobActivate die) := Encoding.fits _
theorem Encoding.jobResume (die : Nat) : Encoding.Statement (.jobResume die) := Encoding.fits _
theorem Encoding.jobCancel (die : Nat) : Encoding.Statement (.jobCancel die) := Encoding.fits _
theorem Encoding.jobStop (die : Nat) : Encoding.Statement (.jobStop die) := Encoding.fits _
theorem Encoding.jobCommandDone (die : Nat) : Encoding.Statement (.jobCommandDone die) := Encoding.fits _
theorem Encoding.keyGenerate : Encoding.Statement .keyGenerate := Encoding.fits _
theorem Encoding.keyClear : Encoding.Statement .keyClear := Encoding.fits _
theorem Encoding.pairoffWrite (die reg : Nat) (value : Word) : Encoding.Statement (.pairoffWrite die reg value) := Encoding.fits _
theorem Encoding.registerWrite (addr : Nat) (value : Word) : Encoding.Statement (.registerWrite addr value) := Encoding.fits _
theorem Encoding.hostRead (a : BarAddr) (size tag : Nat) : Encoding.Statement (.hostRead a size tag) := Encoding.fits _
theorem Encoding.hostWrite (a : BarAddr) (data : List Byte) : Encoding.Statement (.hostWrite a data) := Encoding.fits _
theorem Encoding.hostAtomicop (a : BarAddr) (kind : AtomicKind) (size operand compare tag : Nat) : Encoding.Statement (.hostAtomicop a kind size operand compare tag) := Encoding.fits _
theorem Encoding.hostCompletion (port : Bool) (tag : Nat) (status : PcieStatus) (data : List Byte) : Encoding.Statement (.hostCompletion port tag status data) := Encoding.fits _
theorem Encoding.completionTimeout (port : Bool) (tag : Nat) : Encoding.Statement (.completionTimeout port tag) := Encoding.fits _
theorem Encoding.pcieLinkDown (port : Bool) : Encoding.Statement (.pcieLinkDown port) := Encoding.fits _
theorem Encoding.peerRequest (peer tag off : Nat) (op : PeerOp) : Encoding.Statement (.peerRequest peer tag off op) := Encoding.fits _
theorem Encoding.peerResponse (peer tag : Nat) (status : PeerStatus) (data : List Byte) : Encoding.Statement (.peerResponse peer tag status data) := Encoding.fits _
theorem Encoding.routeFailure (peer : Nat) : Encoding.Statement (.routeFailure peer) := Encoding.fits _
theorem Encoding.routeInstall (epoch peer : Nat) : Encoding.Statement (.routeInstall epoch peer) := Encoding.fits _
theorem Encoding.moduleReset (b : BootImage) : Encoding.Statement (.moduleReset b) := Encoding.fits _
theorem Encoding.leaseRenew (die : Nat) : Encoding.Statement (.leaseRenew die) := Encoding.fits _
theorem Encoding.leaseLapse : Encoding.Statement .leaseLapse := Encoding.fits _
theorem Encoding.minsvnRaise : Encoding.Statement .minsvnRaise := Encoding.fits _
theorem Encoding.getVersion (port : Bool) : Encoding.Statement (.getVersion port) := Encoding.fits _
theorem Encoding.getCapabilities (port : Bool) : Encoding.Statement (.getCapabilities port) := Encoding.fits _
theorem Encoding.negotiateAlgorithms (port : Bool) (sm2 sm3 : Bool) : Encoding.Statement (.negotiateAlgorithms port sm2 sm3) := Encoding.fits _
theorem Encoding.getDigests (port : Bool) : Encoding.Statement (.getDigests port) := Encoding.fits _
theorem Encoding.getCertificate (port : Bool) (off len : Nat) : Encoding.Statement (.getCertificate port off len) := Encoding.fits _
theorem Encoding.challenge (port : Bool) (nonce : Nat) : Encoding.Statement (.challenge port nonce) := Encoding.fits _
theorem Encoding.getMeasurements (port : Bool) (index : Nat) : Encoding.Statement (.getMeasurements port index) := Encoding.fits _
theorem Encoding.keyExchange (port : Bool) (share : Nat) : Encoding.Statement (.keyExchange port share) := Encoding.fits _
theorem Encoding.finish (port : Bool) (mac : Nat) : Encoding.Statement (.finish port mac) := Encoding.fits _
theorem Encoding.eccErrorDetected (site : EccSite) : Encoding.Statement (.eccErrorDetected site) := Encoding.fits _
theorem Encoding.fatalError (site : FatalSite) : Encoding.Statement (.fatalError site) := Encoding.fits _
theorem Encoding.dumpComplete (whole : Bool) : Encoding.Statement (.dumpComplete whole) := Encoding.fits _
theorem Encoding.throttle : Encoding.Statement .throttle := Encoding.fits _
theorem Encoding.criticalTemperature : Encoding.Statement .criticalTemperature := Encoding.fits _
theorem Encoding.pcieLinkUp (port : Bool) (gen width : Nat) : Encoding.Statement (.pcieLinkUp port gen width) := Encoding.fits _
theorem Encoding.peeridAssign (epoch id : Nat) : Encoding.Statement (.peeridAssign epoch id) := Encoding.fits _
theorem Encoding.ideStreamConfigure (port : Bool) (epoch stream keyId : Nat) : Encoding.Statement (.ideStreamConfigure port epoch stream keyId) := Encoding.fits _
theorem Encoding.heartbeatRenew (die : Nat) : Encoding.Statement (.heartbeatRenew die) := Encoding.fits _
theorem Encoding.heartbeatLapse (die : Nat) : Encoding.Statement (.heartbeatLapse die) := Encoding.fits _
theorem Encoding.throttleRelease : Encoding.Statement .throttleRelease := Encoding.fits _
theorem Encoding.keyCommandDone : Encoding.Statement .keyCommandDone := Encoding.fits _

end Sys2Proof.Laws
end

