-- ==== Sys2Proof/Tests/Slice0.lean ====
section
/-!
SUPPORT. Tests of the model, each about one step or one word: words written out from the encodings of the manual (07), refusals of the
decoder, results worked by hand from the rules, and the states that meet the hypotheses of the obligations.
-/

namespace Sys2Proof.Tests

open Sys2Proof Sys2Proof.Machine

set_option Elab.async false

/-- R236, R246: the ALU group, rd 1, ra 2, rb 3 under major 0x01. -/
theorem test_decode_alu :
    decodeC32 0x02084180 = .ok (.add ⟨1, 2, 3⟩) ∧
    decodeC32 0x02084187 = .ok (.srl ⟨1, 2, 3⟩) ∧
    decodeC32 0x0208418E = .ok (.max ⟨1, 2, 3⟩) ∧
    decodeC32 0x02084195 = .ok (.divu ⟨1, 2, 3⟩) ∧
    decodeC32 0x02084181 = .ok (.sub ⟨1, 2, 3⟩) ∧
    decodeC32 0x02084188 = .ok (.sra ⟨1, 2, 3⟩) ∧
    decodeC32 0x0208418F = .ok (.minu ⟨1, 2, 3⟩) ∧
    decodeC32 0x02084196 = .ok (.rem ⟨1, 2, 3⟩) ∧
    decodeC32 0x02084182 = .ok (.and ⟨1, 2, 3⟩) ∧
    decodeC32 0x02084189 = .ok (.ror ⟨1, 2, 3⟩) ∧
    decodeC32 0x02084190 = .ok (.maxu ⟨1, 2, 3⟩) ∧
    decodeC32 0x02084197 = .ok (.remu ⟨1, 2, 3⟩) ∧
    decodeC32 0x02084183 = .ok (.or ⟨1, 2, 3⟩) ∧
    decodeC32 0x0208418A = .ok (.slt ⟨1, 2, 3⟩) ∧
    decodeC32 0x02084191 = .ok (.mul ⟨1, 2, 3⟩) ∧
    decodeC32 0x02084018 = .ok (.clz ⟨1, 2, 0⟩) ∧
    decodeC32 0x02084184 = .ok (.xor ⟨1, 2, 3⟩) ∧
    decodeC32 0x0208418B = .ok (.sltu ⟨1, 2, 3⟩) ∧
    decodeC32 0x02084192 = .ok (.mulh ⟨1, 2, 3⟩) ∧
    decodeC32 0x02084019 = .ok (.ctz ⟨1, 2, 0⟩) ∧
    decodeC32 0x02084185 = .ok (.andn ⟨1, 2, 3⟩) ∧
    decodeC32 0x0208418C = .ok (.seq ⟨1, 2, 3⟩) ∧
    decodeC32 0x02084193 = .ok (.mulhu ⟨1, 2, 3⟩) ∧
    decodeC32 0x0208401A = .ok (.popc ⟨1, 2, 0⟩) ∧
    decodeC32 0x02084186 = .ok (.sll ⟨1, 2, 3⟩) ∧
    decodeC32 0x0208418D = .ok (.min ⟨1, 2, 3⟩) ∧
    decodeC32 0x02084194 = .ok (.div ⟨1, 2, 3⟩) := by decide +kernel

/-- R236, R237, R245: the other C32 majors, their fields in the places of CI, CB, CJ and CM. -/
theorem test_decode_c32 :
    decodeC32 0x180FFFFE = .ok (.addpc ⟨1, 0x7FFFE⟩) ∧
    decodeC32 0x201063FD = .ok (.bEq ⟨2, 3, 0x3FD⟩) ∧
    decodeC32 0x201067FD = .ok (.bNe ⟨2, 3, 0x3FD⟩) ∧
    decodeC32 0x20106BFD = .ok (.bLt ⟨2, 3, 0x3FD⟩) ∧
    decodeC32 0x20106FFD = .ok (.bGe ⟨2, 3, 0x3FD⟩) ∧
    decodeC32 0x201073FD = .ok (.bLtu ⟨2, 3, 0x3FD⟩) ∧
    decodeC32 0x201077FD = .ok (.bGeu ⟨2, 3, 0x3FD⟩) ∧
    decodeC32 0x04085FFF = .ok (.addi ⟨1, 2, 0x1FFF⟩) ∧
    decodeC32 0x220FFFFE = .ok (.jal ⟨1, 0x7FFFE⟩) ∧
    decodeC32 0x06085FFF = .ok (.andi ⟨1, 2, 0x1FFF⟩) ∧
    decodeC32 0x24085FFF = .ok (.jalr ⟨1, 2, 0x1FFF⟩) ∧
    decodeC32 0x08085FFF = .ok (.ori ⟨1, 2, 0x1FFF⟩) ∧
    decodeC32 0x300857FF = .ok (.ld ⟨1, 2, 2, 0x7FF⟩) ∧
    decodeC32 0x0A085FFF = .ok (.xori ⟨1, 2, 0x1FFF⟩) ∧
    decodeC32 0x320857FF = .ok (.lds ⟨1, 2, 2, 0x7FF⟩) ∧
    decodeC32 0x0C08403F = .ok (.slli ⟨1, 2, 0x003F⟩) ∧
    decodeC32 0x340857FF = .ok (.st ⟨1, 2, 2, 0x7FF⟩) ∧
    decodeC32 0x0E08403F = .ok (.srli ⟨1, 2, 0x003F⟩) ∧
    decodeC32 0x60080010 = .ok (.csrr ⟨1, 0, 0x0010⟩) ∧
    decodeC32 0x1008403F = .ok (.srai ⟨1, 2, 0x003F⟩) ∧
    decodeC32 0x62004020 = .ok (.csrw ⟨0, 2, 0x0020⟩) ∧
    decodeC32 0x12085FFF = .ok (.slti ⟨1, 2, 0x1FFF⟩) ∧
    decodeC32 0x64001FFF = .ok (.trap ⟨0, 0, 0x1FFF⟩) ∧
    decodeC32 0x14085FFF = .ok (.sltiu ⟨1, 2, 0x1FFF⟩) ∧
    decodeC32 0x66000009 = .ok (.yield ⟨0, 0, 0x0009⟩) ∧
    decodeC32 0x160FFFFE = .ok (.lih ⟨1, 0x7FFFE⟩) ∧
    decodeC32 0x68000000 = .ok .exit := by decide +kernel

/-- R238, R247: the CX majors. -/
theorem test_decode_cx :
    decodeCX 0x10084001485FFFFF = .ok (.ldo ⟨1, 2, 0, 0, 10, 1, 5, 0xFFFFF⟩) ∧
    decodeCX 0x2608400000100245 = .ok (.bfx ⟨1, 2, 0, 0, 0, 0, 1, 0x00245⟩) ∧
    decodeCX 0x4608418820200105 = .ok (.scata ⟨1, 2, 3, 4, 1, 0, 2, 0x00105⟩) ∧
    decodeCX 0x12004180F03FFFF8 = .ok (.sto ⟨0, 2, 3, 0, 7, 2, 3, 0xFFFF8⟩) ∧
    decodeCX 0x2808400000001000 = .ok (.bfi ⟨1, 2, 0, 0, 0, 0, 0, 0x01000⟩) ∧
    decodeCX 0x4808418820000105 = .ok (.stair ⟨1, 2, 3, 4, 1, 0, 0, 0x00105⟩) ∧
    decodeCX 0x141083113CC00010 = .ok (.amo ⟨2, 4, 6, 8, 9, 3, 76, 0x00010⟩) ∧
    decodeCX 0x3008418800008001 = .ok (.chp ⟨1, 2, 3, 4, 0, 0, 0, 0x08001⟩) ∧
    decodeCX 0x4A004000000000FF = .ok (.cntset ⟨0, 2, 0, 0, 0, 0, 0, 0x000FF⟩) ∧
    decodeCX 0x1600000158000000 = .ok (.fence ⟨0, 0, 0, 0, 10, 3, 0, 0x00000⟩) ∧
    decodeCX 0x3208418800000001 = .ok (.chpm ⟨1, 2, 3, 4, 0, 0, 0, 0x00001⟩) ∧
    decodeCX 0x4C004000000000FF = .ok (.cntadd ⟨0, 2, 0, 0, 0, 0, 0, 0x000FF⟩) ∧
    decodeCX 0x18084188A8100008 = .ok (.waitv ⟨1, 2, 3, 4, 5, 1, 1, 0x00008⟩) ∧
    decodeCX 0x3410000000100000 = .ok (.dwpop ⟨2, 0, 0, 0, 0, 0, 1, 0x00000⟩) ∧
    decodeCX 0x4E000000800000FF = .ok (.waitc ⟨0, 0, 0, 0, 4, 0, 0, 0x000FF⟩) ∧
    decodeCX 0x1A000000C0000000 = .ok (.icinv ⟨0, 0, 0, 0, 6, 0, 0, 0x00000⟩) ∧
    decodeCX 0x3600000060000007 = .ok (.qfence ⟨0, 0, 0, 0, 3, 0, 0, 0x00007⟩) ∧
    decodeCX 0x50084188400001FF = .ok (.subs ⟨1, 2, 3, 4, 2, 0, 0, 0x001FF⟩) ∧
    decodeCX 0x1C000000E0000000 = .ok (.cinv ⟨0, 0, 0, 0, 7, 0, 0, 0x00000⟩) ∧
    decodeCX 0x4000418820100105 = .ok (.cpy ⟨0, 2, 3, 4, 1, 0, 1, 0x00105⟩) ∧
    decodeCX 0x5200400000000000 = .ok (.unsub ⟨0, 2, 0, 0, 0, 0, 0, 0x00000⟩) ∧
    decodeCX 0x1E00400000100080 = .ok (.pref ⟨0, 2, 0, 0, 0, 0, 1, 0x00080⟩) ∧
    decodeCX 0x4208418820100105 = .ok (.gath ⟨1, 2, 3, 4, 1, 0, 1, 0x00105⟩) ∧
    decodeCX 0x5408000000100007 = .ok (.engq ⟨1, 0, 0, 0, 0, 0, 1, 0x00007⟩) ∧
    decodeCX 0x20084180007FFFFF = .ok (.lea ⟨1, 2, 3, 0, 0, 0, 7, 0xFFFFF⟩) ∧
    decodeCX 0x4408418820000105 = .ok (.scat ⟨1, 2, 3, 4, 1, 0, 0, 0x00105⟩) ∧
    decodeCX 0x6008400000000000 = .ok (.tenq ⟨1, 2, 0, 0, 0, 0, 0, 0x00000⟩) ∧
    decodeCX 0x2208418800100000 = .ok (.mzip ⟨1, 2, 3, 4, 0, 0, 1, 0x00000⟩) ∧
    decodeCX 0x2408400000C00000 = .ok (.munz ⟨1, 2, 0, 0, 0, 0, 12, 0x00000⟩) := by decide +kernel

/-- R239, R248: D64 majors with every field of the layout at a value of its own. -/
theorem test_decode_d64_float :
    decodeD64 0x100420C0B7E0000A = .ok (.vfadd ⟨1, 2, 3, 0, 5, true, 1, true, true, true, true, true, 0, 0x000A⟩) ∧
    decodeD64 0x110420C0B7E0000A = .ok (.vfsub ⟨1, 2, 3, 0, 5, true, 1, true, true, true, true, true, 0, 0x000A⟩) ∧
    decodeD64 0x120420C0B7E0000A = .ok (.vfmul ⟨1, 2, 3, 0, 5, true, 1, true, true, true, true, true, 0, 0x000A⟩) ∧
    decodeD64 0x13042FC4B7E0000C = .ok (.vfma ⟨1, 2, 63, 4, 5, true, 1, true, true, true, true, true, 0, 0x000C⟩) ∧
    decodeD64 0x14042FC4B7E0000C = .ok (.vfms ⟨1, 2, 63, 4, 5, true, 1, true, true, true, true, true, 0, 0x000C⟩) ∧
    decodeD64 0x15042FC4B7E0000C = .ok (.vfnma ⟨1, 2, 63, 4, 5, true, 1, true, true, true, true, true, 0, 0x000C⟩) ∧
    decodeD64 0x16042980B6A00088 = .ok (.vfmin ⟨1, 2, 38, 0, 5, true, 1, true, false, true, false, true, 0, 0x0088⟩) ∧
    decodeD64 0x17042980B6A00088 = .ok (.vfmax ⟨1, 2, 38, 0, 5, true, 1, true, false, true, false, true, 0, 0x0088⟩) ∧
    decodeD64 0x181C20C0B7E70010 = .ok (.vfcmp ⟨7, 2, 3, 0, 5, true, 1, true, true, true, true, true, 7, 0x0010⟩) ∧
    decodeD64 0x19042000B6A7000B = .ok (.vfspec ⟨1, 2, 0, 0, 5, true, 1, true, false, true, false, true, 7, 0x000B⟩) ∧
    decodeD64 0x1A0420C0B7E0000A = .ok (.vfdiv ⟨1, 2, 3, 0, 5, true, 1, true, true, true, true, true, 0, 0x000A⟩) := by decide +kernel

/-- R239, R248: D64 majors with every field of the layout at a value of its own. -/
theorem test_decode_d64_int :
    decodeD64 0x200420C0B7E00140 = .ok (.viadd ⟨1, 2, 3, 0, 5, true, 1, true, true, true, true, true, 0, 0x0140⟩) ∧
    decodeD64 0x210420C0B7E00140 = .ok (.visub ⟨1, 2, 3, 0, 5, true, 1, true, true, true, true, true, 0, 0x0140⟩) ∧
    decodeD64 0x220420C0B7E10050 = .ok (.vimul ⟨1, 2, 3, 0, 5, true, 1, true, true, true, true, true, 1, 0x0050⟩) ∧
    decodeD64 0x230420C4B7E00148 = .ok (.vimad ⟨1, 2, 3, 4, 5, true, 1, true, true, true, true, true, 0, 0x0148⟩) ∧
    decodeD64 0x240420C0B7E10058 = .ok (.vimin ⟨1, 2, 3, 0, 5, true, 1, true, true, true, true, true, 1, 0x0058⟩) ∧
    decodeD64 0x250420C0B7E10058 = .ok (.vimax ⟨1, 2, 3, 0, 5, true, 1, true, true, true, true, true, 1, 0x0058⟩) ∧
    decodeD64 0x260427C0B6A00080 = .ok (.vand ⟨1, 2, 31, 0, 5, true, 1, true, false, true, false, true, 0, 0x0080⟩) ∧
    decodeD64 0x270427C0B6A00080 = .ok (.vor ⟨1, 2, 31, 0, 5, true, 1, true, false, true, false, true, 0, 0x0080⟩) ∧
    decodeD64 0x280427C0B6A00080 = .ok (.vxor ⟨1, 2, 31, 0, 5, true, 1, true, false, true, false, true, 0, 0x0080⟩) ∧
    decodeD64 0x2904203FB6A10060 = .ok (.vshl ⟨1, 2, 0, 63, 5, true, 1, true, false, true, false, true, 1, 0x0060⟩) ∧
    decodeD64 0x2A04203FB6A10060 = .ok (.vshr ⟨1, 2, 0, 63, 5, true, 1, true, false, true, false, true, 1, 0x0060⟩) ∧
    decodeD64 0x2B04203FB6A10060 = .ok (.vsar ⟨1, 2, 0, 63, 5, true, 1, true, false, true, false, true, 1, 0x0060⟩) ∧
    decodeD64 0x2C1820C0B7E60040 = .ok (.vicmp ⟨6, 2, 3, 0, 5, true, 1, true, true, true, true, true, 6, 0x0040⟩) ∧
    decodeD64 0x2D042000B6A20040 = .ok (.vibit ⟨1, 2, 0, 0, 5, true, 1, true, false, true, false, true, 2, 0x0040⟩) := by decide +kernel

/-- R239, R248: D64 majors with every field of the layout at a value of its own. -/
theorem test_decode_d64_mask_move :
    decodeD64 0x300420C004030000 = .ok (.mop ⟨1, 2, 3, 0, 0, false, 1, false, false, false, false, false, 3, 0x0000⟩) ∧
    decodeD64 0x317C700004000000 = .ok (.mcnt ⟨31, 7, 0, 0, 0, false, 1, false, false, false, false, false, 0, 0x0000⟩) ∧
    decodeD64 0x3204200004010000 = .ok (.mfirst ⟨1, 2, 0, 0, 0, false, 1, false, false, false, false, false, 1, 0x0000⟩) ∧
    decodeD64 0x330420C004010000 = .ok (.mmov ⟨1, 2, 3, 0, 0, false, 1, false, false, false, false, false, 1, 0x0000⟩) ∧
    decodeD64 0x38042000B6A001AC = .ok (.vcvt ⟨1, 2, 0, 0, 5, true, 1, true, false, true, false, true, 0, 0x01AC⟩) ∧
    decodeD64 0x39042000B6A10068 = .ok (.vmov ⟨1, 2, 0, 0, 5, true, 1, true, false, true, false, true, 1, 0x0068⟩) ∧
    decodeD64 0x3A06000054000008 = .ok (.vbcast ⟨1, 32, 0, 0, 2, true, 1, false, false, false, false, false, 0, 0x0008⟩) ∧
    decodeD64 0x3B0420C7B7E00000 = .ok (.vsel ⟨1, 2, 3, 7, 5, true, 1, true, true, true, true, true, 0, 0x0000⟩) ∧
    decodeD64 0x3C04200006807F80 = .ok (.vlane ⟨1, 2, 0, 0, 0, false, 1, true, false, true, false, false, 0, 0x7F80⟩) ∧
    decodeD64 0x3D04288004010080 = .ok (.vins ⟨1, 2, 34, 0, 0, false, 1, false, false, false, false, false, 1, 0x0080⟩) := by decide +kernel

/-- R239, R248: D64 majors with every field of the layout at a value of its own. -/
theorem test_decode_d64_cross :
    decodeD64 0x40042007B6A00000 = .ok (.vxch ⟨1, 2, 0, 7, 5, true, 1, true, false, true, false, true, 0, 0x0000⟩) ∧
    decodeD64 0x41042000B6A07F00 = .ok (.vrot ⟨1, 2, 0, 0, 5, true, 1, true, false, true, false, true, 0, 0x7F00⟩) ∧
    decodeD64 0x420420C0B7E00000 = .ok (.vshuf ⟨1, 2, 3, 0, 5, true, 1, true, true, true, true, true, 0, 0x0000⟩) ∧
    decodeD64 0x43042000B6A20008 = .ok (.vred ⟨1, 2, 0, 0, 5, true, 1, true, false, true, false, true, 2, 0x0008⟩) ∧
    decodeD64 0x44042000B6A10088 = .ok (.vscan ⟨1, 2, 0, 0, 5, true, 1, true, false, true, false, true, 1, 0x0088⟩) ∧
    decodeD64 0x4504201F66800000 = .ok (.vcomp ⟨1, 2, 0, 31, 3, false, 1, true, false, true, false, false, 0, 0x0000⟩) ∧
    decodeD64 0x4604201FB6A00000 = .ok (.vexpd ⟨1, 2, 0, 31, 5, true, 1, true, false, true, false, true, 0, 0x0000⟩) ∧
    decodeD64 0x4704200306800718 = .ok (.vprune ⟨1, 2, 0, 3, 0, false, 1, true, false, true, false, false, 0, 0x0718⟩) := by decide +kernel

/-- R239, R248: D64 majors with every field of the layout at a value of its own. -/
theorem test_decode_d64_pantry_scalar :
    decodeD64 0x5004201F360DFFFF = .ok (.vld ⟨1, 2, 0, 31, 1, true, 1, true, false, false, false, false, 13, 0xFFFF⟩) ∧
    decodeD64 0x510020D025400008 = .ok (.vst ⟨0, 2, 3, 16, 1, false, 1, false, true, false, true, false, 0, 0x0008⟩) ∧
    decodeD64 0x520420C037410008 = .ok (.vldx ⟨1, 2, 3, 0, 1, true, 1, true, true, false, true, false, 1, 0x0008⟩) ∧
    decodeD64 0x530020C425400008 = .ok (.vstx ⟨0, 2, 3, 4, 1, false, 1, false, true, false, true, false, 0, 0x0008⟩) ∧
    decodeD64 0x5404200034080004 = .ok (.vldc ⟨1, 2, 0, 0, 1, true, 1, false, false, false, false, false, 8, 0x0004⟩) ∧
    decodeD64 0x560020C404000008 = .ok (.pfill ⟨0, 2, 3, 4, 0, false, 1, false, false, false, false, false, 0, 0x0008⟩) ∧
    decodeD64 0x570020D204020080 = .ok (.pmark ⟨0, 2, 3, 18, 0, false, 1, false, false, false, false, false, 2, 0x0080⟩) ∧
    decodeD64 0x600420C004170000 = .ok (.salu ⟨1, 2, 3, 0, 0, false, 1, false, false, false, false, false, 23, 0x0000⟩) ∧
    decodeD64 0x610420000407BEEF = .ok (.sli ⟨1, 2, 0, 0, 0, false, 1, false, false, false, false, false, 7, 0xBEEF⟩) ∧
    decodeD64 0x620020D104030008 = .ok (.sst ⟨0, 2, 3, 17, 0, false, 1, false, false, false, false, false, 3, 0x0008⟩) ∧
    decodeD64 0x6304200006060004 = .ok (.sld ⟨1, 2, 0, 0, 0, false, 1, true, false, false, false, false, 6, 0x0004⟩) ∧
    decodeD64 0x6800700004010000 = .ok (.dwpush ⟨0, 7, 0, 0, 0, false, 1, false, false, false, false, false, 1, 0x0000⟩) := by decide +kernel

/-- R239, R248: D64 majors with every field of the layout at a value of its own. -/
theorem test_decode_d64_matrix_rest :
    decodeD64 0x701C2004060005D1 = .ok (.mma ⟨7, 2, 0, 4, 0, false, 1, true, false, false, false, false, 0, 0x05D1⟩) ∧
    decodeD64 0x710420C4074002B0 = .ok (.mmas ⟨1, 2, 3, 4, 0, false, 1, true, true, false, true, false, 0, 0x02B0⟩) ∧
    decodeD64 0x7204000004000040 = .ok (.mzero ⟨1, 0, 0, 0, 0, false, 1, false, false, false, false, false, 0, 0x0040⟩) ∧
    decodeD64 0x730020D0040C0081 = .ok (.msta ⟨0, 2, 3, 16, 0, false, 1, false, false, false, false, false, 12, 0x0081⟩) ∧
    decodeD64 0x7404200006010080 = .ok (.mlda ⟨1, 2, 0, 0, 0, false, 1, true, false, false, false, false, 1, 0x0080⟩) ∧
    decodeD64 0x750020C406010008 = .ok (.mscl ⟨0, 2, 3, 4, 0, false, 1, true, false, false, false, false, 1, 0x0008⟩) ∧
    decodeD64 0x760470000400001F = .ok (.mrdv ⟨1, 7, 0, 0, 0, false, 1, false, false, false, false, false, 0, 0x001F⟩) ∧
    decodeD64 0x7800000004000000 = .ok (.vgrab ⟨0, 0, 0, 0, 0, false, 1, false, false, false, false, false, 0, 0x0000⟩) ∧
    decodeD64 0x7900000008000000 = .ok (.vdrop ⟨0, 0, 0, 0, 0, false, 2, false, false, false, false, false, 0, 0x0000⟩) ∧
    decodeD64 0x7A0000000C010000 = .ok (.dnop ⟨0, 0, 0, 0, 0, false, 3, false, false, false, false, false, 1, 0x0000⟩) := by decide +kernel

/-- R185, R187: the task opcodes. -/
theorem test_decode_task :
    decodeTask 0x0000000000000000000000000000104000004509000000000000000000000001 = .ok (.bind ⟨0, 0, 0x0, 0x4509, 0x1040, 0x0⟩) ∧
    decodeTask 0x00000000000000000000000000000000000000FF000000000000000000000002 = .ok (.unbind ⟨0, 0, 0x0, 0xff, 0x0, 0x0⟩) ∧
    decodeTask 0x000000030000001000000000000070000000003F000000000000000000000003 = .ok (.pool ⟨0, 0, 0x0, 0x3f, 0x7000, 0x300000010⟩) ∧
    decodeTask 0x0000000000000080000000000000004000000000000000000005032021010010 = .ok (.launch ⟨0, 0, 0x503202101, 0x0, 0x40, 0x80⟩) ∧
    decodeTask 0x0000000000000080000000000000004000000000000000000000003021010011 = .ok (.copy ⟨0, 0, 0x302101, 0x0, 0x40, 0x80⟩) ∧
    decodeTask 0x0000000000000040000000000100000000003000000000003042031021010012 = .ok (.gather ⟨0, 0, 0x304203102101, 0x3000, 0x1000000, 0x40⟩) ∧
    decodeTask 0x000000000000004000000000000000010000A004000000000005031021010013 = .ok (.scatter ⟨0, 0, 0x503102101, 0xa004, 0x1, 0x40⟩) ∧
    decodeTask 0x0000000000000080000000000000004000000000000000000001032021010014 = .ok (.level ⟨0, 0, 0x103202101, 0x0, 0x40, 0x80⟩) ∧
    decodeTask 0x00000000000000400123456789ABCDEF00000000000000000000000002070015 = .ok (.fill ⟨0, 0, 0x207, 0x0, 0x123456789abcdef, 0x40⟩) ∧
    decodeTask 0x00000000000000000000000000EF04AC00000002000000000000000000000020 = .ok (.phase ⟨0, 0, 0x0, 0x2, 0xef04ac, 0x0⟩) ∧
    decodeTask 0xFFFFFFFFFFFFFFFF000000000000100800000001000000000000000000000A21 = .ok (.signal ⟨10, 0, 0x0, 0x1, 0x1008, 0xffffffffffffffff⟩) ∧
    decodeTask 0x00000000000000070000000000001008FFFFFFFF000000000000000000005822 = .ok (.waitev ⟨8, 5, 0x0, 0xffffffff, 0x1008, 0x7⟩) ∧
    decodeTask 0x0000000000000000000000000000000000000000000000000000000000000A23 = .ok (.tfence ⟨10, 0, 0x0, 0x0, 0x0, 0x0⟩) ∧
    decodeTask 0x0000000000000000FFFFFFFFFFFFFFE000000000000000000000000000000028 = .ok (.tjmp ⟨0, 0, 0x0, 0x0, 0xffffffffffffffe0, 0x0⟩) ∧
    decodeTask 0x00000000000000090000000000000008FFFFFFFF000000000000000000003429 = .ok (.tjmpc ⟨4, 3, 0x0, 0xffffffff, 0x8, 0x9⟩) ∧
    decodeTask 0x000000000000000000000000FFFFFFFF000001FF00000000000000000000002A = .ok (.cancel ⟨0, 0, 0x0, 0x1ff, 0xffffffff, 0x0⟩) ∧
    decodeTask 0x000000000000000000000000000000000000000000000000000000000000002F = .ok (.halt ⟨0, 0, 0x0, 0x0, 0x0, 0x0⟩) := by decide +kernel

/-! ### Well-formedness: an ill-formed term for each check, which the check refuses -/

/-- A CX instruction with all fields zero, and a D64 one. -/
def cx0 : CX := ⟨0, 0, 0, 0, 0, 0, 0, 0⟩
def d0 : D64 := ⟨0, 0, 0, 0, 0, false, 0, false, false, false, false, false, 0, 0⟩
def r0 : Rec := ⟨0, 0, 0, 0, 0, 0⟩

/-- R246, R284, R290, R292, R293, R288: rb of CLZ, CTZ, POPC; a shift of 64; fields and numbers of CSRR, CSRW; fields of TRAP, YIELD; LDS of 8 bytes. -/
theorem test_wf_refuses_control :
    [Instr.clz ⟨1, 2, 3⟩, .ctz ⟨1, 2, 3⟩, .popc ⟨1, 2, 3⟩, .slli ⟨1, 2, 64⟩, .srai ⟨1, 2, 0x1FFF⟩, .csrr ⟨1, 2, 0⟩, .csrr ⟨1, 0, 0x012⟩, .csrw ⟨1, 2, 0x020⟩,
      .csrw ⟨0, 2, 0⟩, .trap ⟨1, 0, 0⟩, .yield ⟨0, 1, 0⟩, .lds ⟨1, 2, 3, 0⟩].all (fun i => !i.wf) = true := by decide +kernel

/-- R234, cause 3 and cause 2: each field that a form does not use, and reserved functions. -/
theorem test_wf_refuses_unused_cx :
    [Instr.ldo { cx0 with rb := 1 }, .ldo { cx0 with rc := 1 }, .sto { cx0 with rd := 1 }, .fence { cx0 with ra := 1 }, .lea { cx0 with scope := 1 },
      .lea { cx0 with ord := 1 }, .sto { cx0 with sub := 4 }, .fence { cx0 with imm := 1 }, .amo { cx0 with sub := 0x10 }, .amo { cx0 with rc := 2 },
      .mzip { cx0 with rc := 1 }, .munz { cx0 with sub := 1 }, .cpy { cx0 with imm := 1 }, .amo { cx0 with sub := 13 }, .mzip { cx0 with sub := 2 }].all
      (fun i => !i.wf) = true := by decide +kernel

/-- R234, cause 4: scopes above 10, illegal orders, widths, register pairs, fields, limits. -/
theorem test_wf_refuses_reserved_cx :
    [Instr.ldo { cx0 with scope := 11 }, .ldo { cx0 with ord := 2 }, .ldo { cx0 with sub := 7 }, .sto { cx0 with ord := 1 }, .sto { cx0 with ord := 3 },
      .amo { cx0 with sub := 0x4B }, .amo { cx0 with sub := 12, rd := 2 }, .amo { cx0 with sub := 0x4C, rd := 3 }, .amo { cx0 with sub := 0x4C },
      .amo { cx0 with sub := 0x4C, rd := 2, rb := 5 }, .amo { cx0 with sub := 0x4C, rd := 2, rc := 5 }, .waitv { cx0 with ord := 2 },
      .munz { cx0 with sub := 4 }, .munz { cx0 with sub := 6 }, .munz { cx0 with sub := 14 }, .bfx { cx0 with imm := 5 }, .bfx { cx0 with imm := 65 * 64 }, .bfi { cx0 with imm := 64 * 64 + 1 },
      .dwpop { cx0 with sub := 1, rd := 3 }, .dwpop { cx0 with sub := 1 }, .engq { cx0 with imm := 256 }, .engq { cx0 with sub := 1, imm := 8 },
      .engq { cx0 with sub := 2, imm := 3 }].all (fun i => !i.wf) = true := by decide +kernel

/-- R234, R239 to R244, R315: the field rules of the data slice. -/
theorem test_wf_refuses_data :
    [Instr.vfadd { d0 with vc := 1 }, .vfadd { d0 with fn := 1 }, .vfadd { d0 with vb := 39, x16 := 0x80 }, .mcnt { d0 with va := 8 }, .mzero { d0 with vd := 8, x16 := 8 },
      .vcomp { d0 with vc := 32 }, .vld { d0 with vc := 1 }, .vld { d0 with vc := 32 }, .mcnt { d0 with msel := 1 }, .mop { d0 with z := true },
      .vbcast { d0 with fa := true, x16 := 8 }, .vfadd { d0 with fb := true, x16 := 0x80 }, .vst { d0 with la := true }, .vfadd { d0 with lb := true, x16 := 0x80 },
      .vfadd { d0 with x16 := 0x100 }, .vfadd { d0 with x16 := 5 }, .vfadd { d0 with x16 := 0x28 }, .vcvt d0, .vxch d0, .vxch { d0 with vc := 8 },
      .vprune { d0 with x16 := 0x18 }, .sld { d0 with fn := 7 }, .mma d0, .mma { d0 with x16 := 0x998 }, .mrdv { d0 with x16 := 32 }, .vcomp { d0 with z := true },
      .pmark { d0 with ru := true }, .vgrab { d0 with ru := true }].all (fun i => !i.wf) = true := by decide +kernel

/-- R185, R186, R188: slots, codes and fields of task records. -/
theorem test_wf_refuses_records :
    [Instr.launch { r0 with slots := 0x601 }, .launch { r0 with slots := 0x101001 }, .launch { r0 with slots := 0x101101 }, .halt { r0 with scope := 1 }, .signal { r0 with scope := 11 },
      .waitev { r0 with cnd := 6 }, .halt { r0 with cnd := 1 }, .bind { r0 with slots := 0x101 }, .bind { r0 with x32 := 0x8000 }, .bind { r0 with q2 := 32 },
      .bind { r0 with q2 := 0x200000000000000 }, .bind { r0 with q3 := 1 }, .unbind { r0 with x32 := 256 }, .pool { r0 with q3 := 1 }, .pool { r0 with q3 := 0x100000000 },
      .pool { r0 with q2 := 64, q3 := 0x100000001 }, .launch r0, .launch { r0 with slots := 0x101, q2 := 8 }, .copy { r0 with slots := 0x101 },
      .copy { r0 with slots := 0x102101, x32 := 1 }, .gather { r0 with slots := 0x203102101, x32 := 6, q2 := 1 }, .gather { r0 with slots := 0x203102101, x32 := 4 },
      .gather { r0 with slots := 0x203102101, x32 := 0x2004, q2 := 1 }, .scatter { r0 with slots := 0x503102101, x32 := 4, q2 := 1 },
      .scatter { r0 with slots := 0x503102101, x32 := 0xE004, q2 := 1 }, .level { r0 with slots := 0x102101 }, .fill { r0 with slots := 0x101 },
      .phase { r0 with x32 := 11 }, .phase { r0 with x32 := 1, q2 := 0x1000 }, .phase { r0 with x32 := 1, q2 := 0x11 }, .phase { r0 with x32 := 1, q2 := 0x300 },
      .phase { r0 with x32 := 2 }, .signal { r0 with x32 := 2 }, .signal { r0 with q2 := 4 }, .waitev { r0 with q2 := 4 }, .tfence { r0 with x32 := 1 },
      .tjmp { r0 with q2 := 16 }, .tjmpc { r0 with q2 := 4 }, .cancel { r0 with x32 := 512 }, .cancel { r0 with q2 := 0x100000000 }, .halt { r0 with q3 := 1 }].all
      (fun i => !i.wf) = true := by decide +kernel

/-- R234, R235, R188: what the decoders refuse, with its cause and value. -/
theorem test_decode_refuses :
    decodeC32 0 = .ok .illegal ∧ decodeC32 0x1A000000 = .error ⟨1, 0x0D⟩ ∧ decodeC32 0x0200001B = .error ⟨2, 0x1B⟩ ∧ decodeC32 0x20001800 = .error ⟨2, 6⟩ ∧
    decodeC32 0x02000098 = .error ⟨3, 0⟩ ∧ decodeCX 0 = .error ⟨1, 0⟩ ∧ decodeD64 0 = .error ⟨1, 0⟩ ∧ decodeD64 0x5500000000000000 = .error ⟨1, 0x55⟩ ∧
    decodeD64 0x1000000000000005 = .error ⟨4, 5⟩ ∧ decodeTask 0 = .error ⟨0, 0⟩ ∧ decodeTask 0x2E = .error ⟨0, 0x2E⟩ := by decide +kernel

/-- The woven line of 07: its words decode to the instructions that the manual writes beside them. -/
theorem test_decode_woven_line :
    decodeC32 0x0428BFFF = .ok (.addi ⟨5, 5, 0x1FFF⟩) ∧ decodeC32 0x202807FD = .ok (.bNe ⟨5, 0, 0x3FD⟩) ∧
    decodeD64 0x100C108004000000 = .ok (.vfadd { d0 with vd := 3, va := 1, vb := 2, nas := 1 }) ∧
    decodeD64 0x121030C008800000 = .ok (.vfmul { d0 with vd := 4, va := 3, vb := 3, nas := 2, la := true }) := by decide +kernel

/-! ### Small states -/

/-- Job 0 of die 0, and a unit of it on slot 0 of pair 0, of 64 KiB of pantry, 2 counters, 2 tiles, 512 scales a side, 64 registers. -/
def job0 : Job := { id := 0, die := 0, jcb := 0, clus := 0xFFFFFF, vlt := 2 ^ 96 - 1 }
def unit0 (x : Ctx) : UnitSt :=
  { key := ⟨0, 0, 0⟩, die := 0
    launch := { code := 0x200000, lines := 2, entries := [1, 9], pantry := 1, counters := 2, tiles := 2, scales := 1, regs64 := true, spn := true, args := [7] }
    ux := 0, uy := 0, uz := 0, checks := [], stamp := 0, target := [0], place := .placed 0 0, ever := true, when := 0, base := 0, ctxslot := none, trap := none
    ctx := { x with counters := [{}, {}], scaleA := List.replicate 512 0, scaleB := List.replicate 512 0 } }
/-- The module is up, all four dies have booted. -/
def up : State := { fw := { booted := 0xF, live := 0xF, ready := true, epoch := 1, leaseTill := 1000 }, jobs := [job0] }
def ctlOf (c : Ctl) : UnitSt := unit0 { ctl := { c with pc := 1, mode := .here }, dat := { wait := .none, mode := .here, pc := 1 } }
def datOf (d : Dat) : UnitSt := unit0 { dat := { d with pc := 1, mode := .here, wait := .none } }
def inCtl (u : UnitSt) : State := { up with units := [u], cur := .ctl 0 0 }
def inDat (u : UnitSt) : State := { up with units := [u], cur := .dat 0 0 }
/-- Registers c2, c3 and c4 hold a, b and d. -/
def regs (a b d : Word) : Ctl := { c := ((Vector.replicate 64 (0 : Word)).set 2 a).set 3 b |>.set 4 d }

/-- What exec answers, when it goes on. -/
def after (i : Instr) (s : State) : Option State := match exec i s with | .next t => some t | _ => none
/-- The unit after i, and one of its control registers; its trap. -/
def unitAfter (i : Instr) (s : State) : Option UnitSt := (after i s).bind (fun t => t.findUnit ⟨0, 0, 0⟩)
def regAfter (i : Instr) (s : State) (k : BitVec 6) : Option Word := (unitAfter i s).map (fun u => u.c k)
def trapAfter (i : Instr) (s : State) : Option (Nat × Nat × Nat) := ((unitAfter i s).bind UnitSt.trap).map (fun t => (t.code, t.addr, t.info))

theorem ctlAt_of {s : State} {u : UnitSt} (h : s.cur = .ctl 0 0 ∧ s.resident 0 0 = some u ∧ s.findUnit u.key = some u ∧ u.ctlRuns = true) : CtlAt s u := ⟨0, 0, h⟩
theorem datAt_of {s : State} {u : UnitSt} (h : s.cur = .dat 0 0 ∧ s.resident 0 0 = some u ∧ s.findUnit u.key = some u ∧ u.datRuns = true) : DatAt s u := ⟨0, 0, h⟩
/-- The page of virtual address 0x200000 stands in the TLB of pair 0, with this leaf. -/
def paged (pte : BitVec 64) (s : State) : State := { s with pairs := [{ id := 0, tlb := [⟨0, 0x200, 1, pte, 0, 0⟩] }] }


/-! ### Control instructions -/

/-- AluResults, ImmediateResults, AddressHelperResults, SystemRegisters: a unit at work with the extreme operands of R283. -/
theorem wit_ctl_at : CtlAt (inCtl (ctlOf (regs 0x8000000000000000 (-1) 0))) (ctlOf (regs 0x8000000000000000 (-1) 0)) ∧
    (ctlOf (regs 0x8000000000000000 (-1) 0)).c 2 = 0x8000000000000000 ∧ (ctlOf (regs 0x8000000000000000 (-1) 0)).c 3 = 0xFFFFFFFFFFFFFFFF ∧
    (ctlOf (regs 5 0 0)).c 3 = 0 := ⟨ctlAt_of (by decide +kernel), by decide +kernel⟩

/-- R282, R283: results worked out by hand. -/
theorem test_alu : let s := inCtl (ctlOf (regs 0x8000000000000000 (-1) 0)); let f : CR := ⟨1, 2, 3⟩
    [Instr.add f, .div f, .rem f, .sra f, .slt f, .sltu f, .mulhu f, .mulh f, .maxu f, .ror f, .andn f].map (fun i => regAfter i s 1) =
      [0x7FFFFFFFFFFFFFFF, 0x8000000000000000, 0, 0xFFFFFFFFFFFFFFFF, 1, 1, 0x7FFFFFFFFFFFFFFF, 0, 0xFFFFFFFFFFFFFFFF, 1, 0].map some := by decide +kernel
theorem test_alu_signs : let s := inCtl (ctlOf (regs (-7) 2 0)); let f : CR := ⟨1, 2, 3⟩
    [Instr.div f, .rem f, .sub f, .sll f, .srl f, .min f, .clz ⟨1, 3, 0⟩, .ctz ⟨1, 3, 0⟩, .popc ⟨1, 2, 0⟩].map (fun i => regAfter i s 1) =
      [-3, -1, -9, -28, 0x3FFFFFFFFFFFFFFE, -7, 62, 1, 62].map some := by decide +kernel
theorem test_division_by_zero : let s := inCtl (ctlOf (regs 5 0 0)); let f : CR := ⟨1, 2, 3⟩
    [Instr.div f, .divu f, .rem f, .remu f].map (fun i => (trapAfter i s, regAfter i s 1)) = List.replicate 4 (some (0x0B, 0, 0), some 0) := by decide +kernel
/-- R236, R284, R285: c0 is not written; sign extension of imm13; ADDPC from CODE and LINEOFF. -/
theorem test_immediates : let s := inCtl (ctlOf (regs 0x10 0 0))
    [regAfter (.addi ⟨1, 2, 0x1FFF⟩) s 1, regAfter (.andi ⟨1, 2, 0x1FF0⟩) s 1, regAfter (.srai ⟨1, 2, 4⟩) s 1, regAfter (.slti ⟨1, 2, 0x1FFF⟩) s 1,
      regAfter (.sltiu ⟨1, 2, 0x1FFF⟩) s 1, regAfter (.lih ⟨1, 0x7FFFF⟩) s 1, regAfter (.addpc ⟨1, 0x7FFFF⟩) s 1, regAfter (.addi ⟨0, 2, 1⟩) s 0] =
      [0xF, 0x10, 1, 0, 1, 0xFFFFFFFFFFFFE000, 0x200000, 0].map some := by decide +kernel
/-- R286, R287: a taken and an untaken branch; JAL links the next word; a JALR target above 32 bits. -/
theorem test_branches : let s := inCtl (ctlOf (regs 1 (-1) 0))
    [unitAfter (.bLtu ⟨2, 3, 5⟩) s, unitAfter (.bLt ⟨2, 3, 5⟩) s].map (fun u => u.map (fun u => (u.ctx.ctl.pc, u.ctx.ctl.mode))) =
      [some (6, .transfer), some (2, .walk)] ∧ trapAfter (.jalr ⟨1, 3, 0⟩) s = some (0x02, 0xFFFFFFFFFFFFFFFF, 6) := by decide +kernel
/-- ControlTransfers: the three ends of the walk, the first two at lines that hold two words and none. -/
theorem wit_jumps : let u : UnitSt := ctlOf { buf := some (0, 0x10000011) }; let s := inCtl u
    (match (nextPc u false false (u.launch.lines + 1) s u.ctx.ctl.buf (u.ctx.ctl.pc + 1)).2 with | .found pc => pc == 2 | _ => false) = true ∧
    unitAfter (.jal ⟨1, 7⟩) s = some (((u.setC 1 2).modCtl (Ctl.transfer 8)).stamped 0) := by decide +kernel
theorem wit_jumps_stop : let u : UnitSt := { ctlOf { buf := some (0, 0x10000001) } with launch := { code := 0x200000, lines := 1 } }; let s := inCtl u
    (match (nextPc u false false (u.launch.lines + 1) s u.ctx.ctl.buf (u.ctx.ctl.pc + 1)).2 with | .stop _ c => c == 6 | _ => false) = true ∧
    regAfter (.jal ⟨1, 7⟩) s 1 = some 8 := by decide +kernel
theorem wit_jumps_fault : let u : UnitSt := ctlOf { buf := some (0, 1) }; let s := { paged 0x10000F (inCtl u) with poison := [0x100000] }
    (match (nextPc u false false (u.launch.lines + 1) s u.ctx.ctl.buf (u.ctx.ctl.pc + 1)).2 with | .fault _ code va _ => code == 0x17 && va == 0x200020 | _ => false) = true ∧
    trapAfter (.jalr ⟨1, 0, 7⟩) s = some (0x17, 0x200020, 0) ∧ regAfter (.jalr ⟨1, 0, 7⟩) s 1 = some 0 := by decide +kernel

/-- AddressHelperResults (R304 to R306): each form at the ends of its fields. -/
theorem test_address_helpers : let s := inCtl (ctlOf (regs 0xFFFFFFFF0000000F 1 0))
    [regAfter (.lea ⟨1, 2, 3, 0, 0, 0, 7, 0xFFFFF⟩) s 1, regAfter (.mzip ⟨1, 2, 3, 0, 0, 0, 0, 0⟩) s 1, regAfter (.mzip ⟨1, 3, 3, 3, 0, 0, 1, 0⟩) s 1,
      regAfter (.munz ⟨1, 2, 0, 0, 0, 0, 0, 0⟩) s 1, regAfter (.munz ⟨1, 2, 0, 0, 0, 0, 2, 0⟩) s 1, regAfter (.munz ⟨1, 2, 0, 0, 0, 0, 12, 0⟩) s 1,
      regAfter (.bfx ⟨1, 2, 0, 0, 0, 0, 0, 64 * 64⟩) s 1, regAfter (.bfx ⟨1, 2, 0, 0, 0, 0, 1, 64 * 4⟩) s 1,
      regAfter (.bfi ⟨2, 3, 0, 0, 0, 0, 0, 64 * 1 + 63⟩) s 2] =
      [0xFFFFFFFF0000008E, 0x57, 7, 0xFFFF0003, 0xFFFF0003, 0x1FFC01, 0xFFFFFFFF0000000F, -1, 0xFFFFFFFF0000000F].map some := by decide +kernel
/-- SystemRegisters (R291): WIDTH, PAIR, TIDX, JOBID, CODE, STKSZ, FPMODE and ARG0; CSRW FPMODE drops reserved bits. -/
theorem test_system_registers : let s := inCtl (ctlOf { (regs (-1) 0 0) with fpmode := 0x105 })
    [0x000, 0x001, 0x00B, 0x00C, 0x00D, 0x00F, 0x020, 0x040, 0x047].map (fun k => regAfter (.csrr ⟨1, 0, k⟩) s 1) = [128, 0, 0, 0, 0x200000, 0, 0x105, 7, 0].map some ∧
    (unitAfter (.csrw ⟨0, 2, 0x020⟩) s).map (fun u => u.ctx.ctl.fpmode) = some 0x1FF ∧
    (unitAfter (.csrw ⟨0, 2, 0x021⟩) s).map (fun u => u.ctx.ctl.fpflags) = some 0x3F := by decide +kernel
/-- TrapsAndEnds: TRAP with its next word found, at the object's end, and where the fetch of the next line faults; the trap's saved PC. -/
theorem wit_trap : let u : UnitSt := ctlOf { buf := some (0, 0x10000011) }; let s := inCtl u
    (match (nextPc u false true (u.launch.lines + 1) s u.ctx.ctl.buf (u.ctx.ctl.pc + 1)).2 with | .found pc => pc == 2 | _ => false) = true ∧
    ((nextPc u false true (u.launch.lines + 1) s u.ctx.ctl.buf (u.ctx.ctl.pc + 1)).1.findUnit u.key).isSome = true ∧
    trapAfter (.trap ⟨0, 0, 0x1FFF⟩) s = some (0x20, 0, 0x1FFF) ∧
    ((unitAfter (.trap ⟨0, 0, 5⟩) s).bind UnitSt.trap).map Trap.pc = some 2 := by decide +kernel
theorem test_illegal : trapAfter .illegal (inCtl (ctlOf {})) = some (0x01, 0, 1) := by decide +kernel
/-- R293: YIELD 3 gives up 3 clocks; the end of it finds the slice at its next word. -/
theorem test_yield : (unitAfter (.yield ⟨0, 0, 3⟩) (inCtl (ctlOf {}))).map (fun u => u.ctx.ctl.wait) = some (.yielding 3) ∧
    (let s := { inCtl (ctlOf { wait := .yielding 3 }) with cycle := 3, cur := .none }
     s.resident 0 0 = some (ctlOf { wait := .yielding 3 }) ∧ (unitAfter (.yieldEnd 0 0) s).map (fun u => (u.ctx.ctl.wait, u.ctx.ctl.pc)) = some (.none, 2)) := by decide +kernel
/-- R294: EXIT pushes the end marker once and waits; with nothing outstanding the slice ends. -/
theorem test_exit : (unitAfter .exit (inCtl (ctlOf {}))).map (fun u => (u.ctx.chute, u.ctx.ctl.marker, u.ctx.ctl.wait)) = some ([⟨0x80000000, 0⟩], true, .exiting 2) ∧
    (unitAfter .exit (inCtl (ctlOf { marker := true }))).map (fun u => (u.ctx.chute, u.ctx.ctl.wait)) = some ([], .exiting 2) := by decide +kernel
theorem wit_exit_complete : let s := { inCtl (ctlOf { wait := .exiting 2, marker := true }) with cur := .none }
    s.resident 0 0 = some (ctlOf { wait := .exiting 2, marker := true }) ∧ s.unitCmds ⟨0, 0, 0⟩ = [] ∧
    (unitAfter (.exitComplete 0 0) s).map (fun u => u.ctx.ctl.done) = some true := by decide +kernel

/-! ### Accesses -/

/-- A unit whose c2 names byte 8 of its region, which holds 80 FF 00 00 00 00 00 01. -/
def localU : UnitSt := ctlOf (regs (BitVec.ofNat 64 (localWindow + 8)) 2 9)
def localS : State := (inCtl localU).setBytes (localU.pantryPa 8) ([0x80, 0xFF, 0, 0, 0, 0, 0, 1].map (fun b => { v := b }))
theorem wit_local_access : CtlAt localS localU ∧ LocalAccess localS localU (localWindow + 8) 8 ∧ LocalAccess localS localU (localWindow + 8) 1 ∧
    mirrorAt localS localU.key 8 8 = none ∧ localS.memWf = true :=
  ⟨ctlAt_of (by decide +kernel), by unfold LocalAccess; decide +kernel, by unfold LocalAccess; decide +kernel, by decide +kernel, by decide +kernel⟩
/-- R288, R289, R295: LD, LDS and LDO of 1, 2 and 8 bytes. -/
theorem test_loads :
    [regAfter (.ld ⟨1, 2, 0, 0⟩) localS 1, regAfter (.lds ⟨1, 2, 0, 0⟩) localS 1, regAfter (.lds ⟨1, 2, 1, 0⟩) localS 1, regAfter (.ld ⟨1, 2, 3, 0⟩) localS 1,
      regAfter (.ldo ⟨1, 2, 0, 0, 0, 0, 5, 0⟩) localS 1, regAfter (.ld ⟨1, 2, 2, 1⟩) localS 1] =
      [0x80, -0x80, -0x80, 0x010000000000FF80, -0x80, 0x01000000].map some := by decide +kernel
/-- R289, R10, R12, R43, R154: the checks in their order, each where the earlier ones pass. -/
theorem test_access_checks : let s (a : Word) := inCtl (ctlOf (regs a 2 9)); let ld : Instr := .ld ⟨1, 2, 3, 0⟩
    trapAfter ld (s (-1)) = some (0x0A, 0xFFFFFFFFFFFFFFFF, 0) ∧ trapAfter ld (s 0x200000000000000) = some (0x10, 0x200000000000000, 1 + 16 * 7) ∧
    trapAfter ld (s (BitVec.ofNat 64 (localWindow + 0x10000))) = some (0x09, localWindow + 0x10000, 0) ∧ trapAfter ld (s 0) = some (0x13, 0, 0) ∧
    trapAfter (.amo ⟨1, 2, 3, 4, 0, 0, 0x40, 0⟩) (s 0) = some (0x13, 0, 0) := by decide +kernel
/-- R146, R296: a store enters the buffer with the low bytes of its data; memory does not change. -/
def sbAfter (i : Instr) (s : State) : List (Nat × Nat × Nat) :=
  ((unitAfter i s).map (fun u => u.ctx.ctl.sb.map (fun e => (e.acc.va, e.acc.pa, leNat e.acc.use.storeData)))).getD []
theorem test_store : sbAfter (.st ⟨3, 2, 0, 1⟩) localS = [(localWindow + 9, localU.pantryPa 9, 2)] ∧
    sbAfter (.sto ⟨0, 2, 4, 0, 0, 0, 1, 2⟩) localS = [(localWindow + 10, localU.pantryPa 10, 9)] ∧
    (after (.st ⟨3, 2, 0, 1⟩) localS).map State.mem = some localS.mem := by decide +kernel
/-- StoresPerform: the same where the address leads through the TLB to HBM, within a check interval. -/
def pageU : UnitSt := { ctlOf (regs 0x200040 2 9) with checks := [⟨0, 0x400000, true, true⟩] }
def pageS : State := paged 0x100007 (inCtl pageU)
theorem wit_store_page : regionOk pageU 0x200040 8 false true = true ∧
    (match xlate pageS pageU false { kind := .store, size := 8 } 0x200040 with | .ok _ pa _ lvl => pa == 0x100040 && lvl == 0 | _ => false) = true ∧
    sbAfter (.st ⟨3, 2, 3, 0⟩) pageS = [(0x200040, 0x100040, 2)] := by decide +kernel
/-- LoadsRead, StoresPerform: the unit after that store. -/
def storedS : State := (after (.st ⟨3, 2, 3, 0⟩) localS).getD up
def storedU : UnitSt := (storedS.findUnit ⟨0, 0, 0⟩).getD localU
theorem wit_forward : CtlAt storedS storedU ∧ (ownStores storedU (storedU.pantryPa 8) 1).length = 1 ∧ regAfter (.ld ⟨1, 2, 0, 0⟩) storedS 1 = some 2 :=
  ⟨ctlAt_of (by decide +kernel), by decide +kernel⟩
theorem wit_drain : let s := { storedS with cur := .none }
    s.memWf = true ∧ s.resident 0 0 = some storedU ∧ storedU.ctx.ctl.flight = [] ∧ storedU.ctx.ctl.sb.length = 1 ∧
    storedU.ctx.ctl.sb.all (fun e => e.rel == none && e.acc.use == .store [2, 0, 0, 0, 0, 0, 0, 0] e.acc.aid && e.acc.unit == storedU.key &&
      e.acc.size == 8 && (match place52 e.acc.pa with | .pantry _ _ => true | _ => false) && !s.partPoison e.acc.pa e.acc.size) = true ∧
    (after (.storeBufferDrain 0 0) s).map (fun t => ((t.bytesAt (storedU.pantryPa 7) 10).map TByte.v, t.acks.length)) =
      some ([0, 2, 0, 0, 0, 0, 0, 0, 0, 0], 1) := by decide +kernel
theorem test_store_ack : let s := { (after (.storeBufferDrain 0 0) { storedS with cur := .none }).getD up with cur := .none }
    (after (.storeAck 0) s).map (fun t => (t.acks, (t.findUnit ⟨0, 0, 0⟩).map (fun u => u.ctx.ctl.unacked.toArray.getD 0 9))) = some ([], some 0) := by decide +kernel
theorem wit_store_buffer_space : storedU.ctx.ctl.sb.all (fun e => let u := ctlOf { wait := .storeBuf e }; let s := { inCtl u with cur := .none }
    s.resident 0 0 == some u && (unitAfter (.storeBufferSpace 0 0) s).map (fun v => (v.ctx.ctl.sb, v.ctx.ctl.pc)) == some ([e], 2)) = true := by decide +kernel
/-- R297, R298: ADD, MIN (signed), SWAP, CAS of 32 bits, CAS128: what is read and what is then in memory. -/
theorem test_amo : let mem (i : Instr) := (after i localS).map (fun t => leNat ((t.bytesAt (localU.pantryPa 8) 8).map TByte.v))
    [mem (.amo ⟨1, 2, 3, 0, 0, 0, 0x40, 0⟩), mem (.amo ⟨1, 2, 3, 0, 0, 0, 0x46, 0⟩), mem (.amo ⟨1, 2, 3, 0, 0, 0, 0x08, 4⟩), mem (.amo ⟨1, 2, 3, 4, 0, 0, 0x0A, 0⟩),
      mem (.amo ⟨1, 2, 3, 4, 0, 0, 0x49, 0⟩)] = [0x010000000000FF82, 0x010000000000FF80, 0x010000000000FF80, 0x010000000000FF80, 2].map some ∧
    regAfter (.amo ⟨1, 2, 3, 4, 0, 0, 0x49, 0⟩) localS 1 = some 0x010000000000FF80 := by decide +kernel
theorem test_cas128 : let u := ctlOf { c := ((Vector.replicate 64 (0 : Word)).set 2 (BitVec.ofNat 64 (localWindow + 16))).set 6 7 }; let s := inCtl u
    (after (.amo ⟨8, 2, 4, 6, 0, 0, 0x4C, 0⟩) s).map (fun t => ((t.bytesAt (u.pantryPa 16) 17).map TByte.v, (t.findUnit u.key).map (fun v => (v.c 8, v.c 9)))) =
      some (7 :: List.replicate 16 0, some (0, 0)) := by decide +kernel

/-! ### Fences, waits and queues -/

/-- FencesAndCaches: a drained unit, one with a posted error, one with an unacknowledged store; FENCE, PREF and the cache instructions on the first. -/
def errU : UnitSt := ctlOf { posted := some (0x17, 0x200040, 0) }
def busyU : UnitSt := ctlOf { unacked := (Vector.replicate 4 0).set 0 1 }
theorem wit_fence : CtlAt (inCtl (ctlOf {})) (ctlOf {}) ∧ drained (ctlOf {}) 10 = true ∧ CtlAt (inCtl errU) errU ∧ CtlAt (inCtl busyU) busyU ∧
    drained busyU 4 = false := ⟨ctlAt_of (by decide +kernel), by decide +kernel, ctlAt_of (by decide +kernel), ctlAt_of (by decide +kernel), by decide +kernel⟩
theorem test_fence : (unitAfter (.fence { cx0 with scope := 10 }) (inCtl (ctlOf {}))).map (fun u => u.ctx.ctl.pc) = some 3 ∧
    trapAfter (.fence { cx0 with scope := 4 }) (inCtl errU) = some (0x17, 0x200040, 0) ∧
    (unitAfter (.fence { cx0 with scope := 4 }) (inCtl busyU)).map (fun u => (u.ctx.ctl.wait, u.ctx.ctl.pc)) = some (.release, 1) ∧
    (unitAfter (.fence { cx0 with scope := 4, ord := 1 }) (inCtl busyU)).map (fun u => u.ctx.ctl.pc) = some 3 := by decide +kernel
theorem test_caches : let s := { inCtl (ctlOf {}) with
      pairs := [{ id := 0, l1i := [⟨0, 0x40, 0, 0⟩, ⟨1, 0x40, 0, 0⟩], cc := [⟨0, 1, [], 0⟩, ⟨1, 1, [], 0⟩] }] }
    (after (.icinv { cx0 with scope := 4 }) s).map (fun t => t.pairs.map (fun p => p.l1i.map ILine.job)) = some [[1]] ∧
    (after (.cinv { cx0 with scope := 4 }) s).map (fun t => t.pairs.map (fun p => p.cc.map CcLine.job)) = some [[1]] ∧
    (unitAfter (.pref { cx0 with ra := 2 }) s).map (fun u => u.ctx.ctl.pc) = some 3 := by decide +kernel
/-- WaitsEnd: WAITV on a word that differs from c3; the three ends of a parked one. -/
theorem test_waitv : regAfter (.waitv ⟨1, 2, 3, 4, 1, 0, 1, 0⟩) localS 1 = some 0xFF80 := by decide +kernel
def parkedU (n last lim : Nat) (w : Bool) : UnitSt :=
  { localU with ctx := { localU.ctx with ctl := { localU.ctx.ctl with wait := .waitv (localWindow + 8) (localU.pantryPa 8) 4 false 1 n 1 last (some lim) w none } } }
def parkedS (u : UnitSt) : State := { localS with units := [u], cur := .none, cycle := 4096 }
theorem wit_waitv_parked :
    ((parkedS (parkedU 0 4096 9999 true)).resident 0 0 = some (parkedU 0 4096 9999 true) ∧ regAfter (.waitvWake 0 0) (parkedS (parkedU 0 4096 9999 true)) 1 = some 0xFF80) ∧
    regAfter (.waitvReread 0 0) (parkedS (parkedU 0 2048 9999 false)) 1 = some 0xFF80 ∧
    regAfter (.waitvTimeout 0 0) (parkedS (parkedU 0xFF80 4096 4096 false)) 1 = some 0xFF80 ∧
    (unitAfter (.waitvReread 0 0) (parkedS (parkedU 0xFF80 2048 4097 false))).map (fun u => u.ctx.ctl.pc) = some 1 := by decide +kernel
/-- A linear copy of the unit, in queue 0, on counter 1. -/
def copy0 : Cmd :=
  { id := 5, unit := ⟨0, 0, 0⟩, task := false, pair := 0, queue := 0, scope := 1, ctr := some 1, cls := 0, key := 0, dst := localWindow,
    src := localWindow + 256, kind := .cpyLin 4, status := .issued }
/-- R309: QFENCE passes the queues it does not name, waits for the others, and completes once its commands have ended. -/
theorem test_qfence : let s := { inCtl (ctlOf {}) with cmds := [copy0] }
    (unitAfter (.qfence { cx0 with imm := 6 }) s).map (fun u => u.ctx.ctl.pc) = some 3 ∧
    (unitAfter (.qfence { cx0 with imm := 1 }) s).map (fun u => (u.ctx.ctl.pc, u.ctx.ctl.wait)) = some (1, .qfence 1 0 [5] [1]) ∧
    (let u := ctlOf { wait := .qfence 1 0 [5] [1] }; let s := { inCtl u with cur := .none }
     s.resident 0 0 = some u ∧ (unitAfter (.qfenceComplete 0 0) s).map (fun u => u.ctx.ctl.pc) = some 3) := by decide +kernel
/-- R165, R166, R307: the bits of the pushed entry, its number in c1; a bad index; a full chute, and its end. -/
theorem test_chute_push : let s := inCtl (ctlOf (regs 2 3 4))
    (unitAfter (.chp ⟨1, 2, 3, 4, 0, 0, 0, 0x8001⟩) s).map (fun u => (u.ctx.chute, u.ctx.chTail, u.c 1)) =
      some ([⟨0x00000000000000040000000000000003000000000000000200800001, 0⟩], 1, 0) ∧
    (unitAfter (.chpm ⟨1, 2, 3, 4, 0, 0, 0, 0⟩) s).map (fun u => u.ctx.chute.map (fun e => e.bits.toNat % 2 ^ 32)) = some [0x01000000] ∧
    trapAfter (.chp ⟨1, 2, 3, 4, 0, 0, 0, 2⟩) s = some (0x04, 0, 0) ∧ trapAfter (.chp ⟨1, 2, 3, 4, 0, 0, 0, 0x8101⟩) s = some (0x04, 0, 0) := by decide +kernel
def fullU (w : CtlWait) (n : Nat) : UnitSt := let u := ctlOf { wait := w }; { u with ctx := { u.ctx with chute := List.replicate n ⟨0, 0⟩, chTail := n } }
theorem wit_chute_full : (unitAfter (.chp ⟨1, 0, 0, 0, 0, 0, 0, 0⟩) (inCtl (fullU .none 64))).map (fun u => (u.ctx.chute.length, u.ctx.ctl.pc)) = some (64, 1) ∧
    (let s := { inCtl (fullU (.chute 0 1) 63) with cur := .none }
     s.resident 0 0 = some (fullU (.chute 0 1) 63) ∧ (unitAfter (.chutePushResume 0 0) s).map (fun u => (u.ctx.chute.length, u.ctx.chTail, u.c 1)) = some (64, 64, 63)) := by decide +kernel
/-- R308: the five cases of DWPOP; the pop that waited. -/
def dwU (q : List DwEntry) (w : CtlWait) (e : Bool) : UnitSt := let u := ctlOf { wait := w }; { u with ctx := { u.ctx with dw := q, dat := { u.ctx.dat with done := e } } }
theorem test_dwpop : let pop : Instr := .dwpop { cx0 with rd := 2 }; let popP : Instr := .dwpop { cx0 with rd := 2, sub := 1 }
    regAfter pop (inCtl (dwU [.scalar 7] .none false)) 2 = some 7 ∧ regAfter popP (inCtl (dwU [.pred (2 ^ 64 * 5)] .none false)) 3 = some 5 ∧
    trapAfter popP (inCtl (dwU [.scalar 7] .none false)) = some (0x04, 0, 0) ∧ trapAfter pop (inCtl (dwU [.pred 7] .none false)) = some (0x04, 0, 0) ∧
    trapAfter pop (inCtl (dwU [] .none true)) = some (0x04, 0, 0) ∧ (unitAfter pop (inCtl (dwU [] .none false))).map (fun u => u.ctx.ctl.wait) = some (.dwpop 2 false) := by decide +kernel
theorem wit_dwpop_resume : let u := dwU [.scalar 7] (.dwpop 2 false) false; let s := { inCtl u with cur := .none }
    s.resident 0 0 = some u ∧ regAfter (.dwpopResume 0 0) s 2 = some 7 := by decide +kernel
/-- R225, R310: TENQ with its record read. -/
theorem test_tenq : let u := ctlOf { (regs 0x200040 0 0) with rcd := some (0x200040, leBytes 32 0x2F) }; let s := inCtl u
    s.job u.key.job = some job0 ∧ regAfter (.tenq { cx0 with rd := 1, ra := 2 }) s 1 = some 0 ∧
    (after (.tenq { cx0 with rd := 1, ra := 2 }) s).map (fun t => (t.job 0).map Job.spawn) = some (some [(0, 0x2F)]) ∧
    regAfter (.tenq { cx0 with rd := 1, ra := 2 }) { s with jobs := [{ job0 with spawn := List.replicate 256 (0, 0) }] } 1 = some 1 ∧
    regAfter (.tenq { cx0 with rd := 1, ra := 2 }) (inCtl { u with launch := { u.launch with spn := false } }) 1 = some 2 := by decide +kernel


/-! ### Engine commands of a unit -/

/-- A picker word of n rows of 8 bytes with its index vector at byte 64 of the region. -/
def pickW (n : Nat) : Word := BitVec.ofNat 64 (64 + 2 ^ 20 * n + 2 ^ 33)
def sideW : Word := BitVec.ofNat 64 (localWindow + 128)
def cmdsAfter (i : Instr) (s : State) : List (Nat × Nat × Nat × Bool) :=
  ((after i s).map (fun t => t.cmds.map (fun c => (c.queue, c.dst, c.src, decide (c.status = .issued))))).getD []
/-- EngineIssue (R361 to R364, R371, R375): each command of the unit in its queue with its sides; a copy of 0 bytes issues none. -/
theorem test_engine_issue : let s (a b d : Word) := inCtl (ctlOf (regs a b d)); let ce : BitVec 20 := 0x101
    CtlAt (s sideW 0x200000 (pickW 1)) (ctlOf (regs sideW 0x200000 (pickW 1))) ∧
    cmdsAfter (.cpy ⟨0, 2, 3, 4, 1, 0, 0, ce⟩) (s sideW 0x200000 1) = [(0, localWindow + 128, 0x200000, true)] ∧
    cmdsAfter (.cpy ⟨0, 2, 3, 4, 1, 0, 0, 0⟩) (s 1 2 (2 ^ 40)) = [(0, 1, 2, true)] ∧
    (unitAfter (.cpy ⟨0, 2, 3, 4, 1, 0, 0, 0⟩) (s 1 2 0)).map (fun u => u.ctx.ctl.pc) = some 3 ∧
    cmdsAfter (.gath ⟨1, 2, 3, 4, 1, 0, 1, ce⟩) (s sideW 0x200000 (pickW 4096)) = [(1, localWindow + 128, 0x200000, true)] ∧
    cmdsAfter (.scat ⟨1, 2, 3, 4, 1, 0, 0, ce⟩) (s 0x200000 sideW (pickW 1)) = [(1, 0x200000, localWindow + 128, true)] ∧
    cmdsAfter (.scata ⟨1, 2, 3, 4, 1, 0, 2, ce⟩) (s 0x200000 sideW (pickW 1)) = [(1, 0x200000, localWindow + 128, true)] :=
  ⟨ctlAt_of (by decide +kernel), by decide +kernel⟩
/-- R363, R372, R381: the records that CPY and STAIR read, their fields at the lowest values; and what a shape record refuses. -/
def shapeBytes : List Byte := leBytes 64 (1 + 2 ^ 32 + 2 ^ 64 + 2 ^ 96 + 2 ^ 384 * 0x11)
def stairBytes : List Byte := leBytes 64 (0x11100 + 2 ^ 64 * 2 + 2 ^ 96 + 2 ^ 128)
theorem test_engine_records :
    shapeReserved shapeBytes = false ∧ shapeBad (shapeOf shapeBytes) = false ∧ (shapeAligns (shapeOf shapeBytes) 4 8).all (fun x => x.1 % x.2 == 0) = true ∧
    stairReserved stairBytes = false ∧ stairBad (stairOf stairBytes) = false ∧
    (let u := ctlOf { (regs 4 8 0x200040) with rcd := some (0x200040, shapeBytes) }
     cmdsAfter (.cpy ⟨0, 2, 3, 4, 1, 0, 1, 0⟩) (inCtl u) = [(0, 4, 8, true)]) ∧
    (let u := ctlOf { (regs 8 16 0x200040) with rcd := some (0x200040, stairBytes), c := (regs 8 16 0x200040).c.set 1 sideW }
     cmdsAfter (.stair ⟨1, 2, 3, 4, 1, 0, 0, 0⟩) (inCtl u) = [(2, 8, 16, true)]) ∧
    shapeBad (shapeOf (leBytes 64 (1 + 2 ^ 32 + 2 ^ 64 + 2 ^ 96 + 2 ^ 384 * 0x10))) = true := by decide +kernel
/-- R363: ENG_DESC with the lowest cause. -/
theorem test_descriptor_errors : let s (a b d : Word) := inCtl (ctlOf (regs a b d)); let g (k : BitVec 20) : Instr := .gath ⟨1, 2, 3, 4, 1, 0, 0, k⟩
    [trapAfter (.cpy ⟨0, 2, 3, 4, 1, 0, 0, 0x102⟩) (s 0 0 0), trapAfter (.cpy ⟨0, 2, 3, 4, 1, 0, 0, 0⟩) (s 0 0 (2 ^ 40 + 1)), trapAfter (g 0x102) (s sideW 0 (pickW 1)),
      trapAfter (g 0) (s sideW 0 (pickW 1 + 2 ^ 43)), trapAfter (g 0) (s sideW 0 (pickW 0)), trapAfter (g 0) (s 0 0 (pickW 1)), trapAfter (.cntset { cx0 with imm := 2 }) (s 0 0 0)] =
      [(0x18, 0, 1), (0x18, 0, 3), (0x18, 0, 1), (0x18, 0, 2), (0x18, 0, 3), (0x18, 0, 4), (0x18, 0, 1)].map some := by decide +kernel
/-- R361: a command waits while its queue is full, and enters it then. -/
theorem test_queue_slot : let u := ctlOf { wait := .queue copy0 }; let s := { inCtl u with cur := .none }
    s.resident 0 0 = some u ∧ s.queueLoad 0 0 = 0 ∧ (after (.engineQueueSlotFree 0 0) s).map (fun t => (t.cmds.map Cmd.dst, (t.findUnit u.key).map (fun v => v.ctx.ctl.pc))) =
      some ([localWindow], some 3) := by decide +kernel
/-- R62, R384, R387: counters at rest and one that a command holds. -/
theorem test_counters : let s := inCtl (ctlOf (regs 0xFFFFFFFF 0 0)); let held := { s with cmds := [copy0] }
    (unitAfter (.cntset { cx0 with ra := 2, imm := 1 }) s).map (fun u => (u.counter 1).v) = some 0xFFFFFFFF ∧
    (unitAfter (.cntadd { cx0 with ra := 2, imm := 0 }) s).map (fun u => ((u.counter 0).v, (u.counter 1).v)) = some (0xFFFFFFFF, 0) ∧
    (unitAfter (.waitc { cx0 with imm := 1 }) s).map (fun u => u.ctx.ctl.pc) = some 3 ∧
    (unitAfter (.waitc { cx0 with imm := 1, scope := 4 }) held).map (fun u => (u.ctx.ctl.pc, u.ctx.ctl.wait)) = some (1, .waitc 1 4) ∧
    [regAfter (.engq { cx0 with rd := 1, imm := 1 }) held 1, regAfter (.engq { cx0 with rd := 1, sub := 1, imm := 7 }) held 1,
      regAfter (.engq { cx0 with rd := 1, sub := 2 }) held 1] = [0x200000000, 1, 63].map some ∧
    (let early := { inCtl (ctlOf (regs 0 0 0)) with units := (inCtl (ctlOf (regs 0 0 0))).units.map (fun u => u.modCtx (fun x => { x with early := ⟨#[1, 2, 3, 4], rfl⟩, unread := [⟨0, 128, 0⟩] })) }
     [regAfter (.engq { cx0 with rd := 1, sub := 3, imm := 1 }) early 1, regAfter (.engq { cx0 with rd := 1, sub := 3, imm := 3 }) early 1] = [130, 4].map some) ∧
    trapAfter (.engq { cx0 with imm := 2 }) s = some (0x18, 0, 1) := by decide +kernel
theorem wit_waitc_complete : let u := ctlOf { wait := .waitc 1 4 }; let s := { inCtl u with cur := .none }
    s.resident 0 0 = some u ∧ (u.counter 1).f = false ∧ counterDrained s u 1 = true ∧
    (unitAfter (.waitcComplete 0 0) s).map (fun u => u.ctx.ctl.pc) = some 3 := by decide +kernel

/-! ### Mirrors -/

/-- The unit subscribes to the first line of vault 0's attic store on its die, through a TLB page. -/
def subU (w : CtlWait) : UnitSt := { ctlOf { (regs sideW 0x200000 128) with wait := w } with checks := [⟨0, 0x400000, true, true⟩] }
def atticPte : BitVec 64 := BitVec.ofNat 64 (atticAt 0 0 0 + 7)
def sub0 : Subscription := { id := 3, unit := ⟨0, 0, 0⟩, off := 128, gbase := 0x200000, spans := [(atticAt 0 0 0, 128)], size := 128, die := 0, last := 0, active := true }
/-- SubscriptionsAndMirrors: SUBS waits for its home, which accepts it; a full table answers 1. -/
theorem test_subs : let s := paged atticPte (inCtl (subU .none)); let f : CX := ⟨1, 2, 3, 4, 1, 0, 0, 0x100⟩
    (match subsPages (subU .none) 0 true (pageStarts 0x200000 128) s with | .ok t pas => ownStore t 0 (spansOf 0x200000 128 (pas.map (fun p => p.2.1))) | _ => false) = true ∧
    regionOkLong (subU .none) 0x200000 128 true false = true ∧
    (unitAfter (.subs f) s).map (fun u => match u.ctx.ctl.wait with | .subs c id g l n off rd _ => [c.dst, c.src, id, g, spanPa l 0, n, off, rd.toNat] | _ => []) =
      some [localWindow + 128, 0x200000, s.fresh + 1, 0x200000, atticAt 0 0 0, 128, 128, 1] := by decide +kernel
def askS (n : Nat) : State :=
  { inCtl (subU (.subs { copy0 with kind := .subs 3 128, dst := localWindow + 128, src := 0x200000 } 3 0x200000 [(atticAt 0 0 0, 128)] 128 128 1 [])) with
    cur := .none, subs := List.replicate n { sub0 with id := 1 } }
theorem wit_subs_accept : homeDie (askS 0) (atticAt 0 0 0) = some 0 ∧ (recallSpans [(atticAt 0 0 0, 128)] (askS 0)).isSome = true ∧
    (after (.subsAccept 3) (askS 0)).map (fun t => t.subs.map (fun b => (b.id, b.off, spanPa b.spans 0, b.active))) = some [(3, 128, atticAt 0 0 0, true)] ∧
    regAfter (.subsAccept 3) (askS 256) 1 = some 1 := by decide +kernel
theorem test_unsub : let s := { inCtl (subU .none) with subs := [sub0] }; let w := { inCtl (subU (.unsub 3)) with subs := [sub0], cur := .none }
    (unitAfter (.unsub { cx0 with ra := 2 }) s).map (fun u => u.ctx.ctl.wait) = some (.unsub 3) ∧ w.resident 0 0 = some (subU (.unsub 3)) ∧
    (after (.unsubProcess 0 0) w).map (fun t => (t.subs, (t.findUnit ⟨0, 0, 0⟩).map (fun u => u.ctx.ctl.pc))) = some ([], some 3) := by decide +kernel
/-- R69: an update of 4 bytes at offset 8 of the range. -/
theorem test_mirror_update : let s := { inCtl (subU .none) with cur := .none, subs := [sub0], updates := [⟨3, 9, 8, [1, 2, 3, 4]⟩] }
    s.memWf = true ∧ imagePending s 3 = false ∧
    (after (.mirrorUpdate 3) s).map (fun t => ((t.bytesAt ((subU .none).pantryPa 135) 6).map TByte.v, t.updates, t.subs.map (fun b => b.last))) =
      some ([0, 1, 2, 3, 4, 0], [], [9]) := by decide +kernel

/-! ### Data instructions -/

def vv (t : BitVec 4) (lanes : List Nat) : VState := { val := BitVec.ofNat 4096 ((lanes.reverse.foldl (fun a x => a * 2 ^ 32 + x) 0)), tag := t }
/-- v1, v2 and v3 hold a, b and d, mask m0 all ones, m1 and m2 two bits each; s1 is 0x3F800000 (1.0), s2 is 5, s3 is -1. -/
def dat3 (a b d : VState) : Dat :=
  { v := (((Vector.replicate 64 ({} : VState)).set 1 a).set 2 b).set 3 d
    m := (((Vector.replicate 8 (0 : Mask)).set 0 (BitVec.allOnes 128)).set 1 3).set 2 6
    s := (((Vector.replicate 32 (0 : Word)).set 1 0x3F800000).set 2 5).set 3 (-1) }
def datS (a b d : VState) : State := inDat (datOf (dat3 a b d))
def lanesAfter (i : Instr) (s : State) (r : BitVec 6) (n : Nat) : Option (List Nat) := (unitAfter i s).map (fun u => (List.range n).map (u.lane r))
def tagAfter (i : Instr) (s : State) (r : BitVec 6) : Option (BitVec 4) := (unitAfter i s).map (fun u => (u.v r).tag)
def flagsAfter (i : Instr) (s : State) : Option (BitVec 6) := (unitAfter i s).map (fun u => u.ctx.ctl.fpflags)
def scalarAfter (i : Instr) (s : State) (r : BitVec 6) : Option Nat := (unitAfter i s).map (fun u => u.sreg r)
def maskAfter (i : Instr) (s : State) (r : Nat) : Option Nat := (unitAfter i s).map (fun u => (u.mreg r).toNat)
def f3 : D64 := { d0 with vd := 4, va := 1, vb := 2, vc := 3 }
def f2 : D64 := { f3 with vc := 0 }

/-- FloatElementResults and the other data statements: a unit at a data instruction whose sources hold FP32 and whose destination is free. -/
theorem wit_data : DatAt (datS (vv 1 [0x3F800000]) (vv 1 [0]) (vv 1 [])) (datOf (dat3 (vv 1 [0x3F800000]) (vv 1 [0]) (vv 1 []))) ∧
    NoFpTraps (datOf (dat3 (vv 1 [0x3F800000]) (vv 1 [0]) (vv 1 []))) ∧ Source (datOf (dat3 (vv 1 [0x3F800000]) (vv 1 [0]) (vv 1 []))) 1 1 ∧
    SourceB (datOf (dat3 (vv 1 [0x3F800000]) (vv 1 [0]) (vv 1 []))) f3 1 ∧ Dest (datOf (dat3 (vv 1 [0x3F800000]) (vv 1 [0]) (vv 1 []))) f3 4 ∧ Format f3 1 :=
  ⟨datAt_of (by decide +kernel), by unfold NoFpTraps; decide +kernel, by unfold Source; decide +kernel, by unfold SourceB Source; decide +kernel,
    by unfold Dest; decide +kernel, by unfold Format; decide +kernel⟩
/-- R270 to R276, R316: sums, products, quotients and fused sums of FP32, worked out by hand: exact, inexact to even, infinite, invalid. -/
theorem test_float : let s := datS (vv 1 [0x3F800000, 0x3FC00000, 0x7F7FFFFF, 0x7F800000, 0x3F800000]) (vv 1 [0x33800000, 0x3FC00000, 0x7F7FFFFF, 0xFF800000, 0]) (vv 1 [0xBF800000, 0xC0000000, 0, 0, 0])
    lanesAfter (.vfadd f2) s 4 5 = some [0x3F800000, 0x40400000, 0x7F800000, 0x7FC00000, 0x3F800000] ∧
    lanesAfter (.vfmul f2) s 4 3 = some [0x33800000, 0x40100000, 0x7F800000] ∧
    (lanesAfter (.vfdiv f2) s 4 5).map (fun l => l.drop 1) = some [0x3F800000, 0x3F800000, 0x7FC00000, 0x7F800000] ∧
    lanesAfter (.vfma f3) s 4 2 = some [0xBF7FFFFF, 0x3E800000] ∧
    lanesAfter (.vfsub f2) s 4 2 = some [0x3F7FFFFF, 0] ∧ lanesAfter (.vfmin f2) s 4 4 = some [0x33800000, 0x3FC00000, 0x7F7FFFFF, 0xFF800000] := by decide +kernel
theorem test_float_flags : let fl (a b : Nat) (i : Instr) := flagsAfter i (datS (vv 1 [a]) (vv 1 [b]) (vv 1 []))
    [fl 0x3F800000 0x33800000 (.vfadd f2), fl 0x7F800000 0xFF800000 (.vfadd f2), fl 0x7F7FFFFF 0x7F7FFFFF (.vfadd f2), fl 0x00800000 0x3F000000 (.vfmul f2)] =
      [1, 16, 5, 0].map some := by decide +kernel
theorem test_float_other : let s := datS (vv 1 [0x7FA00000, 0x40800000]) (vv 1 [0x3F800000, 0x40000000]) (vv 1 [])
    lanesAfter (.vfmax f2) s 4 2 = some [0x7FC00000, 0x40800000] ∧ lanesAfter (.vfms { f3 with vc := 2 }) s 4 2 = some [0x7FC00000, 0x40C00000] ∧
    lanesAfter (.vfnma { f3 with vc := 2 }) s 4 2 = some [0x7FC00000, 0xC0C00000] ∧ lanesAfter (.vfspec { d0 with vd := 4, va := 1, fn := 2 }) s 4 2 = some [0x7FC00000, 0x40000000] := by decide +kernel

/-- R320, R321: INT32 and INT8x4 results with wrap and saturation, the shifts at the width, the bit counts. -/
theorem test_int : let s := datS (vv 8 [0x7FFFFFFF, 0xFFFFFFFF, 5]) (vv 8 [1, 0xFFFFFFFE, 32]) (vv 8 [1, 1, 1])
    lanesAfter (.viadd f2) s 4 3 = some [0x80000000, 0xFFFFFFFD, 37] ∧ lanesAfter (.viadd { f2 with x16 := 0x100 }) s 4 2 = some [0x7FFFFFFF, 0xFFFFFFFD] ∧
    flagsAfter (.viadd { f2 with x16 := 0x100 }) s = some 32 ∧ lanesAfter (.visub f2) s 4 3 = some [0x7FFFFFFE, 1, 0xFFFFFFE5] ∧
    lanesAfter (.vimul f2) s 4 2 = some [0x7FFFFFFF, 2] ∧ lanesAfter (.vimul { f2 with fn := 1 }) s 4 3 = some [0, 0, 0] ∧
    lanesAfter (.vimad f3) s 4 2 = some [0x80000000, 3] ∧ lanesAfter (.vimin f2) s 4 2 = some [1, 0xFFFFFFFE] ∧
    lanesAfter (.vimax { f2 with fn := 1 }) s 4 2 = some [0x7FFFFFFF, 0xFFFFFFFF] ∧ lanesAfter (.vshl f2) s 4 3 = some [0xFFFFFFFE, 0, 0] ∧
    lanesAfter (.vshr { f2 with vb := 0, vc := 31, fn := 1 }) s 4 2 = some [0, 1] ∧ lanesAfter (.vsar f2) s 4 3 = some [0x3FFFFFFF, 0xFFFFFFFF, 0] := by decide +kernel
theorem test_bits : let s := datS (vv 8 [0x80000000, 0, 0xFFFFFFFF]) (vv 8 [1, 3, 5]) (vv 8 [])
    lanesAfter (.vibit { f2 with vb := 0 }) s 4 3 = some [1, 0, 32] ∧ lanesAfter (.vibit { f2 with vb := 0, fn := 1 }) s 4 3 = some [0, 32, 0] ∧
    lanesAfter (.vibit { f2 with vb := 0, fn := 2 }) s 4 3 = some [1, 0, 0xFFFFFFFF] ∧ lanesAfter (.vand f2) s 4 3 = some [0, 0, 5] ∧
    lanesAfter (.vor f2) s 4 2 = some [0x80000001, 3] ∧ lanesAfter (.vxor { f2 with x16 := 0x80 }) s 4 2 = some [0x80000005, 5] := by decide +kernel
/-- R240, R242, R266: merging and zeroing lanes, the mark of a last read, the mask of 8-bit elements taken from ma and m1. -/
theorem test_masking : let s := datS (vv 11 [0xFF01FF01, 2]) (vv 11 [0x01010101, 2]) (vv 11 [])
    lanesAfter (.viadd { f2 with x16 := 0x100, msel := 1, z := true }) s 4 2 = some [0xFF02FF02, 4] ∧
    lanesAfter (.viadd { f2 with msel := 2, z := true, la := true }) s 4 2 = some [0, 4] ∧
    tagAfter (.viadd { f2 with msel := 2, z := true, la := true }) s 1 = some 15 ∧ tagAfter (.viadd f2) s 4 = some 11 := by decide +kernel
/-- MaskRegisterResults, MaskRegisterResults (R317, R322, R323). -/
theorem test_compare : let s := datS (vv 1 [0x3F800000, 0x7FC00000, 0x80000000]) (vv 1 [0x40000000, 0, 0]) (vv 1 [])
    let i := datS (vv 8 [1, 0xFFFFFFFF]) (vv 8 [2, 1]) (vv 8 [])
    [maskAfter (.vfcmp { f2 with vd := 4, fn := 2, z := true, msel := 3 }) s 4, maskAfter (.vfcmp { f2 with fn := 0, msel := 1 }) s 4, maskAfter (.vfcmp { f2 with fn := 6 }) s 4,
      maskAfter (.vicmp { f2 with fn := 2, msel := 1 }) i 4, maskAfter (.vicmp { f2 with fn := 6, msel := 1 }) i 4] = [0, 0, 2, 3, 1].map some ∧
    flagsAfter (.vfcmp { f2 with fn := 2 }) s = some 16 ∧ flagsAfter (.vfcmp { f2 with fn := 0 }) s = some 0 := by decide +kernel
theorem test_masks : let s := datS (vv 8 []) (vv 8 []) (vv 8 []); let g : D64 := { d0 with vd := 4, va := 1, vb := 2 }
    [maskAfter (.mop g) s 4, maskAfter (.mop { g with fn := 1 }) s 4, maskAfter (.mop { g with fn := 3 }) s 4, maskAfter (.mop { g with fn := 6, va := 0, vb := 0 }) s 4,
      maskAfter (.mmov { g with va := 2, vb := 0 }) s 4, maskAfter (.mmov { g with fn := 1, va := 2, vb := 2 }) s 4] = [2, 7, 1, 0, 6, 0x50000000000000005].map some ∧
    [scalarAfter (.mcnt { g with vb := 0 }) s 4, scalarAfter (.mfirst { g with va := 2, vb := 0 }) s 4, scalarAfter (.mfirst { g with va := 2, vb := 0, fn := 1 }) s 4,
      scalarAfter (.mfirst { g with va := 3, vb := 0 }) s 4, scalarAfter (.mmov { g with va := 0, vb := 0, fn := 3 }) s 4] = [2, 1, 2, 128, 2 ^ 64 - 1].map some := by decide +kernel
/-- LaneInstructions, ConversionResults (R321, R324 to R326). -/
theorem test_lanes : let s := datS (vv 8 [10, 11, 12]) (vv 8 [2, 0, 1]) (vv 8 [])
    lanesAfter (.vmov { f2 with vb := 0 }) s 4 3 = some [10, 11, 12] ∧ tagAfter (.vmov { f2 with vb := 0, fn := 1, x16 := 8 }) s 4 = some 1 ∧
    lanesAfter (.vbcast { f2 with va := 1, vb := 0, x16 := 8 }) s 4 2 = some [0x3F800000, 0x3F800000] ∧ lanesAfter (.vsel { f3 with vc := 1 }) s 4 3 = some [10, 11, 1] ∧
    lanesAfter (.vrot { f2 with vb := 0, x16 := 0x100 }) s 4 2 = some [11, 12] ∧ lanesAfter (.vshuf f2) s 4 3 = some [12, 10, 11] ∧
    lanesAfter (.vxch { f2 with vb := 0, vc := 7 }) s 4 3 = some [11, 10, 0] ∧ scalarAfter (.vlane { f2 with vb := 0, x16 := 0x180 }) s 4 = some 12 ∧
    lanesAfter (.vins { f2 with va := 2, vb := 0, vd := 1, x16 := 0x200 }) s 1 3 = some [10, 11, 5] := by decide +kernel
theorem test_convert : let s := datS (vv 1 [0x3FC00000, 0x477FF000, 0x7FC00000, 0xC2C80000]) (vv 2 [0, 0x3FF80000]) (vv 1 [])
    lanesAfter (.vcvt { f2 with vb := 0, x16 := 8 * 3 }) s 4 2 = some [0x7C003E00, 0xD6407E00] ∧ lanesAfter (.vcvt { f2 with vb := 0, x16 := 8 * 8 }) s 4 4 = some [2, 65520, 0, 0xFFFFFF9C] ∧
    lanesAfter (.vcvt { f2 with va := 2, vb := 0, x16 := 8 }) s 4 1 = some [0x3FC00000] ∧ tagAfter (.vcvt { f2 with vb := 0, x16 := 8 * 3 }) s 4 = some 3 := by decide +kernel
/-- CrossLaneResults (R279, R280, R327 to R329). -/
theorem test_cross : let s := datS (vv 8 [10, 11, 12, 13]) (vv 8 []) (vv 8 []); let g : D64 := { d0 with vd := 4, va := 1, msel := 2 }
    [scalarAfter (.vred g) s 4, scalarAfter (.vred { g with fn := 1 }) s 4, scalarAfter (.vred { g with fn := 2 }) s 4] = [23, 11, 12].map some ∧
    lanesAfter (.vscan { g with x16 := 0x80 }) s 4 3 = some [0, 11, 23] ∧ lanesAfter (.vscan g) s 4 3 = some [0, 0, 11] ∧
    lanesAfter (.vcomp { g with vc := 5 }) s 4 3 = some [11, 12, 0] ∧ scalarAfter (.vcomp { g with vc := 5 }) s 5 = some 2 ∧
    lanesAfter (.vexpd { g with vc := 5, z := true }) s 4 4 = some [0, 10, 11, 0] := by decide +kernel
theorem test_prune : let s := datS (vv 10 [0x04030201, 0x80070605]) (vv 8 []) (vv 8 [])
    lanesAfter (.vprune { d0 with vd := 4, va := 1, vc := 5 }) s 4 1 = some [0x80070605] ∧ lanesAfter (.vprune { d0 with vd := 4, va := 1, vc := 5 }) s 5 1 = some [0x06880FAC] := by decide +kernel

/-! ### Pantry, scalars and sequencing -/

/-- The unit's region begins with bytes 0, 1, 2, ...; s5 is 0, s6 is 4, s7 is 128. -/
def pDat (a b d : VState) : Dat := { dat3 a b d with s := (((dat3 a b d).s.set 6 4).set 7 128).set 8 1 }
def pS (a b d : VState) : State := (inDat (datOf (pDat a b d))).setBytes (pantryBase 0) ((List.range 256).map (fun i => { v := BitVec.ofNat 8 i }))
def vOff : VState := vv 0 [8, 4, 4]
theorem lines_full (w : UnitSt) (h : w.ctx.lines = []) (l : Nat) : w.lineState l = 0 := by unfold UnitSt.lineState; rw [h]; rfl
theorem ok_of {ε α : Type} {x : Except ε α} {a : α} (h : x.toOption = some a) : x = .ok a := by
  cases x with
  | error e => cases h
  | ok b => cases h; rfl
theorem wit_pantry : let u := datOf (pDat vOff vOff vOff); let s := pS vOff vOff vOff
    DatAt s u ∧ s.queuedMatrix u = false ∧ Names s u { d0 with va := 5 } 0 0 u ∧ MayRead s u 0xFFFC 4 ∧ MayWrite s u 0xFFFC 4 ∧ cellsWf 0 0 u.ctx.lines = true :=
  ⟨datAt_of (by decide +kernel), by decide +kernel, ⟨ok_of (by decide +kernel), by decide +kernel, by decide +kernel⟩,
    ⟨by decide +kernel, fun l _ _ => lines_full _ rfl l, by decide +kernel⟩, ⟨by decide +kernel, by decide +kernel, by decide +kernel⟩, by decide +kernel⟩
def memAfter (i : Instr) (s : State) (a n : Nat) : Option (List Byte) := (after i s).map (fun t => (t.bytesAt (pantryBase 0 + a) n).map TByte.v)
/-- R330 to R332: loads of active lanes, a gather with equal addresses, stores, a scatter in which the highest lane wins. -/
theorem test_pantry : let s := pS vOff (vv 8 [7, 8, 9]) vOff
    lanesAfter (.vld { d0 with vd := 4, va := 6, fn := 8, msel := 1, z := true }) s 4 3 = some [0x07060504, 0x0B0A0908, 0] ∧ tagAfter (.vld { d0 with vd := 4, va := 6, fn := 8 }) s 4 = some 8 ∧
    lanesAfter (.vldx { d0 with vd := 4, va := 5, vb := 1, msel := 1, z := true }) s 4 2 = some [0x0B0A0908, 0x07060504] ∧
    memAfter (.vst { d0 with va := 5, vb := 2, msel := 1 }) s 0 9 = some [7, 0, 0, 0, 8, 0, 0, 0, 8] ∧
    memAfter (.vstx { d0 with va := 5, vb := 1, vc := 2, msel := 2 }) s 3 6 = some [3, 9, 0, 0, 0, 8] := by decide +kernel
theorem test_fill_mark : let s := pS vOff vOff vOff
    memAfter (.pfill { d0 with va := 6, vb := 8, vc := 2 }) s 3 6 = some [3, 5, 0, 0, 0, 8] ∧
    (unitAfter (.pmark { d0 with va := 7, vb := 8, fn := 1 }) s).map (fun u => (u.lineState 0, u.lineState 1, u.lineState 2)) = some (0, 1, 0) := by decide +kernel
/-- R333: with a line of the constant path at hand. -/
theorem test_vldc : let u := { datOf { dat3 vOff vOff vOff with s := (Vector.replicate 32 (0 : Word)).set 4 0x200000 } with checks := [⟨0, 0x400000, true, true⟩] }
    let s := paged 0x10000000010000F ((inDat u).setBytes 0x100000 ([1, 2, 3, 4, 5, 6, 7, 8].map (fun b => { v := b })))
    (match constAddrs u [0x200000, 0x200004] s with
      | .ok (x, pas) => (pas == [(0x100000, 0), (0x100004, 0)]) && (match constFill u (pas.zip [0x200000, 0x200004]) x with | .ok y => (y.findUnit u.key).map UnitSt.ctx == some u.ctx | _ => false)
      | _ => false) = true ∧
    lanesAfter (.vldc { d0 with vd := 4, va := 4, fn := 8, msel := 1, z := true }) s 4 3 = some [0x04030201, 0x08070605, 0] := by decide +kernel
/-- R336, R337. -/
theorem test_scalars : let s := pS vOff vOff vOff; let g : D64 := { d0 with vd := 9, va := 2, vb := 3 }
    [scalarAfter (.salu g) s 9, scalarAfter (.salu { g with fn := 0x14 }) s 9, scalarAfter (.sli { g with vb := 0, x16 := 0xFFFF }) s 9, scalarAfter (.sli { g with vb := 0, fn := 7, x16 := 0xBEEF }) s 9,
      scalarAfter (.sld { g with vb := 0, va := 7, fn := 4 }) s 9, scalarAfter (.sld { g with vb := 0, va := 6, fn := 2 }) s 9] =
      [4, 2 ^ 64 - 5, 4, 0x5BEEF, 2 ^ 64 - 128, 0x07060504].map some ∧
    memAfter (.sst { g with vd := 0, va := 6, fn := 1 }) s 3 4 = some [3, 0xFF, 0xFF, 6] ∧ trapAfter (.salu { g with vb := 5, fn := 0x14 }) s = some (0x0B, 0, 0) := by decide +kernel
/-- R169: next, loop while iterations remain, pop, end. -/
def loopU (it en : BitVec 32) : UnitSt := datOf { dat3 vOff vOff vOff with it := it, en := en, head := 9 }
theorem test_selector : let go (n : BitVec 2) (u : UnitSt) := (unitAfter (.dnop { d0 with nas := n }) (inDat u)).map (fun v => (v.ctx.dat.pc, v.ctx.dat.it.toNat))
    go 0 (loopU 1 3) = some (3, 1) ∧ go 1 (loopU 1 3) = some (9, 2) ∧ go 1 (loopU 2 3) = some (3, 3) ∧ go 1 (loopU 0xFFFFFFFF 0xFFFFFFFF) = some (3, 0xFFFFFFFF) ∧
    (unitAfter (.dnop { d0 with nas := 2 }) (inDat (loopU 0 1))).map (fun v => v.ctx.dat.wait) = some .pop ∧
    (unitAfter (.dnop { d0 with nas := 3 }) (inDat (loopU 0 1))).map (fun v => v.ctx.dat.done) = some true := by decide +kernel
/-- R168, R170: an entry with one iteration and a tail of 3; with two; with none; with a mask of its own; the end entry. -/
def popS (e : BitVec 256) : State := { inDat (let u := unit0 {}; { u with ctx := { u.ctx with chute := [⟨e, 7⟩] } }) with cur := .none }
theorem test_chute_pop : let go (e : BitVec 256) := (unitAfter (.chutePop 0 0) (popS e)).map (fun u => (u.ctx.dat.pc, u.ma.toNat, u.ctx.dat.done))
    go (BitVec.ofNat 256 (2 ^ 64 + 3 * 2 ^ 16 + 1)) = some (9, 7, false) ∧ go (BitVec.ofNat 256 (2 * 2 ^ 64 + 3 * 2 ^ 16)) = some (1, 2 ^ 128 - 1, false) ∧
    go 0 = some (1, 0, false) ∧ go (BitVec.ofNat 256 (2 ^ 24 + 5 * 2 ^ 96)) = some (1, 5, false) ∧ (go 0x80000000).map (fun x => x.2.2) = some true := by decide +kernel
theorem test_waits_reissue : let s (w : DatWait) := { inDat (let u := datOf {}; { u with ctx := { u.ctx with dat := { u.ctx.dat with wait := w } } }) with cur := .none }
    let w (i : Instr) (s : State) := (unitAfter i s).map (fun u => u.ctx.dat.wait)
    [w (.lineStateWaitEnd 0 0) (s (.line [(⟨0, 0, 0⟩, 3, 2)])), w (.registerEmptyWaitEnd 0 0) (s .register), w (.matrixQueueSpace 0 0) (s .matrixQueue)] = List.replicate 3 (some .none) := by decide +kernel
theorem test_dwpush : let u := datOf (dat3 vOff vOff vOff); let q (n : Nat) (e : Bool) := inDat { u with ctx := { u.ctx with dw := List.replicate n (.scalar 1), ctl := { u.ctx.ctl with done := e } } }
    let go (s : State) := (unitAfter (.dwpush { d0 with va := 2 }) s).map (fun v => (v.ctx.dw.length, v.ctx.dat.pc))
    go (q 63 false) = some (64, 3) ∧ go (q 64 false) = some (64, 1) ∧ go (q 0 true) = some (0, 3) ∧
    (unitAfter (.dwpush { d0 with va := 1, fn := 1 }) (q 0 false)).map (fun v => v.ctx.dw) = some [.pred 3] := by decide +kernel
theorem wit_dwpush_resume : let u := unit0 { dat := { wait := .dwpush (.scalar 7) 0, pc := 1, mode := .here } }; let s := { inDat u with cur := .none }
    s.resident 0 0 = some u ∧ u.datRuns = true ∧ (unitAfter (.dwpushResume 0 0) s).map (fun v => (v.ctx.dw, v.ctx.dat.pc)) = some ([.scalar 7], 3) := by decide +kernel
/-- R175, R176: VGRAB with a free block, without declared registers, and granted after a wait; VDROP. -/
theorem test_extended : let u := datOf {}; let s := inDat u
    (unitAfter (.vgrab d0) s).map (fun v => (v.ctx.ext, v.ctx.dat.pc)) = some (true, 3) ∧
    trapAfter (.vgrab d0) (inDat { u with launch := { u.launch with regs64 := false } }) = some (0x01, 0, 5 + 256 * 32) ∧
    (unitAfter (.vdrop d0) (inDat { u with ctx := { u.ctx with ext := true } })).map (fun v => v.ctx.ext) = some false := by decide +kernel
theorem wit_grant : let u := unit0 { dat := { wait := .vgrab, pc := 1, mode := .here } }; let s := { inDat u with cur := .none, pairs := [{ id := 0, vgrab := [u.key] }] }
    s.findUnit u.key = some u ∧ u.datRuns = true ∧ extUsed s 0 = 0 ∧
    (after (.vgrabGrant 0) s).map (fun t => ((t.findUnit u.key).map (fun v => (v.ctx.ext, v.ctx.dat.wait)), (t.pairOf 0).vgrab)) = some (some (true, .none), []) := by decide +kernel
/-- DataInstructionsTrap (R175, R181, R241, R267, R272, R476): one case of each. -/
theorem test_data_traps : let s (a b : VState) := datS a b (vv 1 []); let i : Instr := .vfadd f2; let one := vv 1 [0x3F800000]
    trapAfter (.vfadd { f2 with va := 32 }) (s one one) = some (0x01, 0, 5 + 256 * 32) ∧ trapAfter i (s {} one) = some (0x05, 0, 0xF0 + 256) ∧
    trapAfter i (s (vv 8 []) one) = some (0x06, 0, 0x80 + 256) ∧ trapAfter i (s one (vv 2 [])) = some (0x06, 0, 0x21 + 512) ∧
    trapAfter (.vfadd { f2 with fa := true }) (s { one with empty := true } one) = some (0x07, 0, 0) ∧
    (unitAfter i (s { one with empty := true } one)).map (fun v => v.ctx.dat.wait) = some .register ∧ trapAfter i (s { one with poison := 1 } one) = some (0x17, 0, 0) ∧
    (let u := datOf (dat3 one (vv 1 [0x33800000]) {}); (trapAfter i (inDat { u with ctx := { u.ctx with ctl := { u.ctx.ctl with fpmode := 8 } } })).map Prod.fst) = some 0x0C := by decide +kernel

/-! ### Matrix commands -/

def mqAfter (i : Instr) (s : State) : Option (List Nat) := (after i s).map (fun t => (t.pairOf 0).mq.map MCmd.op)
/-- s10 is the SP and s11 the SC of an MMA with K 8, A at 128 and B at 1024 of the region; s12 is 1. -/
def mDat : Dat := { pDat vOff (vv 13 []) vOff with s := (((pDat vOff vOff vOff).s.set 10 (BitVec.ofNat 64 (128 + 2 ^ 32 * 1024))).set 11 8).set 12 1 }
def mU : UnitSt := let u := datOf mDat; { u with ctx := { u.ctx with tiles := u.ctx.tiles.set 1 { tag := 8, val := BitVec.ofNat _ 5 } } }
def mS : State := (inDat mU).setBytes (pantryBase 0) ((List.range 256).map (fun i => { v := BitVec.ofNat 8 i }))
def int8 : BitVec 16 := 8 * 10 + 128 * 10
theorem wit_matrix : mU.ma ≠ 0 ∧ mU.ctx.spoison = [] ∧ mU.launch.tiles = 2 ∧ queueRoom mS mU (matrixCmd mS mU 0x72 d0 0 0 0 0 []) = true ∧
    (match resolve mS mU true 128 512 with | .ok (w, off) => w.key == mU.key && off == 128 | .error _ => false) = true ∧
    mmDescriptor mU { d0 with va := 10, vc := 11, x16 := int8 + 0x1000 } false (mU.sreg 10) (mU.sreg 11) = none := by decide +kernel
/-- R342 to R349, R354 to R359: each pushes its command. -/
theorem test_matrix_push :
    [mqAfter (.mzero { d0 with vd := 1, x16 := 64 }) mS, mqAfter (.mlda { d0 with vd := 1, va := 7, fn := 10 }) mS, mqAfter (.msta { d0 with va := 7, vb := 1, fn := 8 }) mS,
      mqAfter (.mrdv { d0 with vd := 4, va := 1, x16 := 31 }) mS, mqAfter (.mscl { d0 with va := 5, vb := 12, vc := 9 }) mS,
      mqAfter (.mma { d0 with vd := 0, va := 10, vc := 11, x16 := int8 + 0x1000 }) mS] = [[0x72], [0x74], [0x73], [0x76], [0x75], [0x70]].map some ∧
    (unitAfter (.mzero { d0 with vd := 1, x16 := 64 }) mS).map (fun u => ((u.tile 1).empty, (u.tile 1).tag)) = some (true, 8) := by decide +kernel
/-- R348: the four causes. -/
theorem test_matrix_traps : let s (sp sc : Nat) := inDat (datOf { mDat with s := (mDat.s.set 10 (BitVec.ofNat 64 sp)).set 11 (BitVec.ofNat 64 sc) })
    let i : Instr := .mma { d0 with vd := 0, va := 10, vc := 11, x16 := int8 + 0x1000 }
    let j : Instr := .mma { d0 with vd := 0, va := 10, vc := 11, x16 := 8 * 5 + 128 * 5 + 0x1000 }
    [trapAfter i (s (2 ^ 25) 8), trapAfter i (s 0 (2 ^ 10 + 8)), trapAfter i (s 0 0), trapAfter i (s 0 520), trapAfter i (s 0 12), trapAfter j (s 0 (8 + 449 * 2 ^ 16)), trapAfter i (s 0 (8 + 2 ^ 16))] =
      [1, 1, 2, 2, 2, 3, 4].map (fun c => some (0x18, 0, c)) := by decide +kernel
/-- MatrixUnitRuns: two commands of one class; the one pushed first is taken, and completes. -/
def mc (n op : Nat) (f : D64) (addr sc : Nat) (caps : List Nat) : MCmd :=
  { unit := ⟨0, 0, 0⟩, cls := 0, number := n, op := op, f := f, sp := 0, sc := sc, addr := addr, addr2 := 1024, captured := caps, pc := 1, chseq := 0, iter := 0 }
def mQ (l : List MCmd) (run : Option Nat) : State := { mS with cur := .none, pairs := [{ id := 0, mq := l, mrun := run }] }
theorem test_matrix_pick : (after (.matrixCommandStart 0) (mQ [mc 3 0x72 { d0 with vd := 1 } 0 0 [], mc 4 0x72 { d0 with vd := 0 } 0 0 []] none)).map (fun t => (t.pairOf 0).mrun) =
    some (some 3) := by decide +kernel
theorem test_matrix_results :
    (unitAfter (.matrixCommandComplete 0) (mQ [mc 3 0x75 d0 0 510 [1, 2]] (some 3))).map (fun u => u.ctx.scaleA.drop 509) = some [0, 1, 2] ∧
    [mc 3 0x72 { d0 with vd := 1, x16 := 64 } 0 0 [], mc 3 0x74 { d0 with vd := 1, fn := 10 } 128 0 []].map (fun c =>
      mqAfter (.matrixCommandComplete 0) (mQ [c] (some 3))) = [some [], some []] ∧
    (after (.matrixCommandComplete 0) (mQ [mc 3 0x73 { d0 with vb := 1, fn := 8 } 128 0 []] (some 3))).isSome = true := by decide +kernel
theorem test_mrdv : let u := { mU with ctx := { mU.ctx with dat := { mU.ctx.dat with v := mU.ctx.dat.v.set 4 { tag := 8, empty := true } } } }
    (unitAfter (.matrixCommandComplete 0) { mQ [mc 3 0x76 { d0 with vd := 4, va := 1 } 0 0 []] (some 3) with units := [u] }).map (fun v => (v.lane 4 0, v.lane 4 1, (v.v 4).empty)) =
      some (5, 0, false) := by decide +kernel
/-- MMAS with K 32 and legal metadata (R350 to R352), FP8 formats; and MMA on INT8 with K 8: row 0 of A is 128 to 135, column 0 of B is bytes 0 to 7. -/
theorem test_mmas_push : let u := datOf { mDat with v := mDat.v.set 2 (vv 13 (List.replicate 128 0x06880688)), s := mDat.s.set 11 32 }
    mqAfter (.mmas { d0 with vd := 0, va := 10, vb := 2, vc := 11, x16 := int8 + 0x1000 }) (inDat u) = some [0x71] := by decide +kernel
theorem test_mma : (mmaElem { d0 with x16 := int8 + 0x1000 } 8 0 ((List.range 8).map (· + 128)) (List.range 8) [] []).1 =
    (((List.range 8).map (fun (i : Nat) => ((i : Int) - 128) * i)).sum % 2 ^ 32).toNat := by decide +kernel

/-! ### Coherence -/

/-- HomeMessages: a message of die 1 for HBM line 1, whose home is die 0, in a quiet machine with a directory state. -/
def homeS (m : ToHome) (d : Option DirSt) (x : List Txn) : State :=
  { up with toHome := [(1, 0, m)], dies := up.dies.set 0 { (up.die 0) with dir := (d.map (fun st => [(⟨1, st, 0⟩ : DirEntry)])).getD [], txns := x } }
def homeOut (i : Instr) (s : State) : Option (Option DirSt × List (Nat × Nat × Nat)) :=
  (after i s).map (fun t => ((t.die 0).dirSt 1, t.toDie.map (fun x => (x.1, x.2.1, match x.2.2 with
    | .datas _ _ => 0 | .datae _ _ => 1 | .datam _ _ => 2 | .ackm _ => 3 | .wback _ => 4 | .inv _ => 5 | .fwds _ => 6 | .fwdm _ => 7 | .recall _ => 8))))
theorem wit_home : homeDie up 128 = some 0 ∧ takeMsg 1 0 (homeS (.rds 1) none []).toHome = some (.rds 1, []) ∧ up.poisoned 128 128 = false := by decide +kernel
/-- R102 to R104: the answers to each message in each directory state. -/
theorem test_home_reads :
    [homeOut (.rds 1 0) (homeS (.rds 1) none []), homeOut (.rds 1 0) (homeS (.rds 1) (some (.s [2])) []), homeOut (.rds 1 0) (homeS (.rds 1) (some (.m 2)) []),
      homeOut (.rdm 1 0) (homeS (.rdm 1) none []), homeOut (.rdm 1 0) (homeS (.rdm 1) (some (.s [1, 2])) []), homeOut (.rdm 1 0) (homeS (.rdm 1) (some (.e 3)) []),
      homeOut (.upg 1 0) (homeS (.upg 1) (some (.s [1])) []), homeOut (.upg 1 0) (homeS (.upg 1) none []), homeOut (.rdm 1 0) (homeS (.rdm 1) (some (.s [1])) []),
      homeOut (.upg 1 0) (homeS (.upg 1) (some (.s [2, 1])) []), homeOut (.upg 1 0) (homeS (.upg 1) (some (.e 2)) []), homeOut (.upg 1 0) (homeS (.upg 1) (some (.s [])) [])] =
    [(some (.e 1), [(0, 1, 1)]), (some (.s [2, 1]), [(0, 1, 0)]), (some (.m 2), [(0, 2, 6)]), (some (.m 1), [(0, 1, 2)]), (some (.s [1, 2]), [(0, 2, 5)]),
      (some (.e 3), [(0, 3, 7)]), (some (.m 1), [(0, 1, 3)]), (some (.m 1), [(0, 1, 2)]), (some (.m 1), [(0, 1, 2)]),
      (some (.s [2, 1]), [(0, 2, 5)]), (some (.e 2), [(0, 2, 7)]), (some (.m 1), [(0, 1, 2)])].map some := by decide +kernel
def data9 : List TByte := List.replicate 128 { v := 9 }
theorem test_home_answers : let tx (w k : Bool) : List Txn := [⟨.remote 2 w w 1, [1], k, none⟩]
    [homeOut (.wbm 1 0) (homeS (.wbm 1 data9 1 true) (some (.m 1)) []), homeOut (.evicte 1 0) (homeS (.evicte 1) (some (.e 1)) []),
      homeOut (.wbm 1 0) (homeS (.wbm 1 data9 1 false) (some (.m 1)) (tx false true)), homeOut (.evicte 1 0) (homeS (.evicte 1) (some (.e 1)) (tx true false)),
      homeOut (.invack 1 0) (homeS (.invack 1) (some (.s [1, 2])) (tx true false)),
      homeOut (.fwdack 1 0) (homeS (.fwdack 1 data9 1) (some (.m 1)) (tx false true)),
      homeOut (.fwdack 1 0) (homeS (.fwdack 1 data9 1) (some (.e 1)) (tx true false))] =
    [(some (.s [1]), [(0, 1, 4)]), (none, [(0, 1, 4)]), (some (.s []), [(0, 1, 4)]), (some (.s []), [(0, 1, 4)]), (some (.m 2), [(0, 2, 3)]), (some (.s [1, 2]), [(0, 2, 0)]),
      (some (.m 2), [(0, 2, 2)])].map some ∧
    (after (.wbm 1 0) (homeS (.wbm 1 data9 1 true) (some (.m 1)) [])).map (fun t => (t.bytesAt 128 5).map TByte.v) = some [9, 9, 9, 9, 0] := by decide +kernel
/-- R104, R106: after the owner's write-back its Stale ends the transaction with DataS for a read and DataM for a write. -/
theorem test_home_stale : let tx (w k : Bool) : List Txn := [⟨.remote 2 w w 1, [1], k, none⟩]
    [homeOut (.stale 1 0) (homeS (.stale 1) (some (.s [])) (tx false true)), homeOut (.stale 1 0) (homeS (.stale 1) (some (.e 1)) (tx false true)),
      homeOut (.stale 1 0) (homeS (.stale 1) (some (.s [])) (tx true false))] =
    [(some (.s [2]), [(0, 2, 0)]), (some (.s [2]), [(0, 2, 0)]), (some (.m 2), [(0, 2, 2)])].map some := by decide +kernel
/-- DieMessages: the same line at die 1, with a waiting load or store of pair 96, or a copy there. -/
def acc1 (u : Use) : Access :=
  { aid := 1, unit := ⟨0, 0, 0⟩, pair := 96, va := 0x200080, pa := 128, size := 4, cm := 0, ham := 0, lvl := 0, key := 0, cls := 0, group := 1, len := 1, rel := none, acq := none, use := u }
def dieS (m : ToDie) (sf : List SfEntry) (q : List SfReq) (w : List WbWait) (l : List L1Line) : State :=
  { up with
    toDie := [(0, 1, m)], dies := up.dies.set 1 { (up.die 1) with sf := sf, sfq := q, wbw := w }
    units := [{ unit0 { ctl := { pc := 1, mode := .here, wait := .access 1 } } with place := .placed 96 0 }], pairs := [{ id := 96, l1 := l }] }
def sf1 (h : List Nat) (o : Option Nat) (g : Option L1St) (b : Bool) : SfEntry := ⟨1, h, o, g, b, 0⟩
def ln1 (st : L1St) : L1Line := ⟨1, st, [], data9, 0xF, 0, []⟩
def dieOut (i : Instr) (s : State) : Option (List Nat) :=
  (after i s).map (fun t => (match (t.l1Find 96 1 cStates).map L1Line.st with | none => 0 | some .s => 1 | some .e => 2 | some .m => 3 | _ => 4) ::
    (t.die 1).wbw.length :: t.toHome.map (fun x => match x.2.2 with
    | .rds _ => 10 | .rdm _ => 11 | .upg _ => 12 | .wbm _ _ _ _ => 13 | .evicte _ => 14 | .invack _ => 15 | .fwdack _ _ _ => 16 | .stale _ => 17))
theorem test_die_grants : let ld := [(⟨acc1 (.load 1 false), false, true⟩ : SfReq)]; let st := [(⟨acc1 (.store [1, 2, 3, 4] 1), true, true⟩ : SfReq)]
    [dieOut (.datas 0 1) (dieS (.datas 1 data9) [sf1 [] none none true] ld [] []), dieOut (.datae 0 1) (dieS (.datae 1 data9) [sf1 [] none none true] ld [] []),
      dieOut (.datam 0 1) (dieS (.datam 1 data9) [sf1 [] none none true] st [] []), dieOut (.ackm 0 1) (dieS (.ackm 1) [sf1 [96] none (some .s) true] st [] [ln1 .s])] =
      [[1, 0], [2, 0], [3, 0], [3, 0]].map some ∧
    regAfter (.datas 0 1) (dieS (.datas 1 data9) [sf1 [] none none true] ld [] []) 1 = some 0x09090909 := by decide +kernel
theorem test_die_requests : let e := [sf1 [96] (some 96) (some .m) false]
    [dieOut (.inv 0 1) (dieS (.inv 1) [sf1 [96] none (some .s) false] [] [] [ln1 .s]), dieOut (.inv 0 1) (dieS (.inv 1) [] [] [] []),
      dieOut (.fwds 0 1) (dieS (.fwds 1) e [] [] [ln1 .m]), dieOut (.fwds 0 1) (dieS (.fwds 1) [] [] [⟨1, 0, false⟩] []),
      dieOut (.fwdm 0 1) (dieS (.fwdm 1) e [] [] [ln1 .m]), dieOut (.recall 0 1) (dieS (.recall 1) e [] [] [ln1 .m]), dieOut (.wback 0 1) (dieS (.wback 1) [] [] [⟨1, 0, false⟩] [])] =
      [[0, 0, 15], [0, 0, 15], [1, 0, 16], [0, 1, 17], [0, 0, 16], [0, 0, 16], [0, 0]].map some := by decide +kernel
/-- WalksAndRequests: a walk that finds a 4 KiB leaf, one that finds an absent entry; filter requests; uncached accesses at home die 0. -/
def walkS (e4 : BitVec 64) : State :=
  let u := unit0 { ctl := { pc := 1, mode := .here, wait := .walk 5 } }
  let s := { up with units := [u], jobs := [{ job0 with root := 1 }]
                     dies := up.dies.set 0 { (up.die 0) with missq := [⟨0, 0x200, { kind := .load, size := 8 }, [⟨⟨0, 0, 0⟩, 0, false, 0x200040, 5⟩], []⟩] } }
  let put (s : State) (a : Nat) (x : BitVec 64) : State := s.setBytes a ((leBytes 8 x.toNat).map (fun b => { v := b }))
  put (put (put (put (put s 0x1000 e4) 0x2000 0x3001) 0x3000 0x4001) 0x4008 0x5001) 0x5000 0x100007
theorem test_page_walk :
    (after (.pageWalk 0) (walkS 0x2001)).map (fun t => ((t.die 0).missq.length, (t.pairOf 0).tlb.map TlbEntry.pte, (t.findUnit ⟨0, 0, 0⟩).map (fun u => u.ctx.ctl.wait))) =
      some (0, [0x100007], some .none) ∧
    trapAfter (.pageWalk 0) (walkS 0) = some (0x10, 0x200040, 2 + 16 * 4) := by decide +kernel
theorem test_filter : let s (w : Bool) (e : SfEntry) (l : List L1Line) := { dieS (.ackm 7) [e] [⟨acc1 (if w then .store [1, 2, 3, 4] 1 else .load 1 false), w, false⟩] [] l with toDie := [] }
    [dieOut (.snoopFilterRequest 1 0) (s false (sf1 [] none none false) []), dieOut (.snoopFilterRequest 1 0) (s true (sf1 [] none none false) []),
      dieOut (.snoopFilterRequest 1 0) (s true (sf1 [96] none (some .s) false) [ln1 .s]), dieOut (.snoopFilterRequest 1 0) (s true (sf1 [96] (some 96) (some .m) false) [ln1 .m])] =
      [[0, 0, 10], [0, 0, 11], [1, 0, 12], [3, 0]].map some := by decide +kernel
def uncS (u : Use) : State :=
  { dieS (.ackm 7) [] [] [] [] with toDie := [], dies := up.dies.set 0 { (up.die 0) with uncq := [{ acc1 u with cm := 2 }] }, mem := [⟨128, 7⟩] }
theorem test_uncached : let i : Instr := .uncachedAccess 0 0
    regAfter i (uncS (.load 1 false)) 1 = some 7 ∧ (after i (uncS (.store [1, 2, 3, 4] 1))).map (fun t => ((t.bytesAt 128 4).map TByte.v, t.acks.length)) = some ([1, 2, 3, 4], 1) ∧
    (let s := uncS (.amo 1 ⟨0, 4, 5, 0⟩); regAfter i s 1 = some 7 ∧ (after i s).map (fun t => (t.bytesAt 128 4).map TByte.v) = some [12, 0, 0, 0]) := by decide +kernel

/-! ### Task records -/

/-- The page of 0x200000 as it is read: a buffer descriptor at 0x040, a region table at 0x080, a launch descriptor at 0x200, a code object at 0x300,
and a SHAPE and a STAIR record at 0x400 and 0x440. The buffer: 16 INT32 at 0x200800. -/
def page0 : List (Nat × Nat × Nat) :=
  [(0x40, 8, 0x200800), (0x48, 8, 8), (0x50, 16, 16 + 2 ^ 32 + 2 ^ 64 + 2 ^ 96), (0x60, 8, 4),
    (0x80, 8, 9), (0xC0, 16, 16 * 2 ^ 32), (0xD0, 16, 2 ^ 32), (0xE0, 16, 2 ^ 32), (0xF0, 16, 2 ^ 32),
    (0x100, 16, 16 * 2 ^ 32), (0x110, 16, 2 ^ 32), (0x120, 16, 2 ^ 32), (0x130, 16, 2 ^ 32),
    (0x200, 8, 0x200300), (0x208, 8, 2 + 2 ^ 32), (0x210, 8, 1 + 2 ^ 32 + 2 ^ 53), (0x248, 8, 8), (0x288, 4, 1),
    (0x300, 8, 0x534D4F42 + 2 ^ 32 + 2 ^ 48), (0x308, 8, 1), (0x310, 8, 96 + 2 ^ 32 * 64), (0x340, 4, 1),
    (0x400, 16, 1 + 2 ^ 32 + 2 ^ 64 + 2 ^ 96), (0x430, 1, 0x11), (0x440, 8, 0x11100), (0x448, 8, 2 + 2 ^ 32), (0x450, 4, 1)]
def putAt (s : State) (x : Nat × Nat × Nat) : State := s.setBytes (0x100000 + x.1) ((leBytes x.2.1 x.2.2).map (fun b => { v := b }))
def seqS (j : Job) : State :=
  let s := { up with jobs := [{ j with pc := 0x200F00, tidx := 5 }], cur := .sequencer 0, dies := up.dies.set 0 { (up.die 0) with l2tlb := [⟨0, 0x200, 1, 0x10000F, 0, 0⟩] } }
  page0.foldl putAt s
def buf0 : Buf := { base := 0x200800, dims := 1, fmt := 8, ext := [16, 1, 1, 1], str := [4, 0, 0, 0], pool := none, vaults := [] }
/-- The task that entered the window last, and the job after. -/
def jobAfter (i : Instr) (s : State) : Option Job := (after i s).bind (fun t => t.job 0)
def lastTask (i : Instr) (s : State) : Option Task := (jobAfter i s).bind (fun j => j.window.getLast?)
def boundJob : Job := { job0 with map := [(1, buf0), (2, { buf0 with base := 0x200840 }), (3, { buf0 with base := 0x200880 })] }
theorem wit_seq : SeqAt (seqS job0) { job0 with pc := 0x200F00, tidx := 5 } ∧ (seqS job0).memWf = true := ⟨⟨0, by decide +kernel, by decide +kernel⟩, by decide +kernel⟩
/-- R190 to R193: BIND of a fixed and of a pooled buffer, of a pool that is not declared, of a descriptor with a reserved bit; UNBIND; POOL. -/
theorem test_bind : let i : Instr := .bind { r0 with x32 := 7, q2 := 0x200040 }; let p : Instr := .bind { r0 with x32 := 7 + 2 ^ 14 + 2 ^ 8 * 2, q2 := 0x200040 }
    let pooled : Job := { job0 with pools := [⟨2, 0x1FD000, 1, 4, [3, 1]⟩] }
    (jobAfter i (seqS job0)).map (fun j => (j.map, j.pc, j.tidx)) = some ([(7, buf0)], 0x200F20, 6) ∧
    (jobAfter p (seqS pooled)).map (fun j => (j.map.map (fun x => (x.2.base, x.2.pool)), j.pools.map Pool.shelf)) = some ([(0x200000, some (2, 3))], [[1]]) ∧
    ((jobAfter p (seqS job0)).bind Job.fault).map (fun f => (f.tidx, f.trap.code)) = some (5, 0x32) ∧
    ((jobAfter i (putAt (seqS job0) (0x48, 8, 0x48))).bind Job.fault).map (fun f => f.trap.code) = some 0x30 := by decide +kernel
theorem test_unbind_pool :
    (jobAfter (.unbind { r0 with x32 := 2 }) (seqS boundJob)).map (fun j => j.map.map Prod.fst) = some [1, 3] ∧
    (jobAfter (.pool { r0 with x32 := 2, q2 := 0x200000, q3 := 2 ^ 32 * 3 + 1 }) (seqS job0)).map (fun j => j.pools) = some [⟨2, 0x200000, 1, 3, [0, 1, 2]⟩] := by decide +kernel
/-- R188, R204, R210: LAUNCH reads its descriptor and code object; the engine tasks' first commands. -/
theorem test_launch : let i : Instr := .launch { r0 with slots := 0x201, q2 := 0x200200, q3 := 0x200080 }; let s := putAt (seqS boundJob) (0x80, 8, 1)
    (lastTask i s).map (fun t => t.tidx :: t.units :: t.operands.flatMap (fun o => [o.slot, o.cls, o.buf.base])) = some [5, 2, 0, 3, 0x200800] ∧
    (lastTask i s).map (fun t => match t.kind with | .launch l rule _ _ _ _ ak trg => [l.code, l.lines, l.lineOff, l.pantry, l.counters, l.gx, rule, ak.headD 9, (l.args.headD 9), (if trg.isSome then 1 else 0)] | _ => []) =
      some [0x200300, 1, 96, 1, 1, 2, 0, 1, 8, 0] := by decide +kernel
def engKind (i : Instr) (s : State) : Option (List Nat) := (lastTask i s).map (fun t => match t.kind with | .engine c => [c.queue, c.dst, c.src, t.units, c.left] | _ => [])
theorem test_engine_tasks : let s := seqS boundJob; let g := putAt s (0x80, 8, 0x49)
    (let g := putAt (putAt g (0x140, 16, 16 * 2 ^ 32)) (0x80, 8, 0); engKind (.gather { r0 with slots := 0x203102101, x32 := 4, q2 := 4097, q3 := 0x200080 }) g) = some [1, 0x200880, 0x200840, 1, 1] ∧
    engKind (.scatter { r0 with slots := 0x303102101, x32 := 4, q2 := 1, q3 := 0x200080 }) (putAt s (0x80, 8, 0)) = some [1, 0x200880, 0x200840, 1, 0] ∧
    engKind (.scatter { r0 with slots := 0x503102101, x32 := 2 ^ 13 + 4, q2 := 1, q3 := 0x200080 }) (putAt s (0x80, 8, 0)) = some [1, 0x200880, 0x200840, 1, 0] ∧
    engKind (.fill { r0 with slots := 0x201, q2 := 9, q3 := 0x200080 }) (putAt s (0x80, 8, 1)) = some [0, 0x200800, 0, 1, 0] ∧
    engKind (.copy { r0 with slots := 0x202101, q2 := 0x200400, q3 := 0x200080 }) s = some [0, 0x200840, 0x200800, 1, 0] ∧
    engKind (.level { r0 with slots := 0x103202101, q2 := 0x200440, q3 := 0x200080 }) s = some [2, 0x200840, 0x200800, 1, 0] := by decide +kernel
/-- R160, R211 to R218, R417: the control records. -/
theorem test_control_records : let s := seqS job0
    [lastTask (.phase { r0 with x32 := 1, q2 := 1024 + 32 * 5 + 12 }) s, lastTask (.signal { r0 with x32 := 1, q2 := 0x200000, q3 := 9 }) s,
      lastTask (.waitev { r0 with cnd := 3, x32 := 7, q2 := 0x200000, q3 := 9, scope := 10 }) s, lastTask (.tfence { r0 with scope := 5 }) s,
      lastTask (.tjmpc { r0 with cnd := 5, x32 := 0xFFFFFFFF, q2 := 0x200000, q3 := 1 }) s, lastTask (.halt r0) s].map (fun t => t.map (fun t => (t.kind, t.completed))) =
      [TaskKind.phase [(1, 5, 12)], .signal true 0x200000 9 4, .waitev 3 7 0x200000 9 10, .tfence 5, .tjmpc 5 4 (-1) 0x200000 1, .halt].map (fun k => some (k, false)) ∧
    (jobAfter (.tjmp { r0 with q2 := 0x1FFFFFFFFFFFFE0 }) s).map (fun j => (j.pc, j.tidx)) = some (0x1FFFFFFFFFFFFE0, 6) ∧
    ((jobAfter (.tjmp { r0 with q2 := 0x200000000000000 }) s).bind Job.fault).map (fun f => (f.trap.code, f.trap.info)) = some (0x10, 1 + 16 * 7) ∧
    ((jobAfter (.phase { r0 with x32 := 1, q2 := 1024 + 32 * 5 + 12 }) (seqS { job0 with vlt := 1 })).bind Job.fault).map (fun f => f.trap.code) = some 0x03 := by decide +kernel
def launchTask (n : Nat) : Task :=
  { tidx := n, addr := 0x200EE0, pcAfter := 0x200F00, spawned := none, rcd := 0, kind := .launch (unit0 {}).launch 0 0 0 0 [0, 0, 0] [] none, units := 2, issued := true, launchCtr := 2, lseq := 1 }
/-- R217: CANCEL of one unit, of a task, of nothing, of the job. -/
theorem test_cancel : let j := { job0 with window := [launchTask 4] }; let s := { seqS j with units := [{ unit0 {} with key := ⟨0, 4, 1⟩ }] }
    let go (x : BitVec 32) (q : Word) := (after (.cancel { r0 with x32 := x, q2 := q }) s).map (fun t => t.units.length :: ((t.taskOf 0 4).map (fun y => [y.completed.toNat, y.launchCtr, (y.isDone 1).toNat])).getD [])
    go 4 1 = some [0, 0, 1, 1] ∧ go 5 0 = some [0, 1, 0, 1] ∧ go 8 0 = some [1, 0, 2, 0] ∧
    (after (.cancel { r0 with x32 := 3 }) s).map (fun t => (t.job 0).isSome) = some false := by decide +kernel

/-! ### Tasks and units -/

def tk (n : Nat) (k : TaskKind) (iss done : Bool) : Task := { tidx := n, addr := 0x200EE0, pcAfter := 0x200F00, spawned := none, rcd := 0, kind := k, issued := iss, completed := done }
def winS (j : Job) (l : List Task) : State := { seqS { j with window := l, ctxn := [4, 4, 4, 4], ctxb := [0x400000, 0x800000, 0xC00000, 0x1000000] } with cur := .none }
def engT : TaskKind := .engine { copy0 with task := true, unit := ⟨0, 4, 0⟩, ctr := none, kind := .cpyLin 4 }
theorem wit_issue : [tk 4 (.phase [(1, 5, 12)]) false false, tk 4 (.tfence 5) false false, tk 4 .halt false false, tk 4 engT false false, { launchTask 4 with issued := false }].all
    (fun x => let s := winS job0 [x]; ((s.job 0).bind (fun j => j.window.find? (mayIssue j))) == some x && s.taskOf 0 4 == some x) = true := by decide +kernel
/-- TasksIssueCompleteRetire (R201, R205, R211, R212, R213, R217). -/
theorem test_issue : let go (k : TaskKind) := (after (.taskIssue 0) (winS job0 [tk 4 k false false])).map (fun t => (t.taskOf 0 4).map (fun y => (y.issued, y.ready)))
    go (.tfence 5) = some (some (true, true)) ∧ go .halt = some (some (true, true)) ∧ go (.phase [(1, 5, 12)]) = some (some (true, false)) ∧
    (after (.taskIssue 0) (winS job0 [tk 4 (.phase [(1, 5, 12)]) false false])).map (fun t => (t.die 1).vwait) = some [⟨5, 0, 4, 12⟩] ∧
    (after (.taskIssue 0) (winS job0 [tk 4 engT false false])).map (fun t => (t.cmds.map (fun c => (c.pair, c.scope, c.unit.tidx)), (t.taskOf 0 4).map Task.launchCtr)) = some ([(0, 5, 4)], some 1) ∧
    (after (.taskIssue 0) (winS job0 [tk 4 (.signal true 0x200800 9 4) false false])).map (fun t => ((t.bytesAt 0x100800 2).map TByte.v, t.out)) = some ([9, 0], [.interrupt 0 0]) := by decide +kernel
theorem test_issue_launch : (after (.taskIssue 0) (winS { job0 with lseq := 6 } [{ launchTask 4 with issued := false, launchCtr := 0 }])).map (fun t => ((t.taskOf 0 4).map (fun y => (y.lseq, y.launchCtr)), (t.job 0).map Job.lseq)) =
    some (some (7, 2), some 7) := by decide +kernel
theorem test_complete_retire : let s := winS { job0 with pools := [⟨2, 0, 1, 4, [3]⟩] } [{ tk 4 (.tfence 5) true true with dead := [(2, 1)] }, { launchTask 5 with launchCtr := 0 }]
    taskEnded s 0 { launchTask 5 with launchCtr := 0 } = true ∧ (after (.taskComplete 0 5) s).map (fun t => (t.taskOf 0 5).map Task.completed) = some (some true) ∧
    (after (.taskRetire 0) s).map (fun t => (t.job 0).map (fun j => (j.window.map Task.tidx, j.pools.map Pool.shelf))) = some (some ([5], [[3, 1]])) ∧
    (after (.taskRetire 0) (winS { job0 with cvec := 3 } [tk 4 .halt true true])).map (fun t => (t.job 0, t.out)) = some (none, [.interrupt 0 3]) := by decide +kernel
/-- R214: the word 9 at 0x200800 satisfies EQ 9; a wake-up, the clock, and the limit. -/
theorem test_waitev : let x (v : Nat) : Task := { tk 4 (.waitev 0 1 0x200800 v 4) true false with started := some 0, woken := true }
    let s (v : Nat) := { putAt (winS job0 [x v]) (0x800, 8, 9) with cycle := 2048 }; let rd (i : Instr) (v : Nat) := (after i (s v)).map (fun t => (t.taskOf 0 4).map Task.ready)
    (waitingEvent (s 9) 0).map Prod.snd = some (x 9) ∧ rd (.waitevWake 0) 9 = some (some true) ∧ rd (.waitevReread 0) 8 = some (some false) ∧
    (after (.waitevTimeout 0) (s 8)).map (fun t => (t.job 0).map Job.status) = some (some (.faulting 4)) := by decide +kernel
/-- R221: the task of a trapped unit becomes the faulting task. -/
def trappedU : UnitSt := { ctlOf {} with key := ⟨0, 4, 0⟩, place := .trapped 0 0, trap := some { code := 0x0B, src := 0 } }
theorem test_faulting : let s := { winS job0 [launchTask 4] with units := [{ trappedU with place := .saved }, { ctlOf {} with key := ⟨0, 4, 1⟩, place := .placed 1 0 }] }
    (s.job 0).bind (fun j => (newFault s j).map TaskFault.tidx) = some 4 ∧
    (after (.faultingTask 0) s).map (fun t => ((t.job 0).map Job.status, t.units.map UnitSt.running)) = some (some (.faulting 4), [false, false]) := by decide +kernel
theorem test_report : let f : TaskFault := { tidx := 4, trap := { code := 0x0B, src := 0 }, unit := none }
    let s := { winS { job0 with status := .faulting 4, fault := some f, ring := 0x10000, jcb := 0x20000 } [launchTask 4] with units := [{ trappedU with place := .saved, trap := none }] }
    (s.job 0).bind (fun j => newFault s j) = none ∧ (reportFault s 0 f).isSome = true ∧
    (after (.faultingTask 0) s).map (fun t => (t.job 0).map Job.status) = some (some (.halted true)) := by decide +kernel
/-- R206, R393, R410: an admitted unit starts on pair 0; a saved one takes its place for a restore. -/
def waitU (p : Place) : UnitSt := { unit0 {} with key := ⟨0, 4, 0⟩, place := p, target := [0, 1], ever := false }
theorem test_placement : let s (p : Place) := { winS job0 [{ launchTask 4 with next := 2 }] with units := [waitU p] }
    ((s .waiting).jobs.foldl admitJob (s .waiting)).units.filter (awaitsPlace (s .waiting)) = [waitU .waiting] ∧ bestPair (s .waiting) (waitU .waiting) = some (0, 0) ∧
    (after .unitPlacement (s .waiting)).map (fun t => (t.findUnit ⟨0, 4, 0⟩).map (fun u => (u.place, u.ctxslot))) = some (some (.placed 0 0, some (0, 0))) ∧
    (after .unitPlacement { (s .saved).setBytes 0x400000 ((leBytes 8 (headerQuad 0 true)).map (fun b => { v := b })) with
        units := [{ waitU .saved with ctxslot := some (0, 0), launch := { code := 0x200000, lines := 2 } }], dies := (s .saved).dies.map (fun d => { d with waypart := 0 }) }).map (fun t => (t.findUnit ⟨0, 4, 0⟩).map (fun u => u.place)) = some (some (.restoring 0 0)) := by decide +kernel
/-- R177, R207, R208. -/
theorem test_trigger : let p := { datOf {} with key := ⟨0, 3, 0⟩ }
    let s := { winS job0 [launchTask 3, { launchTask 4 with kind := .launch (unit0 {}).launch 0 0 0 0 [0, 0, 0] [] (some (3, 1)) }] with
                units := [p], dies := up.dies.set 0 { (up.die 0) with triggers := [⟨p.key, 1, ⟨0, 4, 1⟩⟩] } }
    counterDrained s p 1 = true ∧ (after (.triggerFire 0 0) s).map (fun t => (t.units.map UnitSt.key, (t.die 0).triggers.length)) = some ([⟨0, 3, 0⟩, ⟨0, 4, 1⟩], 0) := by decide +kernel
theorem test_preemption : let w (k : Nat) (n : Nat) (d : DatWait) (e : Bool) : UnitSt :=
      { unit0 { dat := { wait := d }, ext := e, ctl := { done := true } } with key := ⟨0, 4, k⟩, place := .placed 0 k, when := n }
    let s := { winS job0 [launchTask 4] with units := [w 0 5 .pop true, w 1 7 .pop true, w 2 9 .vgrab false] }
    (s.occupants 0).all (fun u => u.running && unitWaits s u) = true ∧ extUsed s 0 = 2 ∧
    (after (.vgrabPreemption 0) s).map (fun t => t.units.map UnitSt.place) = some [.placed 0 0, .saving 0 1, .placed 0 2] := by decide +kernel
theorem test_unit_complete : let u := { unit0 { ctl := { done := true }, dat := { done := true } } with key := ⟨0, 4, 0⟩ }
    (after (.unitComplete 0 4 0) { winS job0 [launchTask 4] with units := [u] }).map (fun t => (t.units.length, (t.taskOf 0 4).map Task.launchCtr)) = some (0, some 1) := by decide +kernel
/-- R82 to R86: no change, growth by 1 MiB, reduction by 1 MiB, and the end of a growth. -/
theorem test_vault : let s (n : Nat) (v : Vault) := { up with dies := up.dies.set 0 { (up.die 0) with vwait := [⟨5, 0, 4, n⟩], vaults := (up.die 0).vaults.set 5 v } }
    let go (i : Instr) (n : Nat) (v : Vault) := (after i (s n v)).map (fun t => let w := (t.die 0).vault 5; [w.store, w.target, w.busyTill.getD 0, (t.die 0).vwait.length])
    go (.vaultSplitStart 0 5) 8 {} = some [8, 8, 0, 0] ∧ go (.vaultSplitStart 0 5) 9 {} = some [8, 9, 16984, 0] ∧ go (.vaultSplitStart 0 5) 7 {} = some [7, 7, 600, 0] ∧
    go (.vaultSplitEnd 0 5) 7 { target := 9, busyTill := some 0 } = some [9, 9, 0, 1] := by decide +kernel
/-- ContextsMoveAndWatch: a unit with a poisoned register is not saved as it is, and leaves its pair; a unit comes back from an image whose header, tags and
lines are whole, with its registers; not from one without a header. -/
def bareU (p : Place) (x : List Nat) : UnitSt :=
  { trappedU with launch := { code := 0x200000, lines := 2 }, ctxslot := some (0, 1), trap := none, place := p
                  ctx := { ctl := { (regs 7 8 9) with pc := 1, mode := .here }, cpoison := x } }
def bareS (u : UnitSt) : State := { winS job0 [launchTask 4] with units := [u] }
def imageS : State :=
  let s := bareS (bareU (.restoring 1 2) [])
  let s : State := { s with jobs := s.jobs.map (fun (j : Job) => { j with ctxb := [0x1000000000000, 0, 0, 0] }) }
  s.setBytes 0x1000000140000 ((leBytes 8 (headerQuad 0 true)).map (fun b => { v := b }))
theorem test_save : let s := bareS (bareU (.saving 0 0) [3])
    (saveUnit s (bareU (.saving 0 0) [3])).isSome = true ∧
    (after (.contextSave 0 0) s).map (fun t => (t.findUnit ⟨0, 4, 0⟩).map UnitSt.place) = some (some .saved) := by decide +kernel
theorem test_restore : (after (.contextRestore 1 2) imageS).map (fun t => (t.findUnit ⟨0, 4, 0⟩).map (fun u => (u.place, u.c 4))) = some (some (.placed 1 2, 9)) ∧
    (after (.contextRestore 1 2) (bareS (bareU (.restoring 1 2) []))).map (fun t => (t.findUnit ⟨0, 4, 0⟩).map UnitSt.place) = some (some .saved) := by decide +kernel
theorem test_watchdog : let u := { unit0 { ctl := { done := true } } with key := ⟨0, 4, 0⟩ }
    let s := { winS { job0 with wdog := 1 } [launchTask 4] with units := [u], cycle := usTicks 1 }
    unitWaits s u = true ∧ (after (.unitWatchdog 0 0) s).map (fun t => ((t.findUnit u.key).bind UnitSt.trap).map (fun x => (x.code, x.src))) = some (some (0x21, 1)) := by decide +kernel

/-! ### Registers, engines, links and firmware -/

def cmdS (f : Die → Die) : State := { up with dies := up.dies.set 0 (f { (up.die 0) with l2tlb := [⟨0, 0x200, 1, 7, 0, 0⟩, ⟨1, 0x200, 1, 7, 0, 0⟩], l2i := [⟨0, 0, 0, 0⟩, ⟨1, 0, 0, 0⟩], walks := [⟨0, 1, 0, 1, 0⟩, ⟨1, 1, 0, 1, 0⟩] }) }
/-- R38, R39, R92: the entries of every job, of one job, of one page; a command that has acted is done. -/
theorem test_invalidate : let tiv (r : CmdRun) := cmdS (fun d => { d with tiv := { run := some r } }); let ici (r : CmdRun) := cmdS (fun d => { d with iciv := { run := some r } })
    let jobs (i : Instr) (s : State) := (after i s).map (fun t => ((t.die 0).l2tlb.map TlbEntry.job, (t.die 0).walks.map WalkEntry.job)); let lines (i : Instr) (s : State) := (after i s).map (fun t => (t.die 0).l2i.map ILine.job)
    jobs (.tlbInvalidateAll 0) (tiv { kind := 0, job := 0, arg := 0, page := 0 }) = some ([], []) ∧ jobs (.tlbInvalidateJob 0) (tiv { kind := 1, job := 1, arg := 0, page := 0 }) = some ([0], [0]) ∧
    jobs (.tlbInvalidateRange 0) (tiv { kind := 2, job := 1, arg := 1, page := 0x200 }) = some ([0], [0]) ∧ lines (.icacheInvalidateAll 0) (ici { kind := 0, job := 0, arg := 0, page := 0 }) = some [] ∧
    lines (.icacheInvalidateJob 0) (ici { kind := 1, job := 1, arg := 0, page := 0 }) = some [0] ∧
    (after (.tlbInvalidateDone 0) (tiv { kind := 0, job := 0, arg := 0, page := 0, acted := true })).map (fun t => (t.die 0).tiv.run) = some none ∧ (after (.icacheInvalidateDone 0) (ici { kind := 0, job := 0, arg := 0, page := 0, acted := true })).map (fun t => (t.die 0).iciv.run) = some none := by decide +kernel
/-- R402, R477: a job control block at frame 0x20, its stream at 0x200000 and its spawn area at 0x202000, whose pages walk to HBM. -/
def jobS (k : Nat) (jobs : List Job) : State :=
  let s := { up with jobs := jobs, dies := up.dies.set 0 { (up.die 0) with jobcmd := { run := some { kind := k, job := 1, arg := 0x20, page := 0 } } } }
  let put (s : State) (x : Nat × Nat) : State := s.setBytes x.1 ((leBytes 8 x.2).map (fun b => { v := b }))
  [(0x20040, 0x8000000000001000), (0x20048, 0x200000), (0x20050, 0x202000), (0x20058, 1), (0x20060, 1), (0x200C0, 0x30000), (0x200C8, 16),
    (0x1000, 0x2001), (0x2000, 0x3001), (0x3000, 0x4001), (0x4008, 0x5001), (0x5000, 0x10000F), (0x5010, 0x10200F), (0x5018, 0x10300F)].foldl put s
theorem test_job_activate : (jobRun (jobS 0 []) 0 0).map CmdRun.job = some 1 ∧
    (after (.jobActivate 0) (jobS 0 [])).map (fun t => (t.jobs.map (fun j => (j.id, j.pc, j.wshare)), (t.die 0).jobcmd.err)) = some ([(1, 0x200000, 1)], false) ∧
    (after (.jobActivate 0) (jobS 0 [{ job0 with id := 1 }])).map (fun t => (t.jobs.length, (t.die 0).jobcmd.err)) = some (1, true) := by decide +kernel
theorem test_job_commands : let f : TaskFault := { tidx := 4, trap := { code := 0x0B, src := 0 }, unit := none, reported := true }; let j := { job0 with id := 1 }
    (after (.jobResume 0) (jobS 1 [{ j with status := .halted true, fault := some f }])).map (fun t => (t.job 1).map Job.status) = some (some .running) ∧
    (after (.jobCancel 0) (jobS 2 [j])).map (fun t => (t.jobs.length, (t.die 0).jobcmd.err)) = some (0, false) ∧
    (after (.jobStop 0) (jobS 3 [j])).map (fun t => (t.job 1).map Job.status) = some (some .stopping) ∧
    (after (.jobStop 0) (jobS 3 [{ j with status := .stopping, jcb := 0x20000, root := 0x1000, spawnArea := 0x202000 }])).map (fun t => (t.job 1).map Job.status) = some (some (.halted true)) ∧
    (after (.jobCancel 0) (jobS 2 [])).map (fun t => (t.die 0).jobcmd.err) = some true ∧
    (after (.jobCommandDone 0) (cmdS (fun d => { d with jobcmd := { run := some { kind := 0, job := 0, arg := 0, page := 0, acted := true } } }))).map (fun t => (t.die 0).jobcmd.run) = some none := by decide +kernel
/-- R436, R439, R7: KEYCMD, PAIROFF, register writes and reads. -/
theorem test_keys : let s (k a : Nat) (d : Bool) := { up with fw := { up.fw with keycmd := { run := some { kind := k, job := 0, arg := a, page := 1, acted := d } }, keySlots := [(3, 1)], keyCount := 1 } }
    let go (i : Instr) (x : State) := (after i x).map (fun t => (t.fw.keySlots, t.fw.keycmd.err))
    go .keyGenerate (s 0 3 false) = some ([(3, 2)], false) ∧ go .keyClear (s 1 3 false) = some ([], false) ∧ go .keyGenerate (s 0 0 false) = some ([(3, 1)], true) ∧ go .keyClear (s 1 0 false) = some ([(3, 1)], true) ∧
    (after .keyCommandDone (s 0 3 true)).map (fun t => t.fw.keycmd.run) = some none := by decide +kernel
theorem test_registers : let r (a : Nat) (v : Word) := after (.registerWrite (0xF000000000000 + a) v) up
    (after (.pairoffWrite 0 0 1) (inCtl (ctlOf {}))).map (fun t => ((t.die 0).pairoff, t.units.map UnitSt.place)) = some (1, [.saving 0 0]) ∧
    (r 0x300100 5).map (fun t => (t.die 0).waypart) = some 5 ∧ (r 0x400008 0x20FFF).map (fun t => (t.die 0).jcba) = some 0x20 ∧ (r 0x100010 7).map (fun t => t == up) = some true ∧
    (r 0x400000 0x8000400000000000).map (fun t => (t.die 0).jobcmd.run) = some (some { kind := 0, job := 1, arg := 0, page := 0 }) := by decide +kernel
/-- EngineCommandsPerform (R361, R365, R376, R377): a copy of 4 bytes within the region, and a gather of 2 rows of 4 bytes through a page. -/
def engS (c : Cmd) : State := { (inCtl (ctlOf {})).setBytes (pantryBase 0 + 256) [{ v := 1 }, { v := 2 }, { v := 3 }, { v := 4 }] with cur := .none, cmds := [c] }
theorem test_engine_run : let s2 := (after (.engineSector 5) (engS { copy0 with status := .running })).getD up
    (after (.engineCommandStart 5) (engS copy0)).map (fun t => t.cmds.map Cmd.status) = some [.running] ∧ s2.cmds.map (fun c => (c.next, c.landings.length)) = [(4, 1)] ∧
    (after (.engineBytesLand 5 0) s2).map (fun t => ((t.bytesAt (pantryBase 0) 5).map TByte.v, t.cmds.map (fun c => c.landings.length))) = some ([1, 2, 3, 4, 0], [0]) ∧
    (after (.engineCommandComplete 5) ((after (.engineBytesLand 5 0) s2).getD up)).map (fun t => t.cmds.length) = some 0 := by decide +kernel
def gathS : State :=
  let s := (engS { copy0 with queue := 1, src := 0x200000, kind := .gath 8 2 4 (localWindow + 256) false 0, ctr := none, todo := [0, 1] }).setBytes (pantryBase 0 + 256)
    ([1, 0, 0, 0, 1, 0, 0, 0].map (fun b => { v := b }))
  paged 0x10000F { s.setBytes 0x100008 [{ v := 7 }] with units := [{ ctlOf {} with checks := [⟨0, 0x400000, true, true⟩] }] }
theorem test_picker : let s1 := (after (.engineCommandStart 5) gathS).getD up
    s1.cmds.map (fun c => (c.idx, c.rows.length)) = [([1, 1], 1)] ∧
    (after (.pickerRowAccess 5 0) s1).map (fun t => t.cmds.map (fun c => c.landings.map (fun l => leNat l.data))) = some [[7 + 2 ^ 32 * 7]] := by decide +kernel
/-- R418, R422, R424: BAR 0 register and BAR 2 memory of the physical function. -/
theorem test_host : let m : State := { up with mem := [⟨0x40, 7⟩] }; let a (b o : Nat) : BarAddr := ⟨false, 0, b, o⟩
    (match hostAt m (a 2 0x40) 4 { kind := .load, size := 4 } with | .mem _ runs _ => runs == [(0x40, 4)] | _ => false) = true ∧
    (after (.hostRead (a 2 0x40) 4 9) m).map State.out = some [.completion false 9 .ok [7, 0, 0, 0]] ∧ (after (.hostRead (a 5 0) 4 9) m).map State.out = some [.completion false 9 .ur []] ∧
    (after (.hostWrite (a 2 0x40) [5, 6]) m).map (fun t => (t.bytesAt 0x40 2).map TByte.v) = some [5, 6] ∧ (after (.hostWrite (a 5 0) [5]) m).map (fun t => t.aer.length) = some 1 ∧
    (after (.hostAtomicop (a 2 0x40) .fetchAdd 4 3 0 9) m).map (fun t => ((homeBytes t 0x40 1).map TByte.v, t.out)) = some ([10], [.completion false 9 .ok [7, 0, 0, 0]]) ∧
    (after (.hostAtomicop (a 2 0x41) .fetchAdd 4 3 0 9) m).map State.out = some [.completion false 9 .ca []] := by decide +kernel
/-- R19, R420, R427 to R429. -/
theorem test_links : let ask (w : Pending) (p : Option Nat) : State := { up with outstanding := [{ peer := p, port := false, tag := 3, what := w }], out := [.memRead false 3 0x1000 2, .peerReq 7 3 0x40 (.load 2)] }
    (after (.hostCompletion false 3 .ok [1, 2]) (ask (.forward true 8) none)).map (fun t => t.out.head?) = some (some (.completion true 8 .ok [1, 2])) ∧
    (after (.hostCompletion false 3 .ok [1, 2]) (ask (.decode 0 0x200000 1) none)).map (fun t => (t.job 0).map Job.got) = some (some [(0x200000, [1, 2])]) ∧
    (after (.completionTimeout false 3) (ask (.decode 0 0x200000 1) none)).map State.outstanding = some (ask (.decode 0 0x200000 1) none).outstanding ∧
    (after (.completionTimeout false 3) { ask (.decode 0 0x200000 1) none with cycle := 95000000 }).map (fun t => (t.job 0).map (fun j => j.bad.map (fun x => x.2.1))) = some (some [0x16]) ∧
    (after (.peerResponse 7 3 .ok [1, 2]) (ask (.forward true 8) (some 7))).map (fun t => t.out.head?) = some (some (.completion true 8 .ok [1, 2])) ∧
    (after (.peerRequest 7 3 0x40 (.load 2)) { up with mem := [⟨0x40, 9⟩] }).map (fun t => t.out.head?) = some (some (.peerReply 7 3 .ok [9, 0])) ∧
    (after (.pcieLinkUp false 6 16) up).map (fun t => (t.p0.up, t.p0.gen, t.p0.lanes)) = some (true, 6, 16) ∧ (after (.pcieLinkDown false) { up with p0 := { up := true } }).map (fun t => t.p0.up) = some false ∧
    (after (.routeInstall 1 7) up).map (fun t => t.fw.routes) = some [7] ∧ (after (.routeFailure 7) { up with fw := { up.fw with routes := [7, 8] } }).map (fun t => t.fw.routes) = some [8] := by decide +kernel
/-- R432, R434: module reset with one die whose image fails; leases and heartbeats; MINSVN. -/
def boot0 : BootImage := ⟨⟨1, 2, 3, 4, 5⟩, ⟨1, 2, 3, 4, 5⟩, ⟨1, 2, 3, 4, 5⟩, ⟨1, 2, 3, 4, 5⟩, 3, true, 0, 0, 0⟩
theorem test_firmware : let f (i : Instr) (s : State) := (after i s).map State.fw; let z := 95000000
    (f (.moduleReset boot0) { inCtl (ctlOf {}) with fw := { up.fw with minsvn := 4 } }).map (fun f => (f.live, f.ready, f.boots, f.minsvn)) = some (0, false, 1, 4) ∧
    (after (.moduleReset boot0) { inCtl (ctlOf {}) with fw := { up.fw with minsvn := 4 } }).map (fun t => (t.units.length, t.jobs.length)) = some (0, 0) ∧
    (f (.leaseRenew 0) up).map Firmware.leaseTill = some z ∧ (f .leaseLapse { up with cycle := 1000, fw := { up.fw with leader := 1 } }).map (fun f => (f.leader, f.epoch)) = some (0, 2) ∧
    (f (.heartbeatRenew 2) { up with fw := { up.fw with live := 0 } }).map Firmware.live = some 4 ∧ (f (.heartbeatLapse 2) { up with cycle := z }).map Firmware.live = some 0xB ∧
    (f .minsvnRaise (sendRaise { up with fw := { up.fw with commit := true, imageSvn := 3 } })).map (fun f => (f.minsvn, f.raise)) = some (3, none) := by decide +kernel
/-- R434: a die boots where the fuses hold the hash of its key unrevoked and both signatures verify. -/
theorem wit_boots : ∀ f : Firmware, f.minsvn ≤ 3 → f.revoked = 0 → f.rootKeys.toArray.getD 0 0 = Config.sm3 1 → Config.sm2Verifies 1 (Config.sm3 2) 3 = true →
    Config.sm2Verifies 1 (Config.sm3 4) 5 = true → bootsOf f boot0 = 0xF := by
  intro f h hr hk h1 h2
  have b : ∀ d < 4, bootsDie f boot0 d = true := by
    intro d hd
    have e : bootDie boot0 d = ⟨1, 2, 3, 4, 5⟩ := by rcases d with _ | _ | _ | _ | d <;> rfl
    simp only [bootsDie, e, h1, h2, Bool.and_true, Bool.and_eq_true, decide_eq_true_eq]
    refine ⟨h, List.any_eq_true.mpr ⟨0, by decide, ?_⟩⟩
    rw [hr, hk]; simp
  simp [bootsOf, b, b2n]
/-- R425, R426, R432, R435. -/
theorem test_leader_spdm : let o (i : Instr) (s : State) := (after i s).map (fun t => (t.out.map (fun x => match x with | .spdm _ k _ => k | _ => 99), t.p0.spdm))
    (after (.peeridAssign 1 0x107) up).map (fun t => (t.fw.peerValid, t.fw.peerId)) = some (true, 7) ∧ after (.peeridAssign 0 7) up = some up ∧
    (after (.ideStreamConfigure false 1 2 3) up).map (fun t => t.p0.ide) = some [(2, 3)] ∧
    [o (.getVersion false) up, o (.getCapabilities false) up, o (.negotiateAlgorithms false true true) up, o (.negotiateAlgorithms false true false) up, o (.getDigests false) up,
      o (.getCertificate false 0 4) up, o (.challenge false 9) up, o (.getMeasurements false 1) up, o (.getMeasurements false 5) up, o (.keyExchange false 9) up, o (.finish false 9) up] =
      [([0], 1), ([1], 2), ([2], 3), ([15], 0), ([3], 0), ([4], 0), ([5], 0), ([6], 0), ([15], 0), ([7], 4), ([15], 0)].map some := by decide +kernel
/-- R437, R438, R440, R441, R476. -/
theorem test_reliability : let f (i : Instr) (s : State) := (after i s).map (fun t => [t.fw.fatal, t.fw.dumping, t.fw.dumped, t.fw.dumpWhole, t.fw.throt])
    (after (.eccErrorDetected (.memory 0x47)) up).map (fun t => (t.poison, t.ras)) = some ([0x40], [(0x40, 1)]) ∧
    (after (.eccErrorDetected (.corrected 0x1047)) { up with corrected := [(1, 7)] }).map (fun t => (t.corrected, t.ras)) = some ([(1, 8)], [(0x1000, 2)]) ∧
    (after (.eccErrorDetected (.vreg 0 0 4 63)) (inCtl (ctlOf {}))).map (fun t => (t.findUnit ⟨0, 0, 0⟩).map (fun u => (u.v 4).poison)) = some (some 0x8000000000000000) ∧
    f (.fatalError (.snoopFilter 1)) up = some [true, true, false, true, false] ∧ f .criticalTemperature up = some [true, true, false, true, false] ∧
    f (.dumpComplete true) { up with fw := { up.fw with dumping := true } } = some [false, false, true, true, false] ∧
    (after (.fatalError (.dieController 1)) up).map (fun t => t.fw.live) = some 0xD ∧ f .throttle up = some [false, false, false, true, true] ∧
    f .throttleRelease { up with fw := { up.fw with throt := true } } = some [false, false, false, true, false] := by decide +kernel

/-! ### One step -/

/-- What a step answers, when it goes on. -/
def stepped (s : State) : Option State := match step s with | .next t => some t | _ => none

/-- StepRunsTheDecodedInstruction: an ADDI, a reserved word, a DNOP and a HALT record, each placed where the next step fetches it. -/
theorem wit_step_control : let w := State.reset.withFetchWord 32 0x04085FFF
    w.schedule.head? = some (0, .ctl 0 0) ∧ (stepped w).map (fun t => (t.findUnit ⟨0, 0, 0⟩).map (fun u => (u.c 1, u.ctx.ctl.pc))) = some (some (0xFFFFFFFFFFFFFFFF, 2)) ∧
    (stepped (State.reset.withFetchWord 32 0x026841FF)).map (fun t => (t.findUnit ⟨0, 0, 0⟩).map (fun u => (u.trap.map (fun x => (x.code, x.info)), u.ctx.ctl.pc))) =
      some (some (some (1, 2 + 256 * 0x7F), 1)) := by decide +kernel
theorem wit_step_data : (stepped (State.reset.withFetchWord 64 0x7A00000000000000)).map (fun t => (t.findUnit ⟨0, 0, 0⟩).map (fun u => (u.trap.isNone, u.ctx.dat.pc))) = some (some (true, 3)) := by decide +kernel
theorem wit_step_record : (stepped (State.reset.withFetchWord 256 0x2F)).map (fun t => (t.job 0).map (fun j => (j.window.length, j.pc))) = some (some (1, 0x200020)) := by decide +kernel
/-- StepsKeepTheMemoryForm, EveryStepGoesOn: reset has the form, and its first step goes on. -/
theorem wit_reset_steps : State.reset.memWf = true ∧ (stepped State.reset).isSome = true := by decide +kernel
/-- EncodeDecodeRoundTrip, ControlFrame, DataFrame. -/
theorem wit_round_trip : (Instr.addi ⟨1, 2, 0x1FFF⟩).encoded = true ∧ (Instr.addi ⟨1, 2, 0x1FFF⟩).wf = true ∧ onlyRegisters (.addi ⟨1, 2, 0x1FFF⟩) = true ∧
    (after (.addi ⟨1, 2, 0x1FFF⟩) (inCtl (ctlOf (regs 0 0 0)))).isSome = true ∧ (Instr.viadd f2).enc = .d64 0x20 f2 ∧
    (after (.viadd f2) (datS (vv 8 [1]) (vv 8 [2]) (vv 8 []))).isSome = true := by decide +kernel

/-! ### Further cases -/

/-- WaitvCompletes, with an acquire part. -/
theorem test_waitv_acquire : localS.pairs = [] ∧ regAfter (.waitv ⟨1, 2, 3, 4, 1, 1, 1, 0⟩) localS 1 = some 0xFF80 := by decide +kernel
/-- PrefetchIsSilent (R303): a page that is read, one that is absent, an earlier miss of the walkers still to serve. -/
theorem test_pref : let go (s : State) := (unitAfter (.pref { cx0 with ra := 2 }) s).map (fun u => (u.ctx.ctl.pc, u.ctx.ctl.wait, u.trap.isNone))
    let bare := inCtl pageU
    go pageS = some (3, .none, true) ∧ ((after (.pref { cx0 with ra := 2 }) pageS).map (fun t => (t.die 0).sfq.length)) = some 1 ∧
    go bare = some (3, .none, true) ∧
    go { bare with dies := bare.dies.set 0 { (bare.die 0) with missq := [⟨0, 9, { kind := .load }, [⟨⟨0, 0, 1⟩, 0, false, 0, 7⟩], []⟩] } } = some (1, .release, true) := by decide +kernel
/-- ChutePushes (R132): a pantry store of the slice is still to perform. -/
theorem test_chute_after_stores : pantryPending storedU = true ∧
    [Instr.chp { cx0 with rd := 1 }, .chpm { cx0 with rd := 1 }].map (fun i => (unitAfter i storedS).map (fun u => (u.ctx.chute.length, u.ctx.ctl.wait))) =
      List.replicate 2 (some (0, .release)) := by decide +kernel
/-- DumbwaiterPops, QfenceCompletes: a pop that goes on waiting, a fence with no command in flight. -/
theorem test_pop_waits : (let s := { inCtl (dwU [] (.dwpop 2 false) false) with cur := .none }; after (.dwpopResume 0 0) s = some s) ∧
    (unitAfter (.qfence { cx0 with imm := 7 }) (inCtl (ctlOf {}))).map (fun u => (u.ctx.ctl.pc, u.ctx.ctl.wait)) = some (3, .none) := by decide +kernel
/-- SubscriptionsBeginAndEnd: SUBS and the home's answer, UNSUB and its processing, one after the other. -/
theorem test_subs_whole : let s := paged atticPte (inCtl (subU .none)); let t1 := (after (.subs ⟨1, 2, 3, 4, 1, 0, 0, 0x100⟩) s).getD up
    homeDie t1 (atticAt 0 0 0) = some 0 ∧ queueHasSlot t1 0 0 (s.fresh + 1) = true ∧ (recallSpans [(atticAt 0 0 0, 128)] t1).isSome = true ∧
    (unitAfter (.subsAccept (s.fresh + 1)) t1).map (fun u => (u.c 1, u.ctx.ctl.pc)) = some (0, 3) := by decide +kernel
theorem test_unsub_whole : let s := { inCtl (subU .none) with subs := [sub0] }; let t1 := (after (.unsub { cx0 with ra := 2 }) s).getD up
    (after (.unsubProcess 0 0) t1).map (fun t => (t.subs.length, (t.findUnit ⟨0, 0, 0⟩).map (fun u => u.ctx.ctl.pc))) = some (0, some 3) := by decide +kernel
/-- R300, R111: a fence with an acquire part takes the job's merging lines out of the pair's L1 and writes their dirty words. -/
def mg0 : L1Line := ⟨9, .mg, [0], List.replicate 128 { v := 6 }, 2, 0, []⟩
theorem test_fence_acquires : let s := { inCtl (ctlOf {}) with pairs := [{ id := 0, l1 := [mg0] }] }
    (after (.fence { cx0 with scope := 4 }) s).map (fun t => ((t.pairOf 0).l1.length, (t.bytesAt 1155 2).map TByte.v, (t.bytesAt 1159 2).map TByte.v)) =
      some (0, [0, 6], [6, 0]) := by decide +kernel
/-- VectorLoads, DataFrame (R58, R111): a load that reads a line that landings have filled acquires: the job's merging line goes home. -/
def landedS : State :=
  let s := pS vOff (vv 8 [7, 8, 9]) vOff
  { s with units := s.units.map (fun u => { u with ctx := { u.ctx with landed := [0] } }) }
theorem test_load_acquires : let s := { landedS with pairs := [{ id := 0, l1 := [mg0] }] }; let i : Instr := .vld { d0 with vd := 4, va := 6, fn := 8, msel := 1, z := true }
    lanesAfter i s 4 2 = some [0x07060504, 0x0B0A0908] ∧ (after i s).map (fun t => ((t.pairOf 0).l1.length, (t.bytesAt 1156 1).map TByte.v)) = some (0, [6]) ∧
    (mergeBack s 0 0 true).bytesAt 1156 1 = [{ v := 6 }] := by decide +kernel
/-- WaitsReissue (R54): a wait whose lines have not moved goes on; one whose line has moved ends. -/
theorem test_line_wait : let s (x : Nat) : State := { inDat (let u := datOf {}; { u with ctx := { u.ctx with dat := { u.ctx.dat with wait := .line [(⟨0, 0, 0⟩, 3, x)] } } }) with cur := .none }
    after (.lineStateWaitEnd 0 0) (s 0) = some (s 0) ∧ (unitAfter (.lineStateWaitEnd 0 0) (s 1)).map (fun u => u.ctx.dat.wait) = some .none := by decide +kernel
/-- SelectorMovesTheSlice: DNOP with fn 1 makes the next data instruction the head. -/
theorem test_loop_head : let u := datOf { buf := some (0, 0x1000E4E4) }; let s := inDat u
    (match (nextPc u true true (u.launch.lines + 1) s u.ctx.dat.buf (u.ctx.dat.pc + 2)).2 with | .found pc => pc == 3 | _ => false) = true ∧
    (unitAfter (.dnop { d0 with fn := 1 }) s).map (fun v => v.ctx.dat.head) = some 3 := by decide +kernel
/-- HostRequestsAreServed: a read and a write of two runs, a write behind another of its port that is still out. -/
theorem test_host_runs : let m : State := { up with mem := [⟨0x40, 7⟩, ⟨0x1000, 8⟩] }; let a : BarAddr := ⟨false, 0, 2, 0x40⟩
    (readRuns 0 [(0x40, 1), (0x1000, 1)] m).map (fun x => (x.2.1, x.2.2)) = some (false, [7, 8]) ∧
    (writeRuns 0 [1, 2] [(0x40, 1), (0x1000, 1)] m).map (fun x => (x.2, (x.1.bytesAt 0x40 1 ++ x.1.bytesAt 0x1000 1).map TByte.v)) = some (true, [1, 2]) ∧
    (let s := { m with outstanding := [{ peer := none, port := true, tag := 0, what := .store (.posted false 0x40) }] }
     postedOut s false = true ∧ after (.hostWrite a [5]) s = some s) := by decide +kernel
/-- LinksEndAndServeRequests: a read of an engine that ends, the requests of an absent address of a peer. -/
theorem test_engine_read_ends : let s := { up with cmds := [copy0], outstanding := [{ peer := none, port := false, tag := 3, what := .engine 5 0x200000 2 1 }], out := [.memRead false 3 0x1000 2] }
    (after (.hostCompletion false 3 .ok [1, 2]) s).map (fun t => (t.cmds.flatMap (fun c => c.got.map (fun g => (g.1.1, g.1.2, g.2))), t.outstanding.length)) = some ([(0x200000, 2, [1, 2])], 0) ∧
    (after (.peerRequest 7 3 (2 ^ 42) (.load 2)) up).map (fun t => t.out.head?) = some (some (.peerReply 7 3 .unbacked [])) := by decide +kernel
/-- KeysAndRegisters (R38, R436): a range command of no pages is done at once, one written while another runs is lost; a key command of an older epoch is refused. -/
theorem test_commands : let r (v : Word) (s : State) := (after (.registerWrite 0xF000000100008 v) s).map (fun t => ((t.die 0).tiv.run.isSome, (t.die 0).tiv.ovr))
    place52 0xF000000100008 = .mmio 0 0x100008 ∧ r 0x8800000000000000 up = some (false, false) ∧ r 0x8800000000000001 up = some (true, false) ∧
    r 0x8000000000000000 (cmdS (fun d => { d with tiv := { run := some { kind := 0, job := 0, arg := 0, page := 0 } } })) = some (true, true) ∧
    (after .keyGenerate { up with fw := { up.fw with keycmd := { run := some { kind := 0, job := 0, arg := 3, page := 0 } } } }).map (fun t => t.fw.keycmd.err) = some true ∧
    after .minsvnRaise { up with fw := { up.fw with commit := true, imageSvn := 3, raise := some 0 } } = some { up with fw := { up.fw with commit := true, imageSvn := 3 } } := by decide +kernel
/-- JobCommandsAct (R403, R477): a block whose stream address is not aligned, a block outside HBM, commands that name no job. -/
theorem test_job_refusals : let bad := (jobS 0 []).setBytes 0x20048 [{ v := 8 }]
    (after (.jobActivate 0) bad).map (fun t => (t.jobs.length, (t.die 0).jobcmd.err)) = some (0, true) ∧
    (after (.jobActivate 0) { jobS 0 [] with dies := (jobS 0 []).dies.set 0 { ((jobS 0 []).die 0) with jobcmd := { run := some { kind := 0, job := 1, arg := 0x8000000, page := 0 } } } }).map
      (fun t => (t.jobs.length, (t.die 0).jobcmd.err)) = some (0, true) ∧
    [(after (.jobResume 0) (jobS 1 [])), after (.jobStop 0) (jobS 3 [])].map (fun t => t.map (fun t => ((t.die 0).jobcmd.err, t.jobs.length))) = [some (true, 0), some (true, 0)] := by decide +kernel
/-- FirmwareControllers (R88, R476): a module reset in which no die boots keeps HBM, the attic and every mark, and clears the pantries. -/
theorem test_module_reset : let s := { up with mem := [⟨0x40, 7⟩, ⟨atticAt 0 0 0, 8⟩, ⟨pantryBase 0, 9⟩], poison := [0x40], fw := { up.fw with minsvn := 4 } }
    s.memWf = true ∧ (after (.moduleReset boot0) s).map (fun t => ([0x40, atticAt 0 0 0, pantryBase 0].map (fun a => (t.byteAt a).v), t.poison, t.fw.epoch)) =
      some ([7, 8, 0], [0x40], 0) := by decide +kernel
/-- LeaderAndSpdmCommands: FINISH with the right MAC. -/
theorem wit_finish (mac : Nat) (h : Config.finishMacOk 0 0 mac = true) :
    (after (.finish false mac) { up with p0 := { up.p0 with spdm := 4 } }).map (fun t => t.p0.spdm) = some 5 := by
  have e : ∀ s : State, exec (.finish false mac) s = execFinish false mac s := fun _ => rfl
  simp only [after, e, execFinish]
  rw [show (State.port { up with p0 := { up.p0 with spdm := 4 } } false).share = 0 from rfl, show (up.fw.boots) = 0 from rfl, h]
  rfl
/-- ReliabilitySteps (R438): the entries wait for the ring that a driver names, and are written to it. -/
theorem test_ras_ring : let s := (after (.eccErrorDetected (.memory 0x47)) up).getD up; let n := nameRing s 0 0x2000 16
    s.rasq = [(0, 0x40, 1)] ∧ (n.fw.rasRings.toArray.getD 0 none).isSome = true := by decide +kernel
/-- StepRunsTheDecodedInstruction (R437): a data instruction whose mask register holds a poisoned unit. -/
theorem wit_poisoned_mask : let u := { datOf (dat3 vOff vOff vOff) with ctx := { (datOf (dat3 vOff vOff vOff)).ctx with mpoison := [(1, 0)] } }
    poisonedMask u (.vfadd { f2 with msel := 1 }) = true ∧ poisonedMask u (.vfadd f2) = false ∧ frozenNow (inDat u) 0 0 true = none := by decide +kernel
/-- ResetState, EveryStepGoesOn: turns that find nothing to do. -/
theorem wit_idle : (stepped { up with schedule := [(1, .idle)] }).map (fun t => (t.cycle, t.schedule.length)) = some (1, 0) := by decide +kernel
/-- R129: what a later load reads ahead of its place it keeps, also when the line changes before the load: of a C page and of an M page. -/
theorem test_read_ahead : let u := { ctlOf (regs 0x200000 0 0) with checks := [⟨0, 0x400000, true, true⟩] }
    let s (pte : BitVec 64) (st : L1St) : State := { inCtl u with pairs := [{ id := 0, tlb := [⟨0, 0x200, 1, pte, 0, 0⟩], l1 := [⟨0x2000, st, [0], List.replicate 128 { v := 6 }, 0, 0, []⟩] }] }
    let later (t : State) : State := { t with pairs := t.pairs.map (fun p => { p with l1 := p.l1.map (fun l => { l with data := List.replicate 128 { v := 9 } }) }), cur := .ctl 0 0 }
    [regAfter (.ld ⟨1, 2, 0, 0⟩) (later (readAheadNow (s 0x10000F .e) 0 0 0x200000 1)) 1, regAfter (.ld ⟨1, 2, 0, 0⟩) (later (s 0x10000F .e)) 1,
      regAfter (.ld ⟨1, 2, 0, 0⟩) (later (readAheadNow (s 0x4000000010000F .mg) 0 0 0x200000 1)) 1] = [6, 9, 6].map some := by decide +kernel

/-! ### Widened clauses -/

/-- CachedLoads, CachedStoresPerform: line 0x2000 (or that of pa) in the pair's L1, in a state; its bytes are 6. -/
def lineS (pte : BitVec 64) (pa : Nat) (st : L1St) (stamp : List Nat) (u : UnitSt) : State :=
  { inCtl u with p0 := { up := true }, pairs := [{ id := 0, tlb := [⟨0, 0x200, 1, pte, 0, 0⟩], l1 := [⟨pa / 128, st, [0], List.replicate 128 { v := 6 }, 0, 0, stamp⟩] }] }
def lineU : UnitSt := { ctlOf (regs 0x200000 2 9) with checks := [⟨0, 0x400000, true, true⟩] }
theorem test_cached_loads : let ld : Instr := .ld ⟨1, 2, 0, 0⟩; let ldo : Instr := .ldo ⟨1, 2, 0, 0, 0, 1, 0, 0⟩; let host : Nat := 0x4000000100000
    [regAfter ld (lineS 0x10000F 0x100000 .s [] lineU) 1, regAfter ld (lineS 0x4000000010000F 0x100000 .mg [] lineU) 1,
      regAfter ld (lineS 0x400000010000F host .pc [0, 0, 0, 0] lineU) 1, regAfter ldo (lineS 0x10000F 0x100000 .e [] lineU) 1,
      regAfter ld (lineS 0x10000F 0x100000 .s [] (lineU.modCtl (fun c => { c with ahead := [(0x100000, [5])] }))) 1,
      regAfter ldo (lineS 0x10000F 0x100000 .s [] (lineU.modCtl (fun c => { c with ahead := [(0x100000, [5])] }))) 1] = [6, 6, 6, 6, 5, 6].map some ∧
    (lineU.modCtl (fun c => { c with ahead := [(0x100000, [5])] })).ctx.ctl.readAhead 0x100000 1 = some [5] ∧
    stampOk [0, 0, 0, 0] 0 lineU.ctx.ctl.hostFloor = true ∧ cachedHere 0 0x100000 = true ∧ homePoisoned up 0x100000 1 = false := by decide +kernel
/-- The unit's store of 2 to byte 0x100008 waits, with the line in the L1. -/
def lineStS (pte : BitVec 64) (st : L1St) : State := { (after (.st ⟨3, 2, 3, 1⟩) (lineS pte 0x100000 st [] lineU)).getD up with cur := .none }
theorem test_cached_stores : let go (pte : BitVec 64) (st : L1St) : Option (List Nat) := (after (.storeBufferDrain 0 0) (lineStS pte st)).map (fun t =>
      t.acks.length :: (t.pairOf 0).l1.flatMap (fun l => (match l.st with | .m => 3 | .mg => 5 | _ => 0) :: l.dirty.toNat :: ((l.data.take 17).drop 7).map (fun b => b.v.toNat)))
    let is (s : State) (cm : Nat) : Bool := match s.findUnit ⟨0, 0, 0⟩ with
      | some u => (match u.ctx.ctl.sb with
        | [e] => e.acc.pa == 0x100008 && e.acc.cm == cm && e.rel == none && e.acc.use == .store [2, 0, 0, 0, 0, 0, 0, 0] e.acc.aid && u.ctx.ctl.flight.isEmpty
        | _ => false)
      | none => false
    go 0x10000F .e = some [1, 3, 12, 6, 2, 0, 0, 0, 0, 0, 0, 0, 6] ∧ go 0x4000000010000F .mg = some [1, 5, 12, 6, 2, 0, 0, 0, 0, 0, 0, 0, 6] ∧
    is (lineStS 0x10000F .e) 0 = true ∧ is (lineStS 0x4000000010000F .mg) 1 = true ∧ subscribed (lineStS 0x10000F .e) 0x100008 8 = false := by decide +kernel
/-- StoresEnterTheBuffer, PantryStorePerforms (R125, R148): a release store enters with its scope, waits for the acknowledgement of an older store of its
group, and performs once there is none. -/
theorem test_release_store : let f : CX := ⟨0, 2, 4, 0, 4, 2, 1, 2⟩; let t := (after (.sto f) localS).getD up
    let wait := { t with cur := .none, units := t.units.map (fun u => u.modCtl (fun c => { c with unacked := c.unacked.set 0 1 })) }
    (unitAfter (.sto f) localS).map (fun u => u.ctx.ctl.sb.map (fun e => (e.rel, e.acc.pa))) = some [(some 4, localU.pantryPa 10)] ∧
    after (.storeBufferDrain 0 0) wait = some wait ∧
    (after (.storeBufferDrain 0 0) { t with cur := .none }).map (fun t => ((t.bytesAt (localU.pantryPa 9) 4).map TByte.v, t.acks.length)) = some ([255, 9, 0, 0], 1) := by decide +kernel
/-- LocalLoads, LocalAtomics (R111, R124, R125, R295, R298): acquire and release forms, the merging line of the job gone; FADD32 of 1.0 and 1.5. -/
theorem test_ordered_forms : let s := { localS with pairs := [{ id := 0, l1 := [mg0] }] }
    let fs := (inCtl localU).setBytes (localU.pantryPa 8) ([0, 0, 0x80, 0x3F].map (fun b => { v := b }))
    let fu : State := { fs with units := fs.units.map (fun u => u.setC 3 0x3FC00000) }
    (after (.ldo ⟨1, 2, 0, 0, 4, 1, 3, 0⟩) s).map (fun t => ((t.findUnit ⟨0, 0, 0⟩).map (fun u => (u.c 1, u.ctx.ctl.pc)), (t.pairOf 0).l1.length)) = some (some (0x010000000000FF80, 3), 0) ∧
    (after (.amo ⟨1, 2, 3, 0, 4, 3, 0x40, 0⟩) s).map (fun t => ((t.findUnit ⟨0, 0, 0⟩).map (fun u => (u.c 1, u.ctx.ctl.pc)), (t.pairOf 0).l1.length)) = some (some (0x010000000000FF80, 3), 0) ∧
    (after (.amo ⟨1, 2, 3, 0, 0, 0, 0x0B, 0⟩) fu).map (fun t => leNat ((t.bytesAt (localU.pantryPa 8) 4).map TByte.v)) = some 0x40200000 ∧
    (unitAfter (.amo ⟨1, 2, 3, 0, 0, 0, 0x0B, 0⟩) fu).map (fun u => u.c 1) = some 0x3F800000 := by decide +kernel
/-- WaitvCompletes (R413): no turn of a parked WAITV completes it while stores of a restore are still to replay. -/
theorem test_waitv_replay : let s := parkedS (parkedU 0 4096 9999 true); let r := { s with units := s.units.map (fun u => u.modCtl (fun c => { c with replay := true })) }
    [Instr.waitvWake 0 0, .waitvReread 0 0, .waitvTimeout 0 0].map (fun i => (unitAfter i r).map (fun u => u.ctx.ctl.pc)) = List.replicate 3 (some 1) := by decide +kernel
/-- DescriptorErrorsTrap, SubscriptionsBeginAndEnd (R363): causes 5 to 8. -/
theorem test_descriptor_causes : let s (a b d : Word) := { inCtl (ctlOf (regs a b d)) with subs := [sub0] }
    [trapAfter (.cpy ⟨0, 2, 3, 4, 1, 0, 0, 0⟩) (s sideW 0x200000 1), trapAfter (.gath ⟨1, 2, 3, 4, 1, 0, 0, 0⟩) (s sideW 0x200000 (pickW 1)),
      trapAfter (.subs ⟨1, 2, 3, 4, 1, 0, 0, 0x100⟩) (s sideW 0x200000 128), trapAfter (.cntset { cx0 with imm := 1 }) { s 0 0 0 with cmds := [copy0] },
      trapAfter (.subs ⟨1, 2, 3, 4, 1, 0, 0, 0x100⟩) { s sideW 0x200000 128 with subs := [{ sub0 with active := false }] },
      trapAfter (.subs ⟨1, 2, 3, 4, 1, 0, 0, 0x100⟩) { s sideW 0x200040 128 with subs := [] },
      trapAfter (.subs ⟨1, 2, 3, 4, 1, 0, 0, 0x100⟩) (paged (BitVec.ofNat 64 (atticAt 1 0 0 + 7)) (inCtl (subU .none))), trapAfter (.unsub { cx0 with ra := 2 }) { s sideW 0 0 with subs := [] }] =
      [5, 5, 5, 6, 7, 7, 7, 8].map (fun c => some (0x18, 0, c)) := by decide +kernel
/-- CountersAndQueries (R368): WAITC and its completion on a faulted counter surface the halt record of the oldest halted command. -/
theorem test_waitc_faulted : let h : HaltRec := ⟨0x13, 0x200040, 12, 0, 0⟩; let c := { copy0 with status := .halted h }
    let go (w : CtlWait) : State := let u := ctlOf { wait := w }; { inCtl { u with ctx := { u.ctx with counters := [{}, { f := true }] } } with cmds := [c] }
    let got (i : Instr) (s : State) : Option (List Nat) := ((unitAfter i s).bind UnitSt.trap).map (fun t => [t.code, t.src, t.pc, t.addr, t.offset])
    (match (go .none).units with | [u] => decide ((u.counter 1).f = true ∧ ((go .none).unitCmds u.key).find? (fun c => c.ctr == some 1 && c.halt?.isSome) = some c) | _ => false) = true ∧
    got (.waitc { cx0 with imm := 1 }) (go .none) = some [0x13, 2, 1, 0x200040, 12] ∧
    got (.waitcComplete 0 0) { go (.waitc 1 4) with cur := .none } = some [0x13, 2, 1, 0x200040, 12] := by decide +kernel
/-- FloatElementResults (R318): the special operands, from the table of the rule: NaN, an infinity, a zero, a negative number, 1. -/
theorem test_vfspec_special : let s := datS (vv 1 [0x7FC00000, 0xFF800000, 0x80000000, 0xBF800000, 0x3F800000, 0x7F800000]) (vv 1 []) (vv 1 [])
    let go (fn : BitVec 5) : Option (List Nat) := lanesAfter (.vfspec { d0 with vd := 4, va := 1, fn := fn }) s 4 6
    let nan : Nat := 0x7FC00000
    (go 0).map (fun l => l.take 5) = some [nan, 0x80000000, 0xFF800000, 0xBF800000, 0x3F800000] ∧
    (go 1).map (fun l => [l.getD 1 0, l.getD 2 0, l.getD 3 0, l.getD 5 9]) = some [nan, 0xFF800000, nan, 0] ∧
    (go 2).map (fun l => [l.getD 1 0, l.getD 2 0, l.getD 3 0, l.getD 4 0, l.getD 5 9]) = some [nan, 0x80000000, nan, 0x3F800000, 0x7F800000] ∧
    (go 3).map (fun l => [l.getD 1 9, l.getD 2 0, l.getD 5 0]) = some [0, 0x3F800000, 0x7F800000] ∧
    (go 4).map (fun l => [l.getD 1 0, l.getD 2 0, l.getD 3 0, l.getD 4 9, l.getD 5 0]) = some [nan, 0xFF800000, nan, 0, 0x7F800000] ∧
    (go 5).map (fun l => [l.getD 1 0, l.getD 2 0]) = some [nan, 0x80000000] ∧ (go 6).map (fun l => [l.getD 2 0, l.getD 5 0]) = some [0x3F800000, nan] ∧
    (go 7).map (fun l => [l.getD 1 0, l.getD 2 0, l.getD 5 0]) = some [0xBF800000, 0x80000000, 0x3F800000] := by decide +kernel
/-- CompareMasks (R476): a poisoned unit of the destination mask traps where the compare writes a part of it, and is cleared where it writes all. -/
theorem test_compare_poison : let u := datOf (dat3 (vv 8 [1]) (vv 8 [2]) (vv 8 [])); let s := inDat { u with ctx := { u.ctx with mpoison := [(4, 0)] } }
    trapAfter (.vicmp { f2 with msel := 1 }) s = some (0x17, 0, 0) ∧
    [Instr.vicmp { f2 with fn := 2, msel := 1, z := true }, .vicmp { f2 with fn := 2 }].map (fun i => (unitAfter i s).map (fun u => (u.ctx.mpoison, (u.mreg 4).toNat))) = List.replicate 2 (some ([], 1)) := by decide +kernel
/-- CrossLaneResults (R329): of 1, -2, NaN, 0.5, 2, 0, 1 and an infinity of FP16, elements 1, 2, 4 and 7 stay. -/
theorem test_prune_ranks : let s := datS (vv 3 [0xC0003C00, 0x38007E00, 0x00004000, 0x7C003C00]) (vv 8 []) (vv 8 []); let i : Instr := .vprune { d0 with vd := 4, va := 1, vc := 5 }
    lanesAfter i s 4 2 = some [0x7E00C000, 0x7C004000] ∧ lanesAfter i s 5 1 = some [0x06880F11] := by decide +kernel
/-- VectorLoads (R335): lanes 0 and 2 were read before the others. -/
theorem test_early_lanes : let s0 := pS vOff (vv 8 [7, 8, 9]) vOff; let s := { s0 with units := s0.units.map (fun u => { u with ctx := { u.ctx with dat := { u.ctx.dat with lanes := [(0, 0xAA), (2, 0xBB)] } } }) }
    lanesAfter (.vld { d0 with vd := 4, va := 6, fn := 8 }) s 4 4 = some [0xAA, 0x0B0A0908, 0xBB, 0x13121110] ∧
    (unitAfter (.vld { d0 with vd := 4, va := 6, fn := 8 }) s).map (fun u => u.ctx.dat.lanes) = some [] := by decide +kernel
/-- ChutePopStartsAnEntry (R413): no pop while stores of a restore are still to replay. -/
theorem test_pop_replay : let s0 := popS 0; let s := { s0 with units := s0.units.map (fun u => u.modCtl (fun c => { c with replay := true })) }
    after (.chutePop 0 0) s = some s := by decide +kernel
/-- MatrixCommandsComplete (R350, R351, R353): one element of FP16, of E4M3 with scales 2.0 and 1.0, of INT8 clamped; a pruned row; and where the operands
of an MMA with K 8 and of an MMAS with K 32 stand. -/
theorem test_mma_forms : let rep (x : Nat) : List Nat := List.replicate 8 x; let one : List Val := [decodeVal 0x7F000 16]
    mmaElem { d0 with x16 := 8 * 3 + 128 * 3 + 0x1000 } 8 0 (rep 0x3C00) (rep 0x3E00) one one = (0x41400000, 0) ∧
    mmaElem { d0 with x16 := 8 * 5 + 128 * 5 + 0x1000 } 8 0 (rep 0x38) (rep 0x38) [decodeVal 0x80000 16] one = (0x41800000, 0) ∧
    mmaElem { d0 with x16 := int8 + 0x800 } 8 0x7FFFFFF0 (rep 127) (rep 127) [] [] = (0x7FFFFFFF, 32) ∧
    expandRow [0x688 + 512 * 4 - 512 * 3] 0 8 [1, 2, 3, 4] = [1, 2, 3, 0, 4, 0, 0, 0] ∧
    [(128, 512), (1024, 512), (128, 1024), (1024, 2048)].all (fun x => match resolve mS mU true x.1 x.2 with | .ok (w, off) => w.key == mU.key && off == x.1 && !mS.poisoned (w.pantryPa off) x.2 | _ => false) = true := by decide +kernel
/-- MatrixCommandsComplete (R356): where an MSTA to INT8 and one to FP4 write, and what they write of an element. -/
theorem wit_msta : let c := { mc 3 0x73 { d0 with vb := 1, fn := 10 } 128 0 [] with tag := 8 }
    (mQ [c] (some 3)).findUnit c.unit = some mU ∧ ((mQ [c] (some 3)).pairOf 0).mrun = some 3 ∧ ((mQ [c] (some 3)).pairOf 0).mq = [c] ∧ (mU.tile 1).poison = [] ∧
    [4096, 2048].all (fun n => match resolve mS mU true 128 n with | .ok (w, off) => w.key == mU.key && off == 128 && !mS.partPoison (w.pantryPa off) n | _ => false) = true ∧
    [(toFormat 5 8 10 0 false).1, (toFormat 0x80000000 8 10 0 false).1 % 256, (toFormat 0x3F800000 1 7 0 false).1] = [5, 0x80, 2] := by decide +kernel
/-- ControlRecordsDecode (R217): CANCEL LVL 2 ends the task of the phase and leaves the one of an older phase. -/
theorem test_cancel_phase : let j := { job0 with phaseNo := 1, window := [{ launchTask 3 with phaseNo := 0 }, { launchTask 4 with phaseNo := 1 }] }
    let s := { seqS j with units := [{ unit0 {} with key := ⟨0, 3, 1⟩ }, { unit0 {} with key := ⟨0, 4, 1⟩, place := .placed 1 0 }] }
    (after (.cancel { r0 with x32 := 2 }) s).map (fun t => (t.units.map (fun u => u.key.tidx), [3, 4].map (fun n => ((t.taskOf 0 n).map (fun y => (y.completed, y.launchCtr)))))) =
      some ([3], [some (false, 2), some (true, 0)]) ∧
    (cancelTasks j (j.window.filter (fun t => t.phaseNo == j.phaseNo && !t.completed)) s).isSome = true ∧ (j.window.map Task.tidx).Nodup := by decide +kernel
/-- WaitevReadsAgain (R115, R116, R214): a read that begins at .node asks for a copy of a host line younger than any at hand. -/
theorem test_waitev_acquires : let x : Task := { tk 4 (.waitev 0 1 0x200800 9 10) true false with started := some 0, woken := true }; let s := winS job0 [x]
    taskReading s 0 4 = false ∧ (seqAcquire s 0 10).job 0 = some { job0 with pc := 0x200F00, tidx := 5, window := [x], ctxn := [4, 4, 4, 4], ctxb := [0x400000, 0x800000, 0xC00000, 0x1000000], hostFloor := 1 } ∧
    (seqAcquire s 0 4).job 0 = s.job 0 ∧ acqCovers 10 false = (true, true, true) := by decide +kernel
/-- FaultRecords (R400, R405): a record of a unit; its way into a ring with room, and into a full one. -/
def faultT : TaskFault :=
  { tidx := 4, trap := { code := 0x0B, src := 1, pc := 7, addr := 0x200040, info := 9, chseq := some 3, iter := some 2 }, unit := some ⟨⟨0, 4, 0⟩, 3, 2, 5, 6, 0, some (1, 8)⟩, more := true }
theorem test_fault_record : let q (i hi lo : Nat) : Nat := bits (leNat (sliceOf (recordBytes 1 6 faultT) (8 * i) 8)) hi lo
    [(recordBytes 1 6 faultT).length, q 0 7 0, q 0 11 8, q 0 23 12, q 0 32 24, q 0 34 33, q 0 36 36, q 0 63 40, q 1 63 0, q 2 31 0, q 2 63 32, q 3 63 32, q 4 31 0, q 4 63 32, q 5 63 0, q 6 31 0, q 7 63 62, q 7 61 48] =
      [64, 0x0B, 1, 1, 3, 2, 1, 6, 4, 5, 6, 3, 7, 2, 0x200040, 9, 1, 8] := by decide +kernel
def ringS (prod cons : Nat) : State :=
  [(0x200D0, prod), (0x200D8, cons)].foldl (fun s x => s.setBytes x.1 ((leBytes 8 x.2).map (fun b => { v := b }))) (winS { job0 with ring := 0x30000, jcb := 0x20000 } [])
theorem test_fault_ring : let bs := recordBytes 1 6 faultT; let go (prod cons : Nat) (stop : Bool) := (((ringS prod cons).job 0).bind (fun j => writeRecord (ringS prod cons) j.report stop bs)).map (fun t =>
      [decide (homeSeen t 0 0x30040 64 = bs), decide (homeSeen t 0 0x20100 64 = bs), decide (homeSeen t 0 0x200D0 8 = leBytes 8 (prod + 1)), decide (homeSeen t 0 0x200E0 8 = leBytes 8 1), t.out.length == 1])
    go 17 16 true = some [true, true, true, false, true] ∧ go 17 1 false = some [false, false, false, true, true] ∧ ringOk 0x30000 16 = true := by decide +kernel
/-- UnitsArePlaced (R393): a unit of class 1 that fits nowhere holds up one of its class behind it that shares pair 1, not one without a shared pair, nor one of
class 2; of two that fit the lower class comes first and both are placed. -/
def pairU (n cls pantry : Nat) (tg : List Nat) : UnitSt :=
  let u := waitU .waiting
  { u with key := ⟨0, 4, n⟩, target := tg, stamp := n, launch := { u.launch with cls := cls, pantry := pantry } }
theorem test_placement_order : let s (a b : UnitSt) := { winS job0 [{ launchTask 4 with next := 2 }] with units := [a, b] }
    let places (a b : UnitSt) := (after .unitPlacement (s a b)).map (fun t => t.units.map UnitSt.place); let big := pairU 0 1 17 [0, 1]
    ((s big big).jobs.foldl admitJob (s big big)).units = [big, big] ∧ placeOrder big (pairU 1 1 1 [1, 2]) = true ∧ placeOrder (pairU 1 1 1 [2]) big = false ∧
    places big (pairU 1 1 1 [1, 2]) = some [.waiting, .waiting] ∧ places big (pairU 1 1 1 [2]) = some [.waiting, .placed 2 0] ∧
    places big (pairU 1 2 1 [1, 2]) = some [.waiting, .placed 1 0] ∧ places (pairU 0 2 1 [0]) (pairU 1 1 16 [0, 1]) = some [.waiting, .placed 0 0] := by decide +kernel
theorem wit_best_fit : let u := pairU 0 1 1 [0, 1]; let v := { pairU 1 1 1 [0] with place := .placed 0 0 }
    let s := { winS job0 [{ launchTask 4 with next := 2 }] with units := [u, v] }
    [bestPair s u, bestPair s { u with target := [0] }] = [some (1, 0), some (0, 65536)] ∧ pairOn s 1 = true ∧ (s.occupants 0).map UnitSt.base = [0] ∧ u.regionBytes = 65536 := by decide +kernel
/-- JobCommandsAct (R404): at a resume the unit that trapped gets its record's registers. -/
theorem test_resume_registers : let f : TaskFault := { tidx := 4, trap := { code := 0x0B, src := 0 }, unit := none, reported := true }; let j := { job0 with id := 1, window := [launchTask 4] }
    let u := { trappedU with key := ⟨1, 4, 0⟩, place := .saved, trap := some { code := 0x13, src := 0, pc := 5, addr := 0x200040, info := 3 } }
    (after (.jobResume 0) { jobS 1 [{ j with status := .halted true, fault := some f }] with units := [u] }).map (fun t => t.units.map (fun v => [v.ctx.ctl.trapcode, v.ctx.ctl.trappc, v.ctx.ctl.trapaddr, v.ctx.ctl.trapinfo])) =
      some [[0x13, 5, 0x200040, 3]] := by decide +kernel
/-- ContextsMoveAndWatch (R369, R370): what a restore does with the unit's commands: one that the save stopped is issued again where it stood, and after a trap one
that had halted. -/
theorem test_restore_reissues : let c := { copy0 with unit := ⟨0, 4, 0⟩, next := 2 }; let u := bareU (.placed 1 2) []
    let go (st : CmdStatus) (r : Bool) := (reissue { bareS u with cmds := [{ c with status := st }] } u r).cmds.map (fun c => (c.next, c.pair, decide (c.status = .issued)))
    go .stopped false = [(2, 1, true)] ∧ go (.halted ⟨0x13, 0, 2, 0, 0⟩) true = [(2, 1, true)] ∧ go (.halted ⟨0x13, 0, 2, 0, 0⟩) false = [(2, 1, false)] := by decide +kernel
/-- EngineHalts (R366, R367, R370, R376, R379): a sector outside the check intervals, with the command behind it held; a landing over a poisoned unit; a misaligned row;
the end of a picker with a faulting element; a save. -/
def haltsOf (o : Option State) : Option (List (List Nat)) :=
  o.map (fun t => t.cmds.map (fun c => match c.status with | .halted h => [h.code, h.addr, h.offset, h.hcode] | .held => [1] | .stopped => [2] | _ => [0]))
theorem test_engine_halts : let run := { copy0 with status := .running }; let landed := (after (.engineSector 5) (engS run)).getD up
    (let s := { engS { run with src := 0x200000 } with cmds := [{ run with src := 0x200000 }, { copy0 with id := 6 }] }
     haltsOf (after (.engineSector 5) s) = some [[0x13, 0x200000, 0, 0x13], [1]] ∧ (unitAfter (.engineSector 5) s).map (fun u => (u.counter 1).f) = some true) ∧
    haltsOf (after (.engineBytesLand 5 0) { landed with poison := [pantryBase 0] }) = some [[0x17, localWindow, 0, 0x17]] ∧
    haltsOf (after (.contextSave 0 0) (let u := { ctlOf {} with place := .saving 0 0 }; { engS run with units := [u] })) = some [[2]] := by decide +kernel
theorem test_picker_halts : let g := (after (.engineCommandStart 5) { gathS with cmds := gathS.cmds.map (fun c => { c with src := 0x200002, ctr := some 1 }) }).getD up
    let two := { g with cmds := g.cmds.map (fun c => { c with idx := [0, 1] }) }
    (after (.pickerRowAccess 5 0) two).map (fun t => t.cmds.map (fun c => c.todo ++ c.failed.flatMap (fun x => [x.1, x.2.1, x.2.2.1, x.2.2.2]))) = some [[1, 0, 0x0A, 0x200002, 0]] ∧
    haltsOf (after (.engineSector 5) { g with cmds := g.cmds.map (fun c => { c with todo := [], failed := [(1, 0x0A, 0x20000A, 0)] }) }) = some [[0x1A, 0x20000A, 1, 0x0A]] := by decide +kernel
/-- RowAndGridResults (R378): two source rows are added to one word of HBM in one step. -/
theorem test_scata : let c := { copy0 with queue := 1, status := .running, dst := 0x200000, src := localWindow + 512, kind := .scata 8 2 4 (localWindow + 256) 1, ctr := none, todo := [0, 1], idx := [1, 1] }
    let s := ((engS c).setBytes (pantryBase 0 + 512) [{ v := 1 }, {}, {}, {}, { v := 2 }, {}, {}, {}]).setBytes 0x100008 [{ v := 7 }]
    let s := paged 0x10000F { s with units := [{ ctlOf {} with checks := [⟨0, 0x400000, true, true⟩] }] }
    c.rows = [0x200008] ∧ (after (.pickerRowAccess 5 0) s).map (fun t => ((homeBytes t 0x100007 6).map TByte.v, t.cmds.map Cmd.todo)) = some ([0, 10, 0, 0, 0, 0], [[]]) := by decide +kernel
/-- RowAndGridResults (R383): the example of the rule, a 1-D RESTRICT in FP32 with clamped boundaries. -/
theorem test_stair : let r : StairRec := { bnd := 1, ntap := 3, ext := [8, 1, 1] }; let taps : List (BitVec 64) := [0x3E800000010000FF, 0x3F00000001000000, 0x3E80000001000001]
    let c := { copy0 with status := .running, src := localWindow + 256, kind := .stair r (localWindow + 1024), ctr := none, taps := taps }
    let s := (engS c).setBytes (pantryBase 0 + 256) (([0x40800000, 0x4C800000, 0x3F800000, 0x40400000].flatMap (leBytes 4)).map (fun b => { v := b }))
    stairOf (leBytes 8 0x31108 ++ leBytes 8 8) = { r with ext := [8, 0, 0] } ∧
    (match sectorWrites s c c.sectorLen with | .ok _ ws => ws.length == 16 && (ws.take 8).map ByteW.val == [2, 0, 0x80, 0x4B, 1, 0, 0x80, 0x4B] && (ws.take 1).map ByteW.addr == [localWindow] | _ => false) = true := by decide +kernel
/-- FirmwareControllers (R432): a leader without a heartbeat for 50 ms does not renew its lease, and the lowest die that is alive takes it. -/
theorem test_lease_alive : let z := 95000000; let s := { up with cycle := z, fw := { up.fw with beats := ⟨#[0, 1, 1, 1], rfl⟩, leaseTill := z } }
    s.alive 0 = false ∧ s.alive 1 = true ∧ after (.leaseRenew 0) s = some s ∧ (after .leaseLapse s).map (fun t => (t.fw.leader, t.fw.epoch)) = some (1, 2) := by decide +kernel
/-- ReliabilitySteps, VaultSplits: no sector of a command is partly written here; one is there. -/
theorem wit_sector_holds : let c := { copy0 with begun := true, landings := [⟨localWindow, atticAt 0 5 0, [1], [255], 2, [], 7⟩] }
    sectorHolds up 8 = false ∧ sectorIn up 0 5 = false ∧ sectorHolds { up with cmds := [c] } (lineOf (atticAt 0 5 0)) = true ∧ sectorIn { up with cmds := [c] } 0 5 = true := by decide +kernel

end Sys2Proof.Tests
end

section
/-!
Proofs for the statements on scope: the state after module reset, the commands and registers of the MMIO class, the requests of a host.
-/

namespace Sys2Proof.Machine

/-! ### Module reset (R7, R22, R397, R433, R439) -/

/-- Every die is after module reset what a die is that nothing has touched. -/
@[simp] theorem State.reset_die (d : Nat) : State.reset.die d = {} := by
  by_cases h : d < 4 <;> simp [State.reset, State.die, Array.getD, h]

/-- Every vault of an untouched die is an untouched vault. -/
@[simp] theorem Die.default_vault (v : Nat) : ({} : Die).vault v = {} := by
  by_cases h : v < 24 <;> simp [Die.vault, Array.getD, h]

/-- Settles O56: dies and vaults by the two lemmas above, every other field as `State.reset` has it. -/
theorem resetState : Obligations.ResetState := by
  unfold Obligations.ResetState
  refine ⟨rfl, State.reset_memWf, rfl, rfl, rfl, rfl, rfl, rfl, rfl, rfl, rfl, rfl, rfl, rfl, fun d _ => ?_⟩
  rw [State.reset_die]
  refine ⟨rfl, rfl, rfl, rfl, rfl, rfl, fun v _ => ?_⟩
  rw [Die.default_vault]
  exact ⟨rfl, rfl, rfl⟩

/-! ### Updates of one die -/

/-- The die that is updated holds what the update makes of it. -/
@[simp] theorem State.die_modDie (s : State) {d : Nat} (f : Die → Die) (hd : d < 4) : (s.modDie d f).die d = f (s.die d) := by
  simp [State.modDie, State.setDie, State.die, Array.getD, hd]

/-! ### KEYCMD (R432, R436) -/

/-- A KEYCMD may change its slot: its epoch stands, and the slot is neither slot 0 nor one that an active job names. -/
def KeyFree (s : State) (r : CmdRun) : Prop := s.fw.epoch ≤ r.page ∧ r.arg ≠ 0 ∧ ∀ j ∈ s.jobs, j.key ≠ r.arg

/-- The firmware state once its KEYCMD r has acted, with ERR as given. -/
def Firmware.keyActed (fw : Firmware) (r : CmdRun) (err : Bool) : Firmware :=
  { fw with keycmd := { fw.keycmd with err := err, run := some { r with acted := true } } }

/-- The refusal test of `keyCommand` is the negation of `KeyFree`. -/
theorem keyFree_iff (s : State) (r : CmdRun) :
    KeyFree s r ↔ (decide (r.page < s.fw.epoch) || r.arg == 0 || s.jobs.any (fun j => j.key == r.arg)) = false := by
  simp [KeyFree, and_assoc]

section KeyCommand

variable {s : State} {r : CmdRun} {kind : Nat} (hrun : s.fw.keycmd.run = some r) (hkind : r.kind = kind) (hact : r.acted = false)
  (hlease : leaseStands s = true) (f : Nat → Firmware → Firmware)
include hrun hkind hact hlease

theorem keyCommand_free (hfree : KeyFree s r) :
    keyCommand kind f s = .next { s with fw := (f r.arg s.fw).keyActed r false } := by
  simp [keyCommand, hrun, hkind, hact, hlease, (keyFree_iff s r).1 hfree, Firmware.keyActed]

theorem keyCommand_refused (hbad : ¬ KeyFree s r) :
    keyCommand kind f s = .next { s with fw := s.fw.keyActed r true } := by
  rw [keyFree_iff, Bool.not_eq_false] at hbad
  simp [keyCommand, hrun, hkind, hact, hlease, hbad, Firmware.keyActed]

end KeyCommand

theorem exec_keyCommandDone {s : State} {r : CmdRun} (hrun : s.fw.keycmd.run = some r) (hact : r.acted = true) :
    exec .keyCommandDone s = .next { s with fw := { s.fw with keycmd := { s.fw.keycmd with run := none } } } := by
  show execKeyCommandDone s = _
  simp [execKeyCommandDone, hrun, hact]

theorem exec_keyGenerate (s : State) : exec .keyGenerate s = keyCommand 0 (fun k fw =>
    { fw with keyCount := fw.keyCount + 1, keySlots := (k, fw.keyCount + 1) :: fw.keySlots.filter (fun x => x.1 != k) }) s := rfl

theorem exec_keyClear (s : State) :
    exec .keyClear s = keyCommand 1 (fun k fw => { fw with keySlots := fw.keySlots.filter (fun x => x.1 != k) }) s := rfl

/-! ### Freezing units for a save (R181) -/

@[simp] theorem State.abandonMatrix_dies (s : State) (k : UKey) (p : Nat) : (s.abandonMatrix k p).dies = s.dies := by
  rcases s.abandonMatrix_cases k p with h | h <;> simp [h]

@[simp] theorem State.freeze_dies (s : State) (k : UKey) : (s.freeze k).dies = s.dies := by
  unfold State.freeze
  split
  · rfl
  · split <;> simp

/-- An update in place keeps the order of the keys. -/
theorem map_key_putUnitL (u : UnitSt) (l : List UnitSt) : (putUnitL u l).map UnitSt.key = l.map UnitSt.key := by
  induction l with
  | nil => rfl
  | cons x xs ih => unfold putUnitL; split <;> simp_all

/-- After an update in place of a unit whose key is one unit's alone, a member is the new unit or an old one of another key. -/
theorem mem_putUnitL {u x : UnitSt} {l : List UnitSt} (hnd : (l.map UnitSt.key).Nodup) (hx : x ∈ putUnitL u l) :
    x = u ∨ (x ∈ l ∧ x.key ≠ u.key) := by
  induction l with
  | nil => simp [putUnitL] at hx
  | cons y ys ih =>
    obtain ⟨hy, hys⟩ := List.nodup_cons.1 hnd
    unfold putUnitL at hx
    split at hx
    case isTrue hkey =>
      rcases List.mem_cons.1 hx with rfl | hmem
      · exact .inl rfl
      · exact .inr ⟨List.mem_cons_of_mem _ hmem, fun e => hy (hkey ▸ e ▸ List.mem_map_of_mem hmem)⟩
    case isFalse hkey =>
      rcases List.mem_cons.1 hx with rfl | hmem
      · exact .inr ⟨List.mem_cons_self, hkey⟩
      · exact (ih hys hmem).imp_right (fun ⟨hmem, hne⟩ => ⟨List.mem_cons_of_mem _ hmem, hne⟩)

/-- All that a freeze can do to the units: nothing, where no running unit has the key, or put a unit of the key that no longer runs. -/
theorem State.freeze_units_cases (s : State) (k : UKey) :
    ((s.freeze k).units = s.units ∧ ∀ u, s.findUnit k = some u → u.running = false) ∨
    ∃ v : UnitSt, v.key = k ∧ v.running = false ∧ (s.freeze k).units = putUnitL v s.units := by
  unfold State.freeze
  split
  case h_1 hnone => exact .inl ⟨rfl, by simp [hnone]⟩
  case h_2 u hfind =>
    split
    case h_1 p n hplace =>
      refine .inr ⟨{ u with place := .saving p n, frozenAt := s.cycle }, s.findUnit_key k u hfind, rfl, ?_⟩
      simp [State.putUnit]
    all_goals
      rename_i hplace
      exact .inl ⟨rfl, fun w hw => by rw [hfind] at hw; cases hw; simp [UnitSt.running, hplace]⟩

theorem State.freeze_unitKeys (s : State) (k : UKey) : (s.freeze k).units.map UnitSt.key = s.units.map UnitSt.key := by
  rcases s.freeze_units_cases k with ⟨h, -⟩ | ⟨v, -, -, h⟩
  · rw [h]
  · rw [h, map_key_putUnitL]

/-- Where keys are unique, a member of the list is the one that its key finds. -/
theorem State.findUnit_of_mem {s : State} {u : UnitSt} (hnd : (s.units.map UnitSt.key).Nodup) (hu : u ∈ s.units) :
    s.findUnit u.key = some u := by
  obtain ⟨w, hw⟩ : ∃ w, s.findUnit u.key = some w := Option.isSome_iff_exists.1 (List.find?_isSome.2 ⟨u, hu, by simp⟩)
  have : w = u := List.inj_on_of_nodup_map hnd (List.mem_of_find?_eq_some hw) hu (s.findUnit_key _ _ hw)
  rw [hw, this]

/-- What runs after a freeze ran before it and has another key. -/
theorem State.running_of_freeze {s : State} {k : UKey} {u : UnitSt} (hnd : (s.units.map UnitSt.key).Nodup)
    (hu : u ∈ (s.freeze k).units) (hr : u.running = true) : u ∈ s.units ∧ u.key ≠ k := by
  rcases s.freeze_units_cases k with ⟨h, hstill⟩ | ⟨v, hv, hstill, h⟩
  · rw [h] at hu
    refine ⟨hu, fun e => ?_⟩
    simp [hstill u (e ▸ State.findUnit_of_mem hnd hu)] at hr
  · rw [h] at hu
    rcases mem_putUnitL hnd hu with rfl | ⟨hmem, hne⟩
    · simp [hstill] at hr
    · exact ⟨hmem, hv ▸ hne⟩

theorem State.foldl_freeze_dies (ks : List UKey) (s : State) : (ks.foldl State.freeze s).dies = s.dies := by
  induction ks generalizing s with
  | nil => rfl
  | cons k ks ih => rw [List.foldl_cons, ih, State.freeze_dies]

/-- What runs after a row of freezes ran before them and has none of their keys. -/
theorem State.running_of_foldl_freeze (ks : List UKey) {s : State} {u : UnitSt} (hnd : (s.units.map UnitSt.key).Nodup)
    (hu : u ∈ (ks.foldl State.freeze s).units) (hr : u.running = true) : u ∈ s.units ∧ u.key ∉ ks := by
  induction ks generalizing s with
  | nil => exact ⟨hu, by simp⟩
  | cons k ks ih =>
    obtain ⟨hmem, hks⟩ := ih (by rw [State.freeze_unitKeys]; exact hnd) hu
    obtain ⟨hmem, hk⟩ := State.running_of_freeze hnd hmem hr
    exact ⟨hmem, by simp [hk, hks]⟩

/-! ### PAIROFF (R439) -/

/-- A running unit has the pair of its place. -/
theorem UnitSt.occupies_of_running {u : UnitSt} (h : u.running = true) : ∃ k, u.occupies = some (u.pair, k) := by
  unfold UnitSt.running at h
  split at h
  case h_1 p k hp => exact ⟨k, by simp [UnitSt.pair, UnitSt.occupies, hp]⟩
  case h_2 => simp at h

theorem setPairoff_pairoff (s : State) {d : Nat} (x : BitVec 96) (hd : d < 4) : ((setPairoff s d x).die d).pairoff = x := by
  have hdies : (setPairoff s d x).dies = (s.modDie d (fun y => { y with pairoff := x })).dies := State.foldl_freeze_dies _ _
  have hdie : (setPairoff s d x).die d = (s.modDie d (fun y => { y with pairoff := x })).die d := by simp only [State.die, hdies]
  rw [hdie, State.die_modDie s _ hd]

theorem exec_pairoffWrite (s : State) {die : Nat} (reg : Nat) (v : Word) (hd : die < 4) :
    exec (.pairoffWrite die reg v) s = .next (writePairoff s die reg v) := by
  show execPairoffWrite die reg v s = _
  simp [execPairoffWrite, Config.dies, hd]

/-- PAIROFF0 holds bits 63:0, PAIROFF1 bits 95:64; a write of one keeps the other. -/
theorem writePairoff_pairoff (s : State) {die : Nat} (reg : Nat) (v : Word) (hd : die < 4) :
    ((writePairoff s die reg v).die die).pairoff =
      if reg = 0 then (s.die die).pairoff.extractLsb' 64 32 ++ v else v.extractLsb' 0 32 ++ (s.die die).pairoff.extractLsb' 0 64 := by
  rw [writePairoff, setPairoff_pairoff s _ hd]
  by_cases hreg : reg = 0 <;> simp [hreg]

/-- A unit that runs on a pair that PAIROFF names once it has been set runs on a pair that it named before. -/
theorem setPairoff_running {s : State} {d : Nat} {x : BitVec 96} {u : UnitSt} (hnd : (s.units.map UnitSt.key).Nodup)
    (hu : u ∈ (setPairoff s d x).units) (hr : u.running = true) (hdie : dieOf u.pair = d) (hoff : x.getLsbD (u.pair % 96) = true) :
    (s.die d).pairoff.getLsbD (u.pair % 96) = true := by
  obtain ⟨w, hw, hwu⟩ := List.mem_map.1 hu
  -- the last step of the write touches no unit that runs
  have hsame : w = u := by
    revert hwu
    dsimp only
    split
    · split
      · rintro rfl; simp [UnitSt.running] at hr
      · exact id
    · exact id
  subst hsame
  obtain ⟨hmem, hkey⟩ := State.running_of_foldl_freeze _ (s := s.modDie d (fun y => { y with pairoff := x })) hnd hw hr
  obtain ⟨k, hocc⟩ := UnitSt.occupies_of_running hr
  by_contra hold
  refine hkey (List.mem_map_of_mem (List.mem_filter.2 ⟨hmem, ?_⟩))
  have hlt : w.pair % 96 < 0 + 96 := by omega
  simp only [hocc, Config.pairsPerDie, hdie, BEq.rfl, Bool.true_and, List.contains_iff_mem, List.mem_filter, mem_range]
  exact ⟨⟨Nat.zero_le _, hlt⟩, by simpa [hoff] using hold⟩

/-! ### Writes of command registers (R38, R92, R403) -/

section CmdWrite

variable {r : CmdReg} {v : Nat} (bad kind job arg latched page : Nat) (errs : Bool) (hgo : v.testBit 63 = true)
include hgo

theorem CmdReg.write_go_idle (hrun : r.run = none) (hkind : kind < bad) :
    (r.write v bad kind job arg latched page errs).run = some { kind := kind, job := job, arg := latched, page := page } ∧
    (r.write v bad kind job arg latched page errs).err = false := by
  have : ¬ bad ≤ kind := by omega
  by_cases h61 : v.testBit 61 <;> simp [CmdReg.write, hgo, h61, hrun, this]

theorem CmdReg.write_go_busy {x : CmdRun} (hrun : r.run = some x) :
    (r.write v bad kind job arg latched page errs).run = some x ∧ (r.write v bad kind job arg latched page errs).ovr = true := by
  by_cases h61 : v.testBit 61 <;> simp [CmdReg.write, hgo, h61, hrun]

end CmdWrite

/-- A command other than a range of no pages goes on. -/
theorem CmdReg.endEmpty_run_of_pages {r : CmdReg} {x : CmdRun} (hrun : r.run = some x) (h : x.kind ≠ 2 ∨ x.arg ≠ 0) :
    r.endEmpty.run = some x := by
  rcases h with h | h <;> simp [CmdReg.endEmpty, hrun, h]

theorem CmdReg.endEmpty_run_of_empty {r : CmdReg} {x : CmdRun} (hrun : r.run = some x) (hk : x.kind = 2) (ha : x.arg = 0) :
    r.endEmpty.run = none := by
  simp [CmdReg.endEmpty, hrun, hk, ha]

/-! ### Writes of registers (R7) -/

/-- A write goes to the register at its offset. -/
theorem exec_registerWrite {s t : State} {addr d off : Nat} {v : Word} (hp : place52 addr = .mmio d off) (hd : d < 4)
    (hw : regWrite s d off v = some t) : exec (.registerWrite addr v) s = .next t := by
  show execRegisterWrite addr v s = _
  simp [execRegisterWrite, hp, Config.dies, hd, hw]

theorem regWrite_tivaddr (s : State) (d : Nat) (w : Word) :
    regWrite s d 0x100000 w = some (s.modDie d (fun x => { x with tivaddr := BitVec.ofNat 64 (bits w.toNat 56 12 * 4096) })) := rfl

theorem regWrite_tivcmd (s : State) (d : Nat) (w : Word) :
    regWrite s d 0x100008 w = some (s.modDie d (fun x => { x with tiv := (x.tiv.write w.toNat 3 (bits w.toNat 59 58) (bits w.toNat 57 46)
      (bits w.toNat 31 0) (bits w.toNat 31 0) (x.tivaddr.toNat / 4096) false).endEmpty })) := rfl

theorem regWrite_waypart (s : State) (d : Nat) (w : Word) :
    regWrite s d 0x300100 w = some (s.modDie d (fun x => { x with waypart := w })) := rfl

theorem regWrite_jobcmd (s : State) (d : Nat) (w : Word) :
    regWrite s d 0x400000 w = some (s.modDie d (fun x => { x with jobcmd :=
      (x.jobcmd.write w.toNat 4 (bits w.toNat 59 58) (bits w.toNat 57 46) 0 x.jcba 0 false) })) := rfl

theorem regWrite_jcba (s : State) (d : Nat) (w : Word) :
    regWrite s d 0x400008 w = some (s.modDie d (fun x => { x with jcba := bits w.toNat 51 12 })) := rfl

/-- LOCGIB, PEERID, FWSTAT and DUMPBASE are read only. -/
theorem regWrite_readOnly (s : State) (d : Nat) {off : Nat} (w : Word)
    (h : off = 0x100010 ∨ off = 0x600000 ∨ off = 0x700000 ∨ off = 0x700020) : regWrite s d off w = some s := by
  rcases h with rfl | rfl | rfl | rfl <;> simp [regWrite, regRead]

theorem bits_lt (x h l : Nat) : bits x h l < 2 ^ (h + 1 - l) := Nat.mod_lt _ (by positivity)

/-- Settles O44: KEYCMD by its two outcomes, PAIROFF by what a row of freezes leaves running, the registers by their offsets. -/
theorem keysAndRegisters : Obligations.KeysAndRegisters := by
  unfold Obligations.KeysAndRegisters
  refine ⟨fun s r hrun hact hepoch hlease => ?_, fun s r hrun hact => ⟨_, exec_keyCommandDone hrun hact, rfl, rfl⟩,
    fun s die reg v hd hnd => ?_, fun s addr d off v hp hd => ?_⟩
  · have hstands : leaseStands s = true := by simp [leaseStands, hepoch, hlease]
    refine ⟨fun hk hfree => ?_, fun hk hfree => ?_, fun hk hbad => ?_, fun hk hbad => ?_⟩
    · refine ⟨_, (exec_keyGenerate s).trans (keyCommand_free hrun hk hact hstands _ hfree), rfl, rfl, rfl, rfl, ?_, fun k hmem hne => ?_⟩
      · exact List.find?_cons_of_pos (by simp)
      · exact List.mem_cons_of_mem _ (List.mem_filter.2 ⟨hmem, by simpa using hne⟩)
    · exact ⟨_, (exec_keyClear s).trans (keyCommand_free hrun hk hact hstands _ hfree), rfl, rfl, rfl, rfl⟩
    · exact ⟨_, (exec_keyGenerate s).trans (keyCommand_refused hrun hk hact hstands _ hbad), rfl, rfl, rfl, rfl⟩
    · exact ⟨_, (exec_keyClear s).trans (keyCommand_refused hrun hk hact hstands _ hbad), rfl, rfl, rfl, rfl⟩
  · have hset := writePairoff_pairoff s reg v hd
    refine ⟨_, exec_pairoffWrite s reg v hd, hset, fun u hu hr hdie hoff => ?_⟩
    exact setPairoff_running hnd hu hr hdie (by rwa [writePairoff, setPairoff_pairoff s _ hd] at hoff)
  · have write {t : State} (hw : regWrite s d off v = some t) := exec_registerWrite hp hd hw
    refine ⟨?_, ?_, ?_, ?_, ?_, ?_, fun h => ⟨s, write (regWrite_readOnly s d v h), rfl⟩⟩
    · rintro rfl
      exact ⟨_, write (regWrite_tivaddr s d v), congrArg Die.tivaddr (State.die_modDie s _ hd)⟩
    · rintro rfl
      exact ⟨_, write (regWrite_waypart s d v), congrArg Die.waypart (State.die_modDie s _ hd)⟩
    · rintro rfl
      exact ⟨_, write (regWrite_jcba s d v), congrArg Die.jcba (State.die_modDie s _ hd)⟩
    · rintro rfl hgo hrun
      refine ⟨_, write (regWrite_jobcmd s d v), ?_⟩
      simp only [State.die_modDie s _ hd]
      exact CmdReg.write_go_idle _ _ _ _ _ _ _ hgo hrun (bits_lt v.toNat 59 58)
    · rintro r rfl hgo hrun hpages
      refine ⟨_, write (regWrite_tivcmd s d v), ?_⟩
      simp only [State.die_modDie s _ hd]
      obtain ⟨hkeep, hovr⟩ := CmdReg.write_go_busy 3 _ _ _ _ _ false hgo hrun
      exact ⟨CmdReg.endEmpty_run_of_pages hkeep hpages, hovr⟩
    · rintro rfl hgo hrun hkind harg
      refine ⟨_, write (regWrite_tivcmd s d v), ?_⟩
      simp only [State.die_modDie s _ hd]
      obtain ⟨hstart, -⟩ := CmdReg.write_go_idle 3 _ _ _ _ _ false hgo hrun (hkind.trans_lt (by decide))
      exact CmdReg.endEmpty_run_of_empty hstart hkind harg

/-! ### Requests of a host (R422, R424) -/

/-- Runs in the device's own memory: none lies elsewhere, and none goes to a link. -/
theorem runs_own {runs : List (Nat × Nat)} (h : ∀ r ∈ runs, runAt r.1 = .own) :
    (runs.any (fun r => runAt r.1 == .other)) = false ∧ (runs.all (fun r => runAt r.1 == .own)) = true ∧
    runs.partition (fun r => runAt r.1 == .own) = (runs, []) := by
  refine ⟨List.any_eq_false.2 fun r hr => by simp [h r hr], List.all_eq_true.2 fun r hr => by simp [h r hr], ?_⟩
  rw [List.partition_eq_filter_filter, Prod.mk.injEq]
  exact ⟨List.filter_eq_self.2 fun r hr => by simp [h r hr], List.filter_eq_nil_iff.2 fun r hr => by simp [h r hr]⟩

theorem readRuns_single {key pa n : Nat} {s t : State} {bs : List TByte} (h : cohReadN (some 3) (pieces n) s pa n = some (t, bs)) :
    readRuns key [(pa, n)] s = some (t, rangePoisoned t pa n, homeSeenN key (pieces n) t pa n) := by
  simp [readRuns, h]

theorem writeRuns_single {key pa : Nat} {data : List Byte} {s t : State} {ok : Bool}
    (h : cohWriteN (pieces data.length) s pa (sealList key pa data) = some (t, ok)) :
    writeRuns key data [(pa, data.length)] s = some (t, ok) := by
  simp [writeRuns, h]

/-- The device's own memory is HBM and the attics. -/
theorem place_of_runAt_own {pa : Nat} (h : runAt pa = .own) : place52 pa = .hbm ∨ ∃ d v o, place52 pa = .attic d v o := by
  unfold runAt at h
  split at h <;> simp_all

section HostRead

variable {s t t1 : State} {a : BarAddr} {size tag key : Nat} {runs : List (Nat × Nat)}

theorem exec_hostRead_reg {d off v : Nat} (hat : hostAt s a size { kind := .load } = .reg d off) (hv : regRead s d off = some v) :
    exec (.hostRead a size tag) s = .next (reply s a tag .ok (leBytes 8 v)) := by
  show execHostRead a size tag s = _
  simp [execHostRead, hat, hv]

theorem exec_hostRead_bad (hat : hostAt s a size { kind := .load } = .bad) :
    exec (.hostRead a size tag) s = .next (reply s a tag .ur []) := by
  show execHostRead a size tag s = _
  simp [execHostRead, hat]

theorem exec_hostRead_mem {bad : Bool} {bs : List Byte} (hat : hostAt s a size { kind := .load } = .mem t runs key) (hne : runs ≠ [])
    (hown : ∀ r ∈ runs, runAt r.1 = .own) (hread : readRuns key runs t = some (t1, bad, bs)) :
    exec (.hostRead a size tag) s = .next (reply t1 a tag (if bad then .poisoned else .ok) (if bad then [] else bs)) := by
  show execHostRead a size tag s = _
  obtain ⟨hother, -, hpart⟩ := runs_own hown
  cases bad <;> simp [execHostRead, hat, hother, hpart, sendRuns, hne, hread, -List.partition_eq_filter_filter]

end HostRead

section HostWrite

variable {s t t1 : State} {a : BarAddr} {data : List Byte}

theorem exec_hostWrite_behind (hout : postedOut s a.port = true) : exec (.hostWrite a data) s = .next s := by
  show execHostWrite a data s = _
  simp [execHostWrite, hout]

variable (hdata : data ≠ []) (hout : postedOut s a.port = false)
include hdata hout

theorem exec_hostWrite_reg {d off : Nat} (hat : hostAt s a data.length { kind := .store } = .reg d off)
    (hw : regWrite s d off (BitVec.ofNat 64 (leNat data)) = some t) : exec (.hostWrite a data) s = .next t := by
  show execHostWrite a data s = _
  simp [execHostWrite, hdata, hout, hat, hw]

theorem exec_hostWrite_bad (hat : hostAt s a data.length { kind := .store } = .bad) :
    exec (.hostWrite a data) s = .next (dropWrite s a) := by
  show execHostWrite a data s = _
  simp [execHostWrite, hdata, hout, hat]

theorem exec_hostWrite_mem {runs : List (Nat × Nat)} {key : Nat} {ok : Bool}
    (hat : hostAt s a data.length { kind := .store } = .mem t runs key) (hown : ∀ r ∈ runs, runAt r.1 = .own)
    (hwrite : writeRuns key data runs t = some (t1, ok)) : exec (.hostWrite a data) s = .next (if ok then t1 else dropWrite s a) := by
  show execHostWrite a data s = _
  obtain ⟨hother, hall, -⟩ := runs_own hown
  cases ok <;> simp [execHostWrite, hdata, hout, hat, hother, hall, hwrite]

end HostWrite

/-- The new value of an AtomicOp, kind by kind, from the old value (R297, R418). -/
theorem amoNew_hostOp (kind : AtomicKind) (size operand compare m : Nat) :
    amoNew (hostOp kind size operand compare) m = match kind with
      | .fetchAdd => (m + operand) % 2 ^ (8 * size)
      | .swap => operand % 2 ^ (8 * size)
      | .cas => if m = compare % 2 ^ (8 * size) then operand % 2 ^ (8 * size) else m := by
  cases kind with
  | fetchAdd => simp [amoNew, hostOp]
  | swap => simp [amoNew, hostOp]
  | cas => by_cases h16 : size = 16 <;> simp [amoNew, hostOp, h16]

section HostAtomic

variable {s t t1 t2 : State} {a : BarAddr} {kind : AtomicKind} {size operand compare tag : Nat}
  (hsize : size = 4 ∨ size = 8 ∨ (kind = .cas ∧ size = 16)) (hbar : a.bar ≠ 0)
include hsize hbar

/-- An AtomicOp of a size that R418 names, not on BAR0, is served. -/
theorem hostAtomicop_admitted : (!hostOpOk kind size || a.bar == 0) = false := by
  rcases hsize with h | h | ⟨hk, h⟩ <;> simp [hostOpOk, *]

theorem exec_hostAtomicop_misaligned (hmis : a.off % size ≠ 0) :
    exec (.hostAtomicop a kind size operand compare tag) s = .next (reply s a tag .ca []) := by
  show execHostAtomicop a kind size operand compare tag s = _
  simp [execHostAtomicop, hostAtomicop_admitted hsize hbar, hmis]

theorem exec_hostAtomicop_bad (hal : a.off % size = 0)
    (hat : hostAt s a size { kind := .atomic, size := size, aop := some (hostOp kind size operand compare).op } = .bad) :
    exec (.hostAtomicop a kind size operand compare tag) s = .next (reply s a tag .ur []) := by
  show execHostAtomicop a kind size operand compare tag s = _
  simp [execHostAtomicop, hostAtomicop_admitted hsize hbar, hal, hat]

theorem exec_hostAtomicop_mem {pa n key : Nat} {runs : List (Nat × Nat)} {old : List TByte} {ok : Bool} (hal : a.off % size = 0)
    (hat : hostAt s a size { kind := .atomic, size := size, aop := some (hostOp kind size operand compare).op } = .mem t ((pa, n) :: runs) key)
    (hown : runAt pa = .own) (hread : cohRead t (some 3) pa size = some (t1, old)) (hpoison : homePoisoned t1 pa size = false)
    (hwrite : cohWrite t1 pa (sealList key pa (leBytes size
      (amoNew (hostOp kind size operand compare) (leNat (homeSeen t1 key pa size))))) = some (t2, ok)) :
    exec (.hostAtomicop a kind size operand compare tag) s = .next (reply t2 a tag .ok (homeSeen t1 key pa size)) := by
  show execHostAtomicop a kind size operand compare tag s = _
  rcases place_of_runAt_own hown with h | ⟨d, v, o, h⟩ <;>
    simp [execHostAtomicop, hostAtomicop_admitted hsize hbar, hal, hat, h, hread, hpoison, hwrite]

end HostAtomic

/-- Settles O46: each clause is one case of HOST_READ, HOST_WRITE or HOST_ATOMICOP. -/
theorem hostRequestsAreServed : Obligations.HostRequestsAreServed := by
  unfold Obligations.HostRequestsAreServed
  intro s a
  refine ⟨fun size tag => ⟨?_, exec_hostRead_bad, ?_, ?_⟩, fun data hdata => ⟨exec_hostWrite_behind, fun hout => ⟨?_, ?_, ?_, ?_⟩⟩,
    fun kind size operand compare tag hsize hbar => ⟨exec_hostAtomicop_misaligned hsize hbar, exec_hostAtomicop_bad hsize hbar, ?_⟩⟩
  · intro d off v hat hv
    exact exec_hostRead_reg hat hv
  · intro t t1 pa key bs hat hown hcoh
    have hread := exec_hostRead_mem (tag := tag) hat (by simp) (by simpa using hown) (readRuns_single hcoh)
    constructor <;> intro hpoison <;> (rw [hpoison] at hread; exact hread)
  · intro t t1 runs key bad bs hat hne hown hread
    exact exec_hostRead_mem hat hne hown hread
  · intro d off t hat hw
    exact exec_hostWrite_reg hdata hout hat hw
  · exact exec_hostWrite_bad hdata hout
  · intro t t1 pa key ok hat hown hcoh
    exact exec_hostWrite_mem hdata hout hat (by simpa using hown) (writeRuns_single hcoh)
  · intro t t1 runs key ok hat hown hwrite
    exact exec_hostWrite_mem hdata hout hat hown hwrite
  · intro t t1 t2 pa n runs key old ok hal hat hown hread hpoison m new _ _ hwrite
    exact exec_hostAtomicop_mem hsize hbar hal hat hown hread hpoison (by rw [amoNew_hostOp]; exact hwrite)

end Sys2Proof.Machine
end

section
/-!
Proofs for the statements on the storage hierarchy.
-/

namespace Sys2Proof.Machine

/-! ### Lists and folds -/

/-- A fold of steps that each keep a property keeps it. -/
theorem foldl_keeps {α β : Type} {f : β → α → β} (P : β → Prop) (h : ∀ b a, P b → P (f b a)) (l : List α) {b : β} (hb : P b) : P (l.foldl f b) := by
  induction l generalizing b with
  | nil => exact hb
  | cons a l ih => exact ih (h b a hb)

/-! ### Pairs of a state -/

theorem State.pairOf_id (s : State) (p : Nat) : (s.pairOf p).id = p := by
  unfold State.pairOf
  split
  · rename_i x hx; simpa using List.find?_some hx
  · rfl

theorem find?_putPairL (x : PairSt) (p : Nat) (l : List PairSt) :
    (putPairL x l).find? (fun y => y.id == p) = if x.id = p then some x else l.find? (fun y => y.id == p) := by
  induction l with
  | nil => by_cases h : x.id = p <;> simp [putPairL, h]
  | cons y ys ih =>
    unfold putPairL
    split
    case isTrue hid => by_cases h : x.id = p <;> simp [h, hid]
    case isFalse hid =>
      split
      · by_cases h : x.id = p <;> simp [h]
      · by_cases hy : y.id = p
        · have hx : x.id ≠ p := fun e => hid (hy.trans e.symm)
          simp [hy, hx]
        · simp [hy, ih]

/-- Another pair's own state stays, and the pair put in place is found. -/
theorem State.pairOf_setPair (s : State) (x : PairSt) (p : Nat) : (s.setPair x).pairOf p = if x.id = p then x else s.pairOf p := by
  unfold State.pairOf State.setPair
  rw [find?_putPairL]
  by_cases h : x.id = p <;> simp [h]

theorem State.pairOf_modPair_same (s : State) (p : Nat) (f : PairSt → PairSt) (hf : ∀ x, (f x).id = x.id) :
    (s.modPair p f).pairOf p = f (s.pairOf p) := by
  rw [State.modPair, State.pairOf_setPair, if_pos ((hf _).trans (s.pairOf_id p))]

/-- The pair that was put last is the one found. -/
theorem State.l1_of_put {t : State} {p : Nat} {l : L1Line} {x : PairSt} {ps : List PairSt} (hl : l ∈ (t.pairOf p).l1) (h : t.pairs = putPairL x ps)
    (hid : x.id = p) : l ∈ x.l1 := by
  have ht : t.pairOf p = x := by
    unfold State.pairOf
    rw [h, find?_putPairL, if_pos hid]
  rwa [ht] at hl

/-! ### What cache effects leave of the units (R111, R115, R127, R301) -/

/-- A unit without what a cache effect may change of it: whether it is parked, what its slice has read ahead, and its floors. -/
def UnitSt.settled (u : UnitSt) : UnitSt :=
  u.modCtl (fun c => { c with wait := .none, ahead := [], hostFloor := 0, peerFloor := 0 })

/-- The units of a state without what cache effects may change of them. -/
def State.settled (s : State) : List UnitSt := s.units.map UnitSt.settled

@[simp] theorem UnitSt.settled_key (u : UnitSt) : u.settled.key = u.key := rfl

/-! Units that agree but for cache effects agree in their registers, their PC, their data slice and their counters. -/

theorem UnitSt.settled_c {u v : UnitSt} (h : v.settled = u.settled) : v.ctx.ctl.c = u.ctx.ctl.c := (congrArg (fun x : UnitSt => x.ctx.ctl.c) h :)
theorem UnitSt.settled_pc {u v : UnitSt} (h : v.settled = u.settled) : v.ctx.ctl.pc = u.ctx.ctl.pc := (congrArg (fun x : UnitSt => x.ctx.ctl.pc) h :)
theorem UnitSt.settled_dat {u v : UnitSt} (h : v.settled = u.settled) : v.ctx.dat = u.ctx.dat := (congrArg (fun x : UnitSt => x.ctx.dat) h :)
theorem UnitSt.settled_counters {u v : UnitSt} (h : v.settled = u.settled) : v.ctx.counters = u.ctx.counters := (congrArg (fun x : UnitSt => x.ctx.counters) h :)
theorem UnitSt.key_of_settled {u v : UnitSt} (h : v.settled = u.settled) : v.key = u.key := (congrArg UnitSt.key h :)

theorem State.findUnit_settled (s : State) (k : UKey) : s.settled.find? (fun u => u.key == k) = (s.findUnit k).map UnitSt.settled := by
  simp [State.settled, State.findUnit, List.find?_map, Function.comp_def]

/-- A unit is found again after a cache effect. -/
theorem State.findUnit_of_settled {s t : State} {k : UKey} {u : UnitSt} (h : t.settled = s.settled) (hf : s.findUnit k = some u) :
    ∃ v, t.findUnit k = some v ∧ v.settled = u.settled := by
  have h1 := t.findUnit_settled k
  rw [h, s.findUnit_settled k, hf] at h1
  simpa using h1.symm

theorem State.settled_congr {s t : State} (h : t.units = s.units) : t.settled = s.settled := by simp only [State.settled, h]

@[simp] theorem State.modDie_settled (s : State) (d : Nat) (f : Die → Die) : (s.modDie d f).settled = s.settled := rfl
@[simp] theorem State.modPair_settled (s : State) (p : Nat) (f : PairSt → PairSt) : (s.modPair p f).settled = s.settled := rfl
@[simp] theorem State.bump_settled (s : State) : s.bump.settled = s.settled := rfl
@[simp] theorem State.rasLog_settled (s : State) (pa k : Nat) : (s.rasLog pa k).settled = s.settled := rfl

/-- An update of units by what keeps them but for cache effects. -/
theorem State.modUnit_settled (s : State) (k : UKey) {f : UnitSt → UnitSt} (hf : ∀ u, (f u).settled = u.settled) :
    (s.modUnit k f).settled = s.settled := by
  simp only [State.settled, State.modUnit, List.map_map]
  refine List.map_congr_left fun u _ => ?_
  by_cases h : u.key = k <;> simp [h, hf]

@[simp] theorem noteWrite_settled (s : State) (pa n : Nat) : (noteWrite s pa n).settled = s.settled := by
  simp only [State.settled, noteWrite, List.map_map]
  refine List.map_congr_left fun u _ => ?_
  simp only [Function.comp]
  split
  · split <;> rfl
  · rfl

/-- All that can change where words reach the home memory: memory with its marks, the dies, images on their way, and of units and tasks
whether they are woken. -/
def HomeEffect (s t : State) : Prop :=
  t.settled = s.settled ∧
  t = { s with mem := t.mem, keys := t.keys, poison := t.poison, ras := t.ras, rasq := t.rasq, dies := t.dies, fresh := t.fresh, units := t.units
               jobs := t.jobs, updates := t.updates }

/-- All that a cache effect can change of a state: also the pairs, messages and reads on links, and of units what was read ahead and the
floors. -/
def CacheEffect (s t : State) : Prop :=
  t.settled = s.settled ∧
  t = { s with mem := t.mem, keys := t.keys, poison := t.poison, ras := t.ras, rasq := t.rasq, dies := t.dies, fresh := t.fresh, units := t.units
               jobs := t.jobs, updates := t.updates, pairs := t.pairs, outstanding := t.outstanding, toHome := t.toHome, toDie := t.toDie }

theorem HomeEffect.refl (s : State) : HomeEffect s s := ⟨rfl, rfl⟩
theorem CacheEffect.refl (s : State) : CacheEffect s s := ⟨rfl, rfl⟩

theorem HomeEffect.trans {s t x : State} (h1 : HomeEffect s t) (h2 : HomeEffect t x) : HomeEffect s x := by
  refine ⟨h2.1.trans h1.1, ?_⟩
  rw [h2.2, h1.2]

theorem CacheEffect.trans {s t x : State} (h1 : CacheEffect s t) (h2 : CacheEffect t x) : CacheEffect s x := by
  refine ⟨h2.1.trans h1.1, ?_⟩
  rw [h2.2, h1.2]

theorem HomeEffect.foldl {α : Type} {f : State → α → State} (h : ∀ s a, HomeEffect s (f s a)) (l : List α) (s : State) : HomeEffect s (l.foldl f s) :=
  foldl_keeps (HomeEffect s) (fun b a hb => hb.trans (h b a)) l (.refl s)

theorem HomeEffect.cache {s t : State} (h : HomeEffect s t) : CacheEffect s t := by
  refine ⟨h.1, ?_⟩
  rw [h.2]

theorem HomeEffect.pairOf {s t : State} (h : HomeEffect s t) (p : Nat) : t.pairOf p = s.pairOf p := by rw [h.2]; rfl

section Kept

variable {s t : State} (h : CacheEffect s t)
include h

theorem CacheEffect.cycle : t.cycle = s.cycle := by rw [h.2]
theorem CacheEffect.cmds : t.cmds = s.cmds := by rw [h.2]
theorem CacheEffect.subs : t.subs = s.subs := by rw [h.2]

/-- A unit is found again after a cache effect. -/
theorem CacheEffect.findUnit {k : UKey} {u : UnitSt} (hf : s.findUnit k = some u) : ∃ v, t.findUnit k = some v ∧ v.settled = u.settled :=
  State.findUnit_of_settled h.1 hf

theorem CacheEffect.reread {u : UnitSt} (hf : s.findUnit u.key = some u) :
    t.findUnit u.key = some (reread t u) ∧ (Machine.reread t u).settled = u.settled := by
  obtain ⟨v, hv, hs⟩ := h.findUnit hf
  simp [Machine.reread, hv, hs]

end Kept

/-! ### The cache effects of the model -/

theorem State.carryPoison_effect (s : State) (pa : Nat) (bs : List TByte) : HomeEffect s (s.carryPoison pa bs) := by
  unfold State.carryPoison
  split <;> exact ⟨rfl, rfl⟩

theorem State.storeBytes_effect (s : State) (pa : Nat) (bs : List TByte) : HomeEffect s (s.storeBytes pa bs) := by
  unfold State.storeBytes
  dsimp only
  split <;> exact ⟨rfl, rfl⟩

theorem writeHalf_effect (s : State) (pa : Nat) (data : List TByte) (mask : Nat) : HomeEffect s (writeHalf s pa data mask) := by
  unfold writeHalf
  split
  · exact HomeEffect.trans ⟨rfl, rfl⟩ (State.carryPoison_effect _ _ _)
  · split
    · exact .refl s
    · split
      · exact ⟨rfl, rfl⟩
      · refine HomeEffect.foldl (fun t w => ?_) _ s
        dsimp only
        split
        · exact (State.storeBytes_effect _ _ _).trans (State.carryPoison_effect _ _ _)
        · exact .refl t

theorem writeMaskedRaw_effect (s : State) (line : Nat) (data : List TByte) (mask : BitVec 32) : HomeEffect s (writeMaskedRaw s line data mask) :=
  (writeHalf_effect _ _ _ _).trans (writeHalf_effect _ _ _ _)

theorem noteWrite_effect (s : State) (pa n : Nat) : HomeEffect s (noteWrite s pa n) := ⟨noteWrite_settled s pa n, rfl⟩

theorem numberWrite_effect (s : State) (pa : Nat) (bs : List Byte) : HomeEffect s (numberWrite s pa bs) := by
  unfold numberWrite
  split
  · refine HomeEffect.foldl (fun t r => ?_) _ s
    dsimp only
    split <;> exact ⟨rfl, rfl⟩
  · exact .refl s

theorem numberWords_effect (s : State) (line : Nat) (data : List TByte) (mask : BitVec 32) : HomeEffect s (numberWords s line data mask) := by
  unfold numberWords
  split
  · refine HomeEffect.foldl (fun t w => ?_) _ s
    split
    · exact numberWrite_effect _ _ _
    · exact .refl t
  · exact .refl s

theorem homeMerge_effect (s : State) (line : Nat) (data : List TByte) (mask : BitVec 32) : HomeEffect s (homeMerge s line data mask) := by
  unfold homeMerge
  split
  · exact .refl s
  · split
    · refine HomeEffect.trans (t := if _ then s else _) ?_ (HomeEffect.trans ⟨rfl, rfl⟩ (noteWrite_effect _ _ _))
      split <;> exact ⟨rfl, rfl⟩
    · exact ((writeMaskedRaw_effect _ _ _ _).trans (noteWrite_effect _ _ _)).trans (numberWords_effect _ _ _ _)

/-- The merging lines of a pair that a job uses. -/
def L1Line.mergesFor (job : Nat) (l : L1Line) : Bool := l.st == .mg && l.jobs.contains job

theorem mergeBack_eq (s : State) (pair job : Nat) (inv : Bool) : ∃ t, HomeEffect s t ∧
    mergeBack s pair job inv = t.modPair pair (fun p => { p with l1 :=
      (if inv then p.l1.filter (fun l => !l.mergesFor job) else mapIf (L1Line.mergesFor job) (fun l => { l with dirty := 0 }) p.l1) }) :=
  ⟨_, HomeEffect.foldl (fun t (l : L1Line) => homeMerge_effect t l.line l.data l.dirty) _ s, rfl⟩

theorem mergeBack_effect (s : State) (pair job : Nat) (inv : Bool) : CacheEffect s (mergeBack s pair job inv) := by
  obtain ⟨t, ht, he⟩ := mergeBack_eq s pair job inv
  rw [he]
  exact ht.cache.trans ⟨rfl, rfl⟩

/-- An acquire leaves the pair's lines but for the job's merging lines (R111). -/
theorem mergeBack_l1 (s : State) (pair job : Nat) : ((mergeBack s pair job true).pairOf pair).l1 = (s.pairOf pair).l1.filter (fun l => !l.mergesFor job) := by
  obtain ⟨t, ht, he⟩ := mergeBack_eq s pair job true
  rw [he, State.pairOf_modPair_same _ _ _ (fun _ => by rfl), ht.pairOf]
  rfl

theorem releaseFx_effect (s : State) (k : UKey) (pair scope : Nat) : CacheEffect s (releaseFx s k pair scope) := by
  unfold releaseFx
  split
  · exact .refl s
  · exact mergeBack_effect _ _ _ _

theorem acquireSet_effect (s : State) (k : UKey) (pair : Nat) (mg : Bool) (covers : Bool × Bool × Bool) :
    CacheEffect s (acquireSet s k pair mg covers) := by
  unfold acquireSet
  have h1 : CacheEffect s (if mg then mergeBack s pair k.job true else s) := by
    split
    · exact mergeBack_effect _ _ _ _
    · exact .refl s
  refine h1.trans ?_
  generalize (if mg then mergeBack s pair k.job true else s) = s1
  have h2 : CacheEffect s1 (s1.modUnit k (fun u => u.modCtl (fun c => { c with ahead := [] }))) := ⟨State.modUnit_settled _ _ (fun _ => rfl), rfl⟩
  refine h2.trans ?_
  dsimp only
  split
  · exact .refl _
  · exact ⟨State.modUnit_settled _ _ (fun _ => rfl), rfl⟩

theorem acquireFx_effect (s : State) (k : UKey) (pair scope : Nat) (addrPeer : Bool) : CacheEffect s (acquireFx s k pair scope addrPeer) :=
  acquireSet_effect _ _ _ _ _

/-- Beyond the write-back of merging lines an acquire only takes lines of the pair away (R115). -/
theorem acquireSet_l1 (s : State) (k : UKey) (pair : Nat) (mg : Bool) (covers : Bool × Bool × Bool) :
    ∀ l ∈ ((acquireSet s k pair mg covers).pairOf pair).l1, l ∈ ((if mg then mergeBack s pair k.job true else s).pairOf pair).l1 := by
  intro l hl
  unfold acquireSet at hl
  generalize (if mg then mergeBack s pair k.job true else s) = s1 at hl ⊢
  dsimp only at hl
  split at hl
  · exact hl
  · exact (List.mem_filter.1 (State.l1_of_put hl rfl (s1.pairOf_id pair))).1

/-- After an acquire beyond the slice's own scope the pair's L1 holds no merging line of the job (R111). -/
theorem acquireFx_noMerging (s : State) (k : UKey) (pair : Nat) {scope : Nat} (addrPeer : Bool) (hs : scope ≠ 0) :
    ∀ l ∈ ((acquireFx s k pair scope addrPeer).pairOf pair).l1, l.mergesFor k.job = false := by
  intro l hl
  have h := acquireSet_l1 s k pair (scope != 0) _ l hl
  rw [if_pos (by simpa using hs), mergeBack_l1] at h
  simpa using (List.mem_filter.1 h).2

/-! ### An instruction that completes after a cache effect -/

/-- An instruction whose cache effects end in t completes: its unit is the old one past the instruction, but for those effects. -/
theorem State.retireC_of_settled {s t : State} {u : UnitSt} (h : t.settled = s.settled) (hf : s.findUnit u.key = some u) (n : Nat) :
    ∃ v, (t.retireC (reread t u) n).findUnit u.key = some v ∧ v.settled = ((u.modCtl (Ctl.advance n)).stamped t.cycle).settled ∧ v.ctx.ctl.wait = .none := by
  obtain ⟨w, hfind, hset⟩ := State.findUnit_of_settled h hf
  have hread : reread t u = w := by simp [reread, hfind]
  rw [hread]
  exact ⟨_, (State.retireC_retired t u w _ n (UnitSt.key_of_settled hset) hfind).1,
    (congrArg (fun x : UnitSt => ((x.modCtl (Ctl.advance n)).stamped t.cycle).settled) hset :), rfl⟩

theorem CacheEffect.retireC {s t : State} {u : UnitSt} (h : CacheEffect s t) (hf : s.findUnit u.key = some u) (n : Nat) :
    ∃ v, (t.retireC (Machine.reread t u) n).findUnit u.key = some v ∧ v.settled = ((u.modCtl (Ctl.advance n)).stamped s.cycle).settled ∧ v.ctx.ctl.wait = .none :=
  h.cycle ▸ State.retireC_of_settled h.1 hf n

end Sys2Proof.Machine
end

section
/-!
Counters and queries: the instructions on a unit's counters and queues (R62, R384, R387).
-/

namespace Sys2Proof.Machine

/-! ### Counters (R62, R384) -/

/-- The refusals of a descriptor: none without a cause. -/
theorem engDesc_nil (s : State) (u : UnitSt) : engDesc s u [] = none := rfl

theorem engDesc_single (s : State) (u : UnitSt) (c : Nat) : engDesc s u [c] = some (s.trapC u 0x18 0 c) := rfl

theorem counterCause_declared {u : UnitSt} {k : Nat} (h : k < u.launch.counters) : counterCause u (some k) = [] := by
  simp [counterCause, causeIf, h]

theorem counterCause_undeclared {u : UnitSt} {k : Nat} (h : u.launch.counters ≤ k) : counterCause u (some k) = [1] := by
  simp [counterCause, causeIf, h]

theorem modIdx_getD {α : Type} (f : α → α) (d : α) (l : List α) (k i : Nat) (hk : k < l.length) :
    (modIdx f l k).getD i d = if i = k then f (l.getD k d) else l.getD i d := by
  induction l generalizing k i with
  | nil => simp at hk
  | cons a l ih =>
    cases k with
    | zero => cases i <;> simp [modIdx]
    | succ k =>
      cases i with
      | zero => simp [modIdx]
      | succ i => simpa [modIdx] using ih k i (by simpa using hk)

/-- A counter after an update of one. -/
theorem UnitSt.counter_setCounter (u : UnitSt) (f : Counter → Counter) {k : Nat} (i : Nat) (hk : k < u.ctx.counters.length) :
    (u.setCounter k f).counter i = if i = k then f (u.counter k) else u.counter i := modIdx_getD f {} _ k i hk

/-- The oldest halted command that names a counter, found in one pass. -/
theorem firstHalted_filter (p : Cmd → Bool) (l : List Cmd) {c : Cmd} {h : HaltRec} (hf : l.find? (fun c => p c && c.halt?.isSome) = some c)
    (hc : c.status = .halted h) : firstHalted (l.filter p) = some (c, h) := by
  have hh : c.halt? = some h := by simp [Cmd.halt?, hc]
  induction l with
  | nil => simp at hf
  | cons x l ih =>
    rw [List.find?_cons] at hf
    rw [List.filter_cons]
    cases hp : p x with
    | false =>
      simp only [hp, Bool.false_and] at hf
      simpa using ih hf
    | true =>
      cases hx : x.halt? with
      | some y =>
        simp only [hp, hx, Option.isSome_some, Bool.and_true, Option.some.injEq] at hf
        subst hf
        simp [firstHalted, hh]
      | none =>
        simp only [hp, hx, Option.isSome_none, Bool.and_false] at hf
        simp [firstHalted, hx, ih hf]

/-- A running unit that takes a trap is found again frozen in its slot with the trap's record. -/
theorem State.takeTrap_findUnit {s : State} {u w : UnitSt} (t : Trap) {p k : Nat} (hf : s.findUnit u.key = some w) (hp : u.place = .placed p k) :
    (s.takeTrap u t).findUnit u.key = some { u with place := .trapped p k, trap := some { u.fillTrap t with time := s.cycle } } := by
  rw [State.findUnit, State.takeTrap_units s u t p k hp]
  exact findUnit_putUnitL_same { u with place := .trapped p k, trap := some { u.fillTrap t with time := s.cycle } } w s.units hf

theorem UnitSt.place_of_running {u : UnitSt} (h : u.running = true) : u.place = .placed u.pair u.slot := by
  unfold UnitSt.running at h
  split at h
  · rename_i p k hp; simp [UnitSt.pair, UnitSt.slot, UnitSt.occupies, hp]
  · simp at h

/-- The fault of a halted command surfaces at an instruction of the control slice (R368, R401). -/
def Surfaces (i : Instr) (s : State) (u : UnitSt) (c : Cmd) (h : HaltRec) : Prop :=
  ∃ t v r, exec i s = .next t ∧ t.findUnit u.key = some v ∧ v.place = .trapped u.pair u.slot ∧ v.ctx = u.ctx ∧ v.trap = some r ∧
    r.code = h.code ∧ r.src = c.queue + 2 ∧ r.pc = u.ctx.ctl.pc ∧ r.addr = h.addr ∧ r.info = h.info ∧ r.hcode = h.hcode ∧ r.offset = h.offset

theorem surfaces_of_haltTrap {i : Instr} {s : State} {u : UnitSt} {c : Cmd} {h : HaltRec} (hf : s.findUnit u.key = some u) (hrun : u.running = true)
    (hi : exec i s = .next (s.takeTrap u (haltTrap u c h))) : Surfaces i s u c h :=
  ⟨_, _, _, hi, State.takeTrap_findUnit _ hf (UnitSt.place_of_running hrun), rfl, rfl, rfl, rfl, rfl, rfl, rfl, rfl, rfl, rfl⟩

/-! What ends a WAITC: a faulted counter, a drained one, or nothing yet (R368, R384). -/

theorem waitcEnd_faulted {s : State} {u : UnitSt} {k : Nat} {c : Cmd} {h : HaltRec} (scope : Nat) (hw : FaultsWith s u k c h) :
    waitcEnd s u k scope = some (s.takeTrap u (haltTrap u c h)) := by
  obtain ⟨hf, hfind, hc⟩ := hw
  have hh : counterHalt s u.key k = some (c, h) := by
    simp only [counterHalt, firstHalted_filter _ _ hfind hc]
  simp [waitcEnd, hf, hh]

theorem waitcEnd_drained {s : State} {u : UnitSt} {k : Nat} (scope : Nat) (hf : (u.counter k).f = false) (hd : counterDrained s u k = true)
    (hu : s.findUnit u.key = some u) : ∃ t v, waitcEnd s u k scope = some t ∧ t.findUnit u.key = some v ∧ v.ctx.ctl.c = u.ctx.ctl.c ∧
      v.ctx.ctl.pc = u.ctx.ctl.pc + 2 ∧ v.ctx.ctl.wait = .none ∧ v.ctx.counters = u.ctx.counters := by
  obtain ⟨v, hfind, hset, hwait⟩ := (acquireFx_effect s u.key u.pair (engScope scope) false).retireC hu 2
  exact ⟨_, v, by simp [waitcEnd, hf, hd], hfind, (UnitSt.settled_c hset :), (UnitSt.settled_pc hset :), hwait, (UnitSt.settled_counters hset :)⟩

theorem waitcEnd_none {s : State} {u : UnitSt} {k : Nat} (scope : Nat) (hf : (u.counter k).f = false) (hd : counterDrained s u k = false) :
    waitcEnd s u k scope = none := by
  simp [waitcEnd, hf, hd]

/-! The instructions on a declared counter. -/

section Declared

variable {f : CX} {s : State} {u : UnitSt} (h : CtlAt s u) (hk : f.imm.toNat % 256 < u.launch.counters)
include h hk

theorem exec_cntset (hb : counterBusy s u (f.imm.toNat % 256) = false) :
    exec (.cntset f) s = .next (s.retireC (u.setCounter (f.imm.toNat % 256) (fun c => { c with v := (u.c f.ra).extractLsb' 0 32 })) 2) := by
  show execCntset f s = _
  simp [execCntset, onCtl_at h, cntIdx, counterCause_declared hk, causeIf, hb, engDesc_nil]

theorem exec_cntadd :
    exec (.cntadd f) s = .next (s.retireC (u.setCounter (f.imm.toNat % 256) (fun c => { c with v := c.v + (u.c f.ra).extractLsb' 0 32 })) 2) := by
  show execCntadd f s = _
  simp [execCntadd, onCtl_at h, cntIdx, counterCause_declared hk, engDesc_nil]

theorem exec_waitc : exec (.waitc f) s = .next ((waitcEnd s u (f.imm.toNat % 256) f.scope.toNat).getD (s.waitC u (.waitc (f.imm.toNat % 256) f.scope.toNat))) := by
  show execWaitc f s = _
  simp [execWaitc, onCtl_at h, cntIdx, counterCause_declared hk, engDesc_nil]

end Declared

theorem exec_waitcComplete {s : State} {u : UnitSt} {p n k scope : Nat} (hr : s.resident p n = some u) (hw : u.ctx.ctl.wait = .waitc k scope) :
    exec (.waitcComplete p n) s = .next ((waitcEnd s u k scope).getD s) := by
  show execWaitcComplete p n s = _
  simp [execWaitcComplete, hr, hw]

/-- ENGQ of a form other than the counter's, or of a declared counter, reads its value (R387). -/
theorem exec_engq {f : CX} {s : State} {u : UnitSt} {form : Nat} (h : CtlAt s u) (hform : f.sub.toNat % 4 = form)
    (hk : form = 0 → f.imm.toNat < u.launch.counters) :
    exec (.engq f) s = .next (s.retireC (u.setC f.rd (BitVec.ofNat 64 (engqValue s u form f.imm.toNat))) 2) := by
  show execEngq f s = _
  by_cases h0 : form = 0
  · simp [execEngq, onCtl_at h, hform, h0, counterCause_declared (hk h0), engDesc_nil]
  · simp [execEngq, onCtl_at h, hform, h0, engDesc_nil]

theorem exec_engq_undeclared {f : CX} {s : State} {u : UnitSt} (h : CtlAt s u) (hform : f.sub.toNat % 4 = 0) (hk : u.launch.counters ≤ f.imm.toNat) :
    exec (.engq f) s = .next (s.trapC u 0x18 0 1) := by
  show execEngq f s = _
  simp [execEngq, onCtl_at h, hform, counterCause_undeclared hk, engDesc_single]

/-- Settles O15: WAITC and WAITC_COMPLETE by what ends a WAITC, CNTSET, CNTADD and ENGQ by their values. -/
theorem countersAndQueries : Obligations.CountersAndQueries := by
  unfold Obligations.CountersAndQueries
  refine ⟨fun f s u h => ⟨fun hk hlen => ⟨fun hb => ?_, ?_, fun hf hd => ?_, fun hf hd => ?_, fun c r hw => ?_⟩, ?_, ?_, ?_, ?_, ?_⟩,
    fun s u p n k scope hr hu hw => ⟨fun hf hd => ?_, fun c r hrun hfault => ?_⟩⟩
  · have hcnt i := u.counter_setCounter (fun c => { c with v := (u.c f.ra).extractLsb' 0 32 }) i (hlen ▸ hk)
    exact ⟨_, exec_cntset h hk hb, by rw [hcnt, if_pos rfl], by rw [hcnt, if_pos rfl], rfl, fun i hi => by rw [hcnt, if_neg hi]⟩
  · have hcnt i := u.counter_setCounter (fun c => { c with v := c.v + (u.c f.ra).extractLsb' 0 32 }) i (hlen ▸ hk)
    exact ⟨_, exec_cntadd h hk, by rw [hcnt, if_pos rfl], by rw [hcnt, if_pos rfl], rfl, fun i hi => by rw [hcnt, if_neg hi]⟩
  · obtain ⟨t, v, he, hfind, hc, hpc, hwait, hcnt⟩ := waitcEnd_drained f.scope.toNat hf hd h.find
    exact ⟨t, v, (exec_waitc h hk).trans (by rw [he]; rfl), hfind, hc, hpc, hwait, hcnt⟩
  · rw [exec_waitc h hk, waitcEnd_none _ hf hd]
    rfl
  · exact surfaces_of_haltTrap h.find h.run ((exec_waitc h hk).trans (by rw [waitcEnd_faulted _ hw]; rfl))
  · intro hk hs
    rw [exec_engq h (form := 0) (by simp [hs]) (fun _ => hk)]
    rfl
  · intro hs
    rw [exec_engq h (form := 1) (by simp [hs]) (by simp)]
    rfl
  · intro hs
    rw [exec_engq h (form := 2) (by simp [hs]) (by simp)]
    rfl
  · intro hs
    rw [exec_engq h (form := 3) (by simp [hs]) (by simp)]
    simp [engqValue]
  · intro hs hk
    exact exec_engq_undeclared h (by simp [hs]) hk
  · obtain ⟨t, v, he, hfind, hc, hpc, hwait, -⟩ := waitcEnd_drained scope hf hd hu
    exact ⟨t, v, (exec_waitcComplete hr hw).trans (by rw [he]; rfl), hfind, hc, hpc, hwait⟩
  · exact surfaces_of_haltTrap hu hrun ((exec_waitcComplete hr hw).trans (by rw [waitcEnd_faulted _ hfault]; rfl))

end Sys2Proof.Machine
end

section
/-!
Fences, and the invalidations of instruction and constant caches (R75, R90, R148, R300, R302).
-/

namespace Sys2Proof.Machine

/-! ### Fences (R111, R148, R300, R408) -/

theorem retired_of_settled {s : State} {u v : UnitSt} (hset : v.settled = ((u.modCtl (Ctl.advance 2)).stamped s.cycle).settled) :
    v.ctx.ctl.c = u.ctx.ctl.c ∧ v.ctx.dat = u.ctx.dat ∧ v.ctx.ctl.pc = u.ctx.ctl.pc + 2 :=
  ⟨(UnitSt.settled_c hset :), (UnitSt.settled_dat hset :), (UnitSt.settled_pc hset :)⟩

/-- What a FENCE does to the caches: the effects of its release part, then those of its acquire part. -/
def fenceEffects (f : CX) (s : State) (u : UnitSt) : State :=
  let s1 := if f.ord != 1#2 then releaseFx s u.key u.pair f.scope.toNat else s
  if f.ord != 2#2 then acquireFx s1 u.key u.pair f.scope.toNat true else s1

theorem fenceEffects_effect (f : CX) (s : State) (u : UnitSt) : CacheEffect s (fenceEffects f s u) := by
  have h1 : CacheEffect s (if f.ord != 1#2 then releaseFx s u.key u.pair f.scope.toNat else s) := by
    split
    · exact releaseFx_effect _ _ _ _
    · exact .refl s
  unfold fenceEffects
  dsimp only
  split
  · exact h1.trans (acquireFx_effect _ _ _ _ _)
  · exact h1

/-- After the acquire part of a FENCE beyond the slice's own scope the pair's L1 holds no merging line of the job (R111). -/
theorem fenceEffects_noMerging {f : CX} (s : State) (u : UnitSt) (ho : f.ord ≠ 2) (hs : f.scope ≠ 0) :
    ∀ l ∈ ((fenceEffects f s u).pairOf u.pair).l1, l.mergesFor u.key.job = false := by
  have hs' : f.scope.toNat ≠ 0 := fun e => hs (BitVec.eq_of_toNat_eq e)
  have ho' : (f.ord != 2#2) = true := by simpa using ho
  simp only [fenceEffects, ho', if_true]
  exact acquireFx_noMerging _ u.key u.pair true hs'

theorem exec_fence {f : CX} {s : State} {u : UnitSt} (h : CtlAt s u)
    (hgo : f.ord = 1 ∨ (u.ctx.ctl.posted = none ∧ drained u f.scope.toNat = true)) :
    exec (.fence f) s = .next ((fenceEffects f s u).retireC (reread (fenceEffects f s u) u) 2) := by
  show execFence f s = _
  rcases hgo with ho | ⟨hp, hd⟩
  · simp [execFence, onCtl_at h, fenceEffects, ho]
  · simp [execFence, onCtl_at h, fenceEffects, postedTrap, hp, hd]

/-- A posted store error surfaces at an instruction: the unit traps with the record of that store, and the error is taken (R408). -/
def SurfacesPosted (i : Instr) (s : State) (u : UnitSt) (code addr info : Nat) : Prop :=
  ∃ t v, exec i s = .next t ∧ t.findUnit u.key = some v ∧ v.place = .trapped u.pair u.slot ∧
    v.ctx.ctl.posted = none ∧ v.ctx.ctl.pc = u.ctx.ctl.pc ∧ v.trap.map Trap.code = some code ∧ v.trap.map Trap.addr = some addr ∧
    v.trap.map Trap.info = some info ∧ v.trap.map Trap.posted = some true

theorem surfacesPosted_of {i : Instr} {s : State} {u : UnitSt} {code addr info : Nat} {m : Bool} (h : CtlAt s u)
    (hi : exec i s = .next (s.surface u { code := code, src := 0, pc := u.ctx.ctl.pc, addr := addr, info := info, posted := true, more := m })) :
    SurfacesPosted i s u code addr info :=
  ⟨_, _, hi, State.takeTrap_findUnit (u := u.modCtl (fun c => { c with posted := none, more := false })) _ h.find h.place,
    rfl, rfl, rfl, rfl, rfl, rfl, rfl⟩

theorem release_surfaces {f : CX} {s : State} {u : UnitSt} {code addr info : Nat} (h : CtlAt s u) (hp : u.ctx.ctl.posted = some (code, addr, info)) :
    (f.ord ≠ 1 → SurfacesPosted (.fence f) s u code addr info) ∧ (f.ord.getLsbD 1 = true → SurfacesPosted (.amo f) s u code addr info) ∧
    (f.ord = 2 → SurfacesPosted (.sto f) s u code addr info) := by
  refine ⟨fun ho => surfacesPosted_of h (m := u.ctx.ctl.more) ?_, fun ho => surfacesPosted_of h (m := u.ctx.ctl.more) ?_,
    fun ho => surfacesPosted_of h (m := u.ctx.ctl.more) ?_⟩
  · show execFence f s = _
    have ho' : (f.ord != 1#2) = true := by simpa using ho
    simp [execFence, onCtl_at h, postedTrap, hp, ho']
  · show execAmo f s = _
    have ho' : f.ord[1] = true := ho
    simp [execAmo, onCtl_at h, postedTrap, hp, ho']
  · show execSto f s = _
    simp [execSto, onCtl_at h, postedTrap, hp, ho]

theorem release_waits {f : CX} {s : State} {u : UnitSt} (h : CtlAt s u) (hp : u.ctx.ctl.posted = none) (hd : drained u f.scope.toNat = false) :
    (f.ord ≠ 1 → exec (.fence f) s = .next (s.waitC u .release)) ∧ (f.ord.getLsbD 1 = true → exec (.amo f) s = .next (s.waitC u .release)) := by
  refine ⟨fun ho => ?_, fun ho => ?_⟩
  · show execFence f s = _
    have ho' : (f.ord != 1#2) = true := by simpa using ho
    simp [execFence, onCtl_at h, postedTrap, hp, ho', hd]
  · show execAmo f s = _
    have ho' : f.ord[1] = true := ho
    simp [execAmo, onCtl_at h, postedTrap, hp, ho', hd]

/-! ### Cache maintenance (R75, R90, R302) -/

theorem State.die_modDie_other (s : State) {d e : Nat} (f : Die → Die) (h : e ≠ d) : (s.modDie d f).die e = s.die e := by
  simp only [State.modDie, State.setDie, State.die]
  by_cases he : e < 4 <;> simp [Array.getD, he, Ne.symm h]

/-- What a row of steps that each change one die leaves of a die. -/
theorem die_foldl {h : State → Nat → State} {F : Nat → Die → Die} (hstep : ∀ t d e, d < 4 → (h t d).die e = if e = d then F d (t.die d) else t.die e)
    (l : List Nat) (hl : ∀ d ∈ l, d < 4) (hnd : l.Nodup) (s : State) (e : Nat) : (l.foldl h s).die e = if e ∈ l then F e (s.die e) else s.die e := by
  induction l generalizing s with
  | nil => rfl
  | cons d l ih =>
    obtain ⟨hd, hnd⟩ := List.nodup_cons.1 hnd
    rw [List.foldl_cons, ih (fun x hx => hl x (List.mem_cons_of_mem _ hx)) hnd, hstep s d e (hl d List.mem_cons_self)]
    by_cases he : e = d
    · subst he; simp [hd]
    · simp [he]

theorem Restarted.refl (u : UnitSt) : Restarted u u := ⟨rfl, .inl rfl, .inl rfl⟩

theorem Restarted.key {u v : UnitSt} (h : Restarted u v) : v.key = u.key := by rw [h.1]; rfl

theorem restarted_of {ctl : Ctl → Ctl} {dat : Dat → Dat}
    (hc : ∀ c, ctl c = { c with wait := (ctl c).wait } ∧ ((ctl c).wait = c.wait ∨ (ctl c).wait = .none))
    (hd : ∀ d, dat d = { d with wait := (dat d).wait } ∧ ((dat d).wait = d.wait ∨ (dat d).wait = .none)) (u : UnitSt) :
    Restarted u ((u.modCtl ctl).modDat dat) := by
  refine ⟨?_, (hc _).2, (hd _).2⟩
  have h1 := (hc u.ctx.ctl).1
  have h2 := (hd u.ctx.dat).1
  simp only [UnitSt.modCtl, UnitSt.modDat]
  rw [← h1, ← h2]

/-- Reads that are made again change no more than what slices wait for. -/
theorem fetchAgain_eq (s : State) (who : UnitSt → Bool) (what : Access → Bool) :
    ∃ g : UnitSt → UnitSt, (∀ u, Restarted u (g u)) ∧ fetchAgain s who what = { s with units := s.units.map g } := by
  unfold fetchAgain
  dsimp only
  split
  · exact ⟨id, Restarted.refl, by simp⟩
  · refine ⟨_, fun u => ?_, rfl⟩
    split
    · refine restarted_of (fun c => ?_) (fun d => ?_) u
      · split
        · split
          · exact ⟨rfl, .inr rfl⟩
          · exact ⟨rfl, .inl rfl⟩
        · exact ⟨rfl, .inl rfl⟩
      · split
        · split
          · exact ⟨rfl, .inr rfl⟩
          · exact ⟨rfl, .inl rfl⟩
        · exact ⟨rfl, .inl rfl⟩
    · exact .refl u

theorem find?_map_key {g : UnitSt → UnitSt} (hg : ∀ u, (g u).key = u.key) (l : List UnitSt) (k : UKey) :
    (l.map g).find? (fun u => u.key == k) = (l.find? (fun u => u.key == k)).map g := by
  simp [List.find?_map, hg]

/-- The state in which an instruction of u completes after reads are made again. -/
def completesAgain (s : State) (u : UnitSt) (who : UnitSt → Bool) (what : Access → Bool) : State :=
  (fetchAgain s who what).retireC (reread (fetchAgain s who what) u) 2

/-- Reads that are made again leave all but the units as it is. -/
theorem completesAgain_rest (s : State) (u : UnitSt) (who : UnitSt → Bool) (what : Access → Bool) :
    (completesAgain s u who what).pairs = s.pairs ∧ (completesAgain s u who what).dies = s.dies ∧ SameMemory s (completesAgain s u who what) := by
  obtain ⟨g, -, he⟩ := fetchAgain_eq s who what
  rw [completesAgain, he]
  exact ⟨rfl, rfl, fun _ => rfl, rfl⟩

theorem completesAgain_retired {s s1 : State} {u : UnitSt} (hu : s.findUnit u.key = some u) (hunits : s1.units = s.units) (hcycle : s1.cycle = s.cycle)
    (who : UnitSt → Bool) (what : Access → Bool) : RetiredRestarting s (completesAgain s1 u who what) u 2 := by
  obtain ⟨g, hg, he⟩ := fetchAgain_eq s1 who what
  have hfind (k : UKey) : (fetchAgain s1 who what).findUnit k = (s.findUnit k).map g := by
    rw [he, State.findUnit, hunits]
    exact find?_map_key (fun u => (hg u).key) _ _
  have hread : reread (fetchAgain s1 who what) u = g u := by simp [reread, hfind, hu]
  have hret := State.retireC_retired (fetchAgain s1 who what) u (g u) (g u) 2 (hg u).key (by simp [hfind, hu])
  have hc : (fetchAgain s1 who what).cycle = s.cycle := by rw [he]; exact hcycle
  rw [completesAgain, hread]
  refine ⟨⟨g u, hg u, by rw [← hc]; exact hret.1⟩, fun k hk w hw => ⟨g w, hg w, ?_⟩⟩
  rw [hret.2 k hk, hfind, hw]
  rfl

/-- A change of the pairs of a scope that keeps their numbers. -/
def State.mapScope (s : State) (scope pair : Nat) (f : PairSt → PairSt) : State :=
  { s with pairs := s.pairs.map (fun p => if inScope scope pair p.id then f p else p) }

theorem mapScope_inside {s : State} {scope pair : Nat} {f : PairSt → PairSt} {p : PairSt}
    (hp : p ∈ (s.mapScope scope pair f).pairs) (hs : inScope scope pair p.id = true) : ∃ q, p = f q := by
  obtain ⟨q, -, rfl⟩ := List.mem_map.1 hp
  by_cases hq : inScope scope pair q.id = true
  · exact ⟨q, if_pos hq⟩
  · rw [if_neg hq] at hs
    exact absurd hs hq

/-- Of what an invalidation of a job takes from a cache nothing is the job's, and the lines of other jobs stay. -/
theorem mapScope_filter {α : Type} {s : State} {scope pair j : Nat} {job : α → Nat} {lines : PairSt → List α} {f : PairSt → PairSt}
    (hf : ∀ p, (f p).id = p.id) (hl : ∀ p, lines (f p) = (lines p).filter (fun l => job l != j)) :
    (∀ p ∈ (s.mapScope scope pair f).pairs, inScope scope pair p.id = true → ∀ l ∈ lines p, job l ≠ j) ∧
    (∀ p ∈ s.pairs, ∀ l ∈ lines p, job l ≠ j → ∃ q ∈ (s.mapScope scope pair f).pairs, q.id = p.id ∧ l ∈ lines q) := by
  refine ⟨fun p hp hs l hmem => ?_, fun p hp l hmem hj => ⟨_, List.mem_map_of_mem hp, ?_, ?_⟩⟩
  · obtain ⟨q, rfl⟩ := mapScope_inside hp hs
    rw [hl] at hmem
    simpa using (List.mem_filter.1 hmem).2
  · split
    · exact hf p
    · rfl
  · split
    · rw [hl]
      exact List.mem_filter.2 ⟨hmem, by simpa using hj⟩
    · exact hmem

/-- A pair without a job's lines in its constant cache. -/
def PairSt.dropCc (j : Nat) (p : PairSt) : PairSt := { p with cc := p.cc.filter (fun l => l.job != j) }

/-- A pair without a job's lines in its instruction cache. -/
def PairSt.dropL1i (j : Nat) (p : PairSt) : PairSt := { p with l1i := p.l1i.filter (fun l => l.job != j) }

theorem exec_cinv {f : CX} {s : State} {u : UnitSt} (h : CtlAt s u) : ∃ who what, exec (.cinv f) s =
    .next (completesAgain (s.mapScope f.scope.toNat u.pair (PairSt.dropCc u.key.job)) u who what) :=
  ⟨_, _, onCtl_at h _⟩

/-- CINV completes: the job's lines are gone from the constant caches of its scope, and nothing else is (R75, R302). -/
theorem cinv_completes {f : CX} {s : State} {u : UnitSt} (h : CtlAt s u) :
    ∃ t, exec (.cinv f) s = .next t ∧ RetiredRestarting s t u 2 ∧ SameMemory s t ∧
      (∀ p ∈ t.pairs, inScope f.scope.toNat u.pair p.id = true → ∀ l ∈ p.cc, l.job ≠ u.key.job) ∧
      (∀ p ∈ s.pairs, ∀ l ∈ p.cc, l.job ≠ u.key.job → ∃ q ∈ t.pairs, q.id = p.id ∧ l ∈ q.cc) := by
  obtain ⟨who, what, hrun⟩ := exec_cinv (f := f) h
  obtain ⟨hpairs, -, hmem⟩ := completesAgain_rest (s.mapScope f.scope.toNat u.pair (PairSt.dropCc u.key.job)) u who what
  have hcc := mapScope_filter (s := s) (scope := f.scope.toNat) (pair := u.pair) (j := u.key.job) (job := CcLine.job) (lines := PairSt.cc)
    (f := PairSt.dropCc u.key.job) (fun _ => rfl) (fun _ => rfl)
  rw [← hpairs] at hcc
  exact ⟨_, hrun, completesAgain_retired (s1 := s.mapScope f.scope.toNat u.pair (PairSt.dropCc u.key.job)) h.find rfl rfl who what, hmem, hcc⟩

/-- The job's lines leave the L2 instruction caches of some dies. -/
def dropL2i (s : State) (j : Nat) (kept : Nat → Bool) : State :=
  (range 0 Config.dies).foldl (fun t d => if kept d then t else t.modDie d (fun x => { x with l2i := x.l2i.filter (fun l => l.job != j) })) s

theorem dropL2i_die (s : State) (j : Nat) (kept : Nat → Bool) {d : Nat} (hd : d < 4) :
    ((dropL2i s j kept).die d).l2i = if kept d then (s.die d).l2i else (s.die d).l2i.filter (fun l => l.job != j) := by
  have h := die_foldl (h := fun t d => if kept d then t else t.modDie d (fun x => { x with l2i := x.l2i.filter (fun l => l.job != j) }))
    (F := fun d x => if kept d then x else { x with l2i := x.l2i.filter (fun l => l.job != j) }) (fun t d e hd => by
      by_cases he : e = d
      · subst he; cases kept e <;> simp [State.die_modDie, hd]
      · cases kept d <;> simp [State.die_modDie_other, he]) (range 0 Config.dies) (by decide) (by decide) s d
  rw [dropL2i, h, if_pos ((mem_range _ _ _).2 ⟨Nat.zero_le _, by simpa [Config.dies] using hd⟩)]
  cases kept d <;> rfl

theorem dropL2i_rest (s : State) (j : Nat) (kept : Nat → Bool) : dropL2i s j kept = { s with dies := (dropL2i s j kept).dies } := by
  refine foldl_keeps (fun t : State => t = { s with dies := t.dies }) (fun t d ht => ?_) _ rfl
  split
  · exact ht
  · rw [ht]; rfl

/-- The dies whose L2 instruction cache an ICINV leaves alone (R90). -/
def icinvSpares (f : CX) (u : UnitSt) (d : Nat) : Bool := decide (f.scope.toNat ≤ 4) && d != dieOf u.pair

/-- What an ICINV takes away. -/
def icinvTaken (f : CX) (s : State) (u : UnitSt) : State :=
  dropL2i (s.mapScope f.scope.toNat u.pair (PairSt.dropL1i u.key.job)) u.key.job (icinvSpares f u)

theorem icinvTaken_rest (f : CX) (s : State) (u : UnitSt) : (icinvTaken f s u).units = s.units ∧ (icinvTaken f s u).cycle = s.cycle ∧
    SameMemory s (icinvTaken f s u) ∧ (icinvTaken f s u).pairs = (s.mapScope f.scope.toNat u.pair (PairSt.dropL1i u.key.job)).pairs := by
  rw [icinvTaken, dropL2i_rest]
  exact ⟨rfl, rfl, ⟨fun _ => rfl, rfl⟩, rfl⟩

theorem exec_icinv {f : CX} {s : State} {u : UnitSt} (h : CtlAt s u) :
    ∃ who what, exec (.icinv f) s = .next (completesAgain (icinvTaken f s u) u who what) :=
  ⟨_, _, onCtl_at h _⟩

/-- ICINV completes: the job's lines are gone from the caches of its scope, and nothing else is (R90, R302). -/
theorem icinv_completes {f : CX} {s : State} {u : UnitSt} (h : CtlAt s u) :
    ∃ t, exec (.icinv f) s = .next t ∧ RetiredRestarting s t u 2 ∧ SameMemory s t ∧
      (∀ p ∈ t.pairs, inScope f.scope.toNat u.pair p.id = true → ∀ l ∈ p.l1i, l.job ≠ u.key.job) ∧
      (∀ d < 4, d = dieOf u.pair ∨ 5 ≤ f.scope.toNat → ∀ l ∈ (t.die d).l2i, l.job ≠ u.key.job) ∧
      (∀ d < 4, ∀ l ∈ (s.die d).l2i, l.job ≠ u.key.job → l ∈ (t.die d).l2i) ∧
      (∀ p ∈ s.pairs, ∀ l ∈ p.l1i, l.job ≠ u.key.job → ∃ q ∈ t.pairs, q.id = p.id ∧ l ∈ q.l1i) := by
  obtain ⟨who, what, hrun⟩ := exec_icinv (f := f) h
  obtain ⟨hunits, hcycle, hmem, hpairs⟩ := icinvTaken_rest f s u
  obtain ⟨hpairs', hdies, hmem'⟩ := completesAgain_rest (icinvTaken f s u) u who what
  have hl1i := mapScope_filter (s := s) (scope := f.scope.toNat) (pair := u.pair) (j := u.key.job) (job := ILine.job) (lines := PairSt.l1i)
    (f := PairSt.dropL1i u.key.job) (fun _ => rfl) (fun _ => rfl)
  rw [← hpairs, ← hpairs'] at hl1i
  have hdie {d : Nat} (hd : d < 4) : ((completesAgain (icinvTaken f s u) u who what).die d).l2i =
      if icinvSpares f u d then (s.die d).l2i else (s.die d).l2i.filter (fun l => l.job != u.key.job) := by
    rw [State.die, hdies]
    exact dropL2i_die (s.mapScope f.scope.toNat u.pair (PairSt.dropL1i u.key.job)) u.key.job (icinvSpares f u) hd
  refine ⟨_, hrun, completesAgain_retired h.find hunits hcycle who what, ⟨fun a => (hmem'.1 a).trans (hmem.1 a), hmem'.2.trans hmem.2⟩,
    hl1i.1, fun d hd ht l hl => ?_, fun d hd l hl hj => ?_, hl1i.2⟩
  · have : icinvSpares f u d = false := by
      rcases ht with rfl | ht
      · simp [icinvSpares]
      · simp [icinvSpares, Nat.not_le.2 (Nat.lt_of_succ_le ht)]
    rw [hdie hd, this] at hl
    simpa using (List.mem_filter.1 hl).2
  · rw [hdie hd]
    split
    · exact hl
    · exact List.mem_filter.2 ⟨hl, by simpa using hj⟩

end Sys2Proof.Machine
end

section
/-!
What the accesses at a home and the walks of a translation leave alone: the units but for their waits, and the clock.
-/

namespace Sys2Proof.Machine

/-! ### Cache effects of accesses at the home (R80, R97, R101, R108, R398) -/

theorem State.modDie_effect (s : State) (d : Nat) (f : Die → Die) : HomeEffect s (s.modDie d f) := ⟨rfl, rfl⟩
theorem State.bump_effect (s : State) : HomeEffect s s.bump := ⟨rfl, rfl⟩
theorem State.modPair_effect (s : State) (p : Nat) (f : PairSt → PairSt) : CacheEffect s (s.modPair p f) := ⟨rfl, rfl⟩

theorem dropVline_effect (s : State) (d line : Nat) : HomeEffect s (dropVline s d line) := by
  unfold dropVline
  split
  · exact .refl s
  · dsimp only
    split
    · exact State.modDie_effect _ _ _
    · exact (State.modDie_effect _ _ _).trans (writeMaskedRaw_effect _ _ _ _)

theorem touchVline_effect (s : State) (d line : Nat) : HomeEffect s (touchVline s d line) := ⟨rfl, rfl⟩

theorem fillVault_effect (s : State) (d line cls : Nat) (stamp : List Nat) (data : List TByte) : HomeEffect s (fillVault s d line cls stamp data) := by
  unfold fillVault
  dsimp only
  split
  · exact ⟨rfl, rfl⟩
  · split
    · exact ⟨rfl, rfl⟩
    · split
      · exact .refl s
      · exact (dropVline_effect _ _ _).trans ⟨rfl, rfl⟩

theorem homeLine_effect (s : State) (line cls : Nat) : HomeEffect s (homeLine s line cls).1 := by
  unfold homeLine
  dsimp only
  split
  · split
    · exact touchVline_effect _ _ _
    · split
      · exact .refl s
      · exact fillVault_effect _ _ _ _ _ _
  · exact .refl s

theorem touchHome_effect (s : State) (pa : Nat) : HomeEffect s (touchHome s pa) := by
  unfold touchHome
  split
  · exact touchVline_effect _ _ _
  · exact .refl s

theorem homeFill_effect (s : State) (pa : Nat) (cls : Option Nat) : HomeEffect s (homeFill s pa cls) := by
  unfold homeFill
  split
  · exact homeLine_effect _ _ _
  · exact touchHome_effect _ _

theorem CacheEffect.foldl {α : Type} {f : State → α → State} (h : ∀ s a, CacheEffect s (f s a)) (l : List α) (s : State) : CacheEffect s (l.foldl f s) :=
  foldl_keeps (CacheEffect s) (fun b a hb => hb.trans (h b a)) l (.refl s)

theorem l1Drop_effect (s : State) (pair line : Nat) (sts : List L1St) : CacheEffect s (s.l1Drop pair line sts) := ⟨rfl, rfl⟩

theorem invalidateDie_effect (s : State) (d line : Nat) : CacheEffect s (invalidateDie s d line) := by
  unfold invalidateDie
  split
  · exact .refl s
  · exact CacheEffect.foldl (fun t p => l1Drop_effect t p line cStates) _ s

theorem invDie_effect (s : State) (d line : Nat) : CacheEffect s (invDie s d line) := by
  unfold invDie
  dsimp only
  split
  · exact invalidateDie_effect _ _ _
  · split <;> exact (invalidateDie_effect _ _ _).trans ⟨rfl, rfl⟩

theorem recallEntry_effect (s : State) (d line : Nat) : CacheEffect s (recallEntry s d line) := by
  unfold recallEntry
  split
  · exact .refl s
  · have h : CacheEffect s ((invalidateDie s d line).sfDrop d line) := (invalidateDie_effect _ _ _).trans ⟨rfl, rfl⟩
    dsimp only
    split
    · exact h.trans (homeMerge_effect _ _ _ _).cache
    · refine h.trans ?_
      generalize (invalidateDie s d line).sfDrop d line = x
      repeat' split
      all_goals exact ⟨rfl, rfl⟩

theorem dropHolder_effect (s : State) (pair line : Nat) : CacheEffect s (dropHolder s pair line) := by
  unfold dropHolder
  dsimp only
  split
  · exact l1Drop_effect _ _ _ _
  · split
    · exact recallEntry_effect _ _ _
    · exact (l1Drop_effect _ _ _ _).trans ⟨rfl, rfl⟩

theorem l1Put_effect (s : State) (pair : Nat) (l : L1Line) : CacheEffect s (l1Put s pair l) := by
  have put (t : State) : CacheEffect t (t.modPair pair (fun p => { p with l1 := { l with used := t.fresh } :: p.l1 })).bump := ⟨rfl, rfl⟩
  unfold l1Put
  dsimp only
  split
  · exact put s
  · split
    · exact .refl s
    · refine CacheEffect.trans ?_ (put _)
      split
      · exact dropHolder_effect _ _ _
      · exact dropHolder_effect _ _ _
      · exact dropHolder_effect _ _ _
      · exact (homeMerge_effect _ _ _ _).cache.trans (l1Drop_effect _ _ _ _)
      · exact l1Drop_effect _ _ _ _

theorem CacheEffect.ite {s t x : State} {c : Prop} [Decidable c] (ht : CacheEffect s t) (hx : CacheEffect s x) : CacheEffect s (if c then t else x) := by
  split
  · exact ht
  · exact hx

theorem quiesce_effect {s t : State} {line : Nat} {write : Bool} (h : quiesce s line write = some t) : CacheEffect s t := by
  unfold quiesce at h
  split at h
  · simp at h
  · rw [Option.some.injEq] at h
    subst h
    have hfold {f : State → Nat → State} (hf : ∀ t d, CacheEffect t (f t d)) (d : Nat) (g : Die → Die) :
        CacheEffect s (if write then ((range 0 Config.dies).foldl f s).modDie d g else (range 0 Config.dies).foldl f s) :=
      .ite ((CacheEffect.foldl hf _ s).trans (State.modDie_effect _ _ _).cache) (CacheEffect.foldl hf _ s)
    refine hfold (fun t d => ?_) _ _
    split
    · exact .refl t
    · rename_i e _
      dsimp only
      -- the state once the owner's words have reached the home, then the copies go or are downgraded
      have hrest (x y : State) (h : Nat) (g : Die → Die) (hx : CacheEffect t x) (hy : CacheEffect x y) :
          CacheEffect t (if write then invDie x d line else if e.grant == some .e || e.grant == some .m then y.modDie h g else y) :=
        .ite (hx.trans (invDie_effect _ _ _)) (.ite ((hx.trans hy).trans (State.modDie_effect _ _ _).cache) (hx.trans hy))
      cases ownerLine t d line with
      | none => exact hrest t _ _ _ (.refl t) ⟨rfl, rfl⟩
      | some o => exact hrest (homeMerge t line o.2.data o.2.dirty) _ _ _ (homeMerge_effect _ _ _ _).cache ⟨rfl, rfl⟩

theorem State.knock_effect (s : State) (pa : Nat) : CacheEffect s (s.knock pa) := by
  unfold State.knock
  split
  · dsimp only
    split <;> exact ⟨rfl, rfl⟩
  · exact .refl s

theorem cohRead_effect {s t : State} {cls : Option Nat} {pa n : Nat} {bs : List TByte} (h : cohRead s cls pa n = some (t, bs)) : CacheEffect s t := by
  unfold cohRead at h
  obtain ⟨x, hx, he⟩ := Option.map_eq_some_iff.1 h
  obtain ⟨rfl, -⟩ := Prod.mk.injEq _ _ _ _ ▸ he
  exact (quiesce_effect hx).trans (homeFill_effect _ _ _).cache

/-! ### Cache effects of translation (R29 to R36) -/

theorem lookupTlb_effect {s t : State} {pair job page : Nat} {e : TlbEntry} (h : lookupTlb s pair job page = some (t, e)) : CacheEffect s t := by
  unfold lookupTlb at h
  split at h
  · obtain ⟨rfl, -⟩ := by simpa using h
    exact ⟨rfl, rfl⟩
  · obtain ⟨x, -, he⟩ := Option.map_eq_some_iff.1 h
    obtain ⟨rfl, -⟩ := by simpa using he
    exact ⟨rfl, rfl⟩

theorem dropTlb_effect (s : State) (pair job page : Nat) : CacheEffect s (dropTlb s pair job page) := ⟨rfl, rfl⟩

theorem walkGate_effect (s : State) (d : Nat) (pair : Option Nat) (job page : Nat) (q : AccKind) : CacheEffect s (walkGate s d pair job page q).1 := by
  unfold walkGate
  dsimp only
  repeat' split
  all_goals exact ⟨rfl, rfl⟩

theorem walkFrom_effect {cls d job va : Nat} (lvls : List Nat) : ∀ {s t : State} {frame lvl : Nat} {e : Pte},
    walkFrom cls d job va lvls s frame = .leaf t e lvl → CacheEffect s t := by
  induction lvls with
  | nil => intro s t frame lvl e h; simp [walkFrom] at h
  | cons l ls ih =>
    intro s t frame lvl e h
    unfold walkFrom at h
    dsimp only at h
    generalize hc : (if (l == 0) = true then none else (s.die d).walks.find? _) = cached at h
    split at h
    · simp at h
    · rename_i x y hgot
      have hx : CacheEffect s x := by
        split at hgot
        · obtain ⟨rfl, -⟩ := by simpa using hgot
          exact (State.modDie_effect _ _ _).cache
        · obtain ⟨⟨z, bs⟩, hz, he⟩ := Option.map_eq_some_iff.1 hgot
          obtain ⟨rfl, -⟩ := by simpa using he
          exact cohRead_effect hz
      split at h
      · simp at h
      · split at h
        · simp at h
        · split at h
          · obtain ⟨rfl, -, -⟩ := by simpa using h
            exact hx
          · refine hx.trans (CacheEffect.trans ?_ (ih h))
            exact .ite (.refl x) ⟨rfl, rfl⟩

/-- The state in which a translation ends. -/
def XRes.state : XRes → State
  | .ok s _ _ _ | .wait s _ | .retry s | .trap s _ _ => s

theorem walkNow_effect (s : State) (cls d job root : Nat) (q : AccKind) (va : Nat) : CacheEffect s (walkNow s cls d job root q va).state := by
  unfold walkNow
  split
  · exact .refl s
  · exact .refl s
  · rename_i hw
    dsimp only
    split <;> exact (walkFrom_effect _ hw).trans ⟨rfl, rfl⟩

/-- The queue of the die's walkers, where an access takes its turn in it. -/
theorem gate_effect {s t : State} {gated b : Bool} {d job page : Nat} {pair : Option Nat} {q : AccKind}
    (h : (if gated then walkGate s d pair job page q else (s, true)) = (t, b)) : CacheEffect s t := by
  cases gated
  · obtain ⟨rfl, -⟩ := by simpa using h
    exact .refl s
  · have := walkGate_effect s d pair job page q
    rw [if_pos rfl] at h
    rwa [h] at this

theorem xlateNow_effect (s : State) (gated : Bool) (cls pair job root : Nat) (q : AccKind) (va : Nat) :
    CacheEffect s (xlateNow s gated cls pair job root q va).state := by
  unfold xlateNow
  split
  · exact .refl s
  · dsimp only
    split
    · split
      · rename_i hg
        exact (gate_effect hg).trans (walkNow_effect _ _ _ _ _ _ _)
      · rename_i hg
        exact gate_effect hg
    · rename_i x e hl
      have hx := lookupTlb_effect hl
      split
      · exact hx
      · split
        · exact hx
        · have hd := hx.trans (dropTlb_effect x pair job (va / 4096))
          split
          · rename_i hg
            exact (hd.trans (gate_effect hg)).trans (walkNow_effect _ _ _ _ _ _ _)
          · rename_i hg
            exact hd.trans (gate_effect hg)

end Sys2Proof.Machine
end

section
/-!
PREF, and the statement on fences and caches (R303).
-/

namespace Sys2Proof.Machine

/-! ### PREF (R303) -/

/-- The state in which a request ends. -/
def Way.state : Way → State
  | .gone s | .retry s => s

theorem performL1_pref (s : State) {a : Access} (ha : a.use = .pref) (sts : List L1St) : performL1 s a sts = s := by
  unfold performL1
  rw [ha]
  split <;> rfl

theorem linkRead_settled {s t : State} {pa n : Nat} {what : Pending} (h : linkRead s pa n what = some t) : t.settled = s.settled := by
  have hsend {peer : Option Nat} {port : Bool} {msg : Nat → Out} (h : sendPending s peer port what msg = some t) : t.settled = s.settled := by
    obtain ⟨k, -, rfl⟩ := Option.map_eq_some_iff.1 h
    rfl
  unfold linkRead at h
  split at h
  · exact hsend h
  · exact hsend h
  · simp at h

theorem fillMerge_effect {s t : State} {a : Access} (h : fillMerge s a = some t) : CacheEffect s t := by
  have hfill (x : State) (jobs : List Nat) : CacheEffect x (l1Put (homeLine x a.line a.cls).1 a.pair ⟨a.line, .mg, jobs, (homeLine x a.line a.cls).2, 0, 0, []⟩) :=
    (homeLine_effect _ _ _).cache.trans (l1Put_effect _ _ _)
  unfold fillMerge at h
  dsimp only at h
  split at h
  · split at h
    · obtain rfl := by simpa using h
      exact .refl s
    · obtain rfl := by simpa using h
      exact ((homeMerge_effect _ _ _ _).cache.trans (l1Drop_effect _ _ _ _)).trans (hfill _ _)
  · split at h
    · obtain rfl := by simpa using h
      exact hfill _ _
    · simp at h

theorem Way.settled_ite {w x : Way} {l : List UnitSt} {c : Prop} [Decidable c] (hw : w.state.settled = l) (hx : x.state.settled = l) :
    (if c then w else x).state.settled = l := by
  split
  · exact hw
  · exact hx

theorem pcLoad_settled (s : State) (u : UnitSt) {a : Access} (ha : a.use = .pref) (l1 : Bool) : (pcLoad s u a l1).state.settled = s.settled := by
  unfold pcLoad
  dsimp only
  split <;> [refine Way.settled_ite (by rw [performL1_pref _ ha]; rfl) ?_; skip]
  -- what is left is the vault slot, where it holds the line, or the link
  all_goals
    split
    · refine Way.settled_ite ?_ (Way.settled_ite rfl (Way.settled_ite rfl ?_))
      · split
        · rename_i h; exact (linkRead_settled h :)
        · rfl
      · rw [performL1_pref _ ha]
        exact ((touchVline_effect _ _ _).cache.trans (l1Put_effect _ _ _)).1
    · split
      · rename_i h; exact (linkRead_settled h :)
      · rfl

theorem prefetch_settled (s : State) (u : UnitSt) {a : Access} (ha : a.use = .pref) (vaultOnly : Bool) :
    (prefetch s u a vaultOnly).state.settled = s.settled := by
  unfold prefetch
  dsimp only
  refine Way.settled_ite (Way.settled_ite (pcLoad_settled _ _ ha _) rfl)
    (Way.settled_ite rfl (Way.settled_ite (Way.settled_ite ?_ rfl) (Way.settled_ite ?_ (Way.settled_ite rfl rfl))))
  · split
    · rename_i h; exact (cohRead_effect h).1
    · exact (State.knock_effect _ _).1
  · split
    · rename_i h; exact (fillMerge_effect h).1
    · rfl

/-- A unit keeps its place, its registers and its flags (R303). -/
def SameRegs (u v : UnitSt) : Prop := v.place = u.place ∧ v.ctx.ctl.c = u.ctx.ctl.c ∧ v.ctx.dat = u.ctx.dat ∧ v.ctx.ctl.fpflags = u.ctx.ctl.fpflags

/-- PREF is past: its unit goes on with every value as before. -/
def PrefDone (u : UnitSt) (t : State) : Prop :=
  ∃ v, t.findUnit u.key = some v ∧ SameRegs u v ∧ v.ctx.ctl.pc = u.ctx.ctl.pc + 2 ∧ v.ctx.ctl.wait = .none

/-- PREF is tried again. -/
def PrefAgain (u : UnitSt) (t : State) : Prop :=
  ∃ v, t.findUnit u.key = some v ∧ SameRegs u v ∧ v.ctx.ctl.pc = u.ctx.ctl.pc ∧ v.ctx.ctl.wait = .release

theorem prefDone_of {s t : State} {u : UnitSt} (h : t.settled = s.settled) (hf : s.findUnit u.key = some u) : PrefDone u (t.retireC (reread t u) 2) := by
  obtain ⟨v, hfind, hset, hwait⟩ := State.retireC_of_settled h hf 2
  exact ⟨v, hfind, ⟨(congrArg (fun x : UnitSt => x.place) hset :), (UnitSt.settled_c hset :), (UnitSt.settled_dat hset :),
    (congrArg (fun x : UnitSt => x.ctx.ctl.fpflags) hset :)⟩, (UnitSt.settled_pc hset :), hwait⟩

theorem prefAgain_of {s t : State} {u : UnitSt} (h : t.settled = s.settled) (hf : s.findUnit u.key = some u) : PrefAgain u (t.waitC u .release) := by
  obtain ⟨w, hw, -⟩ := State.findUnit_of_settled h hf
  exact ⟨_, State.putUnit_findUnit_same t (u.modCtl (fun c => { c with wait := .release })) w hw, ⟨rfl, rfl, rfl, rfl⟩, rfl, rfl⟩

/-- How PREF looks its page up. -/
def prefXlate (s : State) (u : UnitSt) (va : Nat) : XRes :=
  xlateNow s true u.launch.cls u.pair u.key.job (match s.job u.key.job with | some j => j.root | none => 0) { kind := .load } va

theorem prefXlate_settled (s : State) (u : UnitSt) (va : Nat) : (prefXlate s u va).state.settled = s.settled := (xlateNow_effect _ _ _ _ _ _ _ _).1

/-- PREF has nothing to ask for: in the local window, and outside the unit's regions (R303). -/
def prefSkips (s : State) (u : UnitSt) (va : Nat) : Bool := decide (localWindow ≤ va) || (!regionOk u va 1 true false && !s.fwj u.key.job)

section Pref

variable {f : CX} {s : State} {u : UnitSt} (h : CtlAt s u)
include h

theorem exec_pref : exec (.pref f) s = .next (
    if prefSkips s u (cxAddr u f) then s.retireC (reread s u) 2
    else match prefXlate s u (cxAddr u f) with
      | .trap t _ _ => t.retireC (reread t u) 2
      | .wait t _ | .retry t => t.waitC u .release
      | .ok t pa e lvl =>
        if !regionOk u (cxAddr u f) 1 true false && !Pte.rcx e then t.retireC (reread t u) 2
        else match prefetch t.bump u (prefAccess t u (cxAddr u f) pa (Pte.cm e) lvl) (f.sub.getLsbD 0) with
          | .gone x => x.retireC (reread x u) 2
          | .retry x => x.waitC u .release) := onCtl_at h _

theorem exec_pref_skips (hskip : prefSkips s u (cxAddr u f) = true) : exec (.pref f) s = .next (s.retireC u 2) := by
  have hr : reread s u = u := by simp [reread, h.find]
  rw [exec_pref h, if_pos hskip, hr]

variable (hgo : prefSkips s u (cxAddr u f) = false)
include hgo

theorem exec_pref_trap {t : State} {code info : Nat} (hx : prefXlate s u (cxAddr u f) = .trap t code info) :
    exec (.pref f) s = .next (t.retireC (reread t u) 2) := by
  simp only [exec_pref h, hgo, Bool.false_eq_true, if_false, hx]

theorem exec_pref_busy {t : State} (hx : (∃ n, prefXlate s u (cxAddr u f) = .wait t n) ∨ prefXlate s u (cxAddr u f) = .retry t) :
    exec (.pref f) s = .next (t.waitC u .release) := by
  rcases hx with ⟨n, hx⟩ | hx <;> simp only [exec_pref h, hgo, Bool.false_eq_true, if_false, hx]

/-- A translated PREF is outside the unit's regions, or its request sets out, or it cannot. -/
theorem exec_pref_ok {t : State} {pa : Nat} {e : Pte} {lvl : Nat} (hx : prefXlate s u (cxAddr u f) = .ok t pa e lvl) :
    exec (.pref f) s = .next (t.retireC (reread t u) 2) ∨
    (∃ x, prefetch t.bump u (prefAccess t u (cxAddr u f) pa (Pte.cm e) lvl) (f.sub.getLsbD 0) = .gone x ∧ exec (.pref f) s = .next (x.retireC (reread x u) 2)) ∨
    (∃ x, prefetch t.bump u (prefAccess t u (cxAddr u f) pa (Pte.cm e) lvl) (f.sub.getLsbD 0) = .retry x ∧ exec (.pref f) s = .next (x.waitC u .release)) := by
  simp only [exec_pref h, hgo, Bool.false_eq_true, if_false, hx]
  split
  · exact .inl rfl
  · right
    split
    · rename_i x hw; exact .inl ⟨x, hw, rfl⟩
    · rename_i x hw; exact .inr ⟨x, hw, rfl⟩

end Pref

/-- PREF ends or is tried again; it ends wherever its request can set out (R303). -/
theorem pref_ends {f : CX} {s : State} {u : UnitSt} (h : CtlAt s u) :
    (∀ t code info, prefXlate s u (cxAddr u f) = .trap t code info → ∃ x, exec (.pref f) s = .next x ∧ PrefDone u x) ∧
    (∀ t pa e lvl, prefXlate s u (cxAddr u f) = .ok t pa e lvl →
      (∀ y, prefetch t.bump u (prefAccess t u (cxAddr u f) pa (Pte.cm e) lvl) (f.sub.getLsbD 0) ≠ .retry y) → ∃ x, exec (.pref f) s = .next x ∧ PrefDone u x) ∧
    ((∃ x, exec (.pref f) s = .next x ∧ PrefDone u x) ∨ ∃ x, exec (.pref f) s = .next x ∧ PrefAgain u x) := by
  cases hgo : prefSkips s u (cxAddr u f) with
  | true =>
    have hdone : ∃ x, exec (.pref f) s = .next x ∧ PrefDone u x := by
      refine ⟨_, (exec_pref h).trans (by rw [if_pos hgo]), prefDone_of rfl h.find⟩
    exact ⟨fun _ _ _ _ => hdone, fun _ _ _ _ _ _ => hdone, .inl hdone⟩
  | false =>
    have hset := prefXlate_settled s u (cxAddr u f)
    have hreq (t : State) (pa : Nat) (e : Pte) (lvl : Nat) :=
      prefetch_settled t.bump u (a := prefAccess t u (cxAddr u f) pa (Pte.cm e) lvl) rfl (f.sub.getLsbD 0)
    refine ⟨fun t code info hx => ?_, fun t pa e lvl hx hno => ?_, ?_⟩
    · rw [hx] at hset
      exact ⟨_, exec_pref_trap h hgo hx, prefDone_of hset h.find⟩
    · rw [hx] at hset
      rcases exec_pref_ok h hgo hx with hi | ⟨x, hw, hi⟩ | ⟨x, hw, -⟩
      · exact ⟨_, hi, prefDone_of hset h.find⟩
      · have := hreq t pa e lvl
        rw [hw] at this
        exact ⟨_, hi, prefDone_of (this.trans hset) h.find⟩
      · exact absurd hw (hno x)
    · cases hx : prefXlate s u (cxAddr u f) with
      | trap t code info =>
        rw [hx] at hset
        exact .inl ⟨_, exec_pref_trap h hgo hx, prefDone_of hset h.find⟩
      | wait t n =>
        rw [hx] at hset
        exact .inr ⟨_, exec_pref_busy h hgo (.inl ⟨n, hx⟩), prefAgain_of hset h.find⟩
      | retry t =>
        rw [hx] at hset
        exact .inr ⟨_, exec_pref_busy h hgo (.inr hx), prefAgain_of hset h.find⟩
      | ok t pa e lvl =>
        rw [hx] at hset
        have hw' := hreq t pa e lvl
        rcases exec_pref_ok h hgo hx with hi | ⟨x, hw, hi⟩ | ⟨x, hw, hi⟩
        · exact .inl ⟨_, hi, prefDone_of hset h.find⟩
        · rw [hw] at hw'
          exact .inl ⟨_, hi, prefDone_of (hw'.trans hset) h.find⟩
        · rw [hw] at hw'
          exact .inr ⟨_, hi, prefAgain_of (hw'.trans hset) h.find⟩

/-- Settles O11: FENCE by its cache effects, ICINV and CINV by what an invalidation takes away, PREF by how its translation and its request end. -/
theorem fencesAndCaches : Obligations.FencesAndCaches := by
  unfold Obligations.FencesAndCaches
  refine ⟨fun f s u h hgo => ?_, fun f s u h => ⟨fun code addr info hp => release_surfaces h hp, release_waits h⟩,
    fun f s u h => ⟨icinv_completes h, cinv_completes h⟩, fun f s u h => ?_⟩
  · obtain ⟨v, hfind, hset, hwait⟩ := (fenceEffects_effect f s u).retireC h.find 2
    obtain ⟨hc, hdat, hpc⟩ := retired_of_settled hset
    refine ⟨_, v, exec_fence h hgo, hfind, hc, hdat, hpc, hwait, fun ho hs l hl hst hmem => ?_⟩
    have hno := fenceEffects_noMerging (f := f) s u ho hs l hl
    simp [L1Line.mergesFor, hst, hmem] at hno
  · obtain ⟨htrap, hok, hany⟩ := pref_ends (f := f) h
    have hdone (hd : ∃ x, exec (.pref f) s = .next x ∧ PrefDone u x) :
        ∃ t v, exec (.pref f) s = .next t ∧ t.findUnit u.key = some v ∧ SameRegs u v ∧ v.ctx.ctl.pc = u.ctx.ctl.pc + 2 ∧ v.ctx.ctl.wait = .none :=
      let ⟨x, hi, v, hv⟩ := hd; ⟨x, v, hi, hv⟩
    refine ⟨fun hskip => exec_pref_skips h ?_, fun t code info hx => hdone (htrap t code info hx), fun t pa e lvl hx hno => hdone (hok t pa e lvl hx hno), ?_⟩
    · change localWindow ≤ cxAddr u f ∨ regionOk u (cxAddr u f) 1 true false = false ∧ _ at hskip
      rcases hskip with hw | ⟨ho, hj⟩
      · simp [prefSkips, hw]
      · simp [prefSkips, ho, hj]
    · rcases hany with hd | ⟨x, hi, v, hv⟩
      · exact .inl (hdone hd)
      · exact .inr ⟨x, v, hi, hv⟩

end Sys2Proof.Machine
end

section
/-!
Changes of the split of a vault (R82 to R86).
-/

namespace Sys2Proof.Machine

/-! ### What leaves a die's vaults and its queue of changes alone -/

/-- A die's vaults and the changes of their splits that wait. -/
def State.splits (s : State) (e : Nat) : Vector Vault 24 × List SplitReq := ((s.die e).vaults, (s.die e).vwait)

theorem State.splits_of_dies {s t : State} (h : t.dies = s.dies) (e : Nat) : t.splits e = s.splits e := by
  simp [State.splits, State.die, h]

theorem State.splits_modDie (s : State) (d e : Nat) {f : Die → Die} (hf : ∀ x, (f x).vaults = x.vaults ∧ (f x).vwait = x.vwait) : (s.modDie d f).splits e = s.splits e := by
  by_cases he : e = d
  · subst he
    by_cases h4 : e < 4
    · simp [State.splits, State.die_modDie s f h4, hf]
    · simp [State.splits, State.modDie, State.setDie, State.die, Array.getD, h4]
  · simp [State.splits, State.die_modDie_other s f he]

theorem storeBytes_dies (s : State) (pa : Nat) (bs : List TByte) : (s.storeBytes pa bs).dies = s.dies := by
  unfold State.storeBytes
  dsimp only
  split <;> rfl

theorem carryPoison_dies (s : State) (pa : Nat) (bs : List TByte) : (s.carryPoison pa bs).dies = s.dies := by
  unfold State.carryPoison
  split <;> rfl

theorem writeHalf_dies (s : State) (pa : Nat) (data : List TByte) (mask : Nat) : (writeHalf s pa data mask).dies = s.dies := by
  unfold writeHalf
  split
  · exact carryPoison_dies _ _ _
  split
  · rfl
  split
  · rfl
  refine foldl_keeps (fun t : State => t.dies = s.dies) (fun t w ht => ?_) _ rfl
  dsimp only
  split
  · rw [carryPoison_dies, storeBytes_dies, ht]
  · exact ht

theorem writeMaskedRaw_dies (s : State) (line : Nat) (data : List TByte) (mask : BitVec 32) : (writeMaskedRaw s line data mask).dies = s.dies := by
  unfold writeMaskedRaw
  rw [writeHalf_dies, writeHalf_dies]

theorem dropVline_splits (s : State) (d line e : Nat) : (dropVline s d line).splits e = s.splits e := by
  unfold dropVline
  split
  · rfl
  have h := s.splits_modDie d e (f := fun x => { x with vlines := x.vlines.filter (fun y => y.line != line) }) (fun _ => ⟨rfl, rfl⟩)
  dsimp only
  split
  · exact h
  · exact (State.splits_of_dies (writeMaskedRaw_dies _ _ _ _) e).trans h

theorem purgeLines_splits (s : State) (lo hi e : Nat) : (purgeLines s lo hi).splits e = s.splits e := by
  unfold purgeLines
  refine foldl_keeps (fun t : State => t.splits e = s.splits e) (fun t d ht => ?_) _ rfl
  refine (State.splits_modDie t d e ?_).trans ht
  exact fun _ => ⟨rfl, rfl⟩

/-! ### One vault of a state -/

theorem State.vault_modVault (s : State) {die v : Nat} (hd : die < 4) (hv : v < 24) (f : Vault → Vault) :
    ((s.modVault die v f).die die).vault v = f ((s.die die).vault v) ∧ ((s.modVault die v f).die die).vwait = (s.die die).vwait := by
  simp [State.modVault, State.die_modDie s _ hd, Die.vault, Array.getD, hv]

/-- A vault's oldest request leaves its die's queue, and no vault changes. -/
theorem State.splits_taken (s : State) {die : Nat} (hd : die < 4) (i : Nat) :
    (s.modDie die (fun x => { x with vwait := dropIdx x.vwait i })).splits die = ((s.die die).vaults, dropIdx (s.die die).vwait i) := by
  simp [State.splits, State.die_modDie s _ hd]

/-! ### Cleared store -/

/-- An address that no cell names reads as the default. -/
theorem cellGet_unlisted {α : Type} (d : α) (l : List (Nat × α)) {a : Nat} (h : ∀ c ∈ l, c.1 ≠ a) : cellGet d l a = d := by
  induction l with
  | nil => rfl
  | cons c l ih =>
    simp only [cellGet, if_neg (h c List.mem_cons_self).symm, ih (fun x hx => h x (List.mem_cons_of_mem _ hx)), ite_self]

theorem State.zeroRange_byteAt (s : State) {pa n a : Nat} (h1 : pa ≤ a) (h2 : a < pa + n) : (s.zeroRange pa n).byteAt a = { v := 0 } := by
  have hout {α : Type} (l : List (Nat × α)) (c : Nat × α) (hc : c ∈ l.filter (fun c => decide (c.1 < pa) || decide (pa + n ≤ c.1))) : c.1 ≠ a := by
    have := (List.mem_filter.1 hc).2
    simp only [Bool.or_eq_true, decide_eq_true_eq] at this
    omega
  have hb : (s.zeroRange pa n).byteAt a = { v := cellGet 0 (s.mem.filter (fun c => decide (c.1 < pa) || decide (pa + n ≤ c.1))) a
                                            key := cellGet 0 (s.keys.filter (fun c => decide (c.1 < pa) || decide (pa + n ≤ c.1))) a } := rfl
  rw [hb, cellGet_unlisted 0 _ (hout s.mem), cellGet_unlisted 0 _ (hout s.keys)]

/-! ### The start of a change -/

section
variable {s : State} {die vault i : Nat} {r : SplitReq}
  (hfree : ((s.die die).vault vault).busyTill = none)
  (hreq : findIdxVal (fun (x : SplitReq) => x.vault == vault) (s.die die).vwait 0 = some (i, r)) (hsec : sectorIn s die vault = false)
include hfree hreq hsec

theorem splitStart_same (hsz : r.size = ((s.die die).vault vault).store) :
    exec (.vaultSplitStart die vault) s = .next (s.modDie die (fun x => { x with vwait := dropIdx x.vwait i })) := by
  show execVaultSplitStart die vault s = _
  have heq : (r.size == ((s.die die).vault vault).store) = true := by rw [hsz]; exact beq_self_eq_true _
  simp only [execVaultSplitStart, hreq, hfree, hsec, heq, Option.isSome_none, Bool.or_self, Bool.false_eq_true, if_false, if_true]

theorem splitStart_grow (hsz : ((s.die die).vault vault).store < r.size) :
    ∃ lines : List Nat, exec (.vaultSplitStart die vault) s =
      .next (((lines.foldl (fun t l => dropVline t die l) (s.modDie die (fun x => { x with vwait := dropIdx x.vwait i }))).zeroRange
        (atticAt die vault ((s.die die).vault vault).store) ((r.size - ((s.die die).vault vault).store) * 0x100000)).modVault die vault (fun v => { v with
          target := r.size, origin := v.store, busyTill := some (s.cycle + 16384 * (r.size - v.store) + 600), forTask := some (r.job, r.tidx) })) := by
  refine ⟨((s.die die).vlines.filter (fun x => x.vault == vault && 16 - r.size ≤ x.way)).map VLine.line, ?_⟩
  show execVaultSplitStart die vault s = _
  have hne : (r.size == ((s.die die).vault vault).store) = false := by simp; omega
  simp only [execVaultSplitStart, hreq, hfree, hsec, hne, if_pos hsz, Nat.min_eq_left hsz.le, Nat.max_eq_right hsz.le, Option.isSome_none, Bool.or_self, Bool.false_eq_true, if_false]

theorem splitStart_reduce (hsz : r.size < ((s.die die).vault vault).store)
    (hquiet : ∀ l ∈ heldLines s (lineOf (atticAt die vault r.size)) (lineOf (atticAt die vault r.size + (((s.die die).vault vault).store - r.size) * 0x100000)), lineBusy s l = false) :
    ∃ lo hi : Nat, exec (.vaultSplitStart die vault) s =
      .next ((purgeLines (s.modDie die (fun x => { x with vwait := dropIdx x.vwait i })) lo hi).modVault die vault (fun v => { v with
          store := r.size, target := r.size, origin := v.store, busyTill := some (s.cycle + 600), forTask := some (r.job, r.tidx) })) := by
  refine ⟨lineOf (atticAt die vault r.size), lineOf (atticAt die vault r.size + (((s.die die).vault vault).store - r.size) * 0x100000), ?_⟩
  show execVaultSplitStart die vault s = _
  have hne : (r.size == ((s.die die).vault vault).store) = false := by simp; omega
  have hq : (heldLines s (lineOf (atticAt die vault r.size)) (lineOf (atticAt die vault r.size + (((s.die die).vault vault).store - r.size) * 0x100000))).any (lineBusy s) = false :=
    List.any_eq_false.2 (fun l hl => by simp [hquiet l hl])
  simp only [execVaultSplitStart, hreq, hfree, hsec, hne, if_neg hsz.le.not_gt, Nat.min_eq_right hsz.le, Nat.max_eq_left hsz.le, hq, Option.isSome_none, Bool.or_self, Bool.false_eq_true, if_false]

end

/-- Settles O40, by the three starts above; what a start does besides leaves the vaults and the queue of its die alone. -/
theorem vaultSplits : Obligations.VaultSplits := by
  unfold Obligations.VaultSplits
  refine ⟨fun s die vault i r hd hv hfree hreq hsec => ?_, fun s die vault n hd hv hbusy hle => ?_⟩
  · have htake := s.splits_taken hd i
    refine ⟨fun hsz => ?_, fun hsz => ?_, fun hsz hquiet => ?_⟩
    · obtain ⟨hvaults, hvwait⟩ := Prod.mk.inj htake
      exact ⟨_, splitStart_same hfree hreq hsec hsz, hvwait, by simp only [Die.vault, hvaults]⟩
    · obtain ⟨lines, hexec⟩ := splitStart_grow hfree hreq hsec hsz
      set t := (lines.foldl (fun t l => dropVline t die l) (s.modDie die (fun x => { x with vwait := dropIdx x.vwait i }))).zeroRange _ _ with ht
      have hsplits : t.splits die = ((s.die die).vaults, dropIdx (s.die die).vwait i) := by
        rw [← htake]
        exact foldl_keeps (fun t : State => t.splits die = _) (fun t l h => (dropVline_splits t die l die).trans h) lines rfl
      obtain ⟨hvaults, hvwait⟩ := Prod.mk.inj hsplits
      obtain ⟨hvault, hsame⟩ := t.vault_modVault hd hv (fun v => { v with
          target := r.size, origin := v.store, busyTill := some (s.cycle + 16384 * (r.size - v.store) + 600), forTask := some (r.job, r.tidx) })
      have hold : (t.die die).vault vault = (s.die die).vault vault := by simp only [Die.vault, hvaults]
      refine ⟨_, hexec, hsame.trans hvwait, ?_⟩
      rw [hvault, hold]
      exact ⟨rfl, rfl, rfl, fun a ha1 ha2 => State.zeroRange_byteAt _ ha1 (by unfold atticAt at ha1 ha2 ⊢; omega)⟩
    · obtain ⟨lo, hi, hexec⟩ := splitStart_reduce hfree hreq hsec hsz hquiet
      set t := purgeLines (s.modDie die (fun x => { x with vwait := dropIdx x.vwait i })) lo hi
      obtain ⟨-, hvwait⟩ := Prod.mk.inj ((purgeLines_splits _ lo hi die).trans htake)
      obtain ⟨hvault, hsame⟩ := t.vault_modVault hd hv (fun v => { v with
          store := r.size, target := r.size, origin := v.store, busyTill := some (s.cycle + 600), forTask := some (r.job, r.tidx) })
      refine ⟨_, hexec, hsame.trans hvwait, ?_⟩
      rw [hvault]
      exact ⟨rfl, rfl, rfl⟩
  · obtain ⟨hvault, -⟩ := s.vault_modVault hd hv (fun v => { v with store := v.target, origin := v.target, busyTill := none, forTask := none })
    refine ⟨_, ?_, congrArg Vault.store hvault, congrArg Vault.busyTill hvault⟩
    show execVaultSplitEnd die vault s = _
    simp only [execVaultSplitEnd, hbusy, if_neg hle.not_gt]

end Sys2Proof.Machine
end

section
/-!
Firmware controllers: module reset, the lease, the heartbeats and MINSVN (R88, R419, R432, R434, R476).
-/

namespace Sys2Proof.Machine

/-! ### Module reset -/

/-- A list of cells of which a test of the address keeps some. -/
theorem cellGet_filter {α : Type} [DecidableEq α] (d : α) (p : Nat → Bool) (a : Nat) (l : List (Nat × α)) :
    ∀ lo, cellsWf d lo l = true → cellGet d (l.filter (fun c => p c.1)) a = if p a then cellGet d l a else d := by
  induction l with
  | nil => intro _ _; simp [cellGet]
  | cons c l ih =>
    obtain ⟨k, v⟩ := c
    intro lo hw
    simp only [cellsWf, Bool.and_eq_true] at hw
    have ih := ih (k + 1) hw.2
    by_cases hp : p k = true
    · rw [List.filter_cons_of_pos (by exact hp)]
      simp only [cellGet, ih]
      by_cases hak : a = k
      · simp [hak, hp]
      · by_cases hlt : a < k <;> simp [hak, hlt]
    · rw [List.filter_cons_of_neg (by exact hp), ih]
      by_cases hak : a = k
      · simp [hak, hp]
      · by_cases hlt : a < k
        · simp [cellGet, hak, hlt, cellGet_below d l (k + 1) a hw.2 (by omega)]
        · simp [cellGet, hak, hlt]

/-- Bytes that module reset keeps: those of HBM, and the attic store of a die that does not boot. -/
def resetKeeps (up : BitVec 4) (pa : Nat) : Bool :=
  match place52 pa with | .hbm => true | .attic d _ _ => !up.getLsbD d | _ => false

theorem bootsOf_getLsbD (f : Firmware) (b : BootImage) {d : Nat} (hd : d < 4) : (bootsOf f b).getLsbD d = bootsDie f b d := by
  unfold bootsOf
  interval_cases d <;> cases bootsDie f b 0 <;> cases bootsDie f b 1 <;> cases bootsDie f b 2 <;> cases bootsDie f b 3 <;> rfl

theorem bootsOf_all (f : Firmware) (b : BootImage) : (bootsOf f b == 0xF#4) = (bootsDie f b 0 && bootsDie f b 1 && bootsDie f b 2 && bootsDie f b 3) := by
  unfold bootsOf
  cases bootsDie f b 0 <;> cases bootsDie f b 1 <;> cases bootsDie f b 2 <;> cases bootsDie f b 3 <;> rfl

theorem bootsOf_any (f : Firmware) (b : BootImage) : (bootsOf f b != 0) = (bootsDie f b 0 || bootsDie f b 1 || bootsDie f b 2 || bootsDie f b 3) := by
  unfold bootsOf
  cases bootsDie f b 0 <;> cases bootsDie f b 1 <;> cases bootsDie f b 2 <;> cases bootsDie f b 3 <;> rfl

theorem place52_hbm_iff (pa : Nat) : place52 pa = .hbm ↔ isHbm pa = true := by
  unfold place52 isHbm
  constructor
  · intro h
    by_contra hn
    rw [if_neg (by simpa using hn)] at h
    dsimp only at h
    split_ifs at h
  · intro h
    rw [if_pos (by simpa using h)]

theorem place52_attic_lt {pa d v o : Nat} (h : place52 pa = .attic d v o) : d < 4 := by
  unfold place52 at h
  dsimp only at h
  split_ifs at h with h1 h2 h3
  obtain ⟨rfl, -, -⟩ := Place52.attic.inj h
  simp only [Bool.and_eq_true, decide_eq_true_eq] at h2
  omega

/-- Module reset as a state; its memory is what `resetKeeps` keeps. -/
theorem moduleReset_byteAt {s t : State} {b : BootImage} (hwf : s.memWf = true) (h : exec (.moduleReset b) s = .next t) (pa : Nat) :
    t.byteAt pa = if resetKeeps (bootsOf s.fw b) pa then s.byteAt pa else { v := 0 } := by
  obtain ⟨hmem, hkeys⟩ := (State.memWf_iff s).1 hwf
  cases h
  have hb : (⟨cellGet 0 (s.mem.filter (fun c => resetKeeps (bootsOf s.fw b) c.1)) pa, cellGet 0 (s.keys.filter (fun c => resetKeeps (bootsOf s.fw b) c.1)) pa, false⟩ : TByte) = 
    if resetKeeps (bootsOf s.fw b) pa then s.byteAt pa else { v := 0 } := by
    rw [cellGet_filter 0 _ pa _ 0 hmem, cellGet_filter 0 _ pa _ 0 hkeys]
    split <;> rfl
  exact hb

theorem resetKeeps_hbm (up : BitVec 4) {pa : Nat} (h : isHbm pa = true) : resetKeeps up pa = true := by
  simp [resetKeeps, (place52_hbm_iff pa).2 h]

theorem resetKeeps_attic (up : BitVec 4) {pa d v o : Nat} (h : place52 pa = .attic d v o) : resetKeeps up pa = !up.getLsbD d := by
  simp [resetKeeps, h]

/-- Nothing else than HBM and the attic of a die that does not boot is kept. -/
theorem resetKeeps_others (up : BitVec 4) {pa : Nat} (hhbm : isHbm pa = false) (hattic : ∀ d v o, place52 pa = .attic d v o → up.getLsbD d = true) :
    resetKeeps up pa = false := by
  have hne : place52 pa ≠ .hbm := fun h => by simp [(place52_hbm_iff pa).1 h] at hhbm
  unfold resetKeeps
  split
  · exact absurd ‹_› hne
  · rw [hattic _ _ _ ‹_›]; rfl
  · rfl

theorem moduleReset_vault {s t : State} {b : BootImage} (h : exec (.moduleReset b) s = .next t) (d v : Nat) : (t.die d).vault v = {} := by
  cases h
  exact (congrArg (fun x : Die => x.vault v) (State.reset_die d)).trans (Die.default_vault v)

/-! ### The lease (R432) -/

theorem State.alive_iff (s : State) (d : Nat) : s.alive d = true ↔ s.fw.live.getLsbD d = true ∧ s.cycle < s.fw.beats.toArray.getD d 0 + 95000000 := by
  simp [State.alive, lapseTicks]

theorem lowestLive_eq {live : Nat → Bool} {d : Nat} (hd : d < 4) (h : live d = true) (hlow : ∀ k < d, live k = false) : lowestLive live = some d := by
  interval_cases d <;> simp [lowestLive, range, h, hlow]

theorem leaseRenew_renews {s : State} {die : Nat} (hl : die = s.fw.leader) (ha : s.alive die = true) (he : s.fw.epoch ≠ 0) (ht : s.cycle < s.fw.leaseTill) :
    exec (.leaseRenew die) s = .next { s with fw := { s.fw with leaseTill := s.cycle + 95000000 } } := by
  show execLeaseRenew die s = _
  have hcond : (die == s.fw.leader && s.alive die && s.fw.epoch != 0 && decide (s.cycle < s.fw.leaseTill)) = true := by simp [hl ▸ ha, hl, he, ht]
  simp only [execLeaseRenew, hcond, if_true]
  rfl

theorem leaseRenew_other {s : State} {die : Nat} (hl : die ≠ s.fw.leader) : exec (.leaseRenew die) s = .next s := by
  show execLeaseRenew die s = _
  have hcond : (die == s.fw.leader) = false := by simpa using hl
  simp only [execLeaseRenew, hcond, Bool.false_and, Bool.false_eq_true, if_false]

theorem leaseLapse_takes {s : State} {die : Nat} (hd : die < 4) (ht : s.fw.leaseTill ≤ s.cycle) (ha : s.alive die = true) (hlow : ∀ k < die, s.alive k = false) :
    exec .leaseLapse s =
      .next { s with fw := { s.fw with leader := die, epoch := (s.fw.epoch + 1) % 2 ^ 32, leaseTill := s.cycle + 95000000 } } := by
  show execLeaseLapse s = _
  simp only [execLeaseLapse, lowestLive_eq hd ha hlow, if_neg ht.not_gt]
  rfl

/-! ### The heartbeats (R432) -/

theorem getLsbD_bit (die k : Nat) (hk : k < 4) : (BitVec.ofNat 4 (2 ^ die)).getLsbD k = decide (k = die) := by
  rw [BitVec.getLsbD_ofNat, Nat.testBit_two_pow, decide_eq_true hk, Bool.true_and]
  exact decide_eq_decide.2 eq_comm

theorem heartbeatRenew_renews {s : State} {die : Nat} (hd : die < 4) (hb : s.fw.booted.getLsbD die = true) :
    ∃ t, exec (.heartbeatRenew die) s = .next t ∧ t.fw.beats.toArray.getD die 0 = s.cycle ∧
      ∀ k < 4, t.fw.live.getLsbD k = (decide (k = die) || s.fw.live.getLsbD k) := by
  refine ⟨s.modFw (fun f => { f with beats := f.beats.setIfInBounds die s.cycle, live := f.live ||| BitVec.ofNat 4 (2 ^ die) }), ?_, ?_, fun k hk => ?_⟩
  · show execHeartbeatRenew die s = _
    simp only [execHeartbeatRenew, if_pos hb]
  · simp [State.modFw, Array.getD, hd]
  · simp only [State.modFw, BitVec.getLsbD_or, getLsbD_bit die k hk, Bool.or_comm]

theorem heartbeatLapse_clears {s : State} {die : Nat} (hl : s.fw.live.getLsbD die = true) (ht : s.fw.beats.toArray.getD die 0 + 95000000 ≤ s.cycle) :
    ∃ t, exec (.heartbeatLapse die) s = .next t ∧ ∀ k < 4, t.fw.live.getLsbD k = (decide (k ≠ die) && s.fw.live.getLsbD k) := by
  refine ⟨s.modFw (fun f => { f with live := f.live &&& ~~~ (BitVec.ofNat 4 (2 ^ die)) }), ?_, fun k hk => ?_⟩
  · show execHeartbeatLapse die s = _
    have hcond : (s.fw.live.getLsbD die && decide (s.fw.beats.toArray.getD die 0 + lapseTicks ≤ s.cycle)) = true := by
      rw [hl, Bool.true_and]
      exact decide_eq_true ht
    simp only [execHeartbeatLapse, hcond, if_true]
  · simp only [State.modFw, BitVec.getLsbD_and, BitVec.getLsbD_not, getLsbD_bit die k hk, hk, decide_true, Bool.true_and, decide_not, Bool.and_comm]

/-! ### MINSVN (R434) -/

theorem minsvnRaise_acts {s : State} {e : Nat} (h : s.fw.raise = some e) :
    exec .minsvnRaise s = .next { s with fw := { s.fw with
      raise := none, minsvn := if raiseDue s && s.fw.epoch ≤ e then max s.fw.minsvn s.fw.imageSvn else s.fw.minsvn } } := by
  show execMinsvnRaise s = _
  simp only [execMinsvnRaise, h]
  rfl

theorem raiseDue_iff (s : State) : raiseDue s = true ↔ s.fw.epoch ≠ 0 ∧ s.cycle < s.fw.leaseTill ∧ s.fw.commit = true ∧ s.fw.booted = 0xF := by
  simp [raiseDue, leaseStands, and_assoc]

theorem minsvnRaise_raises {s : State} {e : Nat} (h : s.fw.raise = some e) (he0 : s.fw.epoch ≠ 0) (hl : s.cycle < s.fw.leaseTill) (he : s.fw.epoch ≤ e)
    (hc : s.fw.commit = true) (hb : s.fw.booted = 0xF) :
    exec .minsvnRaise s = .next { s with fw := { s.fw with raise := none, minsvn := max s.fw.minsvn s.fw.imageSvn } } := by
  rw [minsvnRaise_acts h, if_pos (by simp [(raiseDue_iff s).2 ⟨he0, hl, hc, hb⟩, he])]

theorem minsvnRaise_refused {s : State} {e : Nat} (h : s.fw.raise = some e)
    (hno : s.fw.commit = false ∨ s.fw.booted ≠ 0xF ∨ e < s.fw.epoch ∨ s.fw.epoch = 0 ∨ s.fw.leaseTill ≤ s.cycle) :
    exec .minsvnRaise s = .next { s with fw := { s.fw with raise := none } } := by
  have hcond : ¬ (raiseDue s && decide (s.fw.epoch ≤ e)) = true := by
    rw [Bool.and_eq_true, raiseDue_iff, decide_eq_true_eq]
    rintro ⟨⟨he0, hl, hc, hb⟩, he⟩
    rcases hno with h | h | h | h | h
    · simp [hc] at h
    · exact h hb
    · omega
    · exact he0 h
    · omega
  rw [minsvnRaise_acts h, if_neg hcond]

/-- Settles O48: the memory of a module reset by `moduleReset_byteAt`, the rest by the lemmas on each step. -/
theorem firmwareControllers : Obligations.FirmwareControllers := by
  unfold Obligations.FirmwareControllers
  refine ⟨fun s b hwf => ?_, fun s die hd => ?_⟩
  · have hexec : ∃ t, exec (.moduleReset b) s = .next t := ⟨_, rfl⟩
    obtain ⟨t, ht⟩ := hexec
    have hbyte := moduleReset_byteAt hwf ht
    have hvault := moduleReset_vault ht
    have hany := bootsOf_any s.fw b
    refine ⟨t, ht, ?_⟩
    have hfw : t.units = [] ∧ t.jobs = [] ∧ t.cmds = [] ∧ t.fw.minsvn = s.fw.minsvn ∧ t.fw.rootKeys = s.fw.rootKeys ∧ t.fw.revoked = s.fw.revoked ∧
        t.fw.boots = s.fw.boots + 1 ∧ t.fw.live = bootsOf s.fw b ∧ t.fw.ready = (bootsOf s.fw b == 0xF#4) ∧
        t.fw.epoch = (if bootsOf s.fw b != 0 then 1 else 0) ∧ t.p1.mode = portMode (if bootsOf s.fw b != 0 then b.p1mode else 0) ∧ t.poison = s.poison := by
      cases ht
      exact ⟨rfl, rfl, rfl, rfl, rfl, rfl, rfl, rfl, rfl, rfl, rfl, rfl⟩
    obtain ⟨hunits, hjobs, hcmds, hminsvn, hkeys, hrev, hboots, hlive, hready, hepoch, hmode, hpoison⟩ := hfw
    rw [hany] at hepoch hmode
    refine ⟨hunits, hjobs, hcmds, hminsvn, hkeys, hrev, hboots, fun d hd => ?_, hready.trans (bootsOf_all _ _), hepoch, hmode, hpoison,
      fun pa hpa => ?_, fun pa hpa hok => ?_, fun pa d v o hpa hok => ?_, fun d _ v _ => congrArg Vault.store (hvault d v)⟩
    · rw [hlive, bootsOf_getLsbD _ _ hd]
    · rw [hbyte, resetKeeps_hbm _ hpa, if_pos rfl]
    · rw [hbyte, resetKeeps_others _ hpa (fun d v o h => (bootsOf_getLsbD _ _ (place52_attic_lt h)).trans (hok d v o h)), if_neg Bool.false_ne_true]
    · rw [hbyte, resetKeeps_attic _ hpa, bootsOf_getLsbD _ _ (place52_attic_lt hpa), show bootsDie s.fw b d = false from hok, Bool.not_false, if_pos rfl]
  · refine ⟨leaseRenew_renews, leaseRenew_other, leaseLapse_takes hd, s.alive_iff die, heartbeatRenew_renews hd, heartbeatLapse_clears,
      fun e hr he0 hl he hc hb => ?_, fun e hr hno => ?_, fun h => ?_⟩
    · exact minsvnRaise_raises hr he0 hl he hc hb
    · exact minsvnRaise_refused hr hno
    · show execMinsvnRaise s = _
      simp only [execMinsvnRaise, h]

end Sys2Proof.Machine
end

section
/-!
How a data instruction completes, and how the data slice goes on: the selector, the chute, reissued waits and the extended register blocks
(R54, R165 to R171, R175, R176, R241, R339, R359).
-/

namespace Sys2Proof.Machine

/-! ### The completion of a data instruction -/

theorem fpflags_or_none (x : BitVec 6) : x ||| BitVec.ofNat 6 (allFlags []) = x := by simp [allFlags]

/-- An instruction without flags completes: its unit goes on from what its effect has left of it. -/
theorem dataOp_ok {s t : State} {u v : UnitSt} {f : D64} {g : State → UnitSt → Except Stop Eff} {upd : UnitSt → UnitSt} (h : DatAt s u)
    (hg : g s u = .ok { st := t, upd := upd }) (hv : (t.findUnit u.key).getD u = v) :
    dataOp f g s = .next (t.putUnit ((selectNext t (upd (markRead f v)) f.nas).stamped t.cycle)) := by
  have hnone : enabledFlag u [] = none := by simp [enabledFlag, leastBy]
  have hupd : (upd (markRead f v)).modCtl (fun c => { c with fpflags := c.fpflags ||| BitVec.ofNat 6 (allFlags []) }) = upd (markRead f v) := by
    simp only [fpflags_or_none]
    rfl
  simp only [dataOp, onDat_at h, hg, finishD, hnone, hv, hupd]

/-- The same where the state outside the unit stays. -/
theorem dataOp_own {s : State} {u : UnitSt} {f : D64} {g : State → UnitSt → Except Stop Eff} {upd : UnitSt → UnitSt} (h : DatAt s u)
    (hg : g s u = .ok { st := s, upd := upd }) :
    dataOp f g s = .next (s.putUnit ((selectNext s (upd (markRead f u)) f.nas).stamped s.cycle)) :=
  dataOp_ok h hg (by rw [h.find]; rfl)

theorem markRead_ctx_rest (f : D64) (u : UnitSt) : (markRead f u).ctx.ctl = u.ctx.ctl ∧ (markRead f u).ctx.chute = u.ctx.chute ∧
    (markRead f u).place = u.place ∧ (markRead f u).ctx.dat = { u.ctx.dat with v := (markRead f u).ctx.dat.v } := by
  rw [markRead_rest]
  exact ⟨rfl, rfl, rfl, rfl⟩

/-! ### The selector (R169) -/

theorem UnitSt.setM_ma (u : UnitSt) (x : Mask) : (u.setM 0 x).ma = x := by
  simp [UnitSt.setM, UnitSt.ma, UnitSt.mreg, UnitSt.modCtx]

theorem selectNext_keeps (s : State) (u : UnitSt) (nas : BitVec 2) : (selectNext s u nas).key = u.key ∧ (selectNext s u nas).ctx.ctl = u.ctx.ctl ∧
    (selectNext s u nas).ctx.dat.head = u.ctx.dat.head ∧ (selectNext s u nas).ctx.dat.s = u.ctx.dat.s := by
  unfold selectNext
  dsimp only
  split
  · exact ⟨rfl, rfl, rfl, rfl⟩
  · split <;> exact ⟨rfl, rfl, rfl, rfl⟩
  · exact ⟨rfl, rfl, rfl, rfl⟩
  · exact ⟨rfl, rfl, rfl, rfl⟩

theorem selectNext_next (s : State) (u : UnitSt) :
    selectNext s u 0 = u.modDat (fun d => { d with lanes := [], pc := d.pc + 2, mode := .walk, wait := .none }) := rfl

/-- The iteration counter one further, at most 2^32 - 1 (R168). -/
def nextIt (d : Dat) : BitVec 32 := BitVec.ofNat 32 (min (d.it.toNat + 1) (2 ^ 32 - 1))

theorem nextIt_toNat (d : Dat) : (nextIt d).toNat = min (d.it.toNat + 1) (2 ^ 32 - 1) := by
  unfold nextIt
  rw [BitVec.toNat_ofNat, Nat.mod_eq_of_lt (by omega)]

/-- The unit in the next iteration, before its PC moves. -/
def UnitSt.iterated (u : UnitSt) : UnitSt :=
  ((u.modDat (fun d => { d with lanes := [] })).setM 0 (activeMask u.ctx.dat (nextIt u.ctx.dat).toNat)).modDat (fun d => { d with it := nextIt u.ctx.dat, wait := .none })

theorem selectNext_iterate (s : State) (u : UnitSt) :
    selectNext s u 1 = if (nextIt u.ctx.dat).toNat < u.ctx.dat.en.toNat then u.iterated.modDat (fun d => { d with pc := d.head, mode := .transfer })
      else u.iterated.modDat (fun d => { d with pc := d.pc + 2, mode := .walk }) := by
  unfold UnitSt.iterated
  rw [nextIt_toNat]
  rfl

theorem UnitSt.iterated_ma (u : UnitSt) : u.iterated.ma = activeMask u.ctx.dat (nextIt u.ctx.dat).toNat :=
  UnitSt.setM_ma _ _

theorem selectNext_pop (s : State) (u : UnitSt) : selectNext s u 2 = u.modDat (fun d => { d with lanes := [], wait := .pop }) := rfl

theorem selectNext_end (s : State) (u : UnitSt) :
    selectNext s u 3 = (u.modDat (fun d => { d with lanes := [] })).modCtx (Ctx.endData (s.queuedMatrix u)) := rfl

/-! ### DNOP (R171) -/

theorem exec_dnop_next {s : State} {u : UnitSt} {f : D64} (h : DatAt s u) (hfn : f.fn = 0) :
    exec (.dnop f) s = .next (s.putUnit ((selectNext s (markRead f u) f.nas).stamped s.cycle)) := by
  show execDnop f s = _
  exact dataOp_own (upd := id) h (by rw [if_pos (by simp [hfn])]; rfl)

theorem exec_dnop_head {s t : State} {u : UnitSt} {f : D64} {pc : Nat} (h : DatAt s u) (hfn : f.fn = 1)
    (hpc : nextPc u true true (u.launch.lines + 1) s u.ctx.dat.buf (u.ctx.dat.pc + 2) = (t, .found pc)) :
    exec (.dnop f) s =
      .next (t.putUnit ((selectNext t ((markRead f ((t.findUnit u.key).getD u)).modDat (fun d => { d with head := pc })) f.nas).stamped t.cycle)) := by
  show execDnop f s = _
  exact dataOp_ok (upd := fun x => x.modDat (fun d => { d with head := pc })) h (by rw [if_neg (by simp [hfn]), hpc]) rfl

/-- DNOP moves the slice as its selector says. -/
theorem dnop_selects {s : State} {u : UnitSt} {f : D64} (h : DatAt s u) (hfn : f.fn = 0) :
    ∃ v, exec (.dnop f) s = .next (s.putUnit v) ∧ v.key = u.key ∧ v.ctx.dat.s = u.ctx.dat.s ∧ v.ctx.ctl = u.ctx.ctl ∧ v.ctx.dat.head = u.ctx.dat.head ∧
      (f.nas = 0 → v.ctx.dat.pc = u.ctx.dat.pc + 2 ∧ v.ctx.dat.wait = .none ∧ v.ctx.dat.it = u.ctx.dat.it ∧ v.ma = u.ma) ∧
      (f.nas = 1 → v.ctx.dat.it.toNat = min (u.ctx.dat.it.toNat + 1) (2 ^ 32 - 1) ∧ v.ma = activeMask u.ctx.dat v.ctx.dat.it.toNat ∧
        v.ctx.dat.pc = if v.ctx.dat.it.toNat < u.ctx.dat.en.toNat then u.ctx.dat.head else u.ctx.dat.pc + 2) ∧
      (f.nas = 2 → v.ctx.dat.wait = .pop ∧ v.ctx.dat.done = u.ctx.dat.done) ∧
      (f.nas = 3 → v.ctx.chute = [] ∧ (s.queuedMatrix u = false → v.ctx.dat.done = true) ∧
        (s.queuedMatrix u = true → v.ctx.dat.stopped = true ∧ v.ctx.dat.done = false)) := by
  obtain ⟨hkey, hctl, hhead, hs⟩ := selectNext_keeps s (markRead f u) f.nas
  rw [markRead_rest f u] at hkey hctl hhead hs
  refine ⟨_, exec_dnop_next h hfn, ?_, ?_, ?_, ?_, fun hn => ?_, fun hn => ?_, fun hn => ?_, fun hn => ?_⟩ <;> rw [markRead_rest f u]
  · exact hkey
  · exact hs
  · exact hctl
  · exact hhead
  · rw [hn, selectNext_next]
    exact ⟨rfl, rfl, rfl, rfl⟩
  · rw [hn, selectNext_iterate]
    refine ⟨?_, ?_, ?_⟩
    · split <;> exact nextIt_toNat u.ctx.dat
    · split <;> exact UnitSt.iterated_ma _
    · split
      · exact (if_pos ‹_›).symm
      · exact (if_neg ‹_›).symm
  · rw [hn, selectNext_pop]
    exact ⟨rfl, rfl⟩
  · rw [hn, selectNext_end]
    refine ⟨rfl, fun hq => congrArg Bool.not hq, fun hq => ⟨hq, congrArg Bool.not hq⟩⟩

theorem dnop_moves_head {s t : State} {u : UnitSt} {f : D64} {pc : Nat} (h : DatAt s u) (hfn : f.fn = 1)
    (hpc : nextPc u true true (u.launch.lines + 1) s u.ctx.dat.buf (u.ctx.dat.pc + 2) = (t, .found pc)) :
    ∃ x v, exec (.dnop f) s = .next x ∧ (t.findUnit u.key = some u → x.findUnit u.key = some v ∧ v.ctx.dat.head = pc) := by
  refine ⟨_, (selectNext t ((markRead f u).modDat (fun d => { d with head := pc })) f.nas).stamped t.cycle, exec_dnop_head h hfn hpc, fun hu => ⟨?_, ?_⟩⟩
  · rw [hu, Option.getD_some]
    have hkey : ((selectNext t ((markRead f u).modDat (fun d => { d with head := pc })) f.nas).stamped t.cycle).key = u.key :=
      (selectNext_keeps t _ f.nas).1.trans (markRead_key f u)
    rw [← hkey] at hu ⊢
    exact State.putUnit_findUnit_same t _ u hu
  · exact (selectNext_keeps t _ f.nas).2.2.1

/-! ### CHUTE_POP (R165, R168, R170) -/

theorem dataResident_of {s : State} {u : UnitSt} {p k : Nat} (h : s.resident p k = some u) (hr : u.datRuns = true) : dataResident s p k = some u := by
  simp [dataResident, h, hr]

/-- The data registers once an entry has been made the current one. -/
def Dat.popped (d : Dat) (l : Launch) (e : ChuteEntry) : Dat :=
  { d with
    eb := e.bits.extractLsb' 32 32, en := e.bits.extractLsb' 64 32, it := 0
    ea := #v[e.bits.extractLsb' 96 32, e.bits.extractLsb' 128 32, e.bits.extractLsb' 160 32, e.bits.extractLsb' 192 32]
    xm := e.bits.getLsbD 24, tail := (e.bits.extractLsb' 16 8).toNat
    head := l.entries.getD (e.bits.extractLsb' 0 16).toNat 0, pc := l.entries.getD (e.bits.extractLsb' 0 16).toNat 0
    mode := .transfer, wait := .none, chseq := e.seqno }

/-- The unit without its oldest chute entry. -/
def UnitSt.chuteTaken (u : UnitSt) (e : ChuteEntry) (r : List ChuteEntry) : UnitSt :=
  u.modCtx (fun x => { x with chute := r, chHead := (e.seqno + 1) % 2 ^ 32 })

section
variable {s : State} {u : UnitSt} {p k : Nat} {e : ChuteEntry} {r : List ChuteEntry} (hres : s.resident p k = some u) (hruns : u.datRuns = true)
  (hwait : u.ctx.dat.wait = .pop) (hchute : u.ctx.chute = e :: r)
include hres hruns

theorem chutePop_replay (hrep : u.ctx.ctl.replay = true) : exec (.chutePop p k) s = .next s := by
  show execChutePop p k s = _
  simp only [execChutePop, dataResident_of hres hruns, hrep, Bool.or_true, if_true]

include hwait hchute

theorem chutePop_entry (hrep : u.ctx.ctl.replay = false) (hend : e.bits.getLsbD 31 = false) :
    exec (.chutePop p k) s = .next (s.putUnit
      ((((u.chuteTaken e r).modDat (fun _ => u.ctx.dat.popped u.launch e)).setM 0 (activeMask (u.ctx.dat.popped u.launch e) 0)).stamped s.cycle)) := by
  show execChutePop p k s = _
  simp only [execChutePop, dataResident_of hres hruns, hwait, hrep, hchute, hend, bne_self_eq_false, Bool.or_self, Bool.false_eq_true, if_false]
  rfl

theorem chutePop_end (hrep : u.ctx.ctl.replay = false) (hend : e.bits.getLsbD 31 = true) :
    exec (.chutePop p k) s = .next (s.putUnit (((u.chuteTaken e r).modCtx (Ctx.endData (s.queuedMatrix u))).stamped s.cycle)) := by
  show execChutePop p k s = _
  simp only [execChutePop, dataResident_of hres hruns, hwait, hrep, hchute, hend, bne_self_eq_false, Bool.or_self, Bool.false_eq_true, if_false, if_true]
  rfl

end

theorem concat_extracts (x : BitVec 256) :
    x.extractLsb' 192 32 ++ x.extractLsb' 160 32 ++ x.extractLsb' 128 32 ++ x.extractLsb' 96 32 = x.extractLsb' 96 128 := by
  ext i hi
  simp only [BitVec.getElem_append, BitVec.getElem_extractLsb']
  split_ifs <;> congr 1 <;> omega

/-- The mask in which a new entry starts (R170). -/
theorem activeMask_popped (d : Dat) (l : Launch) (e : ChuteEntry) :
    activeMask (d.popped l e) 0 = if e.bits.getLsbD 24 then e.bits.extractLsb' 96 128
      else if e.bits.extractLsb' 64 32 = 0 then 0
      else if 1 < (e.bits.extractLsb' 64 32).toNat ∨ e.bits.toNat / 2 ^ 16 % 256 = 0 then BitVec.allOnes 128
      else BitVec.ofNat 128 (2 ^ (e.bits.toNat / 2 ^ 16 % 256) - 1) := by
  have htail : (e.bits.extractLsb' 16 8).toNat = e.bits.toNat / 2 ^ 16 % 256 := by
    rw [BitVec.extractLsb'_toNat, Nat.shiftRight_eq_div_pow]
  have hfull : lowLanes Config.width = BitVec.allOnes 128 := by decide
  have hzero : ((e.bits.extractLsb' 64 32).toNat == 0) = decide (e.bits.extractLsb' 64 32 = 0) := by
    rw [Bool.eq_iff_iff, beq_iff_eq, decide_eq_true_eq]
    exact ⟨fun h => BitVec.eq_of_toNat_eq h, fun h => by rw [h]; rfl⟩
  unfold activeMask Dat.popped
  simp only [htail, hzero, hfull, decide_eq_true_eq, Bool.or_eq_true, beq_iff_eq, Nat.zero_add]
  rw [← concat_extracts]
  rfl

theorem chutePop_pops {s : State} {u : UnitSt} {p k : Nat} {e : ChuteEntry} {r : List ChuteEntry} (hres : s.resident p k = some u) (hruns : u.datRuns = true)
    (hwait : u.ctx.dat.wait = .pop) (hchute : u.ctx.chute = e :: r) (hrep : u.ctx.ctl.replay = false) (hend : e.bits.getLsbD 31 = false) :
    ∃ v, exec (.chutePop p k) s = .next (s.putUnit v) ∧ v.key = u.key ∧ v.ctx.chute = r ∧
      v.ctx.dat.eb = e.bits.extractLsb' 32 32 ∧ v.ctx.dat.en = e.bits.extractLsb' 64 32 ∧ v.ctx.dat.it = 0 ∧
      (∀ i < 4, v.ctx.dat.ea.toArray.getD i 0 = e.bits.extractLsb' (96 + 32 * i) 32) ∧
      v.ctx.dat.pc = u.launch.entries.getD (e.bits.toNat % 2 ^ 16) 0 ∧ v.ctx.dat.head = v.ctx.dat.pc ∧ v.ctx.dat.wait = .none ∧
      v.ctx.dat.chseq = e.seqno ∧ v.ctx.dat.v = u.ctx.dat.v ∧ v.ctx.dat.s = u.ctx.dat.s ∧
      v.ma = (if e.bits.getLsbD 24 then e.bits.extractLsb' 96 128
        else if v.ctx.dat.en = 0 then 0
        else if 1 < v.ctx.dat.en.toNat ∨ e.bits.toNat / 2 ^ 16 % 256 = 0 then BitVec.allOnes 128
        else BitVec.ofNat 128 (2 ^ (e.bits.toNat / 2 ^ 16 % 256) - 1)) := by
  have hidx : (e.bits.extractLsb' 0 16).toNat = e.bits.toNat % 2 ^ 16 := by rw [BitVec.extractLsb'_toNat, Nat.shiftRight_zero]
  refine ⟨_, chutePop_entry hres hruns hwait hchute hrep hend, rfl, rfl, rfl, rfl, rfl, fun i hi => ?_, ?_, rfl, rfl, rfl, rfl, rfl, ?_⟩
  · interval_cases i <;> rfl
  · rw [← hidx]; rfl
  · exact (UnitSt.setM_ma _ _).trans (activeMask_popped _ _ _)

/-! ### Waits that end (R54, R55, R241, R359) -/

theorem reissueD_again {s : State} {u : UnitSt} {p k : Nat} {w : DatWait} (hres : s.resident p k = some u) (hruns : u.datRuns = true)
    (hwait : u.ctx.dat.wait = w) : reissueD s p k w = .next (s.putUnit (u.modDat (fun d => { d with wait := .none }))) := by
  simp only [reissueD, dataResident_of hres hruns, hwait, beq_self_eq_true, if_true]

/-- A line that a wait has noted stands in its state: its unit is resident still and the line has not changed. -/
theorem linesStand_iff (s : State) (seen : List (UKey × Nat × Nat)) : linesStand s seen = true ↔
    ∀ l ∈ seen, ∃ v, s.findUnit l.1 = some v ∧ v.occupies.isSome = true ∧ v.lineState l.2.1 = l.2.2 := by
  unfold linesStand
  rw [List.all_eq_true]
  refine forall₂_congr fun l _ => ?_
  cases s.findUnit l.1 with
  | none => simp
  | some v => simp

theorem lineWait_ends {s : State} {u : UnitSt} {p k : Nat} {seen : List (UKey × Nat × Nat)} (hres : s.resident p k = some u) (hruns : u.datRuns = true)
    (hwait : u.ctx.dat.wait = .line seen) (hmoved : ∃ l ∈ seen, ∀ v, s.findUnit l.1 = some v → v.occupies.isSome = true → v.lineState l.2.1 ≠ l.2.2) :
    exec (.lineStateWaitEnd p k) s = .next (s.putUnit (u.modDat (fun d => { d with wait := .none }))) := by
  have hstand : ¬ linesStand s seen = true := by
    rw [linesStand_iff]
    intro hall
    obtain ⟨l, hl, hm⟩ := hmoved
    obtain ⟨v, hv, hocc, hst⟩ := hall l hl
    exact hm v hv hocc hst
  show execLineStateWaitEnd p k s = _
  simp only [execLineStateWaitEnd, dataResident_of hres hruns, hwait, if_neg hstand]
  exact reissueD_again hres hruns hwait

theorem lineWait_stays {s : State} {u : UnitSt} {p k : Nat} {seen : List (UKey × Nat × Nat)} (hres : s.resident p k = some u) (hruns : u.datRuns = true)
    (hwait : u.ctx.dat.wait = .line seen) (hstays : ∀ l ∈ seen, ¬ ∀ v, s.findUnit l.1 = some v → v.occupies.isSome = true → v.lineState l.2.1 ≠ l.2.2) :
    exec (.lineStateWaitEnd p k) s = .next s := by
  have hstand : linesStand s seen = true := (linesStand_iff s seen).2 fun l hl => by
    have h := hstays l hl
    push Not at h
    exact h
  show execLineStateWaitEnd p k s = _
  simp only [execLineStateWaitEnd, dataResident_of hres hruns, hwait, if_pos hstand]

/-! ### The extended register blocks (R175, R176, R339) -/

theorem foldl_setIfInBounds {α : Type} {n : Nat} (x : α) (l : List Nat) (v : Vector α n) (i : Nat) (hi : i < n) :
    (l.foldl (fun v i => v.setIfInBounds i x) v)[i] = if i ∈ l then x else v[i] := by
  induction l generalizing v with
  | nil => simp
  | cons a l ih =>
    rw [List.foldl_cons, ih, Vector.getElem_setIfInBounds]
    by_cases hl : i ∈ l
    · simp [hl]
    · by_cases ha : i = a
      · simp [ha]
      · simp [hl, ha, Ne.symm ha]

/-- A granted block is zero and UNINIT; the other registers stay. -/
theorem grantExt_v (u : UnitSt) (now : Nat) (i : BitVec 6) : (u.modCtx (Ctx.grantExt now)).v i = if 32 ≤ i.toNat then {} else u.v i := by
  have hlt := i.isLt
  refine (foldl_setIfInBounds _ (range 32 32) u.ctx.dat.v i.toNat hlt).trans ?_
  simp only [mem_range, Nat.reducePow] at hlt ⊢
  by_cases h32 : 32 ≤ i.toNat
  · rw [if_pos ⟨h32, by omega⟩, if_pos h32]
  · rw [if_neg (fun h => h32 h.1), if_neg h32]; rfl

@[simp] theorem Ctx.grantExt_ext (now : Nat) (x : Ctx) : (x.grantExt now).ext = true := by simp only [Ctx.grantExt]

section
variable {f : D64} {s : State} {u : UnitSt} (h : DatAt s u)
include h

theorem vgrab_held (hregs : u.launch.regs64 = true) (hext : u.ctx.ext = true) : DataGives s u (.vgrab f) f.nas (fun v => v.ctx = (markRead f u).ctx) := by
  refine ⟨markRead f u, ?_, markRead_key f u, rfl⟩
  show execVgrab f s = _
  exact dataOp_own (upd := id) h (by rw [hregs, if_pos hext]; rfl)

theorem vgrab_free (hregs : u.launch.regs64 = true) (hext : u.ctx.ext = false) (hfree : extUsed s u.pair < 2) (hnone : (s.pairOf u.pair).vgrab = [])
    (hla : f.la = false) (hlb : f.lb = false) :
    DataGives s u (.vgrab f) f.nas (fun v => v.ctx.ext = true ∧ (∀ i : BitVec 6, 32 ≤ i.toNat → v.v i = {}) ∧ (∀ i : BitVec 6, i.toNat < 32 → v.v i = u.v i)) := by
  have hmark : markRead f u = u := by simp [markRead, hla, hlb]
  refine ⟨u.modCtx (Ctx.grantExt s.cycle), ?_, UnitSt.modCtx_key _ _, Ctx.grantExt_ext _ _, fun i hi => ?_, fun i hi => ?_⟩
  · have hexec : execVgrab f s = .next (s.putUnit ((selectNext s ((markRead f u).modCtx (Ctx.grantExt s.cycle)) f.nas).stamped s.cycle)) :=
      dataOp_own (upd := fun x => x.modCtx (Ctx.grantExt s.cycle)) h (by simp only [hregs, hext, hnone, decide_eq_true hfree]; rfl)
    rw [hmark] at hexec
    exact hexec
  · rw [grantExt_v, if_pos hi]
  · rw [grantExt_v, if_neg hi.not_ge]

theorem vgrab_undeclared (hregs : u.launch.regs64 = false) :
    exec (.vgrab f) s = .next (s.takeTrap u { code := 0x01, src := 1, pc := u.ctx.dat.pc, info := 5 + 256 * 32 }) := by
  show execVgrab f s = _
  simp only [execVgrab, dataOp, onDat_at h, hregs]
  rfl

theorem vdrop_gives : DataGives s u (.vdrop f) f.nas (fun v => v.ctx.ext = false ∧ SameRegisters u v f []) := by
  have hexec : execVdrop f s = _ := dataOp_own (upd := fun x => x.modCtx (fun c => { c with ext := false })) h rfl
  refine ⟨(markRead f u).modCtx (fun c => { c with ext := false }), hexec, markRead_key f u, rfl, fun i _ => markRead_v f u i, ?_⟩
  rw [markRead_rest f u]
  exact ⟨rfl, rfl, rfl, rfl⟩

end

/-- The unit to which VGRAB_GRANT hands a block. -/
def UnitSt.granted (u : UnitSt) (now : Nat) : UnitSt := (u.modCtx (Ctx.grantExt now)).modDat (fun d => { d with wait := .none })

theorem UnitSt.granted_spec (u : UnitSt) (now : Nat) : (u.granted now).key = u.key ∧ (u.granted now).ctx.ext = true ∧ (u.granted now).ctx.dat.wait = .none ∧
    ∀ i : BitVec 6, 32 ≤ i.toNat → (u.granted now).v i = {} := by
  unfold UnitSt.granted
  generalize hx : u.modCtx (Ctx.grantExt now) = x
  refine ⟨?_, ?_, rfl, fun i hi => ?_⟩
  · rw [UnitSt.modDat_key, ← hx, UnitSt.modCtx_key]
  · have hext := Ctx.grantExt_ext now u.ctx
    rw [← UnitSt.modCtx_ctx u (Ctx.grantExt now), hx] at hext
    exact hext
  · have hv := grantExt_v u now i
    rw [hx, if_pos hi] at hv
    exact hv

theorem vgrabGrant_grants {s : State} {u : UnitSt} {p k : Nat} {r : List UKey} (hq : (s.pairOf p).vgrab = u.key :: r) (hu : s.findUnit u.key = some u)
    (hplace : u.place = .placed p k) (hruns : u.datRuns = true) (hwait : u.ctx.dat.wait = .vgrab) (hfree : extUsed s p < 2) :
    exec (.vgrabGrant p) s = .next ((s.modPair p (fun x => { x with vgrab := r })).putUnit (u.granted s.cycle)) := by
  have hpair : u.pair = p := by simp [UnitSt.pair, UnitSt.occupies, hplace]
  show execVgrabGrant p s = _
  simp only [execVgrabGrant, hq, hu, hplace, hruns, hpair, hwait, hfree, beq_self_eq_true, Bool.and_self, Bool.not_true, Bool.false_eq_true, if_false, if_true, UnitSt.granted]

/-- Settles O26: each part by the lemma on its step. -/
theorem dataSliceGoesOn : Obligations.DataSliceGoesOn := by
  unfold Obligations.DataSliceGoesOn
  refine ⟨fun f s u h => ⟨dnop_selects h, fun t pc => dnop_moves_head h⟩, fun s u p k e r hres hruns hwait hchute => ⟨?_, ?_, fun hrep hend => ?_⟩,
    fun s u p k hres hruns => ⟨fun seen hm hw => ?_, fun seen hw hm => ?_, fun hw => ?_, fun hroom hw => ?_⟩,
    fun f s u h => ⟨vgrab_held h, vgrab_free h, vgrab_undeclared h, vdrop_gives h⟩, fun s u p k r hq hu hplace hruns hwait hfree => ?_⟩
  · exact chutePop_replay hres hruns
  · exact chutePop_pops hres hruns hwait hchute
  · exact ⟨_, chutePop_end hres hruns hwait hchute hrep hend, rfl, rfl, fun hq => congrArg Bool.not hq⟩
  · exact lineWait_ends hres hruns hw hm
  · exact lineWait_stays hres hruns hw hm
  · exact reissueD_again hres hruns hw
  · show execMatrixQueueSpace p k s = _
    rw [execMatrixQueueSpace, if_pos hroom]
    exact reissueD_again hres hruns hw
  · obtain ⟨hkey, hext, hdone, hv⟩ := u.granted_spec s.cycle
    rw [← hkey] at hu
    have hfind := State.putUnit_findUnit_same (s.modPair p (fun x => { x with vgrab := r })) (u.granted s.cycle) u hu
    rw [hkey] at hu hfind
    have hpair := congrArg PairSt.vgrab (s.pairOf_modPair_same p (fun x => { x with vgrab := r }) (fun _ => rfl))
    exact ⟨_, u.granted s.cycle, vgrabGrant_grants hq hu hplace hruns hwait hfree, hfind, hext, hdone, hpair, hv⟩

end Sys2Proof.Machine
end

section
/-!
What the stores of the data slice into a pantry leave (R53, R330 to R334): the bytes of the writes at their places, and everything else.
-/

namespace Sys2Proof.Machine

/-! ### Bytes of numbers -/

theorem leBytes_length (n : Nat) : ∀ x, (leBytes n x).length = n := by
  induction n with
  | zero => intro x; rfl
  | succ n ih => intro x; rw [leBytes, List.length_cons, ih]

theorem leBytes_getElem (n : Nat) : ∀ x i (h : i < (leBytes n x).length), (leBytes n x)[i] = BitVec.ofNat 8 (x / 256 ^ i) := by
  induction n with
  | zero => intro x i h; simp [leBytes] at h
  | succ n ih =>
    intro x i h
    cases i with
    | zero => simp [leBytes]
    | succ i =>
      simp only [leBytes, List.getElem_cons_succ, ih, Nat.div_div_eq_div_mul]
      rw [Nat.pow_succ, Nat.mul_comm]

theorem range_eq_range' (n : Nat) : ∀ a, range a n = List.range' a n := by
  induction n with
  | zero => intro a; rfl
  | succ n ih => intro a; rw [range, ih, List.range'_succ]

theorem range_zero_eq (n : Nat) : range 0 n = List.range n := by rw [range_eq_range', List.range_eq_range']

/-! ### Folds over lists -/

/-- A fold of steps that each keep a property, if their element is of the list, keeps it. -/
theorem foldl_keeps_mem {α β : Type} {f : β → α → β} (P : β → Prop) (l : List α) (h : ∀ a ∈ l, ∀ b, P b → P (f b a)) {b : β} (hb : P b) :
    P (l.foldl f b) := by
  induction l generalizing b with
  | nil => exact hb
  | cons a l ih => exact ih (fun x hx => h x (List.mem_cons_of_mem _ hx)) (h a List.mem_cons_self b hb)

/-- What one step of a fold brings about and no step undoes holds at its end; I holds all along. -/
theorem foldl_brings {α β : Type} {f : β → α → β} (I P : β → Prop) (l : List α) {a : α} (ha : a ∈ l) (hI : ∀ a ∈ l, ∀ b, I b → I (f b a))
    (hP : ∀ b, I b → P (f b a)) (hkeep : ∀ a ∈ l, ∀ b, I b → P b → P (f b a)) {b : β} (hb : I b) : P (l.foldl f b) := by
  obtain ⟨l1, l2, rfl⟩ := List.append_of_mem ha
  rw [List.foldl_append, List.foldl_cons]
  have h1 : I (l1.foldl f b) := foldl_keeps_mem I l1 (fun x hx => hI x (by simp [hx])) hb
  have h2 := foldl_keeps_mem (f := f) (fun b => I b ∧ P b) l2 (fun x hx b hb => ⟨hI x (by simp [hx]) b hb.1, hkeep x (by simp [hx]) b hb.1 hb.2⟩)
    ⟨hI a ha _ h1, hP _ h1⟩
  exact h2.2

/-! ### Writes joined (R476) -/

theorem mem_insertBy {α : Type} (lt : α → α → Bool) (x y : α) (l : List α) : y ∈ insertBy lt x l ↔ y = x ∨ y ∈ l := by
  induction l with
  | nil => simp [insertBy]
  | cons a l ih =>
    unfold insertBy
    split
    · simp only [List.mem_cons, ih]; tauto
    · exact List.mem_cons

theorem mem_sortBy {α : Type} (lt : α → α → Bool) (y : α) (l : List α) : y ∈ sortBy lt l ↔ y ∈ l := by
  induction l with
  | nil => rfl
  | cons a l ih => rw [sortBy, mem_insertBy, ih, List.mem_cons]

/-- A write reaches an offset. -/
def Covers (w : Nat × List Byte) (o : Nat) : Prop := w.1 ≤ o ∧ o < w.1 + w.2.length

/-- One write after another in the order of their offsets: it joins the next one where they are adjacent. -/
def joinWrite (w : Nat × List Byte) (r : List (Nat × List Byte)) : List (Nat × List Byte) :=
  match r with
  | [] => [w]
  | x :: y => if w.1 + w.2.length == x.1 then (w.1, w.2 ++ x.2) :: y else w :: r

theorem joinWrites_eq (ws : List (Nat × List Byte)) :
    joinWrites ws = (sortBy (fun (a b : Nat × List Byte) => decide (a.1 < b.1)) ws).foldr joinWrite [] := rfl

/-- What holds of each write, and of adjacent ones together if of each, holds of the joined ones. -/
theorem joinWrites_forall {P : Nat × List Byte → Prop} (hjoin : ∀ a x y, P (a, x) → P (a + x.length, y) → P (a, x ++ y)) {ws : List (Nat × List Byte)}
    (h : ∀ w ∈ ws, P w) : ∀ j ∈ joinWrites ws, P j := by
  rw [joinWrites_eq]
  have hs : ∀ w ∈ sortBy (fun (a b : Nat × List Byte) => decide (a.1 < b.1)) ws, P w := fun w hw => h w ((mem_sortBy _ _ _).1 hw)
  generalize sortBy (fun (a b : Nat × List Byte) => decide (a.1 < b.1)) ws = l at hs
  induction l with
  | nil => simp
  | cons w l ih =>
    have ih := ih (fun x hx => hs x (List.mem_cons_of_mem _ hx))
    have hw := hs w List.mem_cons_self
    rw [List.foldr_cons]
    cases hr : l.foldr joinWrite [] with
    | nil => simpa [joinWrite] using hw
    | cons x y =>
      rw [hr] at ih
      unfold joinWrite
      dsimp only
      split
      · next he =>
        rw [beq_iff_eq] at he
        have hx := ih x List.mem_cons_self
        rw [show x = (w.1 + w.2.length, x.2) from Prod.ext he.symm rfl] at hx
        intro j hj
        rcases List.mem_cons.1 hj with rfl | hj
        · exact hjoin w.1 w.2 x.2 hw hx
        · exact ih j (List.mem_cons_of_mem _ hj)
      · intro j hj
        rcases List.mem_cons.1 hj with rfl | hj
        · exact hw
        · exact ih j hj

/-- The joined writes reach every offset that the writes reach. -/
theorem joinWrites_covers {ws : List (Nat × List Byte)} {o : Nat} (h : ∃ w ∈ ws, Covers w o) : ∃ j ∈ joinWrites ws, Covers j o := by
  rw [joinWrites_eq]
  have hs : ∃ w ∈ sortBy (fun (a b : Nat × List Byte) => decide (a.1 < b.1)) ws, Covers w o := by
    obtain ⟨w, hw, hc⟩ := h
    exact ⟨w, (mem_sortBy _ _ _).2 hw, hc⟩
  generalize sortBy (fun (a b : Nat × List Byte) => decide (a.1 < b.1)) ws = l at hs
  induction l with
  | nil => simp at hs
  | cons w l ih =>
    rw [List.foldr_cons]
    simp only [List.mem_cons, exists_eq_or_imp] at hs
    cases hr : l.foldr joinWrite [] with
    | nil =>
      rcases hs with hs | hs
      · exact ⟨w, by simp [joinWrite], hs⟩
      · obtain ⟨j, hj, -⟩ := ih hs
        simp [hr] at hj
    | cons x y =>
      rw [hr] at ih
      unfold joinWrite
      dsimp only
      split
      · next he =>
        rw [beq_iff_eq] at he
        have hsub {j : Nat × List Byte} (hj : j = w ∨ j = x) (hc : Covers j o) : Covers (w.1, w.2 ++ x.2) o := by
          rcases hj with rfl | rfl <;> simp only [Covers, List.length_append] at hc ⊢ <;> omega
        rcases hs with hs | hs
        · exact ⟨_, List.mem_cons_self, hsub (.inl rfl) hs⟩
        · obtain ⟨j, hj, hc⟩ := ih hs
          rcases List.mem_cons.1 hj with rfl | hj
          · exact ⟨_, List.mem_cons_self, hsub (.inr rfl) hc⟩
          · exact ⟨j, List.mem_cons_of_mem _ hj, hc⟩
      · rcases hs with hs | hs
        · exact ⟨w, List.mem_cons_self, hs⟩
        · obtain ⟨j, hj, hc⟩ := ih hs
          exact ⟨j, List.mem_cons_of_mem _ hj, hc⟩

theorem joinWrites_single (w : Nat × List Byte) : joinWrites [w] = [w] := rfl

/-! ### Poison under a write (R476) -/

theorem eccSize_pos (pa : Nat) : 0 < eccSize pa := by unfold eccSize; split <;> omega

/-- A range whose two parts meet no poisoned unit in part meets none in part. -/
theorem State.partPoison_append {s : State} {pa n m : Nat} (h1 : s.partPoison pa n = false) (h2 : s.partPoison (pa + n) m = false) :
    s.partPoison pa (n + m) = false := by
  simp only [State.partPoison, List.any_eq_false, Bool.and_eq_true, decide_eq_true_eq, Bool.not_eq_true', Bool.and_eq_false_iff, decide_eq_false_iff_not,
    not_and, not_or, not_not] at h1 h2 ⊢
  intro u hu hlt
  have hpos := eccSize_pos u
  have h1 := h1 u hu
  have h2 := h2 u hu
  omega

/-! ### Stores into a region without active mirrors (R53, R70, R330) -/

/-- No mirror of w's region is active. -/
def NoMirror (s : State) (w : UnitSt) : Prop := ∀ b ∈ s.subs, b.unit = w.key → b.active = false

theorem NoMirror.clear {s : State} {w : UnitSt} (h : NoMirror s w) (off n : Nat) : clearOfMirrors s w off n = true := by
  unfold clearOfMirrors
  rw [Bool.not_eq_true', List.any_eq_false]
  intro b hb hc
  simp only [Bool.and_eq_true, beq_iff_eq] at hc
  simp [h b hb hc.1.1] at hc

theorem NoMirror.part {s : State} {w : UnitSt} (h : NoMirror s w) (off : Nat) (bs : List Byte) : mirrorPart s w off bs = [] := by
  unfold mirrorPart
  rw [List.filter_eq_nil_iff.2, List.map_nil]
  intro b hb hc
  simp only [Bool.and_eq_true, beq_iff_eq] at hc
  simp [h b hb hc.1.1] at hc

theorem HomeEffect.noMirror {s t : State} {w : UnitSt} (ht : HomeEffect s t) (h : NoMirror s w) : NoMirror t w := by
  unfold NoMirror
  rw [ht.cache.subs]
  exact h

theorem writePantry_effect (v : UnitSt) (bs : List Byte) : ∀ (s : State) (off : Nat), HomeEffect s (writePantry s v off bs) := by
  induction bs with
  | nil => intro s off; exact .refl s
  | cons b bs ih =>
    intro s off
    refine HomeEffect.trans ?_ (ih _ _)
    split
    · exact ⟨rfl, rfl⟩
    · exact .refl s

theorem writePantry_memWf (v : UnitSt) (bs : List Byte) : ∀ (s : State) (off : Nat), s.memWf = true → (writePantry s v off bs).memWf = true := by
  induction bs with
  | nil => intro s off h; exact h
  | cons b bs ih =>
    intro s off h
    refine ih _ _ ?_
    split
    · exact State.setByte_memWf _ _ _ h
    · exact h

theorem writePantry_other (v : UnitSt) (bs : List Byte) : ∀ (s : State) (off p : Nat), s.memWf = true →
    (p < v.pantryPa off ∨ v.pantryPa off + bs.length ≤ p) → (writePantry s v off bs).byteAt p = s.byteAt p := by
  induction bs with
  | nil => intro s off p _ _; rfl
  | cons b bs ih =>
    intro s off p hwf hp
    simp only [List.length_cons, UnitSt.pantryPa] at hp
    unfold writePantry
    dsimp only
    split
    · rw [ih _ (off + 1) p (State.setByte_memWf _ _ _ hwf) (by simp only [UnitSt.pantryPa]; omega),
        State.byteAt_setByte_other _ _ _ _ hwf (by simp only [UnitSt.pantryPa]; omega)]
    · exact ih _ (off + 1) p hwf (by simp only [UnitSt.pantryPa]; omega)

theorem writePantry_same (v : UnitSt) (bs : List Byte) : ∀ (s : State) (off i : Nat) (hi : i < bs.length), s.memWf = true → NoMirror s v →
    (writePantry s v off bs).byteAt (v.pantryPa (off + i)) = { v := bs[i] } := by
  induction bs with
  | nil => intro s off i hi; simp at hi
  | cons b bs ih =>
    intro s off i hi hwf hno
    unfold writePantry
    dsimp only
    rw [if_pos (hno.clear off 1)]
    cases i with
    | zero =>
      rw [writePantry_other _ _ _ _ _ (State.setByte_memWf _ _ _ hwf) (by simp only [UnitSt.pantryPa]; omega), Nat.add_zero, State.byteAt_setByte_same _ _ _ hwf]
      rfl
    | succ i =>
      have h := ih (s.setByte (v.pantryPa off) { v := b }) (off + 1) i (by simpa using hi) (State.setByte_memWf _ _ _ hwf) hno
      rw [show off + 1 + i = off + (i + 1) by omega] at h
      exact h

/-- One write of a store, with the marks that it clears and the waits that it wakes. -/
def storeOne (v : UnitSt) (t : State) (w : Nat × List Byte) : State :=
  let t := if clearOfMirrors t v w.1 w.2.length then t.clearPoison (v.pantryPa w.1) w.2.length else t
  noteWrite (writePantry t v w.1 w.2) (v.pantryPa w.1) w.2.length

theorem storeOne_effect (v : UnitSt) (t : State) (w : Nat × List Byte) : HomeEffect t (storeOne v t w) := by
  unfold storeOne
  refine HomeEffect.trans ?_ ((writePantry_effect _ _ _ _).trans (noteWrite_effect _ _ _))
  split
  · exact ⟨rfl, rfl⟩
  · exact .refl t

theorem storeOne_byteAt (v : UnitSt) (t : State) (w : Nat × List Byte) (p : Nat) (hno : NoMirror t v) :
    (storeOne v t w).byteAt p = (writePantry (t.clearPoison (v.pantryPa w.1) w.2.length) v w.1 w.2).byteAt p := by
  unfold storeOne
  rw [if_pos (hno.clear _ _)]
  rfl

theorem storeOne_memWf (v : UnitSt) (t : State) (w : Nat × List Byte) (h : t.memWf = true) : (storeOne v t w).memWf = true := by
  unfold storeOne
  have hw : ∀ x : State, x.memWf = true → (noteWrite (writePantry x v w.1 w.2) (v.pantryPa w.1) w.2.length).memWf = true :=
    fun x hx => writePantry_memWf v w.2 x w.1 hx
  dsimp only
  split
  · exact hw _ h
  · exact hw _ h

/-- A store whose checks pass makes its joined writes in order. -/
theorem pantryStore_ok {s : State} {u v : UnitSt} {ws : List (Nat × List Byte)} (hno : NoMirror s v) (hq : s.queuedMatrix u = false)
    (hp : ∀ w ∈ ws, s.partPoison (v.pantryPa w.1) w.2.length = false) :
    pantryStore s u v false ws = .ok ((joinWrites ws).foldl (storeOne v) s) := by
  have hparts (l : List (Nat × List Byte)) : l.flatMap (fun w => mirrorPart s v w.1 w.2) = [] :=
    List.flatMap_eq_nil_iff.2 fun w _ => hno.part _ _
  have hmq : (s.pairOf u.pair).mq.filter (fun c => c.unit == u.key) = [] :=
    List.filter_eq_nil_iff.2 fun c hc he => List.any_eq_false.1 hq c hc he
  have hholds : ws.any (fun w => matrixHolds s u true (v.pantryPa w.1) w.2.length) = false :=
    List.any_eq_false.2 fun w _ => by simp [matrixHolds, hmq]
  have hjoin : (joinWrites ws).find? (fun w => s.partPoison (v.pantryPa w.1) w.2.length) = none := by
    rw [List.find?_eq_none]
    intro j hj
    rw [Bool.not_eq_true]
    refine joinWrites_forall (P := fun w => s.partPoison (v.pantryPa w.1) w.2.length = false) (fun a x y hx hy => ?_) hp j hj
    rw [List.length_append]
    exact State.partPoison_append hx (by rw [← hy]; simp only [UnitSt.pantryPa, Nat.add_assoc])
  unfold pantryStore
  simp only [hparts, hholds, hjoin, mirrorRefused, List.find?_nil, List.flatMap_nil, writeHome, Bool.not_false, if_true, need]
  rfl

/-- What a store leaves: of the caches what a home effect leaves, its bytes at their places, every other byte as before. -/
structure StoreLeaves (s t : State) (v : UnitSt) (ws : List (Nat × List Byte)) : Prop where
  effect : HomeEffect s t
  bytes : ∀ (o : Nat) (b : Byte), (∀ w ∈ ws, ∀ i (h : i < w.2.length), w.1 + i = o → w.2[i] = b) → (∃ w ∈ ws, Covers w o) →
    t.byteAt (v.pantryPa o) = { v := b }
  others : ∀ p, (∀ w ∈ ws, p < v.pantryPa w.1 ∨ v.pantryPa w.1 + w.2.length ≤ p) → t.byteAt p = s.byteAt p

theorem storeAll_leaves {s : State} {v : UnitSt} {ws : List (Nat × List Byte)} (hno : NoMirror s v) (hwf : s.memWf = true) :
    StoreLeaves s ((joinWrites ws).foldl (storeOne v) s) v ws := by
  have hinv : ∀ w ∈ joinWrites ws, ∀ t : State, NoMirror t v ∧ t.memWf = true → NoMirror (storeOne v t w) v ∧ (storeOne v t w).memWf = true :=
    fun w _ t ht => ⟨(storeOne_effect v t w).noMirror ht.1, storeOne_memWf v t w ht.2⟩
  have hsame (w : Nat × List Byte) (t : State) (ht : NoMirror t v ∧ t.memWf = true) (p : Nat) (hp : p < v.pantryPa w.1 ∨ v.pantryPa w.1 + w.2.length ≤ p) :
      (storeOne v t w).byteAt p = t.byteAt p := by
    rw [storeOne_byteAt _ _ _ _ ht.1, writePantry_other v w.2 (t.clearPoison (v.pantryPa w.1) w.2.length) w.1 p ht.2 hp]
    rfl
  refine ⟨HomeEffect.foldl (storeOne_effect v) _ s, fun o b hval ho => ?_, fun p hp => ?_⟩
  · have hjoined : ∀ j ∈ joinWrites ws, ∀ i (h : i < j.2.length), j.1 + i = o → j.2[i] = b := by
      refine joinWrites_forall (P := fun j => ∀ i (h : i < j.2.length), j.1 + i = o → j.2[i] = b) (fun a x y hx hy i hi ho => ?_) hval
      rw [List.getElem_append]
      dsimp only at ho hi
      rw [List.length_append] at hi
      split
      · exact hx i _ ho
      · exact hy _ _ (by dsimp only; omega)
    have hwrites (w : Nat × List Byte) (hw : w ∈ joinWrites ws) (hc : Covers w o) (t : State) (ht : NoMirror t v ∧ t.memWf = true) :
        (storeOne v t w).byteAt (v.pantryPa o) = { v := b } := by
      obtain ⟨hlo, hhi⟩ := hc
      have h := writePantry_same v w.2 (t.clearPoison (v.pantryPa w.1) w.2.length) w.1 (o - w.1) (by omega) ht.2 ht.1
      rw [hjoined w hw _ _ (by omega), show w.1 + (o - w.1) = o by omega] at h
      rw [storeOne_byteAt _ _ _ _ ht.1, h]
    obtain ⟨j, hj, hc⟩ := joinWrites_covers ho
    refine foldl_brings _ (fun t => t.byteAt (v.pantryPa o) = { v := b }) _ hj hinv (hwrites j hj hc) (fun w hw t ht hb => ?_) ⟨hno, hwf⟩
    by_cases hcw : Covers w o
    · exact hwrites w hw hcw t ht
    · rw [hsame w t ht _ (by simp only [Covers, UnitSt.pantryPa] at hcw ⊢; omega), hb]
  · have hjoined : ∀ j ∈ joinWrites ws, p < v.pantryPa j.1 ∨ v.pantryPa j.1 + j.2.length ≤ p :=
      joinWrites_forall (P := fun j => p < v.pantryPa j.1 ∨ v.pantryPa j.1 + j.2.length ≤ p)
        (fun a x y hx hy => by simp only [UnitSt.pantryPa, List.length_append] at hx hy ⊢; omega) hp
    exact (foldl_keeps_mem (f := storeOne v) (fun t => (NoMirror t v ∧ t.memWf = true) ∧ t.byteAt p = s.byteAt p) _
      (fun w hw t ht => ⟨hinv w hw t ht.1, (hsame w t ht.1 p (hjoined w hw)).trans ht.2⟩) ⟨⟨hno, hwf⟩, rfl⟩).2

end Sys2Proof.Machine
end

section
/-!
VST, VSTX, PFILL and PMARK (R60, R330 to R334).
-/

namespace Sys2Proof.Machine

/-! ### Checks that pass -/

theorem need_true {b : Bool} (e : Stop) (h : b = true) : need b e = .ok () := by simp [need, h]

theorem vregCheck_ok {u : UnitSt} {mat : Bool} {l : List (BitVec 6)} (h : ∀ i ∈ l, vregOk u i.toNat = true) : vregCheck u mat l = .ok () := by
  have hnone : l.find? (fun i => !vregOk u i.toNat) = none := List.find?_eq_none.2 fun i hi => by simp [h i hi]
  simp only [vregCheck, hnone]

theorem vtag_ok {u : UnitSt} {i : BitVec 6} {t pos : Nat} {ok : Nat → Bool} (ht : (u.v i).tag.toNat = t) (h15 : t ≠ 15) (hok : ok t = true) :
    vtag u pos i ok = .ok t := by
  simp [vtag, tagCheck, ht, h15, hok]

theorem emptyCheck_ok {u : UnitSt} {mat : Bool} {l : List (BitVec 6 × Bool)} (h : ∀ r ∈ l, (u.v r.1).empty = false) : emptyCheck u mat l = .ok () := by
  have hnil : l.filter (fun r => (u.v r.1).empty) = [] := List.filter_eq_nil_iff.2 fun r hr => by simp [h r hr]
  simp [emptyCheck, hnil]

theorem poisonCheck_ok {u : UnitSt} {mat : Bool} {vs ss : List (BitVec 6)} (hs : u.ctx.spoison = []) (h : ∀ i ∈ vs, (u.v i).poison = 0) :
    poisonCheck u mat vs ss = .ok () := by
  refine need_true _ ?_
  rw [Bool.and_eq_true, List.all_eq_true, List.all_eq_true]
  exact ⟨fun i hi => by simp [h i hi], fun i _ => by simp [hs]⟩

theorem alignedAddr_ok {s : State} {u w : UnitSt} {f : D64} {k : BitVec 6} {A n : Nat} (h : Names s u f k A w) (hA : A % n = 0) :
    alignedAddr u (u.sreg f.va) f.x16.toNat k n = .ok A := by
  have hn := need_true (dstop u false tcMisalign A) (beq_iff_eq.2 hA)
  simp only [alignedAddr, h.1, bind, Except.bind, hn]
  rfl

theorem resolve_ok {s : State} {u w : UnitSt} {f : D64} {k : BitVec 6} {A n : Nat} (h : Names s u f k A w) (hn : A % 2 ^ 20 + n ≤ w.regionBytes) :
    resolve s u false A n = .ok (w, A % 2 ^ 20) := by
  simp only [resolve, h.2.1, if_neg hn.not_gt]

/-! ### How a store and a read end -/

theorem selectNext_putUnit (s : State) (x v : UnitSt) (nas : BitVec 2) : selectNext (s.putUnit x) v nas = selectNext s v nas := rfl

/-- The unit of a data instruction once it has completed in t, from w, by an update of its own. -/
def dataEnd (t : State) (w : UnitSt) (f : D64) (upd : UnitSt → UnitSt) : State :=
  t.putUnit ((selectNext t (upd (markRead f w)) f.nas).stamped t.cycle)

theorem dataEnd_findUnit {s t : State} {u w : UnitSt} {f : D64} {upd : UnitSt → UnitSt} (hw : t.findUnit u.key = some w) (hcycle : t.cycle = s.cycle)
    (hupd : (upd (markRead f w)).key = u.key) :
    (dataEnd t w f upd).findUnit u.key = some ((selectNext (dataEnd t w f upd) (upd (markRead f w)) f.nas).stamped s.cycle) := by
  have hkey : ((selectNext t (upd (markRead f w)) f.nas).stamped t.cycle).key = u.key := (selectNext_keeps t _ f.nas).1.trans hupd
  have h := State.putUnit_findUnit_same t ((selectNext t (upd (markRead f w)) f.nas).stamped t.cycle) w (by rw [hkey]; exact hw)
  rw [hkey] at h
  rw [← hcycle]
  exact h

/-- A data instruction whose effect leaves state t completes there. -/
theorem dataOp_ends {s t : State} {u w : UnitSt} {f : D64} {g : State → UnitSt → Except Stop Eff} {upd : UnitSt → UnitSt} {i : Instr}
    {P : State → UnitSt → Prop} (h : DatAt s u) (hi : exec i s = dataOp f g s) (hg : g s u = .ok { st := t, upd := upd }) (hw : t.findUnit u.key = some w)
    (hcycle : t.cycle = s.cycle) (hupd : (upd (markRead f w)).key = u.key) (hP : P (dataEnd t w f upd) (upd (markRead f w))) : DataEnds s u i f.nas P :=
  ⟨dataEnd t w f upd, upd (markRead f w), hi.trans (dataOp_ok h hg (by rw [hw]; rfl)), dataEnd_findUnit hw hcycle hupd, hupd, hP⟩

theorem UnitSt.settled_fpflags {u v : UnitSt} (h : v.settled = u.settled) : v.ctx.ctl.fpflags = u.ctx.ctl.fpflags :=
  (congrArg (fun x : UnitSt => x.ctx.ctl.fpflags) h :)

theorem lastRead_congr {u w : UnitSt} (h : w.ctx.dat = u.ctx.dat) (f : D64) (i : BitVec 6) : lastRead w f i = lastRead u f i := by
  simp only [lastRead, UnitSt.v, h]

/-- The registers of a unit after an instruction that writes none. -/
theorem sameRegisters_markRead {u w : UnitSt} (hdat : w.ctx.dat = u.ctx.dat) (hfp : w.ctx.ctl.fpflags = u.ctx.ctl.fpflags) (hc : w.ctx.ctl.c = u.ctx.ctl.c)
    (f : D64) : SameRegisters u (markRead f w) f [] := by
  obtain ⟨hctl, -, -, hd⟩ := markRead_ctx_rest f w
  refine ⟨fun i _ => (markRead_v f w i).trans (lastRead_congr hdat f i), ?_, ?_, ?_, ?_⟩
  · rw [hd, hdat]
  · rw [hd, hdat]
  · rw [hctl, hfp]
  · rw [hctl, hc]

/-- An instruction that only stores completes: its registers stay, and of memory stands what the store has left. -/
theorem dataOp_stores {s t : State} {u : UnitSt} {f : D64} {g : State → UnitSt → Except Stop Eff} {i : Instr} {P : State → Prop} (h : DatAt s u)
    (hi : exec i s = dataOp f g s) (hg : g s u = .ok { st := t, upd := id }) (ht : HomeEffect s t)
    (hP : ∀ y : State, (∀ p, y.byteAt p = t.byteAt p) → P y) : DataEnds s u i f.nas (fun y v => SameRegisters u v f [] ∧ P y) := by
  obtain ⟨w, hw, hset⟩ := State.findUnit_of_settled ht.1 h.find
  refine dataOp_ends h hi hg hw ht.cache.cycle ((markRead_key f w).trans (UnitSt.key_of_settled hset)) ⟨?_, hP _ fun p => rfl⟩
  exact sameRegisters_markRead (UnitSt.settled_dat hset) (UnitSt.settled_fpflags hset) (UnitSt.settled_c hset) f

/-! ### Lanes that are stored -/

/-- The write of lane k. -/
def laneWrite (off x : Nat → Nat) (k : Nat) : Nat × List Byte := (off k, leBytes 4 (x k))

/-- k is the highest active lane of its address. -/
def LastAt (act : Nat → Bool) (off : Nat → Nat) (k : Nat) : Prop := ∀ l < 128, k < l → act l = true → off l ≠ off k

theorem laneWrite_bytes {off x : Nat → Nat} {k l j i : Nat} (hj : j < 4) (hi : i < (laneWrite off x l).2.length) (hk : off k % 4 = 0) (hl : off l % 4 = 0)
    (ho : off l + i = off k + j) (heq : off l = off k → l = k) : (laneWrite off x l).2[i] = BitVec.ofNat 8 (x k / 256 ^ j) := by
  simp only [laneWrite, leBytes_length] at hi
  simp only [laneWrite, leBytes_getElem]
  obtain rfl := heq (by omega)
  rw [show i = j by omega]

/-- What a store of lanes leaves, where its writes are those of the active lanes that are the highest of their addresses. -/
theorem StoreLeaves.lanes {s t : State} {v : UnitSt} {ws : List (Nat × List Byte)} {act : Nat → Bool} {off x : Nat → Nat} (h : StoreLeaves s t v ws)
    (hws : ∀ w, w ∈ ws ↔ ∃ k < 128, act k = true ∧ LastAt act off k ∧ w = laneWrite off x k) (halign : ∀ k < 128, act k = true → off k % 4 = 0) :
    (∀ k < 128, act k = true → LastAt act off k → Stored t v (off k) 4 (x k)) ∧
    ∀ p, (∀ k < 128, act k = true → p < v.pantryPa (off k) ∨ v.pantryPa (off k) + 4 ≤ p) → t.byteAt p = s.byteAt p := by
  refine ⟨fun k hk hact hlast j hj => ?_, fun p hp => h.others p fun w hw => ?_⟩
  · have hpa : v.pantryPa (off k) + j = v.pantryPa (off k + j) := by simp only [UnitSt.pantryPa, Nat.add_assoc]
    rw [hpa]
    refine h.bytes _ _ (fun w hw i hi ho => ?_) ⟨laneWrite off x k, (hws _).2 ⟨k, hk, hact, hlast, rfl⟩, ?_⟩
    · obtain ⟨l, hl, hactl, hlastl, rfl⟩ := (hws w).1 hw
      refine laneWrite_bytes hj hi (halign k hk hact) (halign l hl hactl) ho fun he => ?_
      rcases Nat.lt_trichotomy l k with hlt | heq | hgt
      · exact absurd he.symm (hlastl k hk hlt hact)
      · exact heq
      · exact absurd he (hlast l hl hgt hactl)
    · simp only [Covers, laneWrite, leBytes_length]
      omega
  · obtain ⟨k, hk, hact, -, rfl⟩ := (hws w).1 hw
    simpa only [laneWrite, leBytes_length] using hp k hk hact

theorem mem_activeLanes {t : Nat} {em : Mask} {k : Nat} : k ∈ activeLanes t em ↔ k < 128 ∧ laneActive t em k = true := by
  simp [activeLanes, mem_range]

theorem activeLanes_sorted (t : Nat) (em : Mask) : (activeLanes t em).Pairwise (· < ·) := by
  unfold activeLanes
  rw [range_zero_eq]
  exact List.pairwise_lt_range.filter _

theorem laneExtent_le {ls : List Nat} {n : Nat} (h : ∀ i ∈ ls, 4 * i + 4 ≤ n) : laneExtent ls ≤ n := by
  refine foldl_keeps_mem (fun m => m ≤ n) (ls.map (fun i => 4 * i + 4)) (fun a ha b hb => ?_) (Nat.zero_le n)
  obtain ⟨i, hi, rfl⟩ := List.mem_map.1 ha
  exact max_le hb (h i hi)

/-- Of the writes of rising lanes those stay that no higher lane makes at the same address. -/
theorem mem_lastWins {g : Nat → Nat × List Byte} {l : List Nat} (hl : l.Pairwise (· < ·)) (w : Nat × List Byte) :
    w ∈ lastWins (l.map g) ↔ ∃ k ∈ l, (∀ m ∈ l, k < m → (g m).1 ≠ (g k).1) ∧ w = g k := by
  induction l with
  | nil => simp [lastWins]
  | cons a l ih =>
    obtain ⟨hlt, hl⟩ := List.pairwise_cons.1 hl
    have ih := ih hl
    have hhead : (∀ m ∈ a :: l, a < m → (g m).1 ≠ (g a).1) ↔ ¬ (l.map g).any (fun x => x.1 == (g a).1) = true := by
      rw [List.forall_mem_cons, and_iff_right fun h => absurd h (lt_irrefl a)]
      simp only [List.any_map, List.any_eq_true, Function.comp, beq_iff_eq, not_exists, not_and]
      exact forall₂_congr fun m hm => ⟨fun h => h (hlt m hm), fun h _ => h⟩
    have htail (k : Nat) (hk : k ∈ l) : (∀ m ∈ a :: l, k < m → (g m).1 ≠ (g k).1) ↔ ∀ m ∈ l, k < m → (g m).1 ≠ (g k).1 := by
      rw [List.forall_mem_cons]
      exact and_iff_right fun h => absurd h (hlt k hk).not_gt
    have hcons : (∃ k ∈ a :: l, (∀ m ∈ a :: l, k < m → (g m).1 ≠ (g k).1) ∧ w = g k) ↔
        (¬ (l.map g).any (fun x => x.1 == (g a).1) = true ∧ w = g a) ∨ w ∈ lastWins (l.map g) := by
      rw [List.exists_mem_cons_iff, hhead, ih]
      exact or_congr_right (exists_congr fun k => and_congr_right fun hk => and_congr_left fun _ => htail k hk)
    rw [hcons, List.map_cons, lastWins]
    split
    · next hany => simp [hany]
    · next hany => simp [hany]

/-! ### VST and VSTX (R330 to R332) -/

/-- The lanes of an instruction may be stored now. -/
def LanesMayWrite (s : State) (w : UnitSt) (act : Nat → Bool) (off : Nat → Nat) : Prop := ∀ k < 128, act k = true → off k % 4 = 0 ∧ MayWrite s w (off k) 4

/-- What a store of lanes gives. -/
def LanesStored (s y : State) (w : UnitSt) (act : Nat → Bool) (off x : Nat → Nat) : Prop :=
  (∀ k < 128, act k = true → LastAt act off k → Stored y w (off k) 4 (x k)) ∧
  ∀ p, (∀ k < 128, act k = true → p < w.pantryPa (off k) ∨ w.pantryPa (off k) + 4 ≤ p) → y.byteAt p = s.byteAt p

theorem LanesStored.congr {s y z : State} {w : UnitSt} {act : Nat → Bool} {off x : Nat → Nat} (h : LanesStored s y w act off x)
    (hz : ∀ p, z.byteAt p = y.byteAt p) : LanesStored s z w act off x :=
  ⟨fun k hk ha hl j hj => (hz _).trans (h.1 k hk ha hl j hj), fun p hp => (hz p).trans (h.2 p hp)⟩

theorem lanesStored_none (s : State) (w : UnitSt) {act : Nat → Bool} (off x : Nat → Nat) (h : ∀ k < 128, act k = false) : LanesStored s s w act off x :=
  ⟨fun k hk ha => by simp [h k hk] at ha, fun _ _ => rfl⟩

/-- The store of the lanes of one instruction, of equal addresses the highest lane's. -/
theorem pantryStore_lanes {s : State} {u w : UnitSt} {act : Nat → Bool} {off x : Nat → Nat} {ws : List (Nat × List Byte)} {k₀ : Nat} (hk₀ : k₀ < 128)
    (hact₀ : act k₀ = true) (hq : s.queuedMatrix u = false) (hwf : s.memWf = true) (hmay : LanesMayWrite s w act off)
    (hws : ∀ y, y ∈ ws ↔ ∃ k < 128, act k = true ∧ LastAt act off k ∧ y = laneWrite off x k) :
    ∃ t, pantryStore s u w false ws = .ok t ∧ HomeEffect s t ∧ LanesStored s t w act off x := by
  have hno : NoMirror s w := (hmay k₀ hk₀ hact₀).2.2.2
  have hleaves := storeAll_leaves (ws := ws) hno hwf
  refine ⟨_, pantryStore_ok hno hq fun y hy => ?_, hleaves.effect, hleaves.lanes hws fun k hk ha => (hmay k hk ha).1⟩
  obtain ⟨k, hk, ha, -, rfl⟩ := (hws y).1 hy
  rw [laneWrite, leBytes_length]
  exact (hmay k hk ha).2.2.1

theorem vst_stores {f : D64} {s : State} {u w : UnitSt} {A t : Nat} (h : DatAt s u) (hsp : u.ctx.spoison = []) (hq : s.queuedMatrix u = false)
    (hA : A % 4 = 0) (ht : t ≤ 13) (hsrc : Source u f.vb t) (hname : Names s u f f.vc A w) (hwf : s.memWf = true)
    (hmay : LanesMayWrite s w (laneActive t (effMask u f)) (fun k => A % 2 ^ 20 + 4 * k)) :
    DataEnds s u (.vst f) f.nas (fun y v => SameRegisters u v f [] ∧
      LanesStored s y w (laneActive t (effMask u f)) (fun k => A % 2 ^ 20 + 4 * k) (fun k => u.lane f.vb k)) := by
  obtain ⟨hreg, htag, hfull, hgood⟩ := hsrc
  have hv : vregCheck u false [f.vb] = .ok () := vregCheck_ok (by simpa using hreg)
  have hvt : vtag u 1 f.vb anyTag = .ok t := vtag_ok htag (by omega) (by simpa [anyTag] using ht)
  have he : emptyCheck u false [(f.vb, f.fb)] = .ok () := emptyCheck_ok (by simpa using hfull)
  have hp : poisonCheck u false [f.vb] [f.va] = .ok () := poisonCheck_ok hsp (by simpa using hgood)
  by_cases hls : activeLanes t (effMask u f) = []
  · refine dataOp_stores (t := s) h (show exec (.vst f) s = execVst f s from rfl) ?_ (.refl s) fun y hy => (lanesStored_none s w _ _ fun k hk => ?_).congr hy
    · simp only [hv, hvt, hls, he, bind, Except.bind, List.isEmpty_nil, if_true]
      rfl
    · by_contra hn
      have : k ∈ activeLanes t (effMask u f) := mem_activeLanes.2 ⟨hk, by simpa using hn⟩
      simp [hls] at this
  · obtain ⟨k₀, hk₀⟩ := List.exists_mem_of_ne_nil _ hls
    obtain ⟨hlt₀, hact₀⟩ := mem_activeLanes.1 hk₀
    have hext : A % 2 ^ 20 + laneExtent (activeLanes t (effMask u f)) ≤ w.regionBytes := by
      have hle := laneExtent_le (ls := activeLanes t (effMask u f)) (n := w.regionBytes - A % 2 ^ 20) fun i hi => by
        obtain ⟨hi, ha⟩ := mem_activeLanes.1 hi
        have := (hmay i hi ha).2.1
        dsimp only at this
        omega
      have := (hmay k₀ hlt₀ hact₀).2.1
      dsimp only at this
      omega
    obtain ⟨t', hstore, heff, hlanes⟩ := pantryStore_lanes (x := fun k => u.lane f.vb k)
      (ws := (activeLanes t (effMask u f)).map (fun i => (A % 2 ^ 20 + 4 * i, leBytes 4 (elem (u.v f.vb).val 0 i)))) hlt₀ hact₀ hq hwf hmay fun y => by
        simp only [List.mem_map, mem_activeLanes]
        constructor
        · rintro ⟨k, ⟨hk, ha⟩, rfl⟩
          exact ⟨k, hk, ha, fun l _ hlt _ => by dsimp only; omega, rfl⟩
        · rintro ⟨k, hk, ha, -, rfl⟩
          exact ⟨k, ⟨hk, ha⟩, rfl⟩
    refine dataOp_stores h (show exec (.vst f) s = execVst f s from rfl) ?_ heff fun y hy => hlanes.congr hy
    have hne : (activeLanes t (effMask u f)).isEmpty = false := by simpa using hls
    simp only [hv, hvt, he, hp, hne, alignedAddr_ok hname hA, resolve_ok hname hext, hstore, bind, Except.bind, Bool.false_eq_true, if_false]
    rfl

theorem indexed_ok {s : State} {u w : UnitSt} {f : D64} {A : Nat} {ls : List Nat} (hname : Names s u f 0 A w) (hA : A % 4 = 0) (hne : ls ≠ [])
    (hlanes : ∀ k ∈ ls, u.lane f.vb k % 4 = 0 ∧ A % 2 ^ 20 + u.lane f.vb k + 4 ≤ w.regionBytes) :
    indexed s u f ls = .ok (w, ls.map (fun k => A % 2 ^ 20 + u.lane f.vb k)) := by
  obtain ⟨k₀, hk₀⟩ := List.exists_mem_of_ne_nil _ hne
  have hres : resolve s u false A 0 = .ok (w, A % 2 ^ 20) := resolve_ok hname (by have := (hlanes k₀ hk₀).2; omega)
  have halign : (A % 4 == 0 && (ls.map (fun i => elem (u.v f.vb).val 0 i)).all (fun x => x % 4 == 0)) = true := by
    rw [Bool.and_eq_true, List.all_map, List.all_eq_true]
    exact ⟨beq_iff_eq.2 hA, fun k hk => beq_iff_eq.2 (hlanes k hk).1⟩
  have hrange : (ls.map (fun i => elem (u.v f.vb).val 0 i)).all (fun x => decide (A % 2 ^ 20 + x + 4 ≤ w.regionBytes)) = true := by
    rw [List.all_map, List.all_eq_true]
    exact fun k hk => decide_eq_true (hlanes k hk).2
  simp only [indexed, hname.1, hres, need_true _ halign, need_true _ hrange, bind, Except.bind, pure, Except.pure, List.map_map]
  rfl

theorem vstx_stores {f : D64} {s : State} {u w : UnitSt} {A t tb : Nat} (h : DatAt s u) (hsp : u.ctx.spoison = []) (hq : s.queuedMatrix u = false)
    (hA : A % 4 = 0) (ht : t ≤ 13) (htb : tb = 0 ∨ tb = 8) (hb : Source u f.vb tb) (hc : Source u f.vc t) (hname : Names s u f 0 A w) (hwf : s.memWf = true)
    (hmay : LanesMayWrite s w (fun k => (effMask u f).getLsbD k) (fun k => A % 2 ^ 20 + u.lane f.vb k)) :
    DataEnds s u (.vstx f) f.nas (fun y v => SameRegisters u v f [] ∧
      LanesStored s y w (fun k => (effMask u f).getLsbD k) (fun k => A % 2 ^ 20 + u.lane f.vb k) (fun k => u.lane f.vc k)) := by
  obtain ⟨hbreg, hbtag, hbfull, hbgood⟩ := hb
  obtain ⟨hcreg, hctag, hcfull, hcgood⟩ := hc
  have hv : vregCheck u false [f.vb, f.vc] = .ok () := vregCheck_ok (by simp [hbreg, hcreg])
  have hvb : vtag u 1 f.vb (fun t => t == 0 || t == 8) = .ok tb := vtag_ok hbtag (by omega) (by simpa using htb)
  have hvc : vtag u 2 f.vc anyTag = .ok t := vtag_ok hctag (by omega) (by simpa [anyTag] using ht)
  have heb : emptyCheck u false [(f.vb, f.fb)] = .ok () := emptyCheck_ok (by simpa using hbfull)
  have hec : emptyCheck u false [(f.vc, false)] = .ok () := emptyCheck_ok (by simpa using hcfull)
  have hp : poisonCheck u false [f.vb, f.vc] [f.va] = .ok () := poisonCheck_ok hsp (by simp [hbgood, hcgood])
  by_cases hls : activeLanes 0 (effMask u f) = []
  · refine dataOp_stores (t := s) h (show exec (.vstx f) s = execVstx f s from rfl) ?_ (.refl s) fun y hy =>
      (lanesStored_none s w _ _ fun k hk => ?_).congr hy
    · simp only [hv, hvb, hvc, hls, heb, hec, bind, Except.bind, List.isEmpty_nil, if_true]
      rfl
    · by_contra hn
      have : k ∈ activeLanes 0 (effMask u f) := mem_activeLanes.2 ⟨hk, Bool.not_eq_false _ ▸ hn⟩
      simp [hls] at this
  · obtain ⟨k₀, hk₀⟩ := List.exists_mem_of_ne_nil _ hls
    obtain ⟨hlt₀, hact₀⟩ := mem_activeLanes.1 hk₀
    have hindexed := indexed_ok hname hA hls fun k hk => by
      obtain ⟨hlt, hact⟩ := mem_activeLanes.1 hk
      obtain ⟨halign, hin, -⟩ := hmay k hlt hact
      dsimp only at halign hin
      omega
    obtain ⟨t', hstore, heff, hlanes⟩ := pantryStore_lanes (x := fun k => u.lane f.vc k)
      (ws := lastWins ((activeLanes 0 (effMask u f)).map (laneWrite (fun k => A % 2 ^ 20 + u.lane f.vb k) (fun k => u.lane f.vc k)))) hlt₀ hact₀ hq hwf hmay
      fun y => by
        rw [mem_lastWins (activeLanes_sorted _ _)]
        simp only [mem_activeLanes]
        constructor
        · rintro ⟨k, ⟨hk, ha⟩, hlast, rfl⟩
          exact ⟨k, hk, ha, fun l hl hlt hal => hlast l ⟨hl, hal⟩ hlt, rfl⟩
        · rintro ⟨k, hk, ha, hlast, rfl⟩
          exact ⟨k, ⟨hk, ha⟩, fun l hl hlt => hlast l hl.1 hlt hl.2, rfl⟩
    refine dataOp_stores h (show exec (.vstx f) s = execVstx f s from rfl) ?_ heff fun y hy => hlanes.congr hy
    have hne : (activeLanes 0 (effMask u f)).isEmpty = false := by simpa using hls
    have hzip (l : List Nat) : ((l.map (fun k => A % 2 ^ 20 + u.lane f.vb k)).zip l).map (fun x => (x.1, leBytes 4 (elem (u.v f.vc).val 0 x.2))) =
        l.map (laneWrite (fun k => A % 2 ^ 20 + u.lane f.vb k) (fun k => u.lane f.vc k)) := by
      induction l with
      | nil => rfl
      | cons k l ih => simp only [List.map_cons, List.zip_cons_cons, ih]; rfl
    simp only [hv, hvb, hvc, heb, hec, hp, hne, hindexed, hzip, hstore, bind, Except.bind, Bool.false_eq_true, if_false]
    rfl

/-! ### PFILL (R60, R334) -/

/-- The bytes of n words of one value. -/
def fillBytes (n x : Nat) : List Byte := ((range 0 n).map (fun _ => leBytes 4 x)).flatten

theorem fillBytes_length (n x : Nat) : (fillBytes n x).length = 4 * n := by
  simp [fillBytes, leBytes_length, range_length, Nat.mul_comm]

theorem fillBytes_succ (n x : Nat) : fillBytes (n + 1) x = leBytes 4 x ++ fillBytes n x := by
  simp [fillBytes, range_zero_eq, List.map_const', List.replicate_succ]

theorem fillBytes_getElem (n x : Nat) : ∀ i (hi : i < (fillBytes n x).length), (fillBytes n x)[i] = BitVec.ofNat 8 (x / 256 ^ (i % 4)) := by
  induction n with
  | zero => intro i hi; simp [fillBytes_length] at hi
  | succ n ih =>
    intro i hi
    simp only [fillBytes_succ, List.getElem_append, leBytes_length]
    split
    · rw [leBytes_getElem, Nat.mod_eq_of_lt ‹_›]
    · rw [ih, show (i - 4) % 4 = i % 4 by omega]

theorem pfill_stores {f : D64} {s : State} {u w : UnitSt} {A : Nat} (h : DatAt s u) (hsp : u.ctx.spoison = []) (hq : s.queuedMatrix u = false)
    (hma : u.ma ≠ 0) (hname : Names s u f 0 A w) (hA : A % 4 = 0) (hn : 0 < u.sreg f.vb) (hmax : u.sreg f.vb ≤ 262144)
    (hmay : MayWrite s w (A % 2 ^ 20) (4 * u.sreg f.vb)) (hwf : s.memWf = true) :
    DataEnds s u (.pfill f) f.nas (fun x v => SameRegisters u v f [] ∧ (∀ k < u.sreg f.vb, Stored x w (A % 2 ^ 20 + 4 * k) 4 (u.sreg f.vc)) ∧
        ∀ p, p < w.pantryPa (A % 2 ^ 20) ∨ w.pantryPa (A % 2 ^ 20) + 4 * u.sreg f.vb ≤ p → x.byteAt p = s.byteAt p) := by
  obtain ⟨hin, hpart, hno⟩ := hmay
  have hlen := fillBytes_length (u.sreg f.vb) (u.sreg f.vc)
  have hleaves := storeAll_leaves (ws := [(A % 2 ^ 20, fillBytes (u.sreg f.vb) (u.sreg f.vc))]) (v := w) hno hwf
  have hstore := pantryStore_ok (u := u) (ws := [(A % 2 ^ 20, fillBytes (u.sreg f.vb) (u.sreg f.vc))]) hno hq (by simpa [hlen] using hpart)
  refine dataOp_stores h (show exec (.pfill f) s = execPfill f s from rfl) ?_ hleaves.effect fun y hy => ⟨fun k hk j hj => ?_, fun p hp => ?_⟩
  · have hma' : (u.ma == 0) = false := by simpa using hma
    have hn' : (u.sreg f.vb == 0) = false := by simp; omega
    have hp : poisonCheck u false [] [f.va, f.vb, f.vc] = .ok () := poisonCheck_ok hsp (by simp)
    have hneed := need_true (dstop u false tcPantryRange A) (decide_eq_true hmax)
    rw [fillBytes] at hstore
    simp only [hma', hp, alignedAddr_ok hname hA, hn', hneed, resolve_ok hname hin, hstore, bind, Except.bind, Bool.false_eq_true, if_false]
    rfl
  · have hpa : w.pantryPa (A % 2 ^ 20 + 4 * k) + j = w.pantryPa (A % 2 ^ 20 + (4 * k + j)) := by simp only [UnitSt.pantryPa, Nat.add_assoc]
    rw [hpa, hy]
    refine hleaves.bytes _ _ (fun x hx i hi ho => ?_) ⟨_, List.mem_singleton_self _, ?_⟩
    · rw [List.mem_singleton] at hx
      subst hx
      rw [fillBytes_getElem, show i % 4 = j by dsimp only at ho; omega]
    · simp only [Covers, hlen]; omega
  · rw [hy]
    exact hleaves.others p (by simpa [hlen] using hp)

/-! ### PMARK (R60, R334) -/

/-- Between two units differ at most the line states of their region, with the account of early landings. -/
def SameButLines (u v : UnitSt) : Prop :=
  v = { u with ctx := { u.ctx with lines := v.ctx.lines, landed := v.ctx.landed, unread := v.ctx.unread, early := v.ctx.early } }

theorem SameButLines.refl (u : UnitSt) : SameButLines u u := rfl

theorem SameButLines.trans {u v w : UnitSt} (h1 : SameButLines u v) (h2 : SameButLines v w) : SameButLines u w := by
  unfold SameButLines at *
  rw [h2, h1]

theorem SameButLines.key {u v : UnitSt} (h : SameButLines u v) : v.key = u.key := by unfold SameButLines at h; rw [h]
theorem SameButLines.dat {u v : UnitSt} (h : SameButLines u v) : v.ctx.dat = u.ctx.dat := by unfold SameButLines at h; rw [h]
theorem SameButLines.ctl {u v : UnitSt} (h : SameButLines u v) : v.ctx.ctl = u.ctx.ctl := by unfold SameButLines at h; rw [h]

theorem setLine_same (l st : Nat) (v : UnitSt) : SameButLines v (v.setLine l st) := rfl

theorem setLine_lineState (a st : Nat) {v : UnitSt} (hwf : cellsWf 0 0 v.ctx.lines = true) (l : Nat) :
    (v.setLine a st).lineState l = if l = a then st else v.lineState l := by
  by_cases ha : l = a
  · rw [if_pos ha, ha]
    exact cellGet_cellPut_same 0 v.ctx.lines a st 0 hwf
  · rw [if_neg ha]
    exact cellGet_cellPut_other 0 v.ctx.lines a l st ha 0 hwf

theorem setLines_same (st : Nat) (ls : List Nat) (v : UnitSt) : SameButLines v (ls.foldl (fun v l => v.setLine l st) v) :=
  foldl_keeps (SameButLines v) (fun b l hb => hb.trans (setLine_same l st b)) ls (.refl v)

theorem setLines_wf (st : Nat) (ls : List Nat) {v : UnitSt} (h : cellsWf 0 0 v.ctx.lines = true) :
    cellsWf 0 0 (ls.foldl (fun v l => v.setLine l st) v).ctx.lines = true :=
  foldl_keeps (fun v : UnitSt => cellsWf 0 0 v.ctx.lines = true) (fun b l hb => cellPut_wf 0 b.ctx.lines l st 0 (Nat.zero_le l) hb) ls h

theorem setLines_lineState (st : Nat) (ls : List Nat) : ∀ v : UnitSt, cellsWf 0 0 v.ctx.lines = true → ∀ l,
    (ls.foldl (fun v l => v.setLine l st) v).lineState l = if l ∈ ls then st else v.lineState l := by
  induction ls with
  | nil => intro v _ l; rfl
  | cons a ls ih =>
    intro v hwf l
    rw [List.foldl_cons, ih (v.setLine a st) (cellPut_wf 0 v.ctx.lines a st 0 (Nat.zero_le a) hwf) l]
    rw [setLine_lineState a st hwf]
    by_cases hl : l ∈ ls <;> simp [hl]

theorem emptyLines_spec (ls : List Nat) (v : UnitSt) : SameButLines v (v.emptyLines ls) ∧
    (cellsWf 0 0 v.ctx.lines = true → ∀ l, (v.emptyLines ls).lineState l = if l ∈ ls then 1 else v.lineState l) := by
  have hspec (x : UnitSt) (hx : SameButLines v x) (hlines : x.ctx.lines = v.ctx.lines) : SameButLines v (ls.foldl (fun v l => v.setLine l 1) x) ∧
      (cellsWf 0 0 v.ctx.lines = true → ∀ l, (ls.foldl (fun v l => v.setLine l 1) x).lineState l = if l ∈ ls then 1 else v.lineState l) := by
    refine ⟨hx.trans (setLines_same 1 ls x), fun h l => ?_⟩
    rw [setLines_lineState 1 ls x (by rw [hlines]; exact h), UnitSt.lineState, UnitSt.lineState, hlines]
  unfold UnitSt.emptyLines
  dsimp only
  split
  · exact hspec v (.refl v) rfl
  · exact hspec _ rfl rfl

theorem markLines_spec (st : Nat) (ls : List Nat) (v : UnitSt) : SameButLines v (markLines st ls v) ∧
    (cellsWf 0 0 v.ctx.lines = true → ∀ l, (markLines st ls v).lineState l = if l ∈ ls then st else v.lineState l) := by
  unfold markLines
  split
  · next h => rw [beq_iff_eq] at h; subst h; exact emptyLines_spec ls v
  · exact ⟨setLines_same st ls v, setLines_lineState st ls v⟩

theorem State.findUnit_modUnit (s : State) (k k' : UKey) {f : UnitSt → UnitSt} (hf : ∀ u, (f u).key = u.key) :
    (s.modUnit k f).findUnit k' = (s.findUnit k').map (fun u => if u.key = k then f u else u) := by
  have hkey (u : UnitSt) : (if u.key = k then f u else u).key = u.key := by split <;> simp [hf]
  simp only [State.findUnit, State.modUnit, List.find?_map, Function.comp_def, hkey]

theorem selectNext_lines (s : State) (u : UnitSt) (nas : BitVec 2) : (selectNext s u nas).ctx.lines = u.ctx.lines := by
  unfold selectNext
  dsimp only
  split
  · rfl
  · split <;> rfl
  · rfl
  · rfl

theorem dataEnd_findUnit_other {t : State} {u w : UnitSt} {f : D64} {upd : UnitSt → UnitSt} (hupd : (upd (markRead f w)).key = u.key) {k : UKey}
    (hk : k ≠ u.key) : (dataEnd t w f upd).findUnit k = t.findUnit k := by
  refine State.putUnit_findUnit_other t _ k ?_
  rw [UnitSt.stamped_key, (selectNext_keeps t _ f.nas).1, hupd]
  exact hk

/-- What SameSlices compares of a unit. -/
theorem SameButLines.slices {x y : UnitSt} (h : SameButLines x y) : (y.place, y.ctx.ctl, y.ctx.dat, y.ctx.chute, y.ctx.dw, y.ctx.tiles) =
    (x.place, x.ctx.ctl, x.ctx.dat, x.ctx.chute, x.ctx.dw, x.ctx.tiles) := by
  unfold SameButLines at h
  rw [h]

theorem sameSlices_modUnit (s : State) (u : UnitSt) (k : UKey) {f : UnitSt → UnitSt} (hf : ∀ u, SameButLines u (f u)) : SameSlices s (s.modUnit k f) u := by
  intro k' _
  rw [State.findUnit_modUnit s k k' fun u => (hf u).key, Option.map_map]
  refine congrArg (Option.map · (s.findUnit k')) (funext fun x => ?_)
  simp only [Function.comp]
  split
  · exact (hf x).slices
  · rfl

theorem pmark_marks {f : D64} {s : State} {u w : UnitSt} {A : Nat} (h : DatAt s u) (hsp : u.ctx.spoison = []) (hma : u.ma ≠ 0)
    (hname : Names s u f f.vc A w) (hA : A % 128 = 0) (hn : 0 < u.sreg f.vb) (hmax : u.sreg f.vb ≤ 8192)
    (hin : A % 2 ^ 20 + 128 * u.sreg f.vb ≤ w.regionBytes) (hwf : cellsWf 0 0 w.ctx.lines = true) :
    DataEnds s u (.pmark f) f.nas (fun x v => SameMemory s x ∧ SameSlices s x u ∧ SameRegisters u v f [] ∧
        ∃ y, x.findUnit w.key = some y ∧ ∀ l, y.lineState l = if A % 2 ^ 20 / 128 ≤ l ∧ l < A % 2 ^ 20 / 128 + u.sreg f.vb then f.fn.toNat else w.lineState l) := by
  let mark := markLines f.fn.toNat (range (A % 2 ^ 20 / 128) (u.sreg f.vb))
  have hsame (v : UnitSt) : SameButLines v (mark v) := (markLines_spec _ _ v).1
  have hfind (k : UKey) := s.findUnit_modUnit w.key k fun v => (hsame v).key
  let u' := if u.key = w.key then mark u else u
  have hu' : SameButLines u u' := by
    unfold u'
    split
    · exact hsame u
    · exact .refl u
  have hfu : (s.modUnit w.key mark).findUnit u.key = some u' := by rw [hfind, h.find]; rfl
  have hend : (id (markRead f u')).key = u.key := (markRead_key f u').trans hu'.key
  have hmarked (l : Nat) : (mark w).lineState l = if A % 2 ^ 20 / 128 ≤ l ∧ l < A % 2 ^ 20 / 128 + u.sreg f.vb then f.fn.toNat else w.lineState l := by
    rw [(markLines_spec _ _ w).2 hwf l]
    simp only [mem_range]
  refine dataOp_ends (t := s.modUnit w.key mark) (upd := id) h (show exec (.pmark f) s = execPmark f s from rfl) ?_ hfu rfl hend
    ⟨⟨fun _ => rfl, rfl⟩, fun k hk => ?_, ?_, ?_⟩
  · have hma' : (u.ma == 0) = false := by simpa using hma
    have hn' : (u.sreg f.vb == 0) = false := by simp; omega
    have hp : poisonCheck u false [] [f.va, f.vb] = .ok () := poisonCheck_ok hsp (by simp)
    have hneed := need_true (dstop u false tcPantryRange A) (decide_eq_true hmax)
    simp only [hma', hp, alignedAddr_ok hname hA, hn', hneed, resolve_ok hname hin, bind, Except.bind, Bool.false_eq_true, if_false]
    rfl
  · rw [dataEnd_findUnit_other hend hk]
    exact sameSlices_modUnit s u w.key hsame k hk
  · exact sameRegisters_markRead hu'.dat (congrArg Ctl.fpflags hu'.ctl) (congrArg Ctl.c hu'.ctl) f
  · by_cases hkw : w.key = u.key
    · have hwu : w = u := by
        have := hname.2.2
        rw [hkw, h.find] at this
        exact (Option.some.inj this).symm
      refine ⟨_, (congrArg (State.findUnit _) hkw).trans (dataEnd_findUnit hfu rfl hend), fun l => ?_⟩
      rw [← hmarked, hwu]
      have hlines : (markRead f u').ctx.lines = u'.ctx.lines := by rw [markRead_rest]
      have hu'm : u' = mark u := if_pos hkw.symm
      unfold UnitSt.lineState
      rw [← hu'm, ← hlines]
      exact congrArg (cellGet 0 · l) (selectNext_lines _ _ _)
    · refine ⟨mark w, ?_, hmarked⟩
      rw [dataEnd_findUnit_other hend hkw, hfind, hname.2.2]
      simp

/-- Settles O24: VST and VSTX by the store of lanes, PFILL by the store of its words, PMARK by its lines. -/
theorem vectorStoresAndFills : Obligations.VectorStoresAndFills := by
  unfold Obligations.VectorStoresAndFills
  refine ⟨fun f s u w A h hsp hq hA => ⟨fun t ht hsrc hname hwf hmay => vst_stores h hsp hq hA ht hsrc hname hwf hmay,
      fun t ht tb htb hb hc hname hwf hmay => vstx_stores h hsp hq hA ht htb hb hc hname hwf hmay⟩,
    fun f s u w A h hsp hq => ⟨fun hma i hi => ?_, fun hma hname hA hn hmax hmay hwf => pfill_stores h hsp hq hma hname hA hn hmax hmay hwf,
      fun hma hname hA hn hmax hin _ hwf => pmark_marks h hsp hma hname hA hn hmax hin hwf⟩⟩
  have hma' : (u.ma == 0) = true := by simpa using hma
  refine ⟨markRead f u, ?_, markRead_key f u, rfl⟩
  simp only [List.mem_cons, List.not_mem_nil, or_false] at hi
  rcases hi with rfl | rfl
  · show execPfill f s = _
    exact dataOp_own (upd := id) h (by rw [if_pos hma']; rfl)
  · show execPmark f s = _
    exact dataOp_own (upd := id) h (by rw [if_pos hma']; rfl)

end Sys2Proof.Machine
end

section
/-!
VLD, VLDX and VLDC (R54, R58, R74, R330 to R335).
-/

namespace Sys2Proof.Machine

/-! ### Lanes that are written -/

theorem findIdxVal_none {α : Type} {p : α → Bool} (l : List α) : ∀ i, (∀ a ∈ l, p a = false) → findIdxVal p l i = none := by
  induction l with
  | nil => intro i _; rfl
  | cons a l ih =>
    intro i h
    rw [findIdxVal, h a List.mem_cons_self]
    exact ih (i + 1) fun x hx => h x (List.mem_cons_of_mem _ hx)

/-- The value listed for a member of a list, by its place. -/
theorem findIdxVal_getD {β : Type} (g : Nat → β) (d : β) (k : Nat) (pre : List β) (ls : List Nat) (h : k ∈ ls) :
    ∀ i, i = pre.length → ∃ j, findIdxVal (fun x => x == k) ls i = some (j, k) ∧ (pre ++ ls.map g).getD j d = g k := by
  induction ls generalizing pre with
  | nil => simp at h
  | cons a ls ih =>
    intro i hi
    rw [findIdxVal]
    by_cases ha : a = k
    · subst ha
      exact ⟨i, by simp, by simp [hi]⟩
    · have hk : k ∈ ls := (List.mem_cons.1 h).resolve_left (Ne.symm ha)
      obtain ⟨j, hj, hg⟩ := ih (pre ++ [g a]) hk (i + 1) (by simp [hi])
      exact ⟨j, by simpa [ha] using hj, by simpa using hg⟩

/-- What a write of lanes writes into lane i. -/
def laneOf (act : Nat → Bool) (g : Nat → Nat) (z : Bool) (i : Nat) : Option Nat := if act i then some (g i) else if z then some 0 else none

theorem lanesFrom_eq {t : Nat} {em : Mask} (g : Nat → Nat) (z : Bool) :
    lanesFrom (activeLanes t em) ((activeLanes t em).map g) z = lanesW ((range 0 128).map (laneOf (laneActive t em) g z)) := by
  unfold lanesFrom
  refine congrArg lanesW (List.map_congr_left fun i hi => ?_)
  have hlt : i < 128 := by simpa using (mem_range 128 0 i).1 hi
  unfold laneOf
  by_cases ha : laneActive t em i = true
  · obtain ⟨j, hj, hg⟩ := findIdxVal_getD g 0 i [] (activeLanes t em) (mem_activeLanes.2 ⟨hlt, ha⟩) 0 rfl
    rw [if_pos ha, hj]
    exact congrArg some hg
  · rw [if_neg ha, findIdxVal_none _ 0 fun k hk => ?_]
    rw [beq_eq_false_iff_ne]
    rintro rfl
    exact ha (mem_activeLanes.1 hk).2

theorem lanesFrom_none {t : Nat} {em : Mask} (h : activeLanes t em = []) (g : Nat → Nat) (z : Bool) :
    lanesFrom [] [] z = lanesW ((range 0 128).map (laneOf (laneActive t em) g z)) := by
  rw [← lanesFrom_eq, h]
  rfl

theorem laneActive_all (t : Nat) {k : Nat} (hk : k < 128) : laneActive t (BitVec.allOnes 128) k = true := by
  unfold laneActive
  rw [BitVec.getLsbD_allOnes, decide_eq_true_eq]
  split <;> omega

/-- A write of lanes to a destination that may be written waits for nothing. -/
theorem writeV_lanes {u : UnitSt} {f : D64} (hd : Dest u f f.vd) (t : Nat) (g : Nat → Nat) (tag : Nat) :
    writeV u f.vd (lanesW ((range 0 128).map (laneOf (laneActive t (effMask u f)) g f.z))) tag =
      .ok (fun x => x.setV f.vd.toNat ((lanesW ((range 0 128).map (laneOf (laneActive t (effMask u f)) g f.z))).apply tag)) := by
  obtain ⟨-, hpoison, hempty⟩ := hd
  refine writeV_ok hpoison (fun he => elemsW_full 0 (by omega) _ (by simp [range_length, numElem, fmtBits]) fun o ho => ?_) tag
  obtain ⟨k, hk, rfl⟩ := List.mem_map.1 ho
  have hlt : k < 128 := by simpa using (mem_range 128 0 k).1 hk
  unfold laneOf
  rcases hempty he with hz | hall
  · rw [hz]; split <;> rfl
  · rw [hall, laneActive_all t hlt]; rfl

/-- The destination after a write of lanes. -/
theorem lanesW_apply {act : Nat → Bool} {g : Nat → Nat} {z : Bool} {tag : Nat} (ht : tag ≤ 13) (x : VState) :
    ((lanesW ((range 0 128).map (laneOf act g z))).apply tag x).tag.toNat = tag ∧ ((lanesW ((range 0 128).map (laneOf act g z))).apply tag x).empty = false ∧
    ∀ k < 128, elem ((lanesW ((range 0 128).map (laneOf act g z))).apply tag x).val 0 k = if act k then g k % 2 ^ 32 else if z then 0 else elem x.val 0 k := by
  refine ⟨?_, rfl, fun k hk => ?_⟩
  · simp only [RegW.apply, BitVec.toNat_ofNat]
    omega
  · have h := elem_apply 0 tag ((range 0 128).map (laneOf act g z)) x k hk
    rw [range_getD_map _ _ hk] at h
    unfold lanesW
    rw [h]
    unfold laneOf
    cases act k <;> cases z <;> rfl

/-- The registers of a unit after an instruction that loads lanes into vd. -/
theorem loaded_registers {u w : UnitSt} {f : D64} {act : Nat → Bool} {g : Nat → Nat} {tag : Nat} (hdat : w.ctx.dat = u.ctx.dat)
    (hfp : w.ctx.ctl.fpflags = u.ctx.ctl.fpflags) (hc : w.ctx.ctl.c = u.ctx.ctl.c) (ht : tag ≤ 13) {v : UnitSt}
    (hv : v = (markRead f w).setV f.vd.toNat ((lanesW ((range 0 128).map (laneOf act g f.z))).apply tag)) :
    SameRegisters u v f [f.vd] ∧ (v.v f.vd).tag.toNat = tag ∧ (v.v f.vd).empty = false ∧
      ∀ k < 128, v.lane f.vd k = if act k then g k % 2 ^ 32 else if f.z then 0 else u.lane f.vd k := by
  obtain ⟨hregs, hs, hm, hff, hcc⟩ := sameRegisters_markRead hdat hfp hc f
  subst hv
  obtain ⟨htag, hempty, hlanes⟩ := lanesW_apply (act := act) (g := g) (z := f.z) ht ((markRead f w).v f.vd)
  have hval : ((markRead f w).v f.vd).val = (u.v f.vd).val := by
    rw [markRead_v, lastRead_congr hdat]
    unfold lastRead
    split <;> rfl
  refine ⟨⟨fun i hi => ?_, hs, hm, hff, hcc⟩, ?_, ?_, fun k hk => ?_⟩
  · rw [setV_v, if_neg (by simpa using hi), hregs i (by simp)]
  · rw [setV_v, if_pos rfl, htag]
  · rw [setV_v, if_pos rfl, hempty]
  · unfold UnitSt.lane
    rw [setV_v, if_pos rfl, hlanes k hk, hval]

/-! ### Reads of a region (R54, R58, R388) -/

theorem mem_spanLines {spans : List (Nat × Nat)} {l : Nat} : l ∈ spanLines spans ↔ ∃ p ∈ spans, 0 < p.2 ∧ p.1 / 128 ≤ l ∧ l * 128 < p.1 + p.2 := by
  unfold spanLines
  rw [List.mem_eraseDups, List.mem_flatMap]
  refine exists_congr fun p => and_congr_right fun _ => ?_
  by_cases h0 : p.2 = 0
  · simp [h0]
  · rw [if_neg (by simpa using h0), mem_range]
    omega

/-- A unit's queued matrix commands hold no access of it where it has none. -/
theorem matrixHolds_none {s : State} {u : UnitSt} (hq : s.queuedMatrix u = false) (store : Bool) (pa n : Nat) : matrixHolds s u store pa n = false := by
  have hmq : (s.pairOf u.pair).mq.filter (fun c => c.unit == u.key) = [] :=
    List.filter_eq_nil_iff.2 fun c hc he => List.any_eq_false.1 hq c hc he
  simp [matrixHolds, hmq]

theorem lineCheck_full {s : State} {u : UnitSt} {mat bit : Bool} {lines : List (UnitSt × Nat)} (h : ∀ l ∈ lines, l.1.lineState l.2 = 0) :
    lineCheck s u mat bit lines = .ok () := by
  have hfind (n : Nat) (hn : n ≠ 0) : lines.find? (fun l => l.1.lineState l.2 == n) = none :=
    List.find?_eq_none.2 fun l hl => by simp [h l hl, Ne.symm hn]
  simp only [lineCheck, hfind 2 (by omega), hfind 1 (by omega)]

theorem pantryRead_ok {s : State} {u w : UnitSt} {mat bit : Bool} {spans : List (Nat × Nat)} (hq : s.queuedMatrix u = false)
    (hmay : ∀ p ∈ spans, MayRead s w p.1 p.2) :
    pantryRead s u w mat bit spans =
      .ok (readLines s u ((spanLines spans).map (fun l => (w, l))), spans.map (fun p => (s.bytesAt (w.pantryPa p.1) p.2).map TByte.v)) := by
  have hlines : lineCheck s u mat bit ((spanLines spans).map (fun l => (w, l))) = .ok () := by
    refine lineCheck_full fun x hx => ?_
    obtain ⟨l, hl, rfl⟩ := List.mem_map.1 hx
    obtain ⟨p, hp, -, hlo, hhi⟩ := mem_spanLines.1 hl
    exact (hmay p hp).2.1 l hlo hhi
  have hholds : spans.any (fun p => matrixHolds s u false (w.pantryPa p.1) p.2) = false :=
    List.any_eq_false.2 fun p _ => by simp [matrixHolds_none hq]
  have hpoison : spans.find? (fun p => s.poisoned (w.pantryPa p.1) p.2) = none :=
    List.find?_eq_none.2 fun p hp => by simp [(hmay p hp).2.2]
  simp only [pantryRead, hlines, hholds, hpoison, need, Bool.not_false, bind, Except.bind, if_true]

theorem noteReads_same (lines : List Nat) (now : Nat) (v : UnitSt) : SameButLines v (noteReads lines now v) := by
  unfold noteReads
  dsimp only
  split <;> rfl

/-- Which lines a read names decides the caches only by whether landings have filled one of them. -/
theorem afterRead_congr (s : State) (u : UnitSt) {l1 l2 : List (UnitSt × Nat)} (h : ∀ x, x ∈ l1 ↔ x ∈ l2) : afterRead s u l1 = afterRead s u l2 := by
  have hany : l1.any (fun l => l.1.ctx.landed.contains l.2) = l2.any (fun l => l.1.ctx.landed.contains l.2) := by
    rw [Bool.eq_iff_iff, List.any_eq_true, List.any_eq_true]
    exact exists_congr fun x => and_congr_left fun _ => h x
  simp only [afterRead, hany]

theorem afterRead_nil (s : State) (u : UnitSt) : afterRead s u [] = s := rfl

theorem afterRead_effect (s : State) (u : UnitSt) (lines : List (UnitSt × Nat)) : CacheEffect s (afterRead s u lines) := by
  unfold afterRead
  split
  · exact mergeBack_effect _ _ _ _
  · exact .refl s

/-- What a read leaves once its acquire is done: memory, and of each unit all but its lines and the account of early landings. -/
structure ReadLeaves (s t : State) : Prop where
  memory : SameMemory s t
  cycle : t.cycle = s.cycle
  subs : t.subs = s.subs
  pairs : t.pairs = s.pairs
  units : ∀ k, ∀ w, s.findUnit k = some w → ∃ v, t.findUnit k = some v ∧ SameButLines w v
  slices : ∀ u, SameSlices s t u

theorem ReadLeaves.refl (s : State) : ReadLeaves s s := ⟨⟨fun _ => rfl, rfl⟩, rfl, rfl, rfl, fun _ w h => ⟨w, h, .refl w⟩, fun _ _ _ => rfl⟩

theorem ReadLeaves.modUnit {s t : State} (h : ReadLeaves s t) (k : UKey) {f : UnitSt → UnitSt} (hf : ∀ u, SameButLines u (f u)) : ReadLeaves s (t.modUnit k f) := by
  refine ⟨h.memory, h.cycle, h.subs, h.pairs, fun k' w hw => ?_, fun u k' hk => ?_⟩
  · obtain ⟨v, hv, hsame⟩ := h.units k' w hw
    rw [State.findUnit_modUnit t k k' fun u => (hf u).key, hv]
    refine ⟨if v.key = k then f v else v, rfl, ?_⟩
    split
    · exact hsame.trans (hf v)
    · exact hsame
  · exact (sameSlices_modUnit t u k hf k' hk).trans (h.slices u k' hk)

theorem readLines_leaves (s : State) (u : UnitSt) (lines : List (UnitSt × Nat)) : ReadLeaves (afterRead s u lines) (readLines s u lines) := by
  unfold readLines
  refine foldl_keeps (ReadLeaves (afterRead s u lines)) (fun t k ht => ?_) _ (.refl _)
  exact ht.modUnit k fun v => noteReads_same _ _ v

/-- The unit that reads, as the read leaves it. -/
theorem readLines_unit {s : State} {u : UnitSt} (hu : s.findUnit u.key = some u) (lines : List (UnitSt × Nat)) :
    ∃ w, (readLines s u lines).findUnit u.key = some w ∧ w.key = u.key ∧ w.ctx.dat = u.ctx.dat ∧ w.ctx.ctl.fpflags = u.ctx.ctl.fpflags ∧
      w.ctx.ctl.c = u.ctx.ctl.c := by
  obtain ⟨x, hx, hset⟩ := (afterRead_effect s u lines).findUnit hu
  obtain ⟨w, hw, hsame⟩ := (readLines_leaves s u lines).units _ x hx
  exact ⟨w, hw, hsame.key.trans (UnitSt.key_of_settled hset), hsame.dat.trans (UnitSt.settled_dat hset),
    (congrArg Ctl.fpflags hsame.ctl).trans (UnitSt.settled_fpflags hset), (congrArg Ctl.c hsame.ctl).trans (UnitSt.settled_c hset)⟩

theorem leNat_lt (l : List Byte) : leNat l < 256 ^ l.length := by
  induction l with
  | nil => simp [leNat]
  | cons b l ih =>
    have hb := b.isLt
    simp only [leNat, List.length_cons, Nat.pow_succ] at hb ⊢
    omega

theorem pantryNat_word (s : State) (w : UnitSt) (a : Nat) : pantryNat s w a 4 % 2 ^ 32 = pantryNat s w a 4 := by
  refine Nat.mod_eq_of_lt ?_
  have h := leNat_lt ((s.bytesAt (w.pantryPa a) 4).map TByte.v)
  rw [List.length_map, State.bytesAt_length] at h
  exact h

/-! ### VLD and VLDX (R330 to R332, R335) -/

/-- What a load of lanes gives: words x in the lanes that act names, and of the machine what a read of lines leaves. -/
def LanesLoaded (read y : State) (u v : UnitSt) (f : D64) (act : Nat → Bool) (x : Nat → Nat) : Prop :=
  SameMemory read y ∧ SameSlices read y u ∧ SameRegisters u v f [f.vd] ∧ (v.v f.vd).tag.toNat = f.fn.toNat ∧ (v.v f.vd).empty = false ∧
    ∀ k < 128, v.lane f.vd k = if act k then x k else if f.z then 0 else u.lane f.vd k

/-- A load that has read its lines, and has found words for its lanes, completes. -/
theorem dataOp_loads {s : State} {u : UnitSt} {f : D64} {g : State → UnitSt → Except Stop Eff} {i : Instr} {act : Nat → Bool} {word x : Nat → Nat}
    {lines lines' : List (UnitSt × Nat)} (h : DatAt s u) (hi : exec i s = dataOp f g s) (ht : f.fn.toNat ≤ 13) (hlines : ∀ l, l ∈ lines ↔ l ∈ lines')
    (hx : ∀ k < 128, act k = true → word k % 2 ^ 32 = x k)
    (hg : g s u = .ok { st := readLines s u lines
                        upd := fun y => y.setV f.vd.toNat ((lanesW ((range 0 128).map (laneOf act word f.z))).apply f.fn.toNat) }) :
    DataEnds s u i f.nas (fun y v => LanesLoaded (afterRead s u lines') y u v f act x) := by
  rw [← afterRead_congr s u hlines]
  obtain ⟨w, hw, hkey, hdat, hfp, hc⟩ := readLines_unit h.find lines
  have hleaves := readLines_leaves s u lines
  have hend : ((markRead f w).setV f.vd.toNat ((lanesW ((range 0 128).map (laneOf act word f.z))).apply f.fn.toNat)).key = u.key :=
    (markRead_key f w).trans hkey
  obtain ⟨hregs, htag, hfull, hlanes⟩ := loaded_registers (act := act) (g := word) hdat hfp hc ht rfl
  refine dataOp_ends h hi hg hw (hleaves.cycle.trans (afterRead_effect s u lines).cycle) hend
    ⟨⟨hleaves.memory.1, hleaves.memory.2⟩, fun k hk => ?_, hregs, htag, hfull, fun k hk => ?_⟩
  · rw [dataEnd_findUnit_other hend hk]
    exact hleaves.slices u k hk
  · rw [hlanes k hk]
    split
    · exact hx k hk ‹_›
    · rfl

theorem mem_laneLines {w : UnitSt} {ls : List Nat} {off : Nat → Nat} (h : ∀ k ∈ ls, off k % 4 = 0) (x : UnitSt × Nat) :
    x ∈ (spanLines (ls.map (fun k => (off k, 4)))).map (fun l => (w, l)) ↔ x ∈ ls.map (fun k => (w, off k / 128)) := by
  simp only [List.mem_map, mem_spanLines, exists_exists_and_eq_and]
  constructor
  · rintro ⟨l, ⟨k, hk, -, hlo, hhi⟩, rfl⟩
    refine ⟨k, hk, Prod.ext rfl ?_⟩
    have := h k hk
    dsimp only
    omega
  · rintro ⟨k, hk, rfl⟩
    have := h k hk
    exact ⟨_, ⟨k, hk, by omega, le_refl _, by omega⟩, rfl⟩

/-- The lanes of a VLD that have still to be read. -/
def lateLanes (f : D64) (u : UnitSt) : List Nat := (activeLanes f.fn.toNat (effMask u f)).filter (fun i => !u.ctx.dat.lanes.any (fun e => e.1 == i))

theorem vldWords_ok {s : State} {u w : UnitSt} {f : D64} {a : Nat} {ls : List Nat} (hq : s.queuedMatrix u = false) (hmay : ∀ k ∈ ls, MayRead s w (a + 4 * k) 4) :
    vldWords s u f (w, a) ls = .ok (readLines s u ((spanLines (ls.map (fun k => (a + 4 * k, 4)))).map (fun l => (w, l))),
      ls.map (fun k => (k, pantryNat s w (a + 4 * k) 4))) := by
  have hread := pantryRead_ok (mat := false) (bit := f.fa) (spans := ls.map (fun k => (a + 4 * k, 4))) hq fun p hp => by
    obtain ⟨k, hk, rfl⟩ := List.mem_map.1 hp
    exact hmay k hk
  have hzip (l : List Nat) : l.zip (((l.map (fun k => (a + 4 * k, 4))).map (fun p => (s.bytesAt (w.pantryPa p.1) p.2).map TByte.v)).map leNat) =
      l.map (fun k => (k, pantryNat s w (a + 4 * k) 4)) := by
    induction l with
    | nil => rfl
    | cons k l ih => simp only [List.map_cons, List.zip_cons_cons, ih]; rfl
  simp only [vldWords, hread, Except.map, hzip]

/-- The word of a lane that an earlier turn has read or that is read now. -/
theorem laneWord_eq {early : List (Nat × Nat)} {N : Nat → Nat} {ls : List Nat} {k : Nat} (hk : early.any (fun e => e.1 == k) = false → k ∈ ls)
    (hN : N k % 2 ^ 32 = N k) :
    (((early ++ ls.map (fun k => (k, N k))).find? (fun e => e.1 == k)).map Prod.snd).getD 0 % 2 ^ 32 =
      match early.find? (fun e => e.1 == k) with | some e => e.2 % 2 ^ 32 | none => N k := by
  rw [List.find?_append]
  cases he : early.find? (fun e => e.1 == k) with
  | some e => rfl
  | none =>
    have hmem := hk (List.any_eq_false.2 (List.find?_eq_none.1 he))
    have hfind : (ls.map (fun k => (k, N k))).find? (fun e => e.1 == k) = some (k, N k) := by
      rw [List.find?_map]
      have hex : ∃ x, ls.find? ((fun e : Nat × Nat => e.1 == k) ∘ fun k => (k, N k)) = some x := by
        rw [← Option.isSome_iff_exists, List.find?_isSome]
        exact ⟨k, hmem, by simp⟩
      obtain ⟨x, hx⟩ := hex
      have hxk : x = k := by simpa using List.find?_some hx
      rw [hx, hxk]
      rfl
    rw [hfind]
    exact hN

theorem vld_loads {f : D64} {s : State} {u w : UnitSt} {A : Nat} (h : DatAt s u) (hsp : u.ctx.spoison = []) (hq : s.queuedMatrix u = false)
    (hd : Dest u f f.vd) (ht : f.fn.toNat ≤ 13) (hA : A % 4 = 0) (hname : Names s u f f.vc A w)
    (hmay : ∀ k < 128, laneActive f.fn.toNat (effMask u f) k = true → MayRead s w (A % 2 ^ 20 + 4 * k) 4) :
    DataEnds s u (.vld f) f.nas (fun y v => LanesLoaded (afterRead s u ((lateLanes f u).map (fun k => (w, (A % 2 ^ 20 + 4 * k) / 128)))) y u v f
      (laneActive f.fn.toNat (effMask u f)) (fun k => match u.ctx.dat.lanes.find? (fun e => e.1 == k) with
        | some e => e.2 % 2 ^ 32
        | none => pantryNat s w (A % 2 ^ 20 + 4 * k) 4)) := by
  have hv : vregCheck u false [f.vd] = .ok () := vregCheck_ok (by simpa using hd.1)
  by_cases hls : activeLanes f.fn.toNat (effMask u f) = []
  · have hlate : lateLanes f u = [] := by rw [lateLanes, hls]; rfl
    rw [hlate]
    refine dataOp_loads (lines := []) (word := fun _ => 0) h (show exec (.vld f) s = execVld f s from rfl) ht (fun _ => Iff.rfl) (fun k hk ha => ?_) ?_
    · have : k ∈ activeLanes f.fn.toNat (effMask u f) := mem_activeLanes.2 ⟨hk, ha⟩
      simp [hls] at this
    · simp only [hv, hls, lanesFrom_none hls (fun _ => 0), writeV_lanes hd, bind, Except.bind, List.isEmpty_nil, if_true]
      rfl
  · obtain ⟨k₀, hk₀⟩ := List.exists_mem_of_ne_nil _ hls
    have hext : A % 2 ^ 20 + laneExtent (activeLanes f.fn.toNat (effMask u f)) ≤ w.regionBytes := by
      have hin (i : Nat) (hi : i ∈ activeLanes f.fn.toNat (effMask u f)) : A % 2 ^ 20 + 4 * i + 4 ≤ w.regionBytes :=
        (hmay i (mem_activeLanes.1 hi).1 (mem_activeLanes.1 hi).2).1
      have hle := laneExtent_le (ls := activeLanes f.fn.toNat (effMask u f)) (n := w.regionBytes - A % 2 ^ 20) fun i hi => by have := hin i hi; omega
      have := hin k₀ hk₀
      omega
    have hplace : vldPlace s u f (activeLanes f.fn.toNat (effMask u f)) = .ok (w, A % 2 ^ 20) := by
      have hp : poisonCheck u false [] [f.va] = .ok () := poisonCheck_ok hsp (by simp)
      simp only [vldPlace, hp, alignedAddr_ok hname hA, resolve_ok hname hext, bind, Except.bind]
    have hwords := vldWords_ok (f := f) (a := A % 2 ^ 20) (ls := lateLanes f u) hq fun k hk => by
      obtain ⟨hlt, ha⟩ := mem_activeLanes.1 (List.mem_filter.1 hk).1
      exact hmay k hlt ha
    refine dataOp_loads (lines := (spanLines ((lateLanes f u).map (fun k => (A % 2 ^ 20 + 4 * k, 4)))).map (fun l => (w, l)))
      (word := fun k => (((u.ctx.dat.lanes ++ (lateLanes f u).map (fun k => (k, pantryNat s w (A % 2 ^ 20 + 4 * k) 4))).find? (fun e => e.1 == k)).map Prod.snd).getD 0)
      h (show exec (.vld f) s = execVld f s from rfl) ht (mem_laneLines fun k _ => by omega)
      (fun k hk ha => laneWord_eq (N := fun k => pantryNat s w (A % 2 ^ 20 + 4 * k) 4) (fun hno => List.mem_filter.2 ⟨mem_activeLanes.2 ⟨hk, ha⟩, by simp [hno]⟩) (pantryNat_word _ _ _)) ?_
    have hne : (activeLanes f.fn.toNat (effMask u f)).isEmpty = false := by simpa using hls
    rw [lateLanes] at hwords
    simp only [hv, hplace, hwords, hne, lanesFrom_eq, writeV_lanes hd, bind, Except.bind, Bool.false_eq_true, if_false, lateLanes]
    rfl

theorem vldx_loads {f : D64} {s : State} {u w : UnitSt} {A tb : Nat} (h : DatAt s u) (hsp : u.ctx.spoison = []) (hq : s.queuedMatrix u = false)
    (hd : Dest u f f.vd) (ht : f.fn.toNat ≤ 13) (hA : A % 4 = 0) (htb : tb = 0 ∨ tb = 8) (hb : Source u f.vb tb) (hname : Names s u f 0 A w)
    (hmay : ∀ k < 128, (effMask u f).getLsbD k = true → u.lane f.vb k % 4 = 0 ∧ MayRead s w (A % 2 ^ 20 + u.lane f.vb k) 4) :
    DataEnds s u (.vldx f) f.nas (fun y v =>
      LanesLoaded (afterRead s u ((activeLanes 0 (effMask u f)).map (fun k => (w, (A % 2 ^ 20 + u.lane f.vb k) / 128)))) y u v f
        (laneActive 0 (effMask u f)) (fun k => pantryNat s w (A % 2 ^ 20 + u.lane f.vb k) 4)) := by
  obtain ⟨hbreg, hbtag, hbfull, hbgood⟩ := hb
  have hv : vregCheck u false [f.vb, f.vd] = .ok () := vregCheck_ok (by simp [hbreg, hd.1])
  have hvb : vtag u 1 f.vb (fun t => t == 0 || t == 8) = .ok tb := vtag_ok hbtag (by omega) (by simpa using htb)
  have heb : emptyCheck u false [(f.vb, f.fb)] = .ok () := emptyCheck_ok (by simpa using hbfull)
  have hp : poisonCheck u false [f.vb] [f.va] = .ok () := poisonCheck_ok hsp (by simpa using hbgood)
  by_cases hls : activeLanes 0 (effMask u f) = []
  · rw [hls]
    refine dataOp_loads (lines := []) (word := fun _ => 0) h (show exec (.vldx f) s = execVldx f s from rfl) ht (fun _ => Iff.rfl) (fun k hk ha => ?_) ?_
    · have : k ∈ activeLanes 0 (effMask u f) := mem_activeLanes.2 ⟨hk, ha⟩
      simp [hls] at this
    · simp only [hv, hvb, heb, hp, hls, lanesFrom_none hls (fun _ => 0), writeV_lanes hd, bind, Except.bind, List.isEmpty_nil, if_true]
      rfl
  · have hlane (k : Nat) (hk : k ∈ activeLanes 0 (effMask u f)) : u.lane f.vb k % 4 = 0 ∧ MayRead s w (A % 2 ^ 20 + u.lane f.vb k) 4 :=
      hmay k (mem_activeLanes.1 hk).1 (mem_activeLanes.1 hk).2
    have hindexed := indexed_ok hname hA hls fun k hk => ⟨(hlane k hk).1, (hlane k hk).2.1⟩
    have hread := pantryRead_ok (mat := false) (bit := f.fa) (spans := (activeLanes 0 (effMask u f)).map (fun k => (A % 2 ^ 20 + u.lane f.vb k, 4))) hq
      fun p hp => by
        obtain ⟨k, hk, rfl⟩ := List.mem_map.1 hp
        exact (hlane k hk).2
    have hwords : (((activeLanes 0 (effMask u f)).map (fun k => (A % 2 ^ 20 + u.lane f.vb k, 4))).map (fun p => (s.bytesAt (w.pantryPa p.1) p.2).map TByte.v)).map leNat =
        (activeLanes 0 (effMask u f)).map (fun k => pantryNat s w (A % 2 ^ 20 + u.lane f.vb k) 4) := by
      rw [List.map_map, List.map_map]
      rfl
    refine dataOp_loads (lines := (spanLines ((activeLanes 0 (effMask u f)).map (fun k => (A % 2 ^ 20 + u.lane f.vb k, 4)))).map (fun l => (w, l)))
      (word := fun k => pantryNat s w (A % 2 ^ 20 + u.lane f.vb k) 4) h (show exec (.vldx f) s = execVldx f s from rfl) ht
      (mem_laneLines fun k hk => by have := (hlane k hk).1; omega) (fun k _ _ => pantryNat_word _ _ _) ?_
    have hne : (activeLanes 0 (effMask u f)).isEmpty = false := by simpa using hls
    have hspans (l : List Nat) : (l.map (fun k => A % 2 ^ 20 + u.lane f.vb k)).map (fun o => (o, 4)) = l.map (fun k => (A % 2 ^ 20 + u.lane f.vb k, 4)) :=
      List.map_map
    simp only [hv, hvb, heb, hp, hne, hindexed, hspans, hread, hwords, lanesFrom_eq, writeV_lanes hd, bind, Except.bind, Bool.false_eq_true, if_false]
    rfl

/-! ### VLDC (R74, R333) -/

theorem xlate_ok_effect {s t : State} {u : UnitSt} {data : Bool} {q : AccKind} {va pa lvl : Nat} {e : Pte} (h : xlate s u data q va = .ok t pa e lvl) :
    CacheEffect s t := by
  unfold xlate at h
  dsimp only at h
  split at h
  · split at h <;> cases h
  · next hl =>
    split at h
    · cases h
      exact lookupTlb_effect hl
    · split at h
      · cases h
      · split at h <;> cases h

/-- The addresses of a VLDC are as many as its lanes, and the translations leave the units alone but for their waits. -/
theorem constAddrs_ok {u : UnitSt} (vas : List Nat) : ∀ {s t : State} {pas : List (Nat × Nat)}, constAddrs u vas s = .ok (t, pas) →
    CacheEffect s t ∧ pas.length = vas.length := by
  induction vas with
  | nil =>
    intro s t pas h
    cases h
    exact ⟨.refl s, rfl⟩
  | cons va vas ih =>
    intro s t pas h
    unfold constAddrs at h
    dsimp only at h
    split at h
    · cases h
    split at h
    · cases h
    split at h
    · cases h
    split at h
    · cases h
    · cases h
    · cases h
    · next t' pa e lvl hx =>
      split at h
      · cases h
      · cases hrec : constAddrs u vas t' with
        | error e => rw [hrec] at h; cases h
        | ok x =>
          rw [hrec] at h
          cases h
          obtain ⟨heff, hlen⟩ := ih hrec
          exact ⟨(xlate_ok_effect hx).trans heff, by rw [List.length_cons, List.length_cons, hlen]⟩

theorem fillConst_effect (s : State) (p j l : Nat) (bs : List TByte) : CacheEffect s (fillConst s p j l bs) := ⟨rfl, rfl⟩

theorem constFill_effect {u : UnitSt} (l : List ((Nat × Nat) × Nat)) : ∀ {s t : State}, constFill u l s = .ok t → CacheEffect s t := by
  induction l with
  | nil =>
    intro s t h
    cases h
    exact .refl s
  | cons x l ih =>
    obtain ⟨⟨pa, lvl⟩, va⟩ := x
    intro s t h
    unfold constFill at h
    dsimp only at h
    split at h
    · exact (State.modPair_effect _ _ _).trans (ih h)
    · have hfill {x : State} (hx : CacheEffect s x) (p j n : Nat) (bs : List TByte) (h : constFill u l (fillConst x p j n bs) = .ok t) : CacheEffect s t :=
        hx.trans ((fillConst_effect x p j n bs).trans (ih h))
      -- a window of the host or of a peer reads its slot, any other address the home; each line is filled only where its bytes are whole
      split at h
      case h_1 | h_2 =>
        split at h
        · split at h
          · cases h
          · exact hfill (touchHome_effect _ _).cache _ _ _ _ h
        · split at h <;> cases h
      all_goals
        split at h
        · cases h
        · next hread =>
          split at h
          · cases h
          · exact hfill (cohRead_effect hread) _ _ _ _ h

theorem activeLanes_eq (t : Nat) (em : Mask) : activeLanes t em = (List.range 128).filter (laneActive t em) := by
  rw [activeLanes, range_zero_eq]

/-- The physical address that a VLDC has found for lane k. -/
def lanePa (pas : List (Nat × Nat)) (ls : List Nat) (k : Nat) : Nat := ((pas.zip ls).findSome? (fun p => if p.2 = k then some p.1.1 else none)).getD 0

theorem map_lanePa (h : Nat → Nat) (ls : List Nat) : ∀ (pas : List (Nat × Nat)), ls.Nodup → pas.length = ls.length →
    pas.map (fun x => h x.1) = ls.map (fun k => h (lanePa pas ls k)) := by
  induction ls with
  | nil => intro pas _ hlen; rw [List.length_eq_zero_iff.1 hlen]; rfl
  | cons a ls ih =>
    intro pas hnd hlen
    obtain ⟨hna, hnd⟩ := List.nodup_cons.1 hnd
    cases pas with
    | nil => simp at hlen
    | cons x pas =>
      rw [List.map_cons, List.map_cons, ih pas hnd (by simpa using hlen)]
      refine congrArg₂ List.cons ?_ (List.map_congr_left fun k hk => ?_)
      · simp [lanePa]
      · have hne : a ≠ k := fun h => hna (h ▸ hk)
        simp [lanePa, hne]

theorem constWord_lt (s : State) (u : UnitSt) (pa : Nat) : constWord s u pa % 2 ^ 32 = constWord s u pa := by
  refine Nat.mod_eq_of_lt ?_
  unfold constWord
  split
  · decide
  · next l _ =>
    refine (leNat_lt _).trans_le (Nat.pow_le_pow_right (by decide) (show _ ≤ 4 from ?_))
    unfold lineSeen
    dsimp only
    split
    · rw [List.length_map, List.length_take]; exact min_le_left _ _
    · rw [List.length_map, range_length]

theorem vldc_none {f : D64} {s : State} {u : UnitSt} (h : DatAt s u) (hd : Dest u f f.vd) (ht : f.fn.toNat ≤ 13)
    (hls : activeLanes f.fn.toNat (effMask u f) = []) :
    DataGives s u (.vldc f) f.nas (fun v => SameRegisters u v f [f.vd] ∧ (v.v f.vd).tag.toNat = f.fn.toNat ∧
      ∀ k < 128, v.lane f.vd k = if f.z then 0 else u.lane f.vd k) := by
  have hv : vregCheck u false [f.vd] = .ok () := vregCheck_ok (by simpa using hd.1)
  obtain ⟨hregs, htag, -, hlanes⟩ := loaded_registers (f := f) (act := laneActive f.fn.toNat (effMask u f)) (g := fun _ => 0) (rfl : u.ctx.dat = u.ctx.dat) rfl rfl ht rfl
  refine ⟨(markRead f u).setV f.vd.toNat ((lanesW ((range 0 128).map (laneOf (laneActive f.fn.toNat (effMask u f)) (fun _ => 0) f.z))).apply f.fn.toNat),
    ?_, markRead_key f u, hregs, htag, fun k hk => ?_⟩
  · show execVldc f s = _
    refine dataOp_own (upd := fun y => y.setV f.vd.toNat ((lanesW ((range 0 128).map (laneOf (laneActive f.fn.toNat (effMask u f)) (fun _ => 0) f.z))).apply f.fn.toNat)) h ?_
    simp only [hv, hls, lanesFrom_none hls (fun _ => 0), writeV_lanes hd, bind, Except.bind, List.isEmpty_nil, if_true]
    rfl
  · have hinactive : ¬ laneActive f.fn.toNat (effMask u f) k = true := fun ha => by
      have : k ∈ activeLanes f.fn.toNat (effMask u f) := mem_activeLanes.2 ⟨hk, ha⟩
      simp [hls] at this
    rw [hlanes k hk, if_neg hinactive]

theorem vldc_loads {f : D64} {s x y : State} {u w : UnitSt} {pas : List (Nat × Nat)} {a : Nat} (h : DatAt s u) (hsp : u.ctx.spoison = [])
    (hd : Dest u f f.vd) (ht : f.fn.toNat ≤ 13) (ha : a = (u.sreg f.va + f.x16.toNat) % 2 ^ 64) (halign : a % 4 = 0)
    (hls : activeLanes f.fn.toNat (effMask u f) ≠ [])
    (haddrs : constAddrs u ((activeLanes f.fn.toNat (effMask u f)).map (fun i => (a + 4 * i) % 2 ^ 64)) s = .ok (x, pas))
    (hfill : constFill u (pas.zip ((activeLanes f.fn.toNat (effMask u f)).map (fun i => (a + 4 * i) % 2 ^ 64))) x = .ok y)
    (hw : y.findUnit u.key = some w) (hctx : w.ctx = u.ctx) :
    DataEnds s u (.vldc f) f.nas (fun t2 v => t2.mem = y.mem ∧ SameRegisters u v f [f.vd] ∧
      LoadedLanes u v f f.fn.toNat (fun k => constWord y u (lanePa pas (activeLanes f.fn.toNat (effMask u f)) k))) := by
  obtain ⟨heff, hlen⟩ := constAddrs_ok _ haddrs
  rw [List.length_map] at hlen
  have hwords := map_lanePa (constWord y u) _ pas ((activeLanes_sorted f.fn.toNat (effMask u f)).imp fun h => h.ne) hlen
  have hv : vregCheck u false [f.vd] = .ok () := vregCheck_ok (by simpa using hd.1)
  have hp : poisonCheck u false [] [f.va] = .ok () := poisonCheck_ok hsp (by simp)
  have hneed := need_true (dstop u false tcMisalign a) (beq_iff_eq.2 halign)
  have hne : (activeLanes f.fn.toNat (effMask u f)).isEmpty = false := by simpa using hls
  obtain ⟨hregs, htag, hfull, hlanes⟩ := loaded_registers (u := u) (w := w) (f := f) (act := laneActive f.fn.toNat (effMask u f))
    (g := fun k => constWord y u (lanePa pas (activeLanes f.fn.toNat (effMask u f)) k)) (congrArg Ctx.dat hctx)
    (congrArg (fun c : Ctx => c.ctl.fpflags) hctx) (congrArg (fun c : Ctx => c.ctl.c) hctx) ht rfl
  refine dataOp_ends (upd := fun z => z.setV f.vd.toNat ((lanesW ((range 0 128).map (laneOf (laneActive f.fn.toNat (effMask u f))
      (fun k => constWord y u (lanePa pas (activeLanes f.fn.toNat (effMask u f)) k)) f.z))).apply f.fn.toNat))
    h (show exec (.vldc f) s = execVldc f s from rfl) ?_ hw (heff.trans (constFill_effect _ hfill)).cycle
    ((markRead_key f w).trans (State.findUnit_key y _ w hw)) ⟨rfl, hregs, htag, hfull, fun k hk => ?_⟩
  · rw [ha] at haddrs hfill hneed
    simp only [hv, hp, hne, hneed, haddrs, hfill, hwords, lanesFrom_eq, writeV_lanes hd, bind, Except.bind, Bool.false_eq_true, if_false]
    rfl
  · rw [hlanes k hk, constWord_lt]

/-- Settles O23: VLD and VLDX by the reads of their lanes, VLDC by its constant lines. -/
theorem vectorAndConstantLoads : Obligations.VectorAndConstantLoads := by
  unfold Obligations.VectorAndConstantLoads
  refine ⟨fun f s u w A h hsp hq hd ht hA => ⟨fun hname hmay => ?_, fun tb htb hb hname hmay => ?_⟩, fun f s u h hsp hd ht => ⟨fun hls => ?_, ?_⟩⟩
  · have hlate (x : UnitSt × Nat) : x ∈ (lateLanes f u).map (fun k => (w, (A % 2 ^ 20 + 4 * k) / 128)) ↔
        x ∈ ((List.range 128).filter (fun k => laneActive f.fn.toNat (effMask u f) k && (u.ctx.dat.lanes.find? (fun e => e.1 == k)).isNone)).map
          (fun k => (w, (A % 2 ^ 20 + 4 * k) / 128)) := by
      have hnone (k : Nat) : (!u.ctx.dat.lanes.any (fun e => e.1 == k)) = (u.ctx.dat.lanes.find? (fun e => e.1 == k)).isNone := by
        rw [Bool.eq_iff_iff]
        simp
      rw [lateLanes, activeLanes_eq, List.filter_filter]
      simp only [hnone, Bool.and_comm]
    have hloads := vld_loads h hsp hq hd ht hA hname hmay
    rw [afterRead_congr s u hlate] at hloads
    exact hloads
  · have hlate : (List.range 128).filter (fun k => laneActive 0 (effMask u f) k && (([] : List (Nat × Nat)).find? (fun e => e.1 == k)).isNone) =
        activeLanes 0 (effMask u f) := by
      rw [activeLanes_eq]
      exact List.filter_congr fun k _ => Bool.and_true _
    have hloads := vldx_loads h hsp hq hd ht hA htb hb hname hmay
    rw [← hlate] at hloads
    exact hloads
  · exact vldc_none h hd ht ((activeLanes_eq _ _).trans hls)
  · intro x y pas w hls halign haddrs hfill hw hctx
    have hloads := vldc_loads (x := x) (y := y) (pas := pas) h hsp hd ht rfl halign (by rw [activeLanes_eq]; exact hls) (by rw [activeLanes_eq]; exact haddrs)
      (by rw [activeLanes_eq]; exact hfill) hw hctx
    rw [activeLanes_eq] at hloads
    exact hloads

end Sys2Proof.Machine
end

section
/-!
The pushes of matrix instructions (R342 to R349, R354 to R359).
-/

namespace Sys2Proof.Machine

/-! ### What a push finds once its operands have been read -/

theorem UnitSt.settled_tiles {u v : UnitSt} (h : v.settled = u.settled) : v.ctx.tiles = u.ctx.tiles := (congrArg (fun x : UnitSt => x.ctx.tiles) h :)

theorem SameButLines.tiles {u v : UnitSt} (h : SameButLines u v) : v.ctx.tiles = u.ctx.tiles := by unfold SameButLines at h; rw [h]

/-- An acquire leaves the pair's matrix queue alone. -/
theorem mergeBack_mq (s : State) (pair job : Nat) (inv : Bool) : ((mergeBack s pair job inv).pairOf pair).mq = (s.pairOf pair).mq := by
  obtain ⟨t, ht, he⟩ := mergeBack_eq s pair job inv
  rw [he, State.pairOf_modPair_same _ _ _ (fun _ => by rfl), ht.pairOf]

theorem readLines_mq (s : State) (u : UnitSt) (lines : List (UnitSt × Nat)) : ((readLines s u lines).pairOf u.pair).mq = (s.pairOf u.pair).mq := by
  have hpairs : (readLines s u lines).pairOf u.pair = (afterRead s u lines).pairOf u.pair := by
    simp only [State.pairOf, (readLines_leaves s u lines).pairs]
  rw [hpairs]
  unfold afterRead
  split
  · exact mergeBack_mq _ _ _ _
  · rfl

/-- Two units agree in their keys, their data slices and their tiles. -/
def SameWork (u w : UnitSt) : Prop := w.key = u.key ∧ w.ctx.dat = u.ctx.dat ∧ w.ctx.tiles = u.ctx.tiles

/-- A push finds in x its unit and its pair's queue as they were in s, and the rest as in s0 but for lines. -/
structure PushFinds (s s0 x : State) (u : UnitSt) : Prop where
  leaves : ReadLeaves s0 x
  cycle : x.cycle = s.cycle
  queue : (x.pairOf u.pair).mq = (s.pairOf u.pair).mq
  unit : ∃ w, x.findUnit u.key = some w ∧ SameWork u w

theorem PushFinds.self {s : State} {u : UnitSt} (h : DatAt s u) : PushFinds s s s u := ⟨.refl s, rfl, rfl, u, h.find, rfl, rfl, rfl⟩

theorem PushFinds.read {s : State} {u : UnitSt} (h : DatAt s u) (lines : List (UnitSt × Nat)) : PushFinds s (afterRead s u lines) (readLines s u lines) u := by
  obtain ⟨x, hx, hset⟩ := (afterRead_effect s u lines).findUnit h.find
  obtain ⟨w, hw, hsame⟩ := (readLines_leaves s u lines).units _ x hx
  exact ⟨readLines_leaves s u lines, (readLines_leaves s u lines).cycle.trans (afterRead_effect s u lines).cycle, readLines_mq s u lines, w, hw,
    hsame.key.trans (UnitSt.key_of_settled hset), hsame.dat.trans (UnitSt.settled_dat hset), hsame.tiles.trans (UnitSt.settled_tiles hset)⟩

theorem PushFinds.after {s s0 x : State} {u : UnitSt} (h : PushFinds s s0 x u) : PushFinds s x x u := ⟨.refl x, h.cycle, h.queue, h.unit⟩

/-! ### The push (R342) -/

/-- What a push gives. -/
def Pushed (s s0 t : State) (u v : UnitSt) (c : MCmd) : Prop :=
  SameMemory s0 t ∧ SameSlices s0 t u ∧ (t.pairOf u.pair).mq = (s.pairOf u.pair).mq ++ [c] ∧ v.ctx.dat.s = u.ctx.dat.s ∧ v.ctx.dat.m = u.ctx.dat.m

/-- An update of a pushing unit keeps its key and its scalar and mask registers. -/
def KeepsScalars (upd : UnitSt → UnitSt) : Prop :=
  ∀ y, (upd y).key = y.key ∧ (upd y).ctx.dat.s = y.ctx.dat.s ∧ (upd y).ctx.dat.m = y.ctx.dat.m

/-- A unit after the last-read marks of its instruction. -/
theorem sameWork_markRead {u w : UnitSt} (h : SameWork u w) (f : D64) : (markRead f w).key = u.key ∧ (markRead f w).ctx.dat.s = u.ctx.dat.s ∧
    (markRead f w).ctx.dat.m = u.ctx.dat.m ∧ (markRead f w).ctx.tiles = u.ctx.tiles := by
  obtain ⟨hkey, hdat, htiles⟩ := h
  have hs := congrArg Dat.s hdat
  have hm := congrArg Dat.m hdat
  rw [markRead_rest f w]
  exact ⟨hkey, hs, hm, htiles⟩

section
variable {s s0 x : State} {u : UnitSt} {f : D64} {i : Instr} {first : UnitSt → Except Stop (UnitSt → UnitSt)} {later : State → UnitSt → Except Stop Push}
  {marks upd : UnitSt → UnitSt} {c : MCmd} (h : DatAt s u) (hi : exec i s = pushOp f first later s) (hma : u.ma ≠ 0) (hfirst : first u = .ok marks)
include h hi hma hfirst

theorem pushOp_pushes {P : UnitSt → Prop} (hlater : later s u = .ok { st := x, cmd := c, upd := upd }) (hx : PushFinds s s0 x u)
    (hroom : queueRoom s u c = true) (hmarks : KeepsScalars marks) (hupd : KeepsScalars upd)
    (hP : ∀ y : UnitSt, y.ctx.tiles = u.ctx.tiles → P (marks (upd y))) :
    DataEnds s u i f.nas (fun t v => SameMemory s0 t ∧ SameSlices s0 t u ∧ (t.pairOf u.pair).mq = (s.pairOf u.pair).mq ++ [c] ∧
      v.ctx.dat.s = u.ctx.dat.s ∧ v.ctx.dat.m = u.ctx.dat.m ∧ P v) := by
  obtain ⟨w, hw, hwork⟩ := hx.unit
  obtain ⟨hkey, hs, hm, htiles⟩ := sameWork_markRead hwork f
  obtain ⟨hmkey, hms, hmm⟩ := hmarks (upd (markRead f w))
  obtain ⟨hukey, hus, hum⟩ := hupd (markRead f w)
  have hend : (marks (upd (markRead f w))).key = u.key := hmkey.trans (hukey.trans hkey)
  have hroom' : queueRoom x u c = true := by
    rw [← hroom]
    simp only [queueRoom, hx.queue]
  refine dataOp_ends (t := (x.modPair u.pair (fun p => { p with mq := p.mq ++ [c] })).bump) (upd := fun y => marks (upd y)) h hi ?_ hw hx.cycle hend
    ⟨⟨hx.leaves.memory.1, hx.leaves.memory.2⟩, fun k hk => ?_, ?_, hms.trans (hus.trans hs), hmm.trans (hum.trans hm), hP _ htiles⟩
  · have hma' : (u.ma == 0) = false := by simpa using hma
    simp only [hfirst, hlater, hma', need_true _ hroom', bind, Except.bind, Bool.false_eq_true, if_false]
    rfl
  · rw [dataEnd_findUnit_other hend hk]
    exact hx.leaves.slices u k hk
  · rw [← hx.queue]
    exact congrArg PairSt.mq (State.pairOf_modPair_same x u.pair (fun p => { p with mq := p.mq ++ [c] }) (fun _ => rfl))

theorem pushOp_waits (hlater : later s u = .ok { st := s, cmd := c, upd := upd }) (hroom : queueRoom s u c = false) :
    exec i s = .next (s.waitD (u.modDat (fun d => { d with lanes := [] })) .matrixQueue) := by
  have hma' : (u.ma == 0) = false := by simpa using hma
  rw [hi]
  simp only [pushOp, dataOp, onDat_at h, hfirst, hlater, hma', need, hroom, bind, Except.bind, Bool.false_eq_true, if_false]

theorem pushOp_traps {t : Trap} (hlater : later s u = .error (.trap t)) : exec i s = .next (s.takeTrap u t) := by
  have hma' : (u.ma == 0) = false := by simpa using hma
  rw [hi]
  simp only [pushOp, dataOp, onDat_at h, hfirst, hlater, hma', bind, Except.bind, Bool.false_eq_true, if_false]

end

/-- Without an active lane a push leaves its marks alone. -/
theorem pushOp_skips {s : State} {u : UnitSt} {f : D64} {i : Instr} {first : UnitSt → Except Stop (UnitSt → UnitSt)} {later : State → UnitSt → Except Stop Push}
    {marks : UnitSt → UnitSt} (h : DatAt s u) (hi : exec i s = pushOp f first later s) (hma : u.ma = 0) (hfirst : first u = .ok marks) :
    exec i s = .next (s.putUnit ((selectNext s (marks (markRead f u)) f.nas).stamped s.cycle)) := by
  have hma' : (u.ma == 0) = true := by simpa using hma
  rw [hi]
  refine dataOp_own (upd := marks) h ?_
  simp only [hfirst, hma', bind, Except.bind, if_true]
  rfl

/-! ### Tiles -/

/-- Tile n of v waits for a result with a tag; its words are still u's. -/
def Claimed (u v : UnitSt) (n tag : Nat) : Prop := (v.tile n).tag.toNat = tag ∧ (v.tile n).empty = true ∧ (v.tile n).val = (u.tile n).val

theorem claimTile_keeps (n tag : Nat) : KeepsScalars (claimTile n tag) := fun _ => ⟨rfl, rfl, rfl⟩

theorem keepsScalars_id : KeepsScalars id := fun _ => ⟨rfl, rfl, rfl⟩

theorem claimTile_claims {u y : UnitSt} {n tag : Nat} (hn : n < 8) (htag : tag < 16) (htiles : y.ctx.tiles = u.ctx.tiles) : Claimed u (claimTile n tag y) n tag := by
  have ht : (claimTile n tag y).tile n = { u.tile n with tag := BitVec.ofNat 4 tag, empty := true } := by
    simp [claimTile, UnitSt.setTile, UnitSt.tile, UnitSt.modCtx, htiles, Array.getD, hn]
  unfold Claimed
  rw [ht]
  exact ⟨by simp; omega, rfl, rfl⟩

theorem tileCheck_ok {u : UnitSt} {n : Nat} (h : n < u.launch.tiles) : tileCheck u n = .ok () := need_true _ (decide_eq_true h)

theorem tileTag_ok {u : UnitSt} {pos n t : Nat} {ok : Nat → Bool} (ht : (u.tile n).tag.toNat = t) (h15 : t ≠ 15) (hok : ok t = true) : tileTag u pos n ok = .ok t := by
  simp [tileTag, tagCheck, ht, h15, hok]

theorem mmTileTag_lt (t : Nat) : mmTileTag t < 16 := by unfold mmTileTag; split <;> omega

/-! ### Operands (R342) -/

/-- The lines of n bytes at an offset of w's region are full. -/
def LinesFull (w : UnitSt) (off n : Nat) : Prop := ∀ l, off / 128 ≤ l → l * 128 < off + n → w.lineState l = 0

theorem lineCheck_operands {s : State} {u : UnitSt} {mat bit : Bool} {rs : List (UnitSt × Nat × Nat)} (h : ∀ r ∈ rs, LinesFull r.1 r.2.1 r.2.2) :
    lineCheck s u mat bit (operandLines rs) = .ok () := by
  refine lineCheck_full fun x hx => ?_
  obtain ⟨r, hr, hx⟩ := List.mem_flatMap.1 hx
  obtain ⟨l, hl, rfl⟩ := List.mem_map.1 hx
  obtain ⟨p, hp, -, hlo, hhi⟩ := mem_spanLines.1 hl
  rw [List.mem_singleton] at hp
  subst hp
  exact h r hr l hlo hhi

theorem blockAddr_ok {u : UnitSt} {f : D64} {a : Nat} (h : pantryAddr u true (u.sreg f.va) (f.x16.toNat / 8 * 8) f.vc = .ok a) (ha : a % 128 = 0) :
    blockAddr u f = .ok a := by
  have hneed := need_true (dstop u true tcMisalign a) (beq_iff_eq.2 ha)
  simp only [blockAddr, h, hneed, bind, Except.bind]
  rfl

/-! ### MZERO, MLDA, MSTA and MRDV (R354 to R357) -/

/-- The checks of a tile that come first where no tag is asked for. -/
def tileFirst (f : D64) (u : UnitSt) : Except Stop (UnitSt → UnitSt) := do
  tileCheck u f.vd.toNat
  pure id

theorem tileFirst_ok {f : D64} {u : UnitSt} (hn : f.vd.toNat < u.launch.tiles) : tileFirst f u = .ok id := by
  simp only [tileFirst, tileCheck_ok hn, bind, Except.bind]
  rfl

section
variable {s : State} {u : UnitSt} {f : D64} (h : DatAt s u)
include h

theorem mzero_skips (hma : u.ma = 0) (hn : f.vd.toNat < u.launch.tiles) : DataGives s u (.mzero f) f.nas (fun v => v.ctx.tiles = u.ctx.tiles) :=
  ⟨markRead f u, pushOp_skips h (first := tileFirst f) (show exec (.mzero f) s = execMzero f s from rfl) hma (tileFirst_ok hn), markRead_key f u,
    (sameWork_markRead ⟨rfl, rfl, rfl⟩ f).2.2.2⟩

theorem mzero_waits (hma : u.ma ≠ 0) (hn : f.vd.toNat < u.launch.tiles) (hroom : queueRoom s u (matrixCmd s u 0x72 f 0 0 0 0 []) = false) :
    exec (.mzero f) s = .next (s.waitD (u.modDat (fun d => { d with lanes := [] })) .matrixQueue) :=
  pushOp_waits h (first := tileFirst f) (show exec (.mzero f) s = execMzero f s from rfl) hma (tileFirst_ok hn) rfl hroom

theorem mzero_pushes (hma : u.ma ≠ 0) (hn : f.vd.toNat < min 8 u.launch.tiles) (hfmt : f.fmt = 1 ∨ f.fmt = 8)
    (hroom : queueRoom s u (matrixCmd s u 0x72 f 0 0 0 0 []) = true) :
    DataEnds s u (.mzero f) f.nas (fun t v => SameMemory s t ∧ SameSlices s t u ∧
      (t.pairOf u.pair).mq = (s.pairOf u.pair).mq ++ [matrixCmd s u 0x72 f 0 0 0 0 []] ∧ v.ctx.dat.s = u.ctx.dat.s ∧ v.ctx.dat.m = u.ctx.dat.m ∧
      Claimed u v f.vd.toNat f.fmt) :=
  pushOp_pushes h (first := tileFirst f) (show exec (.mzero f) s = execMzero f s from rfl) hma (tileFirst_ok (by omega)) rfl (.self h) hroom keepsScalars_id
    (claimTile_keeps _ _) fun _ ht => claimTile_claims (by omega) (by omega) ht

theorem mrdv_pushes (hma : u.ma ≠ 0) (hreg : vregOk u f.vd.toNat = true) (hn : f.va.toNat < u.launch.tiles) (htag : (u.tile f.va.toNat).tag ≠ 15)
    (hroom : queueRoom s u (matrixCmd s u 0x76 f 0 0 0 0 []) = true) :
    DataEnds s u (.mrdv f) f.nas (fun t v => SameMemory s t ∧ SameSlices s t u ∧
      (t.pairOf u.pair).mq = (s.pairOf u.pair).mq ++ [matrixCmd s u 0x76 f 0 0 0 0 []] ∧ v.ctx.dat.s = u.ctx.dat.s ∧ v.ctx.dat.m = u.ctx.dat.m ∧
      (v.v f.vd).tag = (u.tile f.va.toNat).tag ∧ (v.v f.vd).empty = true ∧ v.ctx.tiles = u.ctx.tiles) := by
  have h15 : (u.tile f.va.toNat).tag.toNat ≠ 15 := fun he => htag (BitVec.eq_of_toNat_eq he)
  refine pushOp_pushes h (marks := id) (upd := fun x => x.setV f.vd.toNat (fun v => { v with tag := (u.tile f.va.toNat).tag, empty := true }))
    (show exec (.mrdv f) s = execMrdv f s from rfl) hma ?_ rfl (.self h) hroom keepsScalars_id (fun _ => ⟨rfl, rfl, rfl⟩) fun y hy => ⟨?_, ?_, hy⟩
  · have hv : vregCheck u true [f.vd] = .ok () := vregCheck_ok (by simpa using hreg)
    have ht : tileTag u 0 f.va.toNat (fun _ => true) = .ok _ := tileTag_ok rfl h15 rfl
    simp only [hv, tileCheck_ok hn, ht, bind, Except.bind]
    rfl
  · rw [id, setV_v, if_pos rfl]
  · rw [id, setV_v, if_pos rfl]

variable {w : UnitSt} {a off n : Nat} (hsp : u.ctx.spoison = []) (ha : pantryAddr u true (u.sreg f.va) (f.x16.toNat / 8 * 8) f.vc = .ok a) (halign : a % 128 = 0)
  (hn : n = 512 * fmtBits f.fn.toNat) (hres : resolve s u true a n = .ok (w, off))
include hsp ha halign hn hres

theorem mlda_pushes (hma : u.ma ≠ 0) (htile : f.vd.toNat < min 8 u.launch.tiles) (hfull : LinesFull w off n)
    (hroom : queueRoom s u (matrixCmd s u 0x74 f 0 0 a 0 []) = true) :
    DataEnds s u (.mlda f) f.nas (fun t v => SameMemory (afterRead s u (operandLines [(w, off, n)])) t ∧ SameSlices (afterRead s u (operandLines [(w, off, n)])) t u ∧
      (t.pairOf u.pair).mq = (s.pairOf u.pair).mq ++ [matrixCmd s u 0x74 f 0 0 a 0 []] ∧ v.ctx.dat.s = u.ctx.dat.s ∧ v.ctx.dat.m = u.ctx.dat.m ∧
      Claimed u v f.vd.toNat (mmTileTag f.fn.toNat)) := by
  refine pushOp_pushes h (first := tileFirst f) (marks := id) (upd := claimTile f.vd.toNat (mmTileTag f.fn.toNat)) (x := readLines s u (operandLines [(w, off, n)]))
    (show exec (.mlda f) s = execMlda f s from rfl) hma (tileFirst_ok (by omega)) ?_ (.read h _) hroom keepsScalars_id (claimTile_keeps _ _)
    fun _ ht => claimTile_claims (by omega) (mmTileTag_lt _) ht
  have hp : poisonCheck u true [] [f.va] = .ok () := poisonCheck_ok hsp (by simp)
  have hl : lineCheck s u true f.fa (operandLines [(w, off, n)]) = .ok () := lineCheck_operands (by simpa using hfull)
  subst hn
  simp only [hp, blockAddr_ok ha halign, hres, hl, bind, Except.bind]
  rfl

theorem msta_pushes (hma : u.ma ≠ 0) (htile : f.vb.toNat < u.launch.tiles) (htag : (u.tile f.vb.toNat).tag.toNat ≠ 15)
    (hsuits : mstaSuits (u.tile f.vb.toNat).tag.toNat f.fn.toNat = true) (hno : NoMirror s w)
    (hroom : queueRoom s u { matrixCmd s u 0x73 f 0 0 a 0 [] with tag := (u.tile f.vb.toNat).tag.toNat } = true) :
    DataEnds s u (.msta f) f.nas (fun t v => SameMemory s t ∧ SameSlices s t u ∧
      (t.pairOf u.pair).mq = (s.pairOf u.pair).mq ++ [{ matrixCmd s u 0x73 f 0 0 a 0 [] with tag := (u.tile f.vb.toNat).tag.toNat }] ∧
      v.ctx.dat.s = u.ctx.dat.s ∧ v.ctx.dat.m = u.ctx.dat.m ∧ v.ctx.tiles = u.ctx.tiles) := by
  refine pushOp_pushes h (marks := id) (upd := id) (show exec (.msta f) s = execMsta f s from rfl) hma ?_ ?_ (.self h) hroom keepsScalars_id keepsScalars_id fun _ ht => ht
  · have ht : tileTag u 1 f.vb.toNat (fun t => mstaSuits t f.fn.toNat) = .ok _ := tileTag_ok rfl htag hsuits
    simp only [tileCheck_ok htile, ht, bind, Except.bind]
    rfl
  · have hp : poisonCheck u true [] [f.va] = .ok () := poisonCheck_ok hsp (by simp)
    subst hn
    simp only [hp, blockAddr_ok ha halign, hres, hno.part, mirrorRefused, List.find?_nil, bind, Except.bind]
    rfl

end

/-! ### MSCL (R358) -/

theorem scaleBad_none {ws : List Nat} (h : ∀ x ∈ ws, x < 2 ^ 60) : scaleBad ws = none := by
  have hnone : findIdxVal (fun w => w / 2 ^ 60 != 0) ws 0 = none :=
    findIdxVal_none ws 0 fun x hx => by rw [Nat.div_eq_of_lt (h x hx)]; rfl
  rw [scaleBad, hnone]
  rfl

/-- The state that a read of a region leaves. -/
theorem pantryRead_state {s x : State} {u w : UnitSt} {mat bit : Bool} {spans : List (Nat × Nat)} {bs : List (List Byte)}
    (hread : pantryRead s u w mat bit spans = .ok (x, bs)) : x = readLines s u ((spanLines spans).map (fun l => (w, l))) := by
  unfold pantryRead at hread
  cases hl : lineCheck s u mat bit ((spanLines spans).map (fun l => (w, l))) with
  | error e => simp only [hl, bind, Except.bind] at hread; cases hread
  | ok a =>
    cases hn : need (!spans.any (fun p => matrixHolds s u false (w.pantryPa p.1) p.2)) (.wait .matrixOrder) with
    | error e => simp only [hl, hn, bind, Except.bind] at hread; cases hread
    | ok b =>
      simp only [hl, hn, bind, Except.bind] at hread
      split at hread
      · cases hread
      · cases hread
        rfl

theorem pantryRead_finds {s x : State} {u w : UnitSt} {mat bit : Bool} {spans : List (Nat × Nat)} {bs : List (List Byte)} (h : DatAt s u)
    (hread : pantryRead s u w mat bit spans = .ok (x, bs)) : PushFinds s x x u := by
  rw [pantryRead_state hread]
  exact (PushFinds.read h _).after

/-- Word i of the bytes that an MSCL has read. -/
def scaleWord (bs : List (List Byte)) (i : Nat) : Nat := leNat (sliceOf bs.flatten (8 * i) 8)

/-- The scales of the first n words read. -/
def scalesOf (bs : List (List Byte)) (n : Nat) : List Nat :=
  ((List.range ((n + 2) / 3)).flatMap (fun i => [scaleWord bs i % 2 ^ 20, scaleWord bs i / 2 ^ 20 % 2 ^ 20, scaleWord bs i / 2 ^ 40 % 2 ^ 20])).take n

theorem mscl_pushes {s x : State} {u w : UnitSt} {f : D64} {bs : List (List Byte)} {a off : Nat} (h : DatAt s u) (hsp : u.ctx.spoison = []) (hma : u.ma ≠ 0)
    (hn0 : 0 < u.sreg f.vb) (hn : u.sreg f.vb ≤ 4096) (hroomS : u.sreg f.vc + u.sreg f.vb ≤ u.launch.scales * 512)
    (ha : pantryAddr u true (u.sreg f.va) f.x16.toNat 0 = .ok a) (halign : a % 8 = 0) (hres : resolve s u true a (8 * ((u.sreg f.vb + 2) / 3)) = .ok (w, off))
    (hread : pantryRead s u w true f.fa [(off, 8 * ((u.sreg f.vb + 2) / 3))] = .ok (x, bs)) (hwords : ∀ i < (u.sreg f.vb + 2) / 3, scaleWord bs i < 2 ^ 60)
    (hroom : queueRoom s u (matrixCmd s u 0x75 f 0 (u.sreg f.vc) a 0 (scalesOf bs (u.sreg f.vb))) = true) :
    DataEnds s u (.mscl f) f.nas (fun t v => SameMemory x t ∧ SameSlices x t u ∧
      (t.pairOf u.pair).mq = (s.pairOf u.pair).mq ++ [matrixCmd s u 0x75 f 0 (u.sreg f.vc) a 0 (scalesOf bs (u.sreg f.vb))] ∧
      v.ctx.dat.s = u.ctx.dat.s ∧ v.ctx.dat.m = u.ctx.dat.m ∧ v.ctx.tiles = u.ctx.tiles) := by
  refine pushOp_pushes h (marks := id) (upd := id) (first := fun _ => pure id) (show exec (.mscl f) s = execMscl f s from rfl) hma rfl ?_
    (pantryRead_finds h hread) hroom keepsScalars_id keepsScalars_id fun _ ht => ht
  have hp : poisonCheck u true [] [f.va, f.vb, f.vc] = .ok () := poisonCheck_ok hsp (by simp)
  have hcount := need_true (b := decide (0 < u.sreg f.vb) && decide (u.sreg f.vb ≤ 4096) && decide (u.sreg f.vc + u.sreg f.vb ≤ u.launch.scales * 512))
    (dstop u true tcEngDesc 0 5) (by simp [hn0, hn, hroomS])
  have hneed := need_true (dstop u true tcMisalign a) (beq_iff_eq.2 halign)
  have hbad : scaleBad ((range 0 ((u.sreg f.vb + 2) / 3)).map (fun i => leNat (sliceOf bs.flatten (8 * i) 8))) = none := scaleBad_none fun y hy => by
    obtain ⟨i, hi, rfl⟩ := List.mem_map.1 hy
    exact hwords i (by simpa using (mem_range _ _ _).1 hi)
  simp only [hp, hcount, ha, hneed, hres, hread, hbad, bind, Except.bind]
  rw [range_zero_eq, List.flatMap_map]
  rfl

/-! ### MMA and MMAS (R344, R347 to R353) -/

theorem markMeta_keeps (u : UnitSt) (f : D64) : KeepsScalars (markMeta u f) ∧ ∀ y, (markMeta u f y).ctx.tiles = y.ctx.tiles := by
  have hall (y : UnitSt) : ((markMeta u f y).key = y.key ∧ (markMeta u f y).ctx.dat.s = y.ctx.dat.s ∧ (markMeta u f y).ctx.dat.m = y.ctx.dat.m) ∧
      (markMeta u f y).ctx.tiles = y.ctx.tiles := by
    unfold markMeta
    split
    · refine foldl_keeps (fun z : UnitSt => (z.key = y.key ∧ z.ctx.dat.s = y.ctx.dat.s ∧ z.ctx.dat.m = y.ctx.dat.m) ∧ z.ctx.tiles = y.ctx.tiles)
        (fun z _ hz => ?_) _ ⟨⟨rfl, rfl, rfl⟩, rfl⟩
      exact hz
    · exact ⟨⟨rfl, rfl, rfl⟩, rfl⟩
  exact ⟨fun y => (hall y).1, fun y => (hall y).2⟩

/-- The marks of MMA and MMAS. -/
def mmaMarks (mmas : Bool) (u : UnitSt) (f : D64) : UnitSt → UnitSt := if mmas then markMeta u f else id

theorem mmaMarks_keeps (mmas : Bool) (u : UnitSt) (f : D64) : KeepsScalars (mmaMarks mmas u f) ∧ ∀ y, (mmaMarks mmas u f y).ctx.tiles = y.ctx.tiles := by
  cases mmas with
  | true => exact markMeta_keeps u f
  | false => exact ⟨keepsScalars_id, fun _ => rfl⟩

theorem Claimed.of_tiles {u v w : UnitSt} {n tag : Nat} (h : Claimed u v n tag) (ht : w.ctx.tiles = v.ctx.tiles) : Claimed u w n tag := by
  have htile : w.tile n = v.tile n := by simp only [UnitSt.tile, ht]
  unfold Claimed
  rw [htile]
  exact h

/-- The first checks of MMA and MMAS. -/
def mmaFirst (f : D64) (mmas : Bool) (u : UnitSt) : Except Stop (UnitSt → UnitSt) := do
  if mmas then vregCheck u true [f.vb]
  tileCheck u f.vd.toNat
  if mmas then
    let _ ← tagCheck u true 1 f.vb.toNat (u.v f.vb).tag.toNat (fun t => t == 13)
  if !mmSet f then
    let _ ← tileTag u 3 f.vd.toNat (fun t => t == mmTileTag (fmtA f))
  pure (if mmas then markMeta u f else id)

theorem mmaFirst_ok {f : D64} {mmas : Bool} {u : UnitSt} (htile : f.vd.toNat < u.launch.tiles)
    (htag : mmSet f = true ∨ (u.tile f.vd.toNat).tag.toNat = mmTileTag (fmtA f))
    (hmeta : mmas = true → vregOk u f.vb.toNat = true ∧ (u.v f.vb).tag = 13) : mmaFirst f mmas u = .ok (mmaMarks mmas u f) := by
  have hset : mmSet f = false → tileTag u 3 f.vd.toNat (fun t => t == mmTileTag (fmtA f)) = .ok (mmTileTag (fmtA f)) := fun hs => by
    refine tileTag_ok (htag.resolve_left (by simp [hs])) ?_ (beq_self_eq_true _)
    unfold mmTileTag
    split <;> omega
  cases mmas with
  | false =>
    cases hs : mmSet f with
    | true => simp only [mmaFirst, tileCheck_ok htile, hs, bind, Except.bind]; rfl
    | false => simp only [mmaFirst, tileCheck_ok htile, hs, hset hs, bind, Except.bind]; rfl
  | true =>
    obtain ⟨hreg, ht⟩ := hmeta rfl
    have hv : vregCheck u true [f.vb] = .ok () := vregCheck_ok (by simpa using hreg)
    have htg : tagCheck u true 1 f.vb.toNat (u.v f.vb).tag.toNat (fun t => t == 13) = .ok 13 := by simp [tagCheck, ht]
    cases hs : mmSet f with
    | true => simp only [mmaFirst, hv, htg, tileCheck_ok htile, hs, bind, Except.bind]; rfl
    | false => simp only [mmaFirst, hv, htg, tileCheck_ok htile, hs, hset hs, bind, Except.bind]; rfl

theorem bits_div (x h l : Nat) : bits x h l = x / 2 ^ l % 2 ^ (h + 1 - l) := by rw [bits, Nat.shiftRight_eq_div_pow]

section
variable {s : State} {u : UnitSt} {f : D64} (h : DatAt s u) (hsp : u.ctx.spoison = []) (hma : u.ma ≠ 0)
include h hsp hma

theorem mma_pushes {mmas : Bool} {i : Instr} {wa wb : UnitSt} {oa ob sp sc k a b na nb : Nat} {caps : List Nat} (hi : i = if mmas then .mmas f else .mma f)
    (hspv : sp = u.sreg f.va) (hscv : sc = u.sreg f.vc) (hk : k = sc % 1024) (hav : a = sp % 2 ^ 25) (hbv : b = sp / 2 ^ 32 % 2 ^ 25)
    (hna : na = 64 * (if mmas then k / 2 else k) * fmtBits (fmtA f) / 8) (hnb : nb = 64 * k * fmtBits (fmtB f) / 8)
    (htile : f.vd.toNat < min 8 u.launch.tiles) (htag : mmSet f = true ∨ (u.tile f.vd.toNat).tag.toNat = mmTileTag (fmtA f))
    (hmeta : mmas = true → vregOk u f.vb.toNat = true ∧ (u.v f.vb).tag = 13) (hdesc : mmDescriptor u f mmas sp sc = none)
    (ha : a % 128 = 0) (hb : b % 128 = 0) (hra : resolve s u true a na = .ok (wa, oa)) (hrb : resolve s u true b nb = .ok (wb, ob))
    (hcaps : mmas = true → metaCheck u f k = .ok caps) (hnone : mmas = false → caps = []) (hfa : LinesFull wa oa na) (hfb : LinesFull wb ob nb)
    (hroom : queueRoom s u (matrixCmd s u (if mmas then 0x71 else 0x70) f sp sc a b caps) = true) :
    DataEnds s u i f.nas (fun t v => SameMemory (afterRead s u (operandLines [(wa, oa, na), (wb, ob, nb)])) t ∧
      SameSlices (afterRead s u (operandLines [(wa, oa, na), (wb, ob, nb)])) t u ∧
      (t.pairOf u.pair).mq = (s.pairOf u.pair).mq ++ [matrixCmd s u (if mmas then 0x71 else 0x70) f sp sc a b caps] ∧
      v.ctx.dat.s = u.ctx.dat.s ∧ v.ctx.dat.m = u.ctx.dat.m ∧ Claimed u v f.vd.toNat (mmTileTag (fmtA f))) := by
  have hexec : exec i s = mmaOp f mmas s := by rw [hi]; cases mmas <;> rfl
  obtain ⟨hmarks, htiles⟩ := mmaMarks_keeps mmas u f
  refine pushOp_pushes h (first := mmaFirst f mmas) (marks := mmaMarks mmas u f) (upd := claimTile f.vd.toNat (mmTileTag (fmtA f)))
    (x := readLines s u (operandLines [(wa, oa, na), (wb, ob, nb)])) hexec hma (mmaFirst_ok (by omega) htag hmeta) ?_ (.read h _) hroom hmarks
    (claimTile_keeps _ _) fun y hy => (claimTile_claims (by omega) (mmTileTag_lt _) hy).of_tiles (htiles _)
  have hp : poisonCheck u true [] [f.va, f.vc] = .ok () := poisonCheck_ok hsp (by simp)
  have haddrA : bits (u.sreg f.va) 24 0 = a := by rw [bits_div, hav, hspv, Nat.pow_zero, Nat.div_one]
  have haddrB : bits (u.sreg f.va) 56 32 = b := by rw [bits_div, hbv, hspv]
  have hneedA := need_true (dstop u true tcMisalign a) (beq_iff_eq.2 ha)
  have hneedB := need_true (dstop u true tcMisalign b) (beq_iff_eq.2 hb)
  have hl : lineCheck s u true f.fa (operandLines [(wa, oa, na), (wb, ob, nb)]) = .ok () := lineCheck_operands (by simp [hfa, hfb])
  have hbytesA : mmABytes (if mmas then 0x71 else 0x70) (u.sreg f.vc % 1024) (fmtA f) = na := by
    rw [hna, hk, hscv]; cases mmas <;> rfl
  have hbytesB : mmBBytes (u.sreg f.vc % 1024) (fmtB f) = nb := by rw [hnb, hk, hscv]; rfl
  rw [hspv, hscv] at hdesc
  simp only [hp, hdesc, haddrA, haddrB, hneedA, hneedB, hbytesA, hbytesB, hra, hrb, hl, bind, Except.bind, pure, Except.pure]
  rw [hspv, hscv]
  cases mmas with
  | true =>
    have hc := hcaps rfl
    rw [hk, hscv] at hc
    rw [if_pos rfl, hc]
  | false => rw [hnone rfl]; rfl

theorem mma_traps {c : Nat} (htile : f.vd.toNat < u.launch.tiles) (hset : mmSet f = true) (hdesc : mmDescriptor u f false (u.sreg f.va) (u.sreg f.vc) = some c) :
    exec (.mma f) s = .next (s.takeTrap u { code := 0x18, src := 5, pc := u.ctx.dat.pc, info := c }) := by
  refine pushOp_traps h (first := mmaFirst f false) (marks := mmaMarks false u f) (show exec (.mma f) s = mmaOp f false s from rfl) hma
    (mmaFirst_ok htile (.inl hset) (by simp)) ?_
  have hp : poisonCheck u true [] [f.va, f.vc] = .ok () := poisonCheck_ok hsp (by simp)
  simp only [hp, hdesc, bind, Except.bind]
  rfl

end

/-- The conditions of an MMA's descriptor, as R348 numbers them. -/
theorem mmDescriptor_mma (u : UnitSt) (f : D64) (sp sc : Nat) :
    mmDescriptor u f false sp sc =
      if sp / 2 ^ 25 % 2 ^ 7 ≠ 0 ∨ sp / 2 ^ 57 % 2 ^ 7 ≠ 0 ∨ sc / 2 ^ 10 % 2 ^ 6 ≠ 0 ∨ sc / 2 ^ 28 % 2 ^ 4 ≠ 0 ∨ sc / 2 ^ 44 % 2 ^ 20 ≠ 0 then some 1
      else if ¬ (8 ≤ sc % 1024 ∧ sc % 1024 ≤ 512 ∧ sc % 1024 % 8 = 0) then some 2
      else if (fmtA f = 5 ∨ fmtA f = 6 ∨ fmtA f = 7) ∧ (u.launch.scales * 512 < sc / 2 ^ 16 % 2 ^ 12 + 64 * (sc % 1024 / 8) ∨
        u.launch.scales * 512 < sc / 2 ^ 32 % 2 ^ 12 + 64 * (sc % 1024 / 8)) then some 3
      else if ¬ (fmtA f = 5 ∨ fmtA f = 6 ∨ fmtA f = 7) ∧ (sc / 2 ^ 16 % 2 ^ 12 ≠ 0 ∨ sc / 2 ^ 32 % 2 ^ 12 ≠ 0) then some 4
      else none := by
  unfold mmDescriptor mmScaled
  simp only [bits_div, Nat.reduceAdd, Nat.reduceSub, Bool.false_and, Bool.false_eq_true, if_false]
  refine if_congr ?_ rfl (if_congr ?_ rfl (if_congr ?_ rfl (if_congr ?_ rfl rfl)))
  · simp only [Bool.not_eq_true', Bool.and_eq_false_iff, beq_eq_false_iff_ne, ne_eq, or_assoc]
  · simp only [Bool.not_eq_true', Bool.and_eq_false_iff, decide_eq_false_iff_not, beq_eq_false_iff_ne, not_and_or, or_assoc]
  · simp only [Bool.and_eq_true, Bool.or_eq_true, decide_eq_true_eq, beq_iff_eq, or_assoc]
  · simp only [Bool.and_eq_true, Bool.or_eq_true, Bool.not_eq_true', Bool.or_eq_false_iff, beq_eq_false_iff_ne, bne_iff_ne, not_or, and_assoc]

/-- Settles O27: each instruction by its push, and the causes of a bad descriptor in the order of R348. -/
theorem matrixPushes : Obligations.MatrixPushes := by
  unfold Obligations.MatrixPushes
  refine ⟨fun f s u h hsp => ⟨fun hma => ⟨fun htile hfmt => ⟨fun hroom => ?_, fun hroom => ?_⟩, fun w a off n ha halign hn hres => ⟨fun htile hfull hroom => ?_,
      fun htile htag hsuits hno hroom => ?_⟩, fun hreg htile htag hroom => ?_, ?_, ?_⟩, fun hma htile => ?_⟩, fun f s u h hsp hma htile hset => ?_⟩
  · exact mzero_pushes h hma htile hfmt hroom
  · exact mzero_waits h hma (by omega) hroom
  · exact mlda_pushes h hsp ha halign hn hres hma htile hfull hroom
  · exact msta_pushes h hsp ha halign hn hres hma htile htag hsuits hno hroom
  · exact mrdv_pushes h hma hreg htile htag hroom
  · intro x bs w a off n o nw word hn0 hn hroomS ha halign hres hread hwords hroom
    exact mscl_pushes h hsp hma hn0 hn hroomS ha halign hres hread hwords hroom
  · intro mmas i wa wb oa ob caps hi sp sc k a b na nb htile htag hmeta hlb hdesc ha hb hra hrb hcaps hnone hfa hfb hroom
    exact mma_pushes h hsp hma hi rfl rfl rfl rfl rfl rfl rfl htile htag hmeta hdesc ha hb hra hrb hcaps hnone hfa hfb hroom
  · exact mzero_skips h hma htile
  · intro sp sc k offA offB scaled bad1 bad2 bad3 bad4 traps
    have hdesc := mmDescriptor_mma u f sp sc
    refine ⟨fun h1 => ?_, fun h1 h2 => ?_, fun h1 h2 h3 => ?_, fun h1 h2 h4 => ?_⟩
    · exact mma_traps h hsp hma htile hset (hdesc.trans (if_pos h1))
    · exact mma_traps h hsp hma htile hset (hdesc.trans ((if_neg h1).trans (if_pos h2)))
    · exact mma_traps h hsp hma htile hset (hdesc.trans ((if_neg h1).trans ((if_neg h2).trans (if_pos h3))))
    · have h3 : ¬ bad3 := fun h3 => h4.1 h3.1
      exact mma_traps h hsp hma htile hset (hdesc.trans ((if_neg h1).trans ((if_neg h2).trans ((if_neg h3).trans (if_pos h4)))))

end Sys2Proof.Machine
end

section
/-!
Subscriptions and mirrors: SUBS, UNSUB, their answers, and the updates (R65 to R73, R363, R385, R386).
-/

namespace Sys2Proof.Machine

/-! ### The causes of SUBS (R363, R385) -/

/-- A mirror of the unit meets the range. -/
def MeetsMirror (u : UnitSt) (off n : Nat) (b : Subscription) : Prop := b.unit = u.key ∧ overlap b.off b.size off n = true

theorem counterCause_named {f : CX} {u : UnitSt} (h : f.imm.getLsbD 8 = true → f.imm.toNat % 256 < u.launch.counters) : counterCause u (cmdCounter f) = [] := by
  unfold cmdCounter
  split
  · exact counterCause_declared (h ‹_›)
  · rfl

theorem causeIf_false (c : Nat) : causeIf false c = [] := rfl

theorem not_inWindow {a : Nat} (h : a < localWindow) : inWindow a = false := by simp [inWindow, h]

theorem overlap_below {g n m : Nat} (h : g + n ≤ localWindow) : overlap g n localWindow m = false := by simp [overlap, h.not_gt]

/-- The shape of a range that R65 does not allow. -/
def BadShape (u : UnitSt) (lw g n : Nat) : Prop := lw % 128 ≠ 0 ∨ g % 128 ≠ 0 ∨ n % 128 ≠ 0 ∨ n = 0 ∨ 2 ^ 18 < n ∨ u.regionBytes < lw - localWindow + n

theorem badShape_iff (u : UnitSt) (lw g n : Nat) : (lw % 128 != 0 || g % 128 != 0 || n % 128 != 0 || n == 0 || decide (2 ^ 18 < n) ||
    decide (u.regionBytes < lw - localWindow + n)) = true ↔ BadShape u lw g n := by
  simp only [BadShape, Bool.or_eq_true, bne_iff_ne, beq_iff_eq, decide_eq_true_eq, ne_eq, or_assoc]

theorem noActive_any {f : CX} {s : State} {u : UnitSt} (hno : ∀ b ∈ s.subs, ¬ (MeetsMirror u ((u.c f.ra).toNat - localWindow) (u.c f.rc).toNat b ∧ b.active = true)) :
    s.subs.any (fun b => b.unit == u.key && b.active && overlap b.off b.size ((u.c f.ra).toNat - localWindow) (u.c f.rc).toNat) = false := by
  refine List.any_eq_false.2 fun b hb hc => hno b hb ?_
  simp only [Bool.and_eq_true, beq_iff_eq] at hc
  exact ⟨⟨hc.1.1, hc.2⟩, hc.1.2⟩

section
variable {f : CX} {s : State} {u : UnitSt} (h : CtlAt s u) (hctr : f.imm.getLsbD 8 = true → f.imm.toNat % 256 < u.launch.counters)
  (hlw : inWindow (u.c f.ra).toNat = true) (hg : (u.c f.rb).toNat < localWindow) (hgn : (u.c f.rb).toNat + (u.c f.rc).toNat ≤ localWindow)
include h hctr hlw hg hgn

theorem subs_overActive (hact : ∃ b ∈ s.subs, MeetsMirror u ((u.c f.ra).toNat - localWindow) (u.c f.rc).toNat b ∧ b.active = true) :
    exec (.subs f) s = .next (s.trapC u 0x18 0 5) := by
  have hcc (k : CmdKind) : counterCause u (newCmd s u f 0 (u.c f.ra).toNat (u.c f.rb).toNat k).ctr = [] := counterCause_named hctr
  have hany : s.subs.any (fun b => b.unit == u.key && b.active && overlap b.off b.size ((u.c f.ra).toNat - localWindow) (u.c f.rc).toNat) = true := by
    obtain ⟨b, hb, ⟨hunit, hov⟩, hact⟩ := hact
    exact List.any_eq_true.2 ⟨b, hb, by simp [hunit, hact, hov]⟩
  have hdesc (c : Bool) : engDesc s u ([] ++ [] ++ causeIf true 5 ++ causeIf c 7) = some (s.trapC u 0x18 0 5) := by cases c <;> rfl
  show execSubs f s = _
  simp only [execSubs, onCtl_at h, hcc, hlw, not_inWindow hg, overlap_below hgn, hany, Bool.not_true, Bool.or_self, Bool.and_self, causeIf_false, hdesc]

theorem subs_malformed (hno : ∀ b ∈ s.subs, ¬ (MeetsMirror u ((u.c f.ra).toNat - localWindow) (u.c f.rc).toNat b ∧ b.active = true))
    (hbad : BadShape u (u.c f.ra).toNat (u.c f.rb).toNat (u.c f.rc).toNat ∨ ∃ b ∈ s.subs, MeetsMirror u ((u.c f.ra).toNat - localWindow) (u.c f.rc).toNat b) :
    exec (.subs f) s = .next (s.trapC u 0x18 0 7) := by
  have hcc (k : CmdKind) : counterCause u (newCmd s u f 0 (u.c f.ra).toNat (u.c f.rb).toNat k).ctr = [] := counterCause_named hctr
  have hactive := noActive_any hno
  have hseven : ((u.c f.ra).toNat % 128 != 0 || (u.c f.rb).toNat % 128 != 0 || (u.c f.rc).toNat % 128 != 0 || (u.c f.rc).toNat == 0 ||
      decide (2 ^ 18 < (u.c f.rc).toNat) || decide (u.regionBytes < (u.c f.ra).toNat - localWindow + (u.c f.rc).toNat) ||
      s.subs.any (fun b => b.unit == u.key && overlap b.off b.size ((u.c f.ra).toNat - localWindow) (u.c f.rc).toNat)) = true := by
    rw [Bool.or_eq_true, badShape_iff]
    refine hbad.imp_right fun ⟨b, hb, hunit, hov⟩ => List.any_eq_true.2 ⟨b, hb, by simp [hunit, hov]⟩
  have hdesc : engDesc s u ([] ++ [] ++ [] ++ causeIf true 7) = some (s.trapC u 0x18 0 7) := rfl
  show execSubs f s = _
  simp only [execSubs, onCtl_at h, hcc, hlw, not_inWindow hg, overlap_below hgn, hactive, hseven, Bool.not_true, Bool.or_self, Bool.and_false, causeIf_false, hdesc]

end

/-! ### The home's answer (R66, R68, R71) -/

/-- A running unit waits for the home's answer to subscription id. -/
def subsWaits (id : Nat) (u : UnitSt) : Bool := u.running && (match u.ctx.ctl.wait with | .subs _ k _ _ _ _ _ _ => k == id | _ => false)

theorem subsWaits_of {id gbase size off : Nat} {c : Cmd} {spans : List (Nat × Nat)} {rd : BitVec 6} {pages : List (Nat × Nat × Bool)} {u : UnitSt}
    (hrun : u.running = true) (hwait : u.ctx.ctl.wait = .subs c id gbase spans size off rd pages) : subsWaits id u = true := by
  simp [subsWaits, hrun, hwait]

theorem subsWaits_wait {id : Nat} {u : UnitSt} (h : subsWaits id u = true) :
    ∃ c gbase spans size off rd pages, u.ctx.ctl.wait = .subs c id gbase spans size off rd pages := by
  unfold subsWaits at h
  obtain ⟨-, h⟩ := Bool.and_eq_true_iff.1 h
  split at h
  · next hw => exact ⟨_, _, _, _, _, _, _, by rw [hw, beq_iff_eq.1 h]⟩
  · simp at h

theorem find?_of_imp {α : Type} {p q : α → Bool} {a : α} (hp : p a = true) : ∀ {l : List α}, (∀ x ∈ l, p x = true → q x = true) → l.find? q = some a → l.find? p = some a
  | x :: xs, himp, hq => by
    obtain ⟨hx, hxs⟩ := List.forall_mem_cons.1 himp
    rw [List.find?_cons] at hq ⊢
    cases hqx : q x <;> rw [hqx] at hq
    · have hpx : p x = false := Bool.eq_false_iff.2 fun h => by simp [hx h] at hqx
      simpa [hpx] using find?_of_imp hp hxs hq
    · obtain rfl : x = a := by simpa using hq
      simp [hp]

theorem find?_of_unique {α : Type} {p : α → Bool} {a : α} {l : List α} (ha : a ∈ l) (hp : p a = true) (huniq : ∀ x ∈ l, p x = true → x = a) : l.find? p = some a := by
  obtain ⟨b, hb⟩ := Option.isSome_iff_exists.1 (List.find?_isSome.2 ⟨a, ha, hp⟩)
  rw [hb, huniq b (List.mem_of_find?_eq_some hb) (List.find?_some hb)]

theorem recallMerged_effect (s : State) (line : Nat) : CacheEffect s (recallMerged s line) := by
  refine CacheEffect.foldl (fun t p => ?_) _ s
  split
  · exact .refl t
  · exact (homeMerge_effect _ _ _ _).cache.trans (l1Drop_effect _ _ _ _)

theorem recallRange_effect (n : Nat) : ∀ {s t : State} {line : Nat}, recallRange n s line = some t → CacheEffect s t := by
  induction n with
  | zero => intro s t line h; obtain rfl : s = t := by simpa [recallRange] using h
            exact .refl s
  | succ n ih =>
    intro s t line h
    unfold recallRange at h
    split at h
    · simp at h
    · next hq => exact ((quiesce_effect hq).trans (recallMerged_effect _ _)).trans (ih h)

theorem recallSpans_effect (l : List (Nat × Nat)) : ∀ {s t : State}, recallSpans l s = some t → CacheEffect s t := by
  induction l with
  | nil => intro s t h; obtain rfl : s = t := by simpa [recallSpans] using h
           exact .refl s
  | cons p r ih =>
    intro s t h
    obtain ⟨x, hx, ht⟩ := Option.bind_eq_some_iff.1 h
    exact (recallRange_effect _ hx).trans (ih ht)

theorem cohReadN_effect {cls : Option Nat} (k : Nat) : ∀ {s t : State} {pa n : Nat} {bs : List TByte}, cohReadN cls k s pa n = some (t, bs) → CacheEffect s t := by
  induction k with
  | zero => intro s t pa n bs h; obtain ⟨rfl, -⟩ : s = t ∧ _ := by simpa [cohReadN] using h
            exact .refl s
  | succ k ih =>
    intro s t pa n bs h
    simp only [cohReadN] at h
    split at h
    · obtain ⟨rfl, -⟩ : s = t ∧ _ := by simpa using h
      exact .refl s
    · split at h
      · simp at h
      · next hr =>
        split at h
        · simp at h
        · next hrest =>
          obtain ⟨rfl, -⟩ : _ = t ∧ _ := by simpa using h
          exact (cohRead_effect hr).trans (ih hrest)

theorem readSpans_effect (l : List (Nat × Nat)) : ∀ {s t : State} {bs : List Byte}, readSpans s l = some (t, bs) → CacheEffect s t := by
  induction l with
  | nil => intro s t bs h; obtain ⟨rfl, -⟩ : s = t ∧ _ := by simpa [readSpans] using h
           exact .refl s
  | cons p r ih =>
    intro s t bs h
    unfold readSpans at h
    split at h
    · simp at h
    · next hr =>
      split at h
      · simp at h
      · next hrest =>
        obtain ⟨rfl, -⟩ : _ = t ∧ _ := by simpa using h
        exact (cohReadN_effect _ hr).trans (ih hrest)

theorem UnitSt.setC_settled (u : UnitSt) (i : BitVec 6) (x : Word) : (u.setC i x).settled = u.settled.setC i x := by
  unfold UnitSt.setC Ctl.setC UnitSt.settled
  by_cases h : i = 0 <;> simp only [h, if_true, if_false] <;> rfl

theorem UnitSt.setC_pc (u : UnitSt) (i : BitVec 6) (x : Word) : (u.setC i x).ctx.ctl.pc = u.ctx.ctl.pc := by
  unfold UnitSt.setC Ctl.setC
  by_cases h : i = 0 <;> simp only [h, if_true, if_false] <;> rfl

/-- A command that issues completes its instruction. -/
theorem issueCmd_completes {s : State} {u u0 : UnitSt} (c : Cmd) (hf : s.findUnit u.key = some u0) : (issueCmd s u c).subs = s.subs ∧
    ∃ v, (issueCmd s u c).findUnit u.key = some v ∧ v.ctx.ctl.c = u0.ctx.ctl.c ∧ v.ctx.ctl.pc = u0.ctx.ctl.pc + 2 ∧ v.ctx.ctl.wait = .none := by
  have heff := releaseFx_effect s u.key u.pair (engScope c.scope)
  obtain ⟨w, hw, hset⟩ := heff.findUnit hf
  have hread : reread (releaseFx s u.key u.pair (engScope c.scope)) u = w := by simp [reread, hw]
  obtain ⟨hsame, -⟩ := emptyLines_spec (c.restLines u.regionBytes) w
  have hissue : issueCmd s u c = State.retireC { releaseFx s u.key u.pair (engScope c.scope) with
      cmds := (releaseFx s u.key u.pair (engScope c.scope)).cmds ++ [{ c with id := (releaseFx s u.key u.pair (engScope c.scope)).fresh }]
      fresh := (releaseFx s u.key u.pair (engScope c.scope)).fresh + 1 } (UnitSt.emptyLines (c.restLines u.regionBytes) w) 2 := by
    rw [← hread]; rfl
  rw [hissue]
  exact ⟨heff.subs, _, (State.retireC_retired _ u _ w 2 (hsame.key.trans (State.findUnit_key _ _ _ hw)) hw).1,
    (congrArg Ctl.c hsame.ctl).trans (UnitSt.settled_c hset), congrArg (· + 2) ((congrArg Ctl.pc hsame.ctl).trans (UnitSt.settled_pc hset)), rfl⟩

section
variable {s : State} {u : UnitSt} {c : Cmd} {id gbase size off d : Nat} {spans : List (Nat × Nat)} {rd : BitVec 6} {pages : List (Nat × Nat × Bool)}
  (hfind : s.units.find? (subsWaits id) = some u) (hwait : u.ctx.ctl.wait = .subs c id gbase spans size off rd pages) (hd : homeDie s (spanPa spans 0) = some d)
include hfind hwait hd

theorem subsAccept_full (hfull : 256 ≤ (s.subs.filter (fun b => b.die == d)).length) : exec (.subsAccept id) s = .next (s.retireC (u.setC rd 1) 2) := by
  show execSubsAccept id s = _
  unfold execSubsAccept
  dsimp only
  split
  · next hv => exact absurd (hv.symm.trans hfind) (by simp)
  · next hv =>
    obtain rfl := Option.some.inj (hv.symm.trans hfind)
    simp only [hwait, hd, Option.getD_some, hfull, if_true]

theorem subsAccept_issues (hroom : (s.subs.filter (fun b => b.die == d)).length < 256) (hslot : queueHasSlot s u.pair 0 id = true)
    (hread : ((recallSpans spans s).bind (fun x => readSpans x spans)).isSome) :
    ∃ (y : State) (c' : Cmd) (n : Nat), exec (.subsAccept id) s = .next (issueCmd (y.modUnit u.key (fun v => v.setC rd 0)) u c') ∧ y.settled = s.settled ∧
      (⟨id, u.key, off, gbase, spans, size, d, n, true, pages⟩ : Subscription) ∈ y.subs := by
  obtain ⟨⟨t, bs⟩, hread⟩ := Option.isSome_iff_exists.1 hread
  obtain ⟨x, hx, ht⟩ := Option.bind_eq_some_iff.1 hread
  have heff : CacheEffect s t := (recallSpans_effect spans hx).trans (readSpans_effect spans ht)
  have hnot : ¬ 256 ≤ (s.subs.filter (fun b => b.die == d)).length := by omega
  show ∃ (y : State) (c' : Cmd) (n : Nat), execSubsAccept id s = _ ∧ _
  unfold execSubsAccept
  dsimp only
  split
  · next hv => exact absurd (hv.symm.trans hfind) (by simp)
  · next hv =>
    obtain rfl := Option.some.inj (hv.symm.trans hfind)
    simp only [hwait, hd, Option.getD_some, hnot, if_false, hslot, Bool.not_true, Bool.false_eq_true, hread]
    refine ⟨_, _, _, rfl, ?_, List.mem_append_right _ (List.mem_singleton.2 rfl)⟩
    split
    · exact heff.1
    · exact heff.1

theorem subsAccept_completes (hroom : (s.subs.filter (fun b => b.die == d)).length < 256) (hslot : queueHasSlot s u.pair 0 id = true)
    (hread : ((recallSpans spans s).bind (fun x => readSpans x spans)).isSome) (hu : s.findUnit u.key = some u) :
    ∃ t v, exec (.subsAccept id) s = .next t ∧ t.findUnit u.key = some v ∧ v.ctx.ctl.c = (u.setC rd 0).ctx.ctl.c ∧
      v.ctx.ctl.pc = u.ctx.ctl.pc + 2 ∧ v.ctx.ctl.wait = .none ∧
      ∃ n, (⟨id, u.key, off, gbase, spans, size, d, n, true, pages⟩ : Subscription) ∈ t.subs := by
  obtain ⟨y, c', n, hexec, hset, hmem⟩ := subsAccept_issues hfind hwait hd hroom hslot hread
  obtain ⟨w, hw, hws⟩ := State.findUnit_of_settled hset hu
  have hfound : (y.modUnit u.key (fun v => v.setC rd 0)).findUnit u.key = some (w.setC rd 0) := by
    rw [State.findUnit_modUnit (f := fun v => v.setC rd 0) _ _ _ (fun _ => rfl), hw]
    simp [UnitSt.key_of_settled hws]
  obtain ⟨hsubs, v, hv, hc, hpc, hwt⟩ := issueCmd_completes c' hfound
  have hreg : (w.setC rd 0).settled = (u.setC rd 0).settled := by rw [UnitSt.setC_settled, UnitSt.setC_settled, hws]
  refine ⟨_, v, hexec, hv, hc.trans (UnitSt.settled_c hreg), hpc.trans ?_, hwt, n, ?_⟩
  · rw [UnitSt.settled_pc hreg, UnitSt.setC_pc]
  · rw [hsubs]; exact hmem

end

/-! ### SUBS with a valid range (R65, R385) -/

theorem subsPages_effect {u : UnitSt} {root : Nat} {allowed : Bool} (l : List Nat) :
    ∀ {s t : State} {ps : List (Nat × Nat × Nat × Bool)}, subsPages u root allowed l s = .ok t ps → CacheEffect s t := by
  induction l with
  | nil => intro s t ps h; obtain ⟨rfl, -⟩ : s = t ∧ _ := by simpa [subsPages] using h
           exact .refl s
  | cons va r ih =>
    intro s t ps h
    have hx := xlateNow_effect s true u.launch.cls u.pair u.key.job root { kind := .engRead, subs := true } va
    simp only [subsPages] at h
    split at h
    · next x pa e lvl hok =>
      rw [hok] at hx
      split at h
      · simp at h
      · split at h
        · next hr =>
          obtain ⟨rfl, -⟩ : _ = t ∧ _ := by simpa using h
          exact hx.trans (ih hr)
        · simp at h
        · simp at h
    · simp at h
    · simp at h
    · simp at h

/-- A range that R65 allows, which meets no mirror, with a declared counter. -/
structure ValidSubs (f : CX) (s : State) (u : UnitSt) : Prop where
  window : inWindow (u.c f.ra).toNat = true
  below : (u.c f.rb).toNat + (u.c f.rc).toNat ≤ localWindow
  shape : ¬ BadShape u (u.c f.ra).toNat (u.c f.rb).toNat (u.c f.rc).toNat
  nothing : ∀ b ∈ s.subs, b.unit ≠ u.key
  counter : f.imm.getLsbD 8 = true → f.imm.toNat % 256 < u.launch.counters

/-- What a SUBS waits for once its pages are translated. -/
def subsWait (f : CX) (s t : State) (u : UnitSt) (ps : List (Nat × Nat × Nat × Bool)) : CtlWait :=
  .subs { newCmd s u f 0 (u.c f.ra).toNat (u.c f.rb).toNat (.subs s.fresh (u.c f.rc).toNat) with kind := .subs t.fresh (u.c f.rc).toNat } t.fresh (u.c f.rb).toNat
    (spansOf (u.c f.rb).toNat (u.c f.rc).toNat (ps.map (fun p => p.2.1))) (u.c f.rc).toNat ((u.c f.ra).toNat - localWindow) f.rd
    (ps.map (fun p => (p.1, p.2.2.1, p.2.2.2)))

theorem exec_subs {f : CX} {s t : State} {u : UnitSt} {j : Job} {ps : List (Nat × Nat × Nat × Bool)} (h : CtlAt s u) (hj : s.job u.key.job = some j)
    (hv : ValidSubs f s u) (hreg : regionOkLong u (u.c f.rb).toNat (u.c f.rc).toNat true false = true)
    (hps : subsPages u j.root true (pageStarts (u.c f.rb).toNat (u.c f.rc).toNat) s = .ok t ps) :
    exec (.subs f) s = .next (
      if !ownStore t (dieOf u.pair) (spansOf (u.c f.rb).toNat (u.c f.rc).toNat (ps.map (fun p => p.2.1))) then t.trapC u 0x18 0 7
      else if !readyToIssue u f.scope.toNat then t.waitC u .release
      else State.waitC { t with fresh := t.fresh + 1 } u (subsWait f s t u ps)) := by
  have hcc (k : CmdKind) : counterCause u (newCmd s u f 0 (u.c f.ra).toNat (u.c f.rb).toNat k).ctr = [] := counterCause_named hv.counter
  have hshape := Bool.eq_false_iff.2 (mt (badShape_iff u _ _ _).1 hv.shape)
  have hn : 0 < (u.c f.rc).toNat := Nat.pos_of_ne_zero fun h0 => hv.shape (.inr (.inr (.inr (.inl h0))))
  have hg : (u.c f.rb).toNat < localWindow := by have := hv.below; omega
  have hend : ¬ 2 ^ 57 ≤ (u.c f.rb).toNat + (u.c f.rc).toNat := by have := hv.below; simp only [localWindow] at this; omega
  have hmine : s.subs.any (fun b => b.unit == u.key && overlap b.off b.size ((u.c f.ra).toNat - localWindow) (u.c f.rc).toNat) = false :=
    List.any_eq_false.2 fun b hb hc => hv.nothing b hb (by simp only [Bool.and_eq_true, beq_iff_eq] at hc; exact hc.1)
  have hactive := noActive_any (s := s) (u := u) (f := f) fun b hb hm => hv.nothing b hb hm.1.1
  have hdesc : engDesc s u ([] ++ [] ++ [] ++ []) = none := rfl
  show execSubs f s = _
  simp only [execSubs, onCtl_at h, hcc, hv.window, not_inWindow hg, overlap_below hv.below, hactive, hshape, hmine, Bool.not_true, Bool.or_self, Bool.and_false,
    causeIf_false, hdesc, hend, if_false, hreg, if_true, ite_self, hj, hps]
  rfl

/-- The unit that waits for its home's answer is the one that the answer finds. -/
theorem subsAccept_finds {x : State} {u u0 : UnitSt} {w : CtlWait} {c : Cmd} {id gbase size off : Nat} {spans : List (Nat × Nat)} {rd : BitVec 6}
    {pages : List (Nat × Nat × Bool)} (hrun : u.running = true) (hx : x.findUnit u.key = some u0) (hw : w = .subs c id gbase spans size off rd pages)
    (huniq : ∀ v ∈ (x.waitC u w).units, ∀ c' g' p' n' o' r' q', v.ctx.ctl.wait = .subs c' id g' p' n' o' r' q' → v.key = u.key) :
    (x.waitC u w).findUnit u.key = some (u.modCtl (fun c => { c with wait := w })) ∧
    (x.waitC u w).units.find? (subsWaits id) = some (u.modCtl (fun c => { c with wait := w })) := by
  have hput : (x.waitC u w).findUnit u.key = some (u.modCtl (fun c => { c with wait := w })) := State.putUnit_findUnit_same x _ u0 hx
  refine ⟨hput, find?_of_imp (subsWaits_of (u := u.modCtl (fun c => { c with wait := w })) hrun hw) (fun v hv hp => ?_) hput⟩
  obtain ⟨_, _, _, _, _, _, _, hwait⟩ := subsWaits_wait hp
  simpa using huniq v hv _ _ _ _ _ _ _ hwait

/-! ### UNSUB and the end of a subscription (R72, R386) -/

theorem unsub_none {f : CX} {s : State} {u : UnitSt} (h : CtlAt s u) (hlw : inWindow (u.c f.ra).toNat = true)
    (hno : ∀ b ∈ s.subs, b.unit = u.key → localWindow + b.off ≠ (u.c f.ra).toNat) : exec (.unsub f) s = .next (s.trapC u 0x18 0 8) := by
  have hfind : s.subs.find? (fun b => b.unit == u.key && localWindow + b.off == (u.c f.ra).toNat) = none :=
    List.find?_eq_none.2 fun b hb hc => by
      simp only [Bool.and_eq_true, beq_iff_eq] at hc
      exact hno b hb hc.1 hc.2
  have hdesc : engDesc s u ([] ++ causeIf true 8) = some (s.trapC u 0x18 0 8) := rfl
  show execUnsub f s = _
  simp only [execUnsub, onCtl_at h, hlw, hfind, Bool.not_true, causeIf_false, Option.isNone_none, hdesc]

theorem unsub_asks {f : CX} {s : State} {u : UnitSt} {b : Subscription} (h : CtlAt s u) (hlw : inWindow (u.c f.ra).toNat = true)
    (hfind : s.subs.find? (fun b => b.unit == u.key && localWindow + b.off == (u.c f.ra).toNat) = some b) :
    exec (.unsub f) s = .next (s.waitC u (.unsub b.id)) := by
  have hdesc : engDesc s u ([] ++ []) = none := rfl
  show execUnsub f s = _
  simp only [execUnsub, onCtl_at h, hlw, hfind, Bool.not_true, causeIf_false, Option.isNone_some, hdesc]

theorem applyUpdate_eq {s : State} {b : Subscription} {u : UnitSt} (x : Update) (hu : s.findUnit b.unit = some u) : applyUpdate s b x =
    { noteWrite ((s.clearPoison (u.pantryPa (b.off + x.off)) x.data.length).setBytes (u.pantryPa (b.off + x.off)) (sealList 0 (u.pantryPa (b.off + x.off)) x.data))
        (u.pantryPa (b.off + x.off)) x.data.length with
      subs := mapIf (fun y => y.id == b.id) (fun y => { y with last := x.seqno }) s.subs } := by
  simp only [applyUpdate, hu]
  rfl

theorem applyUpdate_settled (s : State) (b : Subscription) (x : Update) : (applyUpdate s b x).settled = s.settled := by
  cases hu : s.findUnit b.unit with
  | none => simp only [applyUpdate, hu]
  | some u => rw [applyUpdate_eq x hu]; exact noteWrite_settled _ _ _

theorem dropRecords_keeps (s : State) : (dropRecords s).units = s.units ∧ (dropRecords s).subs = s.subs := by
  unfold dropRecords
  refine foldl_keeps (fun t : State => t.units = s.units ∧ t.subs = s.subs) (fun t d h => ?_) _ ⟨rfl, rfl⟩
  exact h

theorem endSub_settled (s : State) (b : Subscription) (apply_ : Bool) : (endSub s b apply_).settled = s.settled := by
  unfold endSub
  dsimp only
  refine (State.settled_congr (dropRecords_keeps _).1).trans ?_
  cases apply_
  · rfl
  · exact foldl_keeps (fun t : State => t.settled = s.settled) (fun t x h => (applyUpdate_settled t b x).trans h) _ rfl

theorem endSub_gone (s : State) (b : Subscription) (apply_ : Bool) : ∀ x ∈ (endSub s b apply_).subs, x.id ≠ b.id := by
  intro x hx
  unfold endSub at hx
  rw [(dropRecords_keeps _).2] at hx
  simpa using (List.mem_filter.1 hx).2

theorem unsubProcess_completes {s : State} {u : UnitSt} {p k sub : Nat} (hres : s.resident p k = some u) (hu : s.findUnit u.key = some u)
    (hwait : u.ctx.ctl.wait = .unsub sub) (hidle : ∀ c ∈ s.cmds, c.inFlight = false) :
    ∃ t v, exec (.unsubProcess p k) s = .next t ∧ (∀ b ∈ t.subs, b.id ≠ sub) ∧
      t.findUnit u.key = some v ∧ v.ctx.ctl.c = u.ctx.ctl.c ∧ v.ctx.ctl.pc = u.ctx.ctl.pc + 2 ∧ v.ctx.ctl.wait = .none := by
  have hrun (q : Cmd → Bool) : s.cmds.any (fun c => c.inFlight && q c) = false := List.any_eq_false.2 fun c hc => by simp [hidle c hc]
  -- the state after the end of the subscription, if there is one
  have hend (t : State) (hset : t.settled = s.settled) (hgone : ∀ b ∈ t.subs, b.id ≠ sub)
      (hexec : exec (.unsubProcess p k) s = .next (t.retireC (reread t u) 2)) :
      ∃ t v, exec (.unsubProcess p k) s = .next t ∧ (∀ b ∈ t.subs, b.id ≠ sub) ∧
        t.findUnit u.key = some v ∧ v.ctx.ctl.c = u.ctx.ctl.c ∧ v.ctx.ctl.pc = u.ctx.ctl.pc + 2 ∧ v.ctx.ctl.wait = .none := by
    obtain ⟨v, hv, hvs, hvw⟩ := State.retireC_of_settled hset hu 2
    obtain ⟨hc, -, hpc⟩ := retired_of_settled hvs
    exact ⟨_, v, hexec, hgone, hv, hc, hpc, hvw⟩
  cases hsub : s.subs.find? (fun b => b.id == sub) with
  | none =>
    refine hend s rfl (fun b hb => by simpa using List.find?_eq_none.1 hsub b hb) ?_
    show execUnsubProcess p k s = _
    simp only [execUnsubProcess, hres, hwait, hrun, hsub, Bool.false_eq_true, if_false]
  | some b =>
    obtain rfl : b.id = sub := by simpa using List.find?_some hsub
    refine hend (endSub s b true) (endSub_settled s b true) (endSub_gone s b true) ?_
    show execUnsubProcess p k s = _
    simp only [execUnsubProcess, hres, hwait, hrun, hsub, Bool.false_eq_true, if_false]

/-- A resident is still found in its slot after an update that leaves its place. -/
theorem State.resident_putUnit {s : State} {p k : Nat} {u v : UnitSt} (hres : s.resident p k = some u) (hu : s.findUnit u.key = some u)
    (hkey : v.key = u.key) (hplace : v.place = u.place) : (s.putUnit v).resident p k = some v := by
  have hpu : u.place = .placed p k := State.resident_place hres
  show (putUnitL v s.units).find? _ = _
  change s.units.find? _ = _ at hres
  change s.units.find? _ = _ at hu
  generalize s.units = l at hres hu
  induction l with
  | nil => simp at hres
  | cons x xs ih =>
    rw [List.find?_cons] at hres hu
    unfold putUnitL
    by_cases hx : x.key = u.key
    · simp [hkey, hx, hplace, hpu]
    · have hxu : x ≠ u := fun e => hx (by rw [e])
      have hk : (x.key == u.key) = false := by simpa using hx
      have hp : (x.place == .placed p k) = false := Bool.eq_false_iff.2 fun hp => by simp [hp, hxu] at hres
      rw [hp] at hres
      rw [hk] at hu
      simp only [hkey, hx, if_false, List.find?_cons, hp]
      exact ih hres hu

theorem CtlAt.resident {s : State} {u : UnitSt} (h : CtlAt s u) : s.resident u.pair u.slot = some u := by
  have hplace := h.place
  obtain ⟨p, k, -, hres, -, -⟩ := h
  obtain ⟨rfl, rfl⟩ : u.pair = p ∧ u.slot = k := by simpa [hplace] using State.resident_place hres
  exact hres

/-! ### The updates of a mirror (R69) -/

theorem sealList_length (k : Nat) (bs : List Byte) : ∀ pa, (sealList k pa bs).length = bs.length := by
  induction bs with
  | nil => intro; rfl
  | cons b bs ih => intro pa; simp [sealList, ih]

theorem sealList_v (k : Nat) (bs : List Byte) : ∀ pa i (h : i < (sealList k pa bs).length), (sealList k pa bs)[i].v = bs.getD i 0 := by
  induction bs with
  | nil => intro pa i h; simp [sealList] at h
  | cons b bs ih =>
    intro pa i h
    cases i with
    | zero => rfl
    | succ i => simpa [sealList] using ih (pa + 1) i (by simpa [sealList] using h)

theorem exec_mirrorUpdate {s : State} {b : Subscription} {u : UnitSt} {x : Update} {i p k : Nat} (hb : s.subs.find? (fun y => y.id == b.id) = some b)
    (hu : s.findUnit b.unit = some u) (hplace : u.place = .placed p k) (hx : findIdxVal (fun (y : Update) => y.sub == b.id) s.updates 0 = some (i, x))
    (hact : b.active = true) (hlanded : imagePending s b.id = false) :
    exec (.mirrorUpdate b.id) s = .next (applyUpdate { s with updates := dropIdx s.updates i } b x) := by
  show execMirrorUpdate b.id s = _
  simp [execMirrorUpdate, hb, hx, hu, hplace, hact, hlanded]

theorem mirrorUpdate_applies {s : State} {b : Subscription} {u : UnitSt} {x : Update} {i p k : Nat} (hwf : s.memWf = true)
    (hb : s.subs.find? (fun y => y.id == b.id) = some b) (hu : s.findUnit b.unit = some u) (hplace : u.place = .placed p k)
    (hx : findIdxVal (fun (y : Update) => y.sub == b.id) s.updates 0 = some (i, x)) (hact : b.active = true) (hlanded : imagePending s b.id = false) :
    ∃ t, exec (.mirrorUpdate b.id) s = .next t ∧ t.memWf = true ∧ t.updates = dropIdx s.updates i ∧
      t.subs = mapIf (fun y => y.id == b.id) (fun y => { y with last := x.seqno }) s.subs ∧
      (∀ n < x.data.length, (t.byteAt (u.pantryPa (b.off + x.off) + n)).v = x.data.getD n 0) ∧
      (∀ a, ¬ (u.pantryPa (b.off + x.off) ≤ a ∧ a < u.pantryPa (b.off + x.off) + x.data.length) → t.byteAt a = s.byteAt a) := by
  have hlen := sealList_length 0 x.data (u.pantryPa (b.off + x.off))
  refine ⟨_, exec_mirrorUpdate hb hu hplace hx hact hlanded, ?_⟩
  rw [applyUpdate_eq x (show State.findUnit { s with updates := dropIdx s.updates i } b.unit = some u from hu)]
  have hbyte (a : Nat) := State.byteAt_setBytes_other s (u.pantryPa (b.off + x.off)) a (sealList 0 (u.pantryPa (b.off + x.off)) x.data) hwf
  refine ⟨State.setBytes_memWf s _ _ hwf, rfl, rfl, fun n hn => ?_, fun a ha => hbyte a (by rwa [hlen])⟩
  have hn' : n < (sealList 0 (u.pantryPa (b.off + x.off)) x.data).length := by rwa [hlen]
  exact (congrArg TByte.v (State.byteAt_setBytes_same s (u.pantryPa (b.off + x.off)) n _ hwf hn')).trans (sealList_v 0 x.data _ n hn')

/-! ### The statement -/

/-- Settles O16: the pages of a SUBS, the recall and the read of its range, and the end of a subscription are cache effects, so that the unit that waits is
found again and completes. -/
theorem subscriptionsAndMirrors : Obligations.SubscriptionsAndMirrors := by
  unfold Obligations.SubscriptionsAndMirrors
  refine ⟨⟨fun f s t u j ps h hj => ?_, fun f s u h hctr => ?_, fun s u c id gbase size off d spans rd pages hu hrun huniq hwait hd => ⟨fun hfull => ?_, fun hroom hslot hread hfu => ?_⟩,
    fun f s u h hlw hno => unsub_none h hlw hno, fun f s u b h hlw hfind => ⟨unsub_asks h hlw hfind, fun hidle => ?_⟩,
    fun s u p k sub hres hu hwait hidle => unsubProcess_completes hres hu hwait hidle⟩,
    fun s b u x i p k hwf hb hu hplace hx hact hlanded => mirrorUpdate_applies hwf hb hu hplace hx hact hlanded⟩
  · intro pas lw g n hlw hgn hl hg hn hpos hmax hfits hno hctr hreg hps
    have hv : ValidSubs f s u := ⟨hlw, hgn, by unfold BadShape; omega, hno, hctr⟩
    have hexec := exec_subs h hj hv hreg hps
    have heff := subsPages_effect _ hps
    refine ⟨fun hown => ?_, fun hown hflight hdrained => ?_⟩
    · rw [hexec, hown]; rfl
    · have hready : readyToIssue u f.scope.toNat = true := by simp [readyToIssue, hflight, hdrained]
      refine ⟨{ newCmd s u f 0 lw g (.subs s.fresh n) with kind := .subs t.fresh n }, { t with fresh := t.fresh + 1 }, ?_⟩
      refine ⟨by rw [hexec, hown, hready]; rfl, rfl, rfl, rfl, fun d _ huniq hd hroom hslot hread => ?_⟩
      obtain ⟨u0, hu0, -⟩ := heff.findUnit h.find
      obtain ⟨hput, hfind⟩ := subsAccept_finds (x := { t with fresh := t.fresh + 1 }) h.run hu0 rfl huniq
      obtain ⟨t2, v, hnext, hv2, hc, hpc, hw, -⟩ := subsAccept_completes hfind rfl hd hroom hslot hread hput
      refine ⟨t2, v, hnext, hv2, hc.trans (UnitSt.settled_c ?_), hpc, hw⟩
      rw [UnitSt.setC_settled, UnitSt.setC_settled]; rfl
  · intro lw g n meets hlw hg hgn
    have hmeets (b : Subscription) : meets b ↔ MeetsMirror u (lw - localWindow) n b := by simp [meets, MeetsMirror, overlap, and_assoc]
    refine ⟨fun ⟨b, hb, hm, hact⟩ => subs_overActive h hctr hlw hg hgn ⟨b, hb, (hmeets b).1 hm, hact⟩, fun hno hbad => ?_⟩
    refine subs_malformed h hctr hlw hg hgn (fun b hb hm => hno b hb ⟨(hmeets b).2 hm.1, hm.2⟩) ?_
    simp only [hmeets] at hbad
    unfold BadShape
    tauto
  · exact subsAccept_full (find?_of_unique hu (subsWaits_of hrun hwait) fun v hv hp => by
      obtain ⟨_, _, _, _, _, _, _, hw⟩ := subsWaits_wait hp
      exact huniq v hv _ _ _ _ _ _ _ hw) hwait hd hfull
  · obtain ⟨t, v, hnext, hv, hc, hpc, hw, n, hmem⟩ := subsAccept_completes (find?_of_unique hu (subsWaits_of hrun hwait) fun v hv hp => by
      obtain ⟨_, _, _, _, _, _, _, hw⟩ := subsWaits_wait hp
      exact huniq v hv _ _ _ _ _ _ _ hw) hwait hd hroom hslot hread hfu
    exact ⟨t, v, hnext, hv, hc, hpc, hw, _, hmem, rfl, rfl, rfl, rfl, rfl, rfl, rfl, rfl⟩
  · have hput : (s.waitC u (.unsub b.id)).findUnit u.key = some (u.modCtl (fun c => { c with wait := .unsub b.id })) := State.putUnit_findUnit_same s _ u h.find
    have hres : (s.waitC u (.unsub b.id)).resident u.pair u.slot = some (u.modCtl (fun c => { c with wait := .unsub b.id })) :=
      State.resident_putUnit h.resident h.find rfl rfl
    have hdone := unsubProcess_completes hres hput rfl hidle
    exact hdone

end Sys2Proof.Machine
end

section
/-!
Writes of words into a line: what a write of bytes leaves in the cipher blocks of a cache line (R436), and what merging the words of a
write-back under their mask leaves in the home memory (R104, R109).
-/

namespace Sys2Proof.Machine

/-! ### The cipher blocks of a line (R436) -/

/-- The data of a line where a byte is about to be written under a key at an offset: the cipher block of the byte is under that key. -/
def openBlock (base : Nat) (data : List TByte) (off k : Nat) : List TByte :=
  let blk := (data.drop (off / 16 * 16)).take 16
  if !isHbm base || blk.all (fun x => x.key == k) then data
  else data.take (off / 16 * 16) ++ reseal k (base + off / 16 * 16) blk ++ data.drop (off / 16 * 16 + 16)

theorem blockPut_cons (base : Nat) (data : List TByte) (off : Nat) (b : TByte) (bs : List TByte) :
    blockPut base data off (b :: bs) = blockPut base ((openBlock base data off b.key).set off b) (off + 1) bs := rfl

/-- Every byte of the cipher block of offset off lies under key k. -/
def BlockUnder (data : List TByte) (off k : Nat) : Prop := ∀ i < 16, (data.getD (off / 16 * 16 + i) {}).key = k

theorem reseal_length (k base : Nat) (blk : List TByte) : (reseal k base blk).length = blk.length := by
  unfold reseal
  split
  · rfl
  · simp [range_length]

theorem reseal_key (k base : Nat) (blk : List TByte) : ∀ b ∈ reseal k base blk, b.key = k := by
  intro b hb
  unfold reseal at hb
  split at hb
  · next h => simpa using List.all_eq_true.1 h b hb
  · obtain ⟨i, -, rfl⟩ := List.mem_map.1 hb
    rfl

section Block

variable {base off k : Nat} {data : List TByte} (hlen : data.length % 16 = 0) (hoff : off < data.length)

theorem openBlock_of_under (h : isHbm base = true → BlockUnder data off k) : openBlock base data off k = data := by
  unfold openBlock
  dsimp only
  split
  · rfl
  · next hc =>
    simp only [Bool.or_eq_true, Bool.not_eq_true', not_or, Bool.not_eq_false] at hc
    refine absurd ?_ hc.2
    refine List.all_eq_true.2 fun b hb => ?_
    obtain ⟨i, hi, rfl⟩ := List.mem_iff_getElem.1 hb
    simp only [List.length_take, List.length_drop] at hi
    have := h hc.1 i (by omega)
    simpa [List.getD, show off / 16 * 16 + i < data.length by omega] using this

include hlen hoff

theorem openBlock_length : (openBlock base data off k).length = data.length := by
  unfold openBlock
  dsimp only
  split
  · rfl
  · simp only [List.length_append, List.length_take, List.length_drop, reseal_length]
    omega

theorem openBlock_getD_other {j : Nat} (hj : j / 16 ≠ off / 16) : (openBlock base data off k).getD j {} = data.getD j {} := by
  unfold openBlock
  dsimp only
  split
  · rfl
  · simp only [List.getD_eq_getElem?_getD]
    by_cases hlt : j < off / 16 * 16
    · rw [List.append_assoc, List.getElem?_append_left (by simp; omega), List.getElem?_take_of_lt hlt]
    · rw [List.getElem?_append_right (by simp [reseal_length]; omega), List.getElem?_drop]
      congr 2
      simp only [List.length_append, List.length_take, List.length_drop, reseal_length]
      omega

theorem openBlock_under (hb : isHbm base = true) : BlockUnder (openBlock base data off k) off k := by
  intro i hi
  unfold openBlock
  dsimp only
  split
  · next hc =>
    have hall : ((data.drop (off / 16 * 16)).take 16).all (fun x => x.key == k) = true := by simpa [hb] using hc
    have hmem : data.getD (off / 16 * 16 + i) {} ∈ (data.drop (off / 16 * 16)).take 16 :=
      List.mem_iff_getElem.2 ⟨i, by simp; omega, by simp [List.getD, show off / 16 * 16 + i < data.length by omega]⟩
    simpa using List.all_eq_true.1 hall _ hmem
  · have hlen' : (reseal k (base + off / 16 * 16) ((data.drop (off / 16 * 16)).take 16)).length = 16 := by
      simp [reseal_length]; omega
    have hget : (data.take (off / 16 * 16) ++ reseal k (base + off / 16 * 16) ((data.drop (off / 16 * 16)).take 16) ++
        data.drop (off / 16 * 16 + 16)).getD (off / 16 * 16 + i) {} =
        (reseal k (base + off / 16 * 16) ((data.drop (off / 16 * 16)).take 16))[i] := by
      rw [List.getD_eq_getElem?_getD, List.append_assoc, List.getElem?_append_right (by simp), List.getElem?_append_left (by simp [reseal_length]; omega)]
      simp [show min (off / 16 * 16) data.length = off / 16 * 16 by omega, hlen', hi]
    rw [hget]
    exact reseal_key _ _ _ _ (List.getElem_mem _)

end Block

theorem getD_set_same {data : List TByte} {off : Nat} (b : TByte) (h : off < data.length) : (data.set off b).getD off {} = b := by
  simp [List.getD, h]

theorem getD_set_other (data : List TByte) (b : TByte) {off j : Nat} (h : j ≠ off) : (data.set off b).getD j {} = data.getD j {} := by
  simp [List.getD, List.getElem?_set_ne (Ne.symm h)]

theorem blockUnder_set {data : List TByte} {off j k : Nat} {b : TByte} (h : BlockUnder data j k) (hb : b.key = k) : BlockUnder (data.set off b) j k := by
  intro i hi
  by_cases he : j / 16 * 16 + i = off
  · by_cases hl : off < data.length
    · rw [he, getD_set_same b hl, hb]
    · rw [List.set_eq_of_length_le (by omega)]; exact h i hi
  · rw [getD_set_other _ _ he]; exact h i hi

theorem blockUnder_congr {data : List TByte} {i j k : Nat} (h : i / 16 = j / 16) : BlockUnder data i k ↔ BlockUnder data j k := by
  unfold BlockUnder; rw [h]

theorem blockPut_length {base : Nat} (bs : List TByte) : ∀ {data : List TByte} {off : Nat}, data.length % 16 = 0 → off + bs.length ≤ data.length →
    (blockPut base data off bs).length = data.length := by
  induction bs with
  | nil => intros; rfl
  | cons b bs ih =>
    intro data off hlen hoff
    rw [List.length_cons] at hoff
    have hset : ((openBlock base data off b.key).set off b).length = data.length := by
      rw [List.length_set, openBlock_length hlen (by omega)]
    rw [blockPut_cons, ih (by rw [hset]; exact hlen) (by rw [hset]; omega), hset]

/-- A write leaves a byte that it does not cover as it is, unless the byte's cipher block goes over to another key. -/
theorem blockPut_keeps {base k : Nat} (bs : List TByte) : ∀ {data : List TByte} {off j : Nat}, data.length % 16 = 0 → off + bs.length ≤ data.length →
    j < off ∨ off + bs.length ≤ j →
    (isHbm base = true → off / 16 ≤ j / 16 → j / 16 * 16 < off + bs.length → (∀ b ∈ bs, b.key = k) ∧ BlockUnder data j k) →
    (blockPut base data off bs).getD j {} = data.getD j {} := by
  induction bs with
  | nil => intros; rfl
  | cons b bs ih =>
    intro data off j hlen hoff hj hunder
    rw [List.length_cons] at hoff hj hunder
    have hlo : off < data.length := by omega
    have hset : ((openBlock base data off b.key).set off b).length = data.length := by
      rw [List.length_set, openBlock_length hlen hlo]
    -- the block of j before and after the first byte
    have hstep : (isHbm base = true → off / 16 ≤ j / 16 → j / 16 * 16 < off + (bs.length + 1) → BlockUnder ((openBlock base data off b.key).set off b) j k) ∧
        ((openBlock base data off b.key).set off b).getD j {} = data.getD j {} := by
      rw [getD_set_other _ _ (show j ≠ off by omega)]
      by_cases hblk : j / 16 = off / 16
      · have hopen : openBlock base data off b.key = data := openBlock_of_under fun hb => by
          obtain ⟨hk, hu⟩ := hunder hb (by omega) (by omega)
          rw [hk b (by simp)]
          exact (blockUnder_congr hblk).1 hu
        rw [hopen]
        refine ⟨fun hb h1 h2 => ?_, rfl⟩
        obtain ⟨hk, hu⟩ := hunder hb h1 h2
        exact blockUnder_set hu (hk b (by simp))
      · refine ⟨fun hb h1 h2 i hi => ?_, openBlock_getD_other hlen hlo hblk⟩
        rw [getD_set_other _ _ (show j / 16 * 16 + i ≠ off by omega), openBlock_getD_other hlen hlo (by omega)]
        exact (hunder hb h1 h2).2 i hi
    rw [blockPut_cons, ih (by rw [hset]; exact hlen) (by rw [hset]; omega) (by omega) fun hb h1 h2 =>
      ⟨fun x hx => (hunder hb (by omega) (by omega)).1 x (by simp [hx]), hstep.1 hb (by omega) (by omega)⟩, hstep.2]

/-- A write under one key gives the bytes written. -/
theorem blockPut_written {base k : Nat} (bs : List TByte) : ∀ {data : List TByte} {off : Nat}, data.length % 16 = 0 → off + bs.length ≤ data.length →
    (∀ b ∈ bs, b.key = k) → ∀ i < bs.length, (blockPut base data off bs).getD (off + i) {} = bs.getD i {} := by
  induction bs with
  | nil => intro _ _ _ _ _ i hi; simp at hi
  | cons b bs ih =>
    intro data off hlen hoff hk i hi
    rw [List.length_cons] at hoff hi
    have hlo : off < data.length := by omega
    have hset : ((openBlock base data off b.key).set off b).length = data.length := by
      rw [List.length_set, openBlock_length hlen hlo]
    have hk' : ∀ x ∈ bs, x.key = k := fun x hx => hk x (by simp [hx])
    rw [blockPut_cons]
    cases i with
    | zero =>
      have hin : off < (openBlock base data off b.key).length := by rwa [openBlock_length hlen hlo]
      show (blockPut base _ (off + 1) bs).getD off {} = b
      rw [blockPut_keeps (k := k) bs (by rw [hset]; exact hlen) (by rw [hset]; omega) (by omega) fun hb _ _ =>
        ⟨hk', blockUnder_set (hk b (by simp) ▸ openBlock_under hlen hlo hb) (hk b (by simp))⟩, getD_set_same b hin]
    | succ i =>
      rw [show off + (i + 1) = off + 1 + i by omega, ih (by rw [hset]; exact hlen) (by rw [hset]; omega) hk' i (by omega)]
      rfl

/-- After a write under one key the cipher blocks that it touches lie under that key. -/
theorem blockPut_under {base k : Nat} (hb : isHbm base = true) (bs : List TByte) : ∀ {data : List TByte} {off : Nat}, data.length % 16 = 0 →
    off + bs.length ≤ data.length → (∀ b ∈ bs, b.key = k) → ∀ j, (BlockUnder data j k ∨ (off / 16 ≤ j / 16 ∧ j / 16 * 16 < off + bs.length ∧ bs ≠ [])) →
    BlockUnder (blockPut base data off bs) j k := by
  induction bs with
  | nil => intro _ _ _ _ _ j hj; simpa [blockPut] using hj
  | cons b bs ih =>
    intro data off hlen hoff hk j hj
    rw [List.length_cons] at hoff hj
    have hlo : off < data.length := by omega
    have hset : ((openBlock base data off b.key).set off b).length = data.length := by
      rw [List.length_set, openBlock_length hlen hlo]
    rw [blockPut_cons]
    refine ih (by rw [hset]; exact hlen) (by rw [hset]; omega) (fun x hx => hk x (by simp [hx])) j ?_
    by_cases hblk : j / 16 = off / 16
    · exact .inl (blockUnder_set ((blockUnder_congr hblk).2 (hk b (by simp) ▸ openBlock_under hlen hlo hb)) (hk b (by simp)))
    · rcases hj with hj | ⟨h1, h2, -⟩
      · refine .inl (blockUnder_set (fun i hi => ?_) (hk b (by simp)))
        rw [openBlock_getD_other hlen hlo (by omega)]
        exact hj i hi
      · exact .inr ⟨by omega, by omega, fun e => by subst e; simp at h2; omega⟩

end Sys2Proof.Machine
end

section
/-!
What the operations at a home leave alone: the owners of jobs, and of the dies all but their vault lines and range records.
-/

namespace Sys2Proof.Machine

/-! ### What writes of plain memory leave alone -/

/-- All that a write of plain memory can change: memory with its marks, and what is reported of it. -/
def StoreEffect (s t : State) : Prop :=
  t = { s with mem := t.mem, keys := t.keys, poison := t.poison, ras := t.ras, rasq := t.rasq }

theorem StoreEffect.refl (s : State) : StoreEffect s s := rfl

theorem StoreEffect.trans {s t x : State} (h1 : StoreEffect s t) (h2 : StoreEffect t x) : StoreEffect s x := by
  unfold StoreEffect at *
  rw [h2, h1]

theorem StoreEffect.foldl {α : Type} {f : State → α → State} (h : ∀ s a, StoreEffect s (f s a)) (l : List α) (s : State) : StoreEffect s (l.foldl f s) :=
  foldl_keeps (StoreEffect s) (fun b a hb => hb.trans (h b a)) l (.refl s)

theorem State.storeBytes_store (s : State) (pa : Nat) (bs : List TByte) : StoreEffect s (s.storeBytes pa bs) := by
  unfold State.storeBytes
  dsimp only
  split <;> rfl

theorem State.carryPoison_store (s : State) (pa : Nat) (bs : List TByte) : StoreEffect s (s.carryPoison pa bs) := by
  unfold State.carryPoison
  split <;> rfl

theorem writeHalf_store (s : State) (pa : Nat) (data : List TByte) (mask : Nat) : StoreEffect s (writeHalf s pa data mask) := by
  unfold writeHalf
  split
  · exact StoreEffect.trans (t := (s.clearPoison pa 64).setBytes pa ((data.take 64).map (fun b => { b with bad := false }))) rfl (State.carryPoison_store _ _ _)
  split
  · exact .refl s
  split
  · rfl
  refine StoreEffect.foldl (fun t w => ?_) _ s
  dsimp only
  split
  · exact (State.storeBytes_store _ _ _).trans (State.carryPoison_store _ _ _)
  · exact .refl t

theorem writeMaskedRaw_store (s : State) (line : Nat) (data : List TByte) (mask : BitVec 32) : StoreEffect s (writeMaskedRaw s line data mask) :=
  (writeHalf_store _ _ _ _).trans (writeHalf_store _ _ _ _)

/-! ### What the home's operations leave alone (R80, R109) -/

/-- The jobs' ids, whether each is firmware-owned, and their key generations. -/
def State.owners (s : State) : List (Nat × Bool × Nat) := s.jobs.map (fun j => (j.id, j.fwj, j.keyGen))

theorem State.owners_find (s : State) (id : Nat) : s.owners.find? (fun o => o.1 == id) = (s.job id).map (fun j => (j.id, j.fwj, j.keyGen)) := by
  simp [State.owners, State.job, List.find?_map]

theorem State.fwj_congr {s t : State} (h : t.owners = s.owners) (id : Nat) : t.fwj id = s.fwj id := by
  have hj (x : State) : x.fwj id = ((x.owners.find? (fun o => o.1 == id)).map (fun o => o.2.1)).getD false := by
    rw [x.owners_find, State.fwj]; cases x.job id <;> rfl
  rw [hj t, hj s, h]

theorem State.keyGenOf_congr {s t : State} {u v : UnitSt} (h : t.owners = s.owners) (hk : v.key = u.key) : t.keyGenOf v = s.keyGenOf u := by
  have hj (x : State) : x.keyGenOf u = ((x.owners.find? (fun o => o.1 == u.key.job)).map (fun o => o.2.2)).getD 0 := by
    rw [x.owners_find, State.keyGenOf]; cases x.job u.key.job <;> rfl
  have hv : t.keyGenOf v = t.keyGenOf u := by simp only [State.keyGenOf, hk]
  rw [hv, hj t, hj s, h]

/-- A die without what writes of the home memory change of it. -/
def Die.quiet (x : Die) : Die := { x with vlines := [], ranges := [] }

/-- The owners of jobs, and the dies but for their vault lines and range records, are as before. -/
def HomeKeeps (s t : State) : Prop := t.owners = s.owners ∧ ∀ d, (t.die d).quiet = (s.die d).quiet

theorem HomeKeeps.refl (s : State) : HomeKeeps s s := ⟨rfl, fun _ => rfl⟩

theorem HomeKeeps.trans {s t x : State} (h1 : HomeKeeps s t) (h2 : HomeKeeps t x) : HomeKeeps s x :=
  ⟨h2.1.trans h1.1, fun d => (h2.2 d).trans (h1.2 d)⟩

theorem HomeKeeps.foldl {α : Type} {f : State → α → State} (h : ∀ s a, HomeKeeps s (f s a)) (l : List α) (s : State) : HomeKeeps s (l.foldl f s) :=
  foldl_keeps (HomeKeeps s) (fun b a hb => hb.trans (h b a)) l (.refl s)

theorem HomeKeeps.ite {s t x : State} {c : Prop} [Decidable c] (ht : HomeKeeps s t) (hx : HomeKeeps s x) : HomeKeeps s (if c then t else x) := by
  split
  · exact ht
  · exact hx

theorem HomeKeeps.of_dies {s t : State} (hj : t.jobs = s.jobs) (hd : t.dies = s.dies) : HomeKeeps s t :=
  ⟨by simp only [State.owners, hj], fun d => by simp only [State.die, hd]⟩

theorem StoreEffect.keeps {s t : State} (h : StoreEffect s t) : HomeKeeps s t := .of_dies (by rw [h]) (by rw [h])

/-- A change of one die that only its vault lines and range records take. -/
theorem HomeKeeps.of_setDie {s t : State} {d : Nat} {x : Die} (hj : t.jobs = s.jobs) (hd : t.dies = s.dies.setIfInBounds d x)
    (hx : x.quiet = (s.die d).quiet) : HomeKeeps s t := by
  refine ⟨by simp only [State.owners, hj], fun e => ?_⟩
  have ht : t.die e = (s.modDie d (fun _ => x)).die e := by simp only [State.die, hd]; rfl
  rw [ht]
  by_cases he : e = d
  · subst he
    by_cases h4 : e < 4
    · rw [State.die_modDie s _ h4, hx]
    · simp [State.modDie, State.setDie, State.die, Array.getD, h4]
  · rw [State.die_modDie_other s _ he]

theorem noteWrite_keeps (s : State) (pa n : Nat) : HomeKeeps s (noteWrite s pa n) :=
  ⟨by simp [State.owners, noteWrite, Function.comp_def], fun _ => rfl⟩

theorem numberWrite_keeps (s : State) (pa : Nat) (bs : List Byte) : HomeKeeps s (numberWrite s pa bs) := by
  unfold numberWrite
  split
  · refine HomeKeeps.foldl (fun t r => ?_) _ s
    dsimp only
    exact HomeKeeps.ite (.refl t) (.of_setDie rfl rfl rfl)
  · exact .refl s

theorem numberWords_keeps (s : State) (line : Nat) (data : List TByte) (mask : BitVec 32) : HomeKeeps s (numberWords s line data mask) := by
  unfold numberWords
  split
  · refine HomeKeeps.foldl (fun t w => ?_) _ s
    split
    · exact numberWrite_keeps _ _ _
    · exact .refl t
  · exact .refl s

theorem homeMerge_keeps (s : State) (line : Nat) (data : List TByte) (mask : BitVec 32) : HomeKeeps s (homeMerge s line data mask) := by
  unfold homeMerge
  split
  · exact .refl s
  split
  · refine HomeKeeps.trans ?_ (noteWrite_keeps _ _ _)
    split <;> exact .of_setDie rfl rfl rfl
  · exact ((writeMaskedRaw_store _ _ _ _).keeps.trans (noteWrite_keeps _ _ _)).trans (numberWords_keeps _ _ _ _)

theorem touchVline_keeps (s : State) (d line : Nat) : HomeKeeps s (touchVline s d line) := .of_setDie rfl rfl rfl

theorem dropVline_keeps (s : State) (d line : Nat) : HomeKeeps s (dropVline s d line) := by
  unfold dropVline
  split
  · exact .refl s
  · have hdrop : HomeKeeps s (s.modDie d (fun x => { x with vlines := x.vlines.filter (fun y => y.line != line) })) := .of_setDie rfl rfl rfl
    exact HomeKeeps.ite hdrop (hdrop.trans (writeMaskedRaw_store _ _ _ _).keeps)

theorem fillVault_keeps (s : State) (d line cls : Nat) (stamp : List Nat) (data : List TByte) : HomeKeeps s (fillVault s d line cls stamp data) := by
  unfold fillVault
  dsimp only
  split
  · exact .of_setDie rfl rfl rfl
  split
  · exact .of_setDie rfl rfl rfl
  split
  · exact .refl s
  · exact (dropVline_keeps _ _ _).trans (.of_setDie rfl rfl rfl)

theorem homeLine_keeps (s : State) (line cls : Nat) : HomeKeeps s (homeLine s line cls).1 := by
  unfold homeLine
  dsimp only
  split
  · split
    · exact touchVline_keeps _ _ _
    split
    · exact .refl s
    · exact fillVault_keeps _ _ _ _ _ _
  · exact .refl s

theorem mergeBack_keeps (s : State) (pair job : Nat) (inv : Bool) : HomeKeeps s (mergeBack s pair job inv) :=
  (HomeKeeps.foldl (fun t (l : L1Line) => homeMerge_keeps t l.line l.data l.dirty) _ s).trans (.of_dies rfl rfl)

end Sys2Proof.Machine
end

section
/-!
Loads, stores and atomics of a control slice that reach its own pantry region or a line of its pair's L1 (R93, R110, R113, R129, R146, R288, R289,
R295 to R298).
-/

namespace Sys2Proof.Machine

/-! ### States that agree in their memory -/

/-- Memory, the keys that its bytes lie under and its marks are as before. -/
def SameStore (s t : State) : Prop := t.mem = s.mem ∧ t.keys = s.keys ∧ t.poison = s.poison

theorem SameStore.refl (s : State) : SameStore s s := ⟨rfl, rfl, rfl⟩

theorem SameStore.trans {s t x : State} (h1 : SameStore s t) (h2 : SameStore t x) : SameStore s x :=
  ⟨h2.1.trans h1.1, h2.2.1.trans h1.2.1, h2.2.2.trans h1.2.2⟩

section

variable {s t : State} (h : SameStore s t)
include h

theorem SameStore.byteAt (a : Nat) : t.byteAt a = s.byteAt a := by simp only [State.byteAt, h.1, h.2.1]

theorem SameStore.sameMemory : SameMemory s t := ⟨h.byteAt, h.2.2⟩

theorem SameStore.poisoned (pa n : Nat) : t.poisoned pa n = s.poisoned pa n := by simp only [State.poisoned, h.2.2]

theorem SameStore.partPoison (pa n : Nat) : t.partPoison pa n = s.partPoison pa n := by simp only [State.partPoison, h.2.2]

theorem SameStore.memWf : t.memWf = s.memWf := by simp only [State.memWf, h.1, h.2.1]

theorem SameStore.bytesAt (n : Nat) : ∀ pa, t.bytesAt pa n = s.bytesAt pa n := by
  induction n with
  | zero => intro; rfl
  | succ n ih => intro pa; simp only [State.bytesAt, h.byteAt, ih]

end

/-! ### Releases and acquires over clean merging lines (R111) -/

theorem homeMerge_clean (s : State) (line : Nat) (data : List TByte) : homeMerge s line data 0 = s := by simp [homeMerge]

/-- No merging line of the job in the pair's L1 has dirty words. -/
def NothingToMerge (s : State) (pair job : Nat) : Prop := ∀ l ∈ (s.pairOf pair).l1, l.mergesFor job = true → l.dirty = 0

theorem CleanMerge.nothing {s : State} {u : UnitSt} {scope : Nat} (h : CleanMerge s u scope) (hs : scope ≠ 0) : NothingToMerge s u.pair u.key.job := by
  intro l hl hm
  simp only [L1Line.mergesFor, Bool.and_eq_true, beq_iff_eq] at hm
  exact (h.resolve_left hs) l hl hm.1 hm.2

/-- The pair after a write-back of the job's merging lines. -/
def PairSt.merged (job : Nat) (inv : Bool) (p : PairSt) : PairSt := { p with l1 :=
  (if inv then p.l1.filter (fun l => !l.mergesFor job) else mapIf (L1Line.mergesFor job) (fun l => { l with dirty := 0 }) p.l1) }

theorem mergeBack_clean {s : State} {pair job : Nat} (h : NothingToMerge s pair job) (inv : Bool) :
    mergeBack s pair job inv = s.modPair pair (PairSt.merged job inv) := by
  have hfold : ((s.pairOf pair).l1.filter (L1Line.mergesFor job)).foldl (fun t l => homeMerge t l.line l.data l.dirty) s = s := by
    refine foldl_keeps_mem (fun t => t = s) _ (fun l hl t ht => ?_) rfl
    obtain ⟨hl, hm⟩ := List.mem_filter.1 hl
    rw [h l hl hm, homeMerge_clean, ht]
  calc mergeBack s pair job inv
      = (((s.pairOf pair).l1.filter (L1Line.mergesFor job)).foldl (fun t l => homeMerge t l.line l.data l.dirty) s).modPair pair (PairSt.merged job inv) := rfl
    _ = s.modPair pair (PairSt.merged job inv) := by rw [hfold]

theorem releaseFx_store {s : State} {u : UnitSt} {scope : Nat} (h : CleanMerge s u scope) : SameStore s (releaseFx s u.key u.pair scope) := by
  unfold releaseFx
  split
  · exact .refl s
  · next hs => rw [mergeBack_clean (h.nothing (by simpa using hs))]; exact ⟨rfl, rfl, rfl⟩

/-- After a release beyond the slice's own scope the merging lines are clean. -/
theorem releaseFx_clean {s : State} {u : UnitSt} {scope : Nat} (h : CleanMerge s u scope) : CleanMerge (releaseFx s u.key u.pair scope) u scope := by
  unfold releaseFx
  split
  · exact h
  · next hs =>
    have hnone := h.nothing (by simpa using hs)
    refine .inr fun l hl hst hj => ?_
    rw [mergeBack_clean hnone, State.pairOf_modPair_same _ _ _ (fun _ => by rfl)] at hl
    simp only [PairSt.merged, Bool.false_eq_true, if_false, mapIf, List.mem_map] at hl
    obtain ⟨x, hx, rfl⟩ := hl
    split
    · rfl
    · next hx' => rw [if_neg hx'] at hst hj; exact absurd (by simp [L1Line.mergesFor, hst]; simpa using hj) hx'

/-- An acquire leaves memory as the write-back of its merging lines does. -/
theorem acquireSet_store {s : State} (k : UKey) (pair : Nat) (mg : Bool) (covers : Bool × Bool × Bool)
    (h : SameStore s (if mg then mergeBack s pair k.job true else s)) : SameStore s (acquireSet s k pair mg covers) := by
  unfold acquireSet
  refine h.trans ?_
  generalize (if mg then mergeBack s pair k.job true else s) = s1
  dsimp only
  split <;> exact ⟨rfl, rfl, rfl⟩

theorem acquireFx_store {s : State} {u : UnitSt} {scope : Nat} (addrPeer : Bool) (h : CleanMerge s u scope) :
    SameStore s (acquireFx s u.key u.pair scope addrPeer) := by
  refine acquireSet_store _ _ _ _ ?_
  split
  · next hs => rw [mergeBack_clean (h.nothing (by simpa using hs))]; exact ⟨rfl, rfl, rfl⟩
  · exact .refl s

theorem acquireFx_owners (s : State) (k : UKey) (pair scope : Nat) (addrPeer : Bool) : (acquireFx s k pair scope addrPeer).owners = s.owners := by
  have h1 : (if scope != 0 then mergeBack s pair k.job true else s).owners = s.owners := by
    split
    · exact (mergeBack_keeps _ _ _ _).1
    · rfl
  rw [← h1]
  unfold acquireFx acquireSet
  generalize (if scope != 0 then mergeBack s pair k.job true else s) = s1
  dsimp only
  split <;> rfl

/-! ### A unit that waits for its access, and its completion (R289, R407) -/

/-- The access of an instruction of u's control slice at an address, with the mode and level of its page. -/
def accessOf (s : State) (u : UnitSt) (va size : Nat) (use : Use) (len : Nat) (rel acq : Option Nat) (pa cm ham lvl : Nat) : Access :=
  { aid := s.fresh, unit := u.key, pair := u.pair, va := va, pa := pa, size := size, cm := cm, ham := ham, lvl := lvl
    key := s.keyGenOf u, cls := u.launch.cls, group := storeGroup s u.pair pa (if cm == 1 then 2 else cm) (subscribed s pa size)
    len := len, rel := rel, acq := acq, use := use }

/-- The unit while its access is under way: an atomic counts in its group (R147). -/
def UnitSt.accessing (u : UnitSt) (a : Access) : UnitSt :=
  u.modCtl (fun c => let c := { c with wait := .access a.aid }; if a.use.isAmo then c.addUnacked a.group true else c)

theorem UnitSt.accessing_load {u : UnitSt} {a : Access} {rd : BitVec 6} {signed : Bool} (h : a.use = .load rd signed) :
    u.accessing a = u.modCtl (fun c => { c with wait := .access a.aid }) := by
  simp [UnitSt.accessing, h, Use.isAmo]

theorem completeAccess_load {t : State} {v : UnitSt} {a : Access} {rd : BitVec 6} {signed : Bool} (bs : List Byte) (huse : a.use = .load rd signed)
    (hv : t.findUnit a.unit = some v) (hrun : v.running = true) (hw : v.ctx.ctl.wait = .access a.aid) :
    completeAccess t a (.ok bs) = (acquireDone t a).retireC ((v.setC rd (loadValue signed bs)).modCtl (fun c => c.readDone a)) a.len := by
  simp [completeAccess, huse, hv, hrun, UnitSt.awaits, hw]

theorem acquireDone_none {s : State} {a : Access} (h : a.acq = none) : acquireDone s a = s := by simp [acquireDone, h]

theorem acquireDone_effect (s : State) (a : Access) : CacheEffect s (acquireDone s a) := by
  unfold acquireDone
  split
  · split
    · exact .refl s
    · exact mergeBack_effect _ _ _ _
  · exact .refl s

theorem acquireDone_store {s : State} {a : Access} (h : ∀ sc, a.acq = some sc → sc ≠ 0 → NothingToMerge s a.pair a.unit.job) : SameStore s (acquireDone s a) := by
  unfold acquireDone
  split
  · next sc hsc =>
    split
    · exact .refl s
    · next h0 => rw [mergeBack_clean (h sc hsc (by simpa using h0))]; exact ⟨rfl, rfl, rfl⟩
  · exact .refl s

/-- A plain or relaxed load that completes: its unit goes on past it with the value in its register. -/
theorem load_completes {t : State} {u : UnitSt} {a : Access} {rd : BitVec 6} {signed : Bool} (bs : List Byte) (huse : a.use = .load rd signed)
    (hu : t.findUnit u.key = some u) (hrun : u.running = true) (hkey : a.unit = u.key) (hacq : a.acq = none) :
    let y := completeAccess (t.putUnit (u.accessing a)) a (.ok bs)
    SameStore t y ∧ y.pairs = t.pairs ∧
      Retired t y u ((u.setC rd (loadValue signed bs)).modCtl (fun c => c.forget a.pa a.size)) a.len := by
  have hput : (t.putUnit (u.accessing a)).findUnit u.key = some (u.accessing a) := State.putUnit_findUnit_same t (u.accessing a) u hu
  have hdone := completeAccess_load (v := u.accessing a) bs huse (by rw [hkey]; exact hput) hrun (by rw [UnitSt.accessing_load huse]; rfl)
  rw [acquireDone_none hacq] at hdone
  have hend : ((((u.accessing a).setC rd (loadValue signed bs)).modCtl (fun c => c.readDone a)).modCtl (Ctl.advance a.len)).stamped t.cycle =
      (((u.setC rd (loadValue signed bs)).modCtl (fun c => c.forget a.pa a.size)).modCtl (Ctl.advance a.len)).stamped t.cycle := by
    simp only [UnitSt.accessing_load huse, Ctl.readDone, hacq, Option.isSome_none, Bool.false_eq_true, if_false]
    unfold UnitSt.setC Ctl.setC
    split <;> rfl
  obtain ⟨hret, hoth⟩ := State.retireC_retired (t.putUnit (u.accessing a)) u (((u.accessing a).setC rd (loadValue signed bs)).modCtl (fun c => c.readDone a))
    (u.accessing a) a.len rfl hput
  dsimp only
  rw [hdone]
  refine ⟨⟨rfl, rfl, rfl⟩, rfl, ?_, fun k hk => (hoth k hk).trans (State.putUnit_findUnit_other t (u.accessing a) k hk)⟩
  rw [← hend]
  exact hret

/-- An access with acquire effects that ends by retiring u, as g, at the state x. -/
theorem acquired_retires {x : State} {u g w : UnitSt} {a : Access} {sc : Nat} (hx : x.findUnit u.key = some w) (hgkey : g.key = u.key)
    (hpair : a.pair = u.pair) (hkey : a.unit = u.key) (hlen : a.len = 2) (hacq : a.acq = some sc) (hahead : g.ctx.ctl.ahead = [])
    (hpc : g.ctx.ctl.pc = u.ctx.ctl.pc) (hdat : g.ctx.dat = u.ctx.dat) (hsb : g.ctx.ctl.sb = u.ctx.ctl.sb) :
    ∃ v, ((acquireDone x a).retireC g a.len).findUnit u.key = some v ∧ v = (g.modCtl (Ctl.advance 2)).stamped (acquireDone x a).cycle ∧
      Acquired ((acquireDone x a).retireC g a.len) u v sc := by
  obtain ⟨w', hw', -⟩ := (acquireDone_effect x a).findUnit hx
  have hret := (State.retireC_retired (acquireDone x a) u g w' 2 hgkey hw').1
  rw [hlen]
  refine ⟨_, hret, rfl, by simp [Ctl.advance, hpc], by simp [Ctl.advance, hahead], by simp [hdat], by simp [Ctl.advance, hsb], fun hsc l hl hst => ?_⟩
  have hmem : l ∈ ((mergeBack x u.pair u.key.job true).pairOf u.pair).l1 := by
    have : acquireDone x a = mergeBack x u.pair u.key.job true := by simp [acquireDone, hacq, hsc, hpair, hkey]
    rw [this] at hl
    exact hl
  rw [mergeBack_l1] at hmem
  have := (List.mem_filter.1 hmem).2
  simpa [L1Line.mergesFor, hst] using this

end Sys2Proof.Machine
end

section
/-!
Loads of a control slice that end at once: in its own pantry region, where its own stores lie over it or not (R12, R129, R288, R289), and the acquire
effects of LDO (R111, R295).
-/

namespace Sys2Proof.Machine

theorem UnitSt.settled_sb {u v : UnitSt} (h : v.settled = u.settled) : v.ctx.ctl.sb = u.ctx.ctl.sb := (congrArg (fun x : UnitSt => x.ctx.ctl.sb) h :)
theorem UnitSt.settled_flight {u v : UnitSt} (h : v.settled = u.settled) : v.ctx.ctl.flight = u.ctx.ctl.flight := (congrArg (fun x : UnitSt => x.ctx.ctl.flight) h :)
theorem UnitSt.settled_running {u v : UnitSt} (h : v.settled = u.settled) : v.running = u.running := (congrArg UnitSt.running h :)
theorem UnitSt.settled_pair {u v : UnitSt} (h : v.settled = u.settled) : v.pair = u.pair := (congrArg UnitSt.pair h :)
theorem UnitSt.settled_pantryPa {u v : UnitSt} (h : v.settled = u.settled) (off : Nat) : v.pantryPa off = u.pantryPa off := (congrArg (fun x => UnitSt.pantryPa x off) h :)
theorem UnitSt.settled_regionBytes {u v : UnitSt} (h : v.settled = u.settled) : v.regionBytes = u.regionBytes := (congrArg UnitSt.regionBytes h :)
theorem UnitSt.settled_regionOk {u v : UnitSt} (h : v.settled = u.settled) (va n : Nat) (rd wr : Bool) : regionOk v va n rd wr = regionOk u va n rd wr :=
  (congrArg (fun x => regionOk x va n rd wr) h :)
theorem UnitSt.settled_ownStores {u v : UnitSt} (h : v.settled = u.settled) (pa n : Nat) : ownStores v pa n = ownStores u pa n :=
  (congrArg (fun x => ownStores x pa n) h :)

theorem UnitSt.setC_settled_c {u v : UnitSt} (h : v.settled = u.settled) (i : BitVec 6) (x : Word) : (v.setC i x).ctx.ctl.c = (u.setC i x).ctx.ctl.c := by
  refine UnitSt.settled_c ?_
  rw [UnitSt.setC_settled, UnitSt.setC_settled, h]

/-! ### Loads from the own pantry region (R12, R129, R289) -/

theorem forwarded_none {u : UnitSt} {pa n : Nat} (h : ownStores u pa n = []) : forwarded u pa n = some none := by simp [forwarded, h]

theorem forwarded_some {u : UnitSt} {pa n : Nat} {e : StoreEntry} (h : (ownStores u pa n).getLast? = some e) (hlo : e.acc.pa ≤ pa)
    (hhi : pa + n ≤ e.acc.pa + e.acc.size) : forwarded u pa n = some (some (sliceOf e.acc.use.storeData (pa - e.acc.pa) n)) := by
  simp [forwarded, h, hlo, hhi]

/-- A well-addressed load in the local window ends with the bytes of its own stores, or of its region. -/
theorem accessC_window_load {s : State} {u : UnitSt} {va size len : Nat} {rd : BitVec 6} {signed : Bool} {acq : Option Nat}
    (hu : s.findUnit u.key = some u) (hal : va % size = 0) (hlo : localWindow ≤ va) (hhi : va < 2 ^ 57) (hin : va - localWindow + size ≤ u.regionBytes) :
    let a := accessOf s u va size (.load rd signed) len none acq (u.pantryPa (va - localWindow)) 0 0 7
    let x := s.bump.putUnit (u.accessing a)
    (∀ bs, forwarded u a.pa size = some (some bs) → accessC s u va size .load (.load rd signed) len none acq = completeAccess x a (.ok bs)) ∧
    (forwarded u a.pa size = some none → s.poisoned a.pa size = false →
      accessC s u va size .load (.load rd signed) len none acq = completeAccess x a (.ok ((s.bytesAt a.pa size).map TByte.v))) := by
  have hu' : s.bump.findUnit u.key = some u := hu
  have h0 : ¬ (va % size != 0) = true := by simp [hal]
  have h57 : ¬ 2 ^ 57 ≤ va := by omega
  have hreg : ¬ u.regionBytes < va - localWindow + size := by omega
  unfold accessC
  rw [if_neg h0, if_neg h57, if_pos hlo]
  generalize va - localWindow = off at hreg ⊢
  dsimp only [accessOf]
  rw [if_neg hreg]
  refine ⟨fun bs hfw => ?_, fun hfw hp => ?_⟩
  · rw [hfw, hu']
    rfl
  · rw [hfw, hu', localLoad, hp]
    rfl

theorem loadValue_eq {bs : List Byte} {size : Nat} (signed : Bool) (h : bs.length = size) :
    loadValue signed bs = if signed then BitVec.ofInt 64 (sintOf (8 * size) (leNat bs)) else BitVec.ofNat 64 (leNat bs) := by
  rw [loadValue, h]

theorem bytesAt_v_length (s : State) (pa n : Nat) : ((s.bytesAt pa n).map TByte.v).length = n := by rw [List.length_map, s.bytesAt_length]

/-- The instruction i is a plain or relaxed load of n words: LD, LDS, or LDO without an acquire part. -/
structure PlainLoad (s : State) (u : UnitSt) (i : Instr) (rd : BitVec 6) (va size : Nat) (signed : Bool) (n : Nat) : Prop where
  exec_eq : exec i s = .next (accessC s u va size .load (.load rd signed) n none none)

theorem plainLoad_ld {s : State} {u : UnitSt} (h : CtlAt s u) (f : CM) : PlainLoad s u (.ld f) f.rd (cmAddr u f) (2 ^ f.sz.toNat) false 1 :=
  ⟨onCtl_at h _⟩

theorem plainLoad_lds {s : State} {u : UnitSt} (h : CtlAt s u) (f : CM) : PlainLoad s u (.lds f) f.rd (cmAddr u f) (2 ^ f.sz.toNat) true 1 :=
  ⟨onCtl_at h _⟩

theorem reread_self {s : State} {u : UnitSt} (h : s.findUnit u.key = some u) : reread s u = u := by simp [reread, h]

theorem plainLoad_ldo {s : State} {u : UnitSt} (h : CtlAt s u) {f : CX} (ho : f.ord = 0) :
    PlainLoad s u (.ldo f) f.rd (cxAddr u f) (2 ^ (f.sub.toNat % 4)) (f.sub.getLsbD 2) 2 := by
  refine ⟨(onCtl_at h _).trans ?_⟩
  simp [ho, reread_self h.find]

/-- An acquire LDO accesses after its acquire effects (R295). -/
theorem exec_ldo_acquire {s : State} {u : UnitSt} (h : CtlAt s u) {f : CX} (ho : f.ord = 1) :
    exec (.ldo f) s = .next (accessC (acquireAt s u (cxAddr u f) f.scope.toNat) (reread (acquireAt s u (cxAddr u f) f.scope.toNat) u) (cxAddr u f)
      (2 ^ (f.sub.toNat % 4)) .load (.load f.rd (f.sub.getLsbD 2)) 2 none (some f.scope.toNat)) := by
  refine (onCtl_at h _).trans ?_
  simp [ho]

theorem plainLoad_local {s : State} {u : UnitSt} {i : Instr} {rd : BitVec 6} {va size n : Nat} {signed : Bool} (h : CtlAt s u)
    (hi : PlainLoad s u i rd va size signed n) (hloc : LocalAccess s u va size) :
    let x := leNat ((s.bytesAt (u.pantryPa (va - localWindow)) size).map TByte.v)
    ∃ t, exec i s = .next t ∧ SameMemory s t ∧
      Retired s t u ((u.setC rd (if signed then BitVec.ofInt 64 (sintOf (8 * size) x) else BitVec.ofNat 64 x)).modCtl
        (fun c => c.forget (u.pantryPa (va - localWindow)) size)) n := by
  obtain ⟨hal, hlo, hhi, hin, hown, hp⟩ := hloc
  have hacc := (accessC_window_load (rd := rd) (signed := signed) (len := n) (acq := none) h.find hal hlo hhi hin).2 (forwarded_none hown) hp
  obtain ⟨hst, -, hret⟩ := load_completes (t := s.bump) (a := accessOf s u va size (.load rd signed) n none none (u.pantryPa (va - localWindow)) 0 0 7)
    ((s.bytesAt (u.pantryPa (va - localWindow)) size).map TByte.v) rfl h.find h.run rfl rfl
  rw [loadValue_eq signed (bytesAt_v_length s _ size)] at hret
  exact ⟨_, hi.exec_eq.trans (congrArg _ hacc), SameStore.sameMemory (s := s) hst, hret⟩

theorem plainLoad_forwards {s : State} {u : UnitSt} {i : Instr} {rd : BitVec 6} {va size n : Nat} {signed : Bool} {e : StoreEntry} (h : CtlAt s u)
    (hi : PlainLoad s u i rd va size signed n) (hal : va % size = 0) (hlo : localWindow ≤ va) (hhi : va < 2 ^ 57)
    (hin : va - localWindow + size ≤ u.regionBytes) (hown : (ownStores u (u.pantryPa (va - localWindow)) size).getLast? = some e)
    (hle : e.acc.pa ≤ u.pantryPa (va - localWindow)) (hge : u.pantryPa (va - localWindow) + size ≤ e.acc.pa + e.acc.size) :
    ∃ t, exec i s = .next t ∧ SameMemory s t ∧
      Retired s t u ((u.setC rd (loadValue signed (sliceOf e.acc.use.storeData (u.pantryPa (va - localWindow) - e.acc.pa) size))).modCtl
        (fun c => c.forget (u.pantryPa (va - localWindow)) size)) n := by
  have hacc := (accessC_window_load (rd := rd) (signed := signed) (len := n) (acq := none) h.find hal hlo hhi hin).1 _ (forwarded_some hown hle hge)
  obtain ⟨hst, -, hret⟩ := load_completes (t := s.bump) (a := accessOf s u va size (.load rd signed) n none none (u.pantryPa (va - localWindow)) 0 0 7)
    (sliceOf e.acc.use.storeData (u.pantryPa (va - localWindow) - e.acc.pa) size) rfl h.find h.run rfl rfl
  exact ⟨_, hi.exec_eq.trans (congrArg _ hacc), SameStore.sameMemory (s := s) hst, hret⟩

/-! ### Acquire loads (R111, R115, R124, R295) -/

theorem acquireAt_effect (s : State) (u : UnitSt) (va scope : Nat) : CacheEffect s (acquireAt s u va scope) := acquireFx_effect _ _ _ _ _

/-- An acquire load that completes at t, which holds the unit as w. -/
theorem acquireLoad_completes {t : State} {u w : UnitSt} {a : Access} {rd : BitVec 6} {signed : Bool} {sc : Nat} (bs : List Byte)
    (huse : a.use = .load rd signed) (hw : t.findUnit w.key = some w) (hset : w.settled = u.settled) (hrun : u.running = true)
    (hkey : a.unit = u.key) (hpair : a.pair = u.pair) (hlen : a.len = 2) (hacq : a.acq = some sc) :
    ∃ v, (completeAccess (t.putUnit (w.accessing a)) a (.ok bs)).findUnit u.key = some v ∧
      Acquired (completeAccess (t.putUnit (w.accessing a)) a (.ok bs)) u v sc ∧ v.ctx.ctl.c = (u.setC rd (loadValue signed bs)).ctx.ctl.c := by
  have hwk : w.key = u.key := UnitSt.key_of_settled hset
  have hput : (t.putUnit (w.accessing a)).findUnit u.key = some (w.accessing a) := hwk ▸ State.putUnit_findUnit_same t (w.accessing a) w hw
  have hacc : (w.accessing a).settled = u.settled := by rw [UnitSt.accessing_load huse]; exact hset
  rw [completeAccess_load (v := w.accessing a) bs huse (by rw [hkey]; exact hput)
    ((UnitSt.settled_running hacc).trans hrun) (by rw [UnitSt.accessing_load huse]; rfl)]
  have hahead : (((w.accessing a).setC rd (loadValue signed bs)).modCtl (fun c => c.readDone a)).ctx.ctl.ahead = [] := by simp [Ctl.readDone, hacq]
  have hread : (((w.accessing a).setC rd (loadValue signed bs)).modCtl (fun c => c.readDone a)).settled = ((w.accessing a).setC rd (loadValue signed bs)).settled := by
    simp only [Ctl.readDone, hacq, Option.isSome_some, if_true]; rfl
  have hsame (x : Word) : (((w.accessing a).setC rd x).ctx.ctl.sb = (w.accessing a).ctx.ctl.sb) := by unfold UnitSt.setC Ctl.setC; split <;> rfl
  have hpc : (((w.accessing a).setC rd (loadValue signed bs)).modCtl (fun c => c.readDone a)).ctx.ctl.pc = u.ctx.ctl.pc := by
    rw [UnitSt.settled_pc hread, UnitSt.setC_pc, UnitSt.settled_pc hacc]
  have hsb : (((w.accessing a).setC rd (loadValue signed bs)).modCtl (fun c => c.readDone a)).ctx.ctl.sb = u.ctx.ctl.sb := by
    rw [UnitSt.settled_sb hread, hsame, UnitSt.settled_sb hacc]
  obtain ⟨v, hv, hveq, hacqd⟩ := acquired_retires hput (g := ((w.accessing a).setC rd (loadValue signed bs)).modCtl (fun c => c.readDone a)) hwk hpair hkey hlen
    hacq hahead hpc ((UnitSt.settled_dat hread).trans (UnitSt.settled_dat hacc :)) hsb
  refine ⟨v, hv, hacqd, ?_⟩
  rw [hveq]
  exact (UnitSt.settled_c hread).trans (UnitSt.setC_settled_c hacc rd _)

end Sys2Proof.Machine
end

section
/-!
O7: acquire loads from the own pantry region, and translated loads that take what was read ahead or find their line in the pair's L1 (R93, R110, R113,
R124, R295).
-/

namespace Sys2Proof.Machine

/-! ### Acquire loads from the own pantry region (R111, R124) -/

/-- After an acquire beyond the slice's own scope the job has no merging line left (R111). -/
theorem acquireAt_nothing (s : State) (u : UnitSt) (va : Nat) {scope : Nat} (hs : scope ≠ 0) : NothingToMerge (acquireAt s u va scope) u.pair u.key.job := by
  intro l hl hm
  rw [acquireFx_noMerging s u.key u.pair _ hs l hl] at hm
  exact absurd hm (by simp)

theorem acquireAt_store {s : State} {u : UnitSt} (va : Nat) {scope : Nat} (h : CleanMerge s u scope) : SameStore s (acquireAt s u va scope) := acquireFx_store _ h

theorem acquireAt_owners (s : State) (u : UnitSt) (va scope : Nat) : (acquireAt s u va scope).owners = s.owners := acquireFx_owners _ _ _ _ _

/-- An acquire load that completes leaves memory alone where its merging lines are gone. -/
theorem acquireLoad_store {t : State} {w : UnitSt} {a : Access} {rd : BitVec 6} {signed : Bool} (bs : List Byte) (huse : a.use = .load rd signed)
    (hw : t.findUnit w.key = some w) (hrun : w.running = true) (hkey : a.unit = w.key)
    (hnone : ∀ sc, a.acq = some sc → sc ≠ 0 → NothingToMerge t a.pair a.unit.job) :
    SameStore t (completeAccess (t.putUnit (w.accessing a)) a (.ok bs)) := by
  have hput : (t.putUnit (w.accessing a)).findUnit a.unit = some (w.accessing a) := hkey ▸ State.putUnit_findUnit_same t (w.accessing a) w hw
  rw [completeAccess_load bs huse hput hrun (by rw [UnitSt.accessing_load huse]; rfl)]
  exact SameStore.trans (t := acquireDone (t.putUnit (w.accessing a)) a) (acquireDone_store (s := t.putUnit (w.accessing a)) hnone) ⟨rfl, rfl, rfl⟩

theorem acquireLdo_local {s : State} {u : UnitSt} {f : CX} (h : CtlAt s u) (ho : f.ord = 1) (hloc : LocalAccess s u (cxAddr u f) (2 ^ (f.sub.toNat % 4)))
    (hclean : CleanMerge s u f.scope.toNat) :
    let x := leNat ((s.bytesAt (u.pantryPa (cxAddr u f - localWindow)) (2 ^ (f.sub.toNat % 4))).map TByte.v)
    ∃ t v, exec (.ldo f) s = .next t ∧ SameMemory s t ∧ t.findUnit u.key = some v ∧ Acquired t u v f.scope.toNat ∧
      v.ctx.ctl.c = (u.setC f.rd (if f.sub.getLsbD 2 then BitVec.ofInt 64 (sintOf (8 * 2 ^ (f.sub.toNat % 4)) x) else BitVec.ofNat 64 x)).ctx.ctl.c := by
  obtain ⟨hal, hlo, hhi, hin, hown, hp⟩ := hloc
  have hstore := acquireAt_store (cxAddr u f) hclean
  obtain ⟨hfind, hset⟩ := (acquireAt_effect s u (cxAddr u f) f.scope.toNat).reread h.find
  have hexec := exec_ldo_acquire h ho
  have hnone := fun (hs : f.scope.toNat ≠ 0) => acquireAt_nothing s u (cxAddr u f) hs
  generalize acquireAt s u (cxAddr u f) f.scope.toNat = s1 at *
  generalize reread s1 u = w at *
  generalize cxAddr u f = va at *
  generalize 2 ^ (f.sub.toNat % 4) = size at *
  have hkey : w.key = u.key := UnitSt.key_of_settled hset
  have hpair : w.pair = u.pair := UnitSt.settled_pair hset
  have hrun : w.running = true := (UnitSt.settled_running hset).trans h.run
  rw [← hkey] at hfind
  rw [← UnitSt.settled_ownStores hset, ← UnitSt.settled_pantryPa hset] at hown
  rw [← hstore.poisoned, ← UnitSt.settled_pantryPa hset] at hp
  rw [← UnitSt.settled_regionBytes hset] at hin
  have hacc := (accessC_window_load (rd := f.rd) (signed := f.sub.getLsbD 2) (len := 2) (acq := some f.scope.toNat) hfind hal hlo hhi hin).2
    (forwarded_none hown) hp
  obtain ⟨v, hv, hacqd, hc⟩ := acquireLoad_completes (t := s1.bump) (u := u)
    (a := accessOf s1 w va size (.load f.rd (f.sub.getLsbD 2)) 2 none (some f.scope.toNat) (w.pantryPa (va - localWindow)) 0 0 7)
    ((s1.bytesAt (w.pantryPa (va - localWindow)) size).map TByte.v) rfl hfind hset h.run hkey hpair rfl rfl
  have hmem := acquireLoad_store (t := s1.bump)
    (a := accessOf s1 w va size (.load f.rd (f.sub.getLsbD 2)) 2 none (some f.scope.toNat) (w.pantryPa (va - localWindow)) 0 0 7)
    ((s1.bytesAt (w.pantryPa (va - localWindow)) size).map TByte.v) rfl hfind hrun rfl fun sc hsc hs => by
      obtain rfl : f.scope.toNat = sc := Option.some.inj hsc
      show NothingToMerge s1.bump w.pair w.key.job
      rw [hpair, hkey]
      exact hnone hs
  rw [loadValue_eq _ (bytesAt_v_length s1 _ size), hstore.bytesAt, UnitSt.settled_pantryPa hset] at hc
  exact ⟨_, v, hexec.trans (congrArg _ hacc), SameStore.sameMemory (s := s) (hstore.trans (t := s1) hmem), hv, hacqd, hc⟩

/-! ### Translated loads that find their line in the L1 (R93, R110, R113) -/

/-- A translation that succeeds changes no more than which TLB entries are there: memory, units and the lines of the L1 caches are as before. -/
def OnlyTlb (s t : State) : Prop := t = { s with pairs := t.pairs, dies := t.dies, fresh := t.fresh } ∧ ∀ p, (t.pairOf p).l1 = (s.pairOf p).l1

theorem onlyTlb_modPair (s : State) (p : Nat) (f : List TlbEntry → List TlbEntry) :
    OnlyTlb s (s.modPair p (fun x => { x with tlb := f x.tlb })).bump := by
  refine ⟨rfl, fun q => ?_⟩
  change ((s.modPair p (fun x => { x with tlb := f x.tlb })).pairOf q).l1 = _
  rw [State.modPair, State.pairOf_setPair]
  split
  · next h => rw [← h, show ((s.pairOf p).id) = p from s.pairOf_id p]
  · rfl

theorem xlate_ok_onlyTlb {s t : State} {u : UnitSt} {data : Bool} {q : AccKind} {va pa lvl : Nat} {e : Pte} (h : xlate s u data q va = .ok t pa e lvl) :
    OnlyTlb s t := by
  have hl {x : State} {y : TlbEntry} (hx : lookupTlb s u.pair u.key.job (va / 4096) = some (x, y)) : OnlyTlb s x := by
    unfold lookupTlb at hx
    split at hx
    · obtain ⟨rfl, -⟩ := by simpa using hx
      exact onlyTlb_modPair _ _ _
    · obtain ⟨z, -, hz⟩ := Option.map_eq_some_iff.1 hx
      obtain ⟨rfl, -⟩ := by simpa using hz
      obtain ⟨h1, h2⟩ := onlyTlb_modPair (s.modDie (dieOf u.pair) (fun x => { x with l2tlb := touchTlb s.fresh z x.l2tlb })) u.pair
        (tlbPut (if z.pages == 1 then 48 else 16) (fun x => (x.pages == 1) == (z.pages == 1)) { z with used := s.fresh })
      exact ⟨rfl, h2⟩
  unfold xlate at h
  dsimp only at h
  split at h
  · split at h <;> cases h
  · next hx =>
    split at h
    · cases h
      exact hl hx
    · split at h
      · cases h
      · split at h <;> cases h

/-- A translated load with no own store before it sets out, or takes what was read ahead. -/
theorem accessC_translated_load {s t : State} {u : UnitSt} {va size len pa lvl : Nat} {rd : BitVec 6} {signed : Bool} {acq : Option Nat} {e : Pte}
    (hu : t.findUnit u.key = some u) (hal : va % size = 0) (hlo : va < localWindow)
    (hx : xlate s u false { kind := .load, size := size } va = .ok t pa e lvl)
    (hok : regionOk u va size true false = true ∨ (s.fwj u.key.job = true ∧ Pte.rcx e = true)) (hown : ownStores u pa size = []) :
    let a := accessOf s u va size (.load rd signed) len none acq pa (Pte.cm e) (Pte.ham e) lvl
    let x := t.bump.putUnit (u.accessing a)
    (∀ bs, acq = none → u.ctx.ctl.readAhead pa size = some bs → accessC s u va size .load (.load rd signed) len none acq = completeAccess x a (.ok bs)) ∧
    (∀ y, u.ctx.ctl.readAhead pa size = none ∨ acq.isSome = true → launchAccess x u a = .gone y →
      accessC s u va size .load (.load rd signed) len none acq = y) := by
  have hu' : t.bump.findUnit u.key = some u := hu
  have h0 : ¬ (va % size != 0) = true := by simp [hal]
  have h57 : ¬ 2 ^ 57 ≤ va := by unfold localWindow at hlo; omega
  have hlw : ¬ localWindow ≤ va := by omega
  have hx' : xlate s u false { kind := .load, aop := none, size := size } va = .ok t pa e lvl := hx
  have hfirst : ¬ (!regionOk u va size (Kind.load != .store) (Kind.load != .load) && !s.fwj u.key.job) = true := by
    show ¬ (!regionOk u va size true false && !s.fwj u.key.job) = true
    rcases hok with hr | ⟨hf, -⟩
    · simp [hr]
    · simp [hf]
  have hsecond : ¬ (!regionOk u va size (Kind.load != .store) (Kind.load != .load) && !Pte.rcx e) = true := by
    show ¬ (!regionOk u va size true false && !Pte.rcx e) = true
    rcases hok with hr | ⟨-, hr⟩
    · simp [hr]
    · simp [hr]
  unfold accessC
  rw [if_neg h0, if_neg h57, if_neg hlw]
  dsimp only [accessOf]
  rw [if_neg hfirst, hx']
  dsimp only
  rw [if_neg hsecond, forwarded_none hown, hu']
  refine ⟨fun bs ha hbs => ?_, fun y hna hy => ?_⟩
  · subst ha
    simp only [Option.isNone_none, if_true, hbs]
    rfl
  · have hnone : (if acq.isNone = true then u.ctx.ctl.readAhead pa size else none) = none := by
      rcases hna with h | h
      · simp [h]
      · cases acq <;> simp at h ⊢
    simp only [hnone]
    exact hy ▸ rfl

/-- The L1 of u's pair holds the line l in which a load at pa finds its bytes: in S, E or M for a C page, in MG for u's job for an M page, in PC with
a stamp that reaches the slice's floor for a host or peer C page (R93, R110, R113, R116). The floor is that of w, u after its acquire effects. -/
def HeldInL1 (s : State) (u w : UnitSt) (pa cm : Nat) (l : L1Line) : Prop :=
  (cm = 0 ∧ cachedHere u.pair pa = true ∧ s.l1Find u.pair (lineOf pa) [.s, .e, .m] = some l) ∨
  (cm = 1 ∧ cachedHere u.pair pa = true ∧ s.l1Find u.pair (lineOf pa) [.mg] = some l ∧ l.jobs.contains u.key.job = true) ∨
  (cm = 0 ∧ ((∃ p a, place52 pa = .host p a) ∨ (∃ q a, place52 pa = .peer q a)) ∧ s.l1Find u.pair (lineOf pa) [.pc] = some l ∧
    stampOk l.stamp (dieOf u.pair) (if isPeerLine (lineOf pa) then w.ctx.ctl.peerFloor else w.ctx.ctl.hostFloor) = true)

theorem place52_of_cachedHere {pair pa : Nat} (h : cachedHere pair pa = true) : place52 pa = .hbm ∨ ∃ d v o, place52 pa = .attic d v o := by
  unfold cachedHere at h
  split at h
  · next hp => exact .inl hp
  · next hp => exact .inr ⟨_, _, _, hp⟩
  all_goals cases h

/-- A load whose line the L1 holds performs there at once. -/
theorem launchAccess_held {s : State} {u w : UnitSt} {a : Access} {l : L1Line} {rd : BitVec 6} {signed : Bool} (huse : a.use = .load rd signed)
    (hkey : a.unit = u.key) (hpair : a.pair = u.pair) (h : HeldInL1 s u w a.pa a.cm l) :
    ∃ sts, launchAccess s w a = .gone (performL1 s a sts) ∧ s.l1Find a.pair a.line sts = some l := by
  unfold HeldInL1 at h
  rw [← hpair, ← hkey] at h
  unfold launchAccess
  simp only [huse]
  rcases h with ⟨hcm, hc, hl⟩ | ⟨hcm, hc, hl, hj⟩ | ⟨hcm, hout, hl, hst⟩
  · refine ⟨cStates, ?_, hl⟩
    have hl' : s.l1Find a.pair a.line cStates = some l := hl
    rcases place52_of_cachedHere hc with hp | ⟨_, _, _, hp⟩ <;> simp [hp, hcm, hc, hl']
  · refine ⟨[.mg], ?_, hl⟩
    have hl' : s.l1Find a.pair a.line [.mg] = some l := hl
    have hfill : fillMerge s a = some s := by simp only [fillMerge, hl', hj, if_true]
    rcases place52_of_cachedHere hc with hp | ⟨_, _, _, hp⟩ <;> simp [hp, hcm, hc, hfill]
  · refine ⟨[.pc], ?_, hl⟩
    have hl' : s.l1Find a.pair a.line [.pc] = some l := hl
    have hpc : pcLoad s w a true = .gone (performL1 s a [.pc]) := by
      unfold pcLoad
      simp only [hl']
      exact if_pos hst
    rcases hout with ⟨p, o, hp⟩ | ⟨p, o, hp⟩ <;> simp [hp, hcm, hpc]

/-- Bytes of a line that lie under the generation that reads them, or outside HBM, are read as they are (R47). -/
theorem lineSeen_plain {k base off n : Nat} {data : List TByte} (h : isHbm base = false ∨ ∀ b ∈ data, b.key = k) :
    lineSeen k base data off n = (sliceOf data off n).map TByte.v := by
  unfold lineSeen
  refine if_pos ?_
  rcases h with h | h
  · simp [h]
  · have : ((data.drop off).take n).all (fun b => b.key == k) = true :=
      List.all_eq_true.2 fun b hb => by simpa using h b (List.mem_of_mem_drop (List.mem_of_mem_take hb))
    simp [this]

theorem isHbm_line (pa : Nat) : isHbm (lineOf pa * 128) = isHbm pa := by
  unfold isHbm lineOf
  congr 1
  simp only [eq_iff_iff]
  omega

/-- A load performs in a line of the L1 with the line's bytes (R94). -/
theorem performL1_load {s : State} {a : Access} {sts : List L1St} {l : L1Line} {rd : BitVec 6} {signed : Bool} (huse : a.use = .load rd signed)
    (hl : s.l1Find a.pair a.line sts = some l) (hkey : isHbm a.pa = false ∨ ∀ b ∈ l.data, b.key = a.key) (hbad : badIn l.data (a.pa % 128) a.size = false)
    (hpoison : homePoisoned s a.pa a.size = false) :
    performL1 s a sts = completeAccess s.bump a (.ok ((sliceOf l.data (a.pa % 128) a.size).map TByte.v)) := by
  have hseen := lineSeen_plain (k := a.key) (base := a.line * 128) (off := a.pa % 128) (n := a.size) (data := l.data)
    (by rw [show isHbm (a.line * 128) = isHbm a.pa from isHbm_line a.pa]; exact hkey)
  simp only [performL1, hl, huse, hbad, hpoison, hseen, Bool.and_false, Bool.or_false, Bool.false_eq_true, if_false]

/-- A load instruction at s accesses va as w does at s1, the state and the unit after its acquire effects where it has some. -/
structure LoadIssue (s : State) (u : UnitSt) (i : Instr) (rd : BitVec 6) (va size : Nat) (signed : Bool) (n : Nat) (acq : Option Nat) (s1 : State)
    (w : UnitSt) : Prop where
  exec_eq : exec i s = .next (accessC s1 w va size .load (.load rd signed) n none acq)
  find : s1.findUnit w.key = some w
  settled : w.settled = u.settled
  owners : s1.owners = s.owners
  running : u.running = true
  plain : acq = none → s1 = s ∧ w = u
  len : acq ≠ none → n = 2

/-- The load ends with the bytes bs: a plain one leaves memory and the L1 alone, an acquire has its effects. -/
def LoadEnds (s : State) (u : UnitSt) (i : Instr) (rd : BitVec 6) (pa size : Nat) (signed : Bool) (n : Nat) (acq : Option Nat) (bs : List Byte) : Prop :=
  let x := if signed then BitVec.ofInt 64 (sintOf (8 * size) (leNat bs)) else BitVec.ofNat 64 (leNat bs)
  (acq = none → ∃ y, exec i s = .next y ∧ SameMemory s y ∧ (y.pairOf u.pair).l1 = (s.pairOf u.pair).l1 ∧
    Retired s y u ((u.setC rd x).modCtl (fun c => c.forget pa size)) n) ∧
  (∀ sc, acq = some sc → ∃ y v, exec i s = .next y ∧ y.findUnit u.key = some v ∧ Acquired y u v sc ∧ v.ctx.ctl.c = (u.setC rd x).ctx.ctl.c)

section Translated

variable {s s1 t : State} {u w : UnitSt} {i : Instr} {rd : BitVec 6} {va size n pa lvl : Nat} {signed : Bool} {acq : Option Nat} {e : Pte}
  (h : LoadIssue s u i rd va size signed n acq s1 w) (hx : xlate s1 w false { kind := .load, size := size } va = .ok t pa e lvl)
include h hx

/-- A translated load ends where its access completes, after any number of fresh numbers have been taken. -/
theorem loadEnds_of_completes {t' : State} (ht : t' = { t with fresh := t'.fresh }) {bs : List Byte} (hbs : bs.length = size)
    (hacc : accessC s1 w va size .load (.load rd signed) n none acq =
      completeAccess (t'.putUnit (w.accessing (accessOf s1 w va size (.load rd signed) n none acq pa (Pte.cm e) (Pte.ham e) lvl)))
        (accessOf s1 w va size (.load rd signed) n none acq pa (Pte.cm e) (Pte.ham e) lvl) (.ok bs)) :
    LoadEnds s u i rd pa size signed n acq bs := by
  obtain ⟨htlb, hl1⟩ := xlate_ok_onlyTlb hx
  have hkey : w.key = u.key := UnitSt.key_of_settled h.settled
  have hfind : t'.findUnit w.key = some w := by
    rw [show t'.findUnit w.key = s1.findUnit w.key by rw [ht, htlb]; rfl]; exact h.find
  unfold LoadEnds
  rw [← loadValue_eq signed hbs]
  refine ⟨fun ha => ?_, fun sc ha => ?_⟩
  · obtain ⟨rfl, rfl⟩ := h.plain ha
    obtain ⟨hst, hpairs, hret, hoth⟩ := load_completes (t := t')
      (a := accessOf s1 w va size (.load rd signed) n none acq pa (Pte.cm e) (Pte.ham e) lvl) bs rfl hfind h.running rfl ha
    refine ⟨_, h.exec_eq.trans (congrArg _ hacc), ?_, ?_, ?_, ?_⟩
    · exact SameStore.sameMemory (s := s1) (SameStore.trans (t := t') (by rw [ht, htlb]; exact ⟨rfl, rfl, rfl⟩) hst)
    · rw [← hl1, State.pairOf, hpairs, State.pairOf, ht]
    · rw [hret, ht, htlb]; rfl
    · intro k hk
      rw [hoth k hk, ht, htlb]; rfl
  · obtain ⟨v, hv, hacqd, hc⟩ := acquireLoad_completes (t := t') (u := u)
      (a := accessOf s1 w va size (.load rd signed) n none acq pa (Pte.cm e) (Pte.ham e) lvl) bs rfl hfind h.settled h.running hkey
      (UnitSt.settled_pair h.settled) (h.len (by simp [ha])) ha
    exact ⟨_, v, h.exec_eq.trans (congrArg _ hacc), hv, hacqd, hc⟩

variable (hal : va % size = 0) (hlo : va < localWindow) (hok : regionOk u va size true false = true ∨ (s.fwj u.key.job = true ∧ Pte.rcx e = true))
  (hown : ownStores u pa size = [])
include hal hlo hok hown

/-- A translated load that the slice has read ahead takes that value. -/
theorem loadEnds_readAhead {bs : List Byte} (ha : acq = none) (hbs : u.ctx.ctl.readAhead pa size = some bs) (hlen : bs.length = size) :
    LoadEnds s u i rd pa size signed n acq bs := by
  obtain ⟨rfl, rfl⟩ := h.plain ha
  obtain ⟨htlb, -⟩ := xlate_ok_onlyTlb hx
  have hfind : t.findUnit w.key = some w := by
    rw [show t.findUnit w.key = s1.findUnit w.key by rw [htlb]; rfl]; exact h.find
  exact loadEnds_of_completes h hx (t' := t.bump) rfl hlen ((accessC_translated_load hfind hal hlo hx hok hown).1 bs ha hbs)

/-- A translated load whose line the pair's L1 holds reads the line's bytes. -/
theorem loadEnds_held {l : L1Line} (hna : u.ctx.ctl.readAhead pa size = none ∨ acq.isSome = true) (hheld : HeldInL1 t u w pa (Pte.cm e) l)
    (hlen : l.data.length = 128) (hline : pa % 128 + size ≤ 128) (hkeys : isHbm pa = false ∨ ∀ b ∈ l.data, b.key = s.keyGenOf u)
    (hbad : badIn l.data (pa % 128) size = false) (hpoison : homePoisoned t pa size = false) :
    LoadEnds s u i rd pa size signed n acq ((sliceOf l.data (pa % 128) size).map TByte.v) := by
  obtain ⟨htlb, -⟩ := xlate_ok_onlyTlb hx
  have hkey : w.key = u.key := UnitSt.key_of_settled h.settled
  have hfind : t.findUnit w.key = some w := by
    rw [show t.findUnit w.key = s1.findUnit w.key by rw [htlb]; rfl]; exact h.find
  have hok' : regionOk w va size true false = true ∨ (s1.fwj w.key.job = true ∧ Pte.rcx e = true) := by
    rw [UnitSt.settled_regionOk h.settled, State.fwj_congr h.owners, hkey]; exact hok
  have hown' : ownStores w pa size = [] := (UnitSt.settled_ownStores h.settled pa size).trans hown
  have hgen : s1.keyGenOf w = s.keyGenOf u := State.keyGenOf_congr h.owners hkey
  have hna' : w.ctx.ctl.readAhead pa size = none ∨ acq.isSome = true := by
    rcases hna with hna | hna
    · by_cases ha : acq = none
      · obtain ⟨-, rfl⟩ := h.plain ha
        exact .inl hna
      · exact .inr (Option.isSome_iff_ne_none.2 ha)
    · exact .inr hna
  obtain ⟨sts, hlaunch, hfound⟩ := launchAccess_held (s := t.bump.putUnit (w.accessing (accessOf s1 w va size (.load rd signed) n none acq pa (Pte.cm e) (Pte.ham e) lvl)))
    (a := accessOf s1 w va size (.load rd signed) n none acq pa (Pte.cm e) (Pte.ham e) lvl) (l := l) rfl hkey
    (UnitSt.settled_pair h.settled) hheld
  have hperf := performL1_load (a := accessOf s1 w va size (.load rd signed) n none acq pa (Pte.cm e) (Pte.ham e) lvl) rfl hfound
    (by show isHbm pa = false ∨ ∀ b ∈ l.data, b.key = s1.keyGenOf w; rw [hgen]; exact hkeys) hbad hpoison
  refine loadEnds_of_completes h hx (t' := t.bump.bump) rfl (by simp [sliceOf, hlen]; omega) ?_
  exact (accessC_translated_load hfind hal hlo hx hok' hown').2 _ hna' (hlaunch.trans (congrArg _ hperf))

end Translated

theorem loadIssue_plain {s : State} {u : UnitSt} {i : Instr} {rd : BitVec 6} {va size n : Nat} {signed : Bool} (h : CtlAt s u)
    (hi : PlainLoad s u i rd va size signed n) : LoadIssue s u i rd va size signed n none s (reread s u) := by
  rw [reread_self h.find]
  exact ⟨hi.exec_eq, h.find, rfl, rfl, h.run, fun _ => ⟨rfl, rfl⟩, fun hn => absurd rfl hn⟩

theorem loadIssue_acquire {s : State} {u : UnitSt} {f : CX} (h : CtlAt s u) (ho : f.ord = 1) :
    LoadIssue s u (.ldo f) f.rd (cxAddr u f) (2 ^ (f.sub.toNat % 4)) (f.sub.getLsbD 2) 2 (some f.scope.toNat)
      (acquireAt s u (cxAddr u f) f.scope.toNat) (reread (acquireAt s u (cxAddr u f) f.scope.toNat) u) := by
  obtain ⟨hfind, hset⟩ := (acquireAt_effect s u (cxAddr u f) f.scope.toNat).reread h.find
  exact ⟨exec_ldo_acquire h ho, UnitSt.key_of_settled hset ▸ hfind, hset, acquireAt_owners _ _ _ _, h.run, fun hn => by simp at hn, fun _ => rfl⟩

/-- What a translated load with a given issue comes to, as the obligation puts it: it takes what was read ahead, or its line's bytes. -/
theorem translatedLoad {s s1 t : State} {u w : UnitSt} {i : Instr} {rd : BitVec 6} {va size n pa lvl : Nat} {signed : Bool} {acq : Option Nat} {e : Pte}
    {l : L1Line} (h : LoadIssue s u i rd va size signed n acq s1 w) (hal : va % size = 0) (hlo : va < localWindow)
    (hx : xlate s1 w false { kind := .load, size := size } va = .ok t pa e lvl)
    (hok : regionOk u va size true false = true ∨ (s.fwj u.key.job = true ∧ Pte.rcx e = true)) (hown : ownStores u pa size = []) :
    (∀ bs, acq = none → u.ctx.ctl.readAhead pa size = some bs → bs.length = size → LoadEnds s u i rd pa size signed n acq bs) ∧
    (u.ctx.ctl.readAhead pa size = none ∨ acq.isSome = true → HeldInL1 t u w pa (Pte.cm e) l → l.data.length = 128 → pa % 128 + size ≤ 128 →
      (isHbm pa = false ∨ ∀ b ∈ l.data, b.key = s.keyGenOf u) → badIn l.data (pa % 128) size = false → homePoisoned t pa size = false →
      LoadEnds s u i rd pa size signed n acq ((sliceOf l.data (pa % 128) size).map TByte.v)) :=
  ⟨fun _ ha hbs hlen => loadEnds_readAhead h hx hal hlo hok hown ha hbs hlen,
   fun hna hheld hlen hline hkeys hbad hp => loadEnds_held h hx hal hlo hok hown hna hheld hlen hline hkeys hbad hp⟩

theorem loadValue_unsigned (bs : List Byte) : loadValue false bs = BitVec.ofNat 64 (leNat bs) := rfl

/-- Settles O7: each load is an access that completes at once, with the bytes of its own stores, of its region, of what was read ahead or of its line. -/
theorem loadsRead : Obligations.LoadsRead := by
  refine ⟨fun s u h => ⟨fun f => ⟨plainLoad_local h (plainLoad_ld h f), plainLoad_local h (plainLoad_lds h f)⟩,
      fun f => ⟨fun ho => plainLoad_local h (plainLoad_ldo h ho), fun ho hloc hclean => acquireLdo_local h ho hloc hclean⟩⟩,
    fun f s u e h => ?_, fun s t u l e pa lvl h => ⟨fun f => ⟨?_, ?_⟩, fun f => ⟨fun ho => ?_, fun ho => ?_⟩⟩⟩
  · intro size va pa hal hlo hhi hin hown hle hge
    obtain ⟨y, hy⟩ := plainLoad_forwards h (plainLoad_ld h f) hal hlo hhi hin hown hle hge
    rw [loadValue_unsigned] at hy
    exact ⟨y, hy⟩
  · exact translatedLoad (loadIssue_plain h (plainLoad_ld h f))
  · exact translatedLoad (loadIssue_plain h (plainLoad_lds h f))
  · exact translatedLoad (loadIssue_plain h (plainLoad_ldo h ho))
  · exact translatedLoad (loadIssue_acquire h ho)

end Sys2Proof.Machine
end

section
/-!
O10: atomics of a control slice on its own pantry region: the new value of each operation, the write of exactly its bytes, and the end of the access
(R125, R147, R148, R297, R298).
-/

namespace Sys2Proof.Machine

/-! ### Writes outside HBM (R436) -/

theorem isHbm_pantryPa (u : UnitSt) (off : Nat) : isHbm (u.pantryPa off) = false := by
  refine decide_eq_false ?_
  simp only [UnitSt.pantryPa, pantryBase]
  omega

/-- In t the bytes bs stand at pa; every other byte is as in s. -/
def WritesBytes (s t : State) (pa : Nat) (bs : List Byte) : Prop :=
  t.memWf = true ∧ (∀ i < bs.length, (t.byteAt (pa + i)).v = bs.getD i 0) ∧ ∀ a, ¬ (pa ≤ a ∧ a < pa + bs.length) → t.byteAt a = s.byteAt a

theorem WritesBytes.of_sameStore {s s' t' t : State} {pa : Nat} {bs : List Byte} (h1 : SameStore s s') (h : WritesBytes s' t' pa bs)
    (h2 : SameStore t' t) : WritesBytes s t pa bs := by
  obtain ⟨hwf, hin, hout⟩ := h
  refine ⟨h2.memWf.trans hwf, fun i hi => ?_, fun a ha => ?_⟩
  · rw [h2.byteAt]; exact hin i hi
  · rw [h2.byteAt, hout a ha, h1.byteAt]

/-- A write outside HBM that covers no poisoned unit in part writes its bytes and no other. -/
theorem writeRaw_plain {s : State} {k pa : Nat} {bs : List Byte} (hwf : s.memWf = true) (hpa : isHbm pa = false) (hp : s.partPoison pa bs.length = false) :
    ∃ t, s.writeRaw pa (sealList k pa bs) = some t ∧ WritesBytes s t pa bs ∧ t = { s with mem := t.mem, keys := t.keys, poison := t.poison } := by
  have hlen := sealList_length k bs pa
  have hstore : (s.clearPoison pa bs.length).storeBytes pa (sealList k pa bs) = (s.clearPoison pa bs.length).setBytes pa (sealList k pa bs) := by
    simp [State.storeBytes, hpa]
  refine ⟨(s.clearPoison pa bs.length).setBytes pa (sealList k pa bs), by simp [State.writeRaw, hlen, hp, hstore], ⟨?_, fun i hi => ?_, fun a ha => ?_⟩, rfl⟩
  · exact State.setBytes_memWf _ _ _ hwf
  · have hi' : i < (sealList k pa bs).length := by rwa [hlen]
    rw [State.byteAt_setBytes_same (s.clearPoison pa bs.length) pa i _ hwf hi']
    exact sealList_v k bs pa i hi'
  · exact State.byteAt_setBytes_other (s.clearPoison pa bs.length) pa a _ hwf (by rwa [hlen])

theorem partPoison_of_not_poisoned {s : State} {pa n : Nat} (h : s.poisoned pa n = false) : s.partPoison pa n = false := by
  simp only [State.poisoned, State.partPoison, List.any_eq_false, Bool.and_eq_true, not_and] at h ⊢
  exact fun x hx ⟨h1, h2⟩ => absurd h2 (h x hx h1)

/-- A unit that parks at no WAITV is not woken by a write. -/
theorem noteWrite_findUnit {s : State} {k : UKey} {u : UnitSt} (pa n aid : Nat) (hu : s.findUnit k = some u) (hw : u.ctx.ctl.wait = .access aid) :
    (noteWrite s pa n).findUnit k = some u := by
  unfold State.findUnit noteWrite
  dsimp only
  rw [find?_map_key fun v => by
    split
    · split <;> rfl
    · rfl]
  rw [show s.units.find? (fun u => u.key == k) = some u from hu]
  simp [hw]

/-! ### The new value (R297) -/

/-- A sign with a code that is cut at the largest finite one, or at infinity, has 32 bits. -/
theorem signed_code_lt {sgn code top inf f1 f2 f3 : Nat} {c : Prop} [Decidable c] (hs : sgn ≤ 2 ^ 31) (hi : inf < 2 ^ 31) (ht : top < 2 ^ 31) :
    (if top < code then if c then (sgn + inf, f1) else (sgn + top, f2) else (sgn + code, f3)).1 < 2 ^ 32 := by
  split
  · split <;> dsimp only <;> omega
  · dsimp only; omega

/-- A value rounded to single precision has 32 bits. -/
theorem roundTo_single_lt (v : Val) (rm : Nat) : (roundTo v 1 rm false).1 < 2 ^ 32 := by
  have hsign (neg : Bool) : (if neg then signBit 1 else 0) ≤ 2 ^ 31 := by cases neg <;> decide
  have hlargest : largest 1 < 2 ^ 31 - 1 := by decide
  have hexp : (2 ^ expBits 1 - 1) * 2 ^ fracBits 1 < 2 ^ 31 := by decide
  cases v with
  | nan s =>
    show canonNan 1 < 2 ^ 32
    decide
  | inf neg =>
    have h := hsign neg
    show (if neg then signBit 1 else 0) + (2 ^ expBits 1 - 1) * 2 ^ fracBits 1 < 2 ^ 32
    omega
  | fin neg mant exp st =>
    have h := hsign neg
    simp only [roundTo, show isInt 1 = false from rfl, show hasInf 1 = true from rfl, Bool.false_eq_true, if_false, Nat.reduceBEq, Bool.false_and,
      Bool.not_true]
    split
    · exact lt_of_le_of_lt h (by decide)
    · exact signed_code_lt h hexp (by omega)

/-- What operation number op makes of the old value m and its operands b and c, of w bits (R297). -/
def AmoResult (op : Nat) (single : Prop) (w m b c x : Nat) : Prop :=
  (op = 0 → x = (m + b) % 2 ^ w) ∧ (op = 1 → (x : Int) = ((m : Int) - b) % (2 ^ w : Nat)) ∧ (op = 2 → x = m &&& b) ∧
  (op = 3 → x = m ||| b) ∧ (op = 4 → x = m ^^^ b) ∧
  (op = 5 → x = if sintOf w m ≤ sintOf w b then m else b) ∧ (op = 6 → x = if sintOf w b ≤ sintOf w m then m else b) ∧
  (op = 7 → x = min m b) ∧ (op = 8 → x = max m b) ∧ (op = 9 → x = b) ∧
  (op = 10 ∨ op = 12 → x = if m = b then c else m) ∧
  (op = 11 → single → x = (roundTo (exactSum [decodeVal m 1, decodeVal b 1] 0).1 1 0 false).1)

section NewValue

variable {o : AtomicOp} {m : Nat}

theorem amoNew_lt (hm : m < 2 ^ (8 * o.size)) (hsize : 4 ≤ o.size) : amoNew o m < 2 ^ (8 * o.size) := by
  have hb : o.b % 2 ^ (8 * o.size) < 2 ^ (8 * o.size) := Nat.mod_lt _ (Nat.two_pow_pos _)
  have hsingle : 2 ^ 32 ≤ 2 ^ (8 * o.size) := Nat.pow_le_pow_right (by decide) (by omega)
  unfold amoNew
  dsimp only
  generalize o.b % 2 ^ (8 * o.size) = b at *
  split
  · exact Nat.mod_lt _ (Nat.two_pow_pos _)
  · exact Nat.mod_lt _ (Nat.two_pow_pos _)
  · exact Nat.and_lt_two_pow _ hb
  · exact Nat.or_lt_two_pow hm hb
  · exact Nat.xor_lt_two_pow hm hb
  · split <;> assumption
  · split <;> assumption
  · exact lt_of_le_of_lt (min_le_left _ _) hm
  · exact max_lt hm hb
  · exact hb
  · split <;> assumption
  · split <;> assumption
  · exact lt_of_lt_of_le (roundTo_single_lt _ _) hsingle

/-- The difference of an atomic subtraction, which the model takes over a borrow. -/
theorem sub_mod_borrow {w b : Nat} (hb : b < 2 ^ w) : (((m + 2 ^ w - b) % 2 ^ w : Nat) : Int) = ((m : Int) - b) % (2 ^ w : Nat) := by
  have hle : b ≤ m + 2 ^ w := by omega
  push_cast [Nat.cast_sub hle]
  rw [show (m : Int) + 2 ^ w - b = m - b + 2 ^ w by ring, Int.add_emod_right]

theorem decodeOp_plain (x f : Nat) : decodeOp false x f = decodeVal x f := by
  unfold decodeOp flushIn
  cases decodeVal x f <;> simp

theorem amoNew_result {b c : Nat} (single : Prop) (hb : b < 2 ^ (8 * o.size))
    (hcas : o.op = 10 ∨ o.op = 12 → o.b % 2 ^ (8 * o.size) = c ∧ o.cmp % 2 ^ (8 * o.size) = b)
    (hplain : o.op ≠ 10 → o.op ≠ 12 → o.b % 2 ^ (8 * o.size) = b) : AmoResult o.op single (8 * o.size) m b c (amoNew o m) := by
  have hget {k : Nat} (hk : o.op = k) (h10 : k ≠ 10) (h12 : k ≠ 12) := hplain (hk ▸ h10) (hk ▸ h12)
  unfold amoNew
  refine ⟨fun h => ?_, fun h => ?_, fun h => ?_, fun h => ?_, fun h => ?_, fun h => ?_, fun h => ?_, fun h => ?_, fun h => ?_, fun h => ?_,
    fun h => ?_, fun h _ => ?_⟩
  case refine_2 =>
    simp only [h, hget h (by decide) (by decide)]
    exact sub_mod_borrow hb
  case refine_11 =>
    obtain ⟨h1, h2⟩ := hcas h
    rcases h with h | h <;> simp [h, h1, h2]
  case refine_12 => simp [h, hget h, addBits, decodeOp_plain]
  all_goals simp [h, hget h]

end NewValue

/-- The width of an AMO's operands in bytes. -/
def amoSize (f : CX) : Nat := if f.sub.toNat % 16 = 12 then 16 else if f.sub.getLsbD 6 then 8 else 4

/-- An AMO's operand: a register pair for CAS128. -/
def amoOperand (u : UnitSt) (f : CX) (r : BitVec 6) : Nat :=
  if f.sub.toNat % 16 = 12 then (u.c r).toNat + 2 ^ 64 * (u.c (r + 1)).toNat else (u.c r).toNat % 2 ^ (8 * amoSize f)

theorem amoOp_size (u : UnitSt) (f : CX) : (amoOp u f).size = amoSize f := by
  unfold amoOp amoSize
  dsimp only
  by_cases h12 : f.sub.toNat % 16 = 12
  · simp [h12]
  · by_cases h10 : f.sub.toNat % 16 = 10 <;> simp [h12, h10]

theorem amoOp_op (u : UnitSt) (f : CX) : (amoOp u f).op = f.sub.toNat % 16 := by
  unfold amoOp
  dsimp only
  by_cases h12 : f.sub.toNat % 16 = 12
  · simp [h12]
  · by_cases h10 : f.sub.toNat % 16 = 10 <;> simp [h12, h10]

theorem amoOperand_lt (u : UnitSt) (f : CX) (r : BitVec 6) : amoOperand u f r < 2 ^ (8 * amoSize f) := by
  unfold amoOperand
  split
  · next h =>
    have h1 := (u.c r).isLt
    have h2 := (u.c (r + 1)).isLt
    have hs : amoSize f = 16 := by simp [amoSize, h]
    rw [hs]
    omega
  · exact Nat.mod_lt _ (Nat.two_pow_pos _)

/-- A CAS compares with rb and stores rc, another operation takes rb. -/
theorem amoOp_cas (u : UnitSt) (f : CX) (h : f.sub.toNat % 16 = 10 ∨ f.sub.toNat % 16 = 12) :
    (amoOp u f).b = amoOperand u f f.rc ∧ (amoOp u f).cmp = amoOperand u f f.rb := by
  rcases h with h | h <;> simp [amoOp, amoOperand, amoSize, h]

theorem amoOp_b (u : UnitSt) (f : CX) (h10 : f.sub.toNat % 16 ≠ 10) (h12 : f.sub.toNat % 16 ≠ 12) : (amoOp u f).b = amoOperand u f f.rb := by
  simp [amoOp, amoOperand, amoSize, h10, h12]

end Sys2Proof.Machine
end

section
/-!
O10: an AMO on the own pantry region from its issue to its end (R111, R125, R148, R289, R297, R298).
-/

namespace Sys2Proof.Machine

/-! ### The access (R289, R297) -/

theorem accessC_window_amo {s : State} {u : UnitSt} {va size len : Nat} {rd : BitVec 6} {op : AtomicOp} {rel acq : Option Nat}
    (hu : s.findUnit u.key = some u) (hwf : s.memWf = true) (hloc : LocalAccess s u va size) (hm : mirrorAt s u.key (va - localWindow) size = none)
    (hsize : op.size = size) :
    let pa := u.pantryPa (va - localWindow)
    let a := accessOf s u va size (.amo rd op) len rel acq pa 0 0 7
    let bs := (s.bytesAt pa size).map TByte.v
    ∃ y, accessC s u va size .atomic (.amo rd op) len rel acq = completeAccess (noteWrite y pa size) a (.ok bs) ∧
      WritesBytes s y pa (leBytes size (amoNew op (leNat bs))) ∧
      y = { s.bump.putUnit (u.accessing a) with mem := y.mem, keys := y.keys, poison := y.poison } := by
  obtain ⟨hal, hlo, hhi, hin, hown, hp⟩ := hloc
  have hu' : s.bump.findUnit u.key = some u := hu
  have h0 : ¬ (va % size != 0) = true := by simp [hal]
  have h57 : ¬ 2 ^ 57 ≤ va := by omega
  have hreg : ¬ u.regionBytes < va - localWindow + size := by omega
  have hpp := partPoison_of_not_poisoned hp
  have hpa := isHbm_pantryPa u (va - localWindow)
  unfold accessC
  rw [if_neg h0, if_neg h57, if_pos hlo]
  generalize va - localWindow = off at *
  subst hsize
  dsimp only [accessOf]
  generalize hx : amoNew op (leNat ((s.bytesAt (u.pantryPa off) op.size).map TByte.v)) = x
  obtain ⟨y, hy, hbytes, heq⟩ := writeRaw_plain (s := s.bump.putUnit (u.accessing (accessOf s u va op.size (.amo rd op) len rel acq (u.pantryPa off) 0 0 7)))
    (k := 0) (pa := u.pantryPa off) (bs := leBytes op.size x) hwf hpa (by rw [leBytes_length]; exact hpp)
  refine ⟨y, ?_, hbytes, heq⟩
  rw [if_neg hreg, hown, hm, hu', localLoad, hp]
  dsimp only [List.isEmpty_nil]
  simp only [Bool.not_true, Bool.false_eq_true, if_false, hpp, hx]
  simp only [UnitSt.accessing, accessOf, beq_iff_eq, Nat.zero_ne_one, if_false] at hy ⊢
  rw [hy]

/-! ### Its end (R147, R298) -/

theorem UnitSt.setC_c_congr {u v : UnitSt} (h : v.ctx.ctl.c = u.ctx.ctl.c) (i : BitVec 6) (x : Word) :
    (v.setC i x).ctx.ctl.c = (u.setC i x).ctx.ctl.c := by
  unfold UnitSt.setC Ctl.setC
  split <;> simp [h]

theorem UnitSt.setC_sb (u : UnitSt) (i : BitVec 6) (x : Word) : (u.setC i x).ctx.ctl.sb = u.ctx.ctl.sb := by
  unfold UnitSt.setC Ctl.setC
  split <;> rfl

theorem amoWriteback_keeps (rd : BitVec 6) (size old : Nat) (u : UnitSt) :
    (amoWriteback rd size old u).key = u.key ∧ (amoWriteback rd size old u).ctx.dat = u.ctx.dat ∧
    (amoWriteback rd size old u).ctx.ctl.pc = u.ctx.ctl.pc ∧ (amoWriteback rd size old u).ctx.ctl.sb = u.ctx.ctl.sb := by
  unfold amoWriteback
  split
  · simp [UnitSt.setC_pc, UnitSt.setC_sb]
  · simp [UnitSt.setC_pc, UnitSt.setC_sb]

theorem amoWriteback_c_congr {u v : UnitSt} (h : v.ctx.ctl.c = u.ctx.ctl.c) (rd : BitVec 6) (size old : Nat) :
    (amoWriteback rd size old v).ctx.ctl.c = (amoWriteback rd size old u).ctx.ctl.c := by
  unfold amoWriteback
  split
  · exact UnitSt.setC_c_congr (UnitSt.setC_c_congr h _ _) _ _
  · exact UnitSt.setC_c_congr h _ _

theorem completeAccess_amo {t : State} {v : UnitSt} {a : Access} {rd : BitVec 6} {op : AtomicOp} (bs : List Byte) (huse : a.use = .amo rd op)
    (hv : (amoUncount t a).findUnit a.unit = some v) (hrun : v.running = true) (hw : v.ctx.ctl.wait = .access a.aid) :
    completeAccess t a (.ok bs) =
      (acquireDone (amoUncount t a) a).retireC ((amoWriteback rd op.size (leNat bs) v).modCtl (fun c => c.readDone a)) a.len := by
  simp [completeAccess, huse, hv, hrun, UnitSt.awaits, hw]

theorem amoUncount_findUnit {t : State} {a : Access} {rd : BitVec 6} {op : AtomicOp} {v : UnitSt} (huse : a.use = .amo rd op)
    (hv : t.findUnit a.unit = some v) : (amoUncount t a).findUnit a.unit = some (v.modCtl (fun c => c.addUnacked a.group false)) := by
  have hkey : v.key = a.unit := State.findUnit_key _ _ _ hv
  simp only [amoUncount, huse]
  rw [State.findUnit_modUnit t a.unit a.unit (fun _ => by rfl), hv]
  simp [hkey]

theorem UnitSt.accessing_wait (u : UnitSt) (a : Access) : (u.accessing a).ctx.ctl.wait = .access a.aid := by
  unfold UnitSt.accessing
  dsimp only
  split <;> rfl

/-- The fields of the slice that an access under way leaves alone. -/
theorem accessing_modCtl_keeps {w u : UnitSt} (a : Access) (hset : w.settled = u.settled) :
    let v := (w.accessing a).modCtl (fun c => c.addUnacked a.group false)
    v.ctx.ctl.wait = .access a.aid ∧ v.ctx.ctl.c = u.ctx.ctl.c ∧ v.ctx.ctl.pc = u.ctx.ctl.pc ∧ v.ctx.ctl.sb = u.ctx.ctl.sb ∧ v.ctx.dat = u.ctx.dat ∧
      v.running = u.running ∧ v.key = u.key := by
  refine ⟨w.accessing_wait a, ?_, ?_, ?_, (UnitSt.settled_dat hset :), (UnitSt.settled_running hset :), (UnitSt.key_of_settled hset :)⟩
  · rw [← UnitSt.settled_c hset]; unfold UnitSt.accessing; dsimp only; split <;> rfl
  · rw [← UnitSt.settled_pc hset]; unfold UnitSt.accessing; dsimp only; split <;> rfl
  · rw [← UnitSt.settled_sb hset]; unfold UnitSt.accessing; dsimp only; split <;> rfl

/-- An atomic of two words that completes at y, whose unit u it is but for cache effects. -/
theorem amo_completes {y : State} {u w : UnitSt} {a : Access} {rd : BitVec 6} {op : AtomicOp} (bs : List Byte) (huse : a.use = .amo rd op)
    (hw : y.findUnit u.key = some (w.accessing a)) (hset : w.settled = u.settled) (hrun : u.running = true) (hkey : a.unit = u.key)
    (hpair : a.pair = u.pair) (hlen : a.len = 2) (hnone : ∀ sc, a.acq = some sc → sc ≠ 0 → NothingToMerge y a.pair a.unit.job) :
    ∃ v, (completeAccess y a (.ok bs)).findUnit u.key = some v ∧ v.ctx.dat = u.ctx.dat ∧ v.ctx.ctl.pc = u.ctx.ctl.pc + 2 ∧
      v.ctx.ctl.c = (amoWriteback rd op.size (leNat bs) u).ctx.ctl.c ∧ (∀ sc, a.acq = some sc → Acquired (completeAccess y a (.ok bs)) u v sc) ∧
      SameStore y (completeAccess y a (.ok bs)) := by
  obtain ⟨hwait, hc, hpc, hsb, hdat, hvrun, hvkey⟩ := accessing_modCtl_keeps a hset
  have hfind := amoUncount_findUnit huse (hkey ▸ hw)
  have hunc : SameStore y (amoUncount y a) ∧ (amoUncount y a).pairs = y.pairs := by simp only [amoUncount, huse]; exact ⟨⟨rfl, rfl, rfl⟩, rfl⟩
  generalize (w.accessing a).modCtl (fun c => c.addUnacked a.group false) = v at *
  rw [completeAccess_amo bs huse hfind (hvrun.trans hrun) hwait]
  obtain ⟨hgkey, hgdat, hgpc, hgsb⟩ := amoWriteback_keeps rd op.size (leNat bs) v
  generalize hg : (amoWriteback rd op.size (leNat bs) v).modCtl (fun c => c.readDone a) = g
  have hgk : g.key = u.key := by rw [← hg]; exact hgkey.trans hvkey
  have hdone (d : Ctl) : (d.readDone a).pc = d.pc ∧ (d.readDone a).sb = d.sb ∧ (d.readDone a).c = d.c := by
    unfold Ctl.readDone; split <;> exact ⟨rfl, rfl, rfl⟩
  have hgc : g.ctx.ctl.c = (amoWriteback rd op.size (leNat bs) u).ctx.ctl.c := by
    rw [← hg]; exact (hdone _).2.2.trans (amoWriteback_c_congr hc rd op.size (leNat bs))
  have hgp : g.ctx.ctl.pc = u.ctx.ctl.pc := by rw [← hg]; exact (hdone _).1.trans (hgpc.trans hpc)
  have hgs : g.ctx.ctl.sb = u.ctx.ctl.sb := by rw [← hg]; exact (hdone _).2.1.trans (hgsb.trans hsb)
  have hgd : g.ctx.dat = u.ctx.dat := by rw [← hg]; exact hgdat.trans hdat
  obtain ⟨w', hw', -⟩ := (acquireDone_effect (amoUncount y a) a).findUnit (hkey ▸ hfind)
  have hret := (State.retireC_retired (acquireDone (amoUncount y a) a) u g w' a.len hgk hw').1
  refine ⟨_, hret, hgd, by simp [Ctl.advance, hgp, hlen], hgc, fun sc hsc => ?_, ?_⟩
  · have hahead : g.ctx.ctl.ahead = [] := by rw [← hg]; simp [Ctl.readDone, hsc]
    obtain ⟨x, hx, -, hacqd⟩ := acquired_retires (hkey ▸ hfind) (sc := sc) hgk hpair hkey hlen hsc hahead hgp hgd hgs
    rw [hret] at hx
    obtain rfl := Option.some.inj hx
    exact hacqd
  · refine (hunc.1.trans (acquireDone_store fun sc hsc h0 => ?_)).trans (t := acquireDone (amoUncount y a) a) ⟨rfl, rfl, rfl⟩
    have hpairs : (amoUncount y a).pairOf a.pair = y.pairOf a.pair := by simp only [State.pairOf, hunc.2]
    unfold NothingToMerge
    rw [hpairs]
    exact hnone sc hsc h0

/-! ### The instruction (R125, R148, R297) -/

/-- The state in which an AMO accesses: after its release effects, where it has a release part, and its acquire effects, where it has an acquire part. -/
def amoIssue (s : State) (u : UnitSt) (f : CX) : State :=
  let s1 := if f.ord.getLsbD 1 then releaseFx s u.key u.pair f.scope.toNat else s
  if f.ord.getLsbD 0 then acquireAt s1 u (cxAddr u f) f.scope.toNat else s1

theorem drained_of_empty {u : UnitSt} {scope : Nat} (hsb : u.ctx.ctl.sb = []) (h : ∀ g ≤ scopeGroup scope, u.ctx.ctl.unacked.toArray.getD g 0 = 0) :
    drained u scope = true := by
  simp only [drained, hsb, List.isEmpty_nil, Bool.true_and, List.all_eq_true, beq_iff_eq]
  intro g hg
  exact h g (by have := (mem_range _ _ _).1 hg; omega)

theorem exec_amo {s : State} {u : UnitSt} {f : CX} (h : CtlAt s u) (hrel : f.ord.getLsbD 1 = true → u.ctx.ctl.posted = none ∧ drained u f.scope.toNat = true) :
    exec (.amo f) s = .next (accessC (amoIssue s u f) (reread (amoIssue s u f) u) (cxAddr u f) (amoSize f) .atomic (.amo f.rd (amoOp u f)) 2
      (if f.ord.getLsbD 1 then some f.scope.toNat else none) (if f.ord.getLsbD 0 then some f.scope.toNat else none)) := by
  rw [← amoOp_size u f]
  refine (onCtl_at h _).trans ?_
  by_cases h1 : f.ord.getLsbD 1 = true
  · obtain ⟨hp, hd⟩ := hrel h1
    simp [h1, postedTrap, hp, hd, amoIssue]
  · have h1' : f.ord.getLsbD 1 = false := by simpa using h1
    simp only [h1', amoIssue, Bool.false_and, Bool.false_eq_true, if_false]

section Issue

variable {s : State} {u : UnitSt} {f : CX}

theorem amoIssue_effect (s : State) (u : UnitSt) (f : CX) : CacheEffect s (amoIssue s u f) := by
  unfold amoIssue
  have hrel : CacheEffect s (if f.ord.getLsbD 1 then releaseFx s u.key u.pair f.scope.toNat else s) :=
    CacheEffect.ite (releaseFx_effect _ _ _ _) (.refl s)
  exact CacheEffect.ite (hrel.trans (acquireAt_effect _ _ _ _)) hrel

theorem amoIssue_store (h : f.ord = 0 ∨ CleanMerge s u f.scope.toNat) : SameStore s (amoIssue s u f) := by
  rcases h with h | h
  · simp only [amoIssue, h]
    exact .refl s
  · have hrel : SameStore s (if f.ord.getLsbD 1 then releaseFx s u.key u.pair f.scope.toNat else s) ∧
        CleanMerge (if f.ord.getLsbD 1 then releaseFx s u.key u.pair f.scope.toNat else s) u f.scope.toNat := by
      split
      · exact ⟨releaseFx_store h, releaseFx_clean h⟩
      · exact ⟨.refl s, h⟩
    unfold amoIssue
    dsimp only
    generalize (if f.ord.getLsbD 1 then releaseFx s u.key u.pair f.scope.toNat else s) = s1 at *
    split
    · exact hrel.1.trans (acquireAt_store _ hrel.2)
    · exact hrel.1

theorem amoIssue_nothing (h0 : f.ord.getLsbD 0 = true) (hs : f.scope.toNat ≠ 0) : NothingToMerge (amoIssue s u f) u.pair u.key.job := by
  unfold amoIssue
  rw [if_pos h0]
  exact acquireAt_nothing _ _ _ hs

end Issue

theorem LocalAccess.of_settled {s t : State} {u w : UnitSt} {va size : Nat} (h : LocalAccess s u va size) (hst : SameStore s t)
    (hset : w.settled = u.settled) : LocalAccess t w va size := by
  unfold LocalAccess
  rw [UnitSt.settled_regionBytes hset, UnitSt.settled_pantryPa hset, UnitSt.settled_ownStores hset, hst.poisoned]
  exact h

/-- The result registers of an AMO of the model's width (R298). -/
theorem amoWriteback_eq (f : CX) (u : UnitSt) (m : Nat) :
    amoWriteback f.rd (amoSize f) m u = if f.sub.toNat % 16 = 12 then (u.setC f.rd (BitVec.ofNat 64 m)).setC (f.rd + 1) (BitVec.ofNat 64 (m / 2 ^ 64))
      else u.setC f.rd (BitVec.ofNat 64 m) := by
  unfold amoWriteback amoSize
  by_cases h12 : f.sub.toNat % 16 = 12
  · simp [h12]
  · cases f.sub.getLsbD 6 <;> simp [h12]

theorem four_le_amoSize (f : CX) : 4 ≤ amoSize f := by
  unfold amoSize
  split
  · decide
  · split <;> decide

/-- The model's operation of an AMO gives the instruction's result. -/
theorem amoOp_result (u : UnitSt) (f : CX) {m : Nat} (hm : m < 2 ^ (8 * amoSize f)) :
    amoNew (amoOp u f) m < 2 ^ (8 * amoSize f) ∧
      AmoResult (f.sub.toNat % 16) (f.sub.getLsbD 6 = false) (8 * amoSize f) m (amoOperand u f f.rb) (amoOperand u f f.rc) (amoNew (amoOp u f) m) := by
  have hb := amoOperand_lt u f f.rb
  have hc := amoOperand_lt u f f.rc
  have hsize := amoOp_size u f
  have hop := amoOp_op u f
  refine ⟨hsize ▸ amoNew_lt (by rwa [hsize]) (by rw [hsize]; exact four_le_amoSize f), ?_⟩
  have h := amoNew_result (o := amoOp u f) (m := m) (b := amoOperand u f f.rb) (c := amoOperand u f f.rc) (f.sub.getLsbD 6 = false) (by rwa [hsize])
    (fun hcas => ?_) (fun h10 h12 => ?_)
  · rwa [hop, hsize] at h
  · rw [hop] at hcas
    obtain ⟨h1, h2⟩ := amoOp_cas u f hcas
    rw [h1, h2, hsize, Nat.mod_eq_of_lt hb, Nat.mod_eq_of_lt hc]
    exact ⟨rfl, rfl⟩
  · rw [hop] at h10 h12
    rw [amoOp_b u f h10 h12, hsize, Nat.mod_eq_of_lt hb]

/-- Settles O10: the access is one step, whose write is the operation's new value and whose end is the old one. -/
theorem localAtomics : Obligations.LocalAtomics := by
  intro f s u h hwf _ hrel hclean op size w va pa m two b hloc hmirror
  have hexec := exec_amo h fun h1 => ⟨(hrel h1).1, drained_of_empty (hrel h1).2.1 (hrel h1).2.2⟩
  have heff := amoIssue_effect s u f
  have hstore := amoIssue_store hclean
  have hnothing (h0 : f.ord.getLsbD 0 = true) (hs : f.scope.toNat ≠ 0) : NothingToMerge (amoIssue s u f) u.pair u.key.job := amoIssue_nothing h0 hs
  obtain ⟨hfind, hset⟩ := heff.reread h.find
  have hsubs := heff.subs
  generalize amoIssue s u f = s1 at *
  generalize reread s1 u = w1 at *
  have hkey : w1.key = u.key := UnitSt.key_of_settled hset
  have hpa : w1.pantryPa (va - localWindow) = pa := UnitSt.settled_pantryPa hset _
  obtain ⟨y, hacc, hbytes, hy⟩ := accessC_window_amo (rd := f.rd) (op := amoOp u f) (len := 2)
    (rel := if f.ord.getLsbD 1 then some f.scope.toNat else none) (acq := if f.ord.getLsbD 0 then some f.scope.toNat else none)
    (hkey ▸ hfind) (hstore.memWf.trans hwf) (hloc.of_settled hstore hset) (by simp only [mirrorAt, hsubs, hkey]; exact hmirror) (amoOp_size u f)
  rw [hpa, hstore.bytesAt] at hacc hbytes
  have hwait : (noteWrite y pa size).findUnit u.key = some (w1.accessing (accessOf s1 w1 va size (.amo f.rd (amoOp u f)) 2
      (if f.ord.getLsbD 1 then some f.scope.toNat else none) (if f.ord.getLsbD 0 then some f.scope.toNat else none) pa 0 0 7)) := by
    refine noteWrite_findUnit pa size _ ?_ (UnitSt.accessing_wait _ _)
    rw [hy, ← hkey, hpa]
    exact State.putUnit_findUnit_same s1.bump (w1.accessing _) w1 (hkey ▸ hfind)
  have hpairs : (noteWrite y pa size).pairs = s1.pairs := by rw [hy]; rfl
  obtain ⟨v, hv, hdat, hpc, hc, hacq, hmem⟩ := amo_completes ((s.bytesAt pa size).map TByte.v) rfl hwait hset h.run hkey (UnitSt.settled_pair hset) rfl
    (fun sc hsc hs => by
      show NothingToMerge (noteWrite y pa size) w1.pair w1.key.job
      simp only [NothingToMerge, State.pairOf, hpairs, hkey, UnitSt.settled_pair hset]
      obtain ⟨h0, hscope⟩ := Option.ite_none_right_eq_some.1 hsc
      exact hnothing h0 (by have := Option.some.inj hscope; omega))
  rw [← hacc] at hv hacq hmem
  have hm : m < 2 ^ (8 * size) := by
    have := leNat_lt ((s.bytesAt pa size).map TByte.v)
    rwa [bytesAt_v_length, show (256 : Nat) = 2 ^ 8 from rfl, ← pow_mul] at this
  obtain ⟨hwf', hin, hout⟩ := WritesBytes.of_sameStore (t := accessC s1 w1 va size .atomic _ 2 _ _) hstore hbytes hmem
  have hlen : (leBytes size (amoNew (amoOp u f) m)).length = size := leBytes_length _ _
  have hc' : v.ctx.ctl.c = (amoWriteback f.rd (amoSize f) m u).ctx.ctl.c := by rw [hc, amoOp_size]
  rw [amoWriteback_eq] at hc'
  obtain ⟨hlt, hresult⟩ := amoOp_result u f hm
  rw [hlen] at hin hout
  exact ⟨_, _, hexec, hwf', hlt, hin, hout, ⟨v, hv, hdat, hpc, fun h0 => hacq _ (if_pos h0), hc'⟩, hresult⟩

end Sys2Proof.Machine
end

section
/-!
O8, first half: stores enter the buffer (R146, R288, R296), waiting stores and acknowledgements (R146, R147, R408), and the drain of the oldest store to a
pantry (R146 to R148).
-/

namespace Sys2Proof.Machine

/-! ### Stores enter the buffer (R146, R288, R296) -/

/-- The entry of a store that u makes at s. -/
def storeEntryOf (s : State) (u : UnitSt) (va size : Nat) (data : List Byte) (len : Nat) (rel : Option Nat) (pa cm lvl : Nat) (sub : Bool) : StoreEntry :=
  ⟨{ aid := s.fresh, unit := u.key, pair := u.pair, va := va, pa := pa, size := size, cm := cm, ham := 0, lvl := lvl
     key := s.keyGenOf u, cls := u.launch.cls, group := storeGroup s u.pair pa cm sub, len := len, rel := rel, acq := none
     use := .store data s.fresh }, rel⟩

theorem enterBuffer_room {s : State} {u : UnitSt} (e : StoreEntry) (h : u.ctx.ctl.sb.length < 32) :
    enterBuffer s u e = s.retireC (u.modCtl (fun c => ({ c with sb := c.sb ++ [e] }).forget e.acc.pa e.acc.size)) e.acc.len := if_neg (by omega)

section Enter

variable {s : State} {u : UnitSt} {va size len : Nat} {data : List Byte} {rel : Option Nat} (hal : va % size = 0)
include hal

theorem storeC_window (hlo : localWindow ≤ va) (hhi : va < 2 ^ 57) (hin : va - localWindow + size ≤ u.regionBytes)
    (hm : mirrorAt s u.key (va - localWindow) size = none) :
    storeC s u va size data len rel = enterBuffer s.bump u (storeEntryOf s u va size data len rel (u.pantryPa (va - localWindow)) 0 7 false) := by
  have h0 : ¬ (va % size != 0) = true := by simp [hal]
  have h57 : ¬ 2 ^ 57 ≤ va := by omega
  have hreg : ¬ u.regionBytes < va - localWindow + size := by omega
  unfold storeC
  rw [if_neg h0, if_neg h57, if_pos hlo]
  generalize va - localWindow = off at *
  dsimp only
  rw [if_neg hreg, hm]
  rfl

theorem storeC_translated {t : State} {pa lvl : Nat} {e : Pte} (hlo : va < localWindow) (hok : regionOk u va size false true = true)
    (hx : xlate s u false { kind := .store, size := size } va = .ok t pa e lvl) :
    storeC s u va size data len rel = enterBuffer t.bump u (storeEntryOf s u va size data len rel pa (Pte.cm e) lvl (subscribed t pa size)) := by
  have h0 : ¬ (va % size != 0) = true := by simp [hal]
  have h57 : ¬ 2 ^ 57 ≤ va := by unfold localWindow at hlo; omega
  have hlw : ¬ localWindow ≤ va := by omega
  unfold storeC
  rw [if_neg h0, if_neg h57, if_neg hlw]
  dsimp only
  rw [hok, hx]
  rfl

end Enter

/-- A store instruction of n words accesses va with the bytes of x. -/
structure StoreIssue (s : State) (u : UnitSt) (i : Instr) (va size : Nat) (x : Word) (n : Nat) (rel : Option Nat) : Prop where
  exec_eq : exec i s = .next (storeC s u va size (leBytes size x.toNat) n rel)

theorem storeIssue_st {s : State} {u : UnitSt} (h : CtlAt s u) (f : CM) : StoreIssue s u (.st f) (cmAddr u f) (2 ^ f.sz.toNat) (u.c f.rd) 1 none :=
  ⟨onCtl_at h _⟩

theorem storeIssue_sto {s : State} {u : UnitSt} (h : CtlAt s u) {f : CX} (ho : f.ord = 0) :
    StoreIssue s u (.sto f) (cxAddr u f) (2 ^ (f.sub.toNat % 4)) (u.c f.rb) 2 none := by
  refine ⟨(onCtl_at h _).trans ?_⟩
  simp [ho]

theorem storeIssue_release {s : State} {u : UnitSt} (h : CtlAt s u) {f : CX} (ho : f.ord = 2) (hp : u.ctx.ctl.posted = none) :
    StoreIssue s u (.sto f) (cxAddr u f) (2 ^ (f.sub.toNat % 4)) (u.c f.rb) 2 (some f.scope.toNat) := by
  refine ⟨(onCtl_at h _).trans ?_⟩
  simp [ho, postedTrap, hp]

/-- The store has entered the buffer as a step from s0 to the next state. -/
def Buffered (s0 s : State) (u : UnitSt) (i : Instr) (va size : Nat) (x : Word) (n : Nat) (rel : Option Nat) (pa : Nat) : Prop :=
  ∃ e t, exec i s = .next t ∧ e.acc.va = va ∧ e.acc.pa = pa ∧ e.acc.size = size ∧ e.acc.pair = u.pair ∧ e.rel = rel ∧
    e.acc.use.storeData = leBytes size x.toNat ∧ SameMemory s0 t ∧
    Retired s0 t u (u.modCtl (fun c => ({ c with sb := c.sb ++ [e] }).forget pa size)) n

theorem buffered_of_enters {s0 s : State} {u : UnitSt} {i : Instr} {va size n pa cm lvl : Nat} {x : Word} {rel : Option Nat} {sub : Bool}
    (hu : s0.findUnit u.key = some u) (hroom : u.ctx.ctl.sb.length < 32) (hi : StoreIssue s u i va size x n rel)
    (hent : storeC s u va size (leBytes size x.toNat) n rel = enterBuffer s0.bump u (storeEntryOf s u va size (leBytes size x.toNat) n rel pa cm lvl sub)) :
    Buffered s0 s u i va size x n rel pa := by
  rw [enterBuffer_room _ hroom] at hent
  exact ⟨storeEntryOf s u va size (leBytes size x.toNat) n rel pa cm lvl sub, _, hi.exec_eq.trans (congrArg _ hent), rfl, rfl, rfl, rfl, rfl, rfl,
    ⟨fun _ => rfl, rfl⟩, State.retireC_retired s0.bump u _ u n rfl hu⟩

theorem store_enters {s : State} {u : UnitSt} {i : Instr} {va size n : Nat} {x : Word} {rel : Option Nat} (h : CtlAt s u)
    (hroom : u.ctx.ctl.sb.length < 32) (hi : StoreIssue s u i va size x n rel) (hal : va % size = 0) (hhi : va < 2 ^ 57) :
    (localWindow ≤ va → va - localWindow + size ≤ u.regionBytes → mirrorAt s u.key (va - localWindow) size = none →
      Buffered s s u i va size x n rel (u.pantryPa (va - localWindow))) ∧
    (va < localWindow → regionOk u va size false true = true → ∀ (t : State) (pa : Nat) (e : Pte) (lvl : Nat),
      xlate s u false { kind := .store, size := size } va = .ok t pa e lvl → Buffered t s u i va size x n rel pa) := by
  refine ⟨fun hlo hin hm => buffered_of_enters h.find hroom hi (storeC_window hal hlo hhi hin hm), fun hlo hok t pa e lvl hx => ?_⟩
  have hfind : t.findUnit u.key = some u := by rw [(xlate_ok_onlyTlb hx).1]; exact h.find
  exact buffered_of_enters hfind hroom hi (storeC_translated hal hlo hok hx)

/-! ### Room and acknowledgements (R146, R147, R408) -/

theorem exec_storeBufferSpace {s : State} {u : UnitSt} {p k : Nat} {e : StoreEntry} (hres : s.resident p k = some u) (hw : u.ctx.ctl.wait = .storeBuf e)
    (hroom : u.ctx.ctl.sb.length < 32) : exec (.storeBufferSpace p k) s =
      .next (s.retireC (u.modCtl (fun c => ({ c with sb := c.sb ++ [e] }).forget e.acc.pa e.acc.size)) e.acc.len) := by
  show execStoreBufferSpace p k s = _
  simp only [execStoreBufferSpace, hres, hw, if_pos hroom, enterBuffer_room e hroom]

/-- The slice after an acknowledgement of its group. -/
def Ctl.acked (c : Ctl) (a : Ack) : Ctl :=
  match a.err with
  | some e => (c.addUnacked a.group false).postError e
  | none => c.addUnacked a.group false

theorem Ctl.postError_keeps (c : Ctl) (e : Nat × Nat × Nat) :
    (c.postError e).c = c.c ∧ (c.postError e).pc = c.pc ∧ (c.postError e).unacked = c.unacked := by
  unfold Ctl.postError
  split <;> exact ⟨rfl, rfl, rfl⟩

theorem Ctl.acked_keeps (c : Ctl) (a : Ack) :
    (c.acked a).c = c.c ∧ (c.acked a).pc = c.pc ∧ (c.acked a).unacked = (c.addUnacked a.group false).unacked := by
  unfold Ctl.acked
  split
  · exact Ctl.postError_keeps _ _
  · exact ⟨rfl, rfl, rfl⟩

theorem Ctl.addUnacked_down (c : Ctl) {g : Nat} (hg : g < 4) : (c.addUnacked g false).unacked.toArray.getD g 0 = c.unacked.toArray.getD g 0 - 1 := by
  simp [Ctl.addUnacked, Array.getD, hg]

theorem storeAck_counts {s : State} {u : UnitSt} {k : Nat} {a : Ack} (ha : s.acks[k]? = some a) (hu : s.findUnit a.unit = some u) (hg : a.group < 4) :
    ∃ t v, exec (.storeAck k) s = .next t ∧ t.findUnit a.unit = some v ∧ t.acks = dropIdx s.acks k ∧
      v.ctx.ctl.unacked.toArray.getD a.group 0 = u.ctx.ctl.unacked.toArray.getD a.group 0 - 1 ∧
      (a.err = none → v.ctx.ctl.posted = u.ctx.ctl.posted) ∧
      (∀ e, a.err = some e → u.ctx.ctl.posted = none → v.ctx.ctl.posted = some e) ∧
      v.ctx.ctl.c = u.ctx.ctl.c ∧ v.ctx.ctl.pc = u.ctx.ctl.pc ∧ SameMemory s t := by
  have hkey := State.findUnit_key _ _ _ hu
  have hexec : exec (.storeAck k) s = .next (({ s with acks := dropIdx s.acks k }).modUnit a.unit (fun u => u.modCtl (fun c => c.acked a))) := by
    show execStoreAck k s = _
    simp only [execStoreAck, ha]
    rfl
  have hfind : (({ s with acks := dropIdx s.acks k }).modUnit a.unit (fun u => u.modCtl (fun c => c.acked a))).findUnit a.unit =
      some (u.modCtl (fun c => c.acked a)) := by
    rw [State.findUnit_modUnit _ _ _ (fun _ => by rfl)]
    exact (congrArg (Option.map _) hu).trans (by simp [hkey])
  obtain ⟨hc, hpc, hun⟩ := Ctl.acked_keeps u.ctx.ctl a
  refine ⟨_, _, hexec, hfind, rfl, ?_, fun herr => ?_, fun e herr hp => ?_, hc, hpc, fun _ => rfl, rfl⟩
  · show (u.ctx.ctl.acked a).unacked.toArray.getD a.group 0 = _
    rw [hun, Ctl.addUnacked_down _ hg]
  · show (u.ctx.ctl.acked a).posted = _
    simp only [Ctl.acked, herr]
    rfl
  · show (u.ctx.ctl.acked a).posted = _
    have hp' : (u.ctx.ctl.addUnacked a.group false).posted = none := hp
    simp [Ctl.acked, herr, Ctl.postError, hp']

end Sys2Proof.Machine
end

section
/-!
O8, second half: the oldest store of the buffer performs in a pantry or in a line of the pair's L1 (R93, R94, R110, R117, R146 to R148, R289).
-/

namespace Sys2Proof.Machine

/-! ### The oldest store leaves the buffer (R146 to R148) -/

/-- The store as it leaves the buffer at s: of the unit's pair, in the group of its location. -/
def StoreEntry.leaving (e : StoreEntry) (s : State) (u : UnitSt) : StoreEntry :=
  { e with acc := { e.acc with pair := u.pair, group := storeGroup s u.pair e.acc.pa e.acc.cm (subscribed s e.acc.pa e.acc.size) } }

/-- The unit whose oldest store leaves the buffer. -/
def UnitSt.draining (u : UnitSt) (e : StoreEntry) (rest : List StoreEntry) : UnitSt :=
  u.modCtl (fun c => ({ c with sb := rest, flight := c.flight ++ [e] }).addUnacked e.acc.group true)

/-- The state in which a store performs: after its release effects, where it is a release store. -/
def drainIssue (s : State) (u : UnitSt) (rel : Option Nat) : State :=
  match rel with | some sc => releaseFx s u.key u.pair sc | none => s

theorem next_of_some {o : Option State} {s t : State} :
    o = some t → (match o with | some t => Host.Outcome.next t | none => Host.Outcome.next s : Out3) = .next t := by
  rintro rfl
  rfl

section Drain

variable {s : State} {u : UnitSt} {p k : Nat} {e : StoreEntry} {rest : List StoreEntry} (hres : s.resident p k = some u) (hsb : u.ctx.ctl.sb = e :: rest)
  (hflight : u.ctx.ctl.flight = [])
include hres hsb hflight

theorem exec_drain_waits {sc : Nat} (hrel : e.rel = some sc) (hw : ∃ g ≤ scopeGroup sc, u.ctx.ctl.unacked.toArray.getD g 0 ≠ 0) :
    exec (.storeBufferDrain p k) s = .next s := by
  obtain ⟨g, hg, hne⟩ := hw
  have hready : (range 0 (scopeGroup sc + 1)).all (fun g => u.ctx.ctl.unacked.toArray.getD g 0 == 0) = false := by
    rw [List.all_eq_false]
    exact ⟨g, (mem_range _ _ _).2 (by omega), by simpa using hne⟩
  show execStoreBufferDrain p k s = _
  simp only [execStoreBufferDrain, hres, hsb, hflight, hrel, hready]
  rfl

theorem exec_drain_leaves {t : State} (hrel : ∀ sc, e.rel = some sc → ¬ ∃ g ≤ scopeGroup sc, u.ctx.ctl.unacked.toArray.getD g 0 ≠ 0)
    (hperf : performStore ((drainIssue s u e.rel).putUnit
        ((reread (drainIssue s u e.rel) u).draining (e.leaving (drainIssue s u e.rel) u) rest))
      ((reread (drainIssue s u e.rel) u).draining (e.leaving (drainIssue s u e.rel) u) rest) (e.leaving (drainIssue s u e.rel) u) = some t) :
    exec (.storeBufferDrain p k) s = .next t := by
  have hready (sc : Nat) (hsc : e.rel = some sc) : (range 0 (scopeGroup sc + 1)).all (fun g => u.ctx.ctl.unacked.toArray.getD g 0 == 0) = true := by
    rw [List.all_eq_true]
    intro g hg
    by_contra hne
    exact hrel sc hsc ⟨g, by have := (mem_range _ _ _).1 hg; omega, by simpa using hne⟩
  show execStoreBufferDrain p k s = _
  simp only [execStoreBufferDrain, hres, hsb]
  refine (if_neg ?_).trans (next_of_some hperf)
  rw [hflight]
  cases hr : e.rel with
  | none => simp
  | some sc => simpa using hready sc hr

end Drain

theorem UnitSt.draining_settled {u w : UnitSt} (h : w.settled = u.settled) (e : StoreEntry) (rest : List StoreEntry) :
    (w.draining e rest).settled = (u.draining e rest).settled :=
  (congrArg (fun x : UnitSt => (x.draining e rest).settled) h :)

/-- A store that has performed, at y: it leaves the flight, and its acknowledgement sets out. -/
theorem store_completes {y : State} {u w : UnitSt} {e : StoreEntry} {rest : List StoreEntry} {data : List Byte} {sid : Nat} (bs : List Byte)
    (huse : e.acc.use = .store data sid) (haid : e.acc.aid = sid) (hunit : e.acc.unit = u.key) (hflight : u.ctx.ctl.flight = [])
    (hw : y.findUnit u.key = some w) (hset : w.settled = (u.draining e rest).settled) :
    ∃ v, (completeAccess y e.acc (.ok bs)).findUnit u.key = some v ∧ v.ctx.ctl.sb = rest ∧ v.ctx.ctl.flight = [] ∧ v.ctx.ctl.c = u.ctx.ctl.c ∧
      v.ctx.ctl.pc = u.ctx.ctl.pc ∧ (completeAccess y e.acc (.ok bs)).acks = y.acks ++ [⟨u.key, e.acc.group, none⟩] ∧
      SameStore y (completeAccess y e.acc (.ok bs)) ∧ (completeAccess y e.acc (.ok bs)).pairs = y.pairs := by
  have hkey := State.findUnit_key _ _ _ hw
  have hdone : completeAccess y e.acc (.ok bs) = { (y.modUnit u.key (fun u => u.modCtl (fun c =>
      { c with flight := c.flight.filter (fun x => x.acc.aid != sid) }))) with acks := y.acks ++ [⟨u.key, e.acc.group, none⟩] } := by
    simp only [completeAccess, huse, hunit]
    rfl
  rw [hdone]
  refine ⟨w.modCtl (fun c => { c with flight := c.flight.filter (fun x => x.acc.aid != sid) }), ?_, ?_, ?_, ?_, ?_, rfl, ⟨rfl, rfl, rfl⟩, rfl⟩
  · have h := State.findUnit_modUnit y u.key u.key (f := fun u => u.modCtl (fun c => { c with flight := c.flight.filter (fun x => x.acc.aid != sid) }))
      (fun _ => by rfl)
    rw [hw] at h
    exact h.trans (by simp [hkey])
  · exact UnitSt.settled_sb hset
  · show w.ctx.ctl.flight.filter _ = _
    rw [UnitSt.settled_flight hset]
    simp [UnitSt.draining, Ctl.addUnacked, hflight, haid]
  · exact (UnitSt.settled_c hset :)
  · exact (UnitSt.settled_pc hset :)

/-! ### In a pantry (R289) -/

theorem performStore_pantry {x y : State} {v : UnitSt} {e : StoreEntry} {data : List Byte} {sid q o : Nat} (huse : e.acc.use = .store data sid)
    (hplace : place52 e.acc.pa = .pantry q o) (hy : x.writeRaw e.acc.pa (sealList 0 e.acc.pa data) = some y) :
    performStore x v e = some (completeAccess (noteWrite y e.acc.pa e.acc.size) e.acc (.ok [])) := by
  simp only [performStore, huse, hplace, hy]

theorem drain_pantry {s : State} {u : UnitSt} {p k q o sid : Nat} {e : StoreEntry} {rest : List StoreEntry} {data : List Byte}
    (hwf : s.memWf = true) (hres : s.resident p k = some u) (hu : s.findUnit u.key = some u) (hsb : u.ctx.ctl.sb = e :: rest)
    (hflight : u.ctx.ctl.flight = []) (huse : e.acc.use = .store data sid) (haid : e.acc.aid = sid) (hunit : e.acc.unit = u.key)
    (hlen : data.length = e.acc.size) (hplace : place52 e.acc.pa = .pantry q o) (hpart : s.partPoison e.acc.pa e.acc.size = false)
    (hrel : ∀ sc, e.rel = some sc → ¬ (∃ g ≤ scopeGroup sc, u.ctx.ctl.unacked.toArray.getD g 0 ≠ 0) ∧ CleanMerge s u sc) :
    ∃ t v, exec (.storeBufferDrain p k) s = .next t ∧ t.memWf = true ∧
      (∀ i, i < data.length → (t.byteAt (e.acc.pa + i)).v = data.getD i 0) ∧
      (∀ a, ¬ (e.acc.pa ≤ a ∧ a < e.acc.pa + data.length) → t.byteAt a = s.byteAt a) ∧
      t.acks = s.acks ++ [⟨u.key, if q = u.pair then 0 else if dieOf q = dieOf u.pair then 1 else 2, none⟩] ∧ t.findUnit u.key = some v ∧
      v.ctx.ctl.sb = rest ∧ v.ctx.ctl.flight = [] ∧ v.ctx.ctl.c = u.ctx.ctl.c ∧ v.ctx.ctl.pc = u.ctx.ctl.pc := by
  have hissue : SameStore s (drainIssue s u e.rel) ∧ CacheEffect s (drainIssue s u e.rel) := by
    unfold drainIssue
    split
    · next sc hsc => exact ⟨releaseFx_store (hrel sc hsc).2, releaseFx_effect _ _ _ _⟩
    · exact ⟨.refl s, .refl s⟩
  have hexec := fun t => exec_drain_leaves (t := t) hres hsb hflight fun sc hsc => (hrel sc hsc).1
  generalize drainIssue s u e.rel = s1 at *
  obtain ⟨hstore, heff⟩ := hissue
  obtain ⟨hfind, hset⟩ := heff.reread hu
  generalize reread s1 u = w at *
  have hkey : w.key = u.key := UnitSt.key_of_settled hset
  have hgroup : (e.leaving s1 u).acc.group = if q = u.pair then 0 else if dieOf q = dieOf u.pair then 1 else 2 := by
    simp [StoreEntry.leaving, storeGroup, hplace]
  have hhbm : isHbm e.acc.pa = false := by
    by_contra h
    rw [Bool.not_eq_false, ← place52_hbm_iff, hplace] at h
    cases h
  obtain ⟨y, hy, hbytes, heq⟩ := writeRaw_plain (s := s1.putUnit (w.draining (e.leaving s1 u) rest)) (k := 0) (pa := e.acc.pa) (bs := data)
    (hstore.memWf.trans hwf) hhbm (by rw [hlen]; exact (hstore.partPoison _ _).trans hpart)
  have hperf : performStore (s1.putUnit (w.draining (e.leaving s1 u) rest)) (w.draining (e.leaving s1 u) rest) (e.leaving s1 u) =
      some (completeAccess (noteWrite y e.acc.pa e.acc.size) (e.leaving s1 u).acc (.ok [])) := performStore_pantry (e := e.leaving s1 u) huse hplace hy
  have hyfind : y.findUnit u.key = some (w.draining (e.leaving s1 u) rest) := by
    rw [heq, ← hkey]
    exact State.putUnit_findUnit_same s1 (w.draining (e.leaving s1 u) rest) w (hkey ▸ hfind)
  obtain ⟨x, hx, hxset⟩ := (noteWrite_effect y e.acc.pa e.acc.size).cache.findUnit hyfind
  obtain ⟨v, hv, hvsb, hvfl, hvc, hvpc, hacks, hmem, -⟩ := store_completes (e := e.leaving s1 u) (rest := rest) [] huse haid hunit hflight hx
    (hxset.trans (UnitSt.draining_settled hset _ _))
  obtain ⟨hwf', hin, hout⟩ := WritesBytes.of_sameStore (s := s) (s' := s1.putUnit (w.draining (e.leaving s1 u) rest)) hstore hbytes hmem
  refine ⟨_, v, hexec _ hperf, hwf', hin, hout, ?_, hv, hvsb, hvfl, hvc, hvpc⟩
  rw [hacks, hgroup, show (noteWrite y e.acc.pa e.acc.size).acks = s.acks by rw [heq]; exact (by rw [heff.2] : s1.acks = s.acks)]

end Sys2Proof.Machine
end

section
/-!
O8, last part: the oldest store of the buffer performs in a line that the pair's L1 holds (R93, R94, R110, R117).
-/

namespace Sys2Proof.Machine

/-! ### What a change of one die or of one line leaves alone -/

/-- A part of the dies that a change of one die keeps is as before at every die. -/
theorem State.die_modDie_keeps {β : Type} (g : Die → β) {f : Die → Die} (hg : ∀ x, g (f x) = g x) (s : State) (d e : Nat) :
    g ((s.modDie d f).die e) = g (s.die e) := by
  by_cases he : e = d
  · subst he
    by_cases h4 : e < 4
    · rw [State.die_modDie s f h4, hg]
    · simp [State.modDie, State.setDie, State.die, Array.getD, h4]
  · rw [State.die_modDie_other s f he]

theorem vlines_sfMod (s : State) (d line : Nat) (f : SfEntry → SfEntry) (e : Nat) : ((s.sfMod d line f).die e).vlines = (s.die e).vlines :=
  State.die_modDie_keeps Die.vlines (fun _ => by rfl) s d e

theorem homePoisoned_congr {s t : State} (hfw : t.fw = s.fw) (hp : t.poison = s.poison) (hv : ∀ d, (t.die d).vlines = (s.die d).vlines) (pa n : Nat) :
    homePoisoned t pa n = homePoisoned s pa n := by
  have hhome : homeDie t pa = homeDie s pa := by simp only [homeDie, hfw]
  simp only [homePoisoned, hhome, Die.vline, hv, State.poisoned, hp]

/-- The line that is changed is found in its new state, where that is one of the states looked for. -/
theorem l1Find_l1Mod {s : State} {pair line : Nat} {sts : List L1St} {l : L1Line} {st : L1St} {g : L1Line → L1Line}
    (hl : s.l1Find pair line sts = some l) (hst : st ∈ sts) (hline : ∀ x, (g x).line = x.line) (hgst : ∀ x, (g x).st = st) :
    (s.l1Mod pair line sts g).l1Find pair line [st] = some (g l) := by
  unfold State.l1Find PairSt.l1Find at hl ⊢
  rw [State.l1Mod, State.pairOf_modPair_same _ _ _ (fun _ => by rfl)]
  show (mapIf _ g (s.pairOf pair).l1).find? _ = _
  unfold mapIf
  have hsame : ((fun x : L1Line => x.line == line && [st].contains x.st) ∘ fun x => if (x.line == line && sts.contains x.st) = true then g x else x) =
      fun x => x.line == line && sts.contains x.st := by
    funext x
    simp only [Function.comp]
    split
    · next h =>
      rw [h]
      simp [hline, hgst, (Bool.and_eq_true_iff.1 h).1]
    · next h =>
      rw [Bool.not_eq_true] at h
      rw [h, Bool.and_eq_false_iff]
      rcases Bool.and_eq_false_iff.1 h with h | h
      · exact .inl h
      · refine .inr ?_
        simp only [List.contains_eq_mem, decide_eq_false_iff_not, List.mem_singleton] at h ⊢
        rintro rfl
        exact h hst
  rw [List.find?_map, hsame, hl, Option.map_some, if_pos (List.find?_some hl)]

/-! ### A store's bytes in a line (R94, R436) -/

/-- The words that n bytes at an offset touch. -/
theorem wordMask_getLsbD {off n w : Nat} (hn : 0 < n) (hw : w < 32) : (wordMask off n).getLsbD w = decide (off / 4 ≤ w ∧ 4 * w < off + n) := by
  have h0 : (n == 0) = false := by simp; omega
  simp only [wordMask, h0, Bool.false_eq_true, if_false, BitVec.getLsbD_ofNat, hw, decide_true, Bool.true_and, Nat.testBit_mul_two_pow,
    Nat.testBit_two_pow_sub_one]
  rw [Bool.eq_iff_iff]
  simp only [Bool.and_eq_true, decide_eq_true_eq]
  omega

theorem sealList_getD (k : Nat) (bs : List Byte) : ∀ pa i, i < bs.length → (sealList k pa bs).getD i {} = sealed k (pa + i) (bs.getD i 0) := by
  induction bs with
  | nil => intro pa i hi; simp at hi
  | cons b bs ih =>
    intro pa i hi
    cases i with
    | zero => rfl
    | succ i =>
      have h := ih (pa + 1) i (by simpa using hi)
      rw [show pa + 1 + i = pa + (i + 1) by omega] at h
      exact h

/-- Within one line the bytes of a write lie under one key: in HBM under that of the write. -/
theorem sealList_key {k pa : Nat} {bs : List Byte} (hline : pa % 128 + bs.length ≤ 128) :
    ∀ b ∈ sealList k pa bs, b.key = if isHbm pa then k else 0 := by
  intro b hb
  obtain ⟨i, hi, rfl⟩ := List.mem_iff_getElem.1 hb
  have hi' : i < bs.length := by rwa [sealList_length] at hi
  have hget := sealList_getD k bs pa i hi'
  rw [List.getD, List.getElem?_eq_getElem hi, Option.getD_some] at hget
  rw [hget]
  have : isHbm (pa + i) = isHbm pa := by
    rw [← isHbm_line, ← isHbm_line pa]
    unfold lineOf
    congr 2
    omega
  simp only [sealed, this]

/-- A line after a store or an atomic has written data into it. -/
def L1Line.written (x : L1Line) (a : Access) (st : L1St) (used : Nat) (data : List Byte) : L1Line :=
  { x with st := st, used := used, data := blockPut (a.line * 128) x.data (a.pa % 128) (sealList a.key a.pa data)
           dirty := x.dirty ||| wordMask (a.pa % 128) a.size }

section Written

variable {x : L1Line} {a : Access} {st : L1St} {used : Nat} {data : List Byte} (hx : x.data.length = 128) (hlen : data.length = a.size)
  (hline : a.pa % 128 + a.size ≤ 128)
include hx hlen hline

theorem written_bytes {i : Nat} (hi : i < a.size) :
    (x.written a st used data).data.getD (a.pa % 128 + i) {} = sealed a.key (a.pa + i) (data.getD i 0) := by
  have hs := sealList_length a.key data a.pa
  rw [← sealList_getD a.key data a.pa i (by omega)]
  exact blockPut_written (base := a.line * 128) _ (by omega) (by omega) (sealList_key (by omega)) i (by omega)

/-- Outside the bytes written a byte stays, but where its cipher block goes over to another key. -/
theorem written_keeps {j : Nat} (hj : j < a.pa % 128 ∨ a.pa % 128 + a.size ≤ j)
    (hblk : isHbm a.pa = true → j / 16 * 16 < a.pa % 128 + a.size → a.pa % 128 < j / 16 * 16 + 16 →
      ∀ i < 16, (x.data.getD (j / 16 * 16 + i) {}).key = a.key) :
    (x.written a st used data).data.getD j {} = x.data.getD j {} := by
  have hs := sealList_length a.key data a.pa
  refine blockPut_keeps (base := a.line * 128) (k := a.key) _ (by omega) (by omega) (by omega) fun hb h1 h2 => ?_
  have hb' : isHbm a.pa = true := (isHbm_line a.pa).symm.trans hb
  have hkeys := sealList_key (k := a.key) (pa := a.pa) (bs := data) (by omega)
  rw [hb', if_pos rfl] at hkeys
  exact ⟨hkeys, hblk hb' (by omega) (by omega)⟩

end Written

/-! ### The store performs (R93, R94, R110, R117) -/

theorem performL1_store {s : State} {a : Access} {sts : List L1St} {l : L1Line} {data : List Byte} {sid : Nat} (huse : a.use = .store data sid)
    (hl : s.l1Find a.pair a.line sts = some l) (hpart : badPart l.data (a.pa % 128) a.size = false) (hpoison : homePoisoned s a.pa a.size = false) :
    performL1 s a sts = completeAccess (noteWrite (s.bump.l1Mod a.pair a.line sts
      (fun x => x.written a (if l.st == .mg then .mg else .m) s.fresh data)) a.pa a.size) a (.ok []) := by
  simp only [performL1, hl, huse, hpart, hpoison, Bool.and_false, Bool.false_and, Bool.or_false, Bool.false_eq_true, if_false]
  rfl

/-- The pair's L1 holds the line l in a state in which a store of u may perform in it, a page's mode given (R93, R110). -/
def HeldForStore (s : State) (u : UnitSt) (pa cm : Nat) (l : L1Line) : Prop :=
  (cm = 0 ∧ s.l1Find u.pair (lineOf pa) [.e, .m] = some l) ∨
    (cm = 1 ∧ s.l1Find u.pair (lineOf pa) [.mg] = some l ∧ l.jobs.contains u.key.job = true)

/-- A store whose line the L1 holds performs there, after at most its die has noted that its grant is one of M. -/
theorem performStore_held {x : State} {u v : UnitSt} {e : StoreEntry} {l : L1Line} {data : List Byte} {sid : Nat} (huse : e.acc.use = .store data sid)
    (hunit : e.acc.unit = u.key) (hpair : e.acc.pair = u.pair) (hheld : HeldForStore x u e.acc.pa e.acc.cm l) (hc : cachedHere u.pair e.acc.pa = true)
    (hbacked : backed x e.acc.pa = true) (hsub : subscribed x e.acc.pa e.acc.size = false) :
    ∃ x' sts, performStore x v e = some (performL1 x' e.acc sts) ∧ x' = { x with dies := x'.dies } ∧ (∀ d, (x'.die d).vlines = (x.die d).vlines) ∧
      x.l1Find e.acc.pair e.acc.line sts = some l ∧ (if l.st == .mg then L1St.mg else .m) = (if e.acc.cm = 0 then .m else .mg) ∧
      (if e.acc.cm = 0 then L1St.m else .mg) ∈ sts := by
  unfold HeldForStore at hheld
  rw [← hpair, ← hunit] at hheld
  rw [← hpair] at hc
  rcases hheld with ⟨hcm, hl⟩ | ⟨hcm, hl, hj⟩
  · have hl' : x.l1Find e.acc.pair e.acc.line [.e, .m] = some l := hl
    have hst : (l.st == .mg) = false := by
      have := List.find?_some hl
      simp only [List.contains_eq_mem, List.mem_cons, List.not_mem_nil, or_false, Bool.and_eq_true, decide_eq_true_eq] at this
      rcases this.2 with h | h <;> rw [h] <;> rfl
    refine ⟨x.sfMod (dieOf e.acc.pair) e.acc.line (fun e => { e with grant := e.grant.map (fun _ => L1St.m) }), [.e, .m], ?_, rfl,
      vlines_sfMod x _ _ _, hl', by simp [hst, hcm], by simp [hcm]⟩
    rcases place52_of_cachedHere hc with hp | ⟨_, _, _, hp⟩ <;> simp [performStore, huse, hp, hbacked, hcm, hc, hsub, hl']
  · have hl' : x.l1Find e.acc.pair e.acc.line [.mg] = some l := hl
    have hst : l.st = .mg := by
      have := List.find?_some hl
      simp only [List.contains_eq_mem, List.mem_singleton, Bool.and_eq_true, decide_eq_true_eq] at this
      exact this.2
    have hfill : fillMerge x e.acc = some x := by simp only [fillMerge, hl', hj, if_true]
    refine ⟨x, [.mg], ?_, rfl, fun _ => rfl, hl', by simp [hst, hcm], by simp [hcm]⟩
    rcases place52_of_cachedHere hc with hp | ⟨_, _, _, hp⟩ <;> simp [performStore, huse, hp, hbacked, hcm, hc, hsub, hfill]

/-- A store to a line that is cached coherently in its pair's L1, on no subscribed store, is in the group of the pair (R147). -/
theorem storeGroup_cached {s : State} {pair pa cm : Nat} (hc : cachedHere pair pa = true) (hcm : cm ≠ 2) : storeGroup s pair pa cm false = 0 := by
  have hcm' : (cm == 2) = false := by simpa using hcm
  rcases place52_of_cachedHere hc with hp | ⟨d, v, o, hp⟩
  · simp [storeGroup, hp, hcm']
  · have hd : d = dieOf pair := by simpa [cachedHere, hp] using hc
    simp [storeGroup, hp, hcm', hd]

theorem drain_l1 {s : State} {u : UnitSt} {p k sid : Nat} {e : StoreEntry} {rest : List StoreEntry} {data : List Byte} {l : L1Line}
    (hres : s.resident p k = some u) (hu : s.findUnit u.key = some u) (hsb : u.ctx.ctl.sb = e :: rest) (hflight : u.ctx.ctl.flight = [])
    (hrel : e.rel = none) (huse : e.acc.use = .store data sid) (haid : e.acc.aid = sid) (hunit : e.acc.unit = u.key)
    (hc : cachedHere u.pair e.acc.pa = true) (hbacked : backed s e.acc.pa = true)
    (hsub : subscribed s e.acc.pa e.acc.size = false) (hpoison : homePoisoned s e.acc.pa e.acc.size = false)
    (hpart : badPart l.data (e.acc.pa % 128) e.acc.size = false) (hheld : HeldForStore s u e.acc.pa e.acc.cm l) :
    ∃ t v used, exec (.storeBufferDrain p k) s = .next t ∧ SameMemory s t ∧
      t.l1Find u.pair (lineOf e.acc.pa) [if e.acc.cm = 0 then .m else .mg] = some (l.written e.acc (if e.acc.cm = 0 then .m else .mg) used data) ∧
      t.acks = s.acks ++ [⟨u.key, 0, none⟩] ∧ t.findUnit u.key = some v ∧ v.ctx.ctl.sb = rest ∧ v.ctx.ctl.flight = [] ∧
      v.ctx.ctl.c = u.ctx.ctl.c ∧ v.ctx.ctl.pc = u.ctx.ctl.pc := by
  have hexec := fun t => exec_drain_leaves (t := t) hres hsb hflight fun sc hsc => by rw [hrel] at hsc; cases hsc
  rw [hrel, show drainIssue s u none = s from rfl, reread_self hu] at hexec
  have hcm2 : e.acc.cm ≠ 2 := by rcases hheld with ⟨h, -⟩ | ⟨h, -⟩ <;> omega
  have hgroup : (e.leaving s u).acc.group = 0 := by
    show storeGroup s u.pair e.acc.pa e.acc.cm (subscribed s e.acc.pa e.acc.size) = 0
    rw [hsub]
    exact storeGroup_cached hc hcm2
  obtain ⟨x', sts, hperf, hx', hvl, hl, hst, hmem⟩ := performStore_held (x := s.putUnit (u.draining (e.leaving s u) rest)) (v := u.draining (e.leaving s u) rest)
    (e := e.leaving s u) huse hunit rfl hheld hc hbacked hsub
  have hl' : x'.l1Find u.pair (lineOf e.acc.pa) sts = some l := by rw [hx']; exact hl
  have hperf1 := performL1_store (s := x') (a := (e.leaving s u).acc) huse hl' hpart
    ((homePoisoned_congr (s := s.putUnit (u.draining (e.leaving s u) rest)) (by rw [hx']) (by rw [hx']) hvl e.acc.pa e.acc.size).trans hpoison)
  rw [hst] at hperf1
  generalize hy : noteWrite (x'.bump.l1Mod (e.leaving s u).acc.pair (e.leaving s u).acc.line sts (fun x => x.written (e.leaving s u).acc
    (if (e.leaving s u).acc.cm = 0 then .m else .mg) x'.fresh data)) (e.leaving s u).acc.pa (e.leaving s u).acc.size = y at hperf1
  have hfound : x'.findUnit u.key = some (u.draining (e.leaving s u) rest) := by
    rw [hx']
    exact State.putUnit_findUnit_same s (u.draining (e.leaving s u) rest) u hu
  obtain ⟨w, hw, hwset⟩ := (noteWrite_effect (x'.bump.l1Mod (e.leaving s u).acc.pair (e.leaving s u).acc.line sts (fun x => x.written (e.leaving s u).acc
    (if (e.leaving s u).acc.cm = 0 then .m else .mg) x'.fresh data)) (e.leaving s u).acc.pa (e.leaving s u).acc.size).cache.findUnit hfound
  rw [hy] at hw
  obtain ⟨v, hv, hvsb, hvfl, hvc, hvpc, hacks, hstore, hpairs⟩ := store_completes (e := e.leaving s u) (rest := rest) [] huse haid hunit hflight hw hwset
  refine ⟨_, v, x'.fresh, hexec _ (hperf.trans (congrArg some hperf1)), ?_, ?_, ?_, hv, hvsb, hvfl, hvc, hvpc⟩
  · exact SameStore.sameMemory (s := s) (SameStore.trans (t := y) (by rw [← hy, hx']; exact ⟨rfl, rfl, rfl⟩) hstore)
  · have hmod := l1Find_l1Mod (s := x'.bump) (g := fun x => x.written (e.leaving s u).acc (if e.acc.cm = 0 then .m else .mg) x'.fresh data)
      (st := if e.acc.cm = 0 then .m else .mg) hl' hmem (fun _ => rfl) (fun _ => rfl)
    rw [State.l1Find, State.pairOf, hpairs, ← hy]
    exact hmod
  · rw [hacks, hgroup, ← hy, hx']
    rfl

/-- Settles O8: the store is in the buffer at once; the oldest one performs at its location, of whose line or bytes nothing else changes. -/
theorem storesPerform : Obligations.StoresPerform := by
  refine ⟨fun s u h hroom => ⟨fun f hal hhi => store_enters h hroom (storeIssue_st h f) hal hhi, fun f => ⟨fun ho hal hhi => store_enters h hroom (storeIssue_sto h ho) hal hhi,
      fun ho hp hal hhi => store_enters h hroom (storeIssue_release h ho hp) hal hhi⟩⟩,
    ⟨fun s u p k e hres hw hroom => exec_storeBufferSpace hres hw hroom, fun s u k a ha hu hg => storeAck_counts ha hu hg⟩,
    fun s u p k q o sid e rest data hwf hres hu hsb hflight huse haid hunit hlen hplace hpart => ⟨fun sc hrel hw => exec_drain_waits hres hsb hflight hrel hw,
      fun hrel => drain_pantry hwf hres hu hsb hflight huse haid hunit hlen hplace hpart hrel⟩,
    ?_⟩
  intro s u p k sid e rest data l hres hu hsb hflight hrel huse haid hunit hlen hpos pa off n st hline hl hc hbacked hsub hpoison hpart hheld
  obtain ⟨t, v, used, hnext, hmem, hfind, hacks, hv, hvsb, hvfl, hvc, hvpc⟩ := drain_l1 hres hu hsb hflight hrel huse haid hunit hc hbacked hsub hpoison hpart hheld
  refine ⟨t, v, _, hnext, hmem, hfind, fun i hi => written_bytes hl hlen hline hi, fun j _ hj hblk => written_keeps hl hlen hline hj hblk, fun w hw => ?_,
    hacks, hv, hvsb, hvfl, hvc, hvpc⟩
  show (l.dirty ||| wordMask off n).getLsbD w = _
  rw [BitVec.getLsbD_or, wordMask_getLsbD hpos hw]

end Sys2Proof.Machine
end

section
/-!
O29, first part: the transactions of a home, from the request to the reply, at a line whose home has nothing else to do (R102 to R104, R107).
-/

namespace Sys2Proof.Machine

/-! ### States with the same home memory (R80, R93) -/

/-- The home memory is as before: memory with its keys, what maps lines to their homes, and the vault lines. -/
def SameHome (s t : State) : Prop := t.mem = s.mem ∧ t.keys = s.keys ∧ t.fw = s.fw ∧ ∀ d, (t.die d).vlines = (s.die d).vlines

theorem SameHome.refl (s : State) : SameHome s s := ⟨rfl, rfl, rfl, fun _ => rfl⟩

theorem SameHome.trans {s t x : State} (h1 : SameHome s t) (h2 : SameHome t x) : SameHome s x :=
  ⟨h2.1.trans h1.1, h2.2.1.trans h1.2.1, h2.2.2.1.trans h1.2.2.1, fun d => (h2.2.2.2 d).trans (h1.2.2.2 d)⟩

theorem SameHome.foldl {α : Type} {f : State → α → State} (h : ∀ s a, SameHome s (f s a)) (l : List α) (s : State) : SameHome s (l.foldl f s) :=
  foldl_keeps (SameHome s) (fun b a hb => hb.trans (h b a)) l (.refl s)

theorem SameHome.of_modDie (s : State) (d : Nat) {f : Die → Die} (hf : ∀ x, (f x).vlines = x.vlines) : SameHome s (s.modDie d f) :=
  ⟨rfl, rfl, rfl, State.die_modDie_keeps Die.vlines hf s d⟩

section

variable {s t : State} (h : SameHome s t)
include h

theorem SameHome.homeDie (pa : Nat) : homeDie t pa = Machine.homeDie s pa := by simp only [Machine.homeDie, h.2.2.1]

theorem SameHome.vline (d line : Nat) : (t.die d).vline line = (s.die d).vline line := by simp only [Die.vline, h.2.2.2]

theorem SameHome.byteAt (a : Nat) : t.byteAt a = s.byteAt a := by simp only [State.byteAt, h.1, h.2.1]

theorem SameHome.bytesAt (n : Nat) : ∀ pa, t.bytesAt pa n = s.bytesAt pa n := by
  induction n with
  | zero => intro; rfl
  | succ n ih => intro pa; simp only [State.bytesAt, h.byteAt, ih]

theorem SameHome.homeBytes (pa n : Nat) : homeBytes t pa n = Machine.homeBytes s pa n := by
  simp only [Machine.homeBytes, h.homeDie, h.vline, h.bytesAt]

end

/-! ### What the parts of a transaction leave alone -/

theorem homeLine_data (s : State) (line cls : Nat) : (homeLine s line cls).2 = homeBytes s (line * 128) 128 := by
  unfold homeLine
  dsimp only
  split
  · split
    · rfl
    · split <;> rfl
  · rfl

section Keeps

variable {s t : State} (h : HomeKeeps s t)
include h

theorem HomeKeeps.dir (d : Nat) : (t.die d).dir = (s.die d).dir := (congrArg Die.dir (h.2 d) :)
theorem HomeKeeps.txns (d : Nat) : (t.die d).txns = (s.die d).txns := (congrArg Die.txns (h.2 d) :)
theorem HomeKeeps.homeq (d : Nat) : (t.die d).homeq = (s.die d).homeq := (congrArg Die.homeq (h.2 d) :)
theorem HomeKeeps.sf (d : Nat) : (t.die d).sf = (s.die d).sf := (congrArg Die.sf (h.2 d) :)
theorem HomeKeeps.sfq (d : Nat) : (t.die d).sfq = (s.die d).sfq := (congrArg Die.sfq (h.2 d) :)
theorem HomeKeeps.dirSt (d line : Nat) : (t.die d).dirSt line = (s.die d).dirSt line := by simp only [Die.dirSt, h.dir]
theorem HomeKeeps.sfEntry (d line : Nat) : (t.die d).sfEntry line = (s.die d).sfEntry line := by simp only [Die.sfEntry, h.sf]
theorem HomeKeeps.inTxn (d line : Nat) : (t.die d).inTxn line = (s.die d).inTxn line := by simp only [Die.inTxn, h.txns]

end Keeps

theorem HomeEffect.toHome {s t : State} (h : HomeEffect s t) : t.toHome = s.toHome := by rw [h.2]
theorem HomeEffect.toDie {s t : State} (h : HomeEffect s t) : t.toDie = s.toDie := by rw [h.2]

theorem setDir_none (s : State) (h line : Nat) : setDir s h line none = s.modDie h (fun x => { x with dir := x.dir.filter (fun e => e.line != line) }) := rfl

theorem setDir_some (s : State) (h line : Nat) (v : DirSt) : setDir s h line (some v) =
    (s.modDie h (fun x => { x with dir := ⟨line, v, s.fresh⟩ :: x.dir.filter (fun e => e.line != line) })).bump := rfl

theorem State.die_bump (s : State) (d : Nat) : s.bump.die d = s.die d := rfl

theorem setDir_dirSt (s : State) {h : Nat} (hh : h < 4) (line : Nat) (st : Option DirSt) : ((setDir s h line st).die h).dirSt line = st := by
  cases st with
  | none =>
    simp only [setDir_none, State.die_modDie s _ hh, Die.dirSt, Option.map_eq_none_iff, List.find?_eq_none, List.mem_filter]
    intro e he
    simpa using he.2
  | some v => simp [setDir_some, State.die_bump, State.die_modDie s _ hh, Die.dirSt]

theorem setDir_frame (s : State) (h line : Nat) (st : Option DirSt) : (setDir s h line st).toHome = s.toHome ∧ (setDir s h line st).toDie = s.toDie ∧
    (∀ e, ((setDir s h line st).die e).homeq = (s.die e).homeq) ∧ SameHome s (setDir s h line st) ∧ SameMemory s (setDir s h line st) := by
  cases st with
  | none =>
    rw [setDir_none]
    exact ⟨rfl, rfl, State.die_modDie_keeps Die.homeq (fun _ => by rfl) s h, SameHome.of_modDie s h (fun _ => by rfl), fun _ => rfl, rfl⟩
  | some v =>
    rw [setDir_some]
    refine ⟨rfl, rfl, fun e => ?_, ⟨rfl, rfl, rfl, fun e => ?_⟩, fun _ => rfl, rfl⟩
    · rw [State.die_bump]
      exact State.die_modDie_keeps Die.homeq (fun _ => by rfl) s h e
    · rw [State.die_bump]
      exact State.die_modDie_keeps Die.vlines (fun _ => by rfl) s h e

/-! ### Ends of transactions (R104) -/

/-- A step of the home from s to y: the line's directory state is d, the messages out set out, and no request waits that did not. -/
def HomeEnds (s y : State) (home l : Nat) (d : Option DirSt) (out : List (Nat × Nat × ToDie)) : Prop :=
  y.toHome = s.toHome ∧ (y.die home).dirSt l = d ∧ y.toDie = s.toDie ++ out ∧ (y.die home).homeq = (s.die home).homeq

theorem setDir_sends (s : State) {home : Nat} (hh : home < 4) (l d : Nat) (st : Option DirSt) (m : ToDie) :
    HomeEnds s ((setDir s home l st).sendDie home d m) home l st [(home, d, m)] := by
  obtain ⟨h1, h2, h3, -, -⟩ := setDir_frame s home l st
  refine ⟨h1, setDir_dirSt s hh l st, ?_, h3 home⟩
  show (setDir s home l st).toDie ++ _ = _
  rw [h2]

/-- A read of the line before the directory takes its next state changes none of the home's queues. -/
theorem homeLine_sends (s : State) {home : Nat} (hh : home < 4) (l d cls : Nat) (st : Option DirSt) (m : ToDie) :
    HomeEnds s ((setDir (homeLine s l cls).1 home l st).sendDie home d m) home l st [(home, d, m)] := by
  obtain ⟨h1, h2, h3, h4⟩ := setDir_sends (homeLine s l cls).1 hh l d st m
  have he := homeLine_effect s l cls
  exact ⟨h1.trans he.toHome, h2, by rw [h3, he.toDie], h4.trans ((homeLine_keeps s l cls).homeq home)⟩

/-- The next directory state after a read by die d (R104). -/
def readDir (st : Option DirSt) (d : Nat) (keepX : Bool) : DirSt :=
  match st with
  | none => .e d
  | some (.s v) => .s (if v.contains d then v else v ++ [d])
  | some (.e x) | some (.m x) => .s (if keepX && x != d then [x, d] else [d])

/-- The reply to a read: the only holder is granted E. -/
def readReply (st : Option DirSt) (l : Nat) (data : List TByte) : ToDie :=
  match st with
  | none => .datae l data
  | some _ => .datas l data

/-- Die d is among the sharers of the line. -/
def shares (st : Option DirSt) (d : Nat) : Bool :=
  match st with
  | some (.s v) => v.contains d
  | some (.e _) | some (.m _) | none => false

/-- The reply to a write: an upgrade of a die that still holds the line needs no data. -/
def writeReply (st : Option DirSt) (d l : Nat) (upg : Bool) (data : List TByte) : ToDie := if upg && shares st d then .ackm l else .datam l data

theorem HomeReq.line_remote (d l : Nat) (write upg : Bool) : (HomeReq.remote d write upg l).line = l := rfl

/-- The home without its transactions of a line. -/
def txnGone (s : State) (home l : Nat) : State := s.modDie home (fun x => { x with txns := x.txns.filter (fun y => y.req.line != l) })

theorem txnGone_same (s : State) (home l : Nat) : SameHome s (txnGone s home l) := SameHome.of_modDie s home fun _ => by rfl

theorem txnGone_homeq (s : State) (home l : Nat) : ((txnGone s home l).die home).homeq = (s.die home).homeq :=
  State.die_modDie_keeps Die.homeq (fun _ => by rfl) s home home

theorem txnGone_sfEntry (s : State) (home l line : Nat) : ((txnGone s home l).die home).sfEntry line = (s.die home).sfEntry line :=
  State.die_modDie_keeps (fun x => x.sfEntry line) (fun _ => by rfl) s home home

section Finish

variable {s : State} {home l : Nat} (hh : home < 4) (hsf : (s.die home).sfEntry l = none)

include hsf

/-- Where no pair of the home holds the line its pairs give up nothing. -/
theorem homePairs_txnGone (write : Bool) : homePairs (txnGone s home l) home l write = (txnGone s home l, false) := by
  simp only [homePairs, txnGone_sfEntry, hsf]

theorem finishTxn_read_eq (d : Nat) (upg keepX : Bool) (ws : List Nat) (vic : Option (Nat × List Nat)) :
    finishTxn s home ⟨.remote d false upg l, ws, keepX, vic⟩ =
      (setDir (homeLine (txnGone s home l) l (reqClass (txnGone s home l) d l)).1 home l (some (readDir ((s.die home).dirSt l) d keepX))).sendDie home d
        (readReply ((s.die home).dirSt l) l (homeBytes s (l * 128) 128)) := by
  have hpairs := homePairs_txnGone hsf false
  have hdata (cls : Nat) := (homeLine_data (txnGone s home l) l cls).trans ((txnGone_same s home l).homeBytes (l * 128) 128)
  unfold finishTxn
  simp only [HomeReq.line_remote, show s.modDie home (fun x => { x with txns := x.txns.filter (fun y => y.req.line != l) }) = txnGone s home l from rfl]
  cases (s.die home).dirSt l with
  | none => simp only [hpairs, hdata]; rfl
  | some st => cases st <;> simp only [hdata] <;> rfl

theorem finishTxn_write_eq (d : Nat) (upg keepX : Bool) (ws : List Nat) (vic : Option (Nat × List Nat)) :
    finishTxn s home ⟨.remote d true upg l, ws, keepX, vic⟩ =
      if upg && shares ((s.die home).dirSt l) d then (setDir (txnGone s home l) home l (some (.m d))).sendDie home d (.ackm l)
      else (setDir (homeLine (txnGone s home l) l (reqClass (txnGone s home l) d l)).1 home l (some (.m d))).sendDie home d
        (.datam l (homeBytes s (l * 128) 128)) := by
  have hpairs := homePairs_txnGone hsf true
  have hdata (cls : Nat) := (homeLine_data (txnGone s home l) l cls).trans ((txnGone_same s home l).homeBytes (l * 128) 128)
  unfold finishTxn
  simp only [HomeReq.line_remote, show s.modDie home (fun x => { x with txns := x.txns.filter (fun y => y.req.line != l) }) = txnGone s home l from rfl]
  simp only [hpairs, hdata]
  cases (s.die home).dirSt l with
  | none => rfl
  | some st => cases st <;> rfl

include hh

theorem finishTxn_read (d : Nat) (upg keepX : Bool) (ws : List Nat) (vic : Option (Nat × List Nat)) :
    HomeEnds s (finishTxn s home ⟨.remote d false upg l, ws, keepX, vic⟩) home l (some (readDir ((s.die home).dirSt l) d keepX))
      [(home, d, readReply ((s.die home).dirSt l) l (homeBytes s (l * 128) 128))] := by
  rw [finishTxn_read_eq hsf]
  obtain ⟨h1, h2, h3, h4⟩ := homeLine_sends (txnGone s home l) hh l d (reqClass (txnGone s home l) d l)
    (some (readDir ((s.die home).dirSt l) d keepX)) (readReply ((s.die home).dirSt l) l (homeBytes s (l * 128) 128))
  exact ⟨h1, h2, h3, h4.trans (txnGone_homeq s home l)⟩

theorem finishTxn_write (d : Nat) (upg keepX : Bool) (ws : List Nat) (vic : Option (Nat × List Nat)) :
    HomeEnds s (finishTxn s home ⟨.remote d true upg l, ws, keepX, vic⟩) home l (some (.m d))
      [(home, d, writeReply ((s.die home).dirSt l) d l upg (homeBytes s (l * 128) 128))] := by
  rw [finishTxn_write_eq hsf]
  unfold writeReply
  split
  · obtain ⟨h1, h2, h3, h4⟩ := setDir_sends (txnGone s home l) hh l d (some (.m d)) (.ackm l)
    exact ⟨h1, h2, h3, h4.trans (txnGone_homeq s home l)⟩
  · obtain ⟨h1, h2, h3, h4⟩ := homeLine_sends (txnGone s home l) hh l d (reqClass (txnGone s home l) d l) (some (.m d))
      (.datam l (homeBytes s (l * 128) 128))
    exact ⟨h1, h2, h3, h4.trans (txnGone_homeq s home l)⟩

end Finish

end Sys2Proof.Machine
end

section
/-!
O29, second part: requests and answers that reach a home which has nothing else to do (R102 to R104, R106).
-/

namespace Sys2Proof.Machine

/-! ### A change of a die that is undone -/

theorem State.setDie_die (s : State) (d : Nat) : s.setDie d (s.die d) = s := by
  unfold State.setDie State.die
  congr 1
  ext i hi : 1
  rw [Vector.getElem_setIfInBounds]
  split
  · next h => subst h; simp [Array.getD, hi]
  · rfl

/-- Two changes of a die that leave it as it was leave the state as it was. -/
theorem State.modDie_modDie_id (s : State) {d : Nat} (hd : d < 4) {f g : Die → Die} (h : g (f (s.die d)) = s.die d) : (s.modDie d f).modDie d g = s := by
  have hset : (s.modDie d f).modDie d g = s.setDie d (g (f (s.die d))) := by
    rw [State.modDie, State.die_modDie s f hd]
    simp [State.modDie, State.setDie]
  rw [hset, h, State.setDie_die]

/-! ### Requests (R102 to R104) -/

section Request

variable {s : State} {home l : Nat} (hh : home < 4)

include hh in
/-- A request at a home without transactions or waiting requests starts at once. -/
theorem enqueueHome_idle (htx : (s.die home).txns = []) (hq : (s.die home).homeq = []) (d : Nat) (write upg : Bool) :
    enqueueHome s home (.remote d write upg l) = runTxn s home (.remote d write upg l) := by
  have hdie := State.die_modDie s (fun x => { x with homeq := x.homeq ++ [HomeReq.remote d write upg l] }) hh
  have hback : (s.modDie home (fun x => { x with homeq := x.homeq ++ [.remote d write upg l] })).modDie home (fun x => { x with homeq := dropIdx x.homeq 0 }) = s :=
    State.modDie_modDie_id s hh (by simp only [hq, List.nil_append, dropIdx]; rw [← hq])
  unfold enqueueHome pumpHome
  rw [hdie]
  simp only [hq, List.nil_append, List.length_singleton, HomeReq.line_remote, pumpLine]
  rw [hdie]
  simp only [Die.inTxn, htx, hq, List.any_nil, Bool.false_eq_true, if_false, List.nil_append, findIdxVal, HomeReq.line_remote, beq_self_eq_true, if_true]
  rw [hback]

theorem dirSt_modDie_txns (f : List Txn → List Txn) (x : State) :
    ((x.modDie home (fun y => { y with txns := f y.txns })).die home).dirSt l = (x.die home).dirSt l ∧
    ((x.modDie home (fun y => { y with txns := f y.txns })).die home).homeq = (x.die home).homeq :=
  ⟨State.die_modDie_keeps (fun y => y.dirSt l) (fun _ => by rfl) x home home, State.die_modDie_keeps Die.homeq (fun _ => by rfl) x home home⟩

/-- A home sends one message to each die of a list. -/
theorem foldl_sendDie (m : ToDie) (ws : List Nat) : ∀ x : State, ws.foldl (fun t d => t.sendDie home d m) x =
    { x with toDie := x.toDie ++ ws.map (fun d => (home, d, m)) } := by
  induction ws with
  | nil => intro x; simp
  | cons w ws ih =>
    intro x
    rw [List.foldl_cons, ih]
    simp [State.sendDie]

variable {d : Nat} {write upg : Bool}

/-- A request for which no die has to answer ends at once. -/
theorem runTxn_finishes (hroom : (s.die home).dirSt l = none → ((s.die home).dir.filter (fun e => e.line % 16384 == l % 16384)).length < 16)
    (hnone : (s.die home).dirSt l = none ∨ ∃ v, (s.die home).dirSt l = some (.s v) ∧ (write = true → ∀ x ∈ v, x = d)) :
    runTxn s home (.remote d write upg l) = finishTxn s home ⟨.remote d write upg l, [], false, none⟩ := by
  unfold runTxn
  simp only [HomeReq.line_remote]
  rcases hnone with hst | ⟨v, hst, hv⟩
  · refine (if_neg ?_).trans ?_
    · intro hfull
      have := of_decide_eq_true (Bool.and_eq_true_iff.1 hfull).2
      have := hroom hst
      omega
    · simp only [hst]
  · cases write with
    | false => simp [hst]
    | true =>
      have hws : (v.filter (fun x => x != d)).isEmpty = true := by
        rw [List.isEmpty_iff, List.filter_eq_nil_iff]
        intro x hx
        simp [hv rfl x hx]
      simp only [hst, hws, if_true]
      rfl

/-- A request for a line that another die owns is forwarded to it. -/
theorem runTxn_forwards {x : Nat} (hst : (s.die home).dirSt l = some (.e x) ∨ (s.die home).dirSt l = some (.m x)) :
    HomeEnds s (runTxn s home (.remote d write upg l)) home l ((s.die home).dirSt l) [(home, x, if write then .fwdm l else .fwds l)] := by
  have hput (keepX : Bool) (m : ToDie) : HomeEnds s ((s.sendDie home x m).modDie home (fun y =>
      { y with txns := ⟨.remote d write upg l, [x], keepX, none⟩ :: y.txns.filter (fun z => z.req.line != l) })) home l ((s.die home).dirSt l) [(home, x, m)] := by
    obtain ⟨h1, h2⟩ := dirSt_modDie_txns (home := home) (l := l) (fun ts => ⟨.remote d write upg l, [x], keepX, none⟩ :: ts.filter (fun z => z.req.line != l))
      (s.sendDie home x m)
    exact ⟨rfl, h1, rfl, h2⟩
  unfold runTxn
  simp only [HomeReq.line_remote]
  rcases hst with hst | hst <;> simp only [hst] at hput ⊢ <;> cases write <;> exact hput _ _

/-- A write of a line that other dies share invalidates their copies first. -/
theorem runTxn_invalidates {v : List Nat} (hst : (s.die home).dirSt l = some (.s v)) (hv : ∃ x ∈ v, x ≠ d) :
    HomeEnds s (runTxn s home (.remote d true upg l)) home l ((s.die home).dirSt l) ((v.filter (fun x => x != d)).map (fun x => (home, x, .inv l))) := by
  have hws : (v.filter (fun x => x != d)).isEmpty = false := by
    obtain ⟨x, hx, hne⟩ := hv
    rw [List.isEmpty_eq_false_iff_exists_mem]
    exact ⟨x, List.mem_filter.2 ⟨hx, by simpa using hne⟩⟩
  have hrun : runTxn s home (.remote d true upg l) = ((v.filter (fun x => x != d)).foldl (fun t x => t.sendDie home x (.inv l)) s).modDie home (fun y =>
      { y with txns := ⟨.remote d true upg l, v.filter (fun x => x != d), false, none⟩ :: y.txns.filter (fun z => z.req.line != l) }) := by
    unfold runTxn
    simp only [HomeReq.line_remote, hst, hws]
    rfl
  rw [hrun, foldl_sendDie]
  obtain ⟨h1, h2⟩ := dirSt_modDie_txns (home := home) (l := l) (fun ts => ⟨.remote d true upg l, v.filter (fun x => x != d), false, none⟩ ::
    ts.filter (fun z => z.req.line != l)) { s with toDie := s.toDie ++ (v.filter (fun x => x != d)).map (fun x => (home, x, .inv l)) }
  exact ⟨rfl, h1, rfl, h2⟩

end Request

/-! ### Answers (R104, R106) -/

/-- Requests that nobody has left waiting start nothing. -/
theorem pumpAll_idle {s : State} {home : Nat} (hq : (s.die home).homeq = []) : pumpAll s home = s := by simp [pumpAll, hq]

/-- The last answer that a transaction awaits ends it. -/
theorem answerHome_finishes {s : State} {home src l d : Nat} {write upg keepX stale : Bool}
    (htx : (s.die home).txns = [⟨.remote d write upg l, [src], keepX, none⟩])
    (hq : ((finishTxn s home ⟨.remote d write upg l, [], keepX && !stale, none⟩).die home).homeq = []) :
    answerHome s home src l stale = finishTxn s home ⟨.remote d write upg l, [], keepX && !stale, none⟩ := by
  have hfind : (s.die home).txns.find? (fun t => t.req.line == l && t.waits.contains src) = some ⟨.remote d write upg l, [src], keepX, none⟩ := by
    rw [htx]
    simp [HomeReq.line_remote]
  unfold answerHome
  simp only [hfind]
  have hw : [src].filter (fun d => d != src) = [] := by simp
  simp only [hw, List.isEmpty_nil, if_true]
  exact pumpAll_idle hq

section Answer

variable {s : State} {home src l d : Nat} {upg keepX stale : Bool} (hh : home < 4) (hsf : (s.die home).sfEntry l = none) (hq : (s.die home).homeq = [])
include hh hsf hq

theorem answerHome_read (htx : (s.die home).txns = [⟨.remote d false upg l, [src], keepX, none⟩]) :
    HomeEnds s (answerHome s home src l stale) home l (some (readDir ((s.die home).dirSt l) d (keepX && !stale)))
      [(home, d, readReply ((s.die home).dirSt l) l (homeBytes s (l * 128) 128))] := by
  have hends := finishTxn_read hh hsf d upg (keepX && !stale) [] none
  rw [answerHome_finishes htx (hends.2.2.2.trans hq)]
  exact hends

theorem answerHome_write (htx : (s.die home).txns = [⟨.remote d true upg l, [src], keepX, none⟩]) :
    HomeEnds s (answerHome s home src l stale) home l (some (.m d)) [(home, d, writeReply ((s.die home).dirSt l) d l upg (homeBytes s (l * 128) 128))] := by
  have hends := finishTxn_write hh hsf d upg (keepX && !stale) [] none
  rw [answerHome_finishes htx (hends.2.2.2.trans hq)]
  exact hends

end Answer

end Sys2Proof.Machine
end

section
/-!
O29, third part: what the words of a write-back, merged under their mask, leave in the home memory (R104, R109, R436).
-/

namespace Sys2Proof.Machine

/-! ### Words merged into a line -/

/-- The bytes of a line's cipher block b lie under key k. -/
def KeyedBlock (v : Nat → TByte) (b k : Nat) : Prop := ∀ i < 16, (v (b * 16 + i)).key = k

/-- A line as a function of the offset. -/
def lineView (data : List TByte) (j : Nat) : TByte := data.getD j {}

/-- The words that m names of data have come over the line v, which is now v'. In a cipher block of data that is under one key: a word that m names is that
of data, another one stays unless the block goes over to another key, and a block of HBM with a word that m names is under the key. -/
def Merges (hbm : Bool) (data : List TByte) (m : Nat → Bool) (v v' : Nat → TByte) : Prop :=
  ∀ w < 32, ∀ k, KeyedBlock (lineView data) (w / 4) k →
    (m w = true → ∀ i < 4, v' (4 * w + i) = lineView data (4 * w + i)) ∧
    (m w = false → (∀ i < 4, m (w / 4 * 4 + i) = false) ∨ (hbm = true → KeyedBlock v (w / 4) k) → ∀ i < 4, v' (4 * w + i) = v (4 * w + i)) ∧
    (hbm = true → (∃ i < 4, m (w / 4 * 4 + i) = true) ∨ KeyedBlock v (w / 4) k → KeyedBlock v' (w / 4) k)

section Merges

variable {hbm : Bool} {data : List TByte}

theorem Merges.none (v : Nat → TByte) : Merges hbm data (fun _ => false) v v := fun _ _ _ _ => by simp

theorem Merges.congr {m m' : Nat → Bool} {v v' : Nat → TByte} (hm : ∀ w < 32, m w = m' w) (h : Merges hbm data m v v') : Merges hbm data m' v v' := by
  intro w hw k hk
  obtain ⟨h1, h2, h3⟩ := h w hw k hk
  have hblk (i : Nat) (hi : i < 4) : m (w / 4 * 4 + i) = m' (w / 4 * 4 + i) := hm _ (by omega)
  refine ⟨fun hm' => h1 ((hm w hw).trans hm'), fun hm' ho => h2 ((hm w hw).trans hm') ?_, fun hb ho => h3 hb ?_⟩
  · exact ho.imp_left fun ho i hi => (hblk i hi).trans (ho i hi)
  · exact ho.imp_left fun ⟨i, hi, ho⟩ => ⟨i, hi, (hblk i hi).trans ho⟩

/-- Only what the views say of the line's 128 bytes counts. -/
theorem Merges.congr_views {m : Nat → Bool} {v v' x x' : Nat → TByte} (hv : ∀ j < 128, x j = v j) (hv' : ∀ j < 128, x' j = v' j)
    (h : Merges hbm data m v v') : Merges hbm data m x x' := by
  intro w hw k hk
  obtain ⟨h1, h2, h3⟩ := h w hw k hk
  have hkeyed : KeyedBlock x (w / 4) k → KeyedBlock v (w / 4) k := fun hx i hi => by rw [← hv _ (by omega)]; exact hx i hi
  refine ⟨fun hm i hi => (hv' _ (by omega)).trans (h1 hm i hi), fun hm ho i hi => ?_, fun hb ho i hi => ?_⟩
  · rw [hv' _ (by omega), hv _ (by omega)]
    exact h2 hm (ho.imp_right fun ho hb => hkeyed (ho hb)) i hi
  · rw [hv' _ (by omega)]
    exact h3 hb (ho.imp_right hkeyed) i hi

/-- Merges one after the other. -/
theorem Merges.trans {m1 m2 : Nat → Bool} {v v' v'' : Nat → TByte} (h1 : Merges hbm data m1 v v') (h2 : Merges hbm data m2 v' v'') :
    Merges hbm data (fun w => m1 w || m2 w) v v'' := by
  intro w hw k hk
  obtain ⟨a1, a2, a3⟩ := h1 w hw k hk
  obtain ⟨b1, b2, b3⟩ := h2 w hw k hk
  refine ⟨fun hm => ?_, fun hm ho => ?_, fun hb ho => ?_⟩
  · cases hm2 : m2 w with
    | true => exact b1 hm2
    | false =>
      have hm1 : m1 w = true := by simpa [hm2] using hm
      intro i hi
      rw [b2 hm2 (.inr fun hb => a3 hb (.inl ⟨w % 4, by omega, by rwa [show w / 4 * 4 + w % 4 = w by omega]⟩)) i hi]
      exact a1 hm1 i hi
  · obtain ⟨hm1, hm2⟩ := Bool.or_eq_false_iff.1 hm
    intro i hi
    rcases ho with ho | ho
    · rw [b2 hm2 (.inl fun i hi => (Bool.or_eq_false_iff.1 (ho i hi)).2) i hi, a2 hm1 (.inl fun i hi => (Bool.or_eq_false_iff.1 (ho i hi)).1) i hi]
    · rw [b2 hm2 (.inr fun hb => a3 hb (.inr (ho hb))) i hi, a2 hm1 (.inr ho) i hi]
  · refine b3 hb ?_
    rcases ho with ⟨i, hi, ho⟩ | ho
    · rcases Bool.or_eq_true_iff.1 ho with ho | ho
      · exact .inr (a3 hb (.inl ⟨i, hi, ho⟩))
      · exact .inl ⟨i, hi, ho⟩
    · exact .inr (a3 hb (.inr ho))

/-- One word comes over a line: it alone of its cipher block is written, where that need not go over to another key. -/
theorem Merges.word {v v' : Nat → TByte} {w : Nat} (hother : ∀ j < 128, j / 16 ≠ w / 4 → v' j = v j)
    (hblock : ∀ k, KeyedBlock (lineView data) (w / 4) k → (∀ i < 4, v' (4 * w + i) = lineView data (4 * w + i)) ∧
      ((hbm = true → KeyedBlock v (w / 4) k) → ∀ j, j / 16 = w / 4 → j / 4 ≠ w → v' j = v j) ∧ (hbm = true → KeyedBlock v' (w / 4) k)) :
    Merges hbm data (fun x => x == w) v v' := by
  intro x hx k hk
  by_cases hxw : x / 4 = w / 4
  · rw [hxw] at hk ⊢
    obtain ⟨hwritten, hkept, hunder⟩ := hblock k hk
    refine ⟨fun hm => ?_, fun hm ho i hi => ?_, fun hb _ => hunder hb⟩
    · obtain rfl : x = w := by simpa using hm
      exact hwritten
    · have hne : x ≠ w := by simpa using hm
      rcases ho with ho | ho
      · have := ho (w % 4) (by omega)
        rw [show w / 4 * 4 + w % 4 = w by omega] at this
        simp at this
      · exact hkept ho _ (by omega) (by omega)
  · have hsame (j : Nat) (hj : j / 16 = x / 4) : v' j = v j := hother j (by omega) (by omega)
    refine ⟨fun hm => ?_, fun _ _ i hi => hsame _ (by omega), fun _ ho i hi => ?_⟩
    · exact absurd (by simpa using hm : x = w) fun e => hxw (by rw [e])
    · rw [hsame _ (by omega)]
      rcases ho with ⟨i, hi, ho⟩ | ho
      · have : x / 4 * 4 + i = w := by simpa using ho
        omega
      · exact ho i hi

/-- A fold that puts the words of a list where a mask has them. -/
theorem Merges.fold {σ : Type} {view : σ → Nat → TByte} {I : σ → Prop} {g : σ → Nat → σ} {m : Nat → Bool} {φ : Nat → Nat} {ws : List Nat}
    (hstep : ∀ s, ∀ w ∈ ws, I s → I (g s w) ∧ Merges hbm data (fun x => x == φ w) (view s) (view (g s w))) :
    ∀ s, I s → I (ws.foldl (fun s w => if m w then g s w else s) s) ∧
      Merges hbm data (fun x => ws.any (fun w => m w && x == φ w)) (view s) (view (ws.foldl (fun s w => if m w then g s w else s) s)) := by
  induction ws with
  | nil => exact fun s hs => ⟨hs, Merges.none _⟩
  | cons w ws ih =>
    intro s hs
    have ih := ih fun s w hw => hstep s w (by simp [hw])
    rw [List.foldl_cons]
    cases hm : m w with
    | false =>
      obtain ⟨hI, hM⟩ := ih s hs
      exact ⟨hI, hM.congr fun x _ => by simp [hm]⟩
    | true =>
      obtain ⟨hI1, hM1⟩ := hstep s w (by simp) hs
      obtain ⟨hI, hM⟩ := ih _ hI1
      exact ⟨hI, (hM1.trans hM).congr fun x _ => by simp [hm]⟩

end Merges

/-! ### In a vault line (R80, R109) -/

theorem sliceOf_word_getD (data : List TByte) (w : Nat) {i : Nat} (hi : i < 4) : (sliceOf data (4 * w) 4).getD i {} = lineView data (4 * w + i) := by
  simp [sliceOf, lineView, List.getD, hi]

section Data

variable {data : List TByte} (hdata : data.length = 128)
include hdata

theorem sliceOf_word_length {w : Nat} (hw : w < 32) : (sliceOf data (4 * w) 4).length = 4 := by
  simp only [sliceOf, List.length_take, List.length_drop]
  omega

/-- The bytes of a word of a block under one key lie under it. -/
theorem sliceOf_word_key {w k : Nat} (hw : w < 32) (hk : KeyedBlock (lineView data) (w / 4) k) : ∀ b ∈ sliceOf data (4 * w) 4, b.key = k := by
  intro b hb
  obtain ⟨i, hi, rfl⟩ := List.mem_iff_getElem.1 hb
  rw [sliceOf_word_length hdata hw] at hi
  have hget := sliceOf_word_getD data w hi
  rw [List.getD, List.getElem?_eq_getElem (by rwa [sliceOf_word_length hdata hw]), Option.getD_some] at hget
  rw [hget, show 4 * w + i = w / 4 * 16 + (4 * (w % 4) + i) by omega]
  exact hk _ (by omega)

/-- A word of data is put into a line. -/
theorem blockPut_merges {base : Nat} {old : List TByte} (hold : old.length = 128) {w : Nat} (hw : w < 32) :
    (blockPut base old (4 * w) (sliceOf data (4 * w) 4)).length = 128 ∧
    Merges (isHbm base) data (fun x => x == w) (lineView old) (lineView (blockPut base old (4 * w) (sliceOf data (4 * w) 4))) := by
  have hlen := sliceOf_word_length hdata hw
  refine ⟨(blockPut_length _ (by omega) (by omega)).trans hold, Merges.word (fun j _ hj => ?_) fun k hk => ⟨fun i hi => ?_, fun hblk j hj hjw => ?_, fun hb => ?_⟩⟩
  · exact blockPut_keeps (k := 0) _ (by omega) (by omega) (by omega) fun _ _ _ => by omega
  · rw [← sliceOf_word_getD data w hi]
    exact blockPut_written _ (by omega) (by omega) (sliceOf_word_key hdata hw hk) i (by omega)
  · refine blockPut_keeps (k := k) _ (by omega) (by omega) (by omega) fun hb _ _ => ⟨sliceOf_word_key hdata hw hk, ?_⟩
    unfold BlockUnder
    rw [hj]
    exact hblk hb
  · have := blockPut_under hb (sliceOf data (4 * w) 4) (data := old) (off := 4 * w) (by omega) (by omega) (sliceOf_word_key hdata hw hk) (w / 4 * 16)
      (.inr ⟨by omega, by omega, fun e => by rw [e] at hlen; simp at hlen⟩)
    unfold BlockUnder at this
    rw [show w / 4 * 16 / 16 = w / 4 by omega] at this
    exact this

end Data

/-! ### In plain memory (R109, R436) -/

theorem bytesAt_getD (s : State) (n : Nat) : ∀ pa j, j < n → (s.bytesAt pa n).getD j {} = s.byteAt (pa + j) := by
  induction n with
  | zero => intro _ _ h; omega
  | succ n ih =>
    intro pa j hj
    cases j with
    | zero => rfl
    | succ j =>
      have := ih (pa + 1) j (by omega)
      rw [show pa + 1 + j = pa + (j + 1) by omega] at this
      exact this

/-- A line of memory as a function of the offset. -/
def State.lineView (s : State) (base j : Nat) : TByte := s.byteAt (base + j)

theorem carryPoison_clean {s : State} {bs : List TByte} (pa : Nat) (h : ∀ b ∈ bs, b.bad = false) : s.carryPoison pa bs = s := by
  have hany : bs.any TByte.bad = false := by simpa using h
  simp [State.carryPoison, hany]

/-- Bytes written to memory are read again without their marks. -/
theorem byteAt_setBytes_getD {s : State} (hwf : s.memWf = true) (a : Nat) {bs : List TByte} {i : Nat} (hi : i < bs.length) :
    (s.setBytes a bs).byteAt (a + i) = { bs.getD i {} with bad := false } := by
  rw [State.byteAt_setBytes_same s a i bs hwf hi, List.getD, List.getElem?_eq_getElem hi, Option.getD_some]

theorem clear_bad {b : TByte} (h : b.bad = false) : { b with bad := false } = b := by rw [← h]

/-- The cipher block of an offset of a line in memory. -/
theorem bytesAt_block (s : State) (base b : Nat) {i : Nat} (hi : i < 16) :
    (s.bytesAt (base + b * 16) 16).getD i {} = s.lineView base (b * 16 + i) := by
  rw [bytesAt_getD s 16 _ i hi, State.lineView, Nat.add_assoc]

section Word

variable {s : State} {base w : Nat} {bs : List TByte} (hwf : s.memWf = true) (hbase : base % 128 = 0) (hw : w < 32) (hlen : bs.length = 4)
  (hclean : ∀ b ∈ bs, b.bad = false)
include hwf hbase hw hlen hclean

/-- What a write of one word without marks makes of the line it lies in. -/
theorem storeBytes_word : (s.storeBytes (base + 4 * w) bs).memWf = true ∧
    (∀ j < 128, j / 16 ≠ w / 4 → (s.storeBytes (base + 4 * w) bs).lineView base j = s.lineView base j) ∧
    ∀ k, (∀ b ∈ bs, b.key = k) → (∀ i < 4, (s.storeBytes (base + 4 * w) bs).lineView base (4 * w + i) = bs.getD i {}) ∧
      ((isHbm base = true → KeyedBlock (s.lineView base) (w / 4) k) → ∀ j, j / 16 = w / 4 → j / 4 ≠ w →
        (s.storeBytes (base + 4 * w) bs).lineView base j = s.lineView base j) ∧
      (isHbm base = true → KeyedBlock ((s.storeBytes (base + 4 * w) bs).lineView base) (w / 4) k) := by
  have hlo : (base + 4 * w) / 16 * 16 = base + w / 4 * 16 := by omega
  have hhbm : isHbm (base + 4 * w) = isHbm base := by
    rw [← isHbm_line, ← isHbm_line base]; unfold lineOf; congr 2; omega
  have hn : (base + 4 * w + 4 + 15) / 16 * 16 - (base + w / 4 * 16) = 16 := by omega
  have hbad (i : Nat) (hi : i < 4) : (bs.getD i {}).bad = false := by
    rw [List.getD, List.getElem?_eq_getElem (by omega), Option.getD_some]; exact hclean _ (List.getElem_mem _)
  have hmem (i : Nat) (hi : i < 4) : bs.getD i {} ∈ bs := by
    rw [List.getD, List.getElem?_eq_getElem (by omega), Option.getD_some]; exact List.getElem_mem _
  unfold State.storeBytes
  dsimp only
  rw [hlen, hlo, hn, hhbm]
  split
  · next hc =>
    have hin (i : Nat) (hi : i < 4) : (s.setBytes (base + 4 * w) bs).lineView base (4 * w + i) = bs.getD i {} := by
      rw [State.lineView, ← Nat.add_assoc]
      exact (byteAt_setBytes_getD hwf _ (by omega)).trans (clear_bad (hbad i hi))
    have hout (j : Nat) (hj : j / 4 ≠ w) : (s.setBytes (base + 4 * w) bs).lineView base j = s.lineView base j :=
      State.byteAt_setBytes_other s _ _ bs hwf (by omega)
    refine ⟨State.setBytes_memWf _ _ _ hwf, fun j _ hj => hout j (by omega), fun k hk => ⟨hin, fun _ j _ hj => hout j hj, fun hb i hi => ?_⟩⟩
    by_cases hwi : (w / 4 * 16 + i) / 4 = w
    · rw [show w / 4 * 16 + i = 4 * w + i % 4 by omega, hin _ (by omega)]
      exact hk _ (hmem _ (by omega))
    · rw [hout _ hwi]
      have hall : bs.all (fun b => (s.bytesAt (base + w / 4 * 16) 16).all (fun x => x.key == b.key)) = true := by simpa [hb] using hc
      have h0 := List.all_eq_true.1 hall _ (hmem 0 (by omega))
      have hlenOld := s.bytesAt_length 16 (base + w / 4 * 16)
      have hi0 : (s.bytesAt (base + w / 4 * 16) 16).getD i {} ∈ s.bytesAt (base + w / 4 * 16) 16 := by
        rw [List.getD, List.getElem?_eq_getElem (by omega), Option.getD_some]; exact List.getElem_mem _
      have hkey := List.all_eq_true.1 h0 _ hi0
      rw [bytesAt_block s base _ hi] at hkey
      exact (by simpa using hkey : (s.lineView base (w / 4 * 16 + i)).key = _).trans (hk _ (hmem 0 (by omega)))
  · next hc =>
    have hb : isHbm base = true := by
      by_contra hb
      exact hc (by simp [hb])
    have hbb : isHbm (base + w / 4 * 16) = true := by
      rw [← hb, ← isHbm_line, ← isHbm_line base]; unfold lineOf; congr 2; omega
    have hoff : base + 4 * w - (base + w / 4 * 16) = 4 * (w % 4) := by omega
    have hold := s.bytesAt_length 16 (base + w / 4 * 16)
    have hnew : (blockPut (base + w / 4 * 16) (s.bytesAt (base + w / 4 * 16) 16) (4 * (w % 4)) bs).length = 16 :=
      (blockPut_length bs (by omega) (by omega)).trans hold
    have hget (i : Nat) (hi : i < 16) : (s.setBytes (base + w / 4 * 16) (blockPut (base + w / 4 * 16) (s.bytesAt (base + w / 4 * 16) 16) (4 * (w % 4)) bs)).lineView
        base (w / 4 * 16 + i) = { (blockPut (base + w / 4 * 16) (s.bytesAt (base + w / 4 * 16) 16) (4 * (w % 4)) bs).getD i {} with bad := false } := by
      rw [State.lineView, ← Nat.add_assoc]
      exact byteAt_setBytes_getD hwf _ (by omega)
    have hout (j : Nat) (hj : j / 16 ≠ w / 4) : (s.setBytes (base + w / 4 * 16) (blockPut (base + w / 4 * 16) (s.bytesAt (base + w / 4 * 16) 16) (4 * (w % 4)) bs)).lineView
        base j = s.lineView base j := State.byteAt_setBytes_other s _ _ _ hwf (by omega)
    rw [hoff]
    refine ⟨State.setBytes_memWf _ _ _ hwf, fun j _ hj => hout j hj, fun k hk => ⟨fun i hi => ?_, fun hblk j hj hjw => ?_, fun _ i hi => ?_⟩⟩
    · rw [show 4 * w + i = w / 4 * 16 + (4 * (w % 4) + i) by omega, hget _ (by omega), blockPut_written bs (by omega) (by omega) hk i (by omega)]
      exact clear_bad (hbad i hi)
    · have hold' (i : Nat) (hi : i < 16) := bytesAt_block s base (w / 4) hi
      rw [show j = w / 4 * 16 + j % 16 by omega, hget _ (by omega), blockPut_keeps (k := k) bs (by omega) (by omega) (by omega) fun _ _ _ => ⟨hk, fun i hi => ?_⟩,
        hold' _ (by omega)]
      · rfl
      · rw [show j % 16 / 16 * 16 + i = i by omega, hold' i hi]
        exact hblk hb i hi
    · rw [hget i hi]
      have := blockPut_under (k := k) hbb bs (data := s.bytesAt (base + w / 4 * 16) 16) (off := 4 * (w % 4)) (by omega) (by omega) hk 0
        (.inr ⟨by omega, by omega, fun e => by rw [e] at hlen; simp at hlen⟩) i hi
      simpa using this

end Word

theorem storeBytes_poison (s : State) (pa : Nat) (bs : List TByte) : (s.storeBytes pa bs).poison = s.poison := by
  unfold State.storeBytes
  dsimp only
  split <;> rfl

section Half

variable {data : List TByte} (hdata : data.length = 128) (hclean : ∀ b ∈ data, b.bad = false)
include hdata hclean

/-- A word of data that is stored in memory comes over its line. -/
theorem storeBytes_merges {s : State} {base w : Nat} (hwf : s.memWf = true) (hbase : base % 128 = 0) (hw : w < 32) :
    (s.storeBytes (base + 4 * w) (sliceOf data (4 * w) 4)).memWf = true ∧
    Merges (isHbm base) data (fun x => x == w) (s.lineView base) ((s.storeBytes (base + 4 * w) (sliceOf data (4 * w) 4)).lineView base) := by
  obtain ⟨h1, h2, h3⟩ := storeBytes_word hwf hbase hw (sliceOf_word_length hdata hw) fun b hb => hclean b (List.mem_of_mem_drop (List.mem_of_mem_take hb))
  refine ⟨h1, Merges.word h2 fun k hk => ?_⟩
  obtain ⟨h4, h5, h6⟩ := h3 k (sliceOf_word_key hdata hw hk)
  exact ⟨fun i hi => (h4 i hi).trans (sliceOf_word_getD data w hi), h5, h6⟩

/-- The bytes of a half of the line are written whole. -/
theorem setBytes_half_merges {s : State} {base h : Nat} (hwf : s.memWf = true) (hh : h < 2) :
    Merges (isHbm base) data (fun x => x / 16 == h) (s.lineView base) ((s.setBytes (base + 64 * h) ((data.drop (64 * h)).take 64)).lineView base) := by
  have hlen : ((data.drop (64 * h)).take 64).length = 64 := by simp only [List.length_take, List.length_drop]; omega
  have hin (j : Nat) (hj : j / 64 = h) : (s.setBytes (base + 64 * h) ((data.drop (64 * h)).take 64)).lineView base j = lineView data j := by
    have hget : ((data.drop (64 * h)).take 64).getD (j % 64) {} = lineView data j := by
      simp only [lineView, List.getD, List.getElem?_take, show j % 64 < 64 by omega, if_true, List.getElem?_drop]
      rw [show 64 * h + j % 64 = j by omega]
    rw [State.lineView, show base + j = base + 64 * h + j % 64 by omega, byteAt_setBytes_getD hwf _ (by omega), hget]
    refine clear_bad ?_
    rw [lineView, List.getD, List.getElem?_eq_getElem (by omega), Option.getD_some]
    exact hclean _ (List.getElem_mem _)
  have hout (j : Nat) (hj : j / 64 ≠ h) : (s.setBytes (base + 64 * h) ((data.drop (64 * h)).take 64)).lineView base j = s.lineView base j :=
    State.byteAt_setBytes_other s _ _ _ hwf (by omega)
  intro w hw k hk
  simp only [beq_iff_eq, beq_eq_false_iff_ne]
  refine ⟨fun hm i hi => hin _ (by omega), fun hm _ i hi => hout _ (by omega), fun _ ho i hi => ?_⟩
  by_cases hwh : w / 16 = h
  · rw [hin _ (by omega)]; exact hk i hi
  · rw [hout _ (by omega)]
    rcases ho with ⟨j, hj, ho⟩ | ho
    · omega
    · exact ho i hi

theorem writeHalf_merges {s : State} {base h : Nat} (M : Nat) (hwf : s.memWf = true) (hbase : base % 128 = 0) (hh : h < 2)
    (hp : s.poisoned (base + 64 * h) 64 = false) :
    (writeHalf s (base + 64 * h) (data.drop (64 * h)) M).memWf = true ∧
    (∀ u ∈ (writeHalf s (base + 64 * h) (data.drop (64 * h)) M).poison, u ∈ s.poison) ∧
    Merges (isHbm base) data (fun w => w / 16 == h && M.testBit (w % 16)) (s.lineView base)
      ((writeHalf s (base + 64 * h) (data.drop (64 * h)) M).lineView base) := by
  have hbit (w : Nat) : M.testBit (w % 16) = (M % 2 ^ 16).testBit (w % 16) := by
    rw [Nat.testBit_mod_two_pow, decide_eq_true (show w % 16 < 16 by omega), Bool.true_and]
  have hdrop : ∀ b ∈ data.drop (64 * h), b.bad = false := fun b hb => hclean b (List.mem_of_mem_drop hb)
  unfold writeHalf
  split
  · next hfull =>
    have hfull : M % 2 ^ 16 = 2 ^ 16 - 1 := by simpa using hfull
    have hmap : ((data.drop (64 * h)).take 64).map (fun b => { b with bad := false }) = (data.drop (64 * h)).take 64 :=
      (List.map_congr_left fun b hb => clear_bad (hdrop b (List.mem_of_mem_take hb))).trans (List.map_id _)
    rw [hmap, carryPoison_clean _ fun b hb => hdrop b (List.mem_of_mem_take hb)]
    refine ⟨State.setBytes_memWf _ _ _ hwf, fun u hu => (List.mem_filter.1 hu).1, ?_⟩
    refine (setBytes_half_merges hdata hclean (s := s.clearPoison (base + 64 * h) 64) hwf hh).congr fun w _ => ?_
    rw [hbit, hfull, Nat.testBit_two_pow_sub_one, show decide (w % 16 < 16) = true by simp; omega, Bool.and_true]
  split
  · next hzero =>
    have hzero : M % 2 ^ 16 = 0 := by simpa using hzero
    exact ⟨hwf, fun u hu => hu, (Merges.none _).congr fun w _ => by rw [hbit, hzero]; simp⟩
  rw [hp]
  have hword (w : Nat) : sliceOf (data.drop (64 * h)) (4 * w) 4 = sliceOf data (4 * (w + 16 * h)) 4 := by
    unfold sliceOf
    rw [List.drop_drop, show 64 * h + 4 * w = 4 * (w + 16 * h) by omega]
  have hstep (t : State) (w : Nat) : ((t.storeBytes (base + 64 * h + 4 * w) ((sliceOf (data.drop (64 * h)) (4 * w) 4).map (fun b => { b with bad := false }))).carryPoison
      (base + 64 * h) (sliceOf (data.drop (64 * h)) (4 * w) 4)) = t.storeBytes (base + 4 * (w + 16 * h)) (sliceOf data (4 * (w + 16 * h)) 4) := by
    have hc : ∀ b ∈ sliceOf (data.drop (64 * h)) (4 * w) 4, b.bad = false := fun b hb => hdrop b (List.mem_of_mem_drop (List.mem_of_mem_take hb))
    rw [carryPoison_clean _ hc, (List.map_congr_left fun b hb => clear_bad (hc b hb)).trans (List.map_id _), hword,
      show base + 64 * h + 4 * w = base + 4 * (w + 16 * h) by omega]
  simp only [hstep, Bool.false_eq_true, if_false]
  obtain ⟨⟨hwf', hpoison⟩, hmerges⟩ := Merges.fold (hbm := isHbm base) (data := data) (view := fun t => t.lineView base)
    (I := fun t => t.memWf = true ∧ t.poison = s.poison) (g := fun t w => t.storeBytes (base + 4 * (w + 16 * h)) (sliceOf data (4 * (w + 16 * h)) 4))
    (m := M.testBit) (φ := fun w => w + 16 * h) (ws := range 0 16) (fun t w hw ⟨ht, htp⟩ => by
      have hw16 := (mem_range _ _ _).1 hw
      obtain ⟨h1, h2⟩ := storeBytes_merges hdata hclean ht hbase (w := w + 16 * h) (by omega)
      exact ⟨⟨h1, (storeBytes_poison _ _ _).trans htp⟩, h2⟩) s ⟨hwf, rfl⟩
  refine ⟨hwf', fun u hu => hpoison ▸ hu, hmerges.congr fun w hw => ?_⟩
  rw [Bool.eq_iff_iff]
  simp only [List.any_eq_true, mem_range, Bool.and_eq_true, beq_iff_eq]
  constructor
  · rintro ⟨x, hx, hbitx, rfl⟩
    exact ⟨by omega, by rwa [show (x + 16 * h) % 16 = x by omega]⟩
  · rintro ⟨hwh, hbitw⟩
    exact ⟨w % 16, by omega, hbitw, by omega⟩

/-- The masked words of a write-back come over their line in memory. -/
theorem writeMaskedRaw_merges {s : State} {l : Nat} (mask : BitVec 32) (hwf : s.memWf = true) (hp : s.poisoned (l * 128) 128 = false) :
    Merges (isHbm (l * 128)) data mask.getLsbD (s.lineView (l * 128)) ((writeMaskedRaw s l data mask).lineView (l * 128)) := by
  have hbase : l * 128 % 128 = 0 := by omega
  have hpart {t : State} (ht : ∀ u ∈ t.poison, u ∈ s.poison) {h : Nat} (hh : h < 2) : t.poisoned (l * 128 + 64 * h) 64 = false := by
    simp only [State.poisoned, List.any_eq_false, Bool.and_eq_true, decide_eq_true_eq, not_and] at hp ⊢
    intro u hu h1 h2
    exact hp u (ht u hu) (by omega) (by omega)
  obtain ⟨hwf1, hpo1, hm1⟩ := writeHalf_merges hdata hclean (s := s) (h := 0) mask.toNat hwf hbase (by omega) (hpart (fun _ h => h) (by omega))
  rw [show l * 128 + 64 * 0 = l * 128 by omega, show data.drop (64 * 0) = data from rfl] at hwf1 hpo1 hm1
  obtain ⟨-, -, hm2⟩ := writeHalf_merges hdata hclean (h := 1) (mask.toNat / 2 ^ 16) hwf1 hbase (by omega) (hpart hpo1 (by omega))
  refine (hm1.trans hm2).congr fun w hw => ?_
  rw [Nat.testBit_div_two_pow]
  by_cases hlow : w < 16
  · rw [show w / 16 = 0 by omega, show w % 16 = w by omega]
    simp [BitVec.getLsbD]
  · rw [show w / 16 = 1 by omega, show w % 16 + 16 = w by omega]
    simp [BitVec.getLsbD]

end Half

/-! ### In the home memory (R104, R109) -/

theorem lostInCache_clean {data : List TByte} (h : ∀ b ∈ data, b.bad = false) (mask : BitVec 32) : lostInCache data mask = 0 := by
  have hbad (off n : Nat) : badIn data off n = false := by
    simp only [badIn, List.any_eq_false, sliceOf]
    intro b hb
    simp [h b (List.mem_of_mem_drop (List.mem_of_mem_take hb))]
  have hfold : (range 0 16).foldl (fun m u => if badIn data (8 * u) 8 && (mask.getLsbD (2 * u) != mask.getLsbD (2 * u + 1)) then m ||| BitVec.ofNat 32 (3 * 4 ^ u) else m)
      (0 : BitVec 32) = 0 := foldl_keeps (fun m => m = 0) (fun m u hm => by simp [hbad, hm]) _ rfl
  unfold lostInCache
  rw [hfold]
  simp

/-- An element that is changed but for what is looked for is found as it is now. -/
theorem find?_mapIf_same {α : Type} {p : α → Bool} {f : α → α} (hf : ∀ x, p x = true → p (f x) = true) {l : List α} :
    (mapIf p f l).find? p = (l.find? p).map f := by
  induction l with
  | nil => rfl
  | cons a l ih =>
    unfold mapIf at ih ⊢
    rw [List.map_cons, List.find?_cons, List.find?_cons]
    cases h : p a with
    | true => simp [hf a h]
    | false => simpa [h] using ih

/-- A change of one die that leaves its vault lines. -/
theorem SameHome.of_setDie {s t : State} {d : Nat} {x : Die} (hm : t.mem = s.mem) (hk : t.keys = s.keys) (hf : t.fw = s.fw)
    (hd : t.dies = s.dies.setIfInBounds d x) (hx : x.vlines = (s.die d).vlines) : SameHome s t := by
  refine ⟨hm, hk, hf, fun e => ?_⟩
  have ht : t.die e = (s.modDie d (fun _ => { x with vlines := (s.die d).vlines })).die e := by
    rw [← hx]
    simp only [State.die, hd]
    rfl
  rw [ht]
  by_cases he : e = d
  · subst he
    by_cases h4 : e < 4
    · rw [State.die_modDie s _ h4]
    · simp [State.modDie, State.setDie, State.die, Array.getD, h4]
  · rw [State.die_modDie_other s _ he]

theorem numberWrite_same (s : State) (pa : Nat) (bs : List Byte) : SameHome s (numberWrite s pa bs) := by
  unfold numberWrite
  split
  · refine SameHome.foldl (fun t r => ?_) _ s
    dsimp only
    split
    · exact .refl t
    · exact .of_setDie rfl rfl rfl rfl rfl
  · exact .refl s

theorem numberWords_same (s : State) (line : Nat) (data : List TByte) (mask : BitVec 32) : SameHome s (numberWords s line data mask) := by
  unfold numberWords
  split
  · refine SameHome.foldl (fun t w => ?_) _ s
    split
    · exact numberWrite_same _ _ _
    · exact .refl t
  · exact .refl s

theorem noteWrite_die (s : State) (pa n d : Nat) : (noteWrite s pa n).die d = s.die d := rfl

theorem homeDie_congr {s t : State} (h : t.fw = s.fw) (pa : Nat) : homeDie t pa = homeDie s pa := by simp only [homeDie, h]

theorem and_not_zero (mask : BitVec 32) : mask &&& ~~~(0 : BitVec 32) = mask :=
  (congrArg (mask &&& ·) (by decide : ~~~(0 : BitVec 32) = BitVec.allOnes 32)).trans BitVec.and_allOnes

/-- The words of a vault line after a merge. -/
def mergedWords (base : Nat) (data : List TByte) (mask : BitVec 32) (old : List TByte) : List TByte :=
  (range 0 32).foldl (fun l w => if mask.getLsbD w then blockPut base l (4 * w) (sliceOf data (4 * w) 4) else l) old

/-- A vault line after a merge of masked words. -/
def VLine.merged (v : VLine) (base : Nat) (data : List TByte) (mask : BitVec 32) (used : Nat) : VLine :=
  { v with data := mergedWords base data mask v.data, dirty := v.dirty ||| mask, used := used }

theorem mergedWords_merges {base : Nat} {data old : List TByte} (mask : BitVec 32) (hdata : data.length = 128) (hold : old.length = 128) :
    (mergedWords base data mask old).length = 128 ∧ Merges (isHbm base) data mask.getLsbD (lineView old) (lineView (mergedWords base data mask old)) := by
  obtain ⟨hlen, hm⟩ := Merges.fold (hbm := isHbm base) (data := data) (view := lineView) (I := fun l => l.length = 128)
    (g := fun l w => blockPut base l (4 * w) (sliceOf data (4 * w) 4)) (m := mask.getLsbD) (φ := id) (ws := range 0 32)
    (fun t w hw ht => blockPut_merges hdata ht (by have := (mem_range _ _ _).1 hw; omega)) old hold
  refine ⟨hlen, hm.congr fun w hw => ?_⟩
  rw [Bool.eq_iff_iff]
  simp only [List.any_eq_true, mem_range, Bool.and_eq_true, beq_iff_eq, id]
  exact ⟨fun ⟨x, _, hx, e⟩ => e ▸ hx, fun h => ⟨w, by omega, h, rfl⟩⟩

section Home

variable {s : State} {l home : Nat} (hh : home < 4) (hhome : homeDie s (l * 128) = some home)
include hhome

theorem homeBytes_vline {v : VLine} (hv : (s.die home).vline l = some v) (hlen : v.data.length = 128) : homeBytes s (l * 128) 128 = v.data := by
  have hline : lineOf (l * 128) = l := by unfold lineOf; omega
  simp only [homeBytes, hhome, hline, hv, sliceOf, show l * 128 % 128 = 0 by omega, List.drop_zero]
  exact List.take_of_length_le (by omega)

theorem homeBytes_memory (hv : (s.die home).vline l = none) : homeBytes s (l * 128) 128 = s.bytesAt (l * 128) 128 := by
  have hline : lineOf (l * 128) = l := by unfold lineOf; omega
  simp only [homeBytes, hhome, hline, hv]

theorem homeBytes_length (hclean : ∀ v, (s.die home).vline l = some v → v.data.length = 128) : (homeBytes s (l * 128) 128).length = 128 := by
  cases hv : (s.die home).vline l with
  | some v => rw [homeBytes_vline hhome hv (hclean v hv)]; exact hclean v hv
  | none => rw [homeBytes_memory hhome hv, State.bytesAt_length]

include hh

/-- Words merged at the home of a line come over the line there, and its length stays. -/
theorem homeMerge_merges {data : List TByte} (mask : BitVec 32) (hwf : s.memWf = true) (hp : s.poisoned (l * 128) 128 = false)
    (hclean : ∀ v, (s.die home).vline l = some v → v.data.length = 128 ∧ ∀ b ∈ v.data, b.bad = false) (hdata : data.length = 128)
    (hdclean : ∀ b ∈ data, b.bad = false) :
    (homeBytes (homeMerge s l data mask) (l * 128) 128).length = 128 ∧
    Merges (isHbm (l * 128)) data mask.getLsbD (lineView (homeBytes s (l * 128) 128)) (lineView (homeBytes (homeMerge s l data mask) (l * 128) 128)) := by
  by_cases h0 : mask = 0
  · subst h0
    rw [homeMerge_clean]
    exact ⟨homeBytes_length hhome fun v hv => (hclean v hv).1, (Merges.none _).congr fun w _ => by simp⟩
  cases hv : (s.die home).vline l with
  | some v =>
    obtain ⟨hlen, hbad⟩ := hclean v hv
    have heq : homeMerge s l data mask = noteWrite (s.modDie home (fun x =>
        { x with vlines := mapIf (fun y => y.line == l) (fun y => y.merged (l * 128) data mask s.fresh) x.vlines })).bump (l * 128) 128 := by
      unfold homeMerge
      rw [if_neg (by simpa using h0), hhome]
      simp only [Option.bind_some, hv, Option.map_some, lostInCache_clean hbad, beq_self_eq_true, if_true, VLine.merged, mergedWords,
        and_not_zero]
    have hv' : ((homeMerge s l data mask).die home).vline l = some (v.merged (l * 128) data mask s.fresh) := by
      rw [heq, noteWrite_die, State.die_bump, State.die_modDie s _ hh]
      exact (find?_mapIf_same (p := fun y : VLine => y.line == l) (f := fun y => VLine.merged y (l * 128) data mask s.fresh) (fun _ h => h)).trans
        (congrArg (Option.map fun y => VLine.merged y (l * 128) data mask s.fresh) hv)
    have hhome' : homeDie (homeMerge s l data mask) (l * 128) = some home := by rw [heq, ← hhome]; exact homeDie_congr rfl _
    obtain ⟨hlen', hm⟩ := mergedWords_merges (base := l * 128) mask hdata hlen
    rw [homeBytes_vline hhome hv hlen, homeBytes_vline hhome' hv' hlen']
    exact ⟨hlen', hm⟩
  | none =>
    have heq : homeMerge s l data mask = numberWords (noteWrite (writeMaskedRaw s l data mask) (l * 128) 128) l data (mask &&& ~~~lostInMemory s l mask) := by
      unfold homeMerge
      rw [if_neg (by simpa using h0), hhome]
      simp only [Option.bind_some, hv, Option.map_none]
    have hsame : SameHome (writeMaskedRaw s l data mask) (homeMerge s l data mask) := by
      rw [heq]
      exact SameHome.trans (t := noteWrite (writeMaskedRaw s l data mask) (l * 128) 128) ⟨rfl, rfl, rfl, fun _ => rfl⟩ (numberWords_same _ _ _ _)
    have hst := writeMaskedRaw_store s l data mask
    have hhome' : homeDie (homeMerge s l data mask) (l * 128) = some home := by
      rw [hsame.homeDie, ← hhome]; exact homeDie_congr (by rw [hst]) _
    have hv' : ((homeMerge s l data mask).die home).vline l = none := by
      rw [hsame.vline, hst]; exact hv
    rw [homeBytes_memory hhome hv, homeBytes_memory hhome' hv', hsame.bytesAt]
    exact ⟨State.bytesAt_length _ _ _, (writeMaskedRaw_merges hdata hdclean mask hwf hp).congr_views (fun j hj => bytesAt_getD s 128 _ j hj)
      fun j hj => bytesAt_getD _ 128 _ j hj⟩

end Home

end Sys2Proof.Machine
end

section
/-!
O29, last part: each message at its home (R101 to R104, R106, R109).
-/

namespace Sys2Proof.Machine

/-! ### Words after a merge, as slices -/

theorem sliceOf_word_congr {a b : List TByte} (ha : a.length = 128) (hb : b.length = 128) {w : Nat} (hw : w < 32)
    (h : ∀ i < 4, lineView a (4 * w + i) = lineView b (4 * w + i)) : sliceOf a (4 * w) 4 = sliceOf b (4 * w) 4 := by
  refine List.ext_getElem ((sliceOf_word_length ha hw).trans (sliceOf_word_length hb hw).symm) fun i hi hi' => ?_
  have h4 : i < 4 := by rwa [sliceOf_word_length ha hw] at hi
  have hget {c : List TByte} (hc : i < (sliceOf c (4 * w) 4).length) : (sliceOf c (4 * w) 4)[i] = lineView c (4 * w + i) := by
    rw [← sliceOf_word_getD c w h4, List.getD, List.getElem?_eq_getElem hc, Option.getD_some]
  rw [hget hi, hget hi', h i h4]

/-- The masked words of data stand in x, and the others are those of old, but in a cipher block that goes to another key. -/
def MergedWords (x old data : List TByte) (mask : BitVec 32) : Prop :=
  ∀ w < 32, ∀ k, (∀ i < 16, (data.getD (w / 4 * 16 + i) {}).key = k) →
    (mask.getLsbD w = true → sliceOf x (4 * w) 4 = sliceOf data (4 * w) 4) ∧
    (mask.getLsbD w = false → (∀ i < 4, mask.getLsbD (w / 4 * 4 + i) = false) ∨ (∀ i < 16, (old.getD (w / 4 * 16 + i) {}).key = k) →
      sliceOf x (4 * w) 4 = sliceOf old (4 * w) 4)

theorem Merges.mergedWords {hbm : Bool} {x old data : List TByte} {mask : BitVec 32} (hx : x.length = 128) (hold : old.length = 128)
    (hdata : data.length = 128) (h : Merges hbm data mask.getLsbD (lineView old) (lineView x)) : MergedWords x old data mask := by
  intro w hw k hk
  obtain ⟨h1, h2, -⟩ := h w hw k hk
  exact ⟨fun hm => sliceOf_word_congr hx hdata hw (h1 hm), fun hm ho => sliceOf_word_congr hx hold hw (h2 hm (ho.imp_right fun ho _ => ho))⟩

/-! ### A message at its home (R102) -/

/-- The instruction of a message takes it out of its channel and ends with the line's directory state d and the messages out on their way. -/
def HomeStep (s : State) (i : Instr) (rest : List (Nat × Nat × ToHome)) (home l : Nat) (d : Option DirSt) (out : List (Nat × Nat × ToDie)) : Prop :=
  ∃ t, exec i s = .next t ∧ t.toHome = rest ∧ (t.die home).dirSt l = d ∧ t.toDie = s.toDie ++ out

/-- The state without the message that its home takes. -/
def State.received (s : State) (rest : List (Nat × Nat × ToHome)) : State := { s with toHome := rest }

theorem State.received_same (s : State) (rest : List (Nat × Nat × ToHome)) : SameHome s (s.received rest) := ⟨rfl, rfl, rfl, fun _ => rfl⟩

theorem recvHome_next {s t : State} {src home : Nat} {m : ToHome} {rest : List (Nat × Nat × ToHome)} {f : State → ToHome → Option State}
    (h : takeMsg src home s.toHome = some (m, rest)) (hf : f (s.received rest) m = some t) : recvHome s src home f = .next t := by
  have hf' : f { s with toHome := rest } m = some t := hf
  simp only [recvHome, h, hf']

section Message

variable {s : State} {src home l : Nat} {rest : List (Nat × Nat × ToHome)}

theorem HomeEnds.step {i : Instr} {y : State} {d : Option DirSt} {out : List (Nat × Nat × ToDie)} (hexec : exec i s = .next y)
    (h : HomeEnds (s.received rest) y home l d out) : HomeStep s i rest home l d out := by
  obtain ⟨h1, h2, h3, -⟩ := h
  exact ⟨y, hexec, h1, h2, h3⟩

/-! ### Requests -/

section Request

variable (hh : home < 4) (hsf : (s.die home).sfEntry l = none) (htx : (s.die home).txns = []) (hq : (s.die home).homeq = [])
  (hroom : (s.die home).dirSt l = none → ((s.die home).dir.filter (fun e => e.line % 16384 == l % 16384)).length < 16)
  {i : Instr} {upg : Bool}
include hh hsf htx hq hroom

theorem read_granted (hexec : exec i s = .next (enqueueHome (s.received rest) home (.remote src false upg l)))
    {st : Option DirSt} (hst : (s.die home).dirSt l = st) (hfree : st = none ∨ ∃ v, st = some (.s v)) :
    HomeStep s i rest home l (some (readDir st src false)) [(home, src, readReply st l (homeBytes s (l * 128) 128))] := by
  subst hst
  rw [enqueueHome_idle (s := s.received rest) hh htx hq, runTxn_finishes (s := s.received rest) hroom
    (hfree.imp_right fun ⟨v, hv⟩ => ⟨v, hv, fun h => by cases h⟩)] at hexec
  have hends := finishTxn_read (s := s.received rest) hh hsf src upg false [] none
  rw [(s.received_same rest).homeBytes] at hends
  exact hends.step hexec

theorem write_granted (hexec : exec i s = .next (enqueueHome (s.received rest) home (.remote src true upg l)))
    {st : Option DirSt} (hst : (s.die home).dirSt l = st) (hfree : st = none ∨ ∃ v, st = some (.s v) ∧ ∀ x ∈ v, x = src) :
    HomeStep s i rest home l (some (.m src)) [(home, src, writeReply st src l upg (homeBytes s (l * 128) 128))] := by
  subst hst
  rw [enqueueHome_idle (s := s.received rest) hh htx hq, runTxn_finishes (s := s.received rest) hroom
    (hfree.imp_right fun ⟨v, hv, hall⟩ => ⟨v, hv, fun _ => hall⟩)] at hexec
  have hends := finishTxn_write (s := s.received rest) hh hsf src upg false [] none
  rw [(s.received_same rest).homeBytes] at hends
  exact hends.step hexec

omit hsf hroom in
theorem request_forwarded {write : Bool} {x : Nat} (hexec : exec i s = .next (enqueueHome (s.received rest) home (.remote src write upg l)))
    (hst : (s.die home).dirSt l = some (.e x) ∨ (s.die home).dirSt l = some (.m x)) :
    HomeStep s i rest home l ((s.die home).dirSt l) [(home, x, if write then .fwdm l else .fwds l)] := by
  rw [enqueueHome_idle (s := s.received rest) hh htx hq] at hexec
  exact (runTxn_forwards (s := s.received rest) hst).step hexec

omit hsf hroom in
theorem write_invalidates {v : List Nat} (hexec : exec i s = .next (enqueueHome (s.received rest) home (.remote src true upg l)))
    (hst : (s.die home).dirSt l = some (.s v)) (hv : ∃ x ∈ v, x ≠ src) :
    HomeStep s i rest home l ((s.die home).dirSt l) ((v.filter (fun x => x != src)).map (fun x => (home, x, .inv l))) := by
  rw [enqueueHome_idle (s := s.received rest) hh htx hq] at hexec
  exact (runTxn_invalidates (s := s.received rest) hst hv).step hexec

end Request

/-! ### Write-backs (R104, R109) -/

/-- The sender of a write-back leaves the directory state, or stays in it with S (R104, R106). -/
theorem writeBackDir_owner {x : State} {keep : Bool} (hst : (x.die home).dirSt l = some (.m src) ∨ (x.die home).dirSt l = some (.e src)) :
    writeBackDir x home src l keep = setDir x home l (if keep then some (.s [src]) else if (x.die home).inTxn l then some (.s []) else none) := by
  rcases hst with hst | hst <;> simp [writeBackDir, hst]

/-- A merge at the home of the line, after the message that brings the words has been taken. -/
theorem mergeReceived (hh : home < 4) (hwf : s.memWf = true) (hhome : homeDie s (l * 128) = some home) (hp : s.poisoned (l * 128) 128 = false)
    (hclean : ∀ v, (s.die home).vline l = some v → v.data.length = 128 ∧ ∀ b ∈ v.data, b.bad = false) {data : List TByte} (mask : BitVec 32)
    (hdata : data.length = 128 ∧ ∀ b ∈ data, b.bad = false) :
    let x := homeMerge (s.received rest) l data mask
    x.toHome = rest ∧ x.toDie = s.toDie ∧ HomeKeeps s x ∧ MergedWords (homeBytes x (l * 128) 128) (homeBytes s (l * 128) 128) data mask := by
  have heff := homeMerge_effect (s.received rest) l data mask
  obtain ⟨hlen, hm⟩ := homeMerge_merges (s := s.received rest) hh hhome mask hwf hp hclean hdata.1 hdata.2
  rw [(s.received_same rest).homeBytes] at hm
  exact ⟨heff.toHome, heff.toDie, HomeKeeps.trans (t := s.received rest) ⟨rfl, fun _ => rfl⟩ (homeMerge_keeps _ _ _ _),
    hm.mergedWords hlen (homeBytes_length hhome fun v hv => (hclean v hv).1) hdata.1⟩

/-! ### Answers (R104, R106) -/

theorem writeReply_unshared {st : Option DirSt} {d l : Nat} {upg : Bool} {data : List TByte} (h : shares st d = false) :
    writeReply st d l upg data = .datam l data := by
  simp [writeReply, h]

section Answer

variable (hh : home < 4) (hsf : (s.die home).sfEntry l = none) (hq : (s.die home).homeq = []) {i : Instr} {d : Nat} {upg keepX stale : Bool}
  (hexec : exec i s = .next (answerHome (s.received rest) home src l stale))
include hh hsf hq hexec

theorem answer_read (htx : (s.die home).txns = [⟨.remote d false upg l, [src], keepX, none⟩]) {st : Option DirSt} (hst : (s.die home).dirSt l = st) :
    HomeStep s i rest home l (some (readDir st d (keepX && !stale))) [(home, d, readReply st l (homeBytes s (l * 128) 128))] := by
  subst hst
  have hends := answerHome_read (s := s.received rest) (stale := stale) hh hsf hq htx
  rw [(s.received_same rest).homeBytes] at hends
  exact hends.step hexec

theorem answer_write (htx : (s.die home).txns = [⟨.remote d true upg l, [src], keepX, none⟩]) {st : Option DirSt} (hst : (s.die home).dirSt l = st) :
    HomeStep s i rest home l (some (.m d)) [(home, d, writeReply st d l upg (homeBytes s (l * 128) 128))] := by
  subst hst
  have hends := answerHome_write (s := s.received rest) (stale := stale) hh hsf hq htx
  rw [(s.received_same rest).homeBytes] at hends
  exact hends.step hexec

end Answer

/-- The answer that brings the owner's words ends the transaction from the merged home memory. -/
theorem fwdack_ends {x : State} (hh : home < 4) (hx : HomeKeeps s x) (hto : x.toHome = rest) (htd : x.toDie = s.toDie)
    (hsf : (s.die home).sfEntry l = none) (hq : (s.die home).homeq = []) {i : Instr} {d : Nat} {upg keepX stale write : Bool}
    (hexec : exec i s = .next (answerHome x home src l stale)) (htx : (s.die home).txns = [⟨.remote d write upg l, [src], keepX, none⟩])
    {st : Option DirSt} (hst : (s.die home).dirSt l = st) :
    HomeStep s i rest home l (some (if write then .m d else readDir st d (keepX && !stale)))
      [(home, d, if write then writeReply st d l upg (homeBytes x (l * 128) 128) else readReply st l (homeBytes x (l * 128) 128))] := by
  have hsf' := (hx.sfEntry home l).trans hsf
  have hq' := (hx.homeq home).trans hq
  have htx' := (hx.txns home).trans htx
  have hst' := (hx.dirSt home l).trans hst
  subst hst'
  cases write with
  | false =>
    obtain ⟨h1, h2, h3, -⟩ := answerHome_read (stale := stale) hh hsf' hq' htx'
    exact ⟨_, hexec, h1.trans hto, h2, by rw [h3, htd]; rfl⟩
  | true =>
    obtain ⟨h1, h2, h3, -⟩ := answerHome_write (stale := stale) hh hsf' hq' htx'
    exact ⟨_, hexec, h1.trans hto, h2, by rw [h3, htd]; rfl⟩

/-- A write-back that finds its sender the owner: the directory takes its next state, WbAck goes back, and the home memory stays. -/
theorem writeBack_acknowledged {x : State} {keep : Bool} (hh : home < 4) (hkeeps : HomeKeeps s x)
    (hst : (s.die home).dirSt l = some (.m src) ∨ (s.die home).dirSt l = some (.e src)) {y : State}
    (hy : y = (writeBackDir x home src l keep).sendDie home src (.wback l)) :
    HomeEnds x y home l (if keep then some (.s [src]) else if (s.die home).inTxn l then some (.s []) else none) [(home, src, .wback l)] ∧
    SameHome x y ∧ SameMemory x y := by
  rw [← hkeeps.dirSt] at hst
  rw [writeBackDir_owner hst, hkeeps.inTxn] at hy
  subst hy
  obtain ⟨-, -, -, hsame, hmem⟩ := setDir_frame x home l (if keep then some (.s [src]) else if (s.die home).inTxn l then some (.s []) else none)
  exact ⟨setDir_sends x hh l src _ _, hsame, hmem⟩

/-! ### The instructions -/

theorem exec_rds (h : takeMsg src home s.toHome = some (.rds l, rest)) :
    exec (.rds src home) s = .next (enqueueHome (s.received rest) home (.remote src false false l)) := by
  show execRds src home s = _
  unfold execRds
  exact recvHome_next h rfl

theorem exec_rdm (h : takeMsg src home s.toHome = some (.rdm l, rest)) :
    exec (.rdm src home) s = .next (enqueueHome (s.received rest) home (.remote src true false l)) := by
  show execRdm src home s = _
  unfold execRdm
  exact recvHome_next h rfl

theorem exec_upg (h : takeMsg src home s.toHome = some (.upg l, rest)) :
    exec (.upg src home) s = .next (enqueueHome (s.received rest) home (.remote src true true l)) := by
  show execUpg src home s = _
  unfold execUpg
  exact recvHome_next h rfl

theorem exec_wbm {data : List TByte} {mask : BitVec 32} {keep : Bool} (h : takeMsg src home s.toHome = some (.wbm l data mask keep, rest)) :
    exec (.wbm src home) s = .next ((writeBackDir (homeMerge (s.received rest) l data mask) home src l keep).sendDie home src (.wback l)) := by
  show execWbm src home s = _
  unfold execWbm
  exact recvHome_next h rfl

theorem exec_evicte (h : takeMsg src home s.toHome = some (.evicte l, rest)) :
    exec (.evicte src home) s = .next ((writeBackDir (s.received rest) home src l false).sendDie home src (.wback l)) := by
  show execEvicte src home s = _
  unfold execEvicte
  exact recvHome_next h rfl

theorem exec_invack (h : takeMsg src home s.toHome = some (.invack l, rest)) :
    exec (.invack src home) s = .next (answerHome (s.received rest) home src l false) := by
  show execInvack src home s = _
  unfold execInvack
  exact recvHome_next h rfl

theorem exec_fwdack {data : List TByte} {mask : BitVec 32} (h : takeMsg src home s.toHome = some (.fwdack l data mask, rest)) :
    exec (.fwdack src home) s = .next (answerHome (homeMerge (s.received rest) l data mask) home src l false) := by
  show execFwdack src home s = _
  unfold execFwdack
  exact recvHome_next h rfl

theorem exec_stale (h : takeMsg src home s.toHome = some (.stale l, rest)) :
    exec (.stale src home) s = .next (answerHome (s.received rest) home src l true) := by
  show execStale src home s = _
  unfold execStale
  exact recvHome_next h rfl

end Message

/-- Settles O29: each message starts, goes on with or ends the line's transaction, and the words that one brings are merged first. -/
theorem homeMessages : Obligations.HomeMessages := by
  intro s src home l rest hwf hh hhome hp hclean hsf quiet dir bytes ends clean merged left awaits next
  refine ⟨fun hn hquiet => ⟨fun hd => ?_, fun v hd => ?_, fun x hd => ?_⟩, fun hn hquiet => ⟨fun hd => ?_, fun v hd => ⟨fun hv => ?_, fun hv => ?_⟩, fun x hd => ?_⟩,
    fun hn hquiet => ⟨fun v hd => ⟨fun hv => ?_, fun hv => ?_⟩, fun x hd => ?_, fun hd => ?_⟩, fun data mask keep hn hdata hd => ?_, fun hn hd => ?_,
    fun d v upg hn haw hd => ?_, fun d data mask hn hdata hd hne => ⟨fun haw => ?_, fun upg haw => ?_⟩, fun d hn hd => ⟨fun haw => ?_, fun upg haw => ?_⟩⟩
  · exact read_granted hh hsf hquiet.1 hquiet.2.1 hquiet.2.2 (exec_rds hn) hd (.inl rfl)
  · exact read_granted hh hsf hquiet.1 hquiet.2.1 hquiet.2.2 (exec_rds hn) hd (.inr ⟨v, rfl⟩)
  · exact request_forwarded hh hquiet.1 hquiet.2.1 (exec_rds hn) hd
  · exact write_granted hh hsf hquiet.1 hquiet.2.1 hquiet.2.2 (exec_rdm hn) hd (.inl rfl)
  · exact write_granted hh hsf hquiet.1 hquiet.2.1 hquiet.2.2 (exec_rdm hn) hd (.inr ⟨v, rfl, hv⟩)
  · exact write_invalidates hh hquiet.1 hquiet.2.1 (exec_rdm hn) hd hv
  · exact request_forwarded hh hquiet.1 hquiet.2.1 (exec_rdm hn) hd
  · exact write_granted hh hsf hquiet.1 hquiet.2.1 hquiet.2.2 (exec_upg hn) hd (.inr ⟨v, rfl, hv⟩)
  · exact write_invalidates hh hquiet.1 hquiet.2.1 (exec_upg hn) hd hv
  · exact request_forwarded hh hquiet.1 hquiet.2.1 (exec_upg hn) hd
  · exact write_granted hh hsf hquiet.1 hquiet.2.1 hquiet.2.2 (exec_upg hn) hd (.inl rfl)
  · obtain ⟨hto, htd, hkeeps, hmerged⟩ := mergeReceived hh hwf hhome hp hclean mask hdata
    obtain ⟨⟨h1, h2, h3, -⟩, hsame, -⟩ := writeBack_acknowledged (keep := keep) hh hkeeps hd rfl
    refine ⟨_, exec_wbm hn, h1.trans hto, h2, by rw [h3, htd], ?_⟩
    show MergedWords (homeBytes _ _ _) _ _ _
    rw [hsame.homeBytes]
    exact hmerged
  · obtain ⟨hends, -, hmem⟩ := writeBack_acknowledged (x := s.received rest) (keep := false) hh ⟨rfl, fun _ => rfl⟩ (.inr hd) rfl
    refine ⟨hends.step (exec_evicte hn), fun t ht => ?_⟩
    cases (exec_evicte hn).symm.trans ht
    exact hmem
  · exact answer_write hh hsf haw.2 (exec_invack hn) haw.1 hd
  · obtain ⟨hto, htd, hkeeps, hmerged⟩ := mergeReceived hh hwf hhome hp hclean mask hdata
    have hstep (st : DirSt) (hst : dir = some st) := fwdack_ends hh hkeeps hto htd hsf haw.2 (exec_fwdack hn) haw.1 hst
    rcases hd with hd | hd
    all_goals
      obtain ⟨t, ht, h1, h2, h3⟩ := hstep _ hd
      exact ⟨t, _, ht, h1, h2.trans (by simp [readDir, hne]), h3, hmerged⟩
  · obtain ⟨hto, htd, hkeeps, hmerged⟩ := mergeReceived hh hwf hhome hp hclean mask hdata
    have hstep (st : DirSt) (hst : dir = some st) := fwdack_ends hh hkeeps hto htd hsf haw.2 (exec_fwdack hn) haw.1 hst
    rcases hd with hd | hd
    all_goals
      obtain ⟨t, ht, h1, h2, h3⟩ := hstep _ hd
      exact ⟨t, _, ht, h1, h2, h3.trans (by rw [if_pos rfl, writeReply_unshared rfl]), hmerged⟩
  · rcases hd with hd | hd | hd <;> exact answer_read hh hsf haw.2 (exec_stale hn) haw.1 hd
  · have hstep (st : DirSt) (hst : dir = some st) := answer_write hh hsf haw.2 (exec_stale hn) haw.1 hst
    rcases hd with hd | hd | hd
    all_goals
      have h := hstep _ hd
      rwa [writeReply_unshared rfl] at h

end Sys2Proof.Machine
end

section
/-!
O30, first part: an access that performs in a C line leaves the filters, their queues and the messages, and the line stands in the state that it had (R96,
R102).
-/

namespace Sys2Proof.Machine

/-! ### States with the same holders of lines (R95, R96) -/

/-- The messages to dies, the filters and their queues, and the C lines of every pair are as before. -/
structure SameHolders (s t : State) : Prop where
  toDie : t.toDie = s.toDie
  sf : ∀ d, (t.die d).sf = (s.die d).sf
  sfq : ∀ d, (t.die d).sfq = (s.die d).sfq
  l1 : ∀ p line, t.l1Find p line cStates = s.l1Find p line cStates

theorem SameHolders.refl (s : State) : SameHolders s s := ⟨rfl, fun _ => rfl, fun _ => rfl, fun _ _ => rfl⟩

theorem SameHolders.trans {s t x : State} (h1 : SameHolders s t) (h2 : SameHolders t x) : SameHolders s x :=
  ⟨h2.toDie.trans h1.toDie, fun d => (h2.sf d).trans (h1.sf d), fun d => (h2.sfq d).trans (h1.sfq d), fun p l => (h2.l1 p l).trans (h1.l1 p l)⟩

theorem SameHolders.ite {s t x : State} {c : Prop} [Decidable c] (ht : SameHolders s t) (hx : SameHolders s x) : SameHolders s (if c then t else x) := by
  split
  · exact ht
  · exact hx

theorem SameHolders.of_eq {s t : State} (hm : t.toDie = s.toDie) (hd : t.dies = s.dies) (hp : t.pairs = s.pairs) : SameHolders s t :=
  ⟨hm, fun d => by simp only [State.die, hd], fun d => by simp only [State.die, hd], fun p l => by simp only [State.l1Find, State.pairOf, hp]⟩

/-- A change of one pair that finds the same C lines. -/
theorem SameHolders.of_setPair (s : State) {x : PairSt} (hx : ∀ line, x.l1Find line cStates = s.l1Find x.id line cStates) : SameHolders s (s.setPair x) := by
  refine ⟨rfl, fun _ => rfl, fun _ => rfl, fun p line => ?_⟩
  rw [State.l1Find, State.pairOf_setPair]
  split
  · next h => rw [hx, h]
  · rfl

/-- A change of one pair that finds the same C lines. -/
theorem SameHolders.of_modPair (s : State) (p : Nat) {f : PairSt → PairSt} (hid : ∀ x, (f x).id = x.id)
    (hf : ∀ x line, (f x).l1Find line cStates = x.l1Find line cStates) : SameHolders s (s.modPair p f) :=
  .of_setPair s fun line => by rw [hf, hid, s.pairOf_id, State.l1Find]

theorem SameHolders.of_modDie (s : State) (d : Nat) {f : Die → Die} (hsf : ∀ x, (f x).sf = x.sf) (hq : ∀ x, (f x).sfq = x.sfq) :
    SameHolders s (s.modDie d f) :=
  ⟨rfl, State.die_modDie_keeps Die.sf hsf s d, State.die_modDie_keeps Die.sfq hq s d, fun _ _ => rfl⟩

theorem putUnit_holders (s : State) (u : UnitSt) : SameHolders s (s.putUnit u) := .of_eq rfl rfl rfl
theorem modUnit_holders (s : State) (k : UKey) (f : UnitSt → UnitSt) : SameHolders s (s.modUnit k f) := .of_eq rfl rfl rfl
theorem bump_holders (s : State) : SameHolders s s.bump := .of_eq rfl rfl rfl
theorem noteWrite_holders (s : State) (pa n : Nat) : SameHolders s (noteWrite s pa n) := .of_eq rfl rfl rfl

theorem abandonMatrix_holders (s : State) (k : UKey) (p : Nat) : SameHolders s (s.abandonMatrix k p) := by
  rcases s.abandonMatrix_cases k p with h | h <;> rw [h]
  · exact .refl s
  · exact .of_setPair s fun line => by rw [State.l1Find, s.pairOf_id]; rfl

theorem takeTrap_holders (s : State) (u : UnitSt) (t : Trap) : SameHolders s (s.takeTrap u t) := by
  rcases s.takeTrap_cases u t with h | ⟨v, -, -, h | ⟨p, h⟩⟩ <;> rw [h]
  · exact .refl s
  · exact putUnit_holders s v
  · exact (putUnit_holders s v).trans (abandonMatrix_holders _ _ _)

/-! ### The end of an access (R407, R408) -/

/-- An acquire takes merging lines alone out of the L1 (R111). -/
theorem l1Find_without_merging (l : List L1Line) (job line : Nat) :
    (l.filter (fun x => !x.mergesFor job)).find? (fun x => x.line == line && cStates.contains x.st) =
    l.find? (fun x => x.line == line && cStates.contains x.st) := by
  rw [List.find?_filter]
  congr 1
  funext x
  cases hst : x.st <;> simp [beq_eq_decide, L1Line.mergesFor, cStates, hst]

theorem mergeBack_holders (s : State) (pair job : Nat) : SameHolders s (mergeBack s pair job true) := by
  obtain ⟨t, ht, he⟩ := mergeBack_eq s pair job true
  have hkeeps := mergeBack_keeps s pair job true
  refine ⟨by rw [he]; exact ht.toDie, hkeeps.sf, hkeeps.sfq, fun p line => ?_⟩
  have hp : SameHolders t (mergeBack s pair job true) := by
    rw [he]
    exact .of_modPair t pair (fun _ => by rfl) fun x line => l1Find_without_merging x.l1 job line
  rw [hp.l1, State.l1Find, ht.pairOf, State.l1Find]

theorem acquireDone_holders (s : State) (a : Access) : SameHolders s (acquireDone s a) := by
  unfold acquireDone
  split
  · exact .ite (.refl s) (mergeBack_holders _ _ _)
  · exact .refl s

theorem waitvRead_holders (s : State) (u : UnitSt) (v : Nat) : SameHolders s (waitvRead s u v) := by
  unfold waitvRead
  split
  · exact .ite (putUnit_holders _ _) (putUnit_holders _ _)
  · exact .refl s

theorem amoUncount_holders (s : State) (a : Access) : SameHolders s (amoUncount s a) := by
  unfold amoUncount
  split
  · exact modUnit_holders _ _ _
  all_goals exact .refl s

theorem fillConst_holders (s : State) (pair job line : Nat) (data : List TByte) : SameHolders s (fillConst s pair job line data) :=
  (SameHolders.of_modPair s pair (f := fun p => { p with cc := (⟨job, line, data, s.fresh⟩ :: p.cc).take 512 }) (fun _ => by rfl)
    (fun _ _ => by rfl)).trans (bump_holders _)

theorem fillCode_holders (s : State) (pair job pa : Nat) (data : BitVec 256) : SameHolders s (fillCode s pair job pa data) := by
  unfold fillCode
  dsimp only
  refine SameHolders.trans ?_ (bump_holders _)
  refine (SameHolders.of_modDie s _ ?_ ?_).trans (SameHolders.of_modPair _ pair ?_ ?_)
  all_goals intros; rfl

/-- What an access does when it ends leaves the holders of lines. -/
theorem completeAccess_holders (s : State) (a : Access) (r : AccRes) : SameHolders s (completeAccess s a r) := by
  unfold completeAccess
  cases a.use <;> dsimp only
  case store => exact .of_eq rfl rfl rfl
  case pref => exact .refl s
  case load =>
    split
    · exact .refl s
    · refine .ite (.refl s) ?_
      split
      · exact (acquireDone_holders s a).trans (putUnit_holders _ _)
      · exact takeTrap_holders _ _ _
  case amo =>
    refine (amoUncount_holders s a).trans ?_
    split
    · exact .refl _
    · refine .ite (.refl _) ?_
      split
      · exact (acquireDone_holders _ a).trans (putUnit_holders _ _)
      · exact takeTrap_holders _ _ _
  case record =>
    split
    · exact .refl s
    · refine .ite (.refl s) ?_
      split
      · exact putUnit_holders _ _
      · exact takeTrap_holders _ _ _
  case waitv =>
    split
    · exact .refl s
    · refine .ite (.refl s) ?_
      split
      · exact (acquireDone_holders s a).trans (waitvRead_holders _ _ _)
      · exact takeTrap_holders _ _ _
  case const =>
    split
    · exact .refl s
    · refine .ite (.refl s) ?_
      split
      · exact (fillConst_holders _ _ _ _ _).trans (modUnit_holders _ _ _)
      · exact takeTrap_holders _ _ _
  case code =>
    split
    · exact .refl s
    · refine .ite (.refl s) ?_
      split
      · exact (fillCode_holders _ _ _ _ _).trans (modUnit_holders _ _ _)
      · exact putUnit_holders _ _

/-! ### An access in a C line (R94, R102) -/

/-- The filters, their queues and the messages to dies are as before, and the pair's C line has the state st. -/
structure HeldIn (s t : State) (pair line : Nat) (st : L1St) : Prop where
  toDie : t.toDie = s.toDie
  sf : ∀ d, (t.die d).sf = (s.die d).sf
  sfq : ∀ d, (t.die d).sfq = (s.die d).sfq
  l1 : (t.l1Find pair line cStates).map L1Line.st = some st

theorem SameHolders.heldIn {s t : State} (h : SameHolders s t) {pair line : Nat} {st : L1St} (hl : (s.l1Find pair line cStates).map L1Line.st = some st) :
    HeldIn s t pair line st := ⟨h.toDie, h.sf, h.sfq, by rw [h.l1, hl]⟩

theorem HeldIn.trans {s t x : State} {pair line : Nat} {st : L1St} (h1 : HeldIn s t pair line st) (h2 : SameHolders t x) : HeldIn s x pair line st :=
  ⟨h2.toDie.trans h1.toDie, fun d => (h2.sf d).trans (h1.sf d), fun d => (h2.sfq d).trans (h1.sfq d), (congrArg _ (h2.l1 pair line)).trans h1.l1⟩

/-- A change of the lines of a number, which keeps them lines of that number in the states looked for. -/
theorem State.l1Find_l1Mod_map {s : State} {pair line : Nat} {sts : List L1St} {g : L1Line → L1Line}
    (hg : ∀ x, x.line = line → x.st ∈ sts → (g x).line = line ∧ (g x).st ∈ sts) :
    (s.l1Mod pair line sts g).l1Find pair line sts = (s.l1Find pair line sts).map g := by
  rw [State.l1Find, State.l1Mod, State.pairOf_modPair_same _ _ _ (fun _ => by rfl)]
  refine find?_mapIf_same fun x hx => ?_
  simpa using hg x (by simpa using (Bool.and_eq_true_iff.1 hx).1) (by simpa using (Bool.and_eq_true_iff.1 hx).2)

/-- A write in a line that the pair holds to write leaves it in M. -/
theorem write_heldIn {s t : State} {pair line pa n : Nat} {g : L1Line → L1Line} (hl : (s.l1Find pair line cStates).isSome)
    (ht : SameHolders s t) (hg : ∀ x, (g x).line = x.line ∧ (g x).st = .m) : HeldIn s (noteWrite (t.l1Mod pair line cStates g) pa n) pair line .m := by
  have hmod : HeldIn s (t.l1Mod pair line cStates g) pair line .m := by
    refine ⟨ht.toDie, ht.sf, ht.sfq, ?_⟩
    rw [State.l1Find_l1Mod_map fun x hx _ => ⟨(hg x).1.trans hx, by rw [(hg x).2]; decide⟩, ht.l1]
    obtain ⟨l, hl⟩ := Option.isSome_iff_exists.1 hl
    simp [hl, hg]
  exact hmod.trans (noteWrite_holders _ _ _)

/-- All that an access can do in a line that is found: nothing, end, or write and end. -/
theorem performL1_cases {s : State} {a : Access} {sts : List L1St} {l : L1Line} (hl : s.l1Find a.pair a.line sts = some l) :
    performL1 s a sts = s ∨ (∃ x r, SameHolders s x ∧ performL1 s a sts = completeAccess x a r) ∨
    (a.use.writes = true ∧ ∃ new r, performL1 s a sts = completeAccess (noteWrite (s.bump.l1Mod a.pair a.line sts
      (fun x => x.written a (if l.st == .mg then .mg else .m) s.fresh new)) a.pa a.size) a r) := by
  simp only [performL1, hl]
  cases huse : a.use <;> dsimp only
  case load | waitv | record => exact .inr (.inl ⟨_, _, bump_holders s, rfl⟩)
  case pref | const | code => exact .inl rfl
  all_goals
    split
    · exact .inr (.inl ⟨_, _, .refl s, rfl⟩)
    · exact .inr (.inr ⟨rfl, _, _, rfl⟩)

/-- An access that its line permits leaves the line in its state (R94, R102). -/
theorem performL1_heldIn {s : State} {a : Access} {st : L1St} (hl : (s.l1Find a.pair a.line cStates).map L1Line.st = some st)
    (hw : a.use.writes = true → st = .m) : HeldIn s (performL1 s a cStates) a.pair a.line st := by
  obtain ⟨l, hfind, hst⟩ := Option.map_eq_some_iff.1 hl
  rcases performL1_cases hfind with h | ⟨x, r, hx, h⟩ | ⟨hwrites, new, r, h⟩ <;> rw [h]
  · exact (SameHolders.refl s).heldIn hl
  · exact (hx.trans (completeAccess_holders x a r)).heldIn hl
  · obtain rfl := hw hwrites
    have hwritten := write_heldIn (pa := a.pa) (n := a.size) (g := fun x => x.written a (if l.st == .mg then .mg else .m) s.fresh new)
      (by rw [hfind]; rfl) (bump_holders s) fun x => ⟨rfl, by rw [hst]; rfl⟩
    exact hwritten.trans (completeAccess_holders _ a r)

end Sys2Proof.Machine
end

section
/-!
O30, second part: a grant at a die, from the message to the access that waited (R96, R102).
-/

namespace Sys2Proof.Machine

/-! ### Entries of a filter and lines of an L1 (R95, R97) -/

theorem State.sfEntry_sfMod (s : State) {d : Nat} (hd : d < 4) (line : Nat) {f : SfEntry → SfEntry} (hf : ∀ e, (f e).line = e.line) :
    ((s.sfMod d line f).die d).sfEntry line = ((s.die d).sfEntry line).map f := by
  rw [State.sfMod, State.die_modDie s _ hd]
  exact find?_mapIf_same fun e he => by simpa [hf] using he

theorem State.sfq_sfMod (s : State) (d line : Nat) (f : SfEntry → SfEntry) (e : Nat) : ((s.sfMod d line f).die e).sfq = (s.die e).sfq :=
  State.die_modDie_keeps Die.sfq (fun _ => by rfl) s d e

theorem State.l1Find_l1Drop (s : State) (p line : Nat) (sts : List L1St) : (s.l1Drop p line sts).l1Find p line sts = none := by
  rw [State.l1Find, State.l1Drop, State.pairOf_modPair_same _ _ _ (fun _ => by rfl), PairSt.l1Find, List.find?_eq_none]
  intro x hx
  simpa [imp_iff_not_or] using (List.mem_filter.1 hx).2

/-- The L1 of a pair has room for one more line (R1, R77). -/
def State.roomL1 (s : State) (p : Nat) : Prop := (s.pairOf p).l1.length < 512

theorem State.roomL1_l1Drop {s : State} {p : Nat} (h : s.roomL1 p) (line : Nat) (sts : List L1St) : (s.l1Drop p line sts).roomL1 p := by
  rw [State.roomL1, State.l1Drop, State.pairOf_modPair_same _ _ _ (fun _ => by rfl)]
  exact Nat.lt_of_le_of_lt (List.length_filter_le _ _) h

/-- A line that is put where there is room is found, and is all that changes. -/
theorem l1Put_held {s : State} {p : Nat} (h : s.roomL1 p) {l : L1Line} (hl : l.st ∈ cStates) : HeldIn s (l1Put s p l) p l.line l.st := by
  have hput : l1Put s p l = (s.modPair p (fun q => { q with l1 := { l with used := s.fresh } :: q.l1 })).bump := by
    unfold l1Put
    dsimp only
    exact if_pos h
  rw [hput]
  refine ⟨rfl, fun _ => rfl, fun _ => rfl, ?_⟩
  rw [(bump_holders _).l1, State.l1Find, State.pairOf_modPair_same _ _ _ (fun _ => by rfl)]
  simp [PairSt.l1Find, List.contains_eq_mem, hl]

/-! ### A request that is served (R96) -/

/-- The die d holds the line of a request for its pair alone, under the grant g and in the state st, and the request is gone. -/
def Served (s t : State) (d line : Nat) (r : SfReq) (g st : L1St) : Prop :=
  t.toDie = s.toDie ∧ (∀ q ∈ (t.die d).sfq, q.acc.aid ≠ r.acc.aid) ∧
  (∃ e, (t.die d).sfEntry line = some e ∧ e.grant = some g ∧ e.busy = false ∧ e.holders = [r.acc.pair]) ∧
  (t.l1Find r.acc.pair line cStates).map L1Line.st = some st

/-- What ends a request once its line is in place: it leaves the queue, and its access performs. -/
def State.performReq (s : State) (d : Nat) (r : SfReq) : State :=
  let t := s.dropReq d r.acc.aid
  if r.acc.live t then performL1 t r.acc cStates else t

theorem dropReq_sf (s : State) (d aid e : Nat) : ((s.dropReq d aid).die e).sf = (s.die e).sf := State.die_modDie_keeps Die.sf (fun _ => by rfl) s d e

theorem dropReq_gone (s : State) {d : Nat} (hd : d < 4) (aid : Nat) : ∀ q ∈ ((s.dropReq d aid).die d).sfq, q.acc.aid ≠ aid := by
  rw [State.dropReq, State.die_modDie s _ hd]
  intro q hq
  simpa using (List.mem_filter.1 hq).2

/-- A filter entry and a line in place, the request is served. -/
theorem performReq_served {s t : State} {d : Nat} (hd : d < 4) {r : SfReq} {g st : L1St} {e : SfEntry} (hto : t.toDie = s.toDie)
    (he : (t.die d).sfEntry r.acc.line = some e) (hg : e.grant = some g) (hb : e.busy = false) (hh : e.holders = [r.acc.pair])
    (hl : (t.l1Find r.acc.pair r.acc.line cStates).map L1Line.st = some st) (hw : r.acc.use.writes = true → st = .m) :
    Served s (t.performReq d r) d r.acc.line r g st := by
  have hheld : HeldIn (t.dropReq d r.acc.aid) (t.performReq d r) r.acc.pair r.acc.line st := by
    unfold State.performReq
    dsimp only
    split
    · exact performL1_heldIn hl hw
    · exact (SameHolders.refl _).heldIn hl
  refine ⟨hheld.toDie.trans hto, ?_, ⟨e, ?_, hg, hb, hh⟩, hheld.l1⟩
  · rw [hheld.sfq]
    exact dropReq_gone t hd r.acc.aid
  · rw [Die.sfEntry, hheld.sf, dropReq_sf]
    exact he

theorem serveIntra_room {s : State} {d : Nat} {r : SfReq} {data : List TByte} {excl : Bool} (h : s.roomL1 r.acc.pair) :
    serveIntra s d r data excl = serveHere s d r data excl := by
  have hroom : l1Room s r.acc.pair = true := by
    simp [l1Room, show (s.pairOf r.acc.pair).l1.length < 512 from h]
  rw [serveIntra, hroom, Bool.or_true, if_pos rfl]

theorem ownerLine_none {s : State} {d line : Nat} {e : SfEntry} (he : (s.die d).sfEntry line = some e) (ho : e.owner = none) :
    ownerLine s d line = none := by
  simp [ownerLine, he, ho]

/-- No other pair of the die holds the line, and none owns it. -/
structure Alone (e : SfEntry) (pair : Nat) : Prop where
  holders : e.holders.filter (fun p => p != pair) = []
  owner : e.owner = none

/-- A filter entry that grants a pair its line to read: in E where the die has the line alone (R96). -/
def SfEntry.readBy (pair used : Nat) (g : L1St) (excl : Bool) (x : SfEntry) : SfEntry :=
  { x with holders := [pair], busy := false, used := used, grant := some g
           owner := if excl || x.owner == some pair then some pair else none }

/-- A filter entry that grants a pair its line to write (R96). -/
def SfEntry.ownedBy (pair used : Nat) (x : SfEntry) : SfEntry :=
  { x with holders := [pair], owner := some pair, busy := false, used := used, grant := some .m }

section Serve

variable {s : State} {d : Nat} {r : SfReq} {e : SfEntry} {data : List TByte} {excl : Bool} (hd : d < 4)
  (he : (s.die d).sfEntry r.acc.line = some e) (halone : Alone e r.acc.pair)

section Shape
include he halone

theorem serveHere_read_eq (hr : r.write = false) (hmine : s.l1Find r.acc.pair r.acc.line cStates = none) {g : L1St} (hg : e.grant = some g) :
    ∃ bytes, serveHere s d r data excl = (l1Put (s.sfMod d r.acc.line (SfEntry.readBy r.acc.pair s.fresh g excl)) r.acc.pair
      ⟨r.acc.line, if excl then .e else .s, [], bytes, 0, 0, []⟩).performReq d r := by
  have howner : ((if excl then L1St.e else .s) == .e) = excl := by cases excl <;> rfl
  unfold serveHere
  dsimp only
  rw [he, ownerLine_none he halone.owner, hmine, Option.getD_some, hr, halone.holders]
  simp only [hg, List.isEmpty_nil, Bool.and_true, howner]
  exact ⟨_, rfl⟩

theorem serveHere_write_eq (hr : r.write = true) {home : Nat} (hhome : homeDie s (r.acc.line * 128) = some home) (hne : home ≠ d) :
    ∃ bytes dirty, serveHere s d r data excl = (l1Put ((s.l1Drop r.acc.pair r.acc.line cStates).sfMod d r.acc.line
      (SfEntry.ownedBy r.acc.pair s.fresh)) r.acc.pair ⟨r.acc.line, .m, [], bytes, dirty, 0, []⟩).performReq d r := by
  have hfar : (home == d) = false := by simpa using hne
  unfold serveHere
  dsimp only
  rw [he, ownerLine_none he halone.owner, Option.getD_some, hr, halone.holders, hhome, Option.getD_some, hfar]
  exact ⟨_, _, rfl⟩

end Shape

variable (hroom : s.roomL1 r.acc.pair)
include hd he halone hroom

theorem serveHere_read (hr : r.write = false) (huse : r.acc.use.writes = false) (hmine : s.l1Find r.acc.pair r.acc.line cStates = none) {g : L1St}
    (hg : e.grant = some g) : Served s (serveHere s d r data excl) d r.acc.line r g (if excl then .e else .s) := by
  obtain ⟨bytes, hserve⟩ := serveHere_read_eq (data := data) (excl := excl) he halone hr hmine hg
  have hst : (if excl then L1St.e else .s) ∈ cStates := by cases excl <;> decide
  have hput := l1Put_held (s := s.sfMod d r.acc.line (SfEntry.readBy r.acc.pair s.fresh g excl)) hroom
    (l := ⟨r.acc.line, if excl then .e else .s, [], bytes, 0, 0, []⟩) hst
  rw [hserve]
  refine performReq_served hd (e := SfEntry.readBy r.acc.pair s.fresh g excl e) hput.toDie ?_ rfl rfl rfl hput.l1 (fun h => by rw [huse] at h; cases h)
  rw [Die.sfEntry, hput.sf]
  exact (State.sfEntry_sfMod s hd _ (f := SfEntry.readBy r.acc.pair s.fresh g excl) fun _ => rfl).trans (congrArg _ he)

theorem serveHere_write (hr : r.write = true) {home : Nat} (hhome : homeDie s (r.acc.line * 128) = some home) (hne : home ≠ d) :
    Served s (serveHere s d r data excl) d r.acc.line r .m .m := by
  obtain ⟨bytes, dirty, hserve⟩ := serveHere_write_eq (data := data) (excl := excl) he halone hr hhome hne
  have hput := l1Put_held (s := (s.l1Drop r.acc.pair r.acc.line cStates).sfMod d r.acc.line (SfEntry.ownedBy r.acc.pair s.fresh))
    (State.roomL1_l1Drop hroom r.acc.line cStates) (l := ⟨r.acc.line, .m, [], bytes, dirty, 0, []⟩) (by simp [cStates])
  rw [hserve]
  refine performReq_served hd (e := SfEntry.ownedBy r.acc.pair s.fresh e) hput.toDie ?_ rfl rfl rfl hput.l1 (fun _ => rfl)
  rw [Die.sfEntry, hput.sf]
  exact (State.sfEntry_sfMod (s.l1Drop r.acc.pair r.acc.line cStates) hd _ (f := SfEntry.ownedBy r.acc.pair s.fresh) fun _ => rfl).trans (congrArg _ he)

end Serve

end Sys2Proof.Machine
end

section
/-!
O30, last part: each message at a die and its answer (R101, R102).
-/

namespace Sys2Proof.Machine

/-! ### Copies that a die gives up (R97, R101) -/

theorem State.l1Find_l1Drop_other {s : State} {p q line : Nat} {sts : List L1St} (h : s.l1Find q line sts = none) :
    (s.l1Drop p line sts).l1Find q line sts = none := by
  by_cases hq : p = q
  · subst hq
    exact s.l1Find_l1Drop p line sts
  · rw [State.l1Find, State.l1Drop, State.modPair, State.pairOf_setPair, if_neg]
    · exact h
    · exact fun hid => hq ((s.pairOf_id p).symm.trans hid)

/-- The dies and the messages are as before, and of some pairs none holds a line as a C line. -/
structure CopiesGone (s t : State) (ps : List Nat) (line : Nat) : Prop where
  dies : t.dies = s.dies
  toHome : t.toHome = s.toHome
  toDie : t.toDie = s.toDie
  gone : ∀ p ∈ ps, t.l1Find p line cStates = none

theorem foldl_l1Drop_gone (line : Nat) (ps : List Nat) (s : State) :
    CopiesGone s (ps.foldl (fun t p => t.l1Drop p line cStates) s) ps line ∧
    ∀ q, s.l1Find q line cStates = none → (ps.foldl (fun t p => t.l1Drop p line cStates) s).l1Find q line cStates = none := by
  induction ps generalizing s with
  | nil => exact ⟨⟨rfl, rfl, rfl, fun p hp => by cases hp⟩, fun q hq => hq⟩
  | cons p ps ih =>
    obtain ⟨⟨hdies, hhome, hdie, hgone⟩, hkeep⟩ := ih (s.l1Drop p line cStates)
    refine ⟨⟨hdies, hhome, hdie, fun q hq => ?_⟩, fun q hq => hkeep q (State.l1Find_l1Drop_other hq)⟩
    rcases List.mem_cons.1 hq with rfl | hq
    · exact hkeep q (s.l1Find_l1Drop q line cStates)
    · exact hgone q hq

/-- Neither the filter of the die nor a pair that its entry named holds the line. -/
def LineGone (t : State) (d line : Nat) (e : SfEntry) : Prop := (t.die d).sfEntry line = none ∧ ∀ p ∈ e.holders, t.l1Find p line cStates = none

theorem State.sfEntry_sfDrop (s : State) {d : Nat} (hd : d < 4) (line : Nat) : ((s.sfDrop d line).die d).sfEntry line = none := by
  rw [State.sfDrop, State.die_modDie s _ hd, Die.sfEntry, List.find?_eq_none]
  intro e he
  simpa using (List.mem_filter.1 he).2

/-- A die that lets a settled line go keeps nothing of it. -/
theorem invDie_gone {s : State} {d line : Nat} {e : SfEntry} (hd : d < 4) (he : (s.die d).sfEntry line = some e) (hb : e.busy = false) :
    (invDie s d line).toDie = s.toDie ∧ (invDie s d line).toHome = s.toHome ∧ LineGone (invDie s d line) d line e := by
  obtain ⟨⟨hdies, hhome, hdie, hgone⟩, -⟩ := foldl_l1Drop_gone line e.holders s
  have hinv : invalidateDie s d line = e.holders.foldl (fun t p => t.l1Drop p line cStates) s := by simp only [invalidateDie, he]
  have he' : ((e.holders.foldl (fun t p => t.l1Drop p line cStates) s).die d).sfEntry line = some e := by rw [State.die, hdies]; exact he
  have heq : invDie s d line = (e.holders.foldl (fun t p => t.l1Drop p line cStates) s).sfDrop d line := by
    simp only [invDie, hinv, he', hb, Bool.false_eq_true, if_false]
  rw [heq]
  exact ⟨hdie, hhome, State.sfEntry_sfDrop _ hd line, hgone⟩

theorem invDie_absent {s : State} {d line : Nat} (he : (s.die d).sfEntry line = none) : invDie s d line = s := by
  simp only [invDie, invalidateDie, he]

theorem ownerLine_some {s : State} {d line p : Nat} {ln : L1Line} (h : ownerLine s d line = some (p, ln)) : ∃ e, (s.die d).sfEntry line = some e := by
  cases he : (s.die d).sfEntry line with
  | none => simp [ownerLine, he] at h
  | some e => exact ⟨e, rfl⟩

/-! ### Write-backs that await WbAck (R101) -/

theorem awaitsWb_none {s : State} {d line : Nat} (h : (s.die d).wbw.find? (fun w => w.line == line) = none) : awaitsWb s d line = none := by
  simp [awaitsWb, h]

/-- The owner's words are on their way, and the line is no longer held: the answer is Stale. -/
theorem awaitsWb_stale {s : State} {d line : Nat} {w : WbWait} (h : (s.die d).wbw.find? (fun w => w.line == line) = some w) (hk : w.keep = false)
    (he : (s.die d).sfEntry line = none) : awaitsWb s d line = some true := by
  simp [awaitsWb, h, hk, he]

theorem findIdxVal_some {α : Type} {p : α → Bool} {l : List α} {a : α} (h : l.find? p = some a) (k : Nat) :
    ∃ j, findIdxVal p l k = some (k + j, a) ∧ j < l.length := by
  induction l generalizing k with
  | nil => cases h
  | cons b l ih =>
    rw [List.find?_cons] at h
    unfold findIdxVal
    cases hb : p b with
    | true =>
      simp only [hb, Option.some.injEq] at h
      exact ⟨0, by simp [h], by simp⟩
    | false =>
      simp only [hb] at h
      obtain ⟨j, hj, hlt⟩ := ih h (k + 1)
      exact ⟨j + 1, by simp [hj]; omega, by simpa using hlt⟩

theorem dropIdx_length {α : Type} {l : List α} {i : Nat} (h : i < l.length) : (dropIdx l i).length + 1 = l.length := by
  induction l generalizing i with
  | nil => cases h
  | cons a l ih =>
    cases i with
    | zero => rfl
    | succ i => simpa [dropIdx] using ih (by simpa using h)

/-! ### The instructions -/

/-- The state without the message that the die takes. -/
def State.arrived (s : State) (rest : List (Nat × Nat × ToDie)) : State := { s with toDie := rest }

theorem recvDie_next {s t : State} {home dst : Nat} {m : ToDie} {rest : List (Nat × Nat × ToDie)} {f : State → ToDie → Option State}
    (h : takeMsg home dst s.toDie = some (m, rest)) (hf : f (s.arrived rest) m = some t) : recvDie s home dst f = .next t := by
  have hf' : f { s with toDie := rest } m = some t := hf
  simp only [recvDie, h, hf']

section Message

variable {s : State} {home dst l : Nat} {rest : List (Nat × Nat × ToDie)}

/-- The instruction of a message takes it out of its channel and sends the answer m, in a state with P. -/
def DieAnswers (s : State) (i : Instr) (rest : List (Nat × Nat × ToDie)) (dst home : Nat) (m : ToHome) (P : State → Prop) : Prop :=
  ∃ t, exec i s = .next t ∧ t.toDie = rest ∧ t.toHome = s.toHome ++ [(dst, home, m)] ∧ P t

theorem DieAnswers.of_sends {i : Instr} {m : ToHome} {P : State → Prop} {x : State} (hexec : exec i s = .next (x.sendHome dst home m))
    (hd : x.toDie = rest) (hh : x.toHome = s.toHome) (hP : P (x.sendHome dst home m)) : DieAnswers s i rest dst home m P :=
  ⟨_, hexec, hd, by rw [State.sendHome, hh], hP⟩

theorem exec_datas {data : List TByte} (h : takeMsg home dst s.toDie = some (.datas l data, rest)) :
    exec (.datas home dst) s = .next (grantDie (s.arrived rest) dst l .s data) := by
  show execDatas home dst s = _
  unfold execDatas
  exact recvDie_next h rfl

theorem exec_datae {data : List TByte} (h : takeMsg home dst s.toDie = some (.datae l data, rest)) :
    exec (.datae home dst) s = .next (grantDie (s.arrived rest) dst l .e data) := by
  show execDatae home dst s = _
  unfold execDatae
  exact recvDie_next h rfl

theorem exec_datam {data : List TByte} (h : takeMsg home dst s.toDie = some (.datam l data, rest)) :
    exec (.datam home dst) s = .next (grantDie (s.arrived rest) dst l .m data) := by
  show execDatam home dst s = _
  unfold execDatam
  exact recvDie_next h rfl

theorem exec_ackm (h : takeMsg home dst s.toDie = some (.ackm l, rest)) :
    exec (.ackm home dst) s = .next (grantDie (s.arrived rest) dst l .m []) := by
  show execAckm home dst s = _
  unfold execAckm
  exact recvDie_next h rfl

theorem exec_inv (h : takeMsg home dst s.toDie = some (.inv l, rest)) :
    exec (.inv home dst) s = .next ((invDie (s.arrived rest) dst l).sendHome dst home (.invack l)) := by
  show execInv home dst s = _
  unfold execInv
  exact recvDie_next h rfl

theorem exec_fwdm (h : takeMsg home dst s.toDie = some (.fwdm l, rest)) : exec (.fwdm home dst) s = .next (giveUp (s.arrived rest) home dst l) := by
  show execFwdm home dst s = _
  unfold execFwdm
  exact recvDie_next h rfl

theorem exec_recall (h : takeMsg home dst s.toDie = some (.recall l, rest)) :
    exec (.recall home dst) s = .next (giveUp (s.arrived rest) home dst l) := by
  show execRecall home dst s = _
  unfold execRecall
  exact recvDie_next h rfl

theorem exec_fwds_stale (h : takeMsg home dst s.toDie = some (.fwds l, rest)) (hw : awaitsWb (s.arrived rest) dst l = some true) :
    exec (.fwds home dst) s = .next ((s.arrived rest).sendHome dst home (.stale l)) := by
  show execFwds home dst s = _
  unfold execFwds
  exact recvDie_next h (by simp only [hw])

/-- A filter entry whose line the pairs hold in S (R101). -/
def SfEntry.sharedOut (x : SfEntry) : SfEntry := { x with owner := none, grant := some .s }

/-- A line that goes to S, its dirty words on their way home (R101). -/
def L1Line.toShared (x : L1Line) : L1Line := { x with st := .s, dirty := 0 }

theorem exec_fwds_owner (h : takeMsg home dst s.toDie = some (.fwds l, rest)) (hw : awaitsWb (s.arrived rest) dst l = none) {p : Nat} {ln : L1Line}
    (ho : ownerLine (s.arrived rest) dst l = some (p, ln)) :
    exec (.fwds home dst) s = .next ((((s.arrived rest).l1Mod p l [.e, .m] L1Line.toShared).sfMod dst l SfEntry.sharedOut).sendHome dst home
      (.fwdack l ln.data ln.dirty)) := by
  show execFwds home dst s = _
  unfold execFwds
  refine recvDie_next h ?_
  simp only [hw, ho]
  rfl

theorem exec_wback (h : takeMsg home dst s.toDie = some (.wback l, rest)) :
    exec (.wback home dst) s = .next (match findIdxVal (fun (w : WbWait) => w.line == l) (s.die dst).wbw 0 with
      | some (i, _) => (s.arrived rest).modDie dst (fun x => { x with wbw := dropIdx x.wbw i })
      | none => s.arrived rest) := by
  show execWback home dst s = _
  unfold execWback
  refine recvDie_next h ?_
  have hdie : (s.arrived rest).die dst = s.die dst := rfl
  dsimp only
  rw [hdie]
  cases findIdxVal (fun (w : WbWait) => w.line == l) (s.die dst).wbw 0 <;> rfl

/-! ### Grants (R102) -/

/-- A filter entry that records a grant. -/
def SfEntry.granted (g : L1St) (x : SfEntry) : SfEntry := { x with grant := some g }

theorem Die.issuedReq_line {x : Die} {line : Nat} {r : SfReq} (h : x.issuedReq line = some r) : r.acc.line = line := by
  have hr := List.find?_some (p := fun q : SfReq => q.issued && q.acc.line == line) h
  simpa using (Bool.and_eq_true_iff.1 hr).2

section Grant

variable {r : SfReq} {e : SfEntry} (hd : dst < 4) (hr : (s.die dst).issuedReq l = some r) (he : (s.die dst).sfEntry l = some e)
  (hroom : (s.pairOf r.acc.pair).l1.length < 512) (halone : Alone e r.acc.pair)
include hr

theorem grantDie_serves (hroom : (s.pairOf r.acc.pair).l1.length < 512) (g : L1St) (data : List TByte) :
    grantDie (s.arrived rest) dst l g data = serveHere ((s.arrived rest).sfMod dst l (SfEntry.granted g)) dst r data (g == .e) := by
  have hr' : (((s.arrived rest).sfMod dst l (SfEntry.granted g)).die dst).issuedReq l = some r := by
    rw [Die.issuedReq, State.sfq_sfMod]
    exact hr
  refine Eq.trans ?_ (serveIntra_room hroom)
  unfold grantDie
  dsimp only
  rw [show (fun e : SfEntry => { e with grant := some g }) = SfEntry.granted g from rfl, hr']

include hd he hroom halone

theorem grant_reads (hw : r.write = false) (huse : r.acc.use.writes = false) (hmine : s.l1Find r.acc.pair l cStates = none) (g : L1St) (data : List TByte) :
    Served (s.arrived rest) (grantDie (s.arrived rest) dst l g data) dst l r g (if g == .e then .e else .s) := by
  have hline := Die.issuedReq_line hr
  rw [grantDie_serves hr hroom]
  subst hline
  have he' := (State.sfEntry_sfMod (s.arrived rest) hd r.acc.line (f := SfEntry.granted g) fun _ => rfl).trans (congrArg _ he)
  exact serveHere_read hd he' ⟨halone.holders, halone.owner⟩ hroom hw huse hmine rfl

theorem grant_writes (hw : r.write = true) (hhome : homeDie s (l * 128) = some home) (hne : home ≠ dst) (data : List TByte) :
    Served (s.arrived rest) (grantDie (s.arrived rest) dst l .m data) dst l r .m .m := by
  have hline := Die.issuedReq_line hr
  rw [grantDie_serves hr hroom]
  subst hline
  have he' := (State.sfEntry_sfMod (s.arrived rest) hd r.acc.line (f := SfEntry.granted .m) fun _ => rfl).trans (congrArg _ he)
  exact (serveHere_write hd he' ⟨halone.holders, halone.owner⟩ hroom hw hhome hne :)

end Grant

/-! ### FwdS, FwdM and Recall (R101) -/

theorem State.l1Find_toShared (s : State) (p l : Nat) : (s.l1Mod p l [.e, .m] L1Line.toShared).l1Find p l [.e, .m] = none := by
  rw [State.l1Find, State.l1Mod, State.pairOf_modPair_same _ _ _ (fun _ => by rfl), PairSt.l1Find]
  dsimp only
  rw [mapIf, List.find?_eq_none]
  intro x hx
  obtain ⟨y, -, rfl⟩ := List.mem_map.1 hx
  split
  · simp [L1Line.toShared]
  · assumption

theorem fwds_shares (hd : dst < 4) (h : takeMsg home dst s.toDie = some (.fwds l, rest)) (hw : (s.die dst).wbw.find? (fun w => w.line == l) = none) {p : Nat}
    {ln : L1Line} (ho : ownerLine s dst l = some (p, ln)) :
    DieAnswers s (.fwds home dst) rest dst home (.fwdack l ln.data ln.dirty) (fun t =>
      t.l1Find p l [.e, .m] = none ∧ ∃ e, (t.die dst).sfEntry l = some e ∧ e.grant = some .s ∧ e.owner = none) := by
  obtain ⟨e, he⟩ := ownerLine_some ho
  have he' := (State.sfEntry_sfMod ((s.arrived rest).l1Mod p l [.e, .m] L1Line.toShared) hd l (f := SfEntry.sharedOut) fun _ => rfl).trans (congrArg _ he)
  exact .of_sends (exec_fwds_owner h (awaitsWb_none hw) ho) rfl rfl ⟨State.l1Find_toShared _ p l, _, he', rfl, rfl⟩

section GiveUp

variable {i : Instr} (hexec : exec i s = .next (giveUp (s.arrived rest) home dst l))
include hexec

theorem giveUp_stale {w : WbWait} (h : (s.die dst).wbw.find? (fun w => w.line == l) = some w) (hk : w.keep = false) (he : (s.die dst).sfEntry l = none) :
    DieAnswers s i rest dst home (.stale l) (fun _ => True) := by
  refine .of_sends (x := s.arrived rest) ?_ rfl rfl trivial
  rw [hexec, giveUp, awaitsWb_stale (s := s.arrived rest) h hk he]

/-- A die without a write-back on its way lets the line go, and sends the words of the owner's line. -/
theorem giveUp_gone (hd : dst < 4) (hw : (s.die dst).wbw.find? (fun w => w.line == l) = none) {e : SfEntry} (he : (s.die dst).sfEntry l = some e)
    (hb : e.busy = false) :
    DieAnswers s i rest dst home (match ownerLine s dst l with | some (_, ln) => .fwdack l ln.data ln.dirty | none => .fwdack l [] 0)
      (fun t => LineGone t dst l e) := by
  obtain ⟨hdie, hhome, hgone⟩ := invDie_gone (s := s.arrived rest) hd he hb
  have hown : ownerLine (s.arrived rest) dst l = ownerLine s dst l := rfl
  refine .of_sends (x := invDie (s.arrived rest) dst l) ?_ hdie hhome hgone
  rw [hexec, giveUp, awaitsWb_none (s := s.arrived rest) hw]
  dsimp only
  rw [hown]
  cases ownerLine s dst l <;> rfl

end GiveUp

/-! ### WbAck (R101) -/

theorem wback_ends (hd : dst < 4) (h : takeMsg home dst s.toDie = some (.wback l, rest)) :
    ∃ t, exec (.wback home dst) s = .next t ∧ t.toDie = rest ∧
      (∀ w, (s.die dst).wbw.find? (fun w => w.line == l) = some w → (t.die dst).wbw.length + 1 = (s.die dst).wbw.length) ∧ (t.die dst).sf = (s.die dst).sf := by
  refine ⟨_, exec_wback h, ?_⟩
  cases hw : (s.die dst).wbw.find? (fun w => w.line == l) with
  | some w =>
    obtain ⟨j, hj, hlt⟩ := findIdxVal_some hw 0
    rw [hj, Nat.zero_add]
    dsimp only
    rw [State.die_modDie _ _ hd]
    exact ⟨rfl, fun _ _ => dropIdx_length hlt, rfl⟩
  | none =>
    rw [findIdxVal_none _ 0 (by simpa using hw)]
    exact ⟨rfl, fun w hw => (by cases hw), rfl⟩

end Message

/-- Settles O30: a grant serves the request that waits, and the other messages take copies away and answer; an answer is Stale where the owner's words are on
their way. -/
theorem dieMessages : Obligations.DieMessages := by
  intro s home dst l rest hd hne hhome next wb grants answers gone
  refine ⟨fun r e hr he hroom huse => ⟨fun data hh ho hmine => ?_, fun hn hw hh ho hmine => ?_⟩, fun hn => ⟨fun e he hb => ?_, fun he => ?_⟩,
    fun hn => ⟨fun p ln hw ho => fwds_shares hd hn hw ho, fun w hw hk he => ?_⟩, fun m i hi hn => ?_, fun hn => wback_ends hd hn⟩
  · have halone : Alone e r.acc.pair := ⟨by rw [hh]; rfl, ho⟩
    exact ⟨fun hn hw => ⟨_, exec_datas hn, grant_reads hd hr he hroom halone hw (huse hw) hmine .s data⟩,
      fun hn hw => ⟨_, exec_datae hn, grant_reads hd hr he hroom halone hw (huse hw) hmine .e data⟩,
      fun hn hw => ⟨_, exec_datam hn, grant_writes hd hr he hroom halone hw hhome hne data⟩⟩
  · have halone : Alone e r.acc.pair := ⟨by rw [hh]; simp, ho⟩
    exact ⟨_, exec_ackm hn, grant_writes hd hr he hroom halone hw hhome hne []⟩
  · obtain ⟨hdie, hhome', hgone⟩ := invDie_gone (s := s.arrived rest) hd he hb
    exact DieAnswers.of_sends (exec_inv hn) hdie hhome' hgone
  · have habs : invDie (s.arrived rest) dst l = s.arrived rest := invDie_absent he
    have hexec := exec_inv hn
    rw [habs] at hexec
    exact DieAnswers.of_sends hexec rfl rfl trivial
  · exact DieAnswers.of_sends (exec_fwds_stale hn (awaitsWb_stale (s := s.arrived rest) hw hk he)) rfl rfl trivial
  · have hexec : exec i s = .next (giveUp (s.arrived rest) home dst l) := by
      rcases hi with ⟨rfl, rfl⟩ | ⟨rfl, rfl⟩
      · exact exec_fwdm hn
      · exact exec_recall hn
    refine ⟨fun e p ln hw he hb _ ho => ?_, fun e hw he hb ho => ?_, fun w hw hk he => giveUp_stale hexec hw hk he⟩
    · have h := giveUp_gone hexec hd hw he hb
      rwa [ho] at h
    · have h := giveUp_gone hexec hd hw he hb
      rwa [ho] at h

end Sys2Proof.Machine
end
